-- ==== Sys2Proof/Word.lean ====
section
/-! DEFINITION. The words of the machine and the plain data that instructions, requests and answers are made of. -/
namespace Sys2Proof

/-- A byte of memory (R4). -/
abbrev Byte := BitVec 8
/-- A general register, a K register or a virtual address (R153, R11). -/
abbrev Word := BitVec 64
/-- An instruction word (R18). -/
abbrev IWord := BitVec 32
/-- A general register number, g0 to g63 (R20). -/
abbrev Reg := BitVec 6
/-- A vector register number, v0 to v15 (R20). -/
abbrev VReg := BitVec 4

/-- The common fields of a non-hint word: guarded, safe point, stall count (R18). -/
structure Ctl where
  g : Bool
  s : Bool
  w : BitVec 3
deriving DecidableEq, Repr

/-- The qualifier bits of the V format: .CLIP, .M and .S (R20). -/
structure Qual where
  clip : Bool
  m : Bool
  s : Bool
deriving DecidableEq, Repr

/-- A sparse table: numbers with data, kept in rising order of the numbers by `Tab.put`. -/
abbrev Tab (α : Type) := List (Nat × α)

/-- The entry of number `k`. -/
def Tab.find {α : Type} (k : Nat) : Tab α → Option α
  | [] => none
  | (j, x) :: t => if j = k then some x else Tab.find k t

/-- The table with `x` as the entry of number `k`. -/
def Tab.put {α : Type} (k : Nat) (x : α) : Tab α → Tab α
  | [] => [(k, x)]
  | (j, y) :: t => if k < j then (k, x) :: (j, y) :: t else if k = j then (k, x) :: t else (j, y) :: Tab.put k x t

/-- The table without an entry of number `k`. -/
def Tab.del {α : Type} (k : Nat) (t : Tab α) : Tab α := t.filter (fun p => p.1 != k)

/-- The causes of the cause table (R350). -/
inductive Cause where
  | illegal | privilege | stallCheck | trap | doubleFault
  | address | align | unmappedPhys | pageInvalid | translation | permission
  | ctagInvalid | ctagDepth | ctagBusy | tagExhausted | canopyFull | commitConflict | ctagKilled
  | copyArg | checkFail | staleCompletion | dirArg | distArg | view
  | syncTimeout
  | fpException | format | noLanes | laneArg | runOverflow | length
  | matrixArg | scaleAxis | accHolder | capRefused | kbOrder
  | remoteUnknown | remoteArg | collArg | collMismatch | collTimeout | fenced
  | multiplicity | spawnLimit | taskArg | meetState | meetArg | countOvf | budget | hang | predUnderflow
  | eccUncorr | residue | serviceKill | partitionReset | thermalTrip | eccCorrected
deriving DecidableEq, Repr

/-- An endpoint of a message: SRC and DST of the header (R258). `kind` 0 compute core, 1 channel, 2 port die, 3 unit of a compute die. -/
structure Endpoint where
  kind : Nat
  module : Nat
  die : Nat
  index : Nat
deriving DecidableEq, Repr

/-- An agent that keeps a receipt cache (R264). -/
inductive Owner where
  | core (n : Nat)
  | channel (die ch : Nat)
  | ctagAlloc
  | collDie (die : Nat)
  | collPort (p : Nat)
  | distributor (die : Nat)
  | hostIf (p : Nat)
deriving DecidableEq, Repr

/-- The request types of R259 and R399. -/
inductive ReqType where
  | read | write | lds | ldsc | sts | febit | fetest | waitf | atomic | spawn | succdec | mma | mred | collc
  | canopy | xducer | cancel | ready | hwread | hwwrite | hroot | hmgmt
deriving DecidableEq, Repr

/-- A request: the header of R258, the descriptor of R260 and what follows it.
`words` is the register block or the operands, `bytes` the data.
`ctag`, `va`, `cnt`, `guest` and `ptbase` are what the request is performed under (R16, R70, R290).
`tag` is the model's own name for the request, by which answers find it (log 13). -/
structure Request where
  typ : ReqType
  src : Endpoint
  dst : Endpoint
  serialed : Bool
  stream : BitVec 32
  serial : BitVec 32
  ack : BitVec 32
  sent : Nat
  addr : Nat
  off : Nat
  f : Nat
  lsize : Nat
  words : List Word
  bytes : List Byte
  ctag : Nat
  va : Word
  cnt : Nat
  guest : Nat
  ptbase : Word
  tag : Nat
deriving DecidableEq, Repr

/-- Word `i` of a message, as a number. -/
def Request.word (q : Request) (i : Nat) : Nat := ((q.words.drop i).headD 0).toNat

/-- An answer to the request `req`: `res` is the result, `val` the value a cause names (R258, R259). -/
structure Answer where
  req : Request
  res : List Word
  val : Word
deriving DecidableEq, Repr

/-- An engine's arrival at a completion object (R94): the unit that sends it, the module and core of the object, the reference, the failure with its FADDR, the VALUE of a record about it,
and the command it belongs to: the module of its thread, stream, serial, copy tag. -/
structure Arrival where
  src : Endpoint
  module : Nat
  core : Nat
  ref : Word
  fail : Option (Cause × Word)
  val : Word
  flags : BitVec 5
  illop : Bool
  result : Option Word
  home : Nat
  stream : BitVec 32
  serial : BitVec 32
  copy : Option (Nat × Nat)
deriving DecidableEq, Repr

/-- A number of low bits of `x` from bit `lo`, as a number. -/
def bits {n : Nat} (x : BitVec n) (lo len : Nat) : Nat := (x.toNat / 2 ^ lo) % 2 ^ len

end Sys2Proof
end

