-- ==== Sys2Proof/Config.lean ====
section
/-! DEFINITION. What is fixed for the part (capacities of its rules), and the free values: constants without a body, of which nothing can be proved. -/
namespace Sys2Proof.Config

/-- First byte beyond a core's local store (R11, R119). -/
def localSize : Nat := 0x18000
/-- First die offset beyond stacked DRAM (R12). -/
def dramSize : Nat := 0x1800000000
/-- Die offset of the first core window and the distance of two windows (R12). -/
def windowBase : Nat := 0x8000000000
def windowStep : Nat := 0x20000
/-- Cores of a die (R1, R9). -/
def coresPerDie : Nat := 10240
/-- Service cores are numbered from here in the model: port die × 4 + number (R403, log 7). -/
def serviceBase : Nat := 0x40000
/-- Cycles of a microsecond (R2). -/
def usCycles : Nat := 1500
/-- Remote-waiter entries (R132), copy tags (R87), command queue and reduction buffer (R227, R229). -/
def waiterEntries : Nat := 32
def copyTags : Nat := 32
def queueEntries : Nat := 8
/-- Posted requests and engine commands a thread may have outstanding (R366). -/
def maxPosted : Nat := 32
def maxEngine : Nat := 64
/-- Meet entries, swap-list entries, unknown-outcome entries, held blocks (R295, R323, R268, R318). -/
def meetEntries : Nat := 32
def swapEntries : Nat := 32
def unknownEntries : Nat := 16
def heldBlocks : Nat := 16
/-- The fence limit (R288) and the safe-point limit of a pre-emption (R366). -/
def fenceLimit : Nat := 2 ^ 24
def preemptLimit : Nat := 75000
/-- The wait of a save for unsettled requests (R367). -/
def saveWait : Nat := 3000000
/-- Resend interval, give-up time and keep time in cycles; the age limit in µs (R267, R265). -/
def resendCycles : Nat := 30000
def giveUpCycles : Nat := 3000000
def keepCycles : Nat := 6000000
def ageLimit : Nat := 4000
/-- Refresh grid, refresh length and sensor sampling (R57). -/
def refreshStep : Nat := 2925
def refreshLength : Nat := 420
def sampleCycles : Nat := 150000
/-- Cycles of a step of a start, beside the next delay of the tape (R404, log 64). -/
def startCycles : Nat := 1500
/-- Ethernet ports of a port die: 12 fabric ports and the host port (R398). -/
def etherPorts : Nat := 13
/-- The scrub takes the 1,024 channels in turn, each once in 8 hours (R375, log 91). -/
def scrubStep : Nat := 42187500000

/-- FREE VALUE (log 1): where the search for a free ctag number begins (R80: any free number). -/
opaque freeCtag : Nat → Nat
/-- FREE VALUE (log 2): where the search for a fresh capability begins (R226). -/
opaque freshCap : Nat → BitVec 32
/-- FREE VALUE (log 3): where the search for a stream number begins (R261). -/
opaque freshStream : Nat → BitVec 32
/-- FREE VALUE (log 81): the first of the stream numbers of the channels, distributors and host interfaces, assigned at start-up (R317). -/
opaque chanStreams : BitVec 32
/-- FREE VALUE (log 4): whether a translation cache still holds an entry at an access (cycle, virtual address) (R66, R67). -/
opaque tlbKeeps : Nat → Nat → Bool
/-- FREE VALUE (log 28): whether a guest belongs to the host port (R401). -/
opaque hostGuest : Nat → Nat → Bool
/-- FREE VALUE (log 28): where in the die's DRAM firmware copies the n-th block of an HROOT, and in which address space it submits it (R401). -/
opaque firmwareArea : Nat → BitVec 64
opaque firmwareSpace : Nat → BitVec 64
/-- FREE VALUE (log 8): a value the spec gives no rule for, numbered by the counter State.freeCtr. -/
opaque freeValue : Nat → BitVec 64

end Sys2Proof.Config
end

