-- ==== Sys2Proof/Syntax.lean ====
section
/-! DEFINITION. The instructions: one constructor for every row of spec/opcode_table.json, the words in the table's order. The rows without an encoding are the steps of the other agents; their constructors carry the data such a step acts on: a core `k` and slot `sl`, a writing core `w` and the value `v` written, a request `m`, an answer `a`. -/
namespace Sys2Proof

/-- The instructions and steps of the opcode table. -/
inductive Instr where
  -- words
  | add (c : Ctl) (d : Reg) (a : Reg) (b : Reg)
  | sub (c : Ctl) (d : Reg) (a : Reg) (b : Reg)
  | and (c : Ctl) (d : Reg) (a : Reg) (b : Reg)
  | or (c : Ctl) (d : Reg) (a : Reg) (b : Reg)
  | xor (c : Ctl) (d : Reg) (a : Reg) (b : Reg)
  | shl (c : Ctl) (d : Reg) (a : Reg) (b : Reg)
  | shr (c : Ctl) (d : Reg) (a : Reg) (b : Reg)
  | sra (c : Ctl) (d : Reg) (a : Reg) (b : Reg)
  | mul (c : Ctl) (d : Reg) (a : Reg) (b : Reg)
  | mulh (c : Ctl) (d : Reg) (a : Reg) (b : Reg)
  | mulhu (c : Ctl) (d : Reg) (a : Reg) (b : Reg)
  | div (c : Ctl) (d : Reg) (a : Reg) (b : Reg)
  | divu (c : Ctl) (d : Reg) (a : Reg) (b : Reg)
  | rem (c : Ctl) (d : Reg) (a : Reg) (b : Reg)
  | remu (c : Ctl) (d : Reg) (a : Reg) (b : Reg)
  | min_ (c : Ctl) (d : Reg) (a : Reg) (b : Reg)
  | max_ (c : Ctl) (d : Reg) (a : Reg) (b : Reg)
  | minu (c : Ctl) (d : Reg) (a : Reg) (b : Reg)
  | maxu (c : Ctl) (d : Reg) (a : Reg) (b : Reg)
  | rol (c : Ctl) (d : Reg) (a : Reg) (b : Reg)
  | ror (c : Ctl) (d : Reg) (a : Reg) (b : Reg)
  | clz (c : Ctl) (d : Reg) (a : Reg)
  | popc (c : Ctl) (d : Reg) (a : Reg)
  | cmp (c : Ctl) (cc : BitVec 3) (d : Reg) (a : Reg) (b : Reg)
  | bset (c : Ctl) (d : Reg) (a : Reg) (b : Reg)
  | bclr (c : Ctl) (d : Reg) (a : Reg) (b : Reg)
  | binv (c : Ctl) (d : Reg) (a : Reg) (b : Reg)
  | bext (c : Ctl) (d : Reg) (a : Reg) (b : Reg)
  | sel (c : Ctl) (d : Reg) (a : Reg) (b : Reg)
  | crnd (c : Ctl) (d : Reg) (a : Reg) (b : Reg)
  | addi (c : Ctl) (d : Reg) (a : Reg) (imm : BitVec 9)
  | andi (c : Ctl) (d : Reg) (a : Reg) (imm : BitVec 9)
  | ori (c : Ctl) (d : Reg) (a : Reg) (imm : BitVec 9)
  | xori (c : Ctl) (d : Reg) (a : Reg) (imm : BitVec 9)
  | shli (c : Ctl) (d : Reg) (a : Reg) (imm : BitVec 9)
  | shri (c : Ctl) (d : Reg) (a : Reg) (imm : BitVec 9)
  | srai (c : Ctl) (d : Reg) (a : Reg) (imm : BitVec 9)
  | movi (c : Ctl) (d : Reg) (imm : BitVec 15)
  | movs (c : Ctl) (d : Reg) (imm : BitVec 15)
  | gaddr (c : Ctl) (d : Reg) (a : Reg) (t : BitVec 3)
  | fadd (c : Ctl) (fmt : BitVec 2) (d : Reg) (a : Reg) (b : Reg)
  | fsub (c : Ctl) (fmt : BitVec 2) (d : Reg) (a : Reg) (b : Reg)
  | fmul (c : Ctl) (fmt : BitVec 2) (d : Reg) (a : Reg) (b : Reg)
  | fdiv (c : Ctl) (fmt : BitVec 2) (d : Reg) (a : Reg) (b : Reg)
  | fma (c : Ctl) (fmt : BitVec 2) (d : Reg) (a : Reg) (b : Reg)
  | fmin (c : Ctl) (fmt : BitVec 2) (d : Reg) (a : Reg) (b : Reg)
  | fmax (c : Ctl) (fmt : BitVec 2) (d : Reg) (a : Reg) (b : Reg)
  | fsqrt (c : Ctl) (fmt : BitVec 2) (d : Reg) (a : Reg)
  | fcmpD (c : Ctl) (cc : BitVec 3) (d : Reg) (a : Reg) (b : Reg)
  | fcmpS (c : Ctl) (cc : BitVec 3) (d : Reg) (a : Reg) (b : Reg)
  | fcvt (c : Ctl) (src : BitVec 3) (rnd : BitVec 3) (dst : BitVec 3) (d : Reg) (a : Reg)
  | fclass (c : Ctl) (fmt : BitVec 2) (d : Reg) (a : Reg)
  | vadd (c : Ctl) (q : Qual) (vd : VReg) (va : VReg) (vb : VReg)
  | vsub (c : Ctl) (q : Qual) (vd : VReg) (va : VReg) (vb : VReg)
  | vmul (c : Ctl) (q : Qual) (vd : VReg) (va : VReg) (vb : VReg)
  | vfma (c : Ctl) (q : Qual) (vd : VReg) (va : VReg) (vb : VReg)
  | vdiv (c : Ctl) (q : Qual) (vd : VReg) (va : VReg) (vb : VReg)
  | vsqrt (c : Ctl) (clip : Bool) (m : Bool) (vd : VReg) (va : VReg)
  | vmin (c : Ctl) (q : Qual) (vd : VReg) (va : VReg) (vb : VReg)
  | vmax (c : Ctl) (q : Qual) (vd : VReg) (va : VReg) (vb : VReg)
  | vabs (c : Ctl) (clip : Bool) (m : Bool) (vd : VReg) (va : VReg)
  | vneg (c : Ctl) (clip : Bool) (m : Bool) (vd : VReg) (va : VReg)
  | vand (c : Ctl) (q : Qual) (vd : VReg) (va : VReg) (vb : VReg)
  | vor (c : Ctl) (q : Qual) (vd : VReg) (va : VReg) (vb : VReg)
  | vxor (c : Ctl) (q : Qual) (vd : VReg) (va : VReg) (vb : VReg)
  | vshl (c : Ctl) (q : Qual) (vd : VReg) (va : VReg) (vb : VReg)
  | vshr (c : Ctl) (q : Qual) (vd : VReg) (va : VReg) (vb : VReg)
  | vsra (c : Ctl) (q : Qual) (vd : VReg) (va : VReg) (vb : VReg)
  | vcmpeq (c : Ctl) (q : Qual) (vd : VReg) (va : VReg) (vb : VReg)
  | vcmpne (c : Ctl) (q : Qual) (vd : VReg) (va : VReg) (vb : VReg)
  | vcmplt (c : Ctl) (q : Qual) (vd : VReg) (va : VReg) (vb : VReg)
  | vcmple (c : Ctl) (q : Qual) (vd : VReg) (va : VReg) (vb : VReg)
  | vsel (c : Ctl) (clip : Bool) (vd : VReg) (va : VReg) (vb : VReg)
  | vmov (c : Ctl) (clip : Bool) (m : Bool) (vd : VReg) (va : VReg)
  | vrco (c : Ctl) (k : Bool) (vd : VReg) (va : VReg) (vb : VReg)
  | vruns (c : Ctl) (vd : VReg) (va : VReg)
  | vlen (c : Ctl) (vd : VReg) (va : VReg)
  | vsetlen (c : Ctl) (clip : Bool) (vd : VReg) (va : VReg) (vb : VReg)
  | vsplat (c : Ctl) (vd : VReg) (va : VReg) (vb : VReg)
  | vrsum (c : Ctl) (m : Bool) (vd : VReg) (va : VReg)
  | vrsumsq (c : Ctl) (m : Bool) (vd : VReg) (va : VReg)
  | vrmax (c : Ctl) (m : Bool) (vd : VReg) (va : VReg)
  | vrmin (c : Ctl) (m : Bool) (vd : VReg) (va : VReg)
  | vrcnt (c : Ctl) (m : Bool) (vd : VReg) (va : VReg)
  | vamax (c : Ctl) (m : Bool) (vd : VReg) (va : VReg)
  | velem (c : Ctl) (vd : VReg) (va : VReg) (vb : VReg)
  | vcat (c : Ctl) (clip : Bool) (vd : VReg) (va : VReg) (vb : VReg)
  | vcvt (c : Ctl) (vd : VReg) (va : VReg) (fmt : BitVec 5) (rnd : BitVec 3) (sat : Bool)
  | vld (c : Ctl) (vd : VReg) (base : Reg) (count : Reg) (fmt : BitVec 5)
  | vst (c : Ctl) (vd : VReg) (base : Reg) (count : Reg) (fmt : BitVec 5)
  | vclaim (c : Ctl) (d : Reg) (a : Reg)
  | vrels (c : Ctl)
  | vqry (c : Ctl) (d : Reg) (a : Reg)
  | vqnt (c : Ctl) (vd : VReg) (va : VReg) (fmt : BitVec 5) (rnd : BitVec 3) (sat : Bool) (sc : VReg)
  | ldb (c : Ctl) (d : Reg) (base : Reg) (off : Reg)
  | ldbu (c : Ctl) (d : Reg) (base : Reg) (off : Reg)
  | ldh (c : Ctl) (d : Reg) (base : Reg) (off : Reg)
  | ldhu (c : Ctl) (d : Reg) (base : Reg) (off : Reg)
  | ldw (c : Ctl) (d : Reg) (base : Reg) (off : Reg)
  | ldwu (c : Ctl) (d : Reg) (base : Reg) (off : Reg)
  | ldd (c : Ctl) (d : Reg) (base : Reg) (off : Reg)
  | ldq (c : Ctl) (d : Reg) (base : Reg) (off : Reg)
  | stb (c : Ctl) (d : Reg) (base : Reg) (off : Reg)
  | sth (c : Ctl) (d : Reg) (base : Reg) (off : Reg)
  | stw (c : Ctl) (d : Reg) (base : Reg) (off : Reg)
  | std (c : Ctl) (d : Reg) (base : Reg) (off : Reg)
  | stq (c : Ctl) (d : Reg) (base : Reg) (off : Reg)
  | lds (c : Ctl) (sz : BitVec 2) (d : Reg) (base : Reg) (off : Reg)
  | ldsC (c : Ctl) (sz : BitVec 2) (d : Reg) (base : Reg) (off : Reg)
  | sts (c : Ctl) (sz : BitVec 2) (d : Reg) (base : Reg) (off : Reg)
  | aadd (c : Ctl) (w4 : Bool) (d : Reg) (a : Reg) (b : Reg)
  | amin (c : Ctl) (w4 : Bool) (d : Reg) (a : Reg) (b : Reg)
  | amax (c : Ctl) (w4 : Bool) (d : Reg) (a : Reg) (b : Reg)
  | aand (c : Ctl) (w4 : Bool) (d : Reg) (a : Reg) (b : Reg)
  | aor (c : Ctl) (w4 : Bool) (d : Reg) (a : Reg) (b : Reg)
  | axor (c : Ctl) (w4 : Bool) (d : Reg) (a : Reg) (b : Reg)
  | aswp (c : Ctl) (w4 : Bool) (d : Reg) (a : Reg) (b : Reg)
  | acas (c : Ctl) (w4 : Bool) (d : Reg) (a : Reg) (b : Reg)
  | lkp (c : Ctl) (d : Reg) (a : Reg)
  | dset (c : Ctl) (d : Reg) (a : Reg) (b : Reg)
  | dclr (c : Ctl) (a : Reg)
  | dinv (c : Ctl) (d : Reg) (a : Reg) (b : Reg)
  | feset (c : Ctl) (a : Reg)
  | feclr (c : Ctl) (a : Reg)
  | fetest (c : Ctl) (d : Reg) (a : Reg)
  | waitf (c : Ctl) (a : Reg)
  | waitfE (c : Ctl) (a : Reg)
  | fenceAcq (c : Ctl) (scope : BitVec 3)
  | fenceRel (c : Ctl) (scope : BitVec 3)
  | fenceFull (c : Ctl) (scope : BitVec 3)
  | fenceEngine (c : Ctl)
  | ctalloc (c : Ctl) (d : Reg) (a : Reg) (b : Reg)
  | ctset (c : Ctl) (d : Reg) (a : Reg)
  | ctcommit (c : Ctl) (a : Reg) (b : Reg)
  | ctdrop (c : Ctl) (a : Reg) (b : Reg)
  | ctstat (c : Ctl) (d : Reg) (a : Reg)
  | ldx (c : Ctl) (d : Reg) (a : Reg) (b : Reg)
  | cpy (c : Ctl) (d : Reg) (a : Reg) (r : Bool)
  | cpy2 (c : Ctl) (d : Reg) (a : Reg) (r : Bool)
  | gath (c : Ctl) (d : Reg) (a : Reg) (n : Reg)
  | scat (c : Ctl) (d : Reg) (a : Reg)
  | cpyx (c : Ctl) (d : Reg) (a : Reg) (n : Reg)
  | cstat (c : Ctl) (d : Reg)
  | cstatHandle (c : Ctl) (d : Reg) (a : Reg)
  | oclaim (c : Ctl) (d : Reg) (a : Reg)
  | orels (c : Ctl) (a : Reg)
  | mcap (c : Ctl) (d : Reg)
  | mma (c : Ctl) (a : Reg)
  | mred (c : Ctl) (a : Reg)
  | mdrain (c : Ctl) (a : Reg)
  | mdrainScaled (c : Ctl) (a : Reg)
  | cbload (c : Ctl) (a : Reg)
  | mfill (c : Ctl) (a : Reg)
  | coll (c : Ctl) (d : Reg) (a : Reg)
  | rsync (c : Ctl)
  | rstat (c : Ctl) (d : Reg) (a : Reg)
  | xtab (c : Ctl) (d : Reg) (a : Reg)
  | xstart (c : Ctl) (d : Reg) (a : Reg)
  | xstat (c : Ctl) (d : Reg) (a : Reg)
  | br (c : Ctl) (off : BitVec 21)
  | brl (c : Ctl) (off : BitVec 21)
  | jr (c : Ctl) (a : Reg)
  | jrl (c : Ctl) (a : Reg)
  | tend (c : Ctl)
  | spawn (c : Ctl) (d : Reg) (a : Reg) (n : Reg)
  | meet (c : Ctl) (d : Reg) (a : Reg)
  | meetq (c : Ctl) (d : Reg) (a : Reg)
  | glaunch (c : Ctl) (d : Reg) (a : Reg)
  | yield (c : Ctl)
  | yieldFor (c : Ctl) (a : Reg)
  | hbeat (c : Ctl)
  | trap (c : Ctl) (b : Reg)
  | rft (c : Ctl)
  | csrr (c : Ctl) (d : Reg) (n : BitVec 12)
  | csrw (c : Ctl) (d : Reg) (n : BitVec 12)
  | noph
  | imm (p : BitVec 22)
  | guard (r : Reg) (bit : Reg) (sense : Bool)
  | live (p : BitVec 22)
  | rmode (rm : BitVec 3)
  | stallx (n : BitVec 8)
  -- steps of the other agents
  | longResultLand (k : Nat) (sl : Nat)
  | syncTimeout (k : Nat) (sl : Nat)
  | yieldExpire (k : Nat) (sl : Nat)
  | meetRelease (k : Nat) (x : Nat)
  | meetDetTimeout (k : Nat) (x : Nat)
  | preemptTimeout (k : Nat) (sl : Nat)
  | saveComplete (k : Nat) (sl : Nat)
  | swapResume (k : Nat) (x : Nat)
  | reqRead (m : Request)
  | reqWrite (m : Request)
  | reqLds (m : Request)
  | reqLdsc (m : Request)
  | reqSts (m : Request)
  | reqFebit (m : Request)
  | reqFetest (m : Request)
  | reqWaitf (m : Request)
  | reqAtomic (m : Request)
  | reqSpawn (m : Request)
  | reqGlaunch (m : Request)
  | reqSuccdec (m : Request)
  | reqReady (m : Request)
  | reqMma (m : Request)
  | reqMred (m : Request)
  | reqCollc (m : Request)
  | collInstanceTimeout (g : Nat) (inst : Nat)
  | reqCanopy (m : Request)
  | reqXducer (m : Request)
  | reqCancel (m : Request)
  | ansDone (a : Answer)
  | ansWaiting (a : Answer)
  | ansRetry (a : Answer)
  | ansBusy (a : Answer)
  | ansStale (a : Answer)
  | ansUnknownOutcome (a : Answer)
  | ansCancelled (a : Answer)
  | ansError (cause : Cause) (a : Answer)
  | ansFenced (a : Answer)
  | requestRetransmit (tag : Nat)
  | backoffResend (tag : Nat)
  | requestGiveUp (tag : Nat)
  | receiptExpiry (o : Owner)
  | dramAccessComplete (k : Nat) (tag : Nat)
  | refreshStart (p : Nat)
  | completionArrival (x : Arrival)
  | xducerTableLoad (die : Nat) (ln : Nat)
  | xducerJob (die : Nat) (ln : Nat)
  | mmaStart (k : Nat)
  | mmaFinish (k : Nat)
  | operandForward (k : Nat)
  | matrixHeadTimeout (k : Nat)
  | matrixAcceptTimeout (tag : Nat)
  | canopyCommit (t : Nat)
  | canopyDrop (t : Nat)
  | distributorSelect (die : Nat)
  | privateCtagCommit (die : Nat) (q : Nat)
  | markComplete (die : Nat) (q : Nat)
  | intervalCommitRetry (die : Nat) (q : Nat)
  | ctagWrite (c : Ctl) (d : Reg)
  | fpcsrWrite (c : Ctl) (d : Reg)
  | xlinvWrite (w : Nat) (v : Word)
  | xlinvComplete
  | dqloadWrite (w : Nat) (v : Word)
  | dcmdReprio (w : Nat) (v : Word)
  | dcmdCancel (w : Nat) (v : Word)
  | preemptSafe (w : Nat) (v : Word)
  | preemptForced (w : Nat) (v : Word)
  | preemptKill (w : Nat) (v : Word)
  | resumeWrite (w : Nat) (v : Word)
  | collcfgLoad (w : Nat) (v : Word)
  | collcfgRemove (w : Nat) (v : Word)
  | xlaneWrite (w : Nat) (v : Word)
  | threadEligible (k : Nat) (sl : Nat)
  | budgetExpiry (k : Nat) (sl : Nat)
  | heartbeatExpiry (k : Nat) (sl : Nat)
  | coreFence (k : Nat)
  | coreContainment (k : Nat) (cause : Cause)
  | residueMismatch (k : Nat) (u : Nat) (again : Bool)
  | scrubPass (die : Nat) (ch : Nat)
  | safePointSave (k : Nat) (sl : Nat)
  | forcedSave (k : Nat) (sl : Nat)
  | threadResume (k : Nat) (sl : Nat)
  | swapOut (die : Nat)
  | reqHwread (m : Request)
  | reqHwwrite (m : Request)
  | reqHroot (m : Request)
  | hmgmtReadStatus (m : Request)
  | hmgmtReadSensors (m : Request)
  | hmgmtWarmStart (m : Request)
  | hmgmtColdStart (m : Request)
  | hmgmtSetEventPush (m : Request)
  | ownerRestart (o : Owner)
  | pageWalk (k : Nat) (pt : Word) (va : Word)
  | refreshEnd
  | tempSample
  | steal (die : Nat) (q : Nat)
  | partitionReset (die : Nat) (guest : Nat)
  | coldStart
  | warmStart
  | illegalWord (w : BitVec 32)
  | fetchFault (cause : Cause)
  | powerRemoval
deriving DecidableEq, Repr

end Sys2Proof
end

