-- ==== Sys2Proof/WellFormed.lean ====
section
/-! DEFINITION. Which terms of Instr denote a word: the conditions on fields that R21, R39, R42, R43 and the rules of the groups state. A term that fails one has no word; the decoder rejects its bit pattern. -/
namespace Sys2Proof

/-- `i` denotes a word of the machine (always so for the steps of the other agents). -/
def Instr.wf : Instr → Bool
  | .add _ _ _ _ => true
  | .sub _ _ _ _ => true
  | .and _ _ _ _ => true
  | .or _ _ _ _ => true
  | .xor _ _ _ _ => true
  | .shl _ _ _ _ => true
  | .shr _ _ _ _ => true
  | .sra _ _ _ _ => true
  | .mul _ _ _ _ => true
  | .mulh _ _ _ _ => true
  | .mulhu _ _ _ _ => true
  | .div _ _ _ _ => true
  | .divu _ _ _ _ => true
  | .rem _ _ _ _ => true
  | .remu _ _ _ _ => true
  | .min_ _ _ _ _ => true
  | .max_ _ _ _ _ => true
  | .minu _ _ _ _ => true
  | .maxu _ _ _ _ => true
  | .rol _ _ _ _ => true
  | .ror _ _ _ _ => true
  | .clz _ _ _ => true
  | .popc _ _ _ => true
  | .cmp _ _ _ _ _ => true
  | .bset _ _ _ _ => true
  | .bclr _ _ _ _ => true
  | .binv _ _ _ _ => true
  | .bext _ _ _ _ => true
  | .sel c _ _ _ => !c.g
  | .crnd _ _ _ _ => true
  | .addi _ _ _ _ => true
  | .andi _ _ _ _ => true
  | .ori _ _ _ _ => true
  | .xori _ _ _ _ => true
  | .shli _ _ _ _ => true
  | .shri _ _ _ _ => true
  | .srai _ _ _ _ => true
  | .movi _ _ _ => true
  | .movs _ _ _ => true
  | .gaddr _ d a _ => decide (d.toNat ≤ 62) && decide (a.toNat ≤ 62)
  | .fadd _ _ _ _ _ => true
  | .fsub _ _ _ _ _ => true
  | .fmul _ _ _ _ _ => true
  | .fdiv _ _ _ _ _ => true
  | .fma _ _ _ _ _ => true
  | .fmin _ _ _ _ _ => true
  | .fmax _ _ _ _ _ => true
  | .fsqrt _ _ _ _ => true
  | .fcmpD _ cc _ _ _ => cc != 7#3
  | .fcmpS _ cc _ _ _ => cc != 7#3
  | .fcvt _ _ rnd _ _ _ => rnd != 7#3
  | .fclass _ _ _ _ => true
  | .vadd _ _ _ _ _ => true
  | .vsub _ _ _ _ _ => true
  | .vmul _ _ _ _ _ => true
  | .vfma _ _ _ _ _ => true
  | .vdiv _ _ _ _ _ => true
  | .vsqrt _ _ _ _ _ => true
  | .vmin _ _ _ _ _ => true
  | .vmax _ _ _ _ _ => true
  | .vabs _ _ _ _ _ => true
  | .vneg _ _ _ _ _ => true
  | .vand _ _ _ _ _ => true
  | .vor _ _ _ _ _ => true
  | .vxor _ _ _ _ _ => true
  | .vshl _ _ _ _ _ => true
  | .vshr _ _ _ _ _ => true
  | .vsra _ _ _ _ _ => true
  | .vcmpeq _ _ _ _ _ => true
  | .vcmpne _ _ _ _ _ => true
  | .vcmplt _ _ _ _ _ => true
  | .vcmple _ _ _ _ _ => true
  | .vsel _ _ _ _ _ => true
  | .vmov _ _ _ _ _ => true
  | .vrco _ k _ _ vb => k || vb == 0#4
  | .vruns _ _ _ => true
  | .vlen _ _ _ => true
  | .vsetlen _ _ _ _ _ => true
  | .vsplat _ _ _ _ => true
  | .vrsum _ _ _ _ => true
  | .vrsumsq _ _ _ _ => true
  | .vrmax _ _ _ _ => true
  | .vrmin _ _ _ _ => true
  | .vrcnt _ _ _ _ => true
  | .vamax _ _ _ _ => true
  | .velem _ _ _ _ => true
  | .vcat _ _ _ _ _ => true
  | .vcvt _ _ _ fmt rnd _ => decide (fmt.toNat ≤ 0x18) && rnd != 7#3
  | .vld _ _ _ _ fmt => decide (fmt.toNat ≤ 0x18)
  | .vst _ _ _ _ fmt => decide (fmt.toNat ≤ 0x18)
  | .vclaim _ _ _ => true
  | .vrels _ => true
  | .vqry _ _ _ => true
  | .vqnt _ _ _ fmt rnd _ _ => decide (fmt.toNat ≤ 0x18) && rnd != 7#3
  | .ldb _ _ _ _ => true
  | .ldbu _ _ _ _ => true
  | .ldh _ _ _ _ => true
  | .ldhu _ _ _ _ => true
  | .ldw _ _ _ _ => true
  | .ldwu _ _ _ _ => true
  | .ldd _ _ _ _ => true
  | .ldq _ d _ _ => bits d 0 1 == 0
  | .stb _ _ _ _ => true
  | .sth _ _ _ _ => true
  | .stw _ _ _ _ => true
  | .std _ _ _ _ => true
  | .stq _ d _ _ => bits d 0 1 == 0
  | .lds _ sz d _ _ => sz != 3#2 && (sz != 2#2 || bits d 0 1 == 0)
  | .ldsC _ sz d _ _ => sz != 3#2 && (sz != 2#2 || bits d 0 1 == 0)
  | .sts _ sz d _ _ => sz != 3#2 && (sz != 2#2 || bits d 0 1 == 0)
  | .aadd _ _ _ _ _ => true
  | .amin _ _ _ _ _ => true
  | .amax _ _ _ _ _ => true
  | .aand _ _ _ _ _ => true
  | .aor _ _ _ _ _ => true
  | .axor _ _ _ _ _ => true
  | .aswp _ _ _ _ _ => true
  | .acas _ _ _ _ _ => true
  | .lkp _ _ _ => true
  | .dset _ _ _ _ => true
  | .dclr _ _ => true
  | .dinv _ _ _ _ => true
  | .feset _ _ => true
  | .feclr _ _ => true
  | .fetest _ _ _ => true
  | .waitf _ _ => true
  | .waitfE _ _ => true
  | .fenceAcq _ scope => decide (scope.toNat ≤ 4)
  | .fenceRel _ scope => decide (scope.toNat ≤ 4)
  | .fenceFull _ scope => decide (scope.toNat ≤ 4)
  | .fenceEngine _ => true
  | .ctalloc _ _ _ _ => true
  | .ctset _ _ _ => true
  | .ctcommit _ _ _ => true
  | .ctdrop _ _ _ => true
  | .ctstat _ _ _ => true
  | .ldx _ _ _ _ => true
  | .cpy _ _ a r => decide (a.toNat + 4 + r.toNat ≤ 64)
  | .cpy2 _ _ a r => decide (a.toNat + 6 + r.toNat ≤ 64)
  | .gath _ _ a n => (n == 5#6 || n == 6#6) && decide (a.toNat + n.toNat ≤ 64)
  | .scat _ _ a => decide (a.toNat + 5 ≤ 64)
  | .cpyx _ _ a n => (n == 5#6 || n == 6#6) && decide (a.toNat + n.toNat ≤ 64)
  | .cstat _ _ => true
  | .cstatHandle _ _ _ => true
  | .oclaim _ _ _ => true
  | .orels _ _ => true
  | .mcap _ _ => true
  | .mma _ a => decide (a.toNat + 4 ≤ 64)
  | .mred _ a => decide (a.toNat + 4 ≤ 64)
  | .mdrain _ a => decide (a.toNat + 2 ≤ 64)
  | .mdrainScaled _ a => decide (a.toNat + 4 ≤ 64)
  | .cbload _ _ => true
  | .mfill _ a => decide (a.toNat + 3 ≤ 64)
  | .coll _ _ a => decide (a.toNat + 5 ≤ 64)
  | .rsync _ => true
  | .rstat _ _ _ => true
  | .xtab _ _ a => decide (a.toNat + 3 ≤ 64)
  | .xstart _ _ a => decide (a.toNat + 6 ≤ 64)
  | .xstat _ _ _ => true
  | .br c _ => !c.s
  | .brl c _ => !c.s
  | .jr c _ => !c.s
  | .jrl c _ => !c.s
  | .tend c => !c.s
  | .spawn _ _ a n => decide (3 ≤ n.toNat) && decide (n.toNat ≤ 11) && decide (a.toNat + n.toNat ≤ 64)
  | .meet _ _ a => decide (a.toNat + 2 ≤ 64)
  | .meetq _ _ a => decide (a.toNat + 3 ≤ 64)
  | .glaunch _ _ a => decide (a.toNat + 3 ≤ 64)
  | .yield _ => true
  | .yieldFor _ _ => true
  | .hbeat _ => true
  | .trap c _ => !c.s
  | .rft c => !c.s
  | .csrr _ _ _ => true
  | .csrw _ _ _ => true
  | .noph => true
  | .imm _ => true
  | .guard _ _ _ => true
  | .live _ => true
  | .rmode rm => rm != 0#3 && rm != 7#3
  | .stallx _ => true
  | .longResultLand _ _ => true
  | .syncTimeout _ _ => true
  | .yieldExpire _ _ => true
  | .meetRelease _ _ => true
  | .meetDetTimeout _ _ => true
  | .preemptTimeout _ _ => true
  | .saveComplete _ _ => true
  | .swapResume _ _ => true
  | .reqRead _ => true
  | .reqWrite _ => true
  | .reqLds _ => true
  | .reqLdsc _ => true
  | .reqSts _ => true
  | .reqFebit _ => true
  | .reqFetest _ => true
  | .reqWaitf _ => true
  | .reqAtomic _ => true
  | .reqSpawn _ => true
  | .reqGlaunch _ => true
  | .reqSuccdec _ => true
  | .reqReady _ => true
  | .reqMma _ => true
  | .reqMred _ => true
  | .reqCollc _ => true
  | .collInstanceTimeout _ _ => true
  | .reqCanopy _ => true
  | .reqXducer _ => true
  | .reqCancel _ => true
  | .ansDone _ => true
  | .ansWaiting _ => true
  | .ansRetry _ => true
  | .ansBusy _ => true
  | .ansStale _ => true
  | .ansUnknownOutcome _ => true
  | .ansCancelled _ => true
  | .ansError _ _ => true
  | .ansFenced _ => true
  | .requestRetransmit _ => true
  | .backoffResend _ => true
  | .requestGiveUp _ => true
  | .receiptExpiry _ => true
  | .dramAccessComplete _ _ => true
  | .refreshStart _ => true
  | .completionArrival _ => true
  | .xducerTableLoad _ _ => true
  | .xducerJob _ _ => true
  | .mmaStart _ => true
  | .mmaFinish _ => true
  | .operandForward _ => true
  | .matrixHeadTimeout _ => true
  | .matrixAcceptTimeout _ => true
  | .canopyCommit _ => true
  | .canopyDrop _ => true
  | .distributorSelect _ => true
  | .privateCtagCommit _ _ => true
  | .markComplete _ _ => true
  | .intervalCommitRetry _ _ => true
  | .ctagWrite _ _ => true
  | .fpcsrWrite _ _ => true
  | .xlinvWrite _ _ => true
  | .xlinvComplete => true
  | .dqloadWrite _ _ => true
  | .dcmdReprio _ _ => true
  | .dcmdCancel _ _ => true
  | .preemptSafe _ _ => true
  | .preemptForced _ _ => true
  | .preemptKill _ _ => true
  | .resumeWrite _ _ => true
  | .collcfgLoad _ _ => true
  | .collcfgRemove _ _ => true
  | .xlaneWrite _ _ => true
  | .threadEligible _ _ => true
  | .budgetExpiry _ _ => true
  | .heartbeatExpiry _ _ => true
  | .coreFence _ => true
  | .coreContainment _ _ => true
  | .residueMismatch _ _ _ => true
  | .scrubPass _ _ => true
  | .safePointSave _ _ => true
  | .forcedSave _ _ => true
  | .threadResume _ _ => true
  | .swapOut _ => true
  | .reqHwread _ => true
  | .reqHwwrite _ => true
  | .reqHroot _ => true
  | .hmgmtReadStatus _ => true
  | .hmgmtReadSensors _ => true
  | .hmgmtWarmStart _ => true
  | .hmgmtColdStart _ => true
  | .hmgmtSetEventPush _ => true
  | .ownerRestart _ => true
  | .pageWalk _ _ _ => true
  | .refreshEnd => true
  | .tempSample => true
  | .steal _ _ => true
  | .partitionReset _ _ => true
  | .coldStart => true
  | .warmStart => true
  | .illegalWord _ => true
  | .fetchFault _ => true
  | .powerRemoval => true

end Sys2Proof
end

