-- ==== Sys2Proof/Decode.lean ====
section
/-! DEFINITION. The decoder: total on all 32-bit words and on all byte lists, rejecting by name. After it the encoder, written from the same tables. -/
namespace Sys2Proof

/-- Why a bit pattern denotes no instruction (R43): the clauses of that rule. -/
inductive Reject where
  | reservedMajor | reservedFunction | mustBeZero | reservedHint | field | tooShort
deriving DecidableEq, Repr

/-- Bits `lo` upwards of a word, `n` of them (R3). -/
def fld (w : IWord) (lo n : Nat) : BitVec n := w.extractLsb' lo n

/-- The common fields G, S and W (R18). -/
def ctlOf (w : IWord) : Ctl := ⟨(fld w 25 1) == 1#1, (fld w 24 1) == 1#1, fld w 21 3⟩

/-- The register and function fields of RRR, M and X (R20). -/
def fD (w : IWord) : Reg := fld w 15 6
def fA (w : IWord) : Reg := fld w 9 6
def fB (w : IWord) : Reg := fld w 3 6
def fF (w : IWord) : BitVec 3 := fld w 0 3
/-- The fields of V, VM and C (R20). -/
def fVd (w : IWord) : VReg := fld w 17 4
def fVa (w : IWord) : VReg := fld w 13 4
def fVb (w : IWord) : VReg := fld w 9 4
def fOp (w : IWord) : BitVec 6 := fld w 3 6
def fQ (w : IWord) : Qual := ⟨(fld w 0 1) == 1#1, (fld w 1 1) == 1#1, (fld w 2 1) == 1#1⟩

/-- `i` where the fields that `i` has no place for are zero (R22). -/
def need (z : Bool) (i : Instr) : Except Reject Instr := if z then .ok i else .error .mustBeZero

/-- RRR words of the integer, compare and bit groups (R42, majors 0x01 to 0x05). -/
def decInt (w : IWord) (m : Nat) : Except Reject Instr :=
  let c := ctlOf w; let d := fD w; let a := fA w; let b := fB w
  match m, (fF w).toNat with
  | 1, 0 => .ok (.add c d a b)
  | 1, 1 => .ok (.sub c d a b)
  | 1, 2 => .ok (.and c d a b)
  | 1, 3 => .ok (.or c d a b)
  | 1, 4 => .ok (.xor c d a b)
  | 1, 5 => .ok (.shl c d a b)
  | 1, 6 => .ok (.shr c d a b)
  | 1, 7 => .ok (.sra c d a b)
  | 2, 0 => .ok (.mul c d a b)
  | 2, 1 => .ok (.mulh c d a b)
  | 2, 2 => .ok (.mulhu c d a b)
  | 2, 3 => .ok (.div c d a b)
  | 2, 4 => .ok (.divu c d a b)
  | 2, 5 => .ok (.rem c d a b)
  | 2, 6 => .ok (.remu c d a b)
  | 3, 0 => .ok (.min_ c d a b)
  | 3, 1 => .ok (.max_ c d a b)
  | 3, 2 => .ok (.minu c d a b)
  | 3, 3 => .ok (.maxu c d a b)
  | 3, 4 => .ok (.rol c d a b)
  | 3, 5 => .ok (.ror c d a b)
  | 3, 6 => need (b == 0#6) (.clz c d a)
  | 3, 7 => need (b == 0#6) (.popc c d a)
  | 5, 0 => .ok (.bset c d a b)
  | 5, 1 => .ok (.bclr c d a b)
  | 5, 2 => .ok (.binv c d a b)
  | 5, 3 => .ok (.bext c d a b)
  | 5, 4 => .ok (.sel c d a b)
  | 5, 5 => .ok (.crnd c d a b)
  | 4, _ => .ok (.cmp c (fF w) d a b)
  | _, _ => .error .reservedFunction

/-- Scalar FP words (R42, majors 0x10 to 0x1B). -/
def decFp (w : IWord) (m : Nat) : Except Reject Instr :=
  let c := ctlOf w; let d := fD w; let a := fA w; let b := fB w
  let fmt := fld w 0 2
  let top := (fld w 2 1) == 0#1
  match m with
  | 0x10 => if top then .ok (.fadd c fmt d a b) else .error .reservedFunction
  | 0x11 => if top then .ok (.fsub c fmt d a b) else .error .reservedFunction
  | 0x12 => if top then .ok (.fmul c fmt d a b) else .error .reservedFunction
  | 0x13 => if top then .ok (.fdiv c fmt d a b) else .error .reservedFunction
  | 0x14 => if top then .ok (.fma c fmt d a b) else .error .reservedFunction
  | 0x15 => if top then .ok (.fmin c fmt d a b) else .error .reservedFunction
  | 0x16 => if top then .ok (.fmax c fmt d a b) else .error .reservedFunction
  | 0x17 => if top then need (b == 0#6) (.fsqrt c fmt d a) else .error .reservedFunction
  | 0x18 => .ok (.fcmpD c (fF w) d a b)
  | 0x19 => .ok (.fcmpS c (fF w) d a b)
  | 0x1A => .ok (.fcvt c (fld w 6 3) (fld w 3 3) (fF w) d a)
  | 0x1B => if top then need (b == 0#6) (.fclass c fmt d a) else .error .reservedFunction
  | _ => .error .reservedMajor

/-- VARITH words (R211). -/
def decVarith (w : IWord) : Except Reject Instr :=
  let c := ctlOf w; let d := fVd w; let a := fVa w; let b := fVb w; let q := fQ w
  match (fOp w).toNat with
  | 0 => .ok (.vadd c q d a b)
  | 1 => .ok (.vsub c q d a b)
  | 2 => .ok (.vmul c q d a b)
  | 3 => .ok (.vfma c q d a b)
  | 4 => .ok (.vdiv c q d a b)
  | 5 => need (b == 0#4 && !q.s) (.vsqrt c q.clip q.m d a)
  | 6 => .ok (.vmin c q d a b)
  | 7 => .ok (.vmax c q d a b)
  | 8 => need (b == 0#4 && !q.s) (.vabs c q.clip q.m d a)
  | 9 => need (b == 0#4 && !q.s) (.vneg c q.clip q.m d a)
  | 10 => .ok (.vand c q d a b)
  | 11 => .ok (.vor c q d a b)
  | 12 => .ok (.vxor c q d a b)
  | 13 => .ok (.vshl c q d a b)
  | 14 => .ok (.vshr c q d a b)
  | 15 => .ok (.vsra c q d a b)
  | 16 => .ok (.vcmpeq c q d a b)
  | 17 => .ok (.vcmpne c q d a b)
  | 18 => .ok (.vcmplt c q d a b)
  | 19 => .ok (.vcmple c q d a b)
  | 20 => need (!q.m && !q.s) (.vsel c q.clip d a b)
  | 21 => need (b == 0#4 && !q.s) (.vmov c q.clip q.m d a)
  | _ => .error .reservedFunction

/-- VRUN words (R212). -/
def decVrun (w : IWord) : Except Reject Instr :=
  let c := ctlOf w; let d := fVd w; let a := fVa w; let b := fVb w; let q := fQ w
  let zb := b == 0#4
  match (fOp w).toNat with
  | 0 => need (!q.clip && !q.m) (.vrco c q.s d a b)
  | 1 => need (zb && !q.clip && !q.m && !q.s) (.vruns c d a)
  | 2 => need (zb && !q.clip && !q.m && !q.s) (.vlen c d a)
  | 3 => need (!q.m && q.s) (.vsetlen c q.clip d a b)
  | 4 => need (!q.clip && !q.m && q.s) (.vsplat c d a b)
  | 5 => need (zb && !q.clip && !q.s) (.vrsum c q.m d a)
  | 6 => need (zb && !q.clip && !q.s) (.vrsumsq c q.m d a)
  | 7 => need (zb && !q.clip && !q.s) (.vrmax c q.m d a)
  | 8 => need (zb && !q.clip && !q.s) (.vrmin c q.m d a)
  | 9 => need (zb && !q.clip && !q.s) (.vrcnt c q.m d a)
  | 10 => need (zb && !q.clip && !q.s) (.vamax c q.m d a)
  | 11 => need (!q.clip && !q.m && q.s) (.velem c d a b)
  | 12 => need (!q.m && !q.s) (.vcat c q.clip d a b)
  | _ => .error .reservedFunction

/-- VCVT, VLD, VST, VLANE and VQNT words (R202, R216 to R219). -/
def decVec (w : IWord) (m : Nat) : Except Reject Instr :=
  let c := ctlOf w; let d := fVd w; let a := fVa w
  match m with
  | 0x20 => decVarith w
  | 0x21 => decVrun w
  | 0x22 => need ((fld w 0 4) == 0#4) (.vcvt c d a (fld w 8 5) (fld w 5 3) ((fld w 4 1) == 1#1))
  | 0x23 => .ok (.vld c d (fld w 11 6) (fld w 5 6) (fld w 0 5))
  | 0x24 => .ok (.vst c d (fld w 11 6) (fld w 5 6) (fld w 0 5))
  | 0x25 =>
    match (fF w).toNat with
    | 0 => need (fB w == 0#6) (.vclaim c (fD w) (fA w))
    | 1 => need (fD w == 0#6 && fA w == 0#6 && fB w == 0#6) (.vrels c)
    | 2 => need (fB w == 0#6) (.vqry c (fD w) (fA w))
    | _ => .error .reservedFunction
  | 0x26 => .ok (.vqnt c d a (fld w 8 5) (fld w 5 3) ((fld w 4 1) == 1#1) (fld w 0 4))
  | _ => .error .reservedMajor

/-- Memory words: LD, ST, LDS, STS, AMO, AMOW, LDIR, FEOP (R42, majors 0x28 to 0x2F). -/
def decMem (w : IWord) (m : Nat) : Except Reject Instr :=
  let c := ctlOf w; let d := fD w; let a := fA w; let b := fB w
  let f := (fF w).toNat
  match m, f with
  | 0x28, 0 => .ok (.ldb c d a b)
  | 0x28, 1 => .ok (.ldbu c d a b)
  | 0x28, 2 => .ok (.ldh c d a b)
  | 0x28, 3 => .ok (.ldhu c d a b)
  | 0x28, 4 => .ok (.ldw c d a b)
  | 0x28, 5 => .ok (.ldwu c d a b)
  | 0x28, 6 => .ok (.ldd c d a b)
  | 0x28, 7 => .ok (.ldq c d a b)
  | 0x29, 0 => .ok (.stb c d a b)
  | 0x29, 1 => .ok (.sth c d a b)
  | 0x29, 2 => .ok (.stw c d a b)
  | 0x29, 3 => .ok (.std c d a b)
  | 0x29, 4 => .ok (.stq c d a b)
  | 0x2C, 0 => .ok (.aadd c false d a b)
  | 0x2C, 1 => .ok (.amin c false d a b)
  | 0x2C, 2 => .ok (.amax c false d a b)
  | 0x2C, 3 => .ok (.aand c false d a b)
  | 0x2C, 4 => .ok (.aor c false d a b)
  | 0x2C, 5 => .ok (.axor c false d a b)
  | 0x2C, 6 => .ok (.aswp c false d a b)
  | 0x2C, 7 => .ok (.acas c false d a b)
  | 0x2D, 0 => .ok (.aadd c true d a b)
  | 0x2D, 1 => .ok (.amin c true d a b)
  | 0x2D, 2 => .ok (.amax c true d a b)
  | 0x2D, 3 => .ok (.aand c true d a b)
  | 0x2D, 4 => .ok (.aor c true d a b)
  | 0x2D, 5 => .ok (.axor c true d a b)
  | 0x2D, 6 => .ok (.aswp c true d a b)
  | 0x2D, 7 => .ok (.acas c true d a b)
  | 0x2A, _ => if (fld w 2 1) == 0#1 then .ok (.lds c (fld w 0 2) d a b) else .ok (.ldsC c (fld w 0 2) d a b)
  | 0x2B, _ => if (fld w 2 1) == 0#1 then .ok (.sts c (fld w 0 2) d a b) else .error .reservedFunction
  | 0x2E, 0 => need (b == 0#6) (.lkp c d a)
  | 0x2E, 1 => .ok (.dset c d a b)
  | 0x2E, 2 => need (d == 0#6 && b == 0#6) (.dclr c a)
  | 0x2E, 3 => .ok (.dinv c d a b)
  | 0x2F, 0 => need (d == 0#6 && b == 0#6) (.feset c a)
  | 0x2F, 1 => need (d == 0#6 && b == 0#6) (.feclr c a)
  | 0x2F, 2 => need (b == 0#6) (.fetest c d a)
  | 0x2F, 3 => if b == 1#6 then need (d == 0#6) (.waitfE c a) else need (d == 0#6 && b == 0#6) (.waitf c a)
  | _, _ => .error .reservedFunction

/-- FENCE, CANOPY and COPY words (R42, majors 0x30 to 0x32). -/
def decFence (w : IWord) (m : Nat) : Except Reject Instr :=
  let c := ctlOf w; let d := fD w; let a := fA w; let b := fB w
  let z := d == 0#6 && a == 0#6 && (fld w 3 3) == 0#3
  match m, (fF w).toNat with
  | 0x30, 0 => need z (.fenceAcq c (fld w 6 3))
  | 0x30, 1 => need z (.fenceRel c (fld w 6 3))
  | 0x30, 2 => need z (.fenceFull c (fld w 6 3))
  | 0x30, 3 => need (z && (fld w 6 3) == 0#3) (.fenceEngine c)
  | 0x31, 0 => .ok (.ctalloc c d a b)
  | 0x31, 1 => need (b == 0#6) (.ctset c d a)
  | 0x31, 2 => need (d == 0#6) (.ctcommit c a b)
  | 0x31, 3 => need (d == 0#6) (.ctdrop c a b)
  | 0x31, 4 => need (b == 0#6) (.ctstat c d a)
  | 0x31, 5 => .ok (.ldx c d a b)
  | 0x32, 0 => if (fld w 4 5) == 2#5 then .ok (.cpy c d a ((fld w 3 1) == 1#1)) else .error .field
  | 0x32, 1 => if (fld w 4 5) == 3#5 then .ok (.cpy2 c d a ((fld w 3 1) == 1#1)) else .error .field
  | 0x32, 2 => .ok (.gath c d a b)
  | 0x32, 3 => if b == 5#6 then .ok (.scat c d a) else .error .field
  | 0x32, 4 => .ok (.cpyx c d a b)
  | 0x32, 5 => if b == 1#6 then .ok (.cstatHandle c d a) else need (a == 0#6 && b == 0#6) (.cstat c d)
  | _, _ => .error .reservedFunction

/-- MATRIX, REMOTE and XDUCER words (R42, majors 0x33 to 0x35). -/
def decEngine (w : IWord) (m : Nat) : Except Reject Instr :=
  let c := ctlOf w; let d := fD w; let a := fA w; let n := (fB w).toNat
  let zd := d == 0#6
  match m, (fF w).toNat with
  | 0x33, 0 => if n = 1 then .ok (.oclaim c d a) else .error .field
  | 0x33, 1 => if n = 1 then need zd (.orels c a) else .error .field
  | 0x33, 2 => need (a == 0#6 && n = 0) (.mcap c d)
  | 0x33, 3 => if n = 4 then need zd (.mma c a) else .error .field
  | 0x33, 4 => if n = 4 then need zd (.mred c a) else .error .field
  | 0x33, 5 => if n = 2 then need zd (.mdrain c a) else if n = 4 then need zd (.mdrainScaled c a) else .error .field
  | 0x33, 6 => if n = 1 then need zd (.cbload c a) else .error .field
  | 0x33, 7 => if n = 3 then need zd (.mfill c a) else .error .field
  | 0x34, 0 => if n = 5 then .ok (.coll c d a) else .error .field
  | 0x34, 1 => need (zd && a == 0#6 && n = 0) (.rsync c)
  | 0x34, 2 => if n = 1 then .ok (.rstat c d a) else .error .field
  | 0x35, 0 => if n = 3 then .ok (.xtab c d a) else .error .field
  | 0x35, 1 => if n = 6 then .ok (.xstart c d a) else .error .field
  | 0x35, 2 => if n = 1 then .ok (.xstat c d a) else .error .field
  | _, _ => .error .reservedFunction

/-- BR, BRL, JUMP, TASK and SYS words (R42, majors 0x36 to 0x3A). -/
def decCtl (w : IWord) (m : Nat) : Except Reject Instr :=
  let c := ctlOf w; let d := fD w; let a := fA w; let b := fB w
  let zd := d == 0#6; let za := a == 0#6; let zb := b == 0#6
  match m, (fF w).toNat with
  | 0x36, _ => .ok (.br c (fld w 0 21))
  | 0x37, _ => .ok (.brl c (fld w 0 21))
  | 0x38, 0 => need (zd && zb) (.jr c a)
  | 0x38, 1 => need (zd && zb) (.jrl c a)
  | 0x38, 2 => need (zd && za && zb) (.tend c)
  | 0x39, 0 => .ok (.spawn c d a b)
  | 0x39, 1 => if b == 2#6 then .ok (.meet c d a) else .error .field
  | 0x39, 2 => if b == 3#6 then .ok (.meetq c d a) else .error .field
  | 0x39, 3 => if b == 3#6 then .ok (.glaunch c d a) else .error .field
  | 0x39, 4 => if b == 1#6 then need zd (.yieldFor c a) else need (zd && za && zb) (.yield c)
  | 0x39, 5 => need (zd && za && zb) (.hbeat c)
  | 0x3A, 0 => need (zd && za) (.trap c b)
  | 0x3A, 1 => need (zd && za && zb) (.rft c)
  | 0x3A, 2 => .ok (.csrr c d (fld w 3 12))
  | 0x3A, 3 => .ok (.csrw c d (fld w 3 12))
  | _, _ => .error .reservedFunction

/-- Hint words (R30). -/
def decHint (w : IWord) : Except Reject Instr :=
  match (fld w 22 4).toNat with
  | 0 => need ((fld w 0 22) == 0#22) .noph
  | 1 => .ok (.imm (fld w 0 22))
  | 2 => need ((fld w 0 9) == 0#9) (.guard (fld w 16 6) (fld w 10 6) ((fld w 9 1) == 1#1))
  | 3 => .ok (.live (fld w 0 22))
  | 4 => need ((fld w 3 19) == 0#19) (.rmode (fld w 0 3))
  | 5 => need ((fld w 8 14) == 0#14) (.stallx (fld w 0 8))
  | _ => .error .reservedHint

/-- The instruction the opcode map of R42 gives a word, before the conditions of Instr.wf. -/
def decodeRaw (w : IWord) : Except Reject Instr :=
  let c := ctlOf w
  let m := (fld w 26 6).toNat
  match m with
  | 0x01 => decInt w 1
  | 0x02 => decInt w 2
  | 0x03 => decInt w 3
  | 0x04 => decInt w 4
  | 0x05 => decInt w 5
  | 0x06 => .ok (.addi c (fD w) (fA w) (fld w 0 9))
  | 0x07 => .ok (.andi c (fD w) (fA w) (fld w 0 9))
  | 0x08 => .ok (.ori c (fD w) (fA w) (fld w 0 9))
  | 0x09 => .ok (.xori c (fD w) (fA w) (fld w 0 9))
  | 0x0A => .ok (.shli c (fD w) (fA w) (fld w 0 9))
  | 0x0B => .ok (.shri c (fD w) (fA w) (fld w 0 9))
  | 0x0C => .ok (.srai c (fD w) (fA w) (fld w 0 9))
  | 0x0D => .ok (.movi c (fD w) (fld w 0 15))
  | 0x0E => .ok (.movs c (fD w) (fld w 0 15))
  | 0x0F => if fB w == 2#6 then .ok (.gaddr c (fD w) (fA w) (fF w)) else .error .field
  | 0x10 => decFp w 0x10
  | 0x11 => decFp w 0x11
  | 0x12 => decFp w 0x12
  | 0x13 => decFp w 0x13
  | 0x14 => decFp w 0x14
  | 0x15 => decFp w 0x15
  | 0x16 => decFp w 0x16
  | 0x17 => decFp w 0x17
  | 0x18 => decFp w 0x18
  | 0x19 => decFp w 0x19
  | 0x1A => decFp w 0x1A
  | 0x1B => decFp w 0x1B
  | 0x20 => decVec w 0x20
  | 0x21 => decVec w 0x21
  | 0x22 => decVec w 0x22
  | 0x23 => decVec w 0x23
  | 0x24 => decVec w 0x24
  | 0x25 => decVec w 0x25
  | 0x26 => decVec w 0x26
  | 0x28 => decMem w 0x28
  | 0x29 => decMem w 0x29
  | 0x2A => decMem w 0x2A
  | 0x2B => decMem w 0x2B
  | 0x2C => decMem w 0x2C
  | 0x2D => decMem w 0x2D
  | 0x2E => decMem w 0x2E
  | 0x2F => decMem w 0x2F
  | 0x30 => decFence w 0x30
  | 0x31 => decFence w 0x31
  | 0x32 => decFence w 0x32
  | 0x33 => decEngine w 0x33
  | 0x34 => decEngine w 0x34
  | 0x35 => decEngine w 0x35
  | 0x36 => decCtl w 0x36
  | 0x37 => decCtl w 0x37
  | 0x38 => decCtl w 0x38
  | 0x39 => decCtl w 0x39
  | 0x3A => decCtl w 0x3A
  | 0x3F => decHint w
  | _ => .error .reservedMajor

/-- The decoder on a word: the opcode map, then the conditions on fields (R42, R43). -/
def decode (w : IWord) : Except Reject Instr :=
  match decodeRaw w with
  | .error r => .error r
  | .ok i => if i.wf then .ok i else .error .field

/-- The word of four bytes in memory order (R4, R19). -/
def wordOfBytes (b0 b1 b2 b3 : Byte) : IWord := b3 ++ b2 ++ b1 ++ b0

/-- The decoder on bytes in memory order; fewer than four are no word. -/
def decodeBytes : List Byte → Except Reject (Instr × List Byte)
  | b0 :: b1 :: b2 :: b3 :: t =>
    match decode (wordOfBytes b0 b1 b2 b3) with
    | .ok i => .ok (i, t)
    | .error r => .error r
  | _ => .error .tooShort

/-- The bytes of a word in memory order (R4, R19). -/
def bytesOfWord (w : IWord) : List Byte := [fld w 0 8, fld w 8 8, fld w 16 8, fld w 24 8]

/-- What the decoder reads from an instruction given as a number, laid out in memory as the machine stores it. -/
def decodeTableWord (nbits w : Nat) : Option Instr :=
  if nbits ≤ 32 then
    match decodeBytes (bytesOfWord (BitVec.ofNat 32 w)) with
    | .ok (i, _) => some i
    | .error _ => none
  else none

/-- The common fields above the format's (R18). -/
def encTop (m : BitVec 6) (c : Ctl) : BitVec 11 := m ++ BitVec.ofBool c.g ++ BitVec.ofBool c.s ++ c.w
/-- RRR and M words (R20). -/
def encRRR (m : BitVec 6) (c : Ctl) (d a b : Reg) (f : BitVec 3) : IWord := encTop m c ++ d ++ a ++ b ++ f
/-- X words (R20). -/
def encX (m : BitVec 6) (c : Ctl) (d a n : Reg) (f : BitVec 3) : IWord := encTop m c ++ d ++ a ++ n ++ f
/-- RI words (R20). -/
def encRI (m : BitVec 6) (c : Ctl) (d a : Reg) (imm : BitVec 9) : IWord := encTop m c ++ d ++ a ++ imm
/-- I15 words (R20). -/
def encI15 (m : BitVec 6) (c : Ctl) (d : Reg) (imm : BitVec 15) : IWord := encTop m c ++ d ++ imm
/-- The qualifier bits (R20). -/
def encQual (q : Qual) : BitVec 3 := BitVec.ofBool q.s ++ BitVec.ofBool q.m ++ BitVec.ofBool q.clip
/-- V words (R20). -/
def encV (m : BitVec 6) (c : Ctl) (vd va vb : VReg) (op : BitVec 6) (q : BitVec 3) : IWord :=
  encTop m c ++ vd ++ va ++ vb ++ op ++ q
/-- VM words (R20). -/
def encVM (m : BitVec 6) (c : Ctl) (vd : VReg) (base count : Reg) (fmt : BitVec 5) : IWord :=
  encTop m c ++ vd ++ base ++ count ++ fmt
/-- C words (R20). -/
def encC (m : BitVec 6) (c : Ctl) (vd va : VReg) (fmt : BitVec 5) (rnd : BitVec 3) (sat : Bool) (aux : BitVec 4) : IWord :=
  encTop m c ++ vd ++ va ++ fmt ++ rnd ++ BitVec.ofBool sat ++ aux
/-- B words (R20). -/
def encB (m : BitVec 6) (c : Ctl) (off : BitVec 21) : IWord := encTop m c ++ off
/-- CSRR and CSRW words: the register number is a ‖ b (R161). -/
def encCSR (c : Ctl) (d : Reg) (n : BitVec 12) (f : BitVec 3) : IWord := encTop 58#6 c ++ d ++ n ++ f
/-- Hint words (R30). -/
def encHint (k : BitVec 4) (p : BitVec 22) : IWord := 63#6 ++ k ++ p

/-- The word of a well-formed instruction, from the tables of R20, R30 and R42. A step of another agent has no word: 0, which denotes no instruction (R43). -/
def encode : Instr → IWord
  | .add c d a b => encRRR 1#6 c d a b 0#3
  | .sub c d a b => encRRR 1#6 c d a b 1#3
  | .and c d a b => encRRR 1#6 c d a b 2#3
  | .or c d a b => encRRR 1#6 c d a b 3#3
  | .xor c d a b => encRRR 1#6 c d a b 4#3
  | .shl c d a b => encRRR 1#6 c d a b 5#3
  | .shr c d a b => encRRR 1#6 c d a b 6#3
  | .sra c d a b => encRRR 1#6 c d a b 7#3
  | .mul c d a b => encRRR 2#6 c d a b 0#3
  | .mulh c d a b => encRRR 2#6 c d a b 1#3
  | .mulhu c d a b => encRRR 2#6 c d a b 2#3
  | .div c d a b => encRRR 2#6 c d a b 3#3
  | .divu c d a b => encRRR 2#6 c d a b 4#3
  | .rem c d a b => encRRR 2#6 c d a b 5#3
  | .remu c d a b => encRRR 2#6 c d a b 6#3
  | .min_ c d a b => encRRR 3#6 c d a b 0#3
  | .max_ c d a b => encRRR 3#6 c d a b 1#3
  | .minu c d a b => encRRR 3#6 c d a b 2#3
  | .maxu c d a b => encRRR 3#6 c d a b 3#3
  | .rol c d a b => encRRR 3#6 c d a b 4#3
  | .ror c d a b => encRRR 3#6 c d a b 5#3
  | .clz c d a => encRRR 3#6 c d a 0#6 6#3
  | .popc c d a => encRRR 3#6 c d a 0#6 7#3
  | .cmp c cc d a b => encRRR 4#6 c d a b cc
  | .bset c d a b => encRRR 5#6 c d a b 0#3
  | .bclr c d a b => encRRR 5#6 c d a b 1#3
  | .binv c d a b => encRRR 5#6 c d a b 2#3
  | .bext c d a b => encRRR 5#6 c d a b 3#3
  | .sel c d a b => encRRR 5#6 c d a b 4#3
  | .crnd c d a b => encRRR 5#6 c d a b 5#3
  | .addi c d a imm => encRI 6#6 c d a imm
  | .andi c d a imm => encRI 7#6 c d a imm
  | .ori c d a imm => encRI 8#6 c d a imm
  | .xori c d a imm => encRI 9#6 c d a imm
  | .shli c d a imm => encRI 10#6 c d a imm
  | .shri c d a imm => encRI 11#6 c d a imm
  | .srai c d a imm => encRI 12#6 c d a imm
  | .movi c d imm => encI15 13#6 c d imm
  | .movs c d imm => encI15 14#6 c d imm
  | .gaddr c d a t => encX 15#6 c d a 2#6 t
  | .fadd c fmt d a b => encRRR 16#6 c d a b (0#1 ++ fmt)
  | .fsub c fmt d a b => encRRR 17#6 c d a b (0#1 ++ fmt)
  | .fmul c fmt d a b => encRRR 18#6 c d a b (0#1 ++ fmt)
  | .fdiv c fmt d a b => encRRR 19#6 c d a b (0#1 ++ fmt)
  | .fma c fmt d a b => encRRR 20#6 c d a b (0#1 ++ fmt)
  | .fmin c fmt d a b => encRRR 21#6 c d a b (0#1 ++ fmt)
  | .fmax c fmt d a b => encRRR 22#6 c d a b (0#1 ++ fmt)
  | .fsqrt c fmt d a => encRRR 23#6 c d a 0#6 (0#1 ++ fmt)
  | .fcmpD c cc d a b => encRRR 24#6 c d a b cc
  | .fcmpS c cc d a b => encRRR 25#6 c d a b cc
  | .fcvt c src rnd dst d a => encRRR 26#6 c d a (src ++ rnd) dst
  | .fclass c fmt d a => encRRR 27#6 c d a 0#6 (0#1 ++ fmt)
  | .vadd c q vd va vb => encV 32#6 c vd va vb 0#6 (encQual q)
  | .vsub c q vd va vb => encV 32#6 c vd va vb 1#6 (encQual q)
  | .vmul c q vd va vb => encV 32#6 c vd va vb 2#6 (encQual q)
  | .vfma c q vd va vb => encV 32#6 c vd va vb 3#6 (encQual q)
  | .vdiv c q vd va vb => encV 32#6 c vd va vb 4#6 (encQual q)
  | .vsqrt c clip m vd va => encV 32#6 c vd va 0#4 5#6 (encQual ⟨clip, m, false⟩)
  | .vmin c q vd va vb => encV 32#6 c vd va vb 6#6 (encQual q)
  | .vmax c q vd va vb => encV 32#6 c vd va vb 7#6 (encQual q)
  | .vabs c clip m vd va => encV 32#6 c vd va 0#4 8#6 (encQual ⟨clip, m, false⟩)
  | .vneg c clip m vd va => encV 32#6 c vd va 0#4 9#6 (encQual ⟨clip, m, false⟩)
  | .vand c q vd va vb => encV 32#6 c vd va vb 10#6 (encQual q)
  | .vor c q vd va vb => encV 32#6 c vd va vb 11#6 (encQual q)
  | .vxor c q vd va vb => encV 32#6 c vd va vb 12#6 (encQual q)
  | .vshl c q vd va vb => encV 32#6 c vd va vb 13#6 (encQual q)
  | .vshr c q vd va vb => encV 32#6 c vd va vb 14#6 (encQual q)
  | .vsra c q vd va vb => encV 32#6 c vd va vb 15#6 (encQual q)
  | .vcmpeq c q vd va vb => encV 32#6 c vd va vb 16#6 (encQual q)
  | .vcmpne c q vd va vb => encV 32#6 c vd va vb 17#6 (encQual q)
  | .vcmplt c q vd va vb => encV 32#6 c vd va vb 18#6 (encQual q)
  | .vcmple c q vd va vb => encV 32#6 c vd va vb 19#6 (encQual q)
  | .vsel c clip vd va vb => encV 32#6 c vd va vb 20#6 (encQual ⟨clip, false, false⟩)
  | .vmov c clip m vd va => encV 32#6 c vd va 0#4 21#6 (encQual ⟨clip, m, false⟩)
  | .vrco c k vd va vb => encV 33#6 c vd va vb 0#6 (encQual ⟨false, false, k⟩)
  | .vruns c vd va => encV 33#6 c vd va 0#4 1#6 0#3
  | .vlen c vd va => encV 33#6 c vd va 0#4 2#6 0#3
  | .vsetlen c clip vd va vb => encV 33#6 c vd va vb 3#6 (encQual ⟨clip, false, true⟩)
  | .vsplat c vd va vb => encV 33#6 c vd va vb 4#6 4#3
  | .vrsum c m vd va => encV 33#6 c vd va 0#4 5#6 (encQual ⟨false, m, false⟩)
  | .vrsumsq c m vd va => encV 33#6 c vd va 0#4 6#6 (encQual ⟨false, m, false⟩)
  | .vrmax c m vd va => encV 33#6 c vd va 0#4 7#6 (encQual ⟨false, m, false⟩)
  | .vrmin c m vd va => encV 33#6 c vd va 0#4 8#6 (encQual ⟨false, m, false⟩)
  | .vrcnt c m vd va => encV 33#6 c vd va 0#4 9#6 (encQual ⟨false, m, false⟩)
  | .vamax c m vd va => encV 33#6 c vd va 0#4 10#6 (encQual ⟨false, m, false⟩)
  | .velem c vd va vb => encV 33#6 c vd va vb 11#6 4#3
  | .vcat c clip vd va vb => encV 33#6 c vd va vb 12#6 (encQual ⟨clip, false, false⟩)
  | .vcvt c vd va fmt rnd sat => encC 34#6 c vd va fmt rnd sat 0#4
  | .vld c vd base count fmt => encVM 35#6 c vd base count fmt
  | .vst c vd base count fmt => encVM 36#6 c vd base count fmt
  | .vclaim c d a => encRRR 37#6 c d a 0#6 0#3
  | .vrels c => encRRR 37#6 c 0#6 0#6 0#6 1#3
  | .vqry c d a => encRRR 37#6 c d a 0#6 2#3
  | .vqnt c vd va fmt rnd sat sc => encC 38#6 c vd va fmt rnd sat sc
  | .ldb c d base off => encRRR 40#6 c d base off 0#3
  | .ldbu c d base off => encRRR 40#6 c d base off 1#3
  | .ldh c d base off => encRRR 40#6 c d base off 2#3
  | .ldhu c d base off => encRRR 40#6 c d base off 3#3
  | .ldw c d base off => encRRR 40#6 c d base off 4#3
  | .ldwu c d base off => encRRR 40#6 c d base off 5#3
  | .ldd c d base off => encRRR 40#6 c d base off 6#3
  | .ldq c d base off => encRRR 40#6 c d base off 7#3
  | .stb c d base off => encRRR 41#6 c d base off 0#3
  | .sth c d base off => encRRR 41#6 c d base off 1#3
  | .stw c d base off => encRRR 41#6 c d base off 2#3
  | .std c d base off => encRRR 41#6 c d base off 3#3
  | .stq c d base off => encRRR 41#6 c d base off 4#3
  | .lds c sz d base off => encRRR 42#6 c d base off (0#1 ++ sz)
  | .ldsC c sz d base off => encRRR 42#6 c d base off (1#1 ++ sz)
  | .sts c sz d base off => encRRR 43#6 c d base off (0#1 ++ sz)
  | .aadd c w4 d a b => encRRR (22#5 ++ BitVec.ofBool w4) c d a b 0#3
  | .amin c w4 d a b => encRRR (22#5 ++ BitVec.ofBool w4) c d a b 1#3
  | .amax c w4 d a b => encRRR (22#5 ++ BitVec.ofBool w4) c d a b 2#3
  | .aand c w4 d a b => encRRR (22#5 ++ BitVec.ofBool w4) c d a b 3#3
  | .aor c w4 d a b => encRRR (22#5 ++ BitVec.ofBool w4) c d a b 4#3
  | .axor c w4 d a b => encRRR (22#5 ++ BitVec.ofBool w4) c d a b 5#3
  | .aswp c w4 d a b => encRRR (22#5 ++ BitVec.ofBool w4) c d a b 6#3
  | .acas c w4 d a b => encRRR (22#5 ++ BitVec.ofBool w4) c d a b 7#3
  | .lkp c d a => encRRR 46#6 c d a 0#6 0#3
  | .dset c d a b => encRRR 46#6 c d a b 1#3
  | .dclr c a => encRRR 46#6 c 0#6 a 0#6 2#3
  | .dinv c d a b => encRRR 46#6 c d a b 3#3
  | .feset c a => encRRR 47#6 c 0#6 a 0#6 0#3
  | .feclr c a => encRRR 47#6 c 0#6 a 0#6 1#3
  | .fetest c d a => encRRR 47#6 c d a 0#6 2#3
  | .waitf c a => encRRR 47#6 c 0#6 a 0#6 3#3
  | .waitfE c a => encRRR 47#6 c 0#6 a 1#6 3#3
  | .fenceAcq c scope => encRRR 48#6 c 0#6 0#6 (scope ++ 0#3) 0#3
  | .fenceRel c scope => encRRR 48#6 c 0#6 0#6 (scope ++ 0#3) 1#3
  | .fenceFull c scope => encRRR 48#6 c 0#6 0#6 (scope ++ 0#3) 2#3
  | .fenceEngine c => encRRR 48#6 c 0#6 0#6 0#6 3#3
  | .ctalloc c d a b => encRRR 49#6 c d a b 0#3
  | .ctset c d a => encRRR 49#6 c d a 0#6 1#3
  | .ctcommit c a b => encRRR 49#6 c 0#6 a b 2#3
  | .ctdrop c a b => encRRR 49#6 c 0#6 a b 3#3
  | .ctstat c d a => encRRR 49#6 c d a 0#6 4#3
  | .ldx c d a b => encRRR 49#6 c d a b 5#3
  | .cpy c d a r => encX 50#6 c d a (2#5 ++ BitVec.ofBool r) 0#3
  | .cpy2 c d a r => encX 50#6 c d a (3#5 ++ BitVec.ofBool r) 1#3
  | .gath c d a n => encX 50#6 c d a n 2#3
  | .scat c d a => encX 50#6 c d a 5#6 3#3
  | .cpyx c d a n => encX 50#6 c d a n 4#3
  | .cstat c d => encX 50#6 c d 0#6 0#6 5#3
  | .cstatHandle c d a => encX 50#6 c d a 1#6 5#3
  | .oclaim c d a => encX 51#6 c d a 1#6 0#3
  | .orels c a => encX 51#6 c 0#6 a 1#6 1#3
  | .mcap c d => encX 51#6 c d 0#6 0#6 2#3
  | .mma c a => encX 51#6 c 0#6 a 4#6 3#3
  | .mred c a => encX 51#6 c 0#6 a 4#6 4#3
  | .mdrain c a => encX 51#6 c 0#6 a 2#6 5#3
  | .mdrainScaled c a => encX 51#6 c 0#6 a 4#6 5#3
  | .cbload c a => encX 51#6 c 0#6 a 1#6 6#3
  | .mfill c a => encX 51#6 c 0#6 a 3#6 7#3
  | .coll c d a => encX 52#6 c d a 5#6 0#3
  | .rsync c => encX 52#6 c 0#6 0#6 0#6 1#3
  | .rstat c d a => encX 52#6 c d a 1#6 2#3
  | .xtab c d a => encX 53#6 c d a 3#6 0#3
  | .xstart c d a => encX 53#6 c d a 6#6 1#3
  | .xstat c d a => encX 53#6 c d a 1#6 2#3
  | .br c off => encB 54#6 c off
  | .brl c off => encB 55#6 c off
  | .jr c a => encRRR 56#6 c 0#6 a 0#6 0#3
  | .jrl c a => encRRR 56#6 c 0#6 a 0#6 1#3
  | .tend c => encRRR 56#6 c 0#6 0#6 0#6 2#3
  | .spawn c d a n => encX 57#6 c d a n 0#3
  | .meet c d a => encX 57#6 c d a 2#6 1#3
  | .meetq c d a => encX 57#6 c d a 3#6 2#3
  | .glaunch c d a => encX 57#6 c d a 3#6 3#3
  | .yield c => encX 57#6 c 0#6 0#6 0#6 4#3
  | .yieldFor c a => encX 57#6 c 0#6 a 1#6 4#3
  | .hbeat c => encX 57#6 c 0#6 0#6 0#6 5#3
  | .trap c b => encRRR 58#6 c 0#6 0#6 b 0#3
  | .rft c => encRRR 58#6 c 0#6 0#6 0#6 1#3
  | .csrr c d n => encCSR c d n 2#3
  | .csrw c d n => encCSR c d n 3#3
  | .noph => encHint 0#4 0#22
  | .imm p => encHint 1#4 p
  | .guard r bit sense => encHint 2#4 (r ++ bit ++ BitVec.ofBool sense ++ 0#9)
  | .live p => encHint 3#4 p
  | .rmode rm => encHint 4#4 (0#19 ++ rm)
  | .stallx n => encHint 5#4 (0#14 ++ n)
  | .longResultLand _ _ => 0#32
  | .syncTimeout _ _ => 0#32
  | .yieldExpire _ _ => 0#32
  | .meetRelease _ _ => 0#32
  | .meetDetTimeout _ _ => 0#32
  | .preemptTimeout _ _ => 0#32
  | .saveComplete _ _ => 0#32
  | .swapResume _ _ => 0#32
  | .reqRead _ => 0#32
  | .reqWrite _ => 0#32
  | .reqLds _ => 0#32
  | .reqLdsc _ => 0#32
  | .reqSts _ => 0#32
  | .reqFebit _ => 0#32
  | .reqFetest _ => 0#32
  | .reqWaitf _ => 0#32
  | .reqAtomic _ => 0#32
  | .reqSpawn _ => 0#32
  | .reqGlaunch _ => 0#32
  | .reqSuccdec _ => 0#32
  | .reqReady _ => 0#32
  | .reqMma _ => 0#32
  | .reqMred _ => 0#32
  | .reqCollc _ => 0#32
  | .collInstanceTimeout _ _ => 0#32
  | .reqCanopy _ => 0#32
  | .reqXducer _ => 0#32
  | .reqCancel _ => 0#32
  | .ansDone _ => 0#32
  | .ansWaiting _ => 0#32
  | .ansRetry _ => 0#32
  | .ansBusy _ => 0#32
  | .ansStale _ => 0#32
  | .ansUnknownOutcome _ => 0#32
  | .ansCancelled _ => 0#32
  | .ansError _ _ => 0#32
  | .ansFenced _ => 0#32
  | .requestRetransmit _ => 0#32
  | .backoffResend _ => 0#32
  | .requestGiveUp _ => 0#32
  | .receiptExpiry _ => 0#32
  | .dramAccessComplete _ _ => 0#32
  | .refreshStart _ => 0#32
  | .completionArrival _ => 0#32
  | .xducerTableLoad _ _ => 0#32
  | .xducerJob _ _ => 0#32
  | .mmaStart _ => 0#32
  | .mmaFinish _ => 0#32
  | .operandForward _ => 0#32
  | .matrixHeadTimeout _ => 0#32
  | .matrixAcceptTimeout _ => 0#32
  | .canopyCommit _ => 0#32
  | .canopyDrop _ => 0#32
  | .distributorSelect _ => 0#32
  | .privateCtagCommit _ _ => 0#32
  | .markComplete _ _ => 0#32
  | .intervalCommitRetry _ _ => 0#32
  | .ctagWrite _ _ => 0#32
  | .fpcsrWrite _ _ => 0#32
  | .xlinvWrite _ _ => 0#32
  | .xlinvComplete => 0#32
  | .dqloadWrite _ _ => 0#32
  | .dcmdReprio _ _ => 0#32
  | .dcmdCancel _ _ => 0#32
  | .preemptSafe _ _ => 0#32
  | .preemptForced _ _ => 0#32
  | .preemptKill _ _ => 0#32
  | .resumeWrite _ _ => 0#32
  | .collcfgLoad _ _ => 0#32
  | .collcfgRemove _ _ => 0#32
  | .xlaneWrite _ _ => 0#32
  | .threadEligible _ _ => 0#32
  | .budgetExpiry _ _ => 0#32
  | .heartbeatExpiry _ _ => 0#32
  | .coreFence _ => 0#32
  | .coreContainment _ _ => 0#32
  | .residueMismatch _ _ _ => 0#32
  | .scrubPass _ _ => 0#32
  | .safePointSave _ _ => 0#32
  | .forcedSave _ _ => 0#32
  | .threadResume _ _ => 0#32
  | .swapOut _ => 0#32
  | .reqHwread _ => 0#32
  | .reqHwwrite _ => 0#32
  | .reqHroot _ => 0#32
  | .hmgmtReadStatus _ => 0#32
  | .hmgmtReadSensors _ => 0#32
  | .hmgmtWarmStart _ => 0#32
  | .hmgmtColdStart _ => 0#32
  | .hmgmtSetEventPush _ => 0#32
  | .ownerRestart _ => 0#32
  | .pageWalk _ _ _ => 0#32
  | .refreshEnd => 0#32
  | .tempSample => 0#32
  | .steal _ _ => 0#32
  | .partitionReset _ _ => 0#32
  | .coldStart => 0#32
  | .warmStart => 0#32
  | .illegalWord w => w
  | .fetchFault _ => 0#32
  | .powerRemoval => 0#32

end Sys2Proof
end

