-- ==== Sys2Proof/Machine/State.lean ====
section
/-! DEFINITION. The state of one module as plain data: every piece of state the spec gives it (INVENTORY.md lists them with their rules), the reasons a step can stop, and the state after reset. -/
namespace Sys2Proof.Machine

/-- A run of a vector register: a value and a count from 1 to 65,535 (R154). -/
structure Run where
  value : Word
  count : Nat
deriving DecidableEq, Repr

/-- A vector register: FMT and its runs; NRUNS and LEN follow from them (R154, R155). -/
structure VecReg where
  fmt : BitVec 5
  runs : List Run
deriving DecidableEq, Repr

/-- A long-latency result that has not landed (R25): its register, value, flags, landing cycle and the word's address. -/
structure Pend where
  reg : Reg
  value : Word
  flags : BitVec 5
  land : Nat
  addr : Word
deriving DecidableEq, Repr

/-- An entry of the unknown-outcome list (R268, R274). `owner` is none for an entry restored from a frame. -/
structure UnkEntry where
  serial : BitVec 32
  typ : Nat
  reason : Nat
  cause : Option Cause
  owner : Option Endpoint
  reported : Bool
deriving DecidableEq, Repr

/-- A request that has not settled, as its requester keeps it (R267): when it was last sent, when the give-up clock started, how many RETRY and BUSY answers it had, K.CTAG at its issue (R82), whether it is not on its way: refused, or held behind one that was (R227), and whether its owner has answered that it waits, or has no entry for it to wait in (R132). `behind`: the requests that have to settle before it is sent, for the second owner of a misaligned store, and for what follows that to one owner (R123, R257). -/
structure PendReq where
  req : Request
  posted : Bool
  lastSent : Nat
  clock : Nat
  tries : Nat
  under : Nat
  idle : Bool
  waits : Bool
  behind : List Nat
deriving DecidableEq, Repr

/-- The kinds of engine commands (R370). -/
inductive EngKind where
  | copy | xducer | mma | mred | canopy | coll
deriving DecidableEq, Repr

/-- An engine command without its arrival, as its thread keeps it (R366, R370), with K.CTAG at its issue and the address of its word. -/
structure EngCmd where
  kind : EngKind
  serial : BitVec 32
  copyTag : Nat
  ref : Word
  ctag : Nat
  pc : Word
deriving DecidableEq, Repr

/-- One single-copy-atomic part of an access: system physical address, size, virtual address, ctag (0 off C pages) (R122, R70). -/
structure Piece where
  pa : Nat
  size : Nat
  va : Word
  ctag : Nat
deriving DecidableEq, Repr

/-- What a holding word does with its answer (R263), with the operands that it read at its issue (R25). -/
inductive HoldKind where
  | load (f n : Nat) (d : Reg)
  | store
  | lds (sz : Nat) (d : Reg)
  | nothing
  | fetest (d : Reg)
  | atomic (w4 : Bool) (d : Reg)
  | spawn (d : Reg) (core : Nat) (a n : Reg)
  | ctalloc (d : Reg) (p : Word)
  | ctset (d : Reg) (t : Nat)
  | ctend
  | xducer (d : Reg)
  | glaunch (d : Reg)
  | gaddr (d : Reg) (i j table : Word) (f : Nat)
  | vld (vd : VReg) (base : Word) (count : Reg) (fmt : Nat) (n : Nat) (k : Nat) (rev : List Run)
  | vst (vd : VReg) (base : Word) (count : Reg) (m : Nat) (next : Nat)
deriving DecidableEq, Repr

/-- A holding word: its common fields, its issue cycle, the request it waits for, the parts still to be requested and the bytes it has. -/
structure Hold where
  ctl : Ctl
  issue : Nat
  tag : Nat
  kind : HoldKind
  todo : List Piece
  got : List Byte
  data : List Byte
deriving DecidableEq, Repr

/-- What a parked word waits for (R129, R130 and the rules that say "counts as parked"); `meet`: the MEET or MEETQ `w`, for its requests or for its engine commands (R296); `goOn`: a VST that goes on where it stands when it may send again (R262, R366); `trapping`: a trap whose entry waits for the thread's pending results (R353). -/
inductive Wait where
  | granule (g : Nat)
  | copyTag
  | fence (scope : Nat)
  | requests
  | engines
  | meet (w : IWord) (engines : Bool)
  | ctagWork (t : Nat) (commit : Bool)
  | slotsEmpty (mask : Nat)
  | slotsUnnamed (mask : Nat)
  | unitQueue
  | commands (sub : Nat) (l : List Nat)
  | applied (sub : Nat)
  | posted (n : Nat)
  | engineCount
  | window (n : Nat)
  | tags (l : List Nat)
  | clock (t : Nat)
  | goOn (h : Hold)
  | trapping (code : Cause) (val pc : Word) (async addr : Bool)
deriving DecidableEq, Repr

/-- The states of an occupied slot's thread (R283); `acting`: its word `w` has issued and acts at cycle `c` (R120, R296); a slot that waits for a resume (R371). -/
inductive Status where
  | ready
  | acting (c : Nat) (w : IWord)
  | parked (w : Wait)
  | holding (h : Hold)
  | meet (entry : Nat) (d : Reg) (c : Ctl)
  | resuming (frame : Nat)
deriving DecidableEq, Repr

/-- What a thread knows of its queue where that is in another module (R290, R320, R323, R331, log 97): the module, TOKBUD, SWAPLOG and the placement map. -/
structure Away where
  module : Nat
  tokbud : Nat
  swapLog : Nat
  origin : Nat
  pr : Nat
  pc : Nat
  ch : Nat
  cw : Nat
  bx : Nat
  yb : Nat
deriving DecidableEq, Repr

/-- A thread: the registers of its frame, its vector registers, its K registers and what the core keeps of it.
`kill`: a kill that is pending, with the cycle in which it was asked for; `eccBad` and `eccOne`: its frame or lane storage holds an uncorrectable error, or so many single-bit ones (R374).
`away` stands for a queue in another module; `busy` is the cycle until which its latest word holds it (R209); `done` says that its latest word has completed (R288); `budgetTaken` that BUDGET has been raised (R286); `afterRft` that it waits for the word after an RFT (R354, R377).
A thread that is being saved has in `saving` its frame, whether the save is forced, and the cycle at which its wait ends (R367). -/
structure Thread where
  g : Vector Word 64
  pc : Word
  v : Vector VecReg 16
  claim : Nat
  tid : Word
  cnt : Nat
  cx : Nat
  cy : Nat
  cz : Nat
  fpcsr : BitVec 15
  sc : Bool
  det : Bool
  gsel : BitVec 22
  pfx : BitVec 28
  ctag : Nat
  tvec : Word
  tcause : Word
  tpc : Word
  tval : Word
  tsave : Word
  hbint : Nat
  budget : Nat
  synclim : Nat
  stream : BitVec 32
  serial : BitVec 32
  ackw : BitVec 32
  meetwin : Nat
  dtbase : Word
  ptbase : Word
  spawnk : Nat
  hb : Nat
  acct : Nat
  done : Bool
  budgetTaken : Bool
  afterRft : Bool
  status : Status
  elig : Nat
  busy : Nat
  issued : Nat
  waitStart : Option (Nat × Word)
  pend : List Pend
  reqs : List PendReq
  unk : List UnkEntry
  unkOver : Bool
  engs : List EngCmd
  live : Bool
  safePoint : Option (BitVec 22)
  preempt : Option (Nat × Nat)
  forced : Option Nat
  saving : Option (Nat × Bool × Nat)
  kill : Option (Cause × Word × Nat)
  queue : Option (Nat × Nat)
  blk : Option Nat
  tcb : Word
  sink : Word
  errq : Word
  qpt : Word
  spawned : Bool
  away : Option Away
  ownCtag : Option Nat
  eccBad : Bool
  eccOne : Nat
deriving DecidableEq, Repr

/-- What an engine command carries of its issuing thread (R89, R15, R94). -/
structure Env where
  module : Nat
  core : Nat
  tid : Word
  cnt : Nat
  stream : BitVec 32
  serial : BitVec 32
  ctag : Nat
  ptbase : Word
  sink : Word
  errq : Word
  qpt : Word
deriving DecidableEq, Repr

/-- A copy command in flight (R87, R88): `f` of the word, its register block, the rounding mode taken at issue, the number of the current part and its list entry once that is read (R106, log 105),
its bytes read so far (none: not readable), those of the piece being read and which fetch that is (0 the first, 1 the second, 2 the replica's), the blocks of Z pages read by the address of each (R111), how many of its writes are done, the request it waits for,
the granules to set full, those that stay as they are (R95, R96), the highest local-store byte written (address and system physical address past it), and what the arrival will report. -/
structure CopyCmd where
  env : Env
  f : Nat
  regs : List Word
  rnd : Nat
  ref : Word
  next : Nat
  index : Option Nat
  got : List (Option Byte)
  piece : List Byte
  fetch : Nat
  blocks : Tab (List Byte)
  sent : Nat
  wait : Option PendReq
  full : List Nat
  lost : List Nat
  high : Nat × Nat
  fail : Option (Cause × Word)
  flags : BitVec 5
  illop : Bool
deriving DecidableEq, Repr

/-- An operand slot (R225); bytes not listed are 0. -/
structure OpSlot where
  full : Bool
  owner : Option Nat
  fmt : Nat
  roleB : Bool
  scaled : Bool
  data : Tab Byte
deriving DecidableEq, Repr

/-- A matrix command or contribution (R243, R247): the register block, the wait limit taken at issue, the tag by which the model knows it,
and, for MRED, the elements of the source sub-tile. -/
structure MCmd where
  env : Env
  mred : Bool
  regs : List Word
  limit : Nat
  tag : Nat
  data : List (BitVec 128)
deriving DecidableEq, Repr

/-- How far the head command is (R228). Forwarding: what its arrival will report, and for each direction none when it is done, 0 while its target slots are not empty, else the cycle at which it lands. -/
inductive MPhase where
  | idle
  | waiting (since : Nat)
  | running (finish : Nat)
  | forwarding (fail : Option (Cause × Word)) (illop : Bool) (east : Option Nat) (south : Option Nat)
deriving DecidableEq, Repr

/-- A directory entry (R140). -/
structure DirEntry where
  va : Nat
  ctag : Nat
  size : Nat
  slot : Nat
deriving DecidableEq, Repr

/-- An open meet entry (R295); ARRIVED is the length of `waiters`. -/
structure MeetEntry where
  dstate : List Word
  waiters : List Nat
  quorum : Nat
  deadline : Nat
  det : Bool
  first : Nat
deriving DecidableEq, Repr

/-- A swap-list entry (R323). -/
structure SwapEntry where
  frame : Nat
  granule : Nat
  resumable : Bool
deriving DecidableEq, Repr

/-- A core (R9, R223 to R229, R284, R288, R295). `sends` are the matrix commands and contributions it has sent and no owner has accepted (R227), in serial order, and its collective contributions on their way; `fenceFrom` is the cycle after which the fence count has grown by 1 in every cycle; `tended` is the slot that a TEND gave up, its cycle and the guest (R304); `unitAt` the cycle from which the matrix unit can act again (log 9); `killed` the slots whose latest threads service software has killed (R372); `back` the cycle in which a containment ends (R288). -/
structure Core where
  threads : Tab Thread
  last : Nat
  freeAt : Nat
  acount : Nat
  tsize : Nat
  acc : Tab (BitVec 128)
  tile : Tab Byte
  holder : Option Nat
  cap : BitVec 32
  caps : List (BitVec 32)
  nextKb : List Nat
  redbuf : List MCmd
  mq : List MCmd
  phase : MPhase
  ops : List OpSlot
  cb : Tab (BitVec 32)
  copies : Tab CopyCmd
  sends : List PendReq
  dir : Tab DirEntry
  meet : Tab MeetEntry
  waiters : List Request
  swaps : List SwapEntry
  fenceFrom : Nat
  tended : Option (Nat × Nat × Nat)
  unitAt : Nat
  killed : List Nat
  sealed : Bool
  failed : Bool
  back : Nat
deriving DecidableEq, Repr

/-- The states of a ctag (R68). -/
inductive CtState where
  | free | live | committing | retired
deriving DecidableEq, Repr

/-- A drop in progress (R76): the ctag dropped, the members of D, its completion reference and whose it is; none where the distributor began it (R327). `freed`: its cells are freed and its arrival is on its way. -/
structure Drop where
  root : Nat
  members : List Nat
  ref : Option (Word × Env)
  freed : Bool
deriving DecidableEq, Repr

/-- A ctag's record (R68); HOLD and FREE after RETIRED follow from the threads and the cells. `job` is its commit in progress (R74) with the completion reference and whose it is, none where the distributor began it (R327). -/
structure Ctag where
  state : CtState
  parent : Nat
  depth : Nat
  guest : Nat
  kill : Bool
  chk : Bool
  job : Option (Option (Word × Env))
deriving DecidableEq, Repr

/-- A canopy cell (R71): home block number (physical address / 64), ctag, the block's virtual address (R380), 64 bytes, WMASK, CMASK. -/
structure Cell where
  blk : Nat
  ctag : Nat
  va : Word
  data : List Byte
  wmask : BitVec 64
  cmask : BitVec 64
deriving DecidableEq, Repr

/-- A translation-cache entry of a die (R66). -/
structure TlbEntry where
  die : Nat
  guest : Nat
  asn : Nat
  va : Nat
  shift : Nat
  pte : Word
deriving DecidableEq, Repr

/-- A receipt of an owner (R264): its key, the answer, the owner time of execution in cycles. -/
structure Receipt where
  module : Nat
  stream : BitVec 32
  serial : BitVec 32
  off : Nat
  error : Option Cause
  res : List Word
  val : Word
  time : Nat
deriving DecidableEq, Repr

/-- A floor of an owner (R264). -/
structure Floor where
  module : Nat
  stream : BitVec 32
  floor : BitVec 32
  time : Nat
deriving DecidableEq, Repr

/-- The receipt cache of an owner, its RestartTime in µs, and the cycle in which its latest restart ends (R264, R266). -/
structure OwnerSt where
  receipts : List Receipt
  floors : List Floor
  restart : Nat
  back : Nat
deriving DecidableEq, Repr

/-- A task control block in a queue's ring (R314, R316), with what the distributor keeps of it. `status` is the STATUS code; `readyNo` and `retiredNo` say in which order the queue's blocks became ready and retired; `gone`: its private ctag has been committed or dropped, and the number may be another's (R68). -/
structure Block where
  addr : Word
  ptbase : Word
  pred : Nat
  status : Nat
  readyAt : Nat
  readyNo : Nat
  entry : Word
  x : Nat
  y : Nat
  z : Nat
  prio : Nat
  mark : Bool
  mode : Nat
  kill : Bool
  chk : Bool
  nsucc : Nat
  acount : Nat
  tsize : Nat
  succ : Word
  args : Word
  sink : Word
  budget : Nat
  mwin : Nat
  tidh : Nat
  hblog : Nat
  ctag : Option Nat
  gone : Bool
  awaiting : Bool
  retiredNo : Nat
  heldAt : Nat
deriving DecidableEq, Repr

/-- A hardware queue (R312, R316, R325 to R330, R381): its descriptor and its state. `blocks` are the ring entries after the last completed mark, in append order, numbered from `base`; `readies` and `retired` count the blocks that became ready and that retired, for their order (R316, R327); `dead`: PCTAG has stopped being LIVE since the load (R312); `gone`: the interval ctag has been committed or dropped (R68); `stealAt`: the cycle of the next attempt to steal (R330). -/
structure Queue where
  en : Bool
  det : Bool
  replay : Bool
  steal : Bool
  guest : Nat
  swapLog : Nat
  tokbud : Nat
  ring : Word
  ringN : Nat
  origin : Nat
  pr : Nat
  pc : Nat
  ch : Nat
  cw : Nat
  bx : Nat
  yb : Nat
  errq : Word
  pctag : Nat
  group : Nat
  tvec : Word
  qpt : Word
  blocks : List Block
  base : Nat
  marks : Nat
  digest : List Byte
  markDigest : List Byte
  interval : Option Nat
  lastTid : Option Nat
  stealCount : Nat
  readies : Nat
  retired : Nat
  dead : Bool
  gone : Bool
  retryAt : Option Nat
  stealAt : Nat
deriving DecidableEq, Repr

/-- A held block (R318): the die and the queue in whose ring it stands, its ring number, from its selection (R313) the descriptor of that queue and of the queue whose placement map it is bound under (R330), and the cycle from which it tries a swap-out again, once in each (R323). -/
structure Held where
  die : Nat
  q : Nat
  n : Nat
  queue : Queue
  map : Queue
  swapFrom : Nat
deriving DecidableEq, Repr

/-- A distributor (R312, R318): its queues, its held blocks, oldest first, lastQ by level, and the cycle from which it selects again: once in each, and after a load or a command of this cycle in the next (R318, R319). -/
structure Dist where
  queues : Tab Queue
  held : List Held
  lastQ : List Nat
  actAt : Nat
deriving DecidableEq, Repr

/-- The requests of a channel's atomic unit (READY, R317) of a distributor (the SUCCDECs of marks and of private commits), or of a host interface (accesses to other modules, R400) (log 81): its next serial, the serial through which all have settled, and those that have not, with what their failure reports. -/
structure ChanSt where
  serial : BitVec 32
  ackw : BitVec 32
  reqs : List (PendReq × Option Env)
deriving DecidableEq, Repr

/-- The result registers of a service core (R313, R363 to R365): what each reads after its latest write; K.XLINV without BUSY (R67). -/
structure Svc where
  xlinv : Word
  dqload : Nat
  dcmd : Nat
  preempt : Nat
  resume : Nat
  collcfg : Nat
  xlane : Nat
deriving DecidableEq, Repr

/-- A channel's sensor: the sampled reading, doubled refresh, and the reading now (R57). -/
structure Chan where
  temp : Nat
  dbl : Bool
  sensor : Nat
deriving DecidableEq, Repr

/-- A configured collective group (R364): members as (module, module core number). -/
structure Group where
  limit : Nat
  guest : Nat
  members : List (Nat × Nat)
deriving DecidableEq, Repr

/-- A contribution to an instance (R272); `alike`: its module's member list of the group is this module's (R364). -/
structure Contribution where
  rank : Nat
  alike : Bool
  env : Env
  desc : Word
  count : Nat
  dest : Word
  ref : Word
  bytes : List Byte
deriving DecidableEq, Repr

/-- A collective instance in progress (R272). -/
structure Inst where
  group : Nat
  inst : Nat
  first : Nat
  got : List Contribution
deriving DecidableEq, Repr

/-- A transition table (R113). -/
structure XTable where
  nstate : Nat
  nclass : Nat
  start : Nat
  amin : Nat
  cmap : List Nat
  entries : List (BitVec 32)
deriving DecidableEq, Repr

/-- An input-queue entry of a lane (R116): XTAB (image) or XSTART (input, length, output, capacity). -/
structure LaneJob where
  env : Env
  ref : Word
  tab : Bool
  a : Word
  len : Nat
  out : Word
  cap : Nat
deriving DecidableEq, Repr

/-- How far the entry at the head of a lane's queue is: the bytes read, how many are wanted, the fault that ends them, the result of a job that has run (state, RES, bytes consumed, failure), its output and how much of that is written, the request it waits for. -/
structure LaneRun where
  got : List Byte
  want : Nat
  bad : Option (Cause × Word)
  ran : Option (Nat × Nat × Nat × Option (Cause × Word))
  out : List Byte
  sent : Nat
  wait : Option PendReq
deriving DecidableEq, Repr

/-- A transducer lane (R112). -/
structure Lane where
  guest : Option Nat
  table : Option XTable
  queue : List LaneJob
  run : Option LaneRun
deriving DecidableEq, Repr

/-- What is kept of a saved thread beside its frame (R367 to R371, log 20): the thread, its core, and the cycle in which its give-up clocks stopped (R269). -/
structure Saved where
  thread : Thread
  origin : Nat
  began : Nat
deriving DecidableEq, Repr

/-- A host window (R400). -/
structure HostWindow where
  base : Nat
  rd : Bool
  wr : Bool
  npages : Nat
deriving DecidableEq, Repr

/-- What comes to the machine from outside (R57, R400): a sensor's reading changes, or firmware sets window `i` of the host interface of a port. -/
inductive Input where
  | sensor (die ch deg : Nat)
  | window (port i : Nat) (w : HostWindow)
deriving DecidableEq, Repr

/-- A boot status word's fields (R406). -/
structure Boot where
  done : Bool
  warm : Bool
  dram : Nat
  bridge : Nat
  fenced : Nat
  repaired : Nat
  fail : Nat
deriving DecidableEq, Repr

/-- What the march test of a core has found, as the repair table keeps it (R405): its failing rows of the local store, each as its bank and its row, which spare rows replace; and whether the core has failed. -/
structure Repair where
  rows : List (Nat × Nat)
  bad : Bool
deriving DecidableEq, Repr

/-- A host's request through a window onto another module (R400): the requests that carry it, each with its place in the data and its size; the data read so far; what has failed. -/
structure Hosted where
  req : Request
  tags : List (Nat × Nat × Nat)
  got : List Byte
  bad : Option (Cause × Word)
deriving DecidableEq, Repr

/-- Flash of a port die (R403): size and contents; bytes not listed read 0xFF. -/
structure Flash where
  size : Nat
  bytes : Tab Byte
deriving DecidableEq, Repr

/-- Whether the module runs: while it starts (R404, R407: whether warm, the step under way, and the cycle in which that ends), after a thermal trip (R409), after three failed cold starts, and without power (R407), it does not. -/
inductive Power where
  | running | tripped | halted | off
  | starting (warm : Bool) (step till : Nat)
deriving DecidableEq, Repr

/-- Why the machine stops. -/
inductive Fault where
  /-- Raised by `step`: the compute dies have no power after a thermal trip (R409), and nothing more comes from outside. Safe: nothing runs until a start. -/
  | tripped
  /-- Raised by `step`: three failed cold starts left the module halted (R407). Safe: nothing runs until power is removed. -/
  | halted
  /-- Raised by `step`: the module has no power and no start is under way (R404, R407). Safe: nothing runs until a start. -/
  | off
deriving DecidableEq, Repr

/-- Why an instruction has no meaning. -/
inductive Refusal where
  /-- Raised by `exec` for an instruction whose meaning is not written yet. Safe. -/
  | notModelled (mnemonic : String)
deriving DecidableEq, Repr

/-- One module (log 6 and 7 for the conventions of numbering). `refreshed`: the channels that the latest odd point of the grid refreshes (R57); `queued`: the messages that wait at channels for the end of a refresh, in the order of their arrival (R58); `inputs`: what the outside world does to the sensors and the host windows, by cycle (log 32); `handles`: the reference and the handle that each diverted record names (R94), which its layout has no field for (log 42); `told`: the C0 messages that the supervisors have received, as the supervisor and the core that is contained (R288, R372); `scrubs`: the scrub passes made (R375). -/
structure State where
  moduleNo : Nat
  cycle : Nat
  timeBase : Nat
  mem : Tab Byte
  full : List Nat
  cores : Tab Core
  ctags : Tab Ctag
  drops : List Drop
  cells : List Cell
  heap : Tab Nat
  tlb : List TlbEntry
  xlinv : List (Nat × Word × Word)
  chans : Tab Chan
  refresh : Option Nat
  refreshed : List Nat
  queued : List Instr
  inputs : List (Nat × Input)
  side : Tab (BitVec 32)
  owners : List (Owner × OwnerSt)
  dists : Tab Dist
  readys : Tab ChanSt
  groups : Tab Group
  insts : List Inst
  lanes : Tab Lane
  svc : Tab Svc
  plog : Word
  relctl : BitVec 3
  eccCorr : Nat
  eccUnc : Nat
  swapPool : Word
  swapPools : Tab Word
  swapUsed : List Nat
  eccOne : List Nat
  eccBad : List Nat
  corrected : List Nat
  told : List (Nat × Nat)
  handles : List (Word × Word)
  scrubs : Nat
  streams : List (BitVec 32 × Nat)
  retired : List (Nat × Thread)
  saved : Tab Saved
  hostWin : List (List HostWindow)
  eventPush : List Bool
  hevents : List (Nat × List Byte)
  boot : List Boot
  portStatus : List Word
  flash : List Flash
  train : Tab Nat
  repair : Tab Repair
  hosted : List Hosted
  power : Power
  coldFails : Nat
  warmFails : Nat
  started : Nat
  outbox : List Instr
  agenda : List (Nat × Instr)
  cur : Nat × Nat
  transit : List Nat
  freeCtr : Nat
  nextTag : Nat
deriving DecidableEq, Repr

/-- An operand slot after start-up (R225, R223). -/
def OpSlot.reset : OpSlot := ⟨false, none, 0, false, false, []⟩

/-- A core after start-up (R121, R140, R150, R226, R248, R284). -/
def Core.reset : Core :=
  { threads := [], last := 15, freeAt := 0, acount := 0, tsize := 0, acc := [], tile := [], holder := none
    cap := 0, caps := [], nextKb := [0, 0, 0, 0], redbuf := [], mq := [], phase := .idle
    ops := List.replicate 16 OpSlot.reset, cb := [], copies := [], sends := [], dir := [], meet := [], waiters := []
    swaps := [], fenceFrom := 0, tended := none, unitAt := 0, killed := [], sealed := false, failed := false, back := 0 }

/-- The root ctag: always LIVE, depth 0 (R68). -/
def Ctag.root : Ctag := ⟨.live, 0, 0, 0, false, false, none⟩
/-- A ctag that is FREE (R68). -/
def Ctag.none : Ctag := ⟨.free, 0, 0, 0, false, false, Option.none⟩
/-- A channel at the reset reading (log 6), refreshed at the normal rate (R57). -/
def Chan.reset : Chan := ⟨60, false, 60⟩
/-- A distributor with no queue loaded (R312); lastQ is 63 after reset (R318). -/
def Dist.reset : Dist := ⟨[], [], List.replicate 8 63, 0⟩
/-- A service core's result registers before any write (log 6). -/
def Svc.reset : Svc := ⟨0, 0, 0, 0, 0, 0, 0⟩
/-- The 16 windows of a host interface before firmware has set one (log 6). -/
def HostWindow.none16 : List HostWindow := List.replicate 16 ⟨0, false, false, 0⟩
/-- A boot status word after a start that succeeded (R404, R406): every layer trained, and every bridge the die has; bit 0 of BRIDGE is north (log 6). -/
def Boot.started (warm : Bool) (die : Nat) : Boot := ⟨true, warm, 15, (if die < 4 then 14 else if 12 ≤ die then 11 else 15), 0, 0, 0⟩
/-- The flash of a port die: in slot 0 an image with an empty body (log 6), whose header R403 fixes. -/
def Flash.reset : Flash := ⟨2 ^ 25, [(0, 0x31), (1, 0x58), (2, 0x44), (3, 0x4E)] ++ (List.range 60).map (fun i => (4 + i, 0))⟩

/-- A task's registers at its start (R179, R157); launch and spawn fill in what comes from them. -/
def Thread.reset : Thread :=
  { g := Vector.replicate 64 0, pc := 0, v := Vector.replicate 16 ⟨0, []⟩, claim := 0, tid := 0, cnt := 1
    cx := 0, cy := 0, cz := 0, fpcsr := 1, sc := false, det := false, gsel := 0x200, pfx := 0, ctag := 0
    tvec := 0, tcause := 0, tpc := 0, tval := 0, tsave := 0, hbint := 2 ^ 22, budget := 2 ^ 48 - 1
    synclim := 2 ^ 24, stream := 0, serial := 1, ackw := 0, meetwin := 0, dtbase := 0, ptbase := 0
    spawnk := 0, hb := 0, acct := 0, done := true, budgetTaken := false, afterRft := false, status := .ready, elig := 0, busy := 0, issued := 0, waitStart := none, pend := []
    reqs := [], unk := [], unkOver := false, engs := [], live := false, safePoint := none
    preempt := none, forced := none, saving := none, kill := none, queue := none, blk := none, tcb := 0, sink := 0, errq := 0
    qpt := 0, spawned := false, away := none, ownCtag := none, eccBad := false, eccOne := 0 }

/-- The module after a cold start that succeeded (step 8 of R404): no thread, no queue, nothing in memory.
Values the spec leaves open are named in log 5, 6 and 95. -/
def State.reset : State :=
  { moduleNo := 0, cycle := 0, timeBase := 0, mem := [], full := [], cores := [], ctags := [], drops := [], cells := []
    heap := [], tlb := [], xlinv := [], chans := [], refresh := some 0, refreshed := [], queued := [], inputs := [], side := [], owners := [], dists := []
    readys := [], groups := [], insts := [], lanes := [], svc := [], plog := 0, relctl := 3, eccCorr := 0, eccUnc := 0
    swapPool := 0, swapPools := [], swapUsed := [], eccOne := [], eccBad := [], corrected := [], told := [], handles := [], scrubs := 0, streams := [], retired := [], saved := []
    hostWin := [HostWindow.none16, HostWindow.none16], eventPush := [false, false], hevents := [], boot := (List.range 16).map (Boot.started false)
    portStatus := [0, 0], flash := [Flash.reset, Flash.reset], train := [], repair := [], hosted := [], power := .running
    coldFails := 0, warmFails := 0, started := 0, outbox := []
    agenda := [(Config.refreshLength, .refreshEnd), (Config.refreshStep, .refreshStart 1), (Config.sampleCycles, .tempSample)]
    cur := (0, 0), transit := [], freeCtr := 0, nextTag := 0 }

end Sys2Proof.Machine
end

