-- ==== Sys2Proof/Machine/Base.lean ====
section
/-! DEFINITION. Reading and changing parts of the state: cores, threads, registers, the agenda, bytes of memory. -/
namespace Sys2Proof.Machine

/-- Core `k`; a core that is not listed is as after start-up. -/
def State.core (s : State) (k : Nat) : Core := (s.cores.find k).getD Core.reset
def State.setCore (s : State) (k : Nat) (c : Core) : State := { s with cores := s.cores.put k c }
def State.mapCore (s : State) (k : Nat) (f : Core → Core) : State := s.setCore k (f (s.core k))

/-- The thread of slot `sl` of core `k`. -/
def State.thread (s : State) (k sl : Nat) : Option Thread := (s.core k).threads.find sl
def State.setThread (s : State) (k sl : Nat) (t : Thread) : State :=
  s.mapCore k (fun c => { c with threads := c.threads.put sl t })
def State.mapThread (s : State) (k sl : Nat) (f : Thread → Thread) : State :=
  match s.thread k sl with
  | some t => s.setThread k sl (f t)
  | none => s
def State.dropThread (s : State) (k sl : Nat) : State :=
  s.mapCore k (fun c => { c with threads := c.threads.del sl })

/-- The threads of core `k` with their slots, in slot order. -/
def State.threads (s : State) (k : Nat) : List (Nat × Thread) := (s.core k).threads

/-- G[r]: g0 reads as zero (R153). -/
def Thread.rd (t : Thread) (r : Reg) : Word := if r = 0#6 then 0 else t.g[r.toFin]
/-- G[r] ← v: a write to g0 is discarded, and a pending result of r will be (R153, R25). -/
def Thread.wr (t : Thread) (r : Reg) (v : Word) : Thread :=
  if r = 0#6 then t
  else { t with g := t.g.set r.toNat v r.isLt, pend := t.pend.map (fun p => if p.reg = r then { p with reg := 0#6 } else p) }
/-- Register n of a block, by number. -/
def Thread.rdN (t : Thread) (n : Nat) : Word := t.rd (BitVec.ofNat 6 n)
def Thread.wrN (t : Thread) (n : Nat) (v : Word) : Thread := t.wr (BitVec.ofNat 6 n) v
/-- The block of n registers from a (R21). -/
def Thread.block (t : Thread) (a : Reg) (n : Nat) : List Word := (List.range n).map (fun i => t.rdN (a.toNat + i))
/-- v_r. -/
def Thread.vr (t : Thread) (r : VReg) : VecReg := t.v[r.toFin]
def Thread.vw (t : Thread) (r : VReg) (x : VecReg) : Thread := { t with v := t.v.set r.toNat x r.isLt }

/-- Whether the slot waits for a resume (R371): its thread is the saved one. -/
def Thread.resumes (t : Thread) : Bool := match t.status with | .resuming _ => true | _ => false
/-- K.TCAUSE.INH (R352). -/
def Thread.inh (t : Thread) : Bool := t.tcause.getLsbD 12
/-- The GUEST of K.PTBASE (R62, R291). -/
def guestOf (pt : Word) : Nat := bits pt 0 8
def Thread.guest (t : Thread) : Nat := guestOf t.ptbase

/-- Service level is a property of the core (R158, R403, log 7). -/
def isService (k : Nat) : Bool := Config.serviceBase ≤ k
/-- The die of core `k` (R10); a service core uses the die of its port number for what a die names (log 7). -/
def dieOf (k : Nat) : Nat := if isService k then (k - Config.serviceBase) / 4 else k / 16384
def indexOf (k : Nat) : Nat := if isService k then (k - Config.serviceBase) % 4 else k % 16384
def rowOf (k : Nat) : Nat := indexOf k / 128
def colOf (k : Nat) : Nat := indexOf k % 128
/-- Market (R9) of a core, with its die. -/
def marketOf (k : Nat) : Nat × Nat := (if isService k then k else dieOf k, (rowOf k / 2) * 32 + colOf k / 4)
/-- Region (R53). -/
def regionOf (k : Nat) : Nat := (rowOf k / 20) * 4 + colOf k / 32
/-- The endpoint of core `k` (R258). -/
def State.endpoint (s : State) (k : Nat) : Endpoint :=
  ⟨if isService k then 2 else 0, s.moduleNo, dieOf k, indexOf k⟩
/-- The core an endpoint of this module names. -/
def coreOf (e : Endpoint) : Nat := if e.kind == 2 then Config.serviceBase + e.die * 4 + e.index else e.die * 16384 + e.index

/-- The IEEE 1588 time in µs (R265). -/
def State.us (s : State) : Nat := s.timeBase + s.cycle / Config.usCycles

/-- The order of the agenda in one cycle: the copy ports come after the requests (R119), a cancel after what performs the access (R276), the limits of waits after what ends a wait (R130), the sensors' sample last (R321). -/
def eventRank : Instr → Nat
  | .dramAccessComplete _ _ => 1
  | .reqCancel _ => 1
  | .syncTimeout _ _ => 2
  | .meetDetTimeout _ _ => 2
  | .tempSample => 3
  | _ => 0
/-- Insertion into the agenda, after every entry of the same cycle and rank. -/
def insertEvent (t : Nat) (i : Instr) : List (Nat × Instr) → List (Nat × Instr)
  | [] => [(t, i)]
  | e :: l => if t < e.1 || (t == e.1 && eventRank i < eventRank e.2) then (t, i) :: e :: l else e :: insertEvent t i l
/-- An event at cycle `t`. -/
def State.at (s : State) (t : Nat) (i : Instr) : State := { s with agenda := insertEvent t i s.agenda }

/-- The next delay of the tape (log 9): 0 when the tape is empty. -/
def State.delay (s : State) : Nat := s.transit.headD 0
def State.popDelay (s : State) : State := { s with transit := s.transit.tail }

/-- A free value (log 8) and the state with the counter advanced. -/
def State.free (s : State) : Word := Config.freeValue s.freeCtr
def State.useFree (s : State) : State := { s with freeCtr := s.freeCtr + 1 }

/-! ### Bytes -/

/-- The byte at key `a`; a byte that is not listed is zero (R121, R335). -/
def readByte (m : Tab Byte) (a : Nat) : Byte := (m.find a).getD 0
/-- One byte written: the canonical form lists no zero. -/
def writeByte (m : Tab Byte) (a : Nat) (b : Byte) : Tab Byte := if b = 0 then m.del a else m.put a b
def readBytes (m : Tab Byte) (a n : Nat) : List Byte := (List.range n).map (fun i => readByte m (a + i))
def writeBytes (m : Tab Byte) (a : Nat) : List Byte → Tab Byte
  | [] => m
  | b :: l => writeBytes (writeByte m a b) (a + 1) l

/-- Little-endian (R4). -/
def leNat : List Byte → Nat
  | [] => 0
  | b :: l => b.toNat + 256 * leNat l
def leBytes : Nat → Nat → List Byte
  | 0, _ => []
  | n + 1, x => BitVec.ofNat 8 x :: leBytes n (x / 256)
def leWord (l : List Byte) : Word := BitVec.ofNat 64 (leNat l)
/-- Bytes `i` to `i + n − 1` of a list, as a number. -/
def field (l : List Byte) (i n : Nat) : Nat := leNat ((l.drop i).take n)
/-- Words to bytes. -/
def wordBytes (l : List Word) : List Byte := (l.map (fun w => leBytes 8 w.toNat)).flatten

/-- A memory in canonical form: addresses rise strictly and no byte listed is zero. -/
def Memory.wf : Tab Byte → Bool
  | [] => true
  | (a, b) :: l => b != 0 && (match l with | [] => true | (c, _) :: _ => decide (a < c)) && Memory.wf l

/-- Key of byte `off` of the local store of core `k`: its window (R12); a service core's lies past every die (log 7). -/
def localKey (k off : Nat) : Nat :=
  if isService k then 2 ^ 44 + (k - Config.serviceBase) * Config.windowStep + off
  else dieOf k * 2 ^ 40 + Config.windowBase + indexOf k * Config.windowStep + off
/-- System physical address of byte `off` of the local store of core `k`. -/
def State.localPa (s : State) (k off : Nat) : Nat :=
  if isService k then 2 ^ 64 + localKey k off else s.moduleNo * 2 ^ 44 + localKey k off

/-- Sign extension of the low `w` bits. -/
def sext (w : Nat) (x : Nat) : Word := BitVec.ofInt 64 (let y := x % 2 ^ w; if 2 * y < 2 ^ w then (y : Int) else (y : Int) - (2 : Int) ^ w)

/-! ### Full/empty bits -/

def insertNat (x : Nat) : List Nat → List Nat
  | [] => [x]
  | y :: l => if x < y then x :: y :: l else if x = y then y :: l else y :: insertNat x l
/-- FE(g). -/
def State.fe (s : State) (g : Nat) : Bool := s.full.contains g
/-- FE(g) ← v without its effects. -/
def State.putFE (s : State) (g : Nat) (v : Bool) : State :=
  { s with full := if v then insertNat g s.full else s.full.filter (· != g) }

end Sys2Proof.Machine
end

