-- ==== Sys2Proof/Machine/Mem.lean ====
section
/-! DEFINITION. Physical addresses, error checking, translation (R60 to R67), the canopy (R68 to R72), and the parts of an access. -/
namespace Sys2Proof.Machine

/-! ### The address map (R12, R54) -/

def isDram (pa : Nat) : Bool := pa % 2 ^ 40 < Config.dramSize
/-- The core whose window byte `pa` lies in, and the offset there. -/
def windowOf (pa : Nat) : Option (Nat × Nat) :=
  let off := pa % 2 ^ 40
  let n := (off - Config.windowBase) / Config.windowStep
  if Config.windowBase ≤ off && n < Config.coresPerDie && (off - Config.windowBase) % Config.windowStep < Config.localSize
  then some (pa / 2 ^ 40 % 16 * 16384 + n, (off - Config.windowBase) % Config.windowStep) else none
/-- The index of the first byte of a range inside one 64 KiB page that reaches nothing (R12). -/
def firstUnmapped (pa len : Nat) : Option Nat :=
  if isDram pa then none
  else match windowOf pa with
    | some (_, o) => if o + len ≤ Config.localSize then none else some (Config.localSize - o)
    | none => some 0
/-- Channel of a DRAM byte (R54). -/
def channelOf (pa : Nat) : Nat := (pa / 2 ^ 10 % 64) ^^^ (pa / 2 ^ 16 % 64)
/-- The module of a system physical address (R12). -/
def moduleOf (pa : Nat) : Nat := pa / 2 ^ 44
/-- The endpoint that owns byte `pa` (R258, R334). -/
def ownerOf (pa : Nat) : Endpoint :=
  match windowOf pa with
  | some (n, _) => ⟨0, moduleOf pa, n / 16384, n % 16384⟩
  | none => ⟨1, moduleOf pa, pa / 2 ^ 40 % 16, channelOf pa⟩

/-! ### Reading and writing stored bytes, with error correction (R374) -/

/-- The 8-byte words a range touches. -/
def wordsOf (key n : Nat) : List Nat := (List.range ((key + n + 7) / 8 - key / 8)).map (fun i => key / 8 + i)
/-- The words of a range read: single-bit errors are corrected, counted and kept for their records (R361); false when a word is uncorrectable. -/
def State.check (s : State) (key n : Nat) : State × Bool :=
  let ws := wordsOf key n
  let hit := s.eccOne.filter ws.contains
  let s := if s.eccOne.any ws.contains then
      { s with eccCorr := min (2 ^ 32 - 1) (s.eccCorr + hit.length), corrected := s.corrected ++ hit, eccOne := s.eccOne.filter (fun w => !ws.contains w) }
    else s
  if s.eccBad.any ws.contains then ({ s with eccUnc := min (2 ^ 32 - 1) (s.eccUnc + 1) }, false) else (s, true)
/-- Bytes read at their owner; none when a word is uncorrectable. -/
def State.readMem (s : State) (key n : Nat) : State × Option (List Byte) :=
  match s.check key n with
  | (s1, true) => (s1, some (readBytes s1.mem key n))
  | (s1, false) => (s1, none)
/-- A range is written: a word that is wholly covered loses its error. -/
def State.covered (s : State) (key n : Nat) : State :=
  let whole := fun w => key ≤ 8 * w && 8 * w + 8 ≤ key + n
  { s with eccOne := s.eccOne.filter (fun w => !whole w), eccBad := s.eccBad.filter (fun w => !whole w) }
/-- Bytes written at their owner. -/
def State.writeMem (s : State) (key : Nat) (l : List Byte) : State :=
  { s.covered key l.length with mem := writeBytes s.mem key l }
/-- Where the errors of a core's views and operand memory are listed (log 89): at its register-space offset (R149), and operand slot `i` at 0x40000 + 1,024 × i. -/
def regKey (k off : Nat) : Nat := 2 ^ 48 + k * 2 ^ 20 + off
def accErr (k sub : Nat) : Nat := regKey k (0x2000 + 0x1000 * sub)
def tileErr (k acount off : Nat) : Nat := regKey k (0x2000 + 0x1000 * acount + off)
def slotErr (k i : Nat) : Nat := regKey k (0x40000 + 1024 * i)

/-! ### Translation -/

/-- ReadPhys64; none where the word holds an uncorrectable error (R374, log 77). -/
def State.read64 (s : State) (pa : Nat) : Option Word :=
  if s.eccBad.any (wordsOf (pa % 2 ^ 44) 8).contains then none else some (leWord (readBytes s.mem (pa % 2 ^ 44) 8))

/-- Canopy heap of a die in bytes (R73); 64 MiB until firmware sets it (log 6). -/
def State.heapBytes (s : State) (die : Nat) : Nat := ((s.heap.find die).getD 1) * 2 ^ 26

/-- LeafCheck (R64): whether the leaf is good. The heap test is made for the own module's heaps only (log 93). -/
def State.leafOk (s : State) (e : Word) (shift : Nat) : Bool :=
  let a := e.toNat / 2 ^ 12 * 2 ^ 12
  let off := a % 2 ^ 40
  let z := e.getLsbD 5
  let c := e.getLsbD 4
  let w := e.getLsbD 6
  let inWindows := decide (Config.windowBase ≤ off) && decide (off < Config.windowBase + Config.coresPerDie * Config.windowStep)
  let reaches := decide (off < Config.windowBase + Config.coresPerDie * Config.windowStep) && decide (Config.windowBase < off + 2 ^ shift)
  let heap := s.heapBytes (a / 2 ^ 40 % 16)
  a % 2 ^ shift == 0 && !(c && z) && !(w && (c || z)) && !(w && shift != 16) && !(w && !inWindows) && !(!w && reaches)
    && !(c && moduleOf a != s.moduleNo) && !(c && e.getLsbD 3)
    && !(moduleOf a == s.moduleNo && decide (off < Config.dramSize) && decide (Config.dramSize - heap < off + 2 ^ shift))

/-- Walk (R63) from table `base` over the levels given: the leaf and its page size. -/
def State.walk (s : State) (va : Nat) : List Nat → Nat → Except Cause (Word × Nat)
  | [], _ => .error .translation
  | lvl :: rest, base =>
    if base % 2 ^ 40 ≥ Config.dramSize then .error .translation else
    let shift := 43 - 9 * lvl
    match s.read64 (base + va / 2 ^ shift % 512 * 8) with
    | none => .error .eccUncorr
    | some e =>
    if !e.getLsbD 0 then .error .pageInvalid
    else if bits e 8 3 != 0 then .error .translation
    else if e.getLsbD 11 then
      if lvl == 0 then .error .translation
      else if s.leafOk e shift then .ok (e, shift) else .error .translation
    else if lvl == 3 || bits e 1 7 != 0 || bits e 44 20 != s.moduleNo then .error .translation
    else s.walk va rest (e.toNat / 2 ^ 12 * 2 ^ 12)

/-- The table words that a walk reads. -/
def State.walkReads (s : State) (va : Nat) : List Nat → Nat → List Nat
  | [], _ => []
  | lvl :: rest, base =>
    if base % 2 ^ 40 ≥ Config.dramSize then [] else
    let a := base + va / 2 ^ (43 - 9 * lvl) % 512 * 8
    a % 2 ^ 44 :: match s.read64 a with
      | none => []
      | some e => if !e.getLsbD 0 || e.getLsbD 11 || bits e 44 20 != s.moduleNo then [] else s.walkReads va rest (e.toNat / 2 ^ 12 * 2 ^ 12)

/-- The system physical address of the root table of K.PTBASE (R62). -/
def State.root (s : State) (pt : Word) : Nat := s.moduleNo * 2 ^ 44 + bits pt 44 4 * 2 ^ 40 + bits pt 12 28 * 2 ^ 12

/-- Whether a cached entry answers for `va` in the address space `pt` (R66). -/
def TlbEntry.matches (e : TlbEntry) (die : Nat) (pt : Word) (va : Nat) : Bool :=
  e.die == die && e.guest == guestOf pt && (e.pte.getLsbD 7 || e.asn == bits pt 48 16) && e.va == va / 2 ^ e.shift

/-- Whether a cached entry says something else than a walk's result. -/
def TlbEntry.stale (e : TlbEntry) (w : Except Cause (Word × Nat)) : Bool :=
  match w with
  | .ok (pte, sh) => pte != e.pte || sh != e.shift
  | .error _ => true
/-- The leaf for `va` on a die: a walk's, or that of a cached entry which a walk no longer gives and which is still held (log 4). -/
def State.leaf (s : State) (die : Nat) (pt : Word) (va : Nat) : Except Cause (Word × Nat) :=
  let w := s.walk va [0, 1, 2, 3] (s.root pt)
  match s.tlb.find? (fun e => e.matches die pt va && e.stale w && Config.tlbKeeps s.cycle va) with
  | some e => .ok (e.pte, e.shift)
  | none => w

/-- The translation of `va` installed in the caches of its die; an entry that ended in a fault is never held (R66). Errors in the words that the walk reads are corrected and counted (R374). -/
def State.fill (s0 : State) (die : Nat) (pt : Word) (va : Nat) : State :=
  let s := if s0.eccOne.isEmpty && s0.eccBad.isEmpty then s0 else (s0.walkReads va [0, 1, 2, 3] (s0.root pt)).foldl (fun (s : State) a => (s.readMem a 8).1) s0
  { s with tlb := match s.walk va [0, 1, 2, 3] (s.root pt) with
    | .ok (e, sh) =>
      if s.tlb.any (fun x => x.matches die pt va && x.pte == e && x.shift == sh) then s.tlb
      else ⟨die, guestOf pt, bits pt 48 16, va / 2 ^ sh, sh, e⟩ :: s.tlb
    | .error _ => s.tlb }

/-- The rights an access needs (R65): RD, WR, EX, and whether a Z page is accepted (R97). -/
structure Need where
  rd : Bool
  wr : Bool
  ex : Bool
  z : Bool
deriving DecidableEq, Repr

/-- A translated piece of a range inside one 64 KiB page. -/
structure Seg where
  va : Word
  len : Nat
  pa : Nat
  pte : Word
deriving DecidableEq, Repr

def Seg.isC (x : Seg) : Bool := x.pte.getLsbD 4
def Seg.isZ (x : Seg) : Bool := x.pte.getLsbD 5
def Seg.isW (x : Seg) : Bool := x.pte.getLsbD 6

/-- One page's part of an access: the fault of its lowest faulting byte, or where it lies (R63 to R65, R12). -/
def State.seg (s : State) (die : Nat) (pt : Word) (need : Need) (va : Word) (len : Nat) : Except (Cause × Word) Seg :=
  match s.leaf die pt va.toNat with
  | .error c => .error (c, va)
  | .ok (e, sh) =>
    if (need.rd && !e.getLsbD 1) || (need.wr && !e.getLsbD 2) || (need.ex && !e.getLsbD 3) || (!need.z && e.getLsbD 5) then
      .error (.permission, va)
    else
      let pa := e.toNat / 2 ^ 12 * 2 ^ 12 / 2 ^ sh * 2 ^ sh + va.toNat % 2 ^ sh
      match firstUnmapped pa len with
      | some i => .error (.unmappedPhys, va + BitVec.ofNat 64 i)
      | none => .ok ⟨va, len, pa, e⟩

/-- A translated range, page by page in ascending order; `fuel` bounds the pages. -/
def State.segs (s : State) (die : Nat) (pt : Word) (need : Need) : Nat → Word → Nat → Except (Cause × Word) (List Seg)
  | 0, _, _ => .ok []
  | fuel + 1, va, len =>
    if len == 0 then .ok [] else
    let n := min len (65536 - va.toNat % 65536)
    match s.seg die pt need va n with
    | .error e => .error e
    | .ok x => match s.segs die pt need fuel (va + BitVec.ofNat 64 n) (len - n) with
      | .error e => .error e
      | .ok l => .ok (x :: l)

/-- Whether `va` is a local address of the right form (R11). -/
def isLocal (va : Word) : Bool := va.getLsbD 63 && bits va 17 46 == 0
/-- The address check of R11 over a range: the first byte that raises ADDRESS. -/
def badByte (va : Word) (len : Nat) : Option Word :=
  if isLocal va then
    let o := bits va 0 17
    if o + len ≤ Config.localSize then none
    else if Config.localSize ≤ o then some va else some (va + BitVec.ofNat 64 (Config.localSize - o))
  else if 2 ^ 52 ≤ va.toNat then some va
  else if va.toNat + len ≤ 2 ^ 52 then none else some 0x10000000000000#64

/-! ### Ctags and cells -/

/-- All threads that hold a ctag: in slots and in saved contexts (R68); a slot that waits for a resume counts as its context. -/
def State.ctagHolders (s : State) (t : Nat) : Nat :=
  s.cores.foldl (fun n c => n + (c.2.threads.filter (fun x => x.2.ctag == t && !x.2.resumes)).length) 0
    + (s.saved.filter (fun x => x.2.thread.ctag == t)).length
/-- The record of a ctag. -/
def State.ctagRec (s : State) (t : Nat) : Ctag := if t == 0 then Ctag.root else (s.ctags.find t).getD Ctag.none
/-- Its state: a RETIRED ctag is FREE once its cells are freed and no thread holds it (R68). -/
def State.ctagState (s : State) (t : Nat) : CtState :=
  let r := s.ctagRec t
  if r.state == .retired && r.job.isNone && !s.drops.any (fun d => !d.freed && d.members.contains t) && !s.cells.any (fun c => c.ctag == t) && s.ctagHolders t == 0 then .free else r.state
/-- LIVE, and of guest `g` (the root belongs to every guest) (R68, R70). -/
def State.ctagOk (s : State) (t g : Nat) : Bool :=
  t < 65536 && s.ctagState t == .live && (t == 0 || (s.ctagRec t).guest == g)
def State.setCtag (s : State) (t : Nat) (r : Ctag) : State := { s with ctags := s.ctags.put t r }

def State.cell (s : State) (blk t : Nat) : Option Cell := s.cells.find? (fun c => c.blk == blk && c.ctag == t)
def State.putCell (s : State) (x : Cell) : State :=
  { s with cells := if s.cells.any (fun c => c.blk == x.blk && c.ctag == x.ctag)
      then s.cells.map (fun c => if c.blk == x.blk && c.ctag == x.ctag then x else c) else s.cells ++ [x] }

/-- CanopyView (R71) along at most `fuel` ctags of the chain; `blk` is the home block's key / 64. -/
def State.canopyView (s : State) (blk : Nat) : Nat → Nat → List Byte
  | 0, _ => readBytes s.mem (blk * 64) 64
  | fuel + 1, t =>
    if t == 0 then readBytes s.mem (blk * 64) 64
    else match s.cell blk t with
      | some c => c.data
      | none => s.canopyView blk fuel (s.ctagRec t).parent

/-- HeapFull for the channel of a block: its 1/64 share of the heap in cells of 96 bytes (R73). -/
def State.heapFull (s : State) (blk : Nat) : Bool :=
  let die := blk * 64 / 2 ^ 40
  let ch := channelOf (blk * 64)
  decide (s.heapBytes die / 64 / 96 ≤ (s.cells.filter (fun c => c.blk * 64 / 2 ^ 40 == die && channelOf (c.blk * 64) == ch)).length)

/-- Bytes `i`, `i + 1`, … of a block replaced. -/
def overlay (data : List Byte) (i : Nat) (l : List Byte) : List Byte := data.take i ++ l ++ data.drop (i + l.length)
/-- A mask of `n` bits from bit `i`. -/
def maskBits (i n : Nat) : BitVec 64 := BitVec.ofNat 64 ((2 ^ n - 1) * 2 ^ i)

/-- Whether a block has no cell of `t` nor of a ctag above it, so that its view is the home block (R71). -/
def State.viewsHome (s : State) (blk : Nat) : Nat → Nat → Bool
  | 0, _ => true
  | fuel + 1, t => t == 0 || ((s.cell blk t).isNone && s.viewsHome blk fuel (s.ctagRec t).parent)
/-- A block as seen under `t`: home bytes are read with error checking; none where they hold an uncorrectable error. -/
def State.blockView (s : State) (blk t : Nat) : State × Option (List Byte) :=
  if s.viewsHome blk 8 t then s.readMem (blk * 64) 64 else (s, some (s.canopyView blk 8 t))
/-- CanopyWrite (R71) under a ctag that is not the root, inside one block: it fails when the heap is full, and when the block that a new cell copies cannot be read (R374, log 104). -/
def State.canopyWrite (s : State) (blk t : Nat) (va : Word) (i : Nat) (l : List Byte) : Except Cause State :=
  match s.cell blk t with
  | some c => .ok (s.putCell { c with data := overlay c.data i l, wmask := c.wmask ||| maskBits i l.length })
  | none =>
    if s.heapFull blk then .error .canopyFull
    else match s.blockView blk (s.ctagRec t).parent with
      | (s1, some d) => .ok (s1.putCell ⟨blk, t, va &&& ~~~63#64, overlay d i l, maskBits i l.length, 0⟩)
      | (_, none) => .error .eccUncorr

/-! ### Parts of an access -/

/-- A range cut at multiples of `unit`; `fuel` bounds the parts. -/
def cutRange (unit : Nat) : Nat → Nat → Nat → List (Nat × Nat)
  | 0, _, _ => []
  | fuel + 1, a, len =>
    if len == 0 then [] else
    let n := min len (unit - a % unit)
    (a, n) :: cutRange unit fuel (a + n) (len - n)

/-- The parts of a translated segment: `unit`-aligned parts. -/
def Seg.parts (x : Seg) (unit ctag : Nat) : List Piece :=
  (cutRange unit (x.len + 1) x.pa x.len).map (fun p =>
    ⟨p.1, p.2, x.va + BitVec.ofNat 64 (p.1 - x.pa), if x.isC then ctag else 0⟩)

/-- Two parts of one owner that follow each other are one part. -/
def mergeParts (l : List Piece) : List Piece :=
  l.foldr (fun p r => match r with
    | [] => [p]
    | q :: t => if p.pa + p.size == q.pa && p.ctag == q.ctag && ownerOf p.pa == ownerOf q.pa then { p with size := p.size + q.size } :: t else p :: r) []

/-- The parts of an access: the ranges of one owner each (R334), which performs each of them in the events of `eventUnit`. -/
def accessParts (ctag : Nat) (l : List Seg) : List Piece := mergeParts ((l.map (fun x => x.parts (if x.isW then 65536 else 1024) ctag)).flatten)

/-- The checks of an access by a thread of core `k` (R125, R351): ADDRESS on every byte, translation and rights, the ctag on a C page. The parts in order. -/
def State.access (s : State) (k : Nat) (pt : Word) (ctag : Nat) (need : Need) (va : Word) (n : Nat) : Except (Cause × Word) (List Piece) :=
  match badByte va n with
  | some b => .error (.address, b)
  | none =>
    if isLocal va then .ok [⟨s.localPa k (bits va 0 17), n, va, 0⟩]
    else match s.segs (dieOf k) pt need (n / 65536 + 2) va n with
      | .error e => .error e
      | .ok l =>
        if l.any Seg.isC && !s.ctagOk ctag (guestOf pt) then .error (.ctagInvalid, BitVec.ofNat 64 ctag)
        else .ok (accessParts ctag l)

/-- Whether a part is reached by a local address. -/
def Piece.isOwn (p : Piece) : Bool := isLocal p.va
/-- The memory key of a part. -/
def Piece.key (p : Piece) : Nat := if p.pa ≥ 2 ^ 64 then p.pa - 2 ^ 64 else p.pa % 2 ^ 44

/-- Ranges inside one block each, as seen under `t`: home bytes are read with error checking. -/
def State.readView (t : Nat) : List (Nat × Nat) → State → State × Option (List Byte)
  | [], s => (s, some [])
  | (a, n) :: rest, s =>
    let r := if s.viewsHome (a / 64) 8 t then s.readMem a n else (s, some (((s.canopyView (a / 64) 8 t).drop (a % 64)).take n))
    match r with
    | (s1, none) => (s1, none)
    | (s1, some l) => match State.readView t rest s1 with
      | (s2, some m) => (s2, some (l ++ m))
      | r => r
/-- The bytes a part reads at its owner; none when they hold an uncorrectable error. -/
def State.readPiece (s : State) (p : Piece) : State × Option (List Byte) :=
  if p.ctag == 0 then s.readMem p.key p.size
  else State.readView p.ctag (cutRange 64 (p.size + 1) p.key p.size) s

/-- The size of the events of a part of `len` bytes of an access of `n` bytes at address `va` (R122, R123):
the whole access where it is aligned, its halves for 16 bytes in DRAM, single bytes where it is misaligned. -/
def eventUnit (store : Bool) (va : Word) (n len : Nat) : Nat :=
  if va.toNat % n == 0 && len == n then (if n == 16 && !store then 8 else n) else 1

/-- The parts of a range that lie in one 64-byte block each, with their bytes. -/
def blocksOf (key : Nat) (l : List Byte) : List (Nat × Nat × List Byte) :=
  (cutRange 64 (l.length + 1) key l.length).map (fun p => (p.1 / 64, p.1 % 64, (l.drop (p.1 - key)).take p.2))

/-- A part written at its owner, or the cause for which nothing of it is written (R72). -/
def State.writePiece (s : State) (p : Piece) (l : List Byte) : Except Cause State :=
  let key := p.key
  if p.ctag == 0 then .ok (s.writeMem key l)
  else (blocksOf key l).foldl (fun o b => o.bind (fun s => s.canopyWrite b.1 p.ctag (p.va + BitVec.ofNat 64 (b.1 * 64 - key)) b.2.1 b.2.2)) (.ok s)

/-- Parts written now, in order, or nothing of them: the cause, and the address, that of the first byte of the part that found no room (R72, log 80). -/
def State.writeAll (s : State) : List (Piece × List Byte) → Except (Cause × Word) State
  | [] => .ok s
  | (p, l) :: r => match s.writePiece p l with
    | .ok s1 => s1.writeAll r
    | .error c => .error (c, p.va)
/-- The blocks of a part that lies in a canopy page under a ctag, each with the place and the number of its bytes there. -/
def Piece.blocks (p : Piece) : List (Nat × Nat × Nat) :=
  if p.ctag == 0 then [] else (cutRange 64 (p.size + 1) p.key p.size).map (fun b => (b.1 / 64, b.1 % 64, b.2))
/-- The blocks that a store would copy are read, and their errors corrected and counted (R374). -/
def State.readBlocks (s : State) (p : Piece) : State :=
  p.blocks.foldl (fun s b => if (s.cell b.1 p.ctag).isNone then (s.blockView b.1 (s.ctagRec p.ctag).parent).1 else s) s
/-- Room in the canopy heap for the parts of a store (R72): the cells that they need, with nothing written; or the cause and the first byte of the part that finds none (log 80). -/
def State.reserve (s : State) : List Piece → Except (Cause × Word) State
  | [] => .ok s
  | p :: r =>
    match p.blocks.foldl (fun (o : Except Cause State) b =>
      o.bind (fun s => s.canopyWrite b.1 p.ctag (p.va + BitVec.ofNat 64 (b.1 * 64 - p.key)) b.2.1 [])) (.ok s) with
    | .ok s1 => s1.reserve r
    | .error c => .error (c, p.va)
/-- Each part with its bytes. -/
def cutData (ps : List Piece) (l : List Byte) : List (Piece × List Byte) :=
  match ps with
  | [] => []
  | p :: r => (p, l.take p.size) :: cutData r (l.drop p.size)

end Sys2Proof.Machine
end

