-- ==== Sys2Proof/Machine/Ops.lean ====
section
/-! DEFINITION. Records and rings (R357 to R361), dropping ctags (R76), a thread leaving its slot (R304), kills (R357), taking a trap (R353) and returning from it (R355). -/
namespace Sys2Proof

/-- The code of a cause (R350). -/
def Cause.code : Cause → Nat
  | .illegal => 0x001 | .privilege => 0x002 | .stallCheck => 0x003 | .trap => 0x004 | .doubleFault => 0x005
  | .address => 0x010 | .align => 0x011 | .unmappedPhys => 0x012 | .pageInvalid => 0x013 | .translation => 0x014
  | .permission => 0x015 | .ctagInvalid => 0x020 | .ctagDepth => 0x021 | .ctagBusy => 0x022 | .tagExhausted => 0x023
  | .canopyFull => 0x024 | .commitConflict => 0x025 | .ctagKilled => 0x026 | .copyArg => 0x030 | .checkFail => 0x031
  | .staleCompletion => 0x032 | .dirArg => 0x033 | .distArg => 0x034 | .view => 0x035 | .syncTimeout => 0x040
  | .fpException => 0x050 | .format => 0x051 | .noLanes => 0x052 | .laneArg => 0x053 | .runOverflow => 0x054
  | .length => 0x055 | .matrixArg => 0x060 | .scaleAxis => 0x061 | .accHolder => 0x062 | .capRefused => 0x063
  | .kbOrder => 0x064 | .remoteUnknown => 0x070 | .remoteArg => 0x071 | .collArg => 0x072 | .collMismatch => 0x073
  | .collTimeout => 0x074 | .fenced => 0x075 | .multiplicity => 0x080 | .spawnLimit => 0x081 | .taskArg => 0x082
  | .meetState => 0x083 | .meetArg => 0x084 | .countOvf => 0x085 | .budget => 0x086 | .hang => 0x087
  | .predUnderflow => 0x088 | .eccUncorr => 0x090 | .residue => 0x091 | .serviceKill => 0x092 | .partitionReset => 0x093
  | .thermalTrip => 0x094 | .eccCorrected => 0x095

/-- Whether the VALUE of a cause is an address where its record does not say otherwise (R350, R361). -/
def Cause.isAddress : Cause → Bool
  | .address | .align | .unmappedPhys | .pageInvalid | .translation | .permission | .canopyFull | .commitConflict
  | .checkFail | .stallCheck | .view | .predUnderflow | .eccUncorr | .eccCorrected => true
  | _ => false
/-- The address of the word a trap's record names (R360): K.TPC, but of TRAP and of a meet whose count overflows the word before it. -/
def Cause.wordAt (code : Cause) (pc : Word) : Word := match code with | .trap | .countOvf => pc - 4 | _ => pc

/-- Every cause. -/
def causes : List Cause :=
  [.illegal, .privilege, .stallCheck, .trap, .doubleFault, .address, .align, .unmappedPhys, .pageInvalid, .translation, .permission, .ctagInvalid, .ctagDepth,
   .ctagBusy, .tagExhausted, .canopyFull, .commitConflict, .ctagKilled, .copyArg, .checkFail, .staleCompletion, .dirArg, .distArg, .view, .syncTimeout, .fpException,
   .format, .noLanes, .laneArg, .runOverflow, .length, .matrixArg, .scaleAxis, .accHolder, .capRefused, .kbOrder, .remoteUnknown, .remoteArg, .collArg, .collMismatch,
   .collTimeout, .fenced, .multiplicity, .spawnLimit, .taskArg, .meetState, .meetArg, .countOvf, .budget, .hang, .predUnderflow, .eccUncorr, .residue, .serviceKill,
   .partitionReset, .thermalTrip, .eccCorrected]
/-- The cause of a code. -/
def Cause.ofCode (n : Nat) : Option Cause := causes.find? (fun c => c.code == n)

end Sys2Proof

namespace Sys2Proof.Machine

/-! ### Records -/

/-- A record (R360): `hi` is bits 63:32 of word 3. -/
def recordBytes (tid : Word) (orphan kill : Bool) (code : Nat) (pc : Word) (val : Word) (hi time : Nat) : List Byte :=
  leBytes 8 tid.toNat
    ++ leBytes 8 ((if orphan then 2 ^ 63 else 0) + (if kill then 2 ^ 62 else 0) + code * 2 ^ 50 + bits pc 2 50)
    ++ leBytes 8 val.toNat ++ leBytes 8 (hi * 2 ^ 32 + time % 2 ^ 32)

/-- An append to a ring (R359); `key` finds the 32 bytes at an address, none where they cannot be written. False: the record takes the next path, as it does where the header cannot be read. -/
def State.ringPush (s : State) (key : Nat → Option Nat) (ref : Word) (x : List Byte) : State × Bool :=
  let n := 2 ^ (bits ref 60 4 + 4)
  let base := bits ref 5 47 * 32
  if ref == 0 || bits ref 52 8 != 0 then (s, false) else
  match key base with
  | none => (s, false)
  | some h => match s.readMem h 32 with
    | (s, none) => (s, false)
    | (s, some l) =>
      let wr := field l 0 8
      if (wr + 2 ^ 64 - field l 8 8) % 2 ^ 64 == n then (s.writeMem (h + 24) (leBytes 8 (field l 24 8 + 1)), false)
      else match key (base + 32 + 32 * (wr % n)) with
        | none => (s, false)
        | some r => (((s.writeMem r x).writeMem h (leBytes 8 (wr + 1))).writeMem (h + 16) (leBytes 8 s.us), true)

/-- Where 32 bytes at a translated address of a ring lie: a writable page without C or Z, in this module (R358). -/
def State.ringKey (s : State) (die : Nat) (pt : Word) (a : Nat) : Option Nat :=
  match s.seg die pt ⟨false, true, false, false⟩ (BitVec.ofNat 64 a) 32 with
  | .ok x => if x.isC || moduleOf x.pa != s.moduleNo then none else some (x.pa % 2 ^ 44)
  | .error _ => none
/-- Whether the header of a ring lies in another module, on a page where a ring may lie: whether that ring takes a record is a free value (log 15). -/
def State.ringAway (s : State) (die : Nat) (pt ref : Word) : Bool :=
  ref != 0 && bits ref 52 8 == 0 && match s.seg die pt ⟨false, true, false, false⟩ (BitVec.ofNat 64 (bits ref 5 47 * 32)) 32 with
  | .ok x => !x.isC && moduleOf x.pa != s.moduleNo
  | .error _ => false
/-- A record for a sink or an error queue: whether it was taken. -/
def State.sinkPush (s : State) (die : Nat) (pt ref : Word) (x : List Byte) : State × Bool :=
  if s.ringAway die pt ref then (s.useFree, s.free.getLsbD 0) else s.ringPush (s.ringKey die pt) ref x

/-- VALUE and VIRT of a physical-log record (R361); `addr`: VALUE is an address. -/
def State.physValue (s : State) (k : Nat) (pt : Word) (addr : Bool) (val : Word) : Word × Bool :=
  if !addr then (val, false)
  else if isLocal val && bits val 0 17 < Config.localSize then (BitVec.ofNat 64 (s.localPa k (bits val 0 17)), false)
  else if (badByte val 1).isSome then (val, true)
  else match s.leaf (dieOf k) pt val.toNat with
    | .ok (e, sh) => (BitVec.ofNat 64 (e.toNat / 2 ^ 12 * 2 ^ 12 / 2 ^ sh * 2 ^ sh + val.toNat % 2 ^ sh), false)
    | .error _ => (val, true)

/-- A record of the physical log (R361); where events are pushed, the host interface of that port sends it as a HEVENT (R399, R402). -/
def State.physLog (s : State) (tid : Word) (orphan kill : Bool) (code : Cause) (pc val : Word) (guest : Nat) (virt : Bool) (cnt : Nat) : State :=
  let r := recordBytes tid orphan kill code.code pc val (guest * 2 ^ 24 + (if virt then 2 ^ 23 else 0) + min cnt (2 ^ 23 - 1)) s.us
  let s1 := (s.ringPush (fun a => if bits s.plog 44 8 == 0 then some a else none) s.plog r).1
  { s1 with hevents := s1.hevents ++ ([0, 1].filter (fun p => s.eventPush.getD p false)).map (fun p => (p, r)) }

/-- A report about a task (R270, R357): to its fault sink, else to the error queue of its queue, and to the physical log. -/
def State.report (s : State) (e : Env) (orphan kill : Bool) (code : Cause) (pc val : Word) (addr : Bool := code.isAddress) : State :=
  if e.module != s.moduleNo then s else
  let r := recordBytes e.tid orphan kill code.code pc val (min e.cnt (2 ^ 32 - 1)) s.us
  let s1 := match s.sinkPush (dieOf e.core) e.qpt e.sink r with
    | (s1, true) => s1
    | (s1, false) => (s1.sinkPush (dieOf e.core) e.qpt e.errq r).1
  let v := s1.physValue e.core e.ptbase addr val
  s1.physLog e.tid orphan kill code pc v.1 (guestOf e.ptbase) v.2 e.cnt

/-- What an engine command carries of its thread (R89). -/
def State.env (s : State) (t : Thread) (k : Nat) (serial : BitVec 32) : Env :=
  ⟨s.moduleNo, k, t.tid, t.cnt, t.stream, serial, t.ctag, t.ptbase, t.sink, t.errq, t.qpt⟩

/-! ### Streams (R261) -/

/-- The stream numbers in use: of threads in slots, saved, or gone with work outstanding. -/
def State.streamsUsed (s : State) : List (BitVec 32) :=
  (s.cores.map (fun c => c.2.threads.map (fun x => x.2.stream))).flatten ++ s.saved.map (fun x => x.2.thread.stream)
    ++ s.retired.map (fun x => x.2.stream)
/-- A stream released less than 8 ms ago is not assigned, nor one of the channels', distributors' or host interfaces' (R317, log 81). -/
def State.streamBusy (s : State) (x : BitVec 32) : Bool :=
  s.streamsUsed.contains x || decide ((x - Config.chanStreams).toNat < 1042) || s.streams.any (fun p => p.1 == x && s.cycle < p.2 + 8000 * Config.usCycles)
def State.findStream (s : State) : Nat → BitVec 32 → BitVec 32
  | 0, x => x
  | fuel + 1, x => if s.streamBusy x then s.findStream fuel (x + 1) else x
/-- A number of the allocator: the search begins at a free value (log 3). -/
def State.takeStream (s : State) : BitVec 32 × State :=
  (s.findStream (s.streamsUsed.length + s.streams.length + 1042) (Config.freshStream s.freeCtr), s.useFree)
def State.giveStream (s : State) (x : BitVec 32) : State := { s with streams := (x, s.cycle) :: s.streams }

/-! ### Queue blocks -/

def State.dist (s : State) (die : Nat) : Dist := (s.dists.find die).getD Dist.reset
def State.queue (s : State) (die q : Nat) : Option Queue := (s.dist die).queues.find q
def State.setQueue (s : State) (die q : Nat) (x : Queue) : State :=
  { s with dists := s.dists.put die { s.dist die with queues := (s.dist die).queues.put q x } }
def State.block (s : State) (die q n : Nat) : Option Block :=
  match s.queue die q with
  | some x => if x.base ≤ n then x.blocks[n - x.base]? else none
  | none => none
def State.setBlock (s : State) (die q n : Nat) (b : Block) : State :=
  match s.queue die q with
  | some x => if x.base ≤ n then s.setQueue die q { x with blocks := x.blocks.set (n - x.base) b } else s
  | none => s

/-- STATUS written to the block and to its ring entry, in the address space of its append (R314, R316). A place that cannot be written keeps its bytes. -/
def State.writeStatus (s : State) (die q n : Nat) (b : Block) (st : Nat) : State :=
  let need : Need := ⟨false, true, false, false⟩
  let put := fun (s : State) (pt : Word) (a : Nat) =>
    match s.seg die pt need (BitVec.ofNat 64 a) 1 with
    | .ok x => if moduleOf x.pa == s.moduleNo then s.writeMem (x.pa % 2 ^ 44) [BitVec.ofNat 8 st] else s
    | .error _ => s
  let s1 := put s b.ptbase (b.addr.toNat + 63)
  match s1.queue die q with
  | some x => put s1 b.ptbase (x.ring.toNat + 16 * (n % x.ringN) + 12)
  | none => s1
/-- A block's status changed, in the distributor and in memory. -/
def State.blockStatus (s : State) (die q n st : Nat) : State :=
  match s.block die q n with
  | some b => (s.setBlock die q n { b with status := st }).writeStatus die q n b st
  | none => s

/-! ### Ctags dropped (R76) -/

/-- Whether `t` is `a` or lies below it; `fuel` bounds the chain. -/
def State.under (s : State) (a : Nat) : Nat → Nat → Bool
  | 0, t => t == a
  | fuel + 1, t => t == a || (t != 0 && s.under a fuel (s.ctagRec t).parent)

/-- The set D of a drop of `t`: `t` and every descendant that is LIVE or COMMITTING (R76). -/
def State.dropSet (s : State) (t : Nat) : List Nat :=
  (s.ctags.filter (fun x => s.under t 8 x.1 && (x.2.state == .live || x.2.state == .committing))).map Prod.fst

/-- The queues whose PCTAG is in `l` note that it has stopped being LIVE (R312). -/
def State.latch (s : State) (l : List Nat) : State :=
  let f := fun (x : Queue) => if l.contains x.pctag then { x with dead := true } else x
  { s with dists := s.dists.map (fun (d : Nat × Dist) => (d.1, { d.2 with
    queues := d.2.queues.map (fun (x : Nat × Queue) => (x.1, f x.2)), held := d.2.held.map (fun h => { h with queue := f h.queue }) })) }

/-- The ctags in `l` are RETIRED: a thread, a block or a queue that has one of them as its private or interval ctag no longer has it, whoever gets the number next (R68, R327). -/
def State.forget (s : State) (l : List Nat) : State :=
  let own := fun (t : Thread) => { t with ownCtag := t.ownCtag.filter (fun x => !l.contains x) }
  let hit := fun (o : Option Nat) => match o with | some x => l.contains x | none => false
  let que := fun (x : Queue) => { x with gone := x.gone || hit x.interval, blocks := x.blocks.map (fun b => { b with gone := b.gone || hit b.ctag }) }
  { s with
    cores := s.cores.map (fun (c : Nat × Core) => (c.1, { c.2 with threads := c.2.threads.map (fun (x : Nat × Thread) => (x.1, own x.2)) }))
    saved := s.saved.map (fun (x : Nat × Saved) => (x.1, { x.2 with thread := own x.2.thread }))
    dists := s.dists.map (fun (d : Nat × Dist) => (d.1, { d.2 with queues := d.2.queues.map (fun (x : Nat × Queue) => (x.1, que x.2)) })) }

/-- A kill made pending: it is taken at the next boundary between words, at once when the thread issues none (R76, R354). -/
def Thread.setKill (t : Thread) (c : Cause) (v : Word) (now : Nat) : Thread := { t with kill := some (t.kill.getD (c, v, now)) }

/-- When a commit or drop accepted now takes effect: after every one accepted before it (R75, R78). -/
def State.canopyTime (s : State) : Nat :=
  s.agenda.foldl (fun n e => match e.2 with
    | .canopyCommit _ => max n e.1
    | .canopyDrop _ => max n e.1
    | _ => n) (s.cycle + s.delay)

/-! ### Messages on their way (R257) -/

/-- The request a message event carries. -/
def messageOf : Instr → Option Request
  | .reqRead m | .reqWrite m | .reqLds m | .reqLdsc m | .reqSts m | .reqFebit m | .reqFetest m | .reqWaitf m | .reqAtomic m
  | .reqSpawn m | .reqGlaunch m | .reqSuccdec m | .reqReady m | .reqMma m | .reqMred m | .reqCollc m | .reqCanopy m
  | .reqXducer m | .reqCancel m => some m
  | _ => none
/-- The step that receives a request. -/
def reqEvent (q : Request) : Instr :=
  match q.typ with
  | .read => .reqRead q | .write => .reqWrite q | .lds => .reqLds q | .ldsc => .reqLdsc q | .sts => .reqSts q
  | .febit => .reqFebit q | .fetest => .reqFetest q | .waitf => .reqWaitf q | .atomic => .reqAtomic q
  | .spawn => if q.dst.kind == 3 then .reqGlaunch q else .reqSpawn q
  | .succdec => .reqSuccdec q | .mma => .reqMma q | .mred => .reqMred q | .collc => .reqCollc q
  | .canopy => .reqCanopy q | .xducer => .reqXducer q | .cancel => .reqCancel q | .ready => .reqReady q
  | _ => .reqRead q
/-- When a message sent now reaches its destination: after the next delay, not before an earlier message of its source to its destination. -/
def State.arrival (s : State) (q : Request) : Nat :=
  s.agenda.foldl (fun n e => match messageOf e.2 with
    | some m => if m.src == q.src && m.dst == q.dst then max n e.1 else n
    | none => n) (s.cycle + s.delay)
/-- A request put on its way: out of the module, or to its owner here. -/
def State.resend (s : State) (q : Request) : State :=
  if q.dst.module != s.moduleNo then { s with outbox := s.outbox ++ [reqEvent q] } else s.popDelay.at (s.arrival q) (reqEvent q)

/-! ### Words that wait at an owner (R132, R80) -/

/-- Whether a holding word's request is one that waits at its owner until it succeeds, so that a cancel takes it back: a synchronising word (R132, R269), or an allocation (R80). -/
def Hold.cancels (h : Hold) (q : Request) : Bool :=
  [ReqType.lds, ReqType.ldsc, ReqType.sts, ReqType.waitf].contains q.typ || (match h.kind with | .ctalloc _ _ => true | _ => false)
/-- The request of a holding word. -/
def Thread.heldReq (t : Thread) : Option (Hold × PendReq) :=
  match t.status with
  | .holding h => (t.reqs.find? (fun p => p.req.tag == h.tag)).map (fun p => (h, p))
  | _ => none
/-- Whether a word that holds counts as parked, since its owner has answered that it waits (R76, R80, R132; log 103). -/
def Thread.parkedAway (t : Thread) : Bool := match t.heldReq with | some (h, p) => h.cancels p.req && p.waits | none => false
/-- A killed thread gives up its wait at an owner: the entry is freed by a cancel (R148, R132). -/
def State.cancelKilled (s : State) (t : Thread) : State :=
  match t.heldReq with
  | some (h, p) => if h.cancels p.req then s.resend { p.req with typ := .cancel } else s
  | none => s

/-! ### Leaving a slot (R304) -/

/-- Slots of an operand of a format (R223). -/
def slotsOf (fmt : Nat) : Nat := match fmt with | 1 => 4 | 2 => 2 | _ => 1
/-- MMA's command word and its fields (R243). -/
def MCmd.word (m : MCmd) : Word := (m.regs.drop 2).headD 0
def MCmd.rows (m : MCmd) : Nat := bits m.word 15 5
def MCmd.cols (m : MCmd) : Nat := bits m.word 10 5
def MCmd.depth (m : MCmd) : Nat := bits m.word 4 6
def MCmd.afmt (m : MCmd) : Nat := bits m.word 29 5
def MCmd.bfmt (m : MCmd) : Nat := bits m.word 24 5
/-- The slots of its operands. -/
def MCmd.slotsA (m : MCmd) : List Nat := (List.range (slotsOf m.afmt)).map (fun i => bits m.word 60 4 + i)
def MCmd.slotsB (m : MCmd) : List Nat := (List.range (slotsOf m.bfmt)).map (fun i => bits m.word 56 4 + i)
/-- The slots a command names (R228): none where M, N or K is 0. -/
def MCmd.slots (m : MCmd) : List Nat := if m.mred || m.rows == 0 || m.cols == 0 || m.depth == 0 then [] else m.slotsA ++ m.slotsB
/-- Whether an accepted command names operand slot `i` (R225, R227). -/
def Core.slotNamed (c : Core) (i : Nat) : Bool := c.mq.any (fun m => m.slots.contains i)
/-- The slots of a thread that leaves: freed at once, or when no accepted command names them (owner 16). -/
def Core.freeOps (c : Core) (sl : Nat) : Core :=
  { c with ops := c.ops.zipIdx.map (fun p => if p.1.owner == some sl then
      (if c.slotNamed p.2 then { p.1 with owner := some 16 } else OpSlot.reset) else p.1) }
/-- A drop accepted: every member of D is RETIRED at once, and the holders of its KILL members are to be killed. The cells go at the event canopyDrop. -/
def State.acceptDrop (s : State) (t : Nat) (o : Option (Word × Env)) : State :=
  let d := s.dropSet t
  let kills := d.filter (fun x => (s.ctagRec x).kill)
  let hit := fun (th : Thread) => if kills.contains th.ctag then th.setKill .ctagKilled (BitVec.ofNat 64 th.ctag) s.cycle else th
  let s1 : State := { s with
    ctags := s.ctags.map (fun (x : Nat × Ctag) => if d.contains x.1 then (x.1, { x.2 with state := .retired }) else x)
    drops := s.drops ++ [Drop.mk t d o false]
    cores := s.cores.map (fun (c : Nat × Core) => (c.1, { c.2 with threads := c.2.threads.map (fun (x : Nat × Thread) => (x.1, hit x.2)) }))
    saved := s.saved.map (fun (x : Nat × Saved) => (x.1, { x.2 with thread := hit x.2.thread })) }
  ((s1.latch d).forget d).popDelay.at s.canopyTime (.canopyDrop t)

/-- Unknown-outcome entries that nothing reported before the task ended (R270). -/
def State.reportUnk (s : State) (e : Env) (l : List UnkEntry) : State :=
  l.foldl (fun s u => if u.reported then s
    else s.report e true false (u.cause.getD .remoteUnknown) 0 (u.serial.setWidth 64) false) s

/-- A saved thread is killed (R76): its record, its block, its stream; its requests and engine commands run on. -/
def State.killSaved (s : State) (frame : Nat) (x : Saved) (code : Cause) (val : Word) : State :=
  let t := x.thread
  let s1 := { s with
    saved := s.saved.del frame, swapUsed := s.swapUsed.filter (· != frame)
    cores := s.cores.map (fun (c : Nat × Core) => (c.1, { (c.2.freeOps (frame + 32)) with
      swaps := c.2.swaps.filter (fun w => w.frame != frame), threads := c.2.threads.filter (fun y => !(y.2.resumes && y.2.stream == t.stream)) })) }
  let s2 := (s1.report (s.env t x.origin 0) false true code t.pc val).reportUnk (s.env t x.origin 0) t.unk
  let s3 := match t.queue, t.blk with
    | some (die, q), some n => s2.blockStatus die q n 5
    | _, _ => s2
  let s4 := match t.ownCtag with
    | some c => if s3.ctagState c == CtState.live || s3.ctagState c == CtState.committing then s3.acceptDrop c none else s3
    | none => s3
  if t.reqs.isEmpty && t.engs.isEmpty then s4.giveStream t.stream
  else { s4 with retired := (x.origin, { t with unk := [], pend := [] }) :: s4.retired }

/-! ### Arrivals on their way -/

/-- The source, destination and class C1 of a message that answers or arrives (R257). -/
def answerRoute : Instr → Option (Endpoint × Endpoint)
  | .ansDone a | .ansWaiting a | .ansRetry a | .ansBusy a | .ansStale a | .ansUnknownOutcome a | .ansCancelled a | .ansError _ a => some (a.req.dst, a.req.src)
  | .completionArrival x => some (x.src, ⟨if isService x.core then 2 else 0, x.module, dieOf x.core, indexOf x.core⟩)
  | _ => none
/-- When an answer or an arrival sent now is delivered (R257): after the next delay, not before an earlier one of its source to its destination. -/
def State.answerTime (s : State) (src dst : Endpoint) : Nat :=
  s.agenda.foldl (fun n e => if answerRoute e.2 == some (src, dst) then max n e.1 else n) (s.cycle + s.delay)
/-- An arrival sent to its object and to the module of its thread (R94, R261): after the next delay here, out of the module elsewhere. -/
def State.sendArrival (s : State) (x : Arrival) : State :=
  let s1 := if (x.module != s.moduleNo) || (x.home != s.moduleNo) then { s with outbox := s.outbox ++ [.completionArrival x] } else s
  if x.module == s.moduleNo || x.home == s.moduleNo then s1.popDelay.at (s.answerTime x.src ⟨if isService x.core then 2 else 0, x.module, dieOf x.core, indexOf x.core⟩) (.completionArrival x) else s1
/-- An arrival of a command with nothing but its outcome, from the unit `src` to an object of the issuing module. -/
def plainArrival (src : Endpoint) (e : Env) (core : Nat) (ref : Word) (fail : Option (Cause × Word)) : Arrival :=
  ⟨src, e.module, core, ref, fail, (fail.map Prod.snd).getD 0, 0, false, none, e.module, e.stream, e.serial, none⟩

/-- The arrival of a matrix command, sent by `src` (R243, R244): CT says whether the store of its target, core `k` of a module, holds its object; FADDR is 0. -/
def State.matrixArrivalBy (s : State) (src : Endpoint) (module k : Nat) (m : MCmd) (fail : Option (Cause × Word)) (illop : Bool) : State :=
  let ref := (m.regs.drop 3).headD 0
  s.sendArrival { plainArrival src m.env (if ref.getLsbD 31 then k else m.env.core) ref (fail.map (fun e => (e.1, 0)))
    with module := if ref.getLsbD 31 then module else m.env.module, val := (fail.map Prod.snd).getD 0, illop := illop }
/-- The arrival that the unit of core `k` makes. -/
def State.matrixArrival (s : State) (k : Nat) (m : MCmd) (fail : Option (Cause × Word)) (illop : Bool) : State :=
  s.matrixArrivalBy (s.endpoint k) s.moduleNo k m fail illop

/-- The holding of the accumulator view ends: capability 0, and the contributions in the reduction buffer fail (R226). -/
def State.clearHolder (s : State) (k : Nat) : State :=
  let c := s.core k
  c.redbuf.foldl (fun s m => s.matrixArrival k m (some (.capRefused, 0)) false)
    (s.setCore k { c with holder := none, cap := 0, caps := if c.cap == 0 then c.caps else (c.cap :: c.caps).take 65536, redbuf := [] })
/-- A slot removed from the meet table; an entry left with no waiter becomes free (R299). -/
def Core.leaveMeet (c : Core) (sl : Nat) : Core :=
  { c with meet := (c.meet.map (fun x => (x.1, { x.2 with waiters := x.2.waiters.filter (· != sl) }))).filter (fun x => !x.2.waiters.isEmpty) }

/-- A save that does not come to its end: its swap-list entry and its frame are free again (R354). -/
def State.dropSave (s : State) (k : Nat) (t : Thread) : State :=
  match t.saving with
  | none => s
  | some (f, _, _) => ({ s with swapUsed := s.swapUsed.filter (· != f) } : State).mapCore k (fun c => { c with swaps := c.swaps.filter (fun w => w.frame != f) })
/-- A thread leaves slot `sl` of core `k`: lanes, operand slots, holding, stream and slot are given up; requests and engine commands run on (R304, R261). -/
def State.leaveSlot (s : State) (k sl : Nat) : State :=
  match s.thread k sl with
  | none => s
  | some t =>
    let s0 := if (s.core k).holder == some sl then s.clearHolder k else s
    let s1 := (s0.dropSave k t).mapCore k (fun c => let c := (c.freeOps sl).leaveMeet sl; { c with threads := c.threads.del sl })
    let s2 := s1.reportUnk (s.env t k 0) t.unk
    if t.reqs.isEmpty && t.engs.isEmpty then s2.giveStream t.stream
    else { s2 with retired := (k, { t with unk := [], pend := [] }) :: s2.retired }

/-- A kill (R357): one record, and the thread leaves; its block is KILLED and its private ctag dropped (R327). -/
def State.killThread (s : State) (k sl : Nat) (code : Cause) (val pc : Word) (addr : Bool := code.isAddress) : State :=
  match s.thread k sl with
  | none => s
  | some t => match t.status with
    | .resuming _ => match s.saved.find? (fun x => x.2.thread.stream == t.stream) with
      | some x => s.killSaved x.1 x.2 code val
      | none => s.dropThread k sl
    | _ =>
    let s1 := ((s.report (s.env t k 0) false true code pc val addr).cancelKilled t).leaveSlot k sl
    let s2 := match t.queue, t.blk with
      | some (die, q), some n => s1.blockStatus die q n 5
      | _, _ => s1
    match t.ownCtag with
    | some c => if s2.ctagState c == .live || s2.ctagState c == .committing then s2.acceptDrop c none else s2
    | none => s2

/-! ### Landing, traps, return (R25, R353, R355) -/

/-- K.FPCSR's sticky flags ORed with raised flags, in the order of R160. -/
def Thread.orFlags (t : Thread) (fl : Nat) : Thread := { t with fpcsr := t.fpcsr ||| BitVec.ofNat 15 (fl % 32 * 8) }
/-- One pending result lands: its value unless it was discarded, and its flags (R25). -/
def Thread.land1 (t : Thread) (p : Pend) : Thread :=
  ({ t with g := if p.reg = 0#6 then t.g else t.g.set p.reg.toNat p.value p.reg.isLt }).orFlags p.flags.toNat
/-- Every pending result due by cycle `now` lands. -/
def Thread.landDue (t : Thread) (now : Nat) : Thread :=
  let r := (t.pend.filter (fun p => p.land ≤ now)).foldl Thread.land1 t
  { r with pend := t.pend.filter (fun p => now < p.land) }
/-- Every pending result lands (R27). -/
def Thread.landAll (t : Thread) : Thread := { t.pend.foldl Thread.land1 t with pend := [] }

/-- The trap state a trap leaves (R352, R353). -/
def Thread.enterTrap (t : Thread) (code : Cause) (val pc : Word) (async : Bool) (elig : Nat) : Thread :=
  { t with
    tcause := BitVec.ofNat 64 (t.pfx.toNat * 2 ^ 36 + t.gsel.toNat * 2 ^ 14 + (if async then 2 ^ 13 else 0) + 2 ^ 12 + code.code)
    tpc := pc, tval := val, pfx := 0, gsel := 0x200, pc := t.tvec
    status := .ready, elig := elig, live := false, safePoint := none, waitStart := none }

/-- Whether a waiting thread's cycles count against its heartbeat and its budget (R283): the waits for the own matrix unit hold a local word, one for pending results is not stated to park, a word of R337 is held for a remote answer. -/
def Wait.counts : Wait → Bool × Bool
  | .unitQueue => (true, true)
  | .commands _ _ => (true, true)
  | .applied _ => (true, true)
  | .trapping _ _ _ _ _ => (true, true)
  | .tags _ => (false, true)
  | _ => (false, false)
/-- The same for a thread's state: a CTALLOC that holds counts as parked (R80). -/
def Status.counts : Status → Bool × Bool
  | .ready => (true, true)
  | .acting _ _ => (true, true)
  | .holding h => (false, match h.kind with | .ctalloc _ _ => false | _ => true)
  | .parked w => w.counts
  | _ => (false, false)
/-- Cycles counted against heartbeat and budget up to `now`, as the thread's state says (R283, R286, R287). -/
def Thread.count (t : Thread) (now : Nat) : Thread :=
  let n := now - t.acct
  if t.saving.isSome then { t with acct := now } else
  { t with hb := if t.status.counts.1 then t.hb + n else t.hb, acct := now
           budget := if t.status.counts.2 && t.budget != 2 ^ 48 - 1 then t.budget - n else t.budget }

/-- The cycle in which the last of a thread's pending results lands; 0 where there is none. -/
def Thread.lastLand (t : Thread) : Nat := (t.pend.map Pend.land).foldl max 0
/-- TrapEntry (R353): it waits until the pending results have landed; a trap in a handler is a DOUBLE_FAULT kill, one without a handler a kill with its cause.
The handler's first word issues no earlier than 8 cycles after the word that trapped, and not while that word holds the thread. -/
def State.trapEntry (s : State) (k sl : Nat) (code : Cause) (val pc : Word) (async : Bool) (addr : Bool := code.isAddress) : State :=
  match s.thread k sl with
  | none => s
  | some t0 =>
    if s.cycle < t0.lastLand then (s.setThread k sl { t0.count s.cycle with status := .parked (.trapping code val pc async addr) }).at t0.lastLand (.longResultLand k sl) else
    let t := t0.landAll.count s.cycle
    let s1 := s.setThread k sl t
    if t.inh then s1.killThread k sl .doubleFault (BitVec.ofNat 64 code.code) (code.wordAt pc)
    else if t.tvec = 0 then s1.killThread k sl code val (code.wordAt pc) addr
    else s1.setThread k sl (t.enterTrap code val pc async (max (max (t.issued + 8) t.busy) s.cycle))

/-- The return from a trap (R355): K.PFX, K.GSEL and the PC come back, INH becomes 0; a BUDGET that came up in the handler waits for one word more (R354, R377). -/
def Thread.leaveTrap (t : Thread) : Thread :=
  { t with pfx := BitVec.ofNat 28 (bits t.tcause 36 28) &&& 0xFBFFFFF#28, gsel := BitVec.ofNat 22 (bits t.tcause 14 22) &&& 0x3FFE00#22
           tcause := t.tcause &&& ~~~0x1000#64, pc := t.tpc, afterRft := t.budget == 0 && !t.budgetTaken }

end Sys2Proof.Machine
end

