-- ==== Sys2Proof/Machine/Operands.lean ====
section
/-! DEFINITION. How a word issues: the checks every word shares (R25 to R29, R33 to R39, R351), guards, latches and widened immediates, and how it completes, waits or traps. -/
namespace Sys2Proof.Machine

/-- What a word's own meaning gives.
`next`: only its thread changes; it completes, and the next word issues no earlier than the cycle given (0: as R23 says).
`goto`: the same with a target. `done`: the state changed, and it completes. `jump`: the same with a target. `wait`: it parks, with the value of a SYNC_TIMEOUT (R130). `hold`: it waits for an answer.
`stop`: the meaning settled everything itself. `trap`: it traps at its own address; `trapVal`: with a VALUE whose kind R361 asks for. -/
inductive WordRes where
  | next (t : Thread) (min : Nat)
  | goto (t : Thread) (target : Word)
  | done (s : State) (min : Nat)
  | wait (s : State) (w : Wait) (val : Word)
  | hold (s : State) (h : Hold)
  | stop (s : State)
  | trap (s : State) (code : Cause) (val : Word)
  | trapVal (s : State) (code : Cause) (val : Word) (addr : Bool)

/-- What the shared checks need to know of a word: whether an IMM latch may govern it, whether RO may, ILLEGAL and PRIVILEGE conditions beyond the decoder's, the registers it reads and writes, `more` those that it reads as the values of others say, and how many cycles after its issue it acts (R120, R296). -/
structure Form where
  immOk : Bool := false
  roOk : Bool := false
  bad : Thread → Bool := fun _ => false
  priv : Bool := false
  reads : List Reg := []
  more : Thread → List Reg := fun _ => []
  writes : List Reg := []
  lag : Nat := 0

/-- K.PFX.RV and IV (R34). -/
def Thread.rv (t : Thread) : Bool := t.pfx.getLsbD 27
def Thread.iv (t : Thread) : Bool := t.pfx.getLsbD 23
/-- The latched immediate bits. -/
def Thread.immh (t : Thread) : Nat := bits t.pfx 0 22

/-- An immediate of `w` bits, widened by an IMM latch and sign-extended (R33). -/
def Thread.widen (t : Thread) {w : Nat} (x : BitVec w) : Word :=
  if t.iv then sext (22 + w) (t.immh * 2 ^ w + x.toNat) else sext w x.toNat
/-- The offset of an M word: off6 unsigned, or the widened signed value (R20, R33). -/
def Thread.offset (t : Thread) (off : Reg) : Word :=
  if t.iv then sext 28 (t.immh * 64 + off.toNat) else off.setWidth 64

/-- Whether the selected guard holds (R28, R29). -/
def Thread.guardHolds (t : Thread) : Bool :=
  (t.rd (BitVec.ofNat 6 (bits t.gsel 16 6))).getLsbD (bits t.gsel 10 6) != t.gsel.getLsbD 9
/-- The guard register. -/
def Thread.guardReg (t : Thread) : Reg := BitVec.ofNat 6 (bits t.gsel 16 6)

/-- The address of the undersized word whose result one of the registers waits for (R26): of several, the one that issued first (log 78); g0 is never pending. -/
def Thread.pendingAt (t : Thread) (l : List Reg) : Option Word :=
  (t.pend.find? (fun p => p.reg != 0#6 && l.contains p.reg)).map Pend.addr

/-- A word that completes: the latches are cleared, the PC moves, the next word is eligible as R23 says, and S asks for a LIVE (R23, R34, R39). It holds its thread until cycle `min` (R209). -/
def Thread.complete (t : Thread) (c : Ctl) (pc : Word) (min : Nat) : Thread :=
  { t with pfx := 0, pc := pc, elig := max (t.issued + 8 * (c.w.toNat + 1)) min, busy := min, live := c.s, status := .ready, waitStart := none, done := true }

/-- The serials taken and not settled: of requests and of engine commands. A canopy command's settles with its request's answer, since R15 does not name it. -/
def Thread.outstanding (t : Thread) : List (BitVec 32) :=
  (t.reqs.filter (fun p => p.req.serialed)).map (fun p => p.req.serial) ++ (t.engs.filter (fun x => x.kind != .canopy)).map EngCmd.serial
/-- K.ACKW advances to the serial before the first outstanding one (R261). -/
def Thread.advance (t : Thread) : Thread :=
  let ds := t.outstanding.map (fun x => (x - t.ackw).toNat)
  let d := ds.foldl min ((t.serial - t.ackw).toNat)
  { t with ackw := t.ackw + BitVec.ofNat 32 (d - 1) }
/-- A serial taken and settled within the word. -/
def Thread.passSerial (t : Thread) : Thread := ({ t with serial := t.serial + 1 } : Thread).advance
/-- A wait's limit comes (R130): SYNC_TIMEOUT, whose VALUE is an address where the word waits for a granule. -/
def State.waitLimit (s : State) (k sl : Nat) (w : Wait) (val : Word) : State :=
  match s.thread k sl with
  | none => s
  | some t => s.trapEntry k sl .syncTimeout val t.pc false (match w with | .granule _ => true | _ => false)

/-- A word parks (R129, R130): its count starts at the first park and goes on through later ones, the value is the latest wait's; at the limit it raises SYNC_TIMEOUT. -/
def State.park (s : State) (k sl : Nat) (w : Wait) (val : Word) : State :=
  match s.thread k sl with
  | none => s
  | some t =>
    let ws := ((t.waitStart.map Prod.fst).getD s.cycle, val)
    match w with
    | .clock _ => s.setThread k sl { t with status := .parked w }
    | .tags _ => s.setThread k sl { t with status := .parked w }
    | .unitQueue => s.setThread k sl { t with status := .parked w }
    | .applied _ => s.setThread k sl { t with status := .parked w }
    | .commands _ _ => s.setThread k sl { t with status := .parked w, waitStart := some ws }
    | _ =>
      if ws.1 + t.synclim ≤ s.cycle then s.waitLimit k sl w ws.2
      else
        let s1 := s.setThread k sl { t with status := .parked w, waitStart := some ws }
        if t.waitStart.isNone then s1.at (ws.1 + t.synclim) (.syncTimeout k sl) else s1

/-- What a meaning gave, put into the state. -/
def State.conclude (s : State) (k sl : Nat) (c : Ctl) (pc : Word) : WordRes → State
  | .next t min => s.setThread k sl (t.complete c (pc + 4) min)
  | .goto t target => s.setThread k sl (t.complete c target 0)
  | .done s1 min => s1.mapThread k sl (fun t => t.complete c (pc + 4) min)
  | .wait s1 w val => s1.park k sl w val
  | .hold s1 h => s1.mapThread k sl (fun t => { t with status := .holding h })
  | .stop s1 => s1
  | .trap s1 code val => s1.trapEntry k sl code val pc false
  | .trapVal s1 code val addr => s1.trapEntry k sl code val pc false addr

/-- The checks before a word's own meaning (R33, R35, R39, R351 and R29): what they raise, or whether the word executes. -/
def Thread.precheck (t : Thread) (c : Ctl) (f : Form) (w : Word) : Except (Cause × Word) Bool :=
  if t.live || (t.iv && !f.immOk) || (t.rv && bits t.pfx 24 3 == 6 && !f.roOk) || f.bad t then .error (.illegal, w)
  else
    let runs := !c.g || t.guardHolds
    if runs && f.priv then .error (.privilege, w) else
    match (if c.g && t.sc then t.pendingAt [t.guardReg] else none) with
    | some a => .error (.stallCheck, a)
    | none =>
      if !runs then .ok false
      else match (if t.sc then t.pendingAt (f.reads ++ f.more t ++ f.writes) else none) with
        | some a => .error (.stallCheck, a)
        | none => .ok true

/-- The thread as its word acts at cycle `now`, `lag` cycles after its issue: its cycles are counted, it is ready, the word has not completed, no safe point stands, and no BUDGET waits for it (R23, R39, R283, R377). -/
def Thread.begin (t : Thread) (now lag : Nat) : Thread := { t.count now with issued := now - lag, safePoint := none, afterRft := false, status := .ready, done := false }

/-- A word of the current thread acts, `f.lag` cycles after its issue: the shared checks, then its meaning, or nothing where it is suppressed. -/
def runWord (i : Instr) (c : Ctl) (f : Form) (body : State → Thread → WordRes) (s : State) : State :=
  match s.thread s.cur.1 s.cur.2 with
  | none => s
  | some t0 =>
    let t := t0.begin s.cycle f.lag
    let s1 := s.setThread s.cur.1 s.cur.2 t
    match t.precheck c f ((encode i).setWidth 64) with
    | .error (code, val) => s1.trapEntry s.cur.1 s.cur.2 code val t.pc false
    | .ok false => s1.setThread s.cur.1 s.cur.2 (t.complete c (t.pc + 4) 0)
    | .ok true => s1.conclude s.cur.1 s.cur.2 c t.pc (body s1 t)

/-- A hint of the current thread issues. In the order of R36 an IMM may follow an RMODE; no other hint may follow a latch, and only LIVE may follow a word with S (R33, R36, R39). -/
def runHint (i : Instr) (isImm isLive : Bool) (body : Thread → Thread) (min : Nat → Nat) (s : State) : State :=
  match s.thread s.cur.1 s.cur.2 with
  | none => s
  | some t0 =>
    let t := t0.begin s.cycle 0
    let s1 := s.setThread s.cur.1 s.cur.2 t
    if (t.live && !isLive) || t.iv || (t.rv && !isImm) then
      s1.trapEntry s.cur.1 s.cur.2 .illegal ((encode i).setWidth 64) t.pc false
    else s1.setThread s.cur.1 s.cur.2 (let u := body t; { u with pc := t.pc + 4, elig := max (s.cycle + 8) (min s.cycle), live := false, status := .ready, done := true })

/-- Whether the word of the current thread has issued and acts (R120, R296). -/
def State.actsNow (s : State) : Bool := ((s.thread s.cur.1 s.cur.2).map (fun t => match t.status with | .acting _ _ => true | _ => false)).getD false

/-- The current core and slot. -/
def State.k (s : State) : Nat := s.cur.1
def State.sl (s : State) : Nat := s.cur.2

/-- The current thread replaced. -/
def State.put (s : State) (t : Thread) : State := s.setThread s.cur.1 s.cur.2 t

end Sys2Proof.Machine
end

