-- ==== Sys2Proof/Machine/Owner.lean ====
section
/-! DEFINITION. Owners of requests: full/empty bits and their waiters (R129 to R132), the memory requests (R122 to R138), receipts (R264 to R266). -/
namespace Sys2Proof.Machine

/-- What an owner answers (R259): `parked` is WAITING. `later` is no answer yet: the write's other events follow. `givenUp` is no answer: the requester settles its request itself (R267, R268). -/
inductive Reply where
  | done (res : List Word)
  | parked | retry | busy | stale | unknown | cancelled | fenced | givenUp | later
  | error (c : Cause) (val : Word)
deriving DecidableEq, Repr

/-- The answer as a step of its requester. -/
def Reply.event (q : Request) : Reply → Instr
  | .done res => .ansDone ⟨q, res, 0⟩
  | .parked => .ansWaiting ⟨q, [], 0⟩
  | .retry => .ansRetry ⟨q, [], 0⟩
  | .busy => .ansBusy ⟨q, [], 0⟩
  | .stale => .ansStale ⟨q, [], 0⟩
  | .unknown => .ansUnknownOutcome ⟨q, [], 0⟩
  | .givenUp => .ansUnknownOutcome ⟨q, [], 0⟩
  | .later => .ansWaiting ⟨q, [], 0⟩
  | .cancelled => .ansCancelled ⟨q, [], 0⟩
  | .fenced => .ansFenced ⟨q, [], 0⟩
  | .error c v => .ansError c ⟨q, [], v⟩

/-- Whether an answer settles its request (R267). -/
def Reply.settles : Reply → Bool
  | .done _ | .error _ _ | .stale | .unknown | .cancelled | .givenUp => true
  | _ => false
/-- How a settling answer turns out: the result, or the reason of R274 with its cause. -/
def Reply.outcome : Reply → Except (Nat × Option Cause × Word) (List Word)
  | .done r => .ok r
  | .error c v => .error (3, some c, v)
  | .stale => .error (2, none, 0)
  | .unknown => .error (1, none, 0)
  | _ => .error (0, none, 0)

/-- Bytes as 8-byte words, zero beyond the end. -/
def toWords : Nat → List Byte → List Word
  | 0, _ => []
  | fuel + 1, l => if l.isEmpty then [] else leWord (l.take 8) :: toWords fuel (l.drop 8)
def packWords (l : List Byte) : List Word := toWords (l.length / 8 + 1) l
/-- The first `n` bytes of words. -/
def unpackWords (n : Nat) (l : List Word) : List Byte := (wordBytes l).take n

/-- An answer sent: to a requester of this module after the next delay and the earlier answers (R257; FENCED travels in a class of its own, R255), else out of the module. -/
def State.answer (s : State) (q : Request) (r : Reply) : State :=
  if r == .later then s
  else if q.src.module == s.moduleNo then s.popDelay.at (if r == .fenced then s.cycle + s.delay else s.answerTime q.dst q.src) (r.event q)
  else { s with outbox := s.outbox ++ [r.event q] }

/-! ### Receipts -/

/-- The owner a request is for (R264). -/
def ownerKind (q : Request) : Owner :=
  match q.typ with
  | .canopy => .ctagAlloc
  | _ => match q.dst.kind with
    | 0 => .core (coreOf q.dst)
    | 1 => .channel q.dst.die q.dst.index
    | 2 => if q.dst.index ≤ 3 then .core (coreOf q.dst) else if q.dst.index == 4 then .collPort q.dst.die else if q.dst.index == 6 then .ctagAlloc else .hostIf q.dst.die
    | _ => if q.dst.index == 0 then .collDie q.dst.die else .distributor q.dst.die
/-- Entries of its receipt cache (R264). -/
def ownerEntries : Owner → Nat
  | .core _ => 64
  | .channel _ _ => 4096
  | .ctagAlloc => 4096
  | _ => 1024
def State.owner (s : State) (o : Owner) : OwnerSt := ((s.owners.find? (fun p => p.1 == o)).map Prod.snd).getD ⟨[], [], s.started, 0⟩
def State.setOwner (s : State) (o : Owner) (x : OwnerSt) : State :=
  { s with owners := (o, x) :: s.owners.filter (fun p => p.1 != o) }
/-- Entries whose keep time has passed are free (R265). -/
def OwnerSt.fresh (x : OwnerSt) (now : Nat) : OwnerSt :=
  { x with receipts := x.receipts.filter (fun r => now < r.time + Config.keepCycles), floors := x.floors.filter (fun f => now < f.time + Config.keepCycles) }
/-- What tells the requests of one serial apart: OFF (R265); the WRITEs of a lane, whose OFF is zero, by their addresses (log 86). -/
def receiptOff (q : Request) : Nat := if q.src.kind == 1 && q.typ == .write then 2 ^ 32 + q.addr else q.off
def OwnerSt.receiptFor (x : OwnerSt) (q : Request) : Option Receipt :=
  x.receipts.find? (fun r => r.module == q.src.module && r.stream == q.stream && r.serial == q.serial && r.off == receiptOff q)
def Receipt.reply (r : Receipt) : Reply :=
  match r.error with
  | some c => .error c r.val
  | none => .done r.res
/-- KeepReceipt; only executed requests leave one. -/
def OwnerSt.keep (x : OwnerSt) (q : Request) (r : Reply) (now : Nat) : OwnerSt :=
  match r with
  | .done res => { x with receipts := ⟨q.src.module, q.stream, q.serial, receiptOff q, none, res, 0, now⟩ :: x.receipts }
  | .error c v => { x with receipts := ⟨q.src.module, q.stream, q.serial, receiptOff q, some c, [], v, now⟩ :: x.receipts }
  | _ => x
def State.keepReceipt (s : State) (q : Request) (r : Reply) : State :=
  if q.serialed then s.setOwner (ownerKind q) ((s.owner (ownerKind q)).keep q r s.cycle) else s

/-- UpdateFloor (R265): none when a new floor needs an entry and none is free. -/
def OwnerSt.updateFloor (x : OwnerSt) (n : Nat) (m : Nat) (st a : BitVec 32) (now : Nat) : Option (OwnerSt × BitVec 32) :=
  let old := x.floors.find? (fun f => f.module == m && f.stream == st)
  let rest := x.floors.filter (fun f => !(f.module == m && f.stream == st))
  let go := fun (f : BitVec 32) => some (({ x with
    floors := ⟨m, st, f, now⟩ :: rest
    receipts := x.receipts.filter (fun r => !(r.module == m && r.stream == st && decide ((f - r.serial).toNat < 2 ^ 31))) } : OwnerSt), f)
  match old with
  | some f => if 1 ≤ (a - f.floor).toNat && (a - f.floor).toNat ≤ 2 ^ 31 - 1 then go a else go f.floor
  | none => if x.receipts.length + x.floors.length ≥ n then none else go a

/-- Whether start-up has finished on a compute die (R404, R406). -/
def State.dieUp (s : State) (die : Nat) : Bool := ((s.boot[die]?).map Boot.done).getD true
/-- Whether the die of an endpoint has stopped in its start: a compute die that has not finished it, a port die without an image (R403, R404). -/
def State.stopped (s : State) (d : Endpoint) : Bool := if d.kind == 2 then (s.portStatus.getD d.die 0).getLsbD 0 else !s.dieUp d.die
/-- Whether a request's owner answers FENCED to every request: a sealed core, or an owner that restarts (R266), or that has stopped in its start (log 64). -/
def State.sealedFor (s : State) (q : Request) : Bool :=
  s.stopped q.dst || decide (s.cycle < (s.owner (ownerKind q)).back) || match ownerKind q with
  | .core k => (s.core k).sealed
  | _ => false
/-- Whether a WRITE has made some of its events and makes the others now (R123): words 1 and 2 are the size of its events and the place of the next. -/
def midway (q : Request) : Bool := q.typ == .write && (q.word 0 == 4 || q.word 0 == 5) && q.word 2 != 0
/-- The messages that are on their way or wait for a refresh. -/
def State.onTheWay (s : State) : List Request := s.agenda.filterMap (fun e => messageOf e.2) ++ s.queued.filterMap messageOf
/-- How many entries of an owner's receipt cache are taken by requests that it has accepted and not performed whole: WRITEs that have not made all their events, and a host's writes to another module. -/
def State.writing (s : State) (o : Owner) : Nat :=
  (s.onTheWay.filter (fun m => midway m && m.serialed && ownerKind m == o)).length + (s.hosted.filter (fun x => x.req.serialed && ownerKind x.req == o)).length
/-- Accept (R265) around the execution `exe`; a request without a serial is executed each time it comes, but while it waits here. A WRITE that has been accepted makes its other events, and its entry is kept for it. -/
def State.accept (s : State) (q : Request) (parkedHere : Bool) (exe : State → State × Reply) : State × Reply :=
  if s.sealedFor q then (s, .fenced)
  else if midway q then (let r := exe s; (r.1.keepReceipt q r.2, r.2))
  else if !q.serialed then (if parkedHere then (s, .parked) else exe s) else
  let o := ownerKind q
  let x := (s.owner o).fresh s.cycle
  match x.receiptFor q with
  | some r => (s, r.reply)
  | none =>
    if s.us > q.sent + Config.ageLimit then (s, .stale)
    else if parkedHere then (s, .parked)
    else match x.updateFloor (ownerEntries o - s.writing o) q.src.module q.stream q.ack s.cycle with
      | none => (s, .busy)
      | some (x1, f) =>
        let s1 := s.setOwner o x1
        let d := (q.serial - f).toNat
        if d == 0 || d > 2 ^ 16 then (s1, .stale)
        else if q.sent < x1.restart then (s1, .unknown)
        else if x1.receipts.length + x1.floors.length + s.writing o ≥ ownerEntries o then (s1, .busy)
        else
          let r := exe s1
          (r.1.keepReceipt q r.2, r.2)

/-! ### Full/empty bits and waiters -/

/-- The core whose local store holds key `a`. -/
def coreOfKey (a : Nat) : Option Nat :=
  if 2 ^ 44 ≤ a then some (Config.serviceBase + (a - 2 ^ 44) / Config.windowStep) else (windowOf a).map Prod.fst

/-- Threads of core `k` parked on granule `g` wake (R129), at the end of the cycle of the change; a swapped-out one, or one being swapped out, becomes resumable (R323, R324). -/
def State.wake (s : State) (k g : Nat) : State :=
  s.mapCore k (fun c => { c with
    threads := c.threads.map (fun x => match x.2.status with
      | .parked (.granule h) => if h == g && x.2.saving.isNone then (x.1, { x.2.count s.cycle with status := .ready, elig := max x.2.elig (s.cycle + 1) }) else x
      | _ => x)
    swaps := c.swaps.map (fun w => if w.granule == g then { w with resumable := true } else w) })

/-- One attempt of a synchronising request at its owner, one event (R128, R132, R134); none when it does not succeed. -/
def State.attempt (s : State) (q : Request) : Option (State × Reply) :=
  let key := localKey (coreOf q.dst) q.addr
  let g := key / 16
  let n := 2 ^ q.lsize
  match q.typ with
  | .lds => if s.fe g then some (match s.readMem key n with
      | (s1, some l) => (s1, .done (packWords l))
      | (s1, none) => (s1, .error .eccUncorr q.va)) else none
  | .ldsc => if s.fe g then some (match s.readMem key n with
      | (s1, some l) => (s1.putFE g false, .done (packWords l))
      | (s1, none) => (s1, .error .eccUncorr q.va)) else none
  | .sts => if s.fe g then none else some ((s.writeMem key q.bytes).putFE g true, .done [])
  | .waitf => if s.fe g == (q.words.headD 0 == 0) then some (s, .done []) else none
  | _ => none

/-- The waiting requests of a granule, in arrival order, until one fails (R132). -/
def State.serve (g : Nat) : List Request → State × List Request → State × List Request
  | [], r => r
  | q :: l, (s, kept) =>
    if localKey (coreOf q.dst) q.addr / 16 != g then State.serve g l (s, kept ++ [q])
    else match s.attempt q with
      | some (s1, r) => State.serve g l ((s1.keepReceipt q r).answer q r, kept)
      | none => (s, kept ++ (q :: l))

/-- A full/empty bit takes a value: a change serves the remote waiters, then wakes the core's own threads (R129, R131, R132). -/
def State.setFE (s : State) (g : Nat) (v : Bool) : State :=
  if s.fe g == v then s else
  let s1 := s.putFE g v
  match coreOfKey (g * 16) with
  | none => s1
  | some k =>
    let r := State.serve g (s1.core k).waiters (s1, [])
    (r.1.mapCore k (fun c => { c with waiters := r.2 })).wake k g

/-- After an attempt changed a bit on its own: the same effects. -/
def State.changed (s0 s : State) (g : Nat) : State :=
  if s0.fe g == s.fe g then s else (s.putFE g (s0.fe g)).setFE g (s.fe g)

/-! ### Memory requests -/

/-- The result of an atomic on the old value `m` of width `w` (R137). -/
def atomicNew (f w : Nat) (m v cmp : Nat) (c : Nat) : Nat :=
  match f with
  | 0 => (m + c * v) % 2 ^ w
  | 1 => if (BitVec.ofNat w v).slt (BitVec.ofNat w m) then v else m
  | 2 => if (BitVec.ofNat w m).slt (BitVec.ofNat w v) then v else m
  | 3 => m &&& v
  | 4 => m ||| v
  | 5 => if c % 2 == 1 then m ^^^ v else m
  | 6 => v
  | _ => if m == cmp then v else m

/-- An atomic on a part: read, compute, write as one event (R137, R72). -/
def State.atomic (s : State) (p : Piece) (f v cmp c : Nat) : State × Reply :=
  match (s.readBlocks p).readPiece p with
  | (s1, none) => (s1, .error .eccUncorr p.va)
  | (s1, some l) =>
    let m := leNat l
    match s1.writePiece p (leBytes p.size (atomicNew f (8 * p.size) m v cmp c)) with
    | .error e => (s1, .error e p.va)
    | .ok s2 => (s2, .done [BitVec.ofNat 64 m])

/-- The part a memory request acts on. -/
def reqPart (q : Request) (size : Nat) : Piece :=
  ⟨if q.dst.kind == 0 then localKey (coreOf q.dst) q.addr else q.addr, size, q.va, q.ctag⟩

/-- The rest of a request, `i`, follows at cycle `n`, and the later messages of its source to its destination come after it, in their order (R257). -/
def State.goesOn (s : State) (q : Request) (n : Nat) (i : Instr) : State :=
  let late := fun (e : Nat × Instr) => decide (e.1 ≤ n) && (match messageOf e.2 with | some m => m.src == q.src && m.dst == q.dst | none => false)
  (s.agenda.filter late).foldl (fun s e => s.at n e.2) (({ s with agenda := s.agenda.filter (fun e => !late e) } : State).at n i)
/-- The events of a write, `u` bytes each, from byte `i` on (R123): at once where the tape gives no delay, else the next one follows as an entry of the agenda. -/
def State.writeEvents (q : Request) (u : Nat) : Nat → Nat → State → State × Reply
  | 0, _, s => (s, .done [])
  | fuel + 1, i, s =>
    let p := reqPart q u
    match s.writePiece { p with pa := p.pa + i, va := p.va + BitVec.ofNat 64 i } ((q.bytes.drop i).take u) with
    | .error e => (s, .error e (q.va + BitVec.ofNat 64 i))
    | .ok s1 =>
      if q.bytes.length ≤ i + u then (s1, .done [])
      else if s1.delay == 0 then State.writeEvents q u fuel (i + u) s1.popDelay
      else (s1.popDelay.goesOn q (s1.cycle + s1.delay) (.reqWrite { q with words := [4, BitVec.ofNat 64 u, BitVec.ofNat 64 (i + u)] }), .later)
/-- The events of a read of `len` bytes, `u` bytes each, from byte `i` on (R123), as `writeEvents`; `acc` has the bytes before. -/
def State.readEvents (q : Request) (len u : Nat) : Nat → Nat → List Byte → State → State × Reply
  | 0, _, acc, s => (s, .done (packWords acc))
  | fuel + 1, i, acc, s =>
    let p := reqPart q u
    match s.readPiece { p with pa := p.pa + i, va := p.va + BitVec.ofNat 64 i } with
    | (s1, none) => (s1, .error .eccUncorr (q.va + BitVec.ofNat 64 i))
    | (s1, some l) =>
      if len ≤ i + u then (s1, .done (packWords (acc ++ l)))
      else if s1.delay == 0 then State.readEvents q len u fuel (i + u) (acc ++ l) s1.popDelay
      else (s1.popDelay.goesOn q (s1.cycle + s1.delay) (.reqRead { q with words := [BitVec.ofNat 64 len, BitVec.ofNat 64 u, BitVec.ofNat 64 (i + u)], bytes := acc ++ l }), .later)
/-- The events of a store to C pages under a ctag, `u` bytes each from the start of each part (R72, R123). -/
def storedEvents (u : Nat) (l : List (Piece × List Byte)) : List (Piece × List Byte) :=
  (l.map (fun x => (List.range ((x.1.size + u - 1) / u)).map (fun i =>
    ({ x.1 with pa := x.1.pa + i * u, size := min u (x.1.size - i * u), va := x.1.va + BitVec.ofNat 64 (i * u) }, (x.2.drop (i * u)).take u)))).flatten
/-- Those from event `i` on: at once where the tape gives no delay, as `writeEvents`. -/
def State.storeEvents (q : Request) : List (Piece × List Byte) → Nat → State → State × Reply
  | [], _, s => (s, .done [])
  | (p, l) :: r, i, s => match s.writePiece p l with
    | .error e => (s, .error e p.va)
    | .ok s1 =>
      if r.isEmpty then (s1, .done [])
      else if s1.delay == 0 then State.storeEvents q r (i + 1) s1.popDelay
      else (s1.popDelay.goesOn q (s1.cycle + s1.delay) (.reqWrite { q with words := q.words.set 2 (BitVec.ofNat 64 (i + 1)) }), .later)
/-- The parts of such a store, four words each in the message after the first three: address, size, virtual address, ctag. -/
def storedParts : List Word → List Piece
  | pa :: n :: va :: ct :: l => ⟨pa.toNat, n.toNat, va, ct.toNat⟩ :: storedParts l
  | _ => []
/-- Execution of a memory request at its owner (R263). A read, with its length and the size of its events, and a write (mode 4) are the events of R123; a write of mode 5 is a store to C pages under a ctag, which finds room in the heap for all its bytes or writes nothing (R72), and then makes its events. -/
def State.performMem (s : State) (q : Request) : State × Reply :=
  let k := coreOf q.dst
  if q.ctag != 0 && !s.ctagOk q.ctag q.guest then (s, .error .ctagInvalid (BitVec.ofNat 64 q.ctag))
  else match q.typ with
    | .read => State.readEvents q (q.word 0) (q.word 1) (q.word 0 + 1) (q.word 2) q.bytes s
    | .write =>
      if q.word 0 == 4 then State.writeEvents q (q.word 1) (q.bytes.length + 1) (q.word 2) s
      else if q.word 0 == 5 then
        let ps := storedParts (q.words.drop 3)
        let s0 := ps.foldl State.readBlocks s
        match (if q.word 2 == 0 then s0.reserve ps else .ok s) with
        | .ok s1 => State.storeEvents q ((storedEvents (q.word 1) (cutData ps q.bytes)).drop (q.word 2)) (q.word 2) s1
        | .error e => (s0, .error e.1 e.2)
      else match s.writePiece (reqPart q q.bytes.length) q.bytes with
        | .ok s1 => (s1, .done [])
        | .error e => (s, .error e q.va)
    | .fetest => (s, .done [if s.fe (localKey k q.addr / 16) then 1 else 0])
    | .febit => (s.setFE (localKey k q.addr / 16) (q.f == 0), .done [])
    | .atomic => s.atomic (reqPart q (2 ^ q.lsize)) q.f (q.words.headD 0).toNat ((q.words.drop 1).headD 0).toNat q.cnt
    | _ => match s.attempt q with
      | some (s1, r) => (State.changed s s1 (localKey k q.addr / 16), r)
      | none =>
        if (s.core k).waiters.length < Config.waiterEntries then (s.mapCore k (fun c => { c with waiters := c.waiters ++ [q] }), .parked)
        else (s, .retry)

/-- Whether a copy of the request waits here (R265), or has not made all its events, or is under way to another module. -/
def State.parkedHere (s : State) (q : Request) : Bool :=
  s.agenda.any (fun e => match e.2 with
    | .reqCanopy m => m.words.length == 3 && q.words.length == 2 && m.stream == q.stream && m.serial == q.serial
    | _ => false) ||
  s.onTheWay.any (fun m => midway m && m.src.module == q.src.module && m.stream == q.stream && m.serial == q.serial && receiptOff m == receiptOff q && m.dst == q.dst) ||
  s.hosted.any (fun x => x.req.src == q.src && x.req.stream == q.stream && x.req.serial == q.serial && x.req.typ == q.typ && x.req.addr == q.addr) ||
  (q.dst.kind == 0 || q.dst.kind == 2) && (s.core (coreOf q.dst)).waiters.any (fun w => w.src.module == q.src.module && w.stream == q.stream && w.serial == q.serial && w.typ == q.typ)

/-- A cancel (R132): an entry still held is freed and answered cancelled; an executed request is answered from its receipt; one of which the owner knows nothing is answered cancelled (log 79). -/
def State.cancelAt (s : State) (q : Request) : State × Reply :=
  let k := coreOf q.dst
  let same := fun (w : Request) => w.src.module == q.src.module && w.stream == q.stream && (!w.serialed || w.serial == q.serial) && w.tag == q.tag
  if s.sealedFor q then (s, .fenced)
  else if s.agenda.any (fun e => match e.2 with | .reqCanopy m => m.words.length == 3 && same m | _ => false) then
    ({ s with agenda := s.agenda.filter (fun e => match e.2 with | .reqCanopy m => !(m.words.length == 3 && same m) | _ => true) }, .cancelled)
  else if (s.core k).waiters.any same then (s.mapCore k (fun c => { c with waiters := c.waiters.filter (fun w => !same w) }), .cancelled)
  else if q.serialed then match (s.owner (ownerKind q)).receiptFor q with
    | some r => (s, r.reply)
    | none => (s, .cancelled)
  else (s, .cancelled)

/-! ### Messages on their way (R257, R58) -/

/-- Whether a channel is being refreshed (R57, R58): each refresh of point `p` of the grid lasts its 420 cycles, whatever a sample says meanwhile. -/
def State.refreshing (s : State) (d : Endpoint) : Bool :=
  match s.refresh with
  | none => false
  | some p => d.kind == 1 && (p % 2 == 0 || s.refreshed.contains (d.die * 64 + d.index)) && decide (s.cycle < p * Config.refreshStep + Config.refreshLength)
/-- Whether messages wait at `d` for the end of a refresh. -/
def State.lined (s : State) (d : Endpoint) : Bool := (s.queued.filterMap messageOf).any (fun m => m.dst == d)
/-- Whether what reaches `d` now has to wait: for a refresh or behind what waits for one, behind a message that is due there, or for the core's own words that act in this cycle (R58, R119, R257). -/
def State.waitsAt (s : State) (d : Endpoint) : Bool :=
  s.refreshing d || s.lined d || s.agenda.any (fun e => decide (e.1 ≤ s.cycle) && (match messageOf e.2 with | some m => m.dst == d | none => false))
    || ((d.kind == 0 || d.kind == 2) && (s.threads (coreOf d)).any (fun x => match x.2.status with | .acting c _ => decide (c ≤ s.cycle) | _ => false))
/-- A request sent: out of the module, or to its owner here, who serves it by `serve` at once where the tape gives no delay and nothing comes before it. The answer where it comes in this step: not before an earlier one of its source to its destination (R257). -/
def State.sendVia (s : State) (q : Request) (serve : State → State × Reply) : State × Option Reply :=
  if q.dst.module != s.moduleNo then ({ s with outbox := s.outbox ++ [reqEvent q] }, none)
  else if s.arrival q ≤ s.cycle && !s.waitsAt q.dst then
    let r := serve s.popDelay
    if r.2 == .later then (r.1, none)
    else if r.2 != .fenced && r.1.agenda.any (fun e => answerRoute e.2 == some (q.dst, q.src)) then (r.1.answer q r.2, none)
    else (r.1, some r.2)
  else (s.popDelay.at (s.arrival q) (reqEvent q), none)
/-- The same for a request that its owner accepts (R265) and performs by `exe`. -/
def State.sendBy (s : State) (q : Request) (exe : State → State × Reply) : State × Option Reply :=
  s.sendVia q (fun s => s.accept q (s.parkedHere q) exe)
/-- A request that arrives at its owner, under the rules of R265, answered. -/
def State.serveReq (s : State) (m : Request) (exe : State → State × Reply) : State :=
  let r := s.accept m (s.parkedHere m) exe
  r.1.answer m r.2
/-- An event that must wait for a refresh (R58): a request at a channel that is being refreshed, or at which others wait. -/
def State.heldBack (s : State) (i : Instr) : Bool :=
  match messageOf i with
  | some m => s.refreshing m.dst || s.lined m.dst
  | none => false

end Sys2Proof.Machine
end

