-- ==== Sys2Proof/Machine/Task.lean ====
section
/-! DEFINITION. Threads that start (R179, R289 to R292, R322), task control blocks and appends (R301, R314 to R316), successor decrements (R305, R317), the allocation of ctags (R80). -/
namespace Sys2Proof.Machine

/-! ### Starting a thread -/

/-- The slot that a TEND gave up in this cycle, which is free in the next (R304). -/
def State.tended (s : State) (k : Nat) : Option Nat := (s.core k).tended.bind (fun x => if x.2.1 == s.cycle then some x.1 else none)
/-- The lowest free slot of a core (R291). -/
def State.freeSlot (s : State) (k : Nat) : Option Nat := (List.range 16).find? (fun sl => ((s.core k).threads.find sl).isNone && s.tended k != some sl)
/-- A carve (R150): every byte of the views is zero. -/
def Core.carve (c : Core) (acount tsize : Nat) : Core := { c with acount := acount, tsize := tsize, acc := [], tile := [] }
/-- Whether a core has no occupied slot and no swap-list entry. -/
def State.vacant (s : State) (k : Nat) : Bool := (s.core k).threads.isEmpty && (s.core k).swaps.isEmpty && (s.tended k).isNone
/-- Whether a core accepts the view values: no occupied slot and no swap-list entry, or an equal carve (R150, R291, R323). -/
def State.accepts (s : State) (k acount tsize : Nat) : Bool :=
  s.vacant k || ((s.core k).acount == acount && (s.core k).tsize == tsize)
/-- The guests of a core's occupied slots and swap-list entries (R291). -/
def State.coreGuests (s : State) (k : Nat) : List Nat :=
  (s.core k).threads.map (fun x => x.2.guest) ++ (s.core k).swaps.filterMap (fun w => (s.saved.find w.frame).map (fun v => v.thread.guest))
    ++ (if (s.tended k).isSome then ((s.core k).tended.map (fun x => x.2.2)).toList else [])
/-- Whether a core takes a task of a guest. -/
def State.guestOk (s : State) (k g : Nat) : Bool := (s.coreGuests k).all (· == g)

/-- A thread put into a slot, with a stream of the allocator; the core is carved first when it has no occupied slot. -/
def State.startThread (s : State) (k sl acount tsize : Nat) (t : Thread) : State :=
  let r := s.takeStream
  let s1 := if s.vacant k then (r.2.covered (accErr k 0) 0x6000).mapCore k (fun c => c.carve acount tsize) else r.2
  (s1.mapCore k (fun c => { c with killed := c.killed.filter (· != sl) })).setThread k sl { t with stream := r.1, acct := s.cycle, elig := s.cycle, issued := s.cycle }

/-- g1 to g8 hold the argument words (R179). -/
def Thread.withArgs (t : Thread) (l : List Word) : Thread := l.zipIdx.foldl (fun t p => t.wrN (1 + p.2) p.1) t

/-- What a SPAWN carries of the queue of its thread, as words, and back (log 97). -/
def Away.words (a : Away) : List Word :=
  [BitVec.ofNat 64 (a.module + a.swapLog * 2 ^ 32), BitVec.ofNat 64 (a.tokbud + a.bx * 2 ^ 32 + a.yb * 2 ^ 48),
   BitVec.ofNat 64 (a.origin + a.pr * 2 ^ 16 + a.pc * 2 ^ 24 + a.ch * 2 ^ 32 + a.cw * 2 ^ 40)]
def Away.ofWords (m t p : Word) : Away :=
  ⟨bits m 0 32, bits t 0 32, bits m 32 8, bits p 0 16, bits p 16 8, bits p 24 8, bits p 32 8, bits p 40 8, bits t 32 16, bits t 48 16⟩
/-- A queue of this module as its threads carry it. -/
def Queue.away (x : Queue) (module : Nat) : Away := ⟨module, x.tokbud, x.swapLog, x.origin, x.pr, x.pc, x.ch, x.cw, x.bx, x.yb⟩
/-- The queue of a thread as a SPAWN carries it: that of this module as it stands, that of another as it came with the thread. -/
def State.queueAway (s : State) (t : Thread) : Option Away :=
  match t.away, t.queue with
  | some a, _ => some a
  | none, some (d, q) => (s.queue d q).map (fun x => x.away s.moduleNo)
  | none, none => none
/-- The same; all zero where there is none. -/
def State.awayOf (s : State) (t : Thread) : Away := (s.queueAway t).getD ⟨s.moduleNo, 0, 0, 0, 0, 0, 0, 0, 0, 0⟩

/-- The words of a SPAWN message (R290), in order; `aw` is the queue of the parent. -/
def spawnWords (t : Thread) (aw : Away) (pc : Word) (ord : Nat) (x y z acount tsize : Nat) (budget : Nat) (args : List Word) : List Word :=
  [pc, BitVec.ofNat 64 (t.tid.toNat / 65536 * 65536 + ord), BitVec.ofNat 64 t.cnt, BitVec.ofNat 64 t.ctag,
   BitVec.ofNat 64 (x + y * 2 ^ 16 + z * 2 ^ 32), BitVec.ofNat 64 (acount + tsize * 2 ^ 16), BitVec.ofNat 64 budget,
   BitVec.ofNat 64 t.hbint, BitVec.ofNat 64 t.meetwin, t.tvec, t.dtbase, t.ptbase, t.fpcsr.setWidth 64 &&& 0x7F07#64,
   (match t.queue with | some (d, q) => BitVec.ofNat 64 (1 + d * 64 + q) | none => 0), t.sink, t.errq, t.qpt,
   if t.det then 1 else 0] ++ aw.words ++ args

/-- A spawn at its target core (R291, R292): FENCED, PERMISSION, CTAG_INVALID, BOUNCED (1) or STARTED (0). -/
def State.spawnAt (s : State) (q : Request) : State × Reply :=
  let k := coreOf q.dst
  let c := s.core k
  let w := fun i => ((q.words.drop i).headD 0)
  let g := guestOf (w 11)
  let ac := bits (w 5) 0 16
  let ts := bits (w 5) 16 32
  if c.sealed then (s, .fenced)
  else if !s.guestOk k g then (s, .error .permission (BitVec.ofNat 64 k))
  else if !s.ctagOk (bits (w 3) 0 16) g then (s, .error .ctagInvalid (BitVec.ofNat 64 k))
  else match s.freeSlot k with
    | none => (s, .done [1])
    | some sl =>
      if !s.accepts k ac ts then (s, .done [1]) else
      let t : Thread := { Thread.reset with
        pc := w 0, tid := w 1, cnt := bits (w 2) 0 48, ctag := bits (w 3) 0 16
        cx := bits (w 4) 0 16, cy := bits (w 4) 16 16, cz := bits (w 4) 32 16
        budget := bits (w 6) 0 48, hbint := (w 7).toNat, meetwin := bits (w 8) 0 32, tvec := w 9, dtbase := w 10, ptbase := w 11
        fpcsr := (w 12).setWidth 15
        queue := if w 13 = 0 then none else some (((w 13).toNat - 1) / 64, ((w 13).toNat - 1) % 64)
        sink := w 14, errq := w 15, qpt := w 16, det := w 17 = 1, spawned := true
        away := if w 13 = 0 || bits (w 18) 0 32 == s.moduleNo then none else some (Away.ofWords (w 18) (w 19) (w 20)) }
      (s.startThread k sl ac ts (t.withArgs ((q.words.drop 21).take 8)), .done [0])

/-! ### Ctags allocated (R80) -/

/-- The first FREE number of the search from `n`. -/
def State.findCtag (s : State) : Nat → Nat → Option Nat
  | 0, _ => none
  | fuel + 1, n => if s.ctagState (n % 65535 + 1) == .free then some (n % 65535 + 1) else s.findCtag fuel (n + 1)
/-- A child of `p` allocated: LIVE, any free number (log 1). None: no number is free. -/
def State.allocCtag (s : State) (p guest : Nat) (kill chk : Bool) : Option (Nat × State) :=
  match s.findCtag (min 65535 (s.ctags.length + 1)) (Config.freeCtag s.freeCtr) with
  | none => none
  | some t => some (t, s.useFree.setCtag t ⟨.live, p, (s.ctagRec p).depth + 1, guest, kill, chk, none⟩)

/-! ### Requests at the allocator (R79, R82) -/

/-- Whether a ctag has a child that is LIVE or COMMITTING. -/
def State.hasKids (s : State) (t : Nat) : Bool := s.ctags.any (fun x => x.2.parent == t && x.1 != t && (x.2.state == .live || x.2.state == .committing))
/-- Whether a drop of a child is in progress: a commit finds it busy until then (R397, log 82). -/
def State.dropsKid (s : State) (t : Nat) : Bool := s.drops.any (fun d => d.members.any (fun x => x != t && (s.ctagRec x).parent == t) && !d.members.contains t)
/-- The checks of the table of R86 at the allocator, for f = 0 to 3 with the operands x and y. -/
def State.canopyBad (s : State) (f : Nat) (guest : Nat) (x y : Word) : Option (Cause × Word) :=
  if 2 ^ 16 ≤ x.toNat || !s.ctagOk x.toNat guest then some (.ctagInvalid, x)
  else match f with
    | 0 => if 4 ≤ y.toNat || (y.getLsbD 1 && x = 0) then some (.ctagInvalid, y)
      else if (s.ctagRec x.toNat).depth == 7 then some (.ctagDepth, x) else none
    | 1 => none
    | 2 => if x = 0 then some (.ctagInvalid, x) else if s.hasKids x.toNat || s.dropsKid x.toNat then some (.ctagBusy, x) else none
    | _ => if x = 0 then some (.ctagInvalid, x) else none
/-- A commit accepted: COMMITTING, and its turn comes after the earlier ones (R82 step 2, R75). -/
def State.acceptCommit (s : State) (t : Nat) (o : Option (Word × Env)) : State :=
  ((s.popDelay.setCtag t { s.ctagRec t with state := .committing, job := some o }).latch [t]).at s.canopyTime (.canopyCommit t)
/-- CTSET at the allocator (R81): from this event on the thread of a stream holds `t`; the ctag that it held before. -/
def State.moveCtag (s : State) (st : BitVec 32) (t : Nat) : State × Word :=
  let f := fun (x : Thread) => if x.stream == st then { x with ctag := t } else x
  let here := (s.cores.map (fun (c : Nat × Core) => (c.2.threads.filter (fun x => x.2.stream == st && !x.2.resumes)).map (fun x => x.2.ctag))).flatten
    ++ (s.saved.filter (fun x => x.2.thread.stream == st)).map (fun x => x.2.thread.ctag)
  ({ s with
    cores := s.cores.map (fun (c : Nat × Core) => (c.1, { c.2 with threads := c.2.threads.map (fun (x : Nat × Thread) => (x.1, f x.2)) }))
    saved := s.saved.map (fun (x : Nat × Saved) => (x.1, { x.2 with thread := f x.2.thread })) }, BitVec.ofNat 64 (here.headD 0))
/-- A request at the allocator (R79): f, the operands, and what its arrival carries. WAITING stands for an allocation that is held (R80). -/
def State.canopyAt (s : State) (f guest : Nat) (x y : Word) (env : Env) : State × Reply :=
  match s.canopyBad f guest x y with
  | some e => (s, .error e.1 e.2)
  | none => match f with
    | 0 => match s.allocCtag x.toNat guest (y.getLsbD 0) (y.getLsbD 1) with
      | some (t, s1) => (s1, .done [BitVec.ofNat 64 t])
      | none => (s, .parked)
    | 1 => let r := s.moveCtag env.stream x.toNat; (r.1, .done [r.2])
    | 2 => (s.acceptCommit x.toNat (some (y, env)), .done [])
    | _ => (s.acceptDrop x.toNat (some (y, env)), .done [])

/-! ### Task control blocks -/

/-- 64 bytes of a task control block at a translated address: a page of DRAM with RD and without C or Z (R314, R315). Of another module's DRAM they are free values (log 55). -/
def State.readBlock (s : State) (die : Nat) (pt va : Word) : State × Except Cause (List Byte) :=
  if bits va 0 6 != 0 then (s, .error .align)
  else if 2 ^ 52 ≤ va.toNat then (s, .error .address)
  else match s.seg die pt ⟨true, false, false, false⟩ va 64 with
    | .ok x => if x.isC || x.isW then (s, .error .permission)
      else if moduleOf x.pa != s.moduleNo then
        ({ s with freeCtr := s.freeCtr + 8 }, .ok (wordBytes ((List.range 8).map (fun i => Config.freeValue (s.freeCtr + i)))))
      else match s.readMem (x.pa % 2 ^ 44) 64 with
        | (s1, some l) => (s1, .ok l)
        | (s1, none) => (s1, .error .eccUncorr)
    | .error e => (s, .error e.1)

/-- Whether view values are legal (R52, R150). -/
def viewOk (acount tsize : Nat) : Bool := acount ≤ 4 && tsize % 16 == 0 && 8192 + 4096 * acount + tsize ≤ 32768

/-- Whether a block's VIEW breaks the limits of R52. -/
def badView (b : List Byte) : Bool := !viewOk (field b 22 2 % 8) (field b 22 2 / 8 % 2048 * 16)
/-- A block of a queue from its bytes; none when it is malformed (R315). -/
def parseBlock (q : Queue) (addr pt : Word) (b : List Byte) : Option Block :=
  let entry := BitVec.ofNat 64 (field b 0 8)
  let p14 := field b 14 1
  let p15 := field b 15 1
  let mark := p14 / 8 % 2 == 1
  let mode := p15 % 4
  let chk := p15 / 8 % 2 == 1
  let view := field b 22 2
  let hb := field b 62 1
  let tidh := field b 56 6
  let bad := p14 ≥ 16 || p15 ≥ 16 || field b 20 2 / 2 ^ 13 != 0 || view / 2 ^ 14 != 0 || mode ≥ 2
    || (if mark then entry != 0 else 2 ^ 52 ≤ entry.toNat || bits entry 0 2 != 0)
    || field b 20 2 > 4096 || badView b || bits (BitVec.ofNat 64 (field b 40 8)) 52 8 != 0 || field b 40 1 % 32 != 0
    || !(hb == 0 || (10 ≤ hb && hb ≤ 40))
    || (mode == 1 && chk && !q.replay && q.pctag == 0)
    || (q.det && (mode != 1 || (match q.lastTid with | some t => decide (tidh ≤ t) | none => false)))
  if bad then none else some
    { addr := addr, ptbase := pt, pred := field b 16 4, status := if field b 16 4 == 0 then 1 else 0, readyAt := 0, readyNo := 0, entry := entry
      x := field b 8 2, y := field b 10 2, z := field b 12 2, prio := p14 % 8, mark := mark, mode := mode
      kill := p15 / 4 % 2 == 1, chk := chk || (q.det && mode == 1), nsucc := field b 20 2, acount := view % 8, tsize := view / 8 % 2048 * 16
      succ := BitVec.ofNat 64 (field b 24 8), args := BitVec.ofNat 64 (field b 32 8), sink := BitVec.ofNat 64 (field b 40 8)
      budget := field b 48 6, mwin := field b 54 2, tidh := tidh, hblog := hb, ctag := none, gone := false, awaiting := q.det, retiredNo := 0, heldAt := 0 }

/-- Bytes written at a translated address of this module under an address space; a place that cannot be written keeps its bytes. -/
def State.writeVa (s : State) (die : Nat) (pt : Word) (va : Nat) (l : List Byte) : State :=
  match s.seg die pt ⟨false, true, false, false⟩ (BitVec.ofNat 64 va) l.length with
  | .ok x => if moduleOf x.pa == s.moduleNo then s.writeMem (x.pa % 2 ^ 44) l else s
  | .error _ => s

/-- One append (R316): the ring entry, the block's STATUS, the ready list. -/
def State.appendBlock (s : State) (die q : Nat) (x : Queue) (b : Block) : State :=
  let n := x.base + x.blocks.length
  let b1 := { b with readyAt := s.cycle, readyNo := x.readies }
  let s1 := s.setQueue die q { x with blocks := x.blocks ++ [b1], qpt := b.ptbase, lastTid := some b.tidh, readies := x.readies + 1 }
  let s2 := s1.writeVa die b.ptbase (x.ring.toNat + 16 * (n % x.ringN)) (leBytes 8 b.addr.toNat ++ leBytes 4 b.pred ++ leBytes 4 b.status)
  s2.writeVa die b.ptbase (b.addr.toNat + 63) [BitVec.ofNat 8 b.status]

/-- Whose fault sink a VIEW record goes to (R150): that of the block. -/
def State.viewEnv (s : State) (die : Nat) (x : Queue) (pt : Word) (b : List Byte) : Env :=
  ⟨s.moduleNo, die * 16384, BitVec.ofNat 64 (field b 56 6 * 65536), 1, 0, 0, 0, pt, BitVec.ofNat 64 (field b 40 8), x.errq, pt⟩
/-- The blocks of an array appended in order, until one is malformed or the queue is full or disabled (R301): how many, and whether a malformed one stopped it. -/
def State.appendAll (s : State) (die q : Nat) (pt : Word) : Nat → Word → Nat → State × Nat × Bool
  | 0, _, done => (s, done, false)
  | n + 1, va, done =>
    match s.queue die q with
    | none => (s, done, false)
    | some x =>
      if !x.en || x.blocks.length ≥ x.ringN then (s, done, false)
      else match s.readBlock die pt va with
        | (s1, .error _) => (s1, done, true)
        | (s1, .ok l) => match parseBlock x va pt l with
          | none => (if badView l then s1.report (s1.viewEnv die x pt l) false false .view 0 va else s1, done, true)
          | some b => (s1.appendBlock die q x b).appendAll die q pt n (va + 64) (done + 1)

/-- GLAUNCH at its distributor (R301): the number appended in bits 12:0, bit 63 when a malformed block stopped it. -/
def State.launchAt (s : State) (q : Request) : State × Reply :=
  let w := fun i => ((q.words.drop i).headD 0)
  let r := s.appendAll q.dst.die (bits (w 0) 0 6) q.ptbase (w 2).toNat (w 1) 0
  (r.1, .done [BitVec.ofNat 64 (r.2.1 + (if r.2.2 then 2 ^ 63 else 0))])

/-- READY (R317): an APPENDED block of the named queue becomes READY; one that is not in the queue is ignored. `e` is a successor-list entry. -/
def State.makeReady (s : State) (e : Word) : State :=
  let die := bits e 58 4
  let q := bits e 52 6
  match s.queue die q with
  | none => s
  | some x => match x.blocks.findIdx? (fun b => b.addr.toNat == bits e 0 52 && b.status == 0) with
    | none => s
    | some i => match x.blocks[i]? with
      | none => s
      | some b =>
        let s1 := (s.setQueue die q { x with readies := x.readies + 1 }).setBlock die q (x.base + i) { b with readyAt := s.cycle, readyNo := x.readies }
        s1.blockStatus die q (x.base + i) 1

/-- The stream and the endpoint of a requester of the table `readys`: channel number (die × 64 + channel), 1,024 + die for a distributor, 1,040 + port die for a host interface (log 81). -/
def requesterStream (n : Nat) : BitVec 32 := Config.chanStreams + BitVec.ofNat 32 n
def State.requester (s : State) (n : Nat) : Endpoint := if n < 1024 then ⟨1, s.moduleNo, n / 64, n % 64⟩ else if n < 1040 then ⟨3, s.moduleNo, n - 1024, 1⟩ else ⟨2, s.moduleNo, n - 1040, 5⟩
def State.chanSt (s : State) (n : Nat) : ChanSt := (s.readys.find n).getD ⟨1, 0, []⟩
/-- ACKW follows the requests that have not settled. -/
def ChanSt.advance (c : ChanSt) : ChanSt :=
  { c with ackw := c.ackw + BitVec.ofNat 32 ((((c.reqs.filter (fun p => p.1.req.serialed)).map (fun p => (p.1.req.serial - c.ackw).toNat)).foldl min ((c.serial - c.ackw).toNat)) - 1) }
/-- A request of such a requester, without tag: its next serial. -/
def State.chanReq (s : State) (n : Nat) (typ : ReqType) (dst : Endpoint) (addr : Nat) (words : List Word) : Request :=
  let c := s.chanSt n
  { typ := typ, src := s.requester n, dst := dst, serialed := true, stream := requesterStream n, serial := c.serial, ack := c.ackw, sent := s.us
    addr := addr, off := 0, f := 0, lsize := 0, words := words, bytes := [], ctag := 0, va := 0, cnt := 1, guest := 0, ptbase := 0, tag := s.nextTag }
/-- A request of such a requester sent and kept until it settles (R267). The answer where there is one. -/
def State.chanSend (s0 : State) (n : Nat) (q : Request) (env : Option Env) (exe : State → State × Reply) : State × Option Reply :=
  let s : State := { s0 with nextTag := s0.nextTag + 1, readys := s0.readys.put n { s0.chanSt n with serial := (s0.chanSt n).serial + (if q.serialed then 1 else 0) } }
  let keep := fun (s : State) (tries : Nat) => ({ s with readys := s.readys.put n { s.chanSt n with
      reqs := (s.chanSt n).reqs ++ [(⟨q, true, s.cycle, s.cycle, tries, 0, tries != 0, false, []⟩, env)] } } : State).at
    (s.cycle + Config.resendCycles) (.requestRetransmit q.tag) |>.at (s.cycle + Config.giveUpCycles) (.requestGiveUp q.tag)
  match s.sendBy q exe with
  | (s1, some .busy) => ((keep s1 1).at (s.cycle + 64) (.backoffResend q.tag), none)
  | (s1, some r) => if r.settles then ({ s1 with readys := s1.readys.put n (s1.chanSt n).advance }, some r) else (keep s1 0, none)
  | (s1, none) => (keep s1 0, none)

/-- SUCCDEC at the channel of PRED (R305, R317): one less; 0 sends READY to the distributor that the entry names, 0 before is PRED_UNDERFLOW. -/
def State.succDec (s : State) (q : Request) : State × Reply :=
  let e := q.words.headD 0
  let key := q.addr % 2 ^ 44
  match s.readMem key 4 with
  | (s, none) => (s, .error .eccUncorr (BitVec.ofNat 64 (bits e 0 52 + 16)))
  | (s, some l) =>
    let n := leNat l
    if n == 0 then (s, .error .predUnderflow (BitVec.ofNat 64 (bits e 0 52)))
    else
      let s1 := s.writeMem key (leBytes 4 (n - 1))
      let ch := q.dst.die * 64 + q.dst.index
      (if n == 1 then (s1.chanSend ch (s1.chanReq ch .ready ⟨3, s.moduleNo, bits e 58 4, 1⟩ e.toNat [e]) none (fun s => (s.makeReady e, .done []))).1 else s1, .done [])

end Sys2Proof.Machine
end

