-- ==== Sys2Proof/Machine/Num.lean ====
section
/-! DEFINITION. The number formats (R165 to R169), exact values, rounding (R170 to R175) and the generator Mix (R177). -/
namespace Sys2Proof.Machine

/-- A floating format (R165): width, exponent and fraction widths, bias, whether it has infinities, whether it has a NaN. -/
structure FFmt where
  width : Nat
  eb : Nat
  mb : Nat
  bias : Nat
  hasInf : Bool
  hasNan : Bool
deriving DecidableEq, Repr

/-- The floating formats by code, 0x01 to 0x09 (R165). -/
def ffmt : Nat → Option FFmt
  | 1 => some ⟨64, 11, 52, 1023, true, true⟩
  | 2 => some ⟨32, 8, 23, 127, true, true⟩
  | 3 => some ⟨16, 8, 7, 127, true, true⟩
  | 4 => some ⟨16, 5, 10, 15, true, true⟩
  | 5 => some ⟨8, 5, 2, 15, true, true⟩
  | 6 => some ⟨8, 4, 3, 7, false, true⟩
  | 7 => some ⟨6, 3, 2, 3, false, false⟩
  | 8 => some ⟨6, 2, 3, 1, false, false⟩
  | 9 => some ⟨4, 2, 1, 1, false, false⟩
  | _ => none

/-- The integer formats by code, 0x0A to 0x13: signed, width (R165). -/
def ifmt : Nat → Option (Bool × Nat)
  | 10 => some (true, 64) | 11 => some (false, 64) | 12 => some (true, 32) | 13 => some (false, 32)
  | 14 => some (true, 16) | 15 => some (false, 16) | 16 => some (true, 8) | 17 => some (false, 8)
  | 18 => some (true, 4) | 19 => some (false, 4) | _ => none

/-- Bits of an element in memory and in a run value (R165); 0 for a code that names no format. -/
def fmtWidth (c : Nat) : Nat :=
  match ffmt c, ifmt c with
  | some f, _ => f.width
  | _, some (_, w) => w
  | _, _ => match c with | 20 => 16 | 21 => 2 | 22 => 1 | 23 => 8 | 24 => 128 | _ => 0

/-- The exception flags, in the order of R160. -/
def fNV : Nat := 16
def fDZ : Nat := 8
def fOF : Nat := 4
def fUF : Nat := 2
def fNX : Nat := 1

/-- A value read from a format: a NaN, an infinity, or the number (−1)^neg × m × 2^e. -/
inductive Val where
  | nan (signalling : Bool)
  | inf (neg : Bool)
  | num (neg : Bool) (m : Nat) (e : Int)
deriving DecidableEq, Repr

/-- The largest finite encoding without its sign. -/
def FFmt.maxFin (f : FFmt) : Nat :=
  if f.hasInf then (2 ^ f.eb - 1) * 2 ^ f.mb - 1 else if f.hasNan then 2 ^ (f.eb + f.mb) - 2 else 2 ^ (f.eb + f.mb) - 1

/-- The exponent of the unit of a subnormal. -/
def FFmt.emin (f : FFmt) : Int := 1 - (f.bias : Int) - f.mb

/-- Whether the encoding `x` is subnormal and not zero. -/
def FFmt.subnormal (f : FFmt) (x : Nat) : Bool :=
  x % 2 ^ (f.eb + f.mb) < 2 ^ f.mb && x % 2 ^ f.mb != 0

/-- Decode: the value of an encoding (R165, R166). -/
def FFmt.decode (f : FFmt) (x : Nat) : Val :=
  let neg := x / 2 ^ (f.eb + f.mb) % 2 == 1
  let ex := x / 2 ^ f.mb % 2 ^ f.eb
  let m := x % 2 ^ f.mb
  if f.hasInf && ex == 2 ^ f.eb - 1 then
    if m == 0 then .inf neg else .nan (m < 2 ^ (f.mb - 1))
  else if f.hasNan && !f.hasInf && x % 2 ^ (f.eb + f.mb) == 2 ^ (f.eb + f.mb) - 1 then .nan false
  else if ex == 0 then .num neg m f.emin
  else .num neg (2 ^ f.mb + m) (f.emin + (ex - 1 : Nat))

/-- Decode with DAZ: a subnormal input reads as zero of the same sign (R173). -/
def FFmt.decodeDaz (f : FFmt) (daz : Bool) (x : Nat) : Val :=
  if daz && f.subnormal x then .num (x / 2 ^ (f.eb + f.mb) % 2 == 1) 0 0 else f.decode x

/-- The canonical NaN (R166); +0 in a format without a NaN (R175). -/
def FFmt.nan (f : FFmt) : Nat :=
  if f.hasInf then (2 ^ f.eb - 1) * 2 ^ f.mb + 2 ^ (f.mb - 1) else if f.hasNan then 2 ^ (f.eb + f.mb) - 1 else 0

/-- An encoding with its sign bit. -/
def FFmt.signed (f : FFmt) (neg : Bool) (x : Nat) : Nat := if neg then 2 ^ (f.eb + f.mb) + x else x

/-- An infinity, or what stands for it in a format without infinities when a quotient overflows to it (R175). -/
def FFmt.inf (f : FFmt) (neg : Bool) : Nat :=
  if f.hasInf then f.signed neg ((2 ^ f.eb - 1) * 2 ^ f.mb) else if f.hasNan then f.nan else f.signed neg f.maxFin

/-- Whether an inexact magnitude is rounded up from the lower candidate (R170): `odd` is that candidate's last bit, `c` compares the rest with a half. -/
def roundUp (mode : Nat) (neg odd : Bool) (c : Ordering) : Bool :=
  match mode with
  | 1 => c == .gt || (c == .eq && odd)
  | 2 => false
  | 3 => !neg
  | 4 => neg
  | 5 => c != .lt
  | _ => !odd

/-- Rounds m × 2^e (a little more when `st`) to a multiple of 2^q: the multiple, and whether it is inexact. -/
def roundAt (mode : Nat) (neg : Bool) (m : Nat) (e : Int) (st : Bool) (q : Int) : Nat × Bool :=
  let sh := (q - e).toNat
  let n := if q ≤ e then m * 2 ^ (e - q).toNat else m / 2 ^ sh
  let r := if q ≤ e then 0 else 2 * (m % 2 ^ sh)
  let c := if q ≤ e then .lt else if r < 2 ^ sh then .lt else if r == 2 ^ sh && !st then .eq else .gt
  let inexact := r != 0 || st
  (if inexact && roundUp mode neg (n % 2 == 1) c then n + 1 else n, inexact)

/-- What an operation gives before it is rounded: a NaN (with NV or not), an infinity (with DZ or not), a real (−1)^neg × m × 2^e, a little more in magnitude when `st`. -/
inductive Res where
  | nan (nv : Bool)
  | inf (neg : Bool) (dz : Bool)
  | fin (neg : Bool) (m : Nat) (e : Int) (st : Bool)
deriving DecidableEq, Repr

/-- How a result is rounded: the mode (1 to 6), saturation, FTZ, and whether EN.UF is set (R173). -/
structure Rnd where
  mode : Nat
  sat : Bool
  ftz : Bool
  enUF : Bool
deriving DecidableEq, Repr

/-- RoundToFormat (R171 to R173) with the encodings of R165: the encoding and the flags raised. -/
def FFmt.round (f : FFmt) (r : Rnd) (neg : Bool) (m : Nat) (e : Int) (st : Bool) : Nat × Nat :=
  if m == 0 && !st then (f.signed neg 0, 0) else
  let top : Int := (Nat.log2 m : Int) + e
  let qu := top - f.mb
  let q := max qu f.emin
  let (n, inex) := roundAt r.mode neg m e st q
  let (nu, _) := roundAt r.mode neg m e st qu
  let tiny := decide (qu < f.emin) && decide (nu * 2 ^ (qu - (f.emin - 4096)).toNat < 2 ^ (4096 + f.mb))
  let mag := (q - f.emin).toNat * 2 ^ f.mb + n
  if tiny && r.ftz then (f.signed neg 0, fUF + fNX)
  else if mag > f.maxFin then
    let away := match r.mode with | 1 => true | 5 => true | 3 => !neg | 4 => neg | _ => false
    let x := if away && !r.sat && f.hasInf then f.inf neg
      else if away && !r.sat && f.hasNan then f.nan
      else f.signed neg f.maxFin
    (x, fOF + fNX)
  else (f.signed neg mag, (if tiny && (inex || r.enUF) then fUF else 0) + (if inex then fNX else 0))

/-- The encoding and flags of an operation's result (R171 to R175). -/
def FFmt.finish (f : FFmt) (r : Rnd) : Res → Nat × Nat
  | .nan nv => (f.nan, if nv || !f.hasNan then fNV else 0)
  | .inf neg dz => (f.inf neg, if dz then fDZ else 0)
  | .fin neg m e st => f.round r neg m e st

/-- A conversion's operand that is infinite, into a floating format (R172). -/
def FFmt.fromInf (f : FFmt) (r : Rnd) (neg : Bool) : Nat × Nat :=
  if f.hasInf && !r.sat then (f.inf neg, 0)
  else if f.hasInf || !f.hasNan || r.sat then (f.signed neg f.maxFin, fOF + fNX)
  else (f.nan, fOF + fNX)

/-- A value into a floating format: the conversion rules of R171 to R173, R175. -/
def FFmt.convert (f : FFmt) (r : Rnd) : Val → Nat × Nat
  | .nan s => f.finish r (.nan s)
  | .inf neg => f.fromInf r neg
  | .num neg m e => f.round r neg m e false

/-- The bounds of an integer format. -/
def intMin (sg : Bool) (w : Nat) : Int := if sg then -(2 : Int) ^ (w - 1) else 0
def intMax (sg : Bool) (w : Nat) : Int := if sg then (2 : Int) ^ (w - 1) - 1 else (2 : Int) ^ w - 1

/-- A number's w low bits. -/
def wrapInt (w : Nat) (x : Int) : Nat := (x % (2 : Int) ^ w).toNat

/-- A value into an integer format (R172, R175, R195): the w-bit encoding and the flags. -/
def toIntFmt (sg : Bool) (w : Nat) (mode : Nat) : Val → Nat × Nat
  | .nan _ => (0, fNV)
  | .inf neg => (wrapInt w (if neg then intMin sg w else intMax sg w), fNV)
  | .num neg m e =>
    let (n, inex) := roundAt mode neg m e false 0
    let x : Int := if neg then -(n : Int) else n
    if x < intMin sg w then (wrapInt w (intMin sg w), fNV)
    else if x > intMax sg w then (wrapInt w (intMax sg w), fNV)
    else (wrapInt w x, if inex then fNX else 0)

/-- The signed or unsigned number in the low w bits. -/
def intOf (sg : Bool) (w : Nat) (x : Nat) : Int :=
  let y := x % 2 ^ w
  if sg && y ≥ 2 ^ (w - 1) then (y : Int) - 2 ^ w else y

/-- An integer as a value. -/
def Val.ofInt (x : Int) : Val := .num (x < 0) x.natAbs 0

/-- The value of an element of any scalar format (R165 to R169); T2's 10b is 0 (R169). -/
def decodeElem (code : Nat) (daz : Bool) (x : Nat) : Val :=
  match ffmt code, ifmt code with
  | some f, _ => f.decodeDaz daz x
  | _, some (sg, w) => .ofInt (intOf sg w x)
  | _, _ => match code with
    | 21 => match x % 4 with | 1 => .num false 1 0 | 3 => .num true 1 0 | _ => .num false 0 0
    | 22 => .num false (x % 2) 0
    | 23 => if x % 256 == 255 then .nan false else .num false 1 ((x % 256 : Nat) - 127)
    | _ => .num false 0 0

/-- A value into an element of a floating or integer format, or BOOL (0 when it is zero, else 1). -/
def encodeElem (code : Nat) (r : Rnd) (v : Val) : Nat × Nat :=
  match ffmt code, ifmt code with
  | some f, _ => f.convert r v
  | _, some (sg, w) => toIntFmt sg w r.mode v
  | _, _ => (match v with | .num _ 0 _ => 0 | _ => 1, 0)

/-- Signed comparison of two numbers (−1)^neg × m × 2^e; zeros are equal. -/
def cmpNum (n1 : Bool) (m1 : Nat) (e1 : Int) (n2 : Bool) (m2 : Nat) (e2 : Int) : Ordering :=
  let e := min e1 e2
  let a : Int := m1 * 2 ^ (e1 - e).toNat
  let b : Int := m2 * 2 ^ (e2 - e).toNat
  compare (if n1 then -a else a) (if n2 then -b else b)

/-- The order of two values; none when a NaN is among them. -/
def Val.cmp : Val → Val → Option Ordering
  | .nan _, _ => none
  | _, .nan _ => none
  | .inf a, .inf b => some (compare b.toNat a.toNat)
  | .inf a, .num .. => some (if a then .lt else .gt)
  | .num .., .inf b => some (if b then .gt else .lt)
  | .num n1 m1 e1, .num n2 m2 e2 => some (cmpNum n1 m1 e1 n2 m2 e2)

def Val.isNan : Val → Bool
  | .nan _ => true
  | _ => false
def Val.isSig : Val → Bool
  | .nan s => s
  | _ => false
def Val.neg : Val → Val
  | .nan s => .nan s
  | .inf n => .inf (!n)
  | .num n m e => .num (!n) m e
def Val.negative : Val → Bool
  | .nan _ => false
  | .inf n => n
  | .num n _ _ => n

/-- The sum of two numbers; an exact zero sum of opposite signs is +0, in RD −0 (R171). -/
def addNum (mode : Nat) (n1 : Bool) (m1 : Nat) (e1 : Int) (n2 : Bool) (m2 : Nat) (e2 : Int) : Res :=
  let e := min e1 e2
  let a : Int := m1 * 2 ^ (e1 - e).toNat
  let b : Int := m2 * 2 ^ (e2 - e).toNat
  let x : Int := (if n1 then -a else a) + (if n2 then -b else b)
  if x == 0 then .fin (if n1 == n2 then n1 else mode == 4) 0 0 false
  else .fin (decide (x < 0)) x.natAbs e false

/-- x + y (R171, R175). -/
def Val.add (mode : Nat) : Val → Val → Res
  | .nan a, .nan b => .nan (a || b)
  | .nan a, _ => .nan a
  | _, .nan b => .nan b
  | .inf a, .inf b => if a == b then .inf a false else .nan true
  | .inf a, .num .. => .inf a false
  | .num .., .inf b => .inf b false
  | .num n1 m1 e1, .num n2 m2 e2 => addNum mode n1 m1 e1 n2 m2 e2

/-- The exact product as a value; none for 0 × infinity. -/
def Val.times : Val → Val → Option Val
  | .inf a, .inf b => some (.inf (a != b))
  | .inf a, .num n m _ => if m == 0 then none else some (.inf (a != n))
  | .num n m _, .inf b => if m == 0 then none else some (.inf (b != n))
  | .num n1 m1 e1, .num n2 m2 e2 => some (.num (n1 != n2) (m1 * m2) (e1 + e2))
  | .nan a, .nan b => some (.nan (a || b))
  | .nan a, _ => some (.nan a)
  | _, .nan b => some (.nan b)

/-- A value as a result, exact. -/
def Val.res : Val → Res
  | .nan s => .nan s
  | .inf n => .inf n false
  | .num n m e => .fin n m e false

/-- x × y. -/
def Val.mul (x y : Val) : Res :=
  match x.times y with
  | some v => v.res
  | none => .nan true

/-- x × y + z with one rounding; 0 × infinity raises NV even with a quiet NaN addend (R192). -/
def Val.fma (mode : Nat) (x y z : Val) : Res :=
  match x.times y with
  | none => .nan true
  | some p => match p.add mode z with
    | .nan nv => .nan (nv || x.isSig || y.isSig || z.isSig)
    | r => r

/-- x / y (R175). -/
def Val.div : Val → Val → Res
  | .nan a, .nan b => .nan (a || b)
  | .nan a, _ => .nan a
  | _, .nan b => .nan b
  | .inf _, .inf _ => .nan true
  | .inf a, .num n _ _ => .inf (a != n) false
  | .num n _ _, .inf b => .fin (n != b) 0 0 false
  | .num n1 m1 e1, .num n2 m2 e2 =>
    if m2 == 0 then if m1 == 0 then .nan true else .inf (n1 != n2) true
    else
      let k := Nat.log2 m2 + 70
      .fin (n1 != n2) (m1 * 2 ^ k / m2) (e1 - e2 - k) (m1 * 2 ^ k % m2 != 0)

/-- The whole part of a square root, bit by bit from bit `k − 1` down. -/
def isqrt (n : Nat) : Nat → Nat → Nat
  | 0, r => r
  | k + 1, r => isqrt n k (if (r + 2 ^ k) * (r + 2 ^ k) ≤ n then r + 2 ^ k else r)

/-- The square root (R175, R192): −0 gives −0. -/
def Val.sqrt : Val → Res
  | .nan s => .nan s
  | .inf n => if n then .nan true else .inf false false
  | .num n m e =>
    if m == 0 then .fin n 0 0 false
    else if n then .nan true
    else
      let m2 := if e % 2 == 0 then m else 2 * m
      let e2 := if e % 2 == 0 then e else e - 1
      let x := m2 * 2 ^ 140
      let r := isqrt x 128 0
      .fin false r (e2 / 2 - 70) (r * r != x)

/-- minimumNumber and maximumNumber (R193): the chosen operand and whether NV is raised; −0 is below +0. -/
def Val.pick (max : Bool) (x y : Val) : Val × Bool :=
  let nv := x.isSig || y.isSig
  if x.isNan && y.isNan then (.nan false, nv)
  else if x.isNan then (y, nv)
  else if y.isNan then (x, nv)
  else
    let lt := match x.cmp y with | some .lt => true | some .eq => x.negative && !y.negative | _ => false
    (if lt != max then x else y, nv)

/-- The condition cc of FCMP (R194) and NV. -/
def fcmp (cc : Nat) (x y : Val) : Bool × Bool :=
  let c := x.cmp y
  let q := x.isNan || y.isNan
  let r := match cc with
    | 0 => c == some .eq
    | 1 => c == some .lt
    | 2 => c == some .lt || c == some .eq
    | 3 => q
    | 4 => c != some .eq
    | 5 => c == some .lt
    | _ => c == some .lt || c == some .eq
  (r, x.isSig || y.isSig || (q && (cc == 1 || cc == 2)))

/-- FCLASS (R196): the bit number of the class. -/
def FFmt.classOf (f : FFmt) (x : Nat) : Nat :=
  match f.decode x with
  | .nan s => if s then 8 else 9
  | .inf n => if n then 0 else 7
  | .num n m _ =>
    if m == 0 then (if n then 3 else 4)
    else if f.subnormal x then (if n then 2 else 5) else (if n then 1 else 6)

/-- One round of Mix. -/
def mixRound (key x : Word) (rc : Word) : Word :=
  let y := x * 0xB3D15E2784A9C06F#64
  (y ^^^ (y >>> 29)) + (rc ^^^ key)

/-- Mix(key, ctr) (R177). -/
def mix (key ctr : Word) : Word :=
  mixRound key (mixRound key (mixRound key (mixRound key ctr 0x5A17C3E90D42B6F1#64) 0x2E947B05C8D316AB#64) 0x91F04C6DB72E835D#64) 0x4C3BE8126F59D0A7#64

end Sys2Proof.Machine
end

