-- ==== Sys2Proof/Machine/Flags.lean ====
section
/-! DEFINITION. Rounding modes (R35, R170), exception flags and traps of arithmetic (R160, R176), and long-latency results (R24, R25, R27). -/
namespace Sys2Proof.Machine

/-- K.FPCSR's fields (R160). -/
def Thread.rm (t : Thread) : Nat := bits t.fpcsr 0 3
def Thread.enables (t : Thread) : Nat := bits t.fpcsr 8 5
def Thread.ftz (t : Thread) : Bool := t.fpcsr.getLsbD 13
def Thread.daz (t : Thread) : Bool := t.fpcsr.getLsbD 14
/-- The rounding mode of a word whose rounding field holds `code` (R35, R170): the field, else the override, else K.FPCSR. -/
def Thread.mode (t : Thread) (code : Nat) : Nat := if code != 0 then code else if t.rv then bits t.pfx 24 3 else t.rm
/-- How a result of the thread is rounded. -/
def Thread.rnd (t : Thread) (code : Nat) (sat : Bool) : Rnd := ⟨t.mode code, sat, t.ftz, t.enables / 2 % 2 == 1⟩

/-- Whether flags meet an enable: the word traps, with nothing written (R176). -/
def Thread.fpTraps (t : Thread) (fl : Nat) : Bool := fl &&& t.enables != 0

/-- A result that is in place for the thread's next word, with its flags. -/
def fpNow (s : State) (t : Thread) (d : Reg) (r : Nat × Nat) : WordRes :=
  if t.fpTraps r.2 then .trap s .fpException (BitVec.ofNat 64 r.2)
  else .next ((t.wr d (BitVec.ofNat 64 r.1)).orFlags r.2) 0

/-- A result of a long-latency word with minimum stall count `mn` (R24): an undersized word without trap enables leaves it pending (R25);
otherwise the next word waits until it lands (R27). A trap is taken when the result lands (R353). -/
def longResult (s : State) (t : Thread) (c : Ctl) (mn : Nat) (d : Reg) (v : Word) (fl : Nat) : WordRes :=
  let land := s.cycle + 8 * (mn + 1)
  if t.fpTraps fl then
    .trap (s.put { t with pend := t.pend ++ [⟨0#6, 0, 0, land, t.pc⟩] }) .fpException (BitVec.ofNat 64 fl)
  else if c.w.toNat < mn && t.enables == 0 then
    let t1 := t.wr d (t.rd d)
    .done ((s.put { t1 with pend := t1.pend ++ [⟨d, v, BitVec.ofNat 5 fl, land, t.pc⟩] }).at land (.longResultLand s.k s.sl)) 0
  else .next ((t.wr d v).orFlags fl) land

end Sys2Proof.Machine
end

