-- ==== Sys2Proof/Machine/Scalar.lean ====
section
/-! DEFINITION. The integer groups, immediates and constants (R181 to R187). -/
namespace Sys2Proof.Machine

/-- What every meaning answers. -/
abbrev Out := Host.Outcome State Fault Refusal

/-- An RRR word whose result from G[a] and G[b] is in place for the next word. -/
def alu (i : Instr) (c : Ctl) (d a b : Reg) (f : Word → Word → Word) : State → State :=
  runWord i c { reads := [a, b], writes := [d] } (fun _ t => .next (t.wr d (f (t.rd a) (t.rd b))) 0)
/-- A word with one source register. -/
def alu1 (i : Instr) (c : Ctl) (d a : Reg) (f : Word → Word) : State → State :=
  runWord i c { reads := [a], writes := [d] } (fun _ t => .next (t.wr d (f (t.rd a))) 0)
/-- A division word: minimum stall count 3, no flag (R24, R182). -/
def divWord (i : Instr) (c : Ctl) (d a b : Reg) (f : Word → Word → Word) : State → State :=
  runWord i c { reads := [a, b], writes := [d] } (fun s t => longResult s t c 3 d (f (t.rd a) (t.rd b)) 0)
/-- An RI word: its immediate is imm9 or widened (R185, R33). -/
def aluImm (i : Instr) (c : Ctl) (d a : Reg) (imm : BitVec 9) (f : Word → Word → Word) : State → State :=
  runWord i c { immOk := true, reads := [a], writes := [d] } (fun _ t => .next (t.wr d (f (t.rd a) (t.widen imm))) 0)
/-- An RI shift: an amount outside 0 to 63 is ILLEGAL (R185). -/
def shiftImm (i : Instr) (c : Ctl) (d a : Reg) (imm : BitVec 9) (f : Word → Nat → Word) : State → State :=
  runWord i c { immOk := true, bad := fun t => decide (63 < (t.widen imm).toNat), reads := [a], writes := [d] }
    (fun _ t => .next (t.wr d (f (t.rd a) (t.widen imm).toNat)) 0)

/-- A shift amount: bits 5:0 (R181). -/
def amount (x : Word) : Nat := bits x 0 6
/-- Division and remainder (R181, R182). -/
def sdivide (x y : Word) : Word := if y = 0 then BitVec.allOnes 64 else x.sdiv y
def udivide (x y : Word) : Word := if y = 0 then BitVec.allOnes 64 else x / y
def sremain (x y : Word) : Word := if y = 0 then x else x.srem y
def uremain (x y : Word) : Word := if y = 0 then x else x % y
/-- Bits 127:64 of the products. -/
def mulHighS (x y : Word) : Word := BitVec.ofInt 64 (x.toInt * y.toInt / 2 ^ 64)
def mulHighU (x y : Word) : Word := BitVec.ofNat 64 (x.toNat * y.toNat / 2 ^ 64)
def minS (x y : Word) : Word := if x.slt y then x else y
def maxS (x y : Word) : Word := if x.slt y then y else x
def minU (x y : Word) : Word := if x.ult y then x else y
def maxU (x y : Word) : Word := if x.ult y then y else x
def clz64 (x : Word) : Word := if x = 0 then 64 else BitVec.ofNat 64 (63 - Nat.log2 x.toNat)
def popc64 (x : Word) : Word := BitVec.ofNat 64 ((List.range 64).filter (fun i => x.getLsbD i)).length
/-- The condition of CMP (R183). -/
def compareCc (cc : BitVec 3) (x y : Word) : Bool :=
  match cc.toNat with
  | 0 => x == y | 1 => x != y | 2 => x.slt y | 3 => !x.slt y
  | 4 => x.ult y | 5 => !x.ult y | 6 => x &&& y != 0 | _ => x &&& y == 0
def boolWord (b : Bool) : Word := if b then 1 else 0
/-- A single set bit. -/
def oneBit (y : Word) : Word := 1#64 <<< amount y

def execAdd (c : Ctl) (d a b : Reg) (s : State) : Out := .next (alu (.add c d a b) c d a b (· + ·) s)
def execSub (c : Ctl) (d a b : Reg) (s : State) : Out := .next (alu (.sub c d a b) c d a b (· - ·) s)
def execAnd (c : Ctl) (d a b : Reg) (s : State) : Out := .next (alu (.and c d a b) c d a b (· &&& ·) s)
def execOr (c : Ctl) (d a b : Reg) (s : State) : Out := .next (alu (.or c d a b) c d a b (· ||| ·) s)
def execXor (c : Ctl) (d a b : Reg) (s : State) : Out := .next (alu (.xor c d a b) c d a b (· ^^^ ·) s)
def execShl (c : Ctl) (d a b : Reg) (s : State) : Out := .next (alu (.shl c d a b) c d a b (fun x y => x <<< amount y) s)
def execShr (c : Ctl) (d a b : Reg) (s : State) : Out := .next (alu (.shr c d a b) c d a b (fun x y => x >>> amount y) s)
def execSra (c : Ctl) (d a b : Reg) (s : State) : Out := .next (alu (.sra c d a b) c d a b (fun x y => x.sshiftRight (amount y)) s)
def execMul (c : Ctl) (d a b : Reg) (s : State) : Out := .next (alu (.mul c d a b) c d a b (· * ·) s)
def execMulh (c : Ctl) (d a b : Reg) (s : State) : Out := .next (alu (.mulh c d a b) c d a b mulHighS s)
def execMulhu (c : Ctl) (d a b : Reg) (s : State) : Out := .next (alu (.mulhu c d a b) c d a b mulHighU s)
def execMin (c : Ctl) (d a b : Reg) (s : State) : Out := .next (alu (.min_ c d a b) c d a b minS s)
def execMax (c : Ctl) (d a b : Reg) (s : State) : Out := .next (alu (.max_ c d a b) c d a b maxS s)
def execMinu (c : Ctl) (d a b : Reg) (s : State) : Out := .next (alu (.minu c d a b) c d a b minU s)
def execMaxu (c : Ctl) (d a b : Reg) (s : State) : Out := .next (alu (.maxu c d a b) c d a b maxU s)
def execRol (c : Ctl) (d a b : Reg) (s : State) : Out := .next (alu (.rol c d a b) c d a b (fun x y => x.rotateLeft (amount y)) s)
def execRor (c : Ctl) (d a b : Reg) (s : State) : Out := .next (alu (.ror c d a b) c d a b (fun x y => x.rotateRight (amount y)) s)
def execBset (c : Ctl) (d a b : Reg) (s : State) : Out := .next (alu (.bset c d a b) c d a b (fun x y => x ||| oneBit y) s)
def execBclr (c : Ctl) (d a b : Reg) (s : State) : Out := .next (alu (.bclr c d a b) c d a b (fun x y => x &&& ~~~oneBit y) s)
def execBinv (c : Ctl) (d a b : Reg) (s : State) : Out := .next (alu (.binv c d a b) c d a b (fun x y => x ^^^ oneBit y) s)
def execBext (c : Ctl) (d a b : Reg) (s : State) : Out := .next (alu (.bext c d a b) c d a b (fun x y => boolWord (x.getLsbD (amount y))) s)
def execCrnd (c : Ctl) (d a b : Reg) (s : State) : Out := .next (alu (.crnd c d a b) c d a b mix s)
def execDiv (c : Ctl) (d a b : Reg) (s : State) : Out := .next (divWord (.div c d a b) c d a b sdivide s)
def execDivu (c : Ctl) (d a b : Reg) (s : State) : Out := .next (divWord (.divu c d a b) c d a b udivide s)
def execRem (c : Ctl) (d a b : Reg) (s : State) : Out := .next (divWord (.rem c d a b) c d a b sremain s)
def execRemu (c : Ctl) (d a b : Reg) (s : State) : Out := .next (divWord (.remu c d a b) c d a b uremain s)
def execClz (c : Ctl) (d a : Reg) (s : State) : Out := .next (alu1 (.clz c d a) c d a clz64 s)
def execPopc (c : Ctl) (d a : Reg) (s : State) : Out := .next (alu1 (.popc c d a) c d a popc64 s)
def execCmp (c : Ctl) (cc : BitVec 3) (d a b : Reg) (s : State) : Out := .next (alu (.cmp c cc d a b) c d a b (fun x y => boolWord (compareCc cc x y)) s)
/-- The source of a SEL (R184): the guard is read as a guarded word reads it (R29). -/
def Thread.selected (t : Thread) (a b : Reg) : Reg := if t.guardHolds then a else b
/-- SEL (R184): it reads the guard register and the source that the guard selects. -/
def execSel (c : Ctl) (d a b : Reg) (s : State) : Out :=
  .next (runWord (.sel c d a b) c { more := fun t => [t.guardReg, t.selected a b], writes := [d] } (fun _ t => .next (t.wr d (t.rd (t.selected a b))) 0) s)
def execAddi (c : Ctl) (d a : Reg) (imm : BitVec 9) (s : State) : Out := .next (aluImm (.addi c d a imm) c d a imm (· + ·) s)
def execAndi (c : Ctl) (d a : Reg) (imm : BitVec 9) (s : State) : Out := .next (aluImm (.andi c d a imm) c d a imm (· &&& ·) s)
def execOri (c : Ctl) (d a : Reg) (imm : BitVec 9) (s : State) : Out := .next (aluImm (.ori c d a imm) c d a imm (· ||| ·) s)
def execXori (c : Ctl) (d a : Reg) (imm : BitVec 9) (s : State) : Out := .next (aluImm (.xori c d a imm) c d a imm (· ^^^ ·) s)
def execShli (c : Ctl) (d a : Reg) (imm : BitVec 9) (s : State) : Out := .next (shiftImm (.shli c d a imm) c d a imm (fun x n => x <<< n) s)
def execShri (c : Ctl) (d a : Reg) (imm : BitVec 9) (s : State) : Out := .next (shiftImm (.shri c d a imm) c d a imm (fun x n => x >>> n) s)
def execSrai (c : Ctl) (d a : Reg) (imm : BitVec 9) (s : State) : Out := .next (shiftImm (.srai c d a imm) c d a imm (fun x n => x.sshiftRight n) s)
/-- MOVI (R186). -/
def execMovi (c : Ctl) (d : Reg) (imm : BitVec 15) (s : State) : Out :=
  .next (runWord (.movi c d imm) c { immOk := true, writes := [d] } (fun _ t => .next (t.wr d (t.widen imm)) 0) s)
/-- MOVS (R186). -/
def execMovs (c : Ctl) (d : Reg) (imm : BitVec 15) (s : State) : Out :=
  .next (runWord (.movs c d imm) c { immOk := true, reads := [d], writes := [d] } (fun _ t =>
    .next (t.wr d (if t.iv then (t.rd d <<< 37) ||| BitVec.ofNat 64 (t.immh * 2 ^ 15 + imm.toNat)
      else (t.rd d <<< 15) ||| imm.setWidth 64)) 0) s)

end Sys2Proof.Machine
end

