-- ==== Sys2Proof/Machine/Float.lean ====
section
/-! DEFINITION. Scalar floating point (R192 to R197). -/
namespace Sys2Proof.Machine

/-- The format that f selects: 0 .d, 1 .s, 2 .h, 3 .bf (R192). -/
def scalarFmt (f : Nat) : FFmt :=
  match f with
  | 0 => ⟨64, 11, 52, 1023, true, true⟩ | 1 => ⟨32, 8, 23, 127, true, true⟩
  | 2 => ⟨16, 5, 10, 15, true, true⟩ | _ => ⟨16, 8, 7, 127, true, true⟩
/-- A register read in a format: its low bits, with DAZ (R153, R173). -/
def Thread.fval (t : Thread) (f : FFmt) (r : Reg) : Val := f.decodeDaz t.daz ((t.rd r).toNat % 2 ^ f.width)

/-- A floating word whose result is in place for the next word (R192). -/
def fpWord (i : Instr) (c : Ctl) (fmt : BitVec 2) (reads : List Reg) (d : Reg) (g : Thread → FFmt → Nat → Res) : State → State :=
  runWord i c { reads := reads, writes := [d] } (fun s t =>
    let f := scalarFmt fmt.toNat
    fpNow s t d (f.finish (t.rnd 0 false) (g t f (t.mode 0))))
/-- FDIV and FSQRT (R24): minimum 2 for .d, 1 for .s, 0 for the others. -/
def fpLong (i : Instr) (c : Ctl) (fmt : BitVec 2) (reads : List Reg) (d : Reg) (g : Thread → FFmt → Res) : State → State :=
  runWord i c { reads := reads, writes := [d] } (fun s t =>
    let f := scalarFmt fmt.toNat
    let r := f.finish (t.rnd 0 false) (g t f)
    longResult s t c (2 - fmt.toNat) d (BitVec.ofNat 64 r.1) r.2)
/-- FMIN and FMAX (R193): a number result raises no flag. -/
def fpPick (i : Instr) (c : Ctl) (fmt : BitVec 2) (d a b : Reg) (mx : Bool) : State → State :=
  runWord i c { reads := [a, b], writes := [d] } (fun s t =>
    let f := scalarFmt fmt.toNat
    let p := Val.pick mx (t.fval f a) (t.fval f b)
    fpNow s t d ((f.finish ⟨1, false, false, false⟩ p.1.res).1, if p.2 then fNV else 0))
/-- FCMP (R194). -/
def fpCompare (i : Instr) (c : Ctl) (f : FFmt) (cc : BitVec 3) (d a b : Reg) : State → State :=
  runWord i c { reads := [a, b], writes := [d] } (fun s t =>
    let r := fcmp cc.toNat (t.fval f a) (t.fval f b)
    fpNow s t d (r.1.toNat, if r.2 then fNV else 0))

def execFadd (c : Ctl) (fmt : BitVec 2) (d a b : Reg) (s : State) : Out :=
  .next (fpWord (.fadd c fmt d a b) c fmt [a, b] d (fun t f m => (t.fval f a).add m (t.fval f b)) s)
def execFsub (c : Ctl) (fmt : BitVec 2) (d a b : Reg) (s : State) : Out :=
  .next (fpWord (.fsub c fmt d a b) c fmt [a, b] d (fun t f m => (t.fval f a).add m (t.fval f b).neg) s)
def execFmul (c : Ctl) (fmt : BitVec 2) (d a b : Reg) (s : State) : Out :=
  .next (fpWord (.fmul c fmt d a b) c fmt [a, b] d (fun t f _ => (t.fval f a).mul (t.fval f b)) s)
def execFma (c : Ctl) (fmt : BitVec 2) (d a b : Reg) (s : State) : Out :=
  .next (fpWord (.fma c fmt d a b) c fmt [a, b, d] d (fun t f m => (t.fval f a).fma m (t.fval f b) (t.fval f d)) s)
def execFdiv (c : Ctl) (fmt : BitVec 2) (d a b : Reg) (s : State) : Out :=
  .next (fpLong (.fdiv c fmt d a b) c fmt [a, b] d (fun t f => (t.fval f a).div (t.fval f b)) s)
def execFsqrt (c : Ctl) (fmt : BitVec 2) (d a : Reg) (s : State) : Out :=
  .next (fpLong (.fsqrt c fmt d a) c fmt [a] d (fun t f => (t.fval f a).sqrt) s)
def execFmin (c : Ctl) (fmt : BitVec 2) (d a b : Reg) (s : State) : Out := .next (fpPick (.fmin c fmt d a b) c fmt d a b false s)
def execFmax (c : Ctl) (fmt : BitVec 2) (d a b : Reg) (s : State) : Out := .next (fpPick (.fmax c fmt d a b) c fmt d a b true s)
def execFcmpD (c : Ctl) (cc : BitVec 3) (d a b : Reg) (s : State) : Out := .next (fpCompare (.fcmpD c cc d a b) c (scalarFmt 0) cc d a b s)
def execFcmpS (c : Ctl) (cc : BitVec 3) (d a b : Reg) (s : State) : Out := .next (fpCompare (.fcmpS c cc d a b) c (scalarFmt 1) cc d a b s)

/-- The format code of an FCVT type (R195). -/
def cvtCode (x : Nat) : Nat :=
  match x with
  | 0 => 1 | 1 => 2 | 2 => 4 | 3 => 3 | 4 => 10 | 5 => 11 | 6 => 12 | _ => 13
/-- FCVT (R195): an INT32 result is sign-extended. -/
def execFcvt (c : Ctl) (src rnd dst : BitVec 3) (d a : Reg) (s : State) : Out :=
  .next (runWord (.fcvt c src rnd dst d a) c { roOk := true, reads := [a], writes := [d] } (fun s t =>
    let sc := cvtCode src.toNat
    let x := decodeElem sc t.daz ((t.rd a).toNat % 2 ^ fmtWidth sc)
    let r := encodeElem (cvtCode dst.toNat) (t.rnd rnd.toNat false) x
    fpNow s t d (if dst.toNat == 6 then (sext 32 r.1).toNat else r.1, r.2)) s)
/-- FCLASS (R196): one bit, no flag. -/
def execFclass (c : Ctl) (fmt : BitVec 2) (d a : Reg) (s : State) : Out :=
  .next (runWord (.fclass c fmt d a) c { reads := [a], writes := [d] } (fun _ t =>
    let f := scalarFmt fmt.toNat
    .next (t.wr d (1#64 <<< f.classOf ((t.rd a).toNat % 2 ^ f.width))) 0) s)

end Sys2Proof.Machine
end

