-- ==== Sys2Proof/Machine/Vector.lean ====
section
/-! DEFINITION. The run-length vector unit (R202 to R217): lanes, lining up runs, arithmetic, reductions, conversions. -/
namespace Sys2Proof.Machine

/-! ### Runs -/

def VecReg.len (v : VecReg) : Nat := v.runs.foldl (fun n r => n + r.count) 0
def VecReg.empty : VecReg := ⟨0, []⟩
/-- A general register named by a 4-bit field (R20). -/
def regOf (v : VReg) : Reg := v.setWidth 6

/-- The stream without its first `n` elements, `n` at most its first count. -/
def advance (n : Nat) : List Run → List Run
  | [] => []
  | r :: l => if n < r.count then { r with count := r.count - n } :: l else l
/-- The pieces of R206: the values of all streams and how many elements they last. -/
def pieces : Nat → List (List Run) → List (List Word × Nat)
  | 0, _ => []
  | fuel + 1, ss =>
    if ss.any List.isEmpty || ss.isEmpty then [] else
    let n := (ss.map (fun r => (r.headD ⟨0, 0⟩).count)).foldl min 65535
    (ss.map (fun r => (r.headD ⟨0, 0⟩).value), n) :: pieces fuel (ss.map (advance n))
def piecesOf (ss : List (List Run)) : List (List Word × Nat) := pieces ((ss.map List.length).foldl (· + ·) 1) ss

/-- Append (R206) to the runs built so far, last first; none when they are at capacity. -/
def append (cap : Nat) (out : List Run) (v : Word) (n : Nat) : Option (List Run) :=
  match out with
  | r :: l => if r.value = v then some ({ r with count := r.count + n } :: l)
    else if out.length ≥ cap then none else some (⟨v, n⟩ :: out)
  | [] => if cap = 0 then none else some [⟨v, n⟩]
/-- The result of appending values with their flags: the runs, the flags of the pieces kept, and the cut index of an overflow (R208). -/
def build (cap : Nat) : List (Word × Nat × Nat) → List Run → Nat → Nat → List Run × Nat × Option Nat
  | [], out, _, fl => (out.reverse, fl, none)
  | (v, n, f) :: l, out, pos, fl =>
    match append cap out v n with
    | some out1 => build cap l out1 (pos + n) (fl ||| f)
    | none => (out.reverse, fl, some pos)

/-- The pieces that are computed: all of them, or those up to the one that overflows (R206, R208, R209). -/
def computed : List (Word × Nat × Nat) → Option Nat → Nat
  | [], _ => 0
  | l, none => l.length
  | (_, n, _) :: l, some k => if k < n then 1 else computed l (some (k - n)) + 1

/-! ### Checks -/

def isFloatC (c : Nat) : Bool := 1 ≤ c && c ≤ 9
def isIntC (c : Nat) : Bool := 10 ≤ c && c ≤ 19 && c % 2 == 0
def isNatC (c : Nat) : Bool := 10 ≤ c && c ≤ 19 && c % 2 == 1
def isArithC (c : Nat) : Bool := 1 ≤ c && c ≤ 19
def isBoolC (c : Nat) : Bool := c == 22
def isAnyC (c : Nat) : Bool := isArithC c || c == 22 || c == 23
def notE8m0 (c : Nat) : Bool := isArithC c || c == 22

/-- FORMAT unless the register's code satisfies `p` (R210); an EMPTY one never does. -/
def fmtFault (v : VecReg) (p : Nat → Bool) : Option (Cause × Word) :=
  if v.fmt.toNat != 0 && p v.fmt.toNat then none else some (.format, v.fmt.setWidth 64)
/-- LENGTH against the length of va (R207). -/
def lenFault (va : VecReg) (v : VecReg) : Option (Cause × Word) :=
  if v.len == va.len then none else some (.length, BitVec.ofNat 64 (va.len * 65536 + v.len))
/-- The first fault of a list. -/
def firstFault (l : List (Option (Cause × Word))) : Option (Cause × Word) := (l.filterMap id).head?

/-- The end of a vector word: the hold of R209 for `p` pieces. VRCO has a piece for each run, VRUNS, VLEN and VELEM have none (log 92). -/
def vecTime (s : State) (t : Thread) (p : Nat) : Nat := s.cycle + 8 + (p + t.claim - 1) / t.claim

/-- The result of a word that appends `vals` (R206 to R209): overflow, traps, the register, its length in g(vd) under .CLIP, the flags. -/
def putVector (s : State) (t : Thread) (clip : Bool) (vd : VReg) (fmt : Nat) (vals : List (Word × Nat × Nat)) : WordRes :=
  match build (8 * t.claim) vals [] 0 0 with
  | (runs, fl, cut) =>
    if cut.isSome && !clip then .trap s .runOverflow (BitVec.ofNat 64 (cut.getD 0))
    else if t.fpTraps fl then .trap s .fpException (BitVec.ofNat 64 fl)
    else
      let v : VecReg := ⟨BitVec.ofNat 5 fmt, runs⟩
      let t1 := (t.vw vd v).orFlags fl
      .next (if clip then t1.wr (regOf vd) (BitVec.ofNat 64 v.len) else t1) (vecTime s t (computed vals cut))

/-- A vector word: without lanes it raises NOLANES (R205). -/
def vecWord (i : Instr) (c : Ctl) (f : Form) (body : State → Thread → WordRes) : State → State :=
  runWord i c f (fun s t => if t.claim = 0 then .trap s .noLanes 0 else body s t)

/-- An element-wise word over the streams va, then `others` of va's format, then vd where it is an addend, with mask and clip (R206 to R211).
`op` computes a piece from the values in that order; `res` is the result's format. -/
def elementWise (s : State) (t : Thread) (clip m : Bool) (vd : VReg) (va : VecReg) (ok : Nat → Bool) (others : List VecReg)
    (res : Nat → Nat) (op : Nat → List Word → Nat × Nat) : WordRes :=
  let f := va.fmt.toNat
  let v0 := t.vr 0
  let old := t.vr vd
  let bad := firstFault ([fmtFault va ok] ++ others.map (fun v => fmtFault v (· == f))
    ++ (if m then [fmtFault v0 isBoolC, fmtFault old (· == res f)] else [])
    ++ others.map (lenFault va) ++ (if m then [lenFault va v0, lenFault va old] else []))
  match bad with
  | some e => .trap s e.1 e.2
  | none =>
    let ss := (if m then [v0.runs, old.runs] else []) ++ va.runs :: others.map VecReg.runs
    let ps := piecesOf ss
    let vals := ps.map (fun p =>
      if m then
        if p.1.headD 0 = 1 then let r := op f (p.1.drop 2); (BitVec.ofNat 64 r.1, p.2, r.2) else ((p.1.drop 1).headD 0, p.2, 0)
      else let r := op f p.1; (BitVec.ofNat 64 r.1, p.2, r.2))
    putVector s t clip vd (res f) vals

/-- The second operand: a register, or under .S a stream of one general register's low bits in va's format (R207). -/
def operandB (t : Thread) (sc : Bool) (va : VecReg) (vb : VReg) : VecReg :=
  if sc then
    ⟨va.fmt, if va.len = 0 then [] else [⟨BitVec.ofNat 64 ((t.rd (regOf vb)).toNat % 2 ^ fmtWidth va.fmt.toNat), va.len⟩]⟩
  else t.vr vb

/-- A binary VARITH word. -/
def vecBinary (i : Instr) (c : Ctl) (q : Qual) (vd va vb : VReg) (ok : Nat → Bool) (res : Nat → Nat) (useD : Bool)
    (op : Thread → Nat → List Word → Nat × Nat) : State → State :=
  vecWord i c { reads := if q.s then [regOf vb] else [], writes := if q.clip then [regOf vd] else [] } (fun s t =>
    let a := t.vr va
    elementWise s t q.clip q.m vd a ok (operandB t q.s a vb :: (if useD then [t.vr vd] else [])) res (op t))
/-- A unary VARITH word. -/
def vecUnary (i : Instr) (c : Ctl) (clip m : Bool) (vd va : VReg) (ok : Nat → Bool) (op : Thread → Nat → List Word → Nat × Nat) : State → State :=
  vecWord i c { writes := if clip then [regOf vd] else [] } (fun s t => elementWise s t clip m vd (t.vr va) ok [] id (op t))

/-! ### Element operations (R211) -/

def arg (l : List Word) (i : Nat) : Nat := ((l.drop i).headD 0).toNat
/-- Floats by `fo` with one rounding, integers by `io` modulo 2^w. -/
def arithOp (fo : Nat → Val → Val → Res) (io : Int → Int → Int) (t : Thread) (f : Nat) (l : List Word) : Nat × Nat :=
  match ffmt f, ifmt f with
  | some ff, _ => ff.finish (t.rnd 0 false) (fo (t.mode 0) (ff.decodeDaz t.daz (arg l 0)) (ff.decodeDaz t.daz (arg l 1)))
  | _, some (sg, w) => (wrapInt w (io (intOf sg w (arg l 0)) (intOf sg w (arg l 1))), 0)
  | _, _ => (0, 0)
def fmaOp (t : Thread) (f : Nat) (l : List Word) : Nat × Nat :=
  match ffmt f with
  | some ff => ff.finish (t.rnd 0 false) ((ff.decodeDaz t.daz (arg l 0)).fma (t.mode 0) (ff.decodeDaz t.daz (arg l 1)) (ff.decodeDaz t.daz (arg l 2)))
  | none => (0, 0)
def sqrtOp (t : Thread) (f : Nat) (l : List Word) : Nat × Nat :=
  match ffmt f with
  | some ff => ff.finish (t.rnd 0 false) (ff.decodeDaz t.daz (arg l 0)).sqrt
  | none => (0, 0)
/-- An exact value as an encoding. -/
def FFmt.exact (f : FFmt) (v : Val) : Nat := (f.finish ⟨1, false, false, false⟩ v.res).1
def pickOp (mx : Bool) (t : Thread) (f : Nat) (l : List Word) : Nat × Nat :=
  match ffmt f, ifmt f with
  | some ff, _ =>
    let p := Val.pick mx (ff.decodeDaz t.daz (arg l 0)) (ff.decodeDaz t.daz (arg l 1))
    (ff.exact p.1, if p.2 then fNV else 0)
  | _, some (sg, w) => (if (decide (intOf sg w (arg l 0) < intOf sg w (arg l 1))) != mx then arg l 0 else arg l 1, 0)
  | _, _ => (0, 0)
/-- VABS and VNEG: the sign of a float's encoding; integers modulo 2^w. -/
def absOp (_ : Thread) (f : Nat) (l : List Word) : Nat × Nat :=
  match ffmt f, ifmt f with
  | some ff, _ => (arg l 0 % 2 ^ (ff.width - 1), 0)
  | _, some (sg, w) => (wrapInt w (intOf sg w (arg l 0)).natAbs, 0)
  | _, _ => (0, 0)
def negOp (_ : Thread) (f : Nat) (l : List Word) : Nat × Nat :=
  match ffmt f, ifmt f with
  | some ff, _ => (arg l 0 ^^^ 2 ^ (ff.width - 1), 0)
  | _, some (sg, w) => (wrapInt w (-intOf sg w (arg l 0)), 0)
  | _, _ => (0, 0)
def bitOp (g : Nat → Nat → Nat) (_ : Thread) (_ : Nat) (l : List Word) : Nat × Nat := (g (arg l 0) (arg l 1), 0)
/-- Shifts within the width; the amount is b mod w, unsigned. -/
def shiftOp (g : Nat → Nat → Nat → Nat) (_ : Thread) (f : Nat) (l : List Word) : Nat × Nat :=
  let w := fmtWidth f
  (g w (arg l 0) (arg l 1 % w), 0)
/-- Compares: floats as FCMP, integers and BOOL by value. -/
def cmpOp (cc : Nat) (t : Thread) (f : Nat) (l : List Word) : Nat × Nat :=
  match ffmt f, ifmt f with
  | some ff, _ =>
    let r := fcmp cc (ff.decodeDaz t.daz (arg l 0)) (ff.decodeDaz t.daz (arg l 1))
    (r.1.toNat, if r.2 then fNV else 0)
  | _, o =>
    let v := fun x => match o with | some (sg, w) => intOf sg w x | none => (x : Int)
    let a := v (arg l 0)
    let b := v (arg l 1)
    ((match cc with | 0 => decide (a = b) | 4 => decide (a ≠ b) | 1 => decide (a < b) | _ => decide (a ≤ b)).toNat, 0)

def execVadd (c : Ctl) (q : Qual) (vd va vb : VReg) (s : State) : Out := .next (vecBinary (.vadd c q vd va vb) c q vd va vb isArithC id false (arithOp Val.add (· + ·)) s)
def execVsub (c : Ctl) (q : Qual) (vd va vb : VReg) (s : State) : Out := .next (vecBinary (.vsub c q vd va vb) c q vd va vb isArithC id false (arithOp (fun m x y => x.add m y.neg) (· - ·)) s)
def execVmul (c : Ctl) (q : Qual) (vd va vb : VReg) (s : State) : Out := .next (vecBinary (.vmul c q vd va vb) c q vd va vb isArithC id false (arithOp (fun _ x y => x.mul y) (· * ·)) s)
def execVfma (c : Ctl) (q : Qual) (vd va vb : VReg) (s : State) : Out := .next (vecBinary (.vfma c q vd va vb) c q vd va vb isFloatC id true fmaOp s)
def execVdiv (c : Ctl) (q : Qual) (vd va vb : VReg) (s : State) : Out := .next (vecBinary (.vdiv c q vd va vb) c q vd va vb isFloatC id false (arithOp (fun _ x y => x.div y) (fun x _ => x)) s)
def execVmin (c : Ctl) (q : Qual) (vd va vb : VReg) (s : State) : Out := .next (vecBinary (.vmin c q vd va vb) c q vd va vb isArithC id false (pickOp false) s)
def execVmax (c : Ctl) (q : Qual) (vd va vb : VReg) (s : State) : Out := .next (vecBinary (.vmax c q vd va vb) c q vd va vb isArithC id false (pickOp true) s)
def execVand (c : Ctl) (q : Qual) (vd va vb : VReg) (s : State) : Out := .next (vecBinary (.vand c q vd va vb) c q vd va vb (fun k => isIntC k || isNatC k || isBoolC k) id false (bitOp (· &&& ·)) s)
def execVor (c : Ctl) (q : Qual) (vd va vb : VReg) (s : State) : Out := .next (vecBinary (.vor c q vd va vb) c q vd va vb (fun k => isIntC k || isNatC k || isBoolC k) id false (bitOp (· ||| ·)) s)
def execVxor (c : Ctl) (q : Qual) (vd va vb : VReg) (s : State) : Out := .next (vecBinary (.vxor c q vd va vb) c q vd va vb (fun k => isIntC k || isNatC k || isBoolC k) id false (bitOp (· ^^^ ·)) s)
def execVshl (c : Ctl) (q : Qual) (vd va vb : VReg) (s : State) : Out := .next (vecBinary (.vshl c q vd va vb) c q vd va vb (fun k => isIntC k || isNatC k) id false (shiftOp (fun w a b => a * 2 ^ b % 2 ^ w)) s)
def execVshr (c : Ctl) (q : Qual) (vd va vb : VReg) (s : State) : Out := .next (vecBinary (.vshr c q vd va vb) c q vd va vb (fun k => isIntC k || isNatC k) id false (shiftOp (fun _ a b => a / 2 ^ b)) s)
def execVsra (c : Ctl) (q : Qual) (vd va vb : VReg) (s : State) : Out := .next (vecBinary (.vsra c q vd va vb) c q vd va vb isIntC id false (shiftOp (fun w a b => wrapInt w (intOf true w a / 2 ^ b))) s)
def execVcmpeq (c : Ctl) (q : Qual) (vd va vb : VReg) (s : State) : Out := .next (vecBinary (.vcmpeq c q vd va vb) c q vd va vb notE8m0 (fun _ => 22) false (cmpOp 0) s)
def execVcmpne (c : Ctl) (q : Qual) (vd va vb : VReg) (s : State) : Out := .next (vecBinary (.vcmpne c q vd va vb) c q vd va vb notE8m0 (fun _ => 22) false (cmpOp 4) s)
def execVcmplt (c : Ctl) (q : Qual) (vd va vb : VReg) (s : State) : Out := .next (vecBinary (.vcmplt c q vd va vb) c q vd va vb isArithC (fun _ => 22) false (cmpOp 1) s)
def execVcmple (c : Ctl) (q : Qual) (vd va vb : VReg) (s : State) : Out := .next (vecBinary (.vcmple c q vd va vb) c q vd va vb isArithC (fun _ => 22) false (cmpOp 2) s)
def execVsqrt (c : Ctl) (clip m : Bool) (vd va : VReg) (s : State) : Out := .next (vecUnary (.vsqrt c clip m vd va) c clip m vd va isFloatC sqrtOp s)
def execVabs (c : Ctl) (clip m : Bool) (vd va : VReg) (s : State) : Out := .next (vecUnary (.vabs c clip m vd va) c clip m vd va (fun k => isFloatC k || isIntC k) absOp s)
def execVneg (c : Ctl) (clip m : Bool) (vd va : VReg) (s : State) : Out := .next (vecUnary (.vneg c clip m vd va) c clip m vd va (fun k => isFloatC k || isIntC k) negOp s)
def execVmov (c : Ctl) (clip m : Bool) (vd va : VReg) (s : State) : Out := .next (vecUnary (.vmov c clip m vd va) c clip m vd va isAnyC (fun _ _ l => (arg l 0, 0)) s)

/-- VSEL (R211): v0 is an operand stream of BOOL. -/
def execVsel (c : Ctl) (clip : Bool) (vd va vb : VReg) (s : State) : Out :=
  .next (vecWord (.vsel c clip vd va vb) c { writes := if clip then [regOf vd] else [] } (fun s t =>
    let a := t.vr va
    let b := t.vr vb
    let v0 := t.vr 0
    match firstFault [fmtFault a notE8m0, fmtFault b (· == a.fmt.toNat), fmtFault v0 isBoolC, lenFault a b, lenFault a v0] with
    | some e => .trap s e.1 e.2
    | none =>
      let ps := piecesOf [v0.runs, a.runs, b.runs]
      putVector s t clip vd a.fmt.toNat
        (ps.map (fun p => (if p.1.headD 0 = 1 then (p.1.drop 1).headD 0 else (p.1.drop 2).headD 0, p.2, 0)))) s)

/-! ### Runs, lengths (R212, R213) -/

/-- A vector word whose result is one general register: the value, the flags and the pieces. -/
def toGeneral (s : State) (t : Thread) (vd : VReg) (p : Nat) (v : Nat) (fl : Nat) : WordRes :=
  if t.fpTraps fl then .trap s .fpException (BitVec.ofNat 64 fl)
  else .next ((t.wr (regOf vd) (BitVec.ofNat 64 v)).orFlags fl) (vecTime s t p)

/-- Re-coalescing: runs that agree with the kept run in bits 63:k join it (R213). -/
def recoalesce (k : Nat) : List Run → List Run → List Run
  | [], out => out.reverse
  | r :: l, o :: out => if r.value >>> k = o.value >>> k then recoalesce k l ({ o with count := o.count + r.count } :: out) else recoalesce k l (r :: o :: out)
  | r :: l, [] => recoalesce k l [r]

def execVrco (c : Ctl) (k : Bool) (vd va vb : VReg) (s : State) : Out :=
  .next (vecWord (.vrco c k vd va vb) c { reads := if k then [regOf vb] else [] } (fun s t =>
    let a := t.vr va
    let n := t.rd (regOf vb)
    match fmtFault a isAnyC with
    | some e => .trap s e.1 e.2
    | none =>
      if k && bits n 6 58 != 0 then .trap s .laneArg n
      else .next (t.vw vd ⟨a.fmt, if k then recoalesce (bits n 0 6) a.runs [] else a.runs⟩) (vecTime s t a.runs.length)) s)
/-- VRUNS and VLEN: one number of va. -/
def vecNumber (i : Instr) (c : Ctl) (vd va : VReg) (g : VecReg → Nat) : State → State :=
  vecWord i c { writes := [regOf vd] } (fun s t =>
    match fmtFault (t.vr va) isAnyC with
    | some e => .trap s e.1 e.2
    | none => toGeneral s t vd 0 (g (t.vr va)) 0)
def execVruns (c : Ctl) (vd va : VReg) (s : State) : Out := .next (vecNumber (.vruns c vd va) c vd va (fun v => v.runs.length) s)
def execVlen (c : Ctl) (vd va : VReg) (s : State) : Out := .next (vecNumber (.vlen c vd va) c vd va VecReg.len s)

/-- The first `n` elements of runs. -/
def takeRuns : Nat → List Run → List Run
  | _, [] => []
  | n, r :: l => if n = 0 then [] else if r.count ≤ n then r :: takeRuns (n - r.count) l else [{ r with count := n }]
/-- Runs as the input of `build`. -/
def runsIn (l : List Run) : List (Word × Nat × Nat) := l.map (fun r => (r.value, r.count, 0))

def execVsetlen (c : Ctl) (clip : Bool) (vd va vb : VReg) (s : State) : Out :=
  .next (vecWord (.vsetlen c clip vd va vb) c { reads := [regOf vb], writes := if clip then [regOf vd] else [] } (fun s t =>
    let a := t.vr va
    let n := (t.rd (regOf vb)).toNat
    match fmtFault a isAnyC with
    | some e => .trap s e.1 e.2
    | none =>
      if n > 65535 then .trap s .length (t.rd (regOf vb))
      else
        let l := takeRuns n a.runs ++ (if a.len < n then [⟨0, n - a.len⟩] else [])
        putVector s t clip vd a.fmt.toNat (runsIn l)) s)
def execVsplat (c : Ctl) (vd va vb : VReg) (s : State) : Out :=
  .next (vecWord (.vsplat c vd va vb) c { reads := [regOf vb] } (fun s t =>
    let a := t.vr va
    match fmtFault a isAnyC with
    | some e => .trap s e.1 e.2
    | none => putVector s t false vd a.fmt.toNat (runsIn (operandB t true a vb).runs)) s)
def execVcat (c : Ctl) (clip : Bool) (vd va vb : VReg) (s : State) : Out :=
  .next (vecWord (.vcat c clip vd va vb) c { writes := if clip then [regOf vd] else [] } (fun s t =>
    let a := t.vr va
    let b := t.vr vb
    match firstFault [fmtFault a isAnyC, fmtFault b (· == a.fmt.toNat)] with
    | some e => .trap s e.1 e.2
    | none =>
      if a.len + b.len > 65535 then .trap s .length (BitVec.ofNat 64 (a.len + b.len))
      else putVector s t clip vd a.fmt.toNat (runsIn (a.runs ++ b.runs))) s)

/-- Element `n` of runs. -/
def elementAt : Nat → List Run → Word
  | _, [] => 0
  | n, r :: l => if n < r.count then r.value else elementAt (n - r.count) l
/-- A value in the form of R214: INT sign-extended, every other format zero-extended. -/
def generalForm (f : Nat) (x : Nat) : Nat := if isIntC f then (sext (fmtWidth f) x).toNat else x
def execVelem (c : Ctl) (vd va vb : VReg) (s : State) : Out :=
  .next (vecWord (.velem c vd va vb) c { reads := [regOf vb], writes := [regOf vd] } (fun s t =>
    let a := t.vr va
    let n := t.rd (regOf vb)
    match fmtFault a isAnyC with
    | some e => .trap s e.1 e.2
    | none => if a.len ≤ n.toNat then .trap s .length n
      else toGeneral s t vd 0 (generalForm a.fmt.toNat (elementAt n.toNat a.runs).toNat) 0) s)

/-! ### Reductions (R214) -/

/-- A reduction over the elements of va that take part. -/
def vecReduce (i : Instr) (c : Ctl) (m : Bool) (vd va : VReg) (ok : Nat → Bool) (g : Thread → Nat → List (Nat × Nat) → Nat × Nat) : State → State :=
  vecWord i c { writes := [regOf vd] } (fun s t =>
    let a := t.vr va
    let v0 := t.vr 0
    match firstFault ([fmtFault a ok] ++ (if m then [fmtFault v0 isBoolC, lenFault a v0] else [])) with
    | some e => .trap s e.1 e.2
    | none =>
      let ps := piecesOf (if m then [a.runs, v0.runs] else [a.runs])
      let used := (ps.filter (fun p => !m || (p.1.drop 1).headD 0 = 1)).map (fun p => ((p.1.headD 0).toNat, p.2))
      let r := g t a.fmt.toNat used
      toGeneral s t vd ps.length r.1 r.2)

/-- The exact sum of terms (−1)^neg × m × 2^e, with what the zero rule needs: whether a term was negative, whether one was positive. -/
structure Sum where
  m : Int
  e : Int
  neg : Bool
  pos : Bool
deriving DecidableEq, Repr
def Sum.add (s : Sum) (neg : Bool) (m : Nat) (e : Int) : Sum :=
  let e1 := min s.e e
  let x : Int := m * 2 ^ (e - e1).toNat
  ⟨s.m * 2 ^ (s.e - e1).toNat + (if neg then -x else x), e1, s.neg || neg, s.pos || !neg⟩
/-- Σ count × value of floats: NaN, infinities and the sign of zero as R214 and R171 say. -/
def sumFloats (mode : Nat) (l : List (Val × Nat)) : Res :=
  let sig := l.any (fun p => p.1.isSig)
  let pinf := l.any (fun p => p.1 == .inf false)
  let ninf := l.any (fun p => p.1 == .inf true)
  if l.any (fun p => p.1.isNan) || (pinf && ninf) then .nan (sig || (pinf && ninf))
  else if pinf then .inf false false
  else if ninf then .inf true false
  else
    let s := l.foldl (fun s p => match p.1 with | .num n m e => s.add n (m * p.2) e | _ => s) (⟨0, 0, false, false⟩ : Sum)
    if s.m = 0 then .fin (if s.neg && s.pos then mode == 4 else s.neg) 0 0 false
    else .fin (decide (s.m < 0)) s.m.natAbs s.e false
/-- VRSUM and VRSUMSQ. -/
def sumRed (sq : Bool) (t : Thread) (f : Nat) (l : List (Nat × Nat)) : Nat × Nat :=
  match ffmt f, ifmt f with
  | some ff, _ => ff.finish (t.rnd 0 false) (sumFloats (t.mode 0) (l.map (fun p =>
      let x := ff.decodeDaz t.daz p.1
      (if sq then (x.times x).getD x else x, p.2))))
  | _, some (sg, w) => (wrapInt 64 (l.foldl (fun (a : Int) p => let x := intOf sg w p.1; a + p.2 * (if sq then x * x else x)) 0), 0)
  | _, _ => (0, 0)
/-- VRMAX and VRMIN; without elements, the value R214 gives. -/
def extremeRed (mx : Bool) (t : Thread) (f : Nat) (l : List (Nat × Nat)) : Nat × Nat :=
  match ffmt f, ifmt f with
  | some ff, _ =>
    let vs := l.map (fun p => ff.decodeDaz t.daz p.1)
    let nv := if vs.any Val.isSig then fNV else 0
    match vs with
    | [] => (if ff.hasNan then ff.nan else ff.signed mx ff.maxFin, 0)
    | v :: r => (ff.exact (r.foldl (fun a b => (Val.pick mx a b).1) v), nv)
  | _, some (sg, w) =>
    let xs := l.map (fun p => intOf sg w p.1)
    let r := match xs with
      | [] => if mx then intMin sg w else intMax sg w
      | x :: r => r.foldl (fun a b => if mx then max a b else min a b) x
    (wrapInt 64 r, 0)
  | _, _ => (0, 0)
/-- VAMAX: the largest magnitude; NaN elements are ignored as in maximumNumber. -/
def amaxRed (t : Thread) (f : Nat) (l : List (Nat × Nat)) : Nat × Nat :=
  match ffmt f, ifmt f with
  | some ff, _ =>
    let vs := l.map (fun p => ff.decodeDaz t.daz p.1)
    let nv := if vs.any Val.isSig then fNV else 0
    match vs.map (fun v => if v.negative then v.neg else v) with
    | [] => (0, 0)
    | v :: r => (ff.exact (r.foldl (fun a b => (Val.pick true a b).1) v), nv)
  | _, some (sg, w) => (l.foldl (fun a p => max a (intOf sg w p.1).natAbs) 0, 0)
  | _, _ => (0, 0)
/-- VRCNT: elements whose encoding is not a zero; DAZ does not apply. -/
def countRed (_ : Thread) (f : Nat) (l : List (Nat × Nat)) : Nat × Nat :=
  let z := fun x => match ffmt f with | some ff => x % 2 ^ (ff.width - 1) == 0 | none => x == 0
  (l.foldl (fun a p => if z p.1 then a else a + p.2) 0, 0)

def execVrsum (c : Ctl) (m : Bool) (vd va : VReg) (s : State) : Out := .next (vecReduce (.vrsum c m vd va) c m vd va isArithC (sumRed false) s)
def execVrsumsq (c : Ctl) (m : Bool) (vd va : VReg) (s : State) : Out := .next (vecReduce (.vrsumsq c m vd va) c m vd va isArithC (sumRed true) s)
def execVrmax (c : Ctl) (m : Bool) (vd va : VReg) (s : State) : Out := .next (vecReduce (.vrmax c m vd va) c m vd va isArithC (extremeRed true) s)
def execVrmin (c : Ctl) (m : Bool) (vd va : VReg) (s : State) : Out := .next (vecReduce (.vrmin c m vd va) c m vd va isArithC (extremeRed false) s)
def execVrcnt (c : Ctl) (m : Bool) (vd va : VReg) (s : State) : Out := .next (vecReduce (.vrcnt c m vd va) c m vd va notE8m0 countRed s)
def execVamax (c : Ctl) (m : Bool) (vd va : VReg) (s : State) : Out := .next (vecReduce (.vamax c m vd va) c m vd va (fun k => isFloatC k || isIntC k) amaxRed s)

/-! ### Conversion (R216, R217) -/

/-- Each run of va converted by `g` to format `fmt`. -/
def convertRuns (s : State) (t : Thread) (vd : VReg) (a : VecReg) (fmt : Nat) (g : Nat → Nat × Nat) : WordRes :=
  putVector s t false vd fmt (a.runs.map (fun r => let x := g r.value.toNat; (BitVec.ofNat 64 x.1, r.count, x.2)))
def execVcvt (c : Ctl) (vd va : VReg) (fmt : BitVec 5) (rnd : BitVec 3) (sat : Bool) (s : State) : Out :=
  .next (vecWord (.vcvt c vd va fmt rnd sat) c { roOk := true } (fun s t =>
    let a := t.vr va
    match firstFault [fmtFault a isAnyC, fmtFault ⟨fmt, []⟩ notE8m0] with
    | some e => .trap s e.1 e.2
    | none => convertRuns s t vd a fmt.toNat (fun x => encodeElem fmt.toNat (t.rnd rnd.toNat sat) (decodeElem a.fmt.toNat t.daz x))) s)
def execVqnt (c : Ctl) (vd va : VReg) (fmt : BitVec 5) (rnd : BitVec 3) (sat : Bool) (sc : VReg) (s : State) : Out :=
  .next (vecWord (.vqnt c vd va fmt rnd sat sc) c { roOk := true, reads := [regOf sc] } (fun s t =>
    let a := t.vr va
    match firstFault [fmtFault a isFloatC, fmtFault ⟨fmt, []⟩ isArithC] with
    | some e => .trap s e.1 e.2
    | none =>
      let k := decodeElem 2 t.daz ((t.rd (regOf sc)).toNat % 2 ^ 32)
      convertRuns s t vd a fmt.toNat (fun x =>
        encodeElem fmt.toNat (t.rnd rnd.toNat sat) (((decodeElem a.fmt.toNat t.daz x).times k).getD (.nan true)))) s)

/-! ### Lanes (R202 to R205) -/

/-- Lanes held by the threads of a market (R156). -/
def State.lanesHeld (s : State) (k : Nat) : Nat :=
  s.cores.foldl (fun n c => if marketOf c.1 == marketOf k then c.2.threads.foldl (fun n x => n + x.2.claim) n else n) 0
/-- PoolFree. -/
def State.lanesFree (s : State) (k : Nat) : Nat := 16 - s.lanesHeld k

def execVclaim (c : Ctl) (d a : Reg) (s : State) : Out :=
  .next (runWord (.vclaim c d a) c { reads := [a], writes := [d] } (fun s t =>
    let l := (t.rd a).toNat
    if l = 0 || l > 16 then .trap s .laneArg (t.rd a)
    else if l < t.claim && t.v.toList.any (fun v => v.runs.length > 8 * l) then .trap s .runOverflow (t.rd a)
    else if l > t.claim && s.lanesFree s.k < l - t.claim then .next (t.wr d 0) 0
    else .next (({ t with claim := l } : Thread).wr d (t.rd a)) 0) s)
def execVrels (c : Ctl) (s : State) : Out :=
  .next (runWord (.vrels c) c {} (fun _ t => .next { t with claim := 0, v := Vector.replicate 16 VecReg.empty } 0) s)
/-- The state of a register as VQRY returns it (R204). -/
def VecReg.query (v : VecReg) : Nat := v.fmt.toNat * 2 ^ 24 + v.runs.length * 2 ^ 16 + v.len
def execVqry (c : Ctl) (d a : Reg) (s : State) : Out :=
  .next (runWord (.vqry c d a) c { reads := [a], writes := [d] } (fun s t =>
    if bits (t.rd a) 4 60 != 0 then .trap s .laneArg (t.rd a)
    else .next (t.wr d (if t.claim = 0 then 0 else BitVec.ofNat 64 (t.vr ((t.rd a).setWidth 4)).query)) 0) s)

end Sys2Proof.Machine
end

