-- ==== Sys2Proof/Machine/Launch.lean ====
section
/-! DEFINITION. Requests leaving a thread and answers coming back (R126, R257, R261 to R268), words that hold for answers, and the words that read or write memory piece by piece (GADDR, ST, VLD, VST). -/
namespace Sys2Proof.Machine

/-! ### Serials (R15, R261) -/

/-- A serial taken. -/
def Thread.takeSerial (t : Thread) : Thread := { t with serial := t.serial + 1 }
/-- Whether the next `n` serials may be sent (R262). -/
def Thread.windowOk (t : Thread) (n : Nat) : Bool := decide ((t.serial - t.ackw).toNat + n ≤ 2 ^ 16 + 1)
/-- Posted requests unsettled (R366). -/
def Thread.posted (t : Thread) : List PendReq := t.reqs.filter PendReq.posted
/-- The waits before a word sends `n` serials, `posts` of them with posted requests: the window of R262 and the limit of R366. -/
def Thread.sendWait (t : Thread) (n posts : Nat) : Option (Wait × Word) :=
  if !t.windowOk n then some (.window n, t.serial.setWidth 64)
  else if posts != 0 && t.posted.length + posts > Config.maxPosted then some (.posted posts, 0) else none

/-- An entry of the unknown-outcome list; the seventeenth sets the overflow bit and is dropped (R268). -/
def Thread.addUnk (t : Thread) (u : UnkEntry) : Thread :=
  if t.unk.length < Config.unknownEntries then { t with unk := t.unk ++ [u] } else { t with unkOver := true }
/-- The TYPE code of a request (R259). -/
def typeCode (q : Request) : Nat :=
  match q.typ with
  | .read => 1 | .write => 2 | .lds => 3 | .ldsc => 4 | .sts => 5 | .febit => 6 | .fetest => 7 | .waitf => 8 | .atomic => 9
  | .spawn => 10 | .succdec => 11 | .mma => 12 | .mred => 13 | .collc => 14 | .canopy => 15 | .xducer => 16 | .cancel => 17 | .ready => 18
  | .hwread => 0x40 | .hwwrite => 0x41 | .hroot => 0x42 | .hmgmt => 0x43
/-- What a settling answer of a posted request leaves in the list (R268). -/
def Thread.noteOutcome (t : Thread) (q : Request) (r : Reply) : Thread :=
  if !r.settles then t else match r.outcome with
  | .ok _ => t
  | .error (n, c, _) => t.addUnk ⟨q.serial, typeCode q, n, c, some q.dst, false⟩

/-! ### Sending -/

/-- The system physical address range of a request's bytes (R337). -/
def reqRange (q : Request) : Nat × Nat :=
  (if q.dst.kind == 0 then q.dst.module * 2 ^ 44 + localKey (coreOf q.dst) q.addr else q.addr,
   if q.typ == .febit then 0 else if q.typ == .atomic then 2 ^ q.lsize else q.bytes.length)
/-- The posted requests of a thread that touch a byte of the parts (R337). -/
def touching (t : Thread) (l : List Piece) : List Nat :=
  (t.posted.filter (fun p => let r := reqRange p.req; l.any (fun x => x.pa < r.1 + r.2 && r.1 < x.pa + x.size))).map (fun p => p.req.tag)

/-- The thread of a stream: in a slot, gone, or saved, with its core, and whether its task has retired. -/
def State.issuer (s : State) (st : BitVec 32) : Option (Nat × Thread × Bool) :=
  match (s.cores.map (fun (c : Nat × Core) => (c.2.threads.filter (fun x => x.2.stream == st && !x.2.resumes)).map (fun x => (c.1, x.2, false)))).flatten.head? with
  | some r => some r
  | none => match s.retired.find? (fun x => x.2.stream == st) with
    | some x => some (x.1, x.2, true)
    | none => (s.saved.find? (fun x => x.2.thread.stream == st)).map (fun x => (x.2.origin, x.2.thread, false))

/-- A request of a thread performed at its owner. An allocation with no number free is held there and tried again every cycle (R80). -/
def State.perform (s : State) (q : Request) : State × Reply :=
  match q.typ with
  | .spawn => if q.dst.kind == 3 then s.launchAt q else s.spawnAt q
  | .succdec => s.succDec q
  | .ready => (s.makeReady (q.words.headD 0), .done [])
  | .canopy => match s.issuer q.stream with
    | none => (s, .error .ctagInvalid (q.words.headD 0))
    | some (k, t, _) => match s.canopyAt q.f q.guest (q.words.headD 0) ((q.words.drop 1).headD 0) (s.env t k q.serial) with
      | (s1, .parked) => (s1.at (s.cycle + 1) (.reqCanopy { q with words := q.words.take 2 ++ [1] }), .parked)
      | r => r
  | _ => s.performMem q

/-- The requester's record of a request, put there by `add`, and its timers (R267). -/
def State.await (s : State) (add : PendReq → State → State) (q : Request) (posted : Bool) (under tries : Nat) (waits : Bool) : State :=
  ((add ⟨q, posted, s.cycle, s.cycle, tries, under, tries != 0, waits, []⟩ s).at
    (s.cycle + Config.resendCycles) (.requestRetransmit q.tag)).at (s.cycle + Config.giveUpCycles) (.requestGiveUp q.tag)
/-- A request leaves, and is kept by `add` until it settles. The answer when there is one. -/
def State.depart (s : State) (add : PendReq → State → State) (posted : Bool) (under : Nat) (q : Request) (exe : Request → State → State × Reply) : State × Option Reply :=
  match s.sendBy q (exe q) with
  | (s1, none) => (s1.await add q posted under 0 false, none)
  | (s1, some r) =>
    if r.settles then (s1, some r)
    else if r == .retry || r == .busy then ((s1.await add q posted under 1 (r == .retry)).at (s1.cycle + 64) (.backoffResend q.tag), some r)
    else (s1.await add q posted under 0 (r == .parked), some r)
/-- The same for a request that has no tag yet. -/
def State.launchBy (s : State) (add : PendReq → State → State) (posted : Bool) (under : Nat) (q0 : Request) (exe : Request → State → State × Reply) : State × Option Reply :=
  ({ s with nextTag := s.nextTag + 1 } : State).depart add posted under { q0 with tag := s.nextTag, sent := s.us } exe
/-- A request's record in the list of a slot's thread. -/
def addReq (k sl : Nat) (p : PendReq) (s : State) : State := s.mapThread k sl (fun t => { t with reqs := t.reqs ++ [p] })
/-- A request of a slot's thread leaves. -/
def State.launch (s : State) (k sl : Nat) (posted : Bool) (q : Request) : State × Option Reply :=
  s.launchBy (addReq k sl) posted (((s.thread k sl).map Thread.ctag).getD 0) q (fun q s => s.perform q)

/-- A request of a thread for the owner of byte `p.pa`, without tag; `f` is the word's, `n` the size of its access. -/
def State.memReq (s : State) (k : Nat) (t : Thread) (typ : ReqType) (serialed : Bool) (p : Piece) (f n : Nat) : Request :=
  { typ := typ, src := s.endpoint k, dst := if p.isOwn then s.endpoint k else ownerOf p.pa, serialed := serialed, stream := t.stream, serial := if serialed then t.serial else 0
    ack := t.ackw, sent := s.us, addr := if p.isOwn then bits p.va 0 17 else (match windowOf p.pa with | some (_, o) => o | none => p.pa), off := 0, f := f
    lsize := Nat.log2 n, words := [], bytes := [], ctag := p.ctag, va := p.va, cnt := t.cnt, guest := t.guest, ptbase := t.ptbase, tag := 0 }
/-- The READ of a part, whose events have `u` bytes. -/
def State.readReq (s : State) (k : Nat) (t : Thread) (p : Piece) (f n u : Nat) : Request :=
  { s.memReq k t .read false p f n with words := [BitVec.ofNat 64 p.size, BitVec.ofNat 64 u, 0] }
/-- The WRITE of a part, whose events have `u` bytes. -/
def State.writeReq (s : State) (k : Nat) (t : Thread) (p : Piece) (f n u : Nat) (l : List Byte) : Request :=
  { s.memReq k t .write true p f n with words := [4, BitVec.ofNat 64 u, 0], bytes := l }

/-- The posted requests of a thread to one owner of its module: a later one leaves when they have settled, so that they are performed in the order of their words whatever their owner answers (R339, R257, log 83). -/
def Thread.earlier (t : Thread) (q : Request) : List Nat :=
  (t.posted.filter (fun p => q.dst.module == q.src.module && p.req.dst == q.dst)).map (fun p => p.req.tag)
/-- A posted request of a thread. It leaves at once, or when those of `prev` (R123) and the earlier ones to its owner have settled. -/
def State.postBy (s : State) (k sl : Nat) (prev : List Nat) (q : Request) (note : Reply → State → State) : State :=
  match s.thread k sl with
  | none => s
  | some t =>
    let l := prev ++ t.earlier q
    if l.isEmpty then match s.launch k sl true q with
      | (s1, r) => (match r with | some r => note r s1 | none => s1).mapThread k sl Thread.advance
    else addReq k sl ⟨{ q with tag := s.nextTag }, true, s.cycle, s.cycle, 0, t.ctag, true, false, l⟩ { s with nextTag := s.nextTag + 1 }
/-- A posted access: its failure goes to the unknown-outcome list (R268). -/
def State.post (s : State) (k sl : Nat) (q : Request) (prev : List Nat := []) : State :=
  s.postBy k sl prev q (fun r s => s.mapThread k sl (fun t => t.noteOutcome q r))
/-- A thread's record of a request. -/
def Thread.reqOf (t : Thread) (tag : Nat) : Option PendReq := t.reqs.find? (fun p => p.req.tag == tag)
/-- The posted WRITEs of a store, one for each owner and each with a serial of its own (log 83), in ascending order: one leaves when `prev`, the one before it, has settled. -/
def State.postParts (k sl f n : Nat) (va : Word) : List Nat → List (Piece × List Byte) → State → State
  | _, [], s => s
  | prev, (p, l) :: rest, s => match s.thread k sl with
    | none => s
    | some t =>
      let q := s.writeReq k t p f n (eventUnit (windowOf p.pa).isSome va n p.size) l
      let s1 := (s.setThread k sl t.takeSerial).post k sl q prev
      State.postParts k sl f n va (if ((s1.thread k sl).bind (fun t => t.reqOf s.nextTag)).isSome then [s.nextTag] else []) rest s1

/-! ### A holding word completes -/

/-- The word of a hold completes now: the next word is eligible as R23 says and not before this cycle. -/
def State.endHold (s : State) (k sl : Nat) (h : Hold) (f : Thread → Thread) : State :=
  s.mapThread k sl (fun t0 => let t := t0.count s.cycle; (f t).complete h.ctl (t.pc + 4) s.cycle)
/-- The thread holds as `h` says. -/
def State.holdAs (s : State) (k sl : Nat) (h : Hold) : State := s.mapThread k sl (fun t => { t with status := .holding h })

/-- A load's result from its bytes (R125). -/
def loadInto (t : Thread) (f : Nat) (d : Reg) (l : List Byte) : Thread :=
  match f with
  | 0 => t.wr d (sext 8 (leNat l))
  | 2 => t.wr d (sext 16 (leNat l))
  | 4 => t.wr d (sext 32 (leNat l))
  | 7 => (t.wr d (leWord (l.take 8))).wrN (d.toNat + 1) (leWord (l.drop 8))
  | _ => t.wr d (leWord l)

/-- GADDR from its table (R188, R189), for the row and column `r` and `c` and the table at `table`: the owner and the offset; of a failure also whether its VALUE is an address. -/
def gaddrResult (t : Thread) (d : Reg) (r c table : Word) (f : Nat) (l : List Byte) : Except (Cause × Word × Bool) Thread :=
  let i := r.toNat
  let j := c.toNat
  let br := field l 0 4
  let bc := field l 4 4
  let pr := field l 8 2
  let pc := field l 10 2
  let ld := field l 12 4
  let es := field l 16 1
  let org := field l 20 4
  let lb := field l 24 4
  if br == 0 || bc == 0 || pr == 0 || 80 < pr || pc == 0 || 128 < pc || ld == 0 || !([1, 2, 4, 8, 16].contains es)
    || field l 17 3 != 0 || org / 2 ^ 18 != 0 || org % 16384 ≥ Config.coresPerDie || lb ≥ Config.localSize || field l 28 4 != 0 then
    .error (.distArg, table + BitVec.ofNat 64 (32 * f), true)
  else
    let bi := i / br
    let bj := j / bc
    let li := bi / pr * br + i % br
    let lj := bj / pc * bc + j % bc
    let row := org % 16384 / 128 + bi % pr
    let col := org % 128 + bj % pc
    let off := lb + (li * ld + lj) * es
    if 79 < row || 127 < col || ld ≤ lj then .error (.distArg, r, false)
    else if Config.localSize < off + es then .error (.address, BitVec.ofNat 64 off, true)
    else .ok ((t.wr d (BitVec.ofNat 64 (org / 16384 * 16384 + row * 128 + col))).wrN (d.toNat + 1) (BitVec.ofNat 64 off))

/-- A word that read all its bytes. -/
def State.endRead (s : State) (k sl : Nat) (h : Hold) : State :=
  match s.thread k sl with
  | none => s
  | some t => match h.kind with
    | .load f _ d => s.endHold k sl h (fun t => loadInto t f d h.got)
    | .gaddr d i j table f => match gaddrResult t d i j table f h.got with
      | .ok _ => s.endHold k sl h (fun t => match gaddrResult t d i j table f h.got with | .ok u => u | .error _ => t)
      | .error e => s.trapEntry k sl e.1 e.2.1 t.pc false e.2.2
    | _ => s.endHold k sl h id
/-- The f of a word that reads, and the size of its access, for its READs. -/
def HoldKind.access : HoldKind → Nat × Nat
  | .load f n _ => (f, n)
  | .gaddr _ _ _ _ f => (f, 8)
  | _ => (0, 1)

/-- The next READ of a word that reads parts; `fuel` bounds the parts. -/
def State.readNext (k sl : Nat) : Nat → State → Hold → State
  | 0, s, _ => s
  | fuel + 1, s, h =>
    match h.todo, s.thread k sl with
    | [], _ => s.endRead k sl h
    | _, none => s
    | p :: rest, some t =>
      if p.isOwn then match s.readPiece p with
        | (s1, some l) => State.readNext k sl fuel s1 { h with todo := rest, got := h.got ++ l }
        | (s1, none) => s1.trapEntry k sl .eccUncorr p.va t.pc false
      else
        let a := h.kind.access
        match s.launch k sl false (s.readReq k t p a.1 a.2 (eventUnit (windowOf p.pa).isSome p.va a.2 p.size)) with
        | (s1, some (.done r)) => State.readNext k sl fuel s1 { h with todo := rest, got := h.got ++ unpackWords p.size r }
        | (s1, some (.error c v)) => s1.trapEntry k sl c v t.pc false
        | (s1, _) => s1.holdAs k sl { h with todo := rest, tag := s.nextTag }

/-! ### VLD and VST (R218 to R220) -/

/-- Bits of the byte before that belong to element `i` of sub-byte elements. -/
def bitsLeft (w i : Nat) : Nat := (w * i + 7) / 8 * 8 - w * i
/-- The elements from number `i` on that end in `l`: one element, or, of the bit stream of sub-byte elements, those that end in the byte `l`; `prev` is the byte before it. -/
def elementsOf (w i : Nat) (prev l : List Byte) : List Word :=
  if 8 ≤ w then [leWord l] else
  let left := bitsLeft w i
  let x := leNat prev / 2 ^ (8 - left) + leNat l * 2 ^ left
  (List.range ((left + 8) / w)).map (fun j => BitVec.ofNat 64 (x / 2 ^ (w * j) % 2 ^ w))
/-- Elements appended until `n` are taken or the register is full: the runs, the count, whether the load ends. -/
def vldFeed (cap n : Nat) : List Word → List Run → Nat → List Run × Nat × Bool
  | [], rev, k => (rev, k, decide (n ≤ k))
  | x :: l, rev, k =>
    if n ≤ k then (rev, k, true) else
    match append cap rev x 1 with
    | some rev1 => vldFeed cap n l rev1 (k + 1)
    | none => (rev, k, true)
/-- The end of a VLD: back to a byte boundary when it stopped early, then the register and the count consumed. -/
def vldResult (t : Thread) (vd : VReg) (count : Reg) (fmt n k : Nat) (rev : List Run) : Thread :=
  let w := fmtWidth fmt
  let g := if w = 6 then 4 else 8 / w
  let k1 := if w < 8 && k < n then k / g * g else k
  (t.vw vd ⟨BitVec.ofNat 5 fmt, takeRuns k1 rev.reverse⟩).wr count (BitVec.ofNat 64 k1)
/-- Cycles of a vector access (R209, R220). -/
def vecMemTime (t : Thread) (isOwn : Bool) (bytes p : Nat) : Nat :=
  t.issued + 8 + (if isOwn then (bytes + 15) / 16 else (p + t.claim - 1) / t.claim)

/-- A VLD ends after `i` elements. -/
def State.vldEnd (s : State) (k sl : Nat) (h : Hold) (vd : VReg) (base : Word) (count : Reg) (fmt n i : Nat) (rev : List Run) : State :=
  s.mapThread k sl (fun t0 => let t := t0.count s.cycle
    (vldResult t vd count fmt n i rev).complete h.ctl (t.pc + 4) (max s.cycle (vecMemTime t (isLocal base) ((i * fmtWidth fmt + 7) / 8) rev.length)))
/-- The next element, or byte of sub-byte elements, of a VLD; `fuel` bounds them. -/
def State.vldNext (k sl : Nat) : Nat → State → Hold → State
  | 0, s, _ => s
  | fuel + 1, s, h =>
    match h.kind, s.thread k sl with
    | .vld vd base count fmt n i rev, some t =>
      let w := fmtWidth fmt
      let size := if 8 ≤ w then w / 8 else 1
      let own := isLocal base
      if n ≤ i then s.vldEnd k sl h vd base count fmt n i rev else
      match s.access k t.ptbase t.ctag ⟨true, false, false, false⟩ (base + BitVec.ofNat 64 ((i * w + 7) / 8)) size with
      | .error e => s.trapEntry k sl e.1 e.2 t.pc false
      | .ok ps =>
        if !(touching t ps).isEmpty then s.park k sl (.tags (touching t ps)) base else
        match ps with
        | [p] =>
          let feed := fun (s : State) (l : List Byte) => match vldFeed (8 * t.claim) n (elementsOf w i h.got l) rev i with
            | (rev1, i1, true) => s.vldEnd k sl h vd base count fmt n i1 rev1
            | (rev1, i1, false) => State.vldNext k sl fuel s { h with kind := .vld vd base count fmt n i1 rev1, got := l }
          if own then match s.readPiece p with
            | (s1, some l) => feed s1 l
            | (s1, none) => s1.trapEntry k sl .eccUncorr p.va t.pc false
          else match s.launch k sl false (s.readReq k t p 0 size size) with
            | (s1, some (.done r)) => feed s1 (unpackWords p.size r)
            | (s1, some (.error c v)) => s1.trapEntry k sl c v t.pc false
            | (s1, _) => s1.holdAs k sl { h with tag := s.nextTag }
        | _ => s
    | _, _ => s

/-- The bits of a VST's last byte beyond element m − 1 (R219). -/
def bitsKept (w m : Nat) : Nat := (w * m + 7) / 8 * 8 - w * m
/-- The bytes of m elements of a register, zero beyond the last. -/
def vstBytes (w m : Nat) (runs : List Run) : List Byte :=
  let x := (takeRuns m runs).foldl (fun (a : Nat × Nat) r =>
    ((List.range r.count).foldl (fun (a : Nat × Nat) _ => (a.1 + r.value.toNat * 2 ^ a.2, a.2 + w)) a)) (0, 0)
  leBytes ((x.2 + 7) / 8) x.1
/-- A VST's next block: its address, its bytes, whether it is the last; the block's last byte completed from the byte read before it (R219). -/
def Hold.block (h : Hold) (base : Word) (w m i : Nat) : Word × List Byte × Bool :=
  let va := base + BitVec.ofNat 64 i
  let n := min (64 - va.toNat % 64) (h.data.length - i)
  let last := i + n == h.data.length
  let l := (h.data.drop i).take n
  let keep := bitsKept w m
  (va, if last && keep != 0 then l.dropLast ++ [BitVec.ofNat 8 (leNat (l.drop (n - 1)) + leNat h.got / 2 ^ (8 - keep) * 2 ^ (8 - keep))] else l, last)
/-- The message of a store with parts on C pages under a ctag (R72): the size of its events, its parts, and its bytes. -/
def heldStore (u : Nat) (q : Request) (l : List (Piece × List Byte)) : Request :=
  { q with words := 5 :: BitVec.ofNat 64 u :: 0 :: (l.map (fun x => [BitVec.ofNat 64 x.1.pa, BitVec.ofNat 64 x.1.size, x.1.va, BitVec.ofNat 64 x.1.ctag])).flatten, bytes := (l.map Prod.snd).flatten }
def HoldKind.next (n : Nat) : HoldKind → HoldKind
  | .vst a b c m i => .vst a b c m (i + n)
  | x => x

/-- The next 64-byte block of a VST: local bytes are written at once, others are posted, one request a block (R263), or held for under a ctag on a C page (R72); at the limits of R262 and R366 it waits and goes on when a request settles. The old bits of the last byte are read first, as an event of their own (R219). -/
def State.vstNext (k sl : Nat) : Nat → State → Hold → State
  | 0, s, _ => s
  | fuel + 1, s, h =>
    match h.kind, s.thread k sl with
    | .vst vd base count m i, some t =>
      let fmt := (t.vr vd).fmt.toNat
      let w := fmtWidth fmt
      if (h.data.drop i).isEmpty then s.mapThread k sl (fun t0 => let t := t0.count s.cycle
          (t.wr count (BitVec.ofNat 64 m)).complete h.ctl (t.pc + 4) (max s.cycle (vecMemTime t (isLocal base) h.data.length m)))
      else
        let b := h.block base w m i
        match s.access k t.ptbase t.ctag ⟨false, true, false, false⟩ b.1 b.2.1.length with
        | .error e => s.trapEntry k sl e.1 e.2 t.pc false
        | .ok ps =>
          let p : Piece := ps.headD ⟨0, 0, 0, 0⟩
          if b.2.2 && bitsKept w m != 0 && h.got.isEmpty then
            let o : Piece := { p with pa := p.pa + p.size - 1, size := 1, va := p.va + BitVec.ofNat 64 (p.size - 1) }
            if o.isOwn then match s.readPiece o with
              | (s1, some l) => State.vstNext k sl fuel s1 { h with got := l }
              | (s1, none) => s1.trapEntry k sl .eccUncorr o.va t.pc false
            else match s.launch k sl false (s.readReq k t o 0 1 1) with
              | (s1, some (.done r)) => State.vstNext k sl fuel s1 { h with got := unpackWords 1 r }
              | (s1, some (.error c v)) => s1.trapEntry k sl c v t.pc false
              | (s1, _) => s1.holdAs k sl { h with tag := s.nextTag }
          else
            let h1 := { h with kind := h.kind.next p.size }
            if p.isOwn then match s.writePiece p b.2.1 with
              | .ok s1 => State.vstNext k sl fuel s1 h1
              | .error e => s.trapEntry k sl e p.va t.pc false
            else match t.sendWait 1 (if p.ctag == 0 then 1 else 0) with
              | some x => s.park k sl (.goOn h) x.2
              | none =>
                let q := s.writeReq k t p 0 (max 1 (w / 8)) (max 1 (w / 8)) b.2.1
                if p.ctag == 0 then State.vstNext k sl fuel ((s.setThread k sl t.takeSerial).post k sl q) h1
                else match (s.setThread k sl t.takeSerial).launch k sl false (heldStore (max 1 (w / 8)) q [(p, b.2.1)]) with
                  | (s1, some (.done _)) => State.vstNext k sl fuel (s1.mapThread k sl Thread.advance) h1
                  | (s1, some (.error c v)) => (s1.mapThread k sl Thread.advance).trapEntry k sl c v t.pc false
                  | (s1, _) => s1.holdAs k sl { h1 with tag := s.nextTag }
    | _, _ => s

/-! ### Answers (R267, R268) -/

/-- An engine command's record leaves its thread's list; K.ACKW follows. -/
def Thread.endEngine (t : Thread) (serial : BitVec 32) : Thread :=
  ({ t with engs := t.engs.filter (fun x => x.serial != serial) } : Thread).advance

/-- The value a holding word's REMOTE_UNKNOWN names, and whether it is an address (R268). -/
def unknownVal (q : Request) : Word := if q.serialed then q.serial.setWidth 64 else q.va

/-- A holding word's request was cancelled: by a save, and then it is left to be issued again (R269, R367); or its limit came: SYNC_TIMEOUT, of CTALLOC TAG_EXHAUSTED (R130, R80). -/
def State.cancelled (s : State) (k sl : Nat) (t : Thread) (h : Hold) : State :=
  if t.saving.isSome then s.mapThread k sl (fun t => { t with status := .ready })
  else match h.kind with
    | .ctalloc _ p => s.trapEntry k sl .tagExhausted p t.pc false
    | _ => s.trapEntry k sl .syncTimeout ((t.waitStart.map Prod.snd).getD 0) t.pc false true

/-- The arrival of an engine command whose request settled as unknown (R268). -/
def State.sendLost (s : State) (t : Thread) (k : Nat) (q : Request) : State :=
  s.sendArrival (plainArrival q.dst (s.env t k q.serial) k (((t.engs.find? (fun x => x.serial == q.serial)).map EngCmd.ref).getD 0) (some (.remoteUnknown, 0)))
/-- A holding word's request failed: with the cause of an ERROR, or as unknown (R268). A command that the allocator or a lane refused is none; of one that settles as unknown the word completes, and its object receives the failure. A SPAWN's ERROR names the core (R290), a PERMISSION of a lane the lane (R118). -/
def State.holdFailed (s : State) (k sl : Nat) (t : Thread) (h : Hold) (q : Request) (c : Option Cause) (v : Word) : State :=
  let lost := fun (s : State) => s.sendLost t k q
  match c, h.kind with
  | some c, .ctend => (s.mapThread k sl (fun t => t.endEngine q.serial)).trapEntry k sl c v t.pc false
  | some c, .xducer _ => (s.mapThread k sl (fun t => t.endEngine q.serial)).trapEntry k sl c v t.pc false (c.isAddress && c != .permission)
  | none, .ctend => lost (s.endHold k sl h id)
  | none, .xducer d => lost (s.endHold k sl h (fun t => t.wr d 0))
  | some c, .spawn _ core _ _ => s.trapEntry k sl c (BitVec.ofNat 64 core) t.pc false false
  | some c, _ => s.trapEntry k sl c v t.pc false
  | none, _ => s.trapEntry k sl .remoteUnknown (unknownVal q) t.pc false (!q.serialed)

/-- A holding word gets its settling answer. -/
def State.resumeHold (s : State) (k sl : Nat) (t : Thread) (h : Hold) (q : Request) (r : Reply) : State :=
  if r == .cancelled then s.cancelled k sl t h else
  match r.outcome with
  | .error (_, c, v) => s.holdFailed k sl t h q c v
  | .ok res =>
    let w := res.headD 0
    match h.kind with
    | .load _ _ _ => State.readNext k sl (h.todo.length + 1) s { h with got := h.got ++ unpackWords (q.word 0) res }
    | .gaddr _ _ _ _ _ => State.readNext k sl (h.todo.length + 1) s { h with got := h.got ++ unpackWords (q.word 0) res }
    | .vld vd base count fmt n i rev =>
      let l := unpackWords (q.word 0) res
      match vldFeed (8 * t.claim) n (elementsOf (fmtWidth fmt) i h.got l) rev i with
      | (rev1, i1, true) => s.vldEnd k sl h vd base count fmt n i1 rev1
      | (rev1, i1, false) => State.vldNext k sl (n + 2) s { h with kind := .vld vd base count fmt n i1 rev1, got := l }
    | .vst _ _ _ _ _ => State.vstNext k sl (h.data.length + 2) s (if q.typ == .read then { h with got := unpackWords 1 res } else h)
    | .store => (State.postParts k sl q.f (2 ^ q.lsize) q.va [] (cutData h.todo h.data) s).endHold k sl h id
    | .nothing => s.endHold k sl h id
    | .ctend => s.endHold k sl h id
    | .xducer d => s.endHold k sl h (fun t => (if w = 0 then t else t.endEngine q.serial).wr d w)
    | .lds sz d => s.endHold k sl h (fun t => if sz == 2 then (t.wr d w).wrN (d.toNat + 1) ((res.drop 1).headD 0) else t.wr d w)
    | .fetest d => s.endHold k sl h (fun t => t.wr d w)
    | .atomic w4 d => s.endHold k sl h (fun t => t.wr d (if w4 then sext 32 w.toNat else w))
    | .spawn d _ _ _ => s.endHold k sl h (fun t => t.wr d w)
    | .ctalloc d _ => s.endHold k sl h (fun t => t.wr d w)
    | .ctset d c => s.endHold k sl h (fun t => ({ t with ctag := c } : Thread).wr d w)
    | .glaunch d => s.endHold k sl h (fun t => t.wr d w)

/-- The slot whose thread has a request with this tag. -/
def State.findTag (s : State) (tag : Nat) : Option (Nat × Nat) :=
  (s.cores.map (fun c => (c.2.threads.filter (fun x => x.2.reqs.any (fun p => p.req.tag == tag))).map (fun x => (c.1, x.1)))).flatten.head?
/-- The task that has gone and left a request with this tag. -/
def State.findGone (s : State) (tag : Nat) : Option (Nat × Thread) := s.retired.find? (fun x => x.2.reqs.any (fun p => p.req.tag == tag))
/-- A thread's record of a request changed. -/
def Thread.mapReq (t : Thread) (tag : Nat) (f : PendReq → PendReq) : Thread := { t with reqs := t.reqs.map (fun p => if p.req.tag == tag then f p else p) }
/-- A request of a thread leaves its list, and none waits for it any more; K.ACKW follows. -/
def Thread.settle (t : Thread) (tag : Nat) : Thread :=
  ({ t with reqs := (t.reqs.filter (fun p => p.req.tag != tag)).map (fun p => { p with behind := p.behind.filter (· != tag) }) } : Thread).advance
/-- A request that has not left yet, and waits for no other. -/
def PendReq.freed (p : PendReq) : Bool := p.idle && p.tries == 0 && p.behind.isEmpty

/-- The requests of a thread that waited for others and need not any more leave now, in their order (R123, R257). `get` and `upd` reach the thread, `note` takes the answer of one that settles at once. -/
def State.sendFreed (get : State → Option Thread) (upd : (Thread → Thread) → State → State) (note : PendReq → Reply → State → State) : Nat → State → State
  | 0, s => s
  | n + 1, s => match get s with
    | none => s
    | some t => match t.reqs.find? PendReq.freed with
      | none => s
      | some p => match s.depart (fun y => upd (fun t => t.mapReq p.req.tag (fun _ => y))) true p.under { p.req with ack := t.ackw, sent := s.us } (fun q s => s.perform q) with
        | (s1, some r) => State.sendFreed get upd note n (if r.settles then upd (fun t => t.settle p.req.tag) (note p r s1) else s1)
        | (s1, none) => State.sendFreed get upd note n s1
/-- The report of a successor decrement that failed (R305, R317): VALUE is the address that its cause names. -/
def State.reportDec (s : State) (e : Env) (q : Request) (r : Reply) : State :=
  if !r.settles then s else match r.outcome with
  | .error (_, some c, v) => s.report e true false c 0 v
  | .error (_, none, _) => s.report e true false .remoteUnknown 0 (q.serial.setWidth 64) false
  | .ok _ => s
/-- What a settling answer of a posted request of a slot's thread leaves: a report where it is a successor decrement, else an entry of the list (R268, R305). -/
def State.noteAt (s : State) (k sl : Nat) (p : PendReq) (r : Reply) : State :=
  match s.thread k sl with
  | none => s
  | some t => if p.req.typ == .succdec then s.reportDec (s.env t k 0) p.req r else s.setThread k sl (t.noteOutcome p.req r)
/-- The same for the requests that the settling of another frees. -/
def State.sendFollowers (s : State) (k sl : Nat) : State :=
  State.sendFreed (fun s => s.thread k sl) (fun f s => s.mapThread k sl f) (fun p r s => s.noteAt k sl p r) ((((s.thread k sl).map Thread.reqs).getD []).length) s

/-- A thread's posted request or hold settles with `r`. -/
def State.settleAt (s : State) (k sl : Nat) (t : Thread) (p : PendReq) (r : Reply) : State :=
  if p.posted then ((s.noteAt k sl p r).mapThread k sl (fun t => t.settle p.req.tag)).sendFollowers k sl
  else
    let s1 := s.setThread k sl (t.settle p.req.tag)
    match t.status with
    | .holding h => if h.tag == p.req.tag then s1.resumeHold k sl (t.settle p.req.tag) h p.req r else s1
    | _ => s1

/-- The task of a stream that has gone, changed; its stream is returned when nothing of it is left (R261). -/
def State.mapGone (s : State) (st : BitVec 32) (f : Thread → Thread) : State :=
  let s1 := { s with retired := s.retired.map (fun (x : Nat × Thread) => if x.2.stream == st then (x.1, f x.2) else x) }
  if s1.retired.any (fun x => x.2.stream == st && x.2.reqs.isEmpty && x.2.engs.isEmpty) then
    ({ s1 with retired := s1.retired.filter (fun x => x.2.stream != st) } : State).giveStream st else s1
/-- What is left of an engine command whose word held for this request when its task went: it is none where its unit refused it, and an unknown one makes its arrival (R268, R270). -/
def State.heldGone (s : State) (k : Nat) (t : Thread) (p : PendReq) (r : Reply) : State × Bool :=
  match t.status with
  | .holding h => if h.tag != p.req.tag then (s, false) else match h.kind, r.outcome with
    | .xducer _, .ok res => (s, res.headD 0 != 0)
    | .xducer _, .error (_, some _, _) => (s, true)
    | .xducer _, .error (_, none, _) => (s.sendLost t k p.req, false)
    | .ctend, .error (_, some _, _) => (s, true)
    | .ctend, .error (_, none, _) => (s.sendLost t k p.req, false)
    | _, _ => (s, false)
  | _ => (s, false)
/-- A failure of a request of a task that has gone takes the path of R270. -/
def State.reportGone (s : State) (k : Nat) (t : Thread) (p : PendReq) (r : Reply) : State :=
  if p.req.typ == .succdec then s.reportDec (s.env t k 0) p.req r else
  match r.outcome with
  | .error (_, c, _) => if p.posted then s.report (s.env t k 0) true false (c.getD .remoteUnknown) 0 (p.req.serial.setWidth 64) false else s
  | .ok _ => s
/-- A settling answer for a task that has gone; what waited for its request leaves. -/
def State.settleGone (s : State) (k : Nat) (t : Thread) (p : PendReq) (r : Reply) : State :=
  let x := (s.reportGone k t p r).heldGone k t p r
  let s1 := x.1.mapGone t.stream (fun u => if x.2 then (u.settle p.req.tag).endEngine p.req.serial else u.settle p.req.tag)
  State.sendFreed (fun s => (s.retired.find? (fun y => y.2.stream == t.stream)).map Prod.snd) (fun f s => s.mapGone t.stream f) (fun p r s => s.reportGone k t p r) t.reqs.length s1

/-- An answer that does not settle a request (R267): WAITING restarts its give-up clock; RETRY and BUSY do too, and it is sent again after the back-off of R132; FENCED changes nothing. -/
def PendReq.unsettled (p : PendReq) (r : Reply) (now : Nat) : PendReq :=
  match r with
  | .parked => { p with clock := now, waits := true }
  | .retry => { p with clock := now, tries := p.tries + 1, idle := true, waits := true }
  | .busy => { p with clock := now, tries := p.tries + 1, idle := true, waits := false }
  | _ => p
/-- The back-off after such an answer, for a request that has had `tries` RETRY and BUSY before (R132). -/
def State.backOff (s : State) (tag tries : Nat) (r : Reply) : State :=
  if r == .retry || r == .busy then s.at (s.cycle + 64 * 2 ^ min tries 10) (.backoffResend tag) else s
/-- An answer reaches the thread that sent its request, in its slot or gone (R267). -/
def State.deliver (s : State) (tag : Nat) (r : Reply) : State :=
  match s.findTag tag with
  | some (k, sl) => match s.thread k sl with
    | none => s
    | some t => match t.reqOf tag with
      | none => s
      | some p => if r.settles then s.settleAt k sl t p r
        else (s.setThread k sl (t.mapReq tag (fun x => x.unsettled r s.cycle))).backOff tag p.tries r
  | none => match s.findGone tag with
    | none => s
    | some (k, t) => match t.reqOf tag with
      | none => s
      | some p => if r.settles then s.settleGone k t p r
        else (s.mapGone t.stream (fun t => t.mapReq tag (fun x => x.unsettled r s.cycle))).backOff tag p.tries r

/-- The word holds; a word that R130 bounds counts from its first send or park. -/
def State.holdUntil (s : State) (k sl : Nat) (h : Hold) (lim : Option Word) : State :=
  match s.thread k sl with
  | none => s
  | some t => match lim with
    | none => s.setThread k sl { t with status := .holding h }
    | some v =>
      let ws := ((t.waitStart.map Prod.fst).getD s.cycle, v)
      (s.setThread k sl { t with status := .holding h, waitStart := some ws }).at (ws.1 + t.synclim) (.syncTimeout k sl)

/-- A word sends its one request and holds: an answer in the same step completes it. `lim` is the value of SYNC_TIMEOUT for a word that R130 bounds; `todo` and `data` are what a store posts afterwards; `exe` is what the owner does. -/
def State.sendHold (s : State) (k sl : Nat) (c : Ctl) (kind : HoldKind) (q : Request) (lim : Option Word) (todo : List Piece := []) (data : List Byte := [])
    (exe : Request → State → State × Reply := fun q s => s.perform q) : State :=
  let h : Hold := ⟨c, s.cycle, s.nextTag, kind, todo, [], data⟩
  match s.launchBy (addReq k sl) false (((s.thread k sl).map Thread.ctag).getD 0) q exe with
  | (s1, some r) =>
    if r.settles then
      let s2 := s1.mapThread k sl Thread.advance
      match s2.thread k sl with
      | some t => s2.resumeHold k sl t h q r
      | none => s2
    else s1.holdUntil k sl h lim
  | (s1, none) => s1.holdUntil k sl h lim

end Sys2Proof.Machine
end

