-- ==== Sys2Proof/Machine/Arrive.lean ====
section
/-! DEFINITION. Completion references and objects, and an engine's arrival (R82, R93, R94, R270). -/
namespace Sys2Proof.Machine

/-- Whether a completion reference is bad (R82, R86). -/
def refBad (r : Word) : Bool := bits r 17 15 != 0 || bits r 0 4 != 0 || decide (Config.localSize ≤ bits r 0 17)

/-- An engine command settles (R15, R261): wherever its thread is. A stream with nothing left outstanding is given back. -/
def State.settleEngine (s : State) (st serial : BitVec 32) : State :=
  let f := fun (t : Thread) => if t.stream == st then t.endEngine serial else t
  let s1 := { s with
    cores := s.cores.map (fun (c : Nat × Core) => (c.1, { c.2 with threads := c.2.threads.map (fun (x : Nat × Thread) => (x.1, f x.2)) }))
    saved := s.saved.map (fun (x : Nat × Saved) => (x.1, { x.2 with thread := f x.2.thread }))
    retired := s.retired.map (fun (x : Nat × Thread) => (x.1, f x.2)) }
  match s1.retired.find? (fun x => x.2.stream == st) with
  | some x => if x.2.reqs.isEmpty && x.2.engs.isEmpty then
      ({ s1 with retired := s1.retired.filter (fun y => y.2.stream != st) } : State).giveStream st else s1
  | none => s1

/-- The completion object an arrival leaves (R94): its two words and whether it became complete; none when the arrival is stale. -/
def objectAfter (x : Arrival) (w0 w1 : Word) : Option (Word × Word × Bool) :=
  let st := bits w0 30 2
  if (st != 1 && st != 2) || bits w0 32 32 != bits x.ref 32 32 || bits w0 0 12 == 0 then none
  else
    let r : Word × Word := match x.fail with
      | some (c, v) => if st == 1 then
          ((w0 &&& ~~~0xFFFC0000#64) ||| BitVec.ofNat 64 (2 * 2 ^ 30 + c.code * 2 ^ 18), v) else (w0, w1)
      | none => (w0, w1)
    let w := r.1 ||| BitVec.ofNat 64 (x.flags.toNat * 2 ^ 13 + (if x.illop then 2 ^ 12 else 0))
    some (w - 1, x.result.getD r.2, bits w 0 12 == 1)

/-- The cause of an arrival that comes back to the module of its task since its object did not take it (log 42). -/
def diverted (x : Arrival) : Option Cause := match x.fail with | some (.staleCompletion, v) => Cause.ofCode v.toNat | _ => none
/-- The record of an arrival that its object does not take, to the sink of its task (R94, log 42): the word that issued the command, the reference and, beside the record, the handle (R88). To a task of another module the arrival goes back, with its cause. -/
def State.divert (s : State) (x : Arrival) (c : Cause) : State :=
  if x.home != s.moduleNo then { s with outbox := s.outbox ++ [.completionArrival { x with module := x.home, fail := some (.staleCompletion, BitVec.ofNat 64 c.code), result := none, copy := none }] }
  else match s.issuer x.stream with
    | some (k, t, gone) =>
      let e := t.engs.find? (fun e => e.serial == x.serial)
      let s1 : State := { s with handles := s.handles ++ [(x.ref, BitVec.ofNat 64 (x.serial.toNat * 2 ^ 32 + (e.map EngCmd.copyTag).getD 0))] }
      s1.report (s.env t k x.serial) gone false c ((e.map EngCmd.pc).getD 0) x.ref false
    | none => s
/-- Arrive (R94): one event at the object. A stale arrival is diverted; so is one whose object cannot be read (R374, log 104). -/
def State.arriveObject (s : State) (x : Arrival) : State :=
  let key := localKey x.core (bits x.ref 0 17)
  match s.readMem key 16 with
  | (s1, none) => s1.divert x .eccUncorr
  | (s1, some l) => match objectAfter x (leWord (l.take 8)) (leWord (l.drop 8)) with
    | some (w0, w1, full) =>
      let s2 := s1.writeMem key (leBytes 8 w0.toNat ++ leBytes 8 w1.toNat)
      if full then s2.setFE (key / 16) true else s2
    | none => s1.divert x .staleCompletion

/-- An arrival: at its object, at its copy tag, at its thread's list, and the report of a failure: of every matrix command (R244), and of any command whose task has retired (R94, R87, R261, R270); a failed commit has its record already (R74), but not one whose outcome is unknown.
A command that has settled before, given up while its owner still ran it, makes no second arrival. -/
def State.arriveAll (s : State) (x : Arrival) : State :=
  if x.home != s.moduleNo then s.arriveObject x else match diverted x with
  | some c => s.divert x c
  | none => match s.issuer x.stream with
  | none => s
  | some (k, t, gone) => match t.engs.find? (fun e => e.serial == x.serial) with
    | none => s
    | some e =>
      let s1 := match x.fail with
        | some (c, _) => if (gone && (e.kind != EngKind.canopy || c == Cause.remoteUnknown)) || e.kind == EngKind.mma || e.kind == EngKind.mred then s.report (s.env t k x.serial) gone false c e.pc x.val else s
        | none => s
      let s2 := if x.module == s.moduleNo then s1.arriveObject x else s1
      let s3 := match x.copy with
        | some (k, tag) => s2.mapCore k (fun c => { c with copies := c.copies.del tag })
        | none => s2
      s3.settleEngine x.stream x.serial

/-- A drop is over when its arrival has come (R76, R397). -/
def State.dropDone (s : State) (x : Arrival) : State :=
  { s with drops := s.drops.filter (fun d => !(d.freed && (match d.ref with | some (_, e) => x.home == s.moduleNo && e.stream == x.stream && e.serial == x.serial | none => true))) }
def execCompletionArrival (x : Arrival) (s : State) : Host.Outcome State Fault Refusal := .next ((s.dropDone x).arriveAll x)

end Sys2Proof.Machine
end

