-- ==== Sys2Proof/Machine/Memory.lean ====
section
/-! DEFINITION. Loads and stores (R124 to R126), LDX (R85), GADDR (R188 to R191), VLD and VST (R218 to R221), synchronising accesses and bit instructions (R127 to R135), atomics (R136 to R139). -/
namespace Sys2Proof.Machine

def needR : Need := ⟨true, false, false, false⟩
def needW : Need := ⟨false, true, false, false⟩
def needRW : Need := ⟨true, true, false, false⟩

/-- The translations of an access installed in the caches (R66). -/
def State.fillAccess (s : State) (k : Nat) (pt va : Word) (n : Nat) : State :=
  if isLocal va || 2 ^ 52 ≤ va.toNat then s else (s.fill (dieOf k) pt va.toNat).fill (dieOf k) pt (va.toNat + n - 1)

/-- A fresh hold of the current thread's word. -/
def newHold (s : State) (c : Ctl) (kind : HoldKind) (todo : List Piece) (data : List Byte) : Hold := ⟨c, s.cycle, s.nextTag, kind, todo, [], data⟩

/-- The parts of an access, or the trap; a word that does not post its access waits while its own unsettled posted requests touch a byte of it (R337). -/
def withAccess (s0 : State) (t : Thread) (ctag : Nat) (need : Need) (ea : Word) (n : Nat) (posted : List Piece → Bool) (f : State → List Piece → WordRes) : WordRes :=
  let s := s0.fillAccess s0.k t.ptbase ea n
  match s0.access s0.k t.ptbase ctag need ea n with
  | .error e => .trap s e.1 e.2
  | .ok ps => if !posted ps && !(touching t ps).isEmpty then .wait s (.tags (touching t ps)) ea else f s ps
/-- An access that is posted when it leaves the core: not on a C page under a ctag, where its word waits for the answer (R126, R72). -/
def posts (ps : List Piece) : Bool := ps.all (fun p => !p.isOwn && p.ctag == 0)
/-- An access whose word holds. -/
def holds (_ : List Piece) : Bool := false

/-! ### Loads -/

/-- A load word of `size` bytes (R124, R125). -/
def loadWord (i : Instr) (c : Ctl) (f size : Nat) (d base off : Reg) : State → State :=
  runWord i c { immOk := true, reads := [base], writes := if size == 16 then [d, d + 1#6] else [d], lag := 4 } (fun s t =>
    let ea := t.rd base + t.offset off * BitVec.ofNat 64 size
    withAccess s t t.ctag needR ea size holds (fun s ps =>
      .stop (State.readNext s.k s.sl (ps.length + 1) s (newHold s c (.load f size d) ps []))))

def execLdb (c : Ctl) (d base off : Reg) (s : State) : Out := .next (loadWord (.ldb c d base off) c 0 1 d base off s)
def execLdbu (c : Ctl) (d base off : Reg) (s : State) : Out := .next (loadWord (.ldbu c d base off) c 1 1 d base off s)
def execLdh (c : Ctl) (d base off : Reg) (s : State) : Out := .next (loadWord (.ldh c d base off) c 2 2 d base off s)
def execLdhu (c : Ctl) (d base off : Reg) (s : State) : Out := .next (loadWord (.ldhu c d base off) c 3 2 d base off s)
def execLdw (c : Ctl) (d base off : Reg) (s : State) : Out := .next (loadWord (.ldw c d base off) c 4 4 d base off s)
def execLdwu (c : Ctl) (d base off : Reg) (s : State) : Out := .next (loadWord (.ldwu c d base off) c 5 4 d base off s)
def execLdd (c : Ctl) (d base off : Reg) (s : State) : Out := .next (loadWord (.ldd c d base off) c 6 8 d base off s)
def execLdq (c : Ctl) (d base off : Reg) (s : State) : Out := .next (loadWord (.ldq c d base off) c 7 16 d base off s)

/-- LDX (R85, R86): the ctag must be LIVE and of the thread's guest on every kind of page; checked last (R351, log 16). -/
def execLdx (c : Ctl) (d a b : Reg) (s : State) : Out :=
  .next (runWord (.ldx c d a b) c { reads := [a, b], writes := [d], lag := 4 } (fun s t =>
    let ea := t.rd a
    let ct := t.rd b
    match badByte ea 8 with
    | some v => .trap s .address v
    | none =>
      if bits ea 0 3 != 0 then .trap s .align ea
      else match s.access s.k t.ptbase 0 needR ea 8 with
        | .error e => .trap s e.1 e.2
        | .ok _ =>
          if 2 ^ 16 ≤ ct.toNat || !s.ctagOk ct.toNat t.guest then .trap s .ctagInvalid ct
          else withAccess s t ct.toNat needR ea 8 holds (fun s ps =>
            .stop (State.readNext s.k s.sl (ps.length + 1) s (newHold s c (.load 5 8 d) ps [])))) s)

/-- The parts of GADDR's four 8-byte reads, in ascending order. -/
def State.tableParts (s : State) (k : Nat) (t : Thread) (va : Word) : Except (Cause × Word) (List Piece) :=
  [0, 8, 16, 24].foldl (fun (r : Except (Cause × Word) (List Piece)) (o : Nat) => match r with
    | .error e => .error e
    | .ok l => match s.access k t.ptbase t.ctag needR (va + BitVec.ofNat 64 o) 8 with
      | .error e => .error e
      | .ok ps => .ok (l ++ ps)) (.ok [])
/-- GADDR (R189, R190). -/
def execGaddr (c : Ctl) (d a : Reg) (f : BitVec 3) (s : State) : Out :=
  .next (runWord (.gaddr c d a f) c { reads := [a, a + 1#6], writes := [d, d + 1#6], lag := 4 } (fun s0 t =>
    if bits t.dtbase 0 8 != 0 || 2 ^ 52 ≤ t.dtbase.toNat then .trap s0 .address t.dtbase
    else
      let va := t.dtbase + BitVec.ofNat 64 (32 * f.toNat)
      let s := s0.fillAccess s0.k t.ptbase va 32
      match s0.tableParts s0.k t va with
      | .error e => .trap s e.1 e.2
      | .ok ps => if !(touching t ps).isEmpty then .wait s (.tags (touching t ps)) va
        else .stop (State.readNext s.k s.sl (ps.length + 1) s (newHold s c (.gaddr d (t.rd a) (t.rdN (a.toNat + 1)) t.dtbase f.toNat) ps []))) s)

/-! ### Stores -/

/-- The store of a word (R125, R126): local bytes are written at once; other parts are posted. Of a store with a part on a C page under a ctag the parts in this module are one request, for whose answer the word holds, so that they are written in ascending order or not at all (R72, R123, log 80). -/
def storeParts (s : State) (t : Thread) (c : Ctl) (f n : Nat) (ea : Word) (ps : List Piece) (l : List Byte) : WordRes :=
  if ps.all Piece.isOwn then match s.writeAll (cutData ps l) with
    | .ok s1 => .done s1 0
    | .error e => .trap s e.1 e.2
  else
    let ctag := ps.find? (fun p => p.ctag != 0)
    let held := (cutData ps l).filter (fun x => ctag.isSome && moduleOf x.1.pa == s.moduleNo)
    let rest := (cutData ps l).filter (fun x => ctag.isNone || moduleOf x.1.pa != s.moduleNo)
    match t.sendWait ((held.take 1).length + rest.length) rest.length with
    | some w => .wait s w.1 w.2
    | none => match ctag with
      | none => .done (State.postParts s.k s.sl f n ea [] rest s) 0
      | some p => .stop ((s.put t.takeSerial).sendHold s.k s.sl c .store (heldStore (eventUnit false ea n ((held.map (fun x => x.1.size)).foldl (· + ·) 0)) (s.memReq s.k t .write true p f n) held) none (rest.map Prod.fst) (rest.map Prod.snd).flatten)

/-- A store word of `size` bytes. -/
def storeWord (i : Instr) (c : Ctl) (f size : Nat) (d base off : Reg) : State → State :=
  runWord i c { immOk := true, reads := if size == 16 then [base, d, d + 1#6] else [base, d], lag := 4 } (fun s t =>
    let ea := t.rd base + t.offset off * BitVec.ofNat 64 size
    withAccess s t t.ctag needW ea size posts (fun s ps =>
      storeParts s t c f size ea ps (if size == 16 then leBytes 8 (t.rd d).toNat ++ leBytes 8 (t.rdN (d.toNat + 1)).toNat else leBytes size (t.rd d).toNat)))

def execStb (c : Ctl) (d base off : Reg) (s : State) : Out := .next (storeWord (.stb c d base off) c 0 1 d base off s)
def execSth (c : Ctl) (d base off : Reg) (s : State) : Out := .next (storeWord (.sth c d base off) c 1 2 d base off s)
def execStw (c : Ctl) (d base off : Reg) (s : State) : Out := .next (storeWord (.stw c d base off) c 2 4 d base off s)
def execStd (c : Ctl) (d base off : Reg) (s : State) : Out := .next (storeWord (.std c d base off) c 3 8 d base off s)
def execStq (c : Ctl) (d base off : Reg) (s : State) : Out := .next (storeWord (.stq c d base off) c 4 16 d base off s)

/-! ### VLD and VST -/

def execVld (c : Ctl) (vd : VReg) (base count : Reg) (fmt : BitVec 5) (s : State) : Out :=
  .next (vecWord (.vld c vd base count fmt) c { reads := [base, count], writes := [count], lag := 4 } (fun s t =>
    let w := fmtWidth fmt.toNat
    let n := min (t.rd count).toNat 65535
    if !isAnyC fmt.toNat then .trap s .format (fmt.setWidth 64)
    else if 8 ≤ w && (t.rd base).toNat % (w / 8) != 0 then .trap s .align (t.rd base)
    else .stop (State.vldNext s.k s.sl (n + 2) (s.fillAccess s.k t.ptbase (t.rd base) 1)
      (newHold s c (.vld vd (t.rd base) count fmt.toNat n 0 []) [] []))) s)

/-- The accesses that a VST of `n` bytes at `va` holds for, up to the first that faults: those of its blocks that it does not post, and that of its last byte where it is read first (R337, R219). -/
def State.vstHeld (s : State) (k : Nat) (t : Thread) (va : Word) (n : Nat) (last : Bool) : List Piece :=
  let all := ((cutRange 64 (n + 1) va.toNat n).map (fun b => s.access k t.ptbase t.ctag needW (BitVec.ofNat 64 b.1) b.2)).takeWhile (fun r => match r with | .ok _ => true | .error _ => false)
  let ps := (all.map (fun r => match r with | .ok l => l | .error _ => [])).flatten
  ps.filter (fun p => p.isOwn || p.ctag != 0) ++ (if last then (ps.filter (fun p => p.va.toNat + p.size == va.toNat + n)).map (fun p => { p with pa := p.pa + p.size - 1, size := 1 }) else [])
def execVst (c : Ctl) (vd : VReg) (base count : Reg) (fmt : BitVec 5) (s : State) : Out :=
  .next (vecWord (.vst c vd base count fmt) c { reads := [base, count], writes := [count], lag := 4 } (fun s t =>
    let w := fmtWidth fmt.toNat
    let v := t.vr vd
    let m := min (t.rd count).toNat v.len
    if !isAnyC fmt.toNat then .trap s .format (fmt.setWidth 64)
    else match fmtFault v (· == fmt.toNat) with
      | some e => .trap s e.1 e.2
      | none =>
        if 8 ≤ w && (t.rd base).toNat % (w / 8) != 0 then .trap s .align (t.rd base)
        else
          let l := vstBytes w m v.runs
          let tags := touching t (s.vstHeld s.k t (t.rd base) l.length (bitsKept w m != 0))
          if !tags.isEmpty then .wait s (.tags tags) (t.rd base)
          else .stop (State.vstNext s.k s.sl (l.length + 2) (s.fillAccess s.k t.ptbase (t.rd base) 1) (newHold s c (.vst vd (t.rd base) count m 0) [] l))) s)

/-! ### Synchronising accesses and bit instructions -/

/-- Whether an address is mapped to a page that reaches no local store (R128, R122); a Z page raises PERMISSION (R97, R135). -/
def State.missesLocal (s : State) (k : Nat) (pt ea : Word) : Bool :=
  !isLocal ea && match s.leaf (dieOf k) pt ea.toNat with
    | .ok (e, _) => !e.getLsbD 6 && !e.getLsbD 5
    | .error _ => false
/-- The local-store part of a synchronising or bit access; ADDRESS when it reaches none, before the rights and the ctag (R128, R135, R351). -/
def withLocalPart (s : State) (t : Thread) (need : Need) (ea : Word) (n : Nat) (posted : List Piece → Bool) (f : State → Piece → WordRes) : WordRes :=
  match badByte ea n with
  | some b => .trap s .address b
  | none =>
    if s.missesLocal s.k t.ptbase ea then .trap s .address ea
    else withAccess s t t.ctag need ea n posted (fun s ps => match ps with
      | [p] => f s p
      | _ => .trap s .address ea)

/-- A word whose attempt is one event in the own local store, or a request elsewhere (R128, R129, R132). -/
def syncWord (s : State) (t : Thread) (c : Ctl) (kind : HoldKind) (q : Request) (p : Piece) (serialed : Bool) (ea : Word) : WordRes :=
  if p.isOwn then
    match s.attempt q with
    | some (s1, r) => .stop ((State.changed s s1 (p.key / 16)).resumeHold s.k s.sl t (newHold s c kind [] []) q r)
    | none => .wait s (.granule (p.key / 16)) ea
  else if serialed then match t.sendWait 1 0 with
    | some w => .wait s w.1 w.2
    | none => .stop ((s.put t.takeSerial).sendHold s.k s.sl c kind q (some ea))
  else .stop (s.sendHold s.k s.sl c kind q (some ea))

/-- LDS and STS (R127, R128): `typ` says which, `sz` 0 .W, 1 .D, 2 .Q. -/
def syncAccess (i : Instr) (c : Ctl) (typ : ReqType) (sz : BitVec 2) (d base off : Reg) : State → State :=
  runWord i c { immOk := true, reads := if typ == .sts then (if sz == 2#2 then [base, d, d + 1#6] else [base, d]) else [base]
                writes := if typ == .sts then [] else if sz == 2#2 then [d, d + 1#6] else [d], lag := 4 } (fun s t =>
    let n := 4 * 2 ^ sz.toNat
    let ea := t.rd base + t.offset off * BitVec.ofNat 64 n
    let need : Need := ⟨typ != .sts, typ != .lds, false, false⟩
    if ea.toNat % n != 0 then .trap s .align ea
    else withLocalPart s t need ea n holds (fun s p =>
      let data := if typ == .sts then (leBytes (min n 8) (t.rd d).toNat ++ (if n == 16 then leBytes 8 (t.rdN (d.toNat + 1)).toNat else [])) else []
      syncWord s t c (if typ == .sts then .store else .lds sz.toNat d)
        { s.memReq s.k t typ (typ != .lds) p (sz.toNat + if typ == .ldsc then 4 else 0) n with bytes := data } p (typ != .lds) ea))
def execLds (c : Ctl) (sz : BitVec 2) (d base off : Reg) (s : State) : Out := .next (syncAccess (.lds c sz d base off) c .lds sz d base off s)
def execLdsC (c : Ctl) (sz : BitVec 2) (d base off : Reg) (s : State) : Out := .next (syncAccess (.ldsC c sz d base off) c .ldsc sz d base off s)
def execSts (c : Ctl) (sz : BitVec 2) (d base off : Reg) (s : State) : Out := .next (syncAccess (.sts c sz d base off) c .sts sz d base off s)

/-- FESET and FECLR (R134): one event locally, posted elsewhere. -/
def bitWrite (i : Instr) (c : Ctl) (f : Nat) (a : Reg) : State → State :=
  runWord i c { reads := [a], lag := 4 } (fun s t =>
    withLocalPart s t needW (t.rd a) 1 posts (fun s p =>
      if p.isOwn then .done (s.setFE (p.key / 16) (f == 0)) 0
      else match t.sendWait 1 1 with
        | some w => .wait s w.1 w.2
        | none => .done ((s.put t.takeSerial).post s.k s.sl (s.memReq s.k t .febit true p f 1)) 0))
def execFeset (c : Ctl) (a : Reg) (s : State) : Out := .next (bitWrite (.feset c a) c 0 a s)
def execFeclr (c : Ctl) (a : Reg) (s : State) : Out := .next (bitWrite (.feclr c a) c 1 a s)
def execFetest (c : Ctl) (d a : Reg) (s : State) : Out :=
  .next (runWord (.fetest c d a) c { reads := [a], writes := [d], lag := 4 } (fun s t =>
    withLocalPart s t needR (t.rd a) 1 holds (fun s p =>
      if p.isOwn then .done (s.put (t.wr d (if s.fe (p.key / 16) then 1 else 0))) 0
      else .stop (s.sendHold s.k s.sl c (.fetest d) (s.memReq s.k t .fetest false p 2 1) none))) s)
/-- WAITF and WAITF.E (R134). -/
def bitWait (i : Instr) (c : Ctl) (empty : Bool) (a : Reg) : State → State :=
  runWord i c { reads := [a], lag := 4 } (fun s t =>
    withLocalPart s t needR (t.rd a) 1 holds (fun s p =>
      syncWord s t c .nothing { s.memReq s.k t .waitf false p 3 1 with words := [if empty then 1 else 0] } p false (t.rd a)))
def execWaitf (c : Ctl) (a : Reg) (s : State) : Out := .next (bitWait (.waitf c a) c false a s)
def execWaitfE (c : Ctl) (a : Reg) (s : State) : Out := .next (bitWait (.waitfE c a) c true a s)

/-! ### Atomics -/

/-- AMO and AMOW (R137, R138): in the own local store one event; else a request, posted when d is g0 as a store is; one that CANOPY_FULL ends has used its serial (log 96). -/
def amoWord (i : Instr) (c : Ctl) (f : Nat) (w4 : Bool) (d a b : Reg) : State → State :=
  runWord i c { reads := if f == 7 then [a, b, d] else [a, b], writes := [d], lag := 4 } (fun s t =>
    let ea := t.rd a
    let n := if w4 then 4 else 8
    if ea.toNat % n != 0 then .trap s .align ea
    else if 6 ≤ f && 1 < t.cnt then .trap s .multiplicity (BitVec.ofNat 64 t.cnt)
    else withAccess s t t.ctag needRW ea n (fun ps => posts ps && d == 0#6) (fun s ps => match ps with
      | [p] =>
        let v := (t.rd b).toNat % 2 ^ (8 * n)
        let cmp := (t.rd d).toNat % 2 ^ (8 * n)
        let q : Request := { s.memReq s.k t .atomic true p f n with words := [BitVec.ofNat 64 v, BitVec.ofNat 64 cmp] }
        if p.isOwn then
          let r := s.atomic p f v cmp t.cnt
          .stop (r.1.resumeHold s.k s.sl t (newHold s c (.atomic w4 d) [] []) q r.2)
        else
          let posted := posts ps && d == 0#6
          match t.sendWait 1 (if posted then 1 else 0) with
          | some w => .wait s w.1 w.2
          | none =>
            if posted then .done ((s.put t.takeSerial).post s.k s.sl q) 0
            else .stop ((s.put t.takeSerial).sendHold s.k s.sl c (.atomic w4 d) q none)
      | _ => .trap s .align ea))
def execAadd (c : Ctl) (w4 : Bool) (d a b : Reg) (s : State) : Out := .next (amoWord (.aadd c w4 d a b) c 0 w4 d a b s)
def execAmin (c : Ctl) (w4 : Bool) (d a b : Reg) (s : State) : Out := .next (amoWord (.amin c w4 d a b) c 1 w4 d a b s)
def execAmax (c : Ctl) (w4 : Bool) (d a b : Reg) (s : State) : Out := .next (amoWord (.amax c w4 d a b) c 2 w4 d a b s)
def execAand (c : Ctl) (w4 : Bool) (d a b : Reg) (s : State) : Out := .next (amoWord (.aand c w4 d a b) c 3 w4 d a b s)
def execAor (c : Ctl) (w4 : Bool) (d a b : Reg) (s : State) : Out := .next (amoWord (.aor c w4 d a b) c 4 w4 d a b s)
def execAxor (c : Ctl) (w4 : Bool) (d a b : Reg) (s : State) : Out := .next (amoWord (.axor c w4 d a b) c 5 w4 d a b s)
def execAswp (c : Ctl) (w4 : Bool) (d a b : Reg) (s : State) : Out := .next (amoWord (.aswp c w4 d a b) c 6 w4 d a b s)
def execAcas (c : Ctl) (w4 : Bool) (d a b : Reg) (s : State) : Out := .next (amoWord (.acas c w4 d a b) c 7 w4 d a b s)

end Sys2Proof.Machine
end

