-- ==== Sys2Proof/Machine/Local.lean ====
section
/-! DEFINITION. The local directory (R140 to R145), FENCE (R146, R147), RSYNC and RSTAT (R273, R274). -/
namespace Sys2Proof.Machine

/-! ### The local directory

Its words act where they issue: only the core's own words see it, and they act in the order in which they issue (R120, R144). -/

/-- LKP (R142): the lowest matching entry. -/
def lookupDir (c : Core) (ctag : Nat) (va : Word) : Word :=
  match c.dir.find? (fun e => e.2.ctag == ctag && e.2.va / 2 ^ (8 + e.2.size) == va.toNat / 2 ^ (8 + e.2.size)) with
  | some e => 0x8000000000000000#64 + BitVec.ofNat 64 (e.2.slot + va.toNat % 2 ^ (8 + e.2.size))
  | none => BitVec.allOnes 64
def execLkp (c : Ctl) (d a : Reg) (s : State) : Out :=
  .next (runWord (.lkp c d a) c { reads := [a], writes := [d] } (fun s t =>
    .next (t.wr d (if (t.rd a).toNat < 2 ^ 52 then lookupDir (s.core s.k) t.ctag (t.rd a) else BitVec.allOnes 64)) 0) s)
/-- DSET (R143, R145). -/
def execDset (c : Ctl) (d a b : Reg) (s : State) : Out :=
  .next (runWord (.dset c d a b) c { reads := [a, b], writes := [d] } (fun s t =>
    let x := t.rd b
    let va := t.rd a
    let size := bits x 8 3
    let len := 2 ^ (8 + size)
    let slot := bits x 16 17
    if bits x 33 15 != 0 || bits x 11 5 != 0 || bits x 7 1 != 0 || 5 < size then .trap s .dirArg x
    else if 2 ^ 52 ≤ va.toNat || va.toNat % len != 0 then .trap s .align va
    else if slot % len != 0 then .trap s .align x
    else if Config.localSize < slot + len then .trap s .address x
    else
      let old := ((s.core s.k).dir.find (bits x 0 7)).isSome
      .done ((s.mapCore s.k (fun c => { c with dir := c.dir.put (bits x 0 7) ⟨va.toNat, bits x 48 16, size, slot⟩ })).put
        (t.wr d (if old then 1 else 0))) 0) s)
/-- DCLR (R144). -/
def execDclr (c : Ctl) (a : Reg) (s : State) : Out :=
  .next (runWord (.dclr c a) c { reads := [a] } (fun s t =>
    if bits (t.rd a) 7 57 != 0 then .trap s .dirArg (t.rd a)
    else .done (s.mapCore s.k (fun c => { c with dir := c.dir.del (bits (t.rd a) 0 7) })) 0) s)
/-- DINV (R144). -/
def execDinv (c : Ctl) (d a b : Reg) (s : State) : Out :=
  .next (runWord (.dinv c d a b) c { reads := [a, b], writes := [d] } (fun s t =>
    if bits (t.rd a) 1 63 != 0 then .trap s .dirArg (t.rd a)
    else if bits (t.rd b) 16 48 != 0 then .trap s .dirArg (t.rd b)
    else
      let hit := fun (e : Nat × DirEntry) => t.rd a = 1 || e.2.ctag == bits (t.rd b) 0 16
      let n := ((s.core s.k).dir.filter hit).length
      .done ((s.mapCore s.k (fun c => { c with dir := c.dir.filter (fun e => !hit e) })).put (t.wr d (BitVec.ofNat 64 n))) 0) s)

/-! ### FENCE, RSYNC, RSTAT -/

/-- Whether a scope of the thread on core `k` covers an owner (R147): 0 CORE, 1 MARKET, 2 DIE, 3 MODULE, 4 SYSTEM. A posted request never goes by a local address, so CORE covers none. -/
def State.covers (s : State) (k scope : Nat) (e : Endpoint) : Bool :=
  match scope with
  | 0 => false
  | 1 => e.kind == 0 && e.module == s.moduleNo && marketOf (coreOf e) == marketOf k
  | 2 => e.kind ≤ 1 && e.module == s.moduleNo && e.die == dieOf k
  | 3 => e.module == s.moduleNo
  | _ => true
/-- The trap for unreported entries (R268): of the oldest one; every entry is then reported. -/
def reportUnknown (s : State) (t : Thread) : WordRes :=
  match t.unk.find? (fun u => !u.reported) with
  | none => .next t 0
  | some u =>
    .trapVal (s.put { t with unk := t.unk.map (fun x => { x with reported := true }) })
      (if u.reason == 3 then u.cause.getD .remoteUnknown else .remoteUnknown) (u.serial.setWidth 64) false
/-- FENCE.REL and FENCE.FULL (R147, R268). -/
def fenceRelease (i : Instr) (c : Ctl) (scope : BitVec 3) : State → State :=
  runWord i c {} (fun s t =>
    if t.posted.any (fun p => s.covers s.k scope.toNat p.req.dst) then .wait s (.fence scope.toNat) 0
    else if t.unk.any (fun u => !u.reported && (match u.owner with | some e => s.covers s.k scope.toNat e | none => true)) then reportUnknown s t
    else .next t 0)
def execFenceRel (c : Ctl) (scope : BitVec 3) (s : State) : Out := .next (fenceRelease (.fenceRel c scope) c scope s)
def execFenceFull (c : Ctl) (scope : BitVec 3) (s : State) : Out := .next (fenceRelease (.fenceFull c scope) c scope s)
/-- FENCE.ACQ completes in its issue slot; its scope has no other effect (R147, R340). -/
def execFenceAcq (c : Ctl) (scope : BitVec 3) (s : State) : Out := .next (runWord (.fenceAcq c scope) c {} (fun _ t => .next t 0) s)
/-- FENCE.ENGINE (R147): it covers no owner, but every scope covers an entry restored from a frame (R268). -/
def execFenceEngine (c : Ctl) (s : State) : Out :=
  .next (runWord (.fenceEngine c) c {} (fun s t =>
    if !t.engs.isEmpty then .wait s .engines 0
    else if t.unk.any (fun u => !u.reported && u.owner.isNone) then reportUnknown s t
    else .next t 0) s)
def execRsync (c : Ctl) (s : State) : Out :=
  .next (runWord (.rsync c) c {} (fun s t => if t.reqs.isEmpty then reportUnknown s t else .wait s .requests 0) s)

/-- An entry as RSTAT and a frame show it (R274). -/
def UnkEntry.word (u : UnkEntry) : Word :=
  BitVec.ofNat 64 (u.serial.toNat + u.typ * 2 ^ 32 + u.reason * 2 ^ 40 + (match u.cause with | some c => c.code * 2 ^ 42 | none => 0))
def execRstat (c : Ctl) (d a : Reg) (s : State) : Out :=
  .next (runWord (.rstat c d a) c { reads := [a], writes := [d] } (fun s t =>
    match (t.rd a).toNat with
    | 0 => .next (t.wr d (BitVec.ofNat 64 t.reqs.length)) 0
    | 1 => .next (t.wr d (BitVec.ofNat 64 (t.unk.length + (if t.unkOver then 2 ^ 63 else 0)))) 0
    | 2 => match t.unk with
      | [] => .next (t.wr d (BitVec.allOnes 64)) 0
      | u :: l => .next (({ t with unk := l } : Thread).wr d u.word) 0
    | 3 => .next (({ t with unk := [], unkOver := false } : Thread).wr d 0) 0
    | _ => .trap s .remoteArg (t.rd a)) s)

end Sys2Proof.Machine
end

