-- ==== Sys2Proof/Machine/Canopy.lean ====
section
/-! DEFINITION. The canopy: its instructions (R79 to R86), the allocator's requests, commits (R74, R75) and drops (R76). -/
namespace Sys2Proof.Machine

/-! ### Commit -/

/-- Cells in ascending order of their virtual addresses. -/
def insertCell (x : Cell) : List Cell → List Cell
  | [] => [x]
  | y :: l => if x.va.toNat < y.va.toNat then x :: y :: l else y :: insertCell x l
def State.cellsOf (s : State) (t : Nat) : List Cell := (s.cells.filter (fun c => c.ctag == t)).foldl (fun l c => insertCell c l) []
/-- The lowest set bit of a mask. -/
def lowestBit (x : BitVec 64) : Nat := ((List.range 64).find? (fun i => x.getLsbD i)).getD 0

/-- The check phase (R74) over cells in ascending address: reservations made in the state, and the lowest failing address; one whose copy cannot be read fails too (R374, log 104). -/
def State.commitCheck (p : Nat) (chk : Bool) : List Cell → State → Option (Cause × Word) → State × Option (Cause × Word)
  | [], s, bad => (s, bad)
  | c :: l, s, bad =>
    match (if p == 0 then none else s.cell c.blk p) with
    | some d =>
      if chk && (c.wmask &&& d.cmask) != 0 then
        State.commitCheck p chk l s (some (bad.getD (.commitConflict, c.va + BitVec.ofNat 64 (lowestBit (c.wmask &&& d.cmask)))))
      else State.commitCheck p chk l s bad
    | none =>
      if p == 0 then State.commitCheck p chk l s bad
      else if s.heapFull c.blk then State.commitCheck p chk l s (some (bad.getD (.canopyFull, c.va)))
      else match s.blockView c.blk (s.ctagRec p).parent with
        | (s1, some d) => State.commitCheck p chk l (s1.putCell ⟨c.blk, p, c.va, d, 0, 0⟩) bad
        | (_, none) => State.commitCheck p chk l s (some (bad.getD (.eccUncorr, c.va)))

/-- Bytes of `new` where the mask says so, else of `old`. -/
def mergeBytes (mask : BitVec 64) (old new : List Byte) : List Byte :=
  (List.range 64).map (fun i => if mask.getLsbD i then new.getD i 0 else old.getD i 0)
/-- Written bytes into a home block: whole 8-byte words at once, single bytes elsewhere. -/
def State.mergeHome (s : State) (c : Cell) : State :=
  (List.range 8).foldl (fun s j =>
    if bits c.wmask (8 * j) 8 == 255 then s.writeMem (c.blk * 64 + 8 * j) ((c.data.drop (8 * j)).take 8)
    else (List.range 8).foldl (fun s i =>
      if c.wmask.getLsbD (8 * j + i) then s.writeMem (c.blk * 64 + 8 * j + i) [c.data.getD (8 * j + i) 0] else s) s) s
/-- The apply phase for one cell (R74). -/
def State.commitCell (p : Nat) (chk : Bool) (s : State) (c : Cell) : State :=
  if p == 0 then s.mergeHome c
  else match s.cell c.blk p with
    | some d => s.putCell { d with data := mergeBytes c.wmask d.data c.data, wmask := d.wmask ||| c.wmask
                                   cmask := if chk then d.cmask ||| c.wmask else d.cmask }
    | none => s
/-- A commit of `t` into its parent (R74): the cause of its failure, or the cells it merged. On a failure nothing changes but the state of `t`, and what the reading of home blocks corrects and counts (R374). -/
def State.commitNow (s0 : State) (t : Nat) : State × Except (Cause × Word) (List Cell) :=
  let r := s0.ctagRec t
  let l := s0.cellsOf t
  let s := if r.parent == 0 then s0 else l.foldl (fun s c => if (s.cell c.blk r.parent).isNone then (s.blockView c.blk (s.ctagRec r.parent).parent).1 else s) s0
  match State.commitCheck r.parent r.chk l s none with
  | (_, some e) => (s.setCtag t { r with state := if r.state == .committing then .live else r.state, job := none }, .error e)
  | (s1, none) =>
    let s2 := l.foldl (State.commitCell r.parent r.chk) s1
    (((({ s2 with cells := s2.cells.filter (fun c => c.ctag != t) } : State).setCtag t { r with state := .retired, job := none }).latch [t]).forget [t], .ok l)

/-- The module's ctag allocator, on port die 0 (R264), which R258 gives no index (log 84). -/
def State.allocator (s : State) : Endpoint := ⟨2, s.moduleNo, 0, 6⟩
/-- A commit that software or the distributor asked for comes to its turn (R82 step 3): the report of a failure names `t` in its PC field (R74). -/
def execCanopyCommit (t : Nat) (s : State) : Host.Outcome State Fault Refusal :=
  .next (match (s.ctagRec t).job with
    | none => s
    | some o => match s.commitNow t, o with
      | (s1, .error e), some (ref, env) =>
        (s1.report env (s.retired.any (fun x => x.2.stream == env.stream)) false e.1 (BitVec.ofNat 64 (4 * t)) e.2).sendArrival
          (plainArrival s.allocator env env.core ref (some e))
      | (s1, .ok _), some (ref, env) => s1.sendArrival (plainArrival s.allocator env env.core ref none)
      | (s1, _), none => s1)

/-! ### Drop -/

/-- Whether a kill that a drop asked for is still to come (R76). -/
def State.dropKills (s : State) (d : Drop) : Bool :=
  let hit := fun (t : Thread) => t.kill.isSome && d.members.contains t.ctag && (s.ctagRec t.ctag).kill
  s.cores.any (fun (c : Nat × Core) => c.2.threads.any (fun x => hit x.2)) || s.saved.any (fun x => hit x.2.thread)
/-- The cells of a drop's members are freed, after every kill of R76; then the arrival, with which the drop is over. -/
def execCanopyDrop (t : Nat) (s : State) : Host.Outcome State Fault Refusal :=
  .next (match s.drops.find? (fun d => d.root == t && !d.freed) with
    | none => s
    | some d =>
      if s.dropKills d then s.at (s.cycle + 1) (.canopyDrop t)
      else
        let free := fun (l : List Drop) => ({ s with cells := s.cells.filter (fun c => !d.members.contains c.ctag), drops := l } : State)
        match d.ref with
        | some (ref, env) => (free (s.drops.map (fun x => if x == d then { x with freed := true } else x))).sendArrival (plainArrival s.allocator env env.core ref none)
        | none => free (s.drops.filter (· != d)))

/-! ### The instructions -/

/-- A canopy request of the current thread (R79): the waits, one serial, and the allocator's answer, for which the word holds; `lim` is p of a CTALLOC, whose wait R80 bounds. -/
def canopyWord (s : State) (t : Thread) (c : Ctl) (f : Nat) (l : List Word) (kind : HoldKind) (lim : Option Word) : WordRes :=
  match t.sendWait 1 0 with
  | some w => .wait s w.1 w.2
  | none =>
    if 2 ≤ f && t.engs.length ≥ Config.maxEngine then .wait s .engineCount 0
    else
      let t1 := if 2 ≤ f then { t.takeSerial with engs := t.engs ++ [⟨.canopy, t.serial, 0, (l.drop 1).headD 0, t.ctag, t.pc⟩] } else t.takeSerial
      .stop ((s.put t1).sendHold s.k s.sl c kind
        { typ := .canopy, src := s.endpoint s.k, dst := s.allocator, serialed := true, stream := t.stream, serial := t.serial, ack := t.ackw, sent := s.us
          addr := 0, off := 0, f := f, lsize := 0, words := l, bytes := [], ctag := 0, va := 0, cnt := t.cnt, guest := t.guest, ptbase := t.ptbase, tag := 0 } lim)

/-- CTALLOC (R80). -/
def execCtalloc (c : Ctl) (d a b : Reg) (s : State) : Host.Outcome State Fault Refusal :=
  .next (runWord (.ctalloc c d a b) c { reads := [a, b], writes := [d] } (fun s t =>
    canopyWord s t c 0 [t.rd a, t.rd b] (.ctalloc d (t.rd a)) (some (t.rd a))) s)
/-- CTSET (R81). -/
def execCtset (c : Ctl) (d a : Reg) (s : State) : Host.Outcome State Fault Refusal :=
  .next (runWord (.ctset c d a) c { reads := [a], writes := [d] } (fun s t =>
    canopyWord s t c 1 [t.rd a] (.ctset d (t.rd a).toNat) none) s)
/-- Whether earlier work under ctag `x` is unsettled (R82 step 1, R83): requests, commands whose requests are on their way, copy commands; with the posted requests of R349 for a commit. -/
def State.ctagBusy (s : State) (k : Nat) (t : Thread) (x : Nat) (commit : Bool) : Bool :=
  t.reqs.any (fun p => p.under == x || (commit && p.posted && p.req.dst.module == s.moduleNo)) || t.engs.any (fun e => e.kind == .copy && e.ctag == x)
    || (s.core k).sends.any (fun p => p.req.stream == t.stream && p.under == x)
/-- CTCOMMIT and CTDROP (R82, R83). K.SYNCLIM bounds the wait for earlier work as it does every wait that counts as parked (log 85). -/
def endCtag (i : Instr) (c : Ctl) (f : Nat) (a b : Reg) : State → State :=
  runWord i c { reads := [a, b] } (fun s t =>
    if refBad (t.rd b) then .trap s .address (t.rd b)
    else if s.ctagBusy s.k t (t.rd a).toNat (f == 2) then .wait s (.ctagWork (t.rd a).toNat (f == 2)) 0
    else canopyWord s t c f [t.rd a, t.rd b] .ctend none)
def execCtcommit (c : Ctl) (a b : Reg) (s : State) : Host.Outcome State Fault Refusal := .next (endCtag (.ctcommit c a b) c 2 a b s)
def execCtdrop (c : Ctl) (a b : Reg) (s : State) : Host.Outcome State Fault Refusal := .next (endCtag (.ctdrop c a b) c 3 a b s)

/-- The word CTSTAT gives (R84): zero for a ctag of another guest, and for a FREE number, which belongs to none (log 24). -/
def State.ctagWord (s : State) (t guest : Nat) : Word :=
  let r := s.ctagRec t
  let st := s.ctagState t
  if st == .free || (t != 0 && r.guest != guest) then 0 else
  BitVec.ofNat 64 (min (2 ^ 32 - 1) (s.cells.filter (fun c => c.ctag == t)).length * 2 ^ 32 + min 255 (s.ctagHolders t) * 2 ^ 24
    + (if r.chk then 2 ^ 23 else 0) + (if r.kill then 2 ^ 22 else 0)
    + (match st with | .free => 0 | .live => 1 | .committing => 2 | .retired => 3) * 2 ^ 20
    + (if s.hasKids t then 2 ^ 19 else 0) + r.depth * 2 ^ 16 + r.parent)
def execCtstat (c : Ctl) (d a : Reg) (s : State) : Host.Outcome State Fault Refusal :=
  .next (runWord (.ctstat c d a) c { reads := [a], writes := [d] } (fun s t =>
    if 2 ^ 16 ≤ (t.rd a).toNat then .trap s .ctagInvalid (t.rd a) else .next (t.wr d (s.ctagWord (t.rd a).toNat t.guest)) 0) s)

/-! ### A request from elsewhere -/

/-- CANOPY at the allocator (R79, R265): an allocation that is held there is tried again every cycle (R80). -/
def execReqCanopy (m : Request) (s : State) : Host.Outcome State Fault Refusal :=
  .next (if m.words.length == 3 then
      let q := { m with words := m.words.take 2 }
      match s.perform q with
      | (s1, .parked) => s1
      | (s1, r) => (s1.keepReceipt q r).answer q r
    else s.serveReq m (fun s => s.perform m))

end Sys2Proof.Machine
end

