-- ==== Sys2Proof/Machine/Aw.lean ====
section
/-! DEFINITION. AW128 (R167), the summation tree (R231 to R233, R236), and the decoding of operand panels (R168, R169, R224). -/
namespace Sys2Proof.Machine

/-- An AW128 taken apart: significand, anchor, flags INX 1, NAN 2, PINF 4, NINF 8, INV 16 (R167). -/
structure Aw where
  s : Int
  a : Int
  f : Nat
deriving DecidableEq, Repr

def Aw.ofBits (x : BitVec 128) : Aw := ⟨(x.setWidth 96).toInt, ((x.extractLsb' 96 16)).toInt, bits x 112 5⟩
def Aw.toBits (x : Aw) : BitVec 128 := BitVec.ofNat 128 (wrapInt 96 x.s + wrapInt 16 x.a * 2 ^ 96 + x.f % 32 * 2 ^ 112)

/-- RoundOdd (R232) of T × 2^lo at 2^u: the significand, and whether something was lost. -/
def roundOdd (t : Int) (lo u : Int) : Int × Bool :=
  if u ≤ lo then (t * 2 ^ (lo - u).toNat, false)
  else
    let d : Int := 2 ^ (u - lo).toNat
    let q := t.natAbs / d.toNat
    if t.natAbs % d.toNat == 0 then ((if t < 0 then -(q : Int) else q), false)
    else
      let r := if q % 2 == 0 then q + 1 else q
      ((if t < 0 then -(r : Int) else r), true)

/-- AddRO (R233). -/
def Aw.add (x c : Aw) : Aw :=
  let f := x.f ||| c.f
  if x.s == 0 then ⟨c.s, c.a, f⟩
  else if c.s == 0 then ⟨x.s, x.a, f⟩
  else
    let lo := min x.a c.a
    let t : Int := x.s * 2 ^ (x.a - lo).toNat + c.s * 2 ^ (c.a - lo).toNat
    if t == 0 then ⟨0, 0, f⟩
    else
      let l : Int := (Nat.log2 t.natAbs : Int) + lo
      if l - lo ≤ 94 then ⟨t, lo, f⟩
      else
        let r := roundOdd t lo (l - 94)
        ⟨r.1, l - 94, if r.2 then f ||| 1 else f⟩

/-- The value of an AW128 (R167, R246) under a rounding mode that decides the sign of zero, and whether NV is raised. -/
def Aw.value (x : Aw) (mode : Nat) : Val × Bool :=
  let pinf := x.f / 4 % 2 == 1
  let ninf := x.f / 8 % 2 == 1
  if x.f / 2 % 2 == 1 || (pinf && ninf) then (.nan false, x.f / 16 % 2 == 1)
  else if pinf then (.inf false, false)
  else if ninf then (.inf true, false)
  else (.num (if x.s == 0 then mode == 4 else decide (x.s < 0)) x.s.natAbs x.a, false)

/-! ### Pairs (R231, R239) -/

/-- The quantum exponent of a format with a fixed anchor. -/
def quantum : Nat → Int
  | 4 => -24 | 5 => -16 | 6 => -9 | 7 => -4 | 8 => -3 | 9 => -1 | 20 => -2 | _ => 0
/-- The 16 matrix formats, with their rates. -/
def macRate : Nat → Nat
  | 1 => 2 | 2 => 8 | 3 => 32 | 4 => 32 | 14 => 32 | 5 => 64 | 6 => 64 | 16 => 64 | 17 => 64
  | 7 => 128 | 8 => 128 | 9 => 128 | 18 => 128 | 19 => 128 | 20 => 128 | 21 => 128 | _ => 0
def isF8 (c : Nat) : Bool := 5 ≤ c && c ≤ 9
def isInt8 (c : Nat) : Bool := c == 14 || (16 ≤ c && c ≤ 19)
def isLow (c : Nat) : Bool := c == 20 || c == 21
/-- A wide pair: its window is anchored at the largest product. -/
def widePair (a b : Nat) : Bool := a == b && 1 ≤ a && a ≤ 3
/-- Whether two formats form a pair. -/
def pairOk (a b : Nat) : Bool :=
  widePair a b || (a == 4 && b == 4) || (isF8 a && (isF8 b || isLow b)) || (isInt8 a && (isInt8 b || isLow b))
/-- Bits of an element in a panel: 2 for CB2 (R223, R224). -/
def panelWidth (c : Nat) : Nat := if c == 20 then 2 else fmtWidth c

/-! ### Block sums (R232) -/

/-- Products as (significand, exponent) pairs: their exact sum and its exponent. -/
def exactSum (l : List (Int × Int)) : Int × Int :=
  let lo := l.foldl (fun m p => min m p.2) ((l.headD (0, 0)).2)
  (l.foldl (fun (t : Int) (p : Int × Int) => t + p.1 * 2 ^ (p.2 - lo).toNat) 0, lo)
/-- BlockSum (R232): significand, anchor, inexact. -/
def blockSum (wide : Bool) (q : Int) (l : List (Int × Int)) : Int × Int × Bool :=
  let t := exactSum l
  if t.1 == 0 then (0, 0, false)
  else if !wide then (t.1 * 2 ^ (t.2 - q).toNat, q, false)
  else
    let e := l.foldl (fun (m : Option Int) (p : Int × Int) => if p.1 == 0 then m else
      let x : Int := (Nat.log2 p.1.natAbs : Int) + p.2
      some (match m with | none => x | some y => max x y)) none
    let u := e.getD 0 - 89
    let r := roundOdd t.1 t.2 u
    (r.1, u, r.2)

/-- Flags of one product, and the product when it is finite. -/
def product (x y : Val) : Nat × Option (Int × Int) :=
  match x, y with
  | .nan a, .nan b => (2 + (if a || b then 16 else 0), none)
  | .nan a, _ => (2 + (if a then 16 else 0), none)
  | _, .nan b => (2 + (if b then 16 else 0), none)
  | .inf a, .inf b => (if a == b then 4 else 8, none)
  | .inf a, .num n m _ => (if m == 0 then 18 else if a == n then 4 else 8, none)
  | .num n m _, .inf b => (if m == 0 then 18 else if n == b then 4 else 8, none)
  | .num n1 m1 e1, .num n2 m2 e2 => (0, some ((if n1 == n2 then (m1 * m2 : Int) else -(m1 * m2 : Int)), e1 + e2))
/-- Contribution(i, j) (R232) from its row and column of K elements and the two scales. -/
def contribution (wide : Bool) (q : Int) (xs ys : List Val) (scales : Option (Nat × Nat)) : Aw :=
  let ps := (xs.zip ys).map (fun p => product p.1 p.2)
  let f0 := ps.foldl (fun f p => f ||| p.1) 0
  let b := blockSum wide q (ps.filterMap Prod.snd)
  let f1 := if f0 / 4 % 2 == 1 && f0 / 8 % 2 == 1 then f0 ||| 16 else f0
  let r : Int × Nat := match scales with
    | none => (b.2.1, f1)
    | some (sa, sb) => if sa == 255 || sb == 255 then (b.2.1, f1 ||| 2)
      else (if b.1 == 0 then b.2.1 else b.2.1 + ((sa : Int) - 127) + ((sb : Int) - 127), f1)
  ⟨b.1, r.1, if b.2.2 then r.2 ||| 1 else r.2⟩

/-! ### Panels (R168, R224) -/

/-- The eight weights of a CB2 index. -/
def cb2 (word : BitVec 32) (idx : Nat) : List Val :=
  let s := (List.range 7).map (fun j => idx / 2 ^ (j + 1) % 2 == 1)
  let s7 := s.foldl (fun b x => b != x) false
  (List.range 8).map (fun j => .num (if j == 7 then s7 else s.getD j false) (bits word (4 * j) 4 + idx % 2) (-2))
/-- The 512 elements of a panel from its data bytes as one number. -/
def panel (cb : Tab (BitVec 32)) (fmt : Nat) (x : Nat) : List Val :=
  if fmt == 20 then (List.range 64).flatMap (fun n =>
    let idx := x / 2 ^ (16 * n) % 65536
    cb2 ((cb.find (idx / 256)).getD 0) idx)
  else (List.range 512).map (fun e => decodeElem fmt false (x / 2 ^ (e * fmtWidth fmt) % 2 ^ fmtWidth fmt))

end Sys2Proof.Machine
end

