-- ==== Sys2Proof/Machine/Compress.lean ====
section
/-! DEFINITION. Compressed pages: side entries, compressed blocks, and the port's choice when it stores one (R98 to R102). -/
namespace Sys2Proof.Machine

/-! ### CRC-32C (R99) -/

/-- One bit of the reflected Castagnoli polynomial. -/
def crcBit (c : BitVec 32) : BitVec 32 := (c >>> 1) ^^^ (if c.getLsbD 0 then 0x82F63B78#32 else 0#32)
def crcByte (c : BitVec 32) (b : Byte) : BitVec 32 :=
  crcBit (crcBit (crcBit (crcBit (crcBit (crcBit (crcBit (crcBit (c ^^^ b.setWidth 32))))))))
def crc32c (l : List Byte) : BitVec 32 := ~~~(l.foldl crcByte 0xFFFFFFFF#32)

/-! ### Granules (R100) -/

/-- The signed difference of two 32-bit words. -/
def delta (x x0 : Nat) : Int := (BitVec.ofNat 32 (x + 2 ^ 32 - x0)).toInt
/-- Whether a difference fits in `w` signed bits. -/
def fitsIn (w : Nat) (d : Int) : Bool := decide (-(2 : Int) ^ (w - 1) ≤ d) && decide (d < (2 : Int) ^ (w - 1))
/-- The four words of a granule. -/
def granWords (g : List Byte) : List Nat := (List.range 4).map (fun i => field g (4 * i) 4)
/-- The mode of a granule for width `w`, in the order 00b, 01b, 10b, 11b (R101). -/
def granMode (w : Nat) (prev : Option (List Byte)) (g : List Byte) : Nat :=
  if g.all (· == 0) then 0
  else if prev == some g then 1
  else match granWords g with
    | x0 :: l => if l.all (fun x => fitsIn w (delta x x0)) then 2 else 3
    | [] => 3
/-- Bytes of a payload. -/
def modeSize (w : Nat) (m : Nat) : Nat :=
  match m with
  | 2 => 4 + (3 * w + 7) / 8
  | 3 => 16
  | _ => 0
/-- The payload of a granule in a mode. -/
def payload (w m : Nat) (g : List Byte) : List Byte :=
  match m, granWords g with
  | 2, x0 :: l => leBytes 4 x0 ++ leBytes ((3 * w + 7) / 8) (l.zipIdx.foldl (fun n p => n + wrapInt w (delta p.1 x0) * 2 ^ (w * p.2)) 0)
  | 3, _ => g
  | _, _ => []
/-- The granules of a block. -/
def granules (b : List Byte) : List (List Byte) := (List.range 64).map (fun i => (b.drop (16 * i)).take 16)
/-- The modes of a block for width `w`. -/
def blockModes (w : Nat) (b : List Byte) : List Nat :=
  let gs := granules b
  (List.range 64).map (fun i => granMode w (if i = 0 then none else gs[i - 1]?) (gs.getD i []))
/-- LEN for width `w`. -/
def blockLen (w : Nat) (b : List Byte) : Nat := (blockModes w b).foldl (fun n m => n + modeSize w m) 24

/-- The width the port takes (R101): the smallest LEN, the smaller width on a tie. A LEN below 30 is none that a side entry can hold (R98, log 25). -/
def bestWidth (b : List Byte) : Option (Nat × Nat) :=
  (List.range 24).foldl (fun (r : Option (Nat × Nat)) i =>
    let n := blockLen (i + 1) b
    if n < 30 then r else match r with
      | none => some (i + 1, n)
      | some x => if n < x.2 then some (i + 1, n) else r) none

/-- A compressed block for width `w` (R99). -/
def compress (w : Nat) (b : List Byte) : List Byte :=
  let ms := blockModes w b
  let body := ((granules b).zip ms).flatMap (fun p => payload w p.2 p.1)
  leBytes 16 (ms.zipIdx.foldl (fun n p => n + p.1 * 4 ^ p.2) 0) ++ leBytes 4 (crc32c body).toNat
    ++ [if ms.contains 2 then BitVec.ofNat 8 w else 0, 0, 0, 0] ++ body

/-- What a stored 1 KiB block consists of: its side entry and its bytes (R98, R101). -/
def packBlock (b : List Byte) : BitVec 32 × List Byte :=
  if b.all (· == 0) then (0, [])
  else match bestWidth b with
    | some (w, n) => if n < 1024 then (BitVec.ofNat 32 (2 ^ 30 + n), compress w b) else (0x80000000#32, b)
    | none => (0x80000000#32, b)

/-! ### Reading a block (R98 to R100, R102) -/

/-- The granules from their modes and payload bytes; none when a granule equals one that does not exist. -/
def unpackGranules (w : Nat) : List Nat → List Byte → Option (List Byte) → List Byte → Option (List Byte)
  | [], _, _, acc => some acc
  | m :: ms, l, prev, acc =>
    let n := modeSize w m
    let r : Option (List Byte) := match m with
      | 0 => some (List.replicate 16 0)
      | 1 => prev
      | 2 =>
        let x0 := field l 0 4
        let d := leNat ((l.drop 4).take (n - 4))
        some (leBytes 4 x0 ++ (List.range 3).flatMap (fun i =>
          leBytes 4 (wrapInt 32 (x0 + intOf true w (d / 2 ^ (w * i))))))
      | _ => some (l.take 16)
    match r with
    | none => none
    | some g => unpackGranules w ms (l.drop n) (some g) (acc ++ g)

/-- A compressed block read (R99, R102): none when it is malformed. -/
def expand (l : List Byte) : Option (List Byte) :=
  let ms := (List.range 64).map (fun i => field l 0 16 / 4 ^ i % 4)
  let w := field l 20 1
  let body := l.drop 24
  if field l 21 3 != 0 || (if ms.contains 2 then w == 0 || 24 < w else w != 0)
    || ms.foldl (fun n m => n + modeSize w m) 0 != body.length || field l 16 4 != (crc32c body).toNat then none
  else unpackGranules w ms body none []

/-- A block of a Z page as it leaves its channel: its side entry, then its stored bytes (R101); none when they hold an uncorrectable error. -/
def State.readZ (s : State) (key : Nat) : State × Option (List Byte) :=
  let e := (s.side.find (key / 1024)).getD 0
  let n := match bits e 30 2 with | 1 => min 1023 (bits e 0 11) | 2 => 1024 | _ => 0
  match s.readMem (key / 1024 * 1024) n with
  | (s1, some l) => (s1, some (leBytes 4 e.toNat ++ l))
  | (s1, none) => (s1, none)
/-- What the copy port makes of it: the 1,024 bytes; none when the block is malformed (R102). -/
def expandZ (l : List Byte) : Option (List Byte) :=
  let e := BitVec.ofNat 32 (field l 0 4)
  let n := bits e 0 11
  match bits e 30 2 with
  | 0 => if bits e 0 30 = 0 then some (List.replicate 1024 0) else none
  | 1 => if bits e 11 19 != 0 || n < 30 || 1023 < n then none else expand ((l.drop 4).take n)
  | 2 => if bits e 0 30 != 0 then none else some ((l.drop 4).take 1024)
  | _ => none
/-- What the copy port sends for a block that it stores: the side entry, then the bytes. -/
def packZ (b : List Byte) : List Byte := leBytes 4 (packBlock b).1.toNat ++ (packBlock b).2
/-- A whole block stored, with its side entry, as one event (R101); what lies beyond the stored bytes stays. -/
def State.writeZ (s : State) (key : Nat) (l : List Byte) : State :=
  let e := BitVec.ofNat 32 (field l 0 4)
  { s.writeMem (key / 1024 * 1024) (l.drop 4) with side := if e = 0 then s.side.del (key / 1024) else s.side.put (key / 1024) e }

end Sys2Proof.Machine
end

