-- ==== Sys2Proof/Machine/Copy.lean ====
section
/-! DEFINITION. The copy port: CPY, CPY2, GATH, SCAT, CPYX, CSTAT (R87 to R111). A command moves one part after the other; each part is read, then written, in pieces inside one 1 KiB unit. -/
namespace Sys2Proof.Machine

/-- Register `i` of a command's block. -/
def nth (l : List Word) (i : Nat) : Word := (l.drop i).headD 0
/-- Where the completion reference and the replica stand in a block (R92). -/
def refIndex (f : Nat) : Nat := match f with | 0 => 3 | 1 => 5 | _ => 4
def replicaOf (f : Nat) (l : List Word) : Word := if f == 3 then 0 else nth l (refIndex f + 1)

/-! ### The geometry of a command -/

/-- Element widths of CPY2 (R103). -/
def widths2 : List Nat := [1, 2, 4, 6, 8, 16, 32, 64]
/-- CPY2: WIDTH, BITOFF, PITCH, ROWS, COLS. -/
def rectW (l : List Word) : Nat := bits (nth l 2) 8 8
def rectRow (l : List Word) : Nat := (bits (nth l 3) 0 32 * rectW l + 7) / 8
def rectRows (l : List Word) : Nat := if bits (nth l 3) 0 32 = 0 then 0 else bits (nth l 3) 32 32
/-- Bytes of the source from its address that CPY2 touches, and of the destination. -/
def rectSpan (l : List Word) : Nat :=
  if rectRows l = 0 then 0
  else (bits (nth l 2) 0 3 + ((rectRows l - 1) * bits (nth l 2) 32 32 + bits (nth l 3) 0 32) * rectW l + 7) / 8
def rectDest (l : List Word) : Nat := if rectRows l = 0 then 0 else (rectRows l - 1) * (nth l 4).toNat + rectRow l
/-- GATH and SCAT: SIZE, index width, COUNT (R106). -/
def geoSize (l : List Word) : Nat := bits (nth l 3) 48 16
def geoIdx (l : List Word) : Nat := 2 * 2 ^ bits (nth l 3) 40 2
def geoCount (l : List Word) : Nat := bits (nth l 3) 0 32
/-- CPYX: source and destination formats and widths, COUNT (R104). -/
def cvtS (l : List Word) : Nat := bits (nth l 3) 0 5
def cvtD (l : List Word) : Nat := bits (nth l 3) 8 5
def cvtCount (l : List Word) : Nat := bits (nth l 2) 0 32
def cvtSpan (l : List Word) (w : Nat) : Nat := (cvtCount l * w + 7) / 8

/-- The side of CPY whose 1 KiB units cut it: the translated one, or the source. -/
def cutSide (l : List Word) : Nat := bits (if (nth l 0).getLsbD 63 then nth l 1 else nth l 0) 0 10
/-- The number of parts of a command. -/
def unitCount (f : Nat) (l : List Word) : Nat :=
  match f with
  | 0 => if nth l 2 = 0 then 0 else (cutSide l + (nth l 2).toNat + 1023) / 1024
  | 1 => rectRows l
  | 4 => (cvtCount l + 1023) / 1024
  | _ => geoCount l

/-- A part: source address and bytes, destination address and bytes, and its offset in the command (R90). -/
structure CopyUnit where
  src : Word
  n : Nat
  dst : Word
  m : Nat
  off : Nat
deriving DecidableEq, Repr

/-- Part `i` of a command, whose list entry is `x`. -/
def copyUnit (f : Nat) (l : List Word) (i x : Nat) : CopyUnit :=
  let at' := fun (a : Word) (o : Nat) => a + BitVec.ofNat 64 o
  match f with
  | 0 =>
    let o := if i = 0 then 0 else 1024 * i - cutSide l
    let e := min (nth l 2).toNat (1024 * (i + 1) - cutSide l)
    ⟨at' (nth l 1) o, e - o, at' (nth l 0) o, e - o, o⟩
  | 1 =>
    let b := bits (nth l 2) 0 3 + i * bits (nth l 2) 32 32 * rectW l
    ⟨at' (nth l 1) (b / 8), (b % 8 + bits (nth l 3) 0 32 * rectW l + 7) / 8, at' (nth l 0) (i * (nth l 4).toNat), rectRow l, i * (nth l 4).toNat⟩
  | 4 =>
    let c := min 1024 (cvtCount l - 1024 * i)
    let ws := fmtWidth (cvtS l)
    let wd := fmtWidth (cvtD l)
    ⟨at' (nth l 1) (128 * i * ws), (c * ws + 7) / 8, at' (nth l 0) (128 * i * wd), (c * wd + 7) / 8, 128 * i * wd⟩
  | 2 => ⟨at' (nth l 1) (x * geoSize l), geoSize l, at' (nth l 0) (i * geoSize l), geoSize l, i * geoSize l⟩
  | _ => ⟨at' (nth l 1) (i * geoSize l), geoSize l, at' (nth l 0) (x * geoSize l), geoSize l, i * geoSize l⟩
/-- The current part of a command. -/
def CopyCmd.unit (c : CopyCmd) : CopyUnit := copyUnit c.f c.regs c.next (c.index.getD 0)
/-- Whether a command has a list of indices (R106), and has yet to read the entry of its part. -/
def CopyCmd.wantsIndex (c : CopyCmd) : Bool := (c.f == 2 || c.f == 3) && c.index.isNone

/-! ### From source bytes to destination bytes -/

/-- The bytes of a row from a bit stream (R103): byte j takes bits from one source byte or two; `total` bits, zero beyond them. -/
def shiftBytes (sh total m : Nat) (l : List (Option Byte)) : List (Option Byte) :=
  (List.range m).map (fun j =>
    let live := min 8 (total - 8 * j)
    let lo := l.getD j none
    let hi : Option Byte := if sh + live ≤ 8 then some 0 else l.getD (j + 1) none
    match lo, hi with
    | some a, some b => some (BitVec.ofNat 8 ((a.toNat + 256 * b.toNat) / 2 ^ sh % 2 ^ live))
    | _, _ => none)

/-- One element of CPYX (R105): the encoding, the flags, ILLOP. -/
def convertElem (l : List Word) (mode : Nat) (x : Nat) : Nat × Nat × Bool :=
  let v := decodeElem (cvtS l) false x
  let r : Rnd := ⟨mode, (nth l 3).getLsbD 20, false, false⟩
  let ill := cvtS l == 21 && x == 2
  let put := fun (v : Val) => let e := encodeElem (cvtD l) r v; (e.1, e.2, ill)
  if (nth l 3).getLsbD 24 then match v.times (decodeElem 2 false (bits (nth l 3) 32 32)) with
    | some p => put p
    | none => match ffmt (cvtD l) with
      | some f => (f.nan, fNV, ill)
      | none => (0, fNV, ill)
  else put v

/-- The elements of a part of CPYX: those whose bytes were read. -/
def convertPart (l : List Word) (mode n : Nat) (b : List (Option Byte)) : List (Option (Nat × Nat × Bool)) :=
  let ws := fmtWidth (cvtS l)
  (List.range n).map (fun i =>
    let x := ((b.drop (i * ws / 8)).take ((i * ws % 8 + ws + 7) / 8))
    if x.all Option.isSome then some (convertElem l mode (leNat (x.map (fun y => y.getD 0)) / 2 ^ (i * ws % 8) % 2 ^ ws)) else none)
/-- Elements packed (R103): a byte is written when every element in it is there. -/
def packElems (w m : Nat) (l : List (Option (Nat × Nat × Bool))) : List (Option Byte) :=
  let total := l.zipIdx.foldl (fun n p => match p.1 with | some x => n + x.1 * 2 ^ (w * p.2) | none => n) 0
  let bytes := leBytes m total
  bytes.zipIdx.map (fun p =>
    let first := 8 * p.2 / w
    if ((l.drop first).take ((8 * p.2 + 7) / w - first + 1)).all Option.isSome then some p.1 else none)

/-- What a part writes, with the flags and ILLOP it raises. -/
def unitBytes (c : CopyCmd) (u : CopyUnit) : List (Option Byte) × Nat × Bool :=
  match c.f with
  | 1 => (shiftBytes ((bits (nth c.regs 2) 0 3 + c.next * bits (nth c.regs 2) 32 32 * rectW c.regs) % 8) (bits (nth c.regs 3) 0 32 * rectW c.regs) u.m c.got, 0, false)
  | 4 =>
    let es := convertPart c.regs c.rnd (min 1024 (cvtCount c.regs - 1024 * c.next)) c.got
    (packElems (fmtWidth (cvtD c.regs)) u.m es,
     es.foldl (fun n e => match e with | some x => n ||| x.2.1 | none => n) 0,
     es.any (fun e => match e with | some x => x.2.2 | none => false))
  | _ => (if c.got.all Option.isSome then c.got else List.replicate u.m none, 0, false)

/-! ### Requests (R90, R267) -/

/-- The granules that bytes at `key` touch, of which `i` holds. -/
def touched (key : Nat) (l : List (Option Byte)) (i : Option Byte → Bool) : List Nat :=
  (l.zipIdx.filter (fun p => i p.1)).map (fun p => (key + p.2) / 16)
/-- A READ or WRITE at its owner: of a thread, or of a copy command or a lane, which reads a block of a Z page (a fourth word 1) and stores one (first word 1) compressed,
and sets the granules that it writes full (first word 2) (R95, R98, R101, log 29). -/
def State.performRW (s : State) (q : Request) : State × Reply :=
  if q.typ == .read && q.word 3 == 1 then match s.readZ (q.addr % 2 ^ 44) with
    | (s1, some l) => (s1, .done (packWords l))
    | (s1, none) => (s1, .error .eccUncorr q.va)
  else if q.typ == .write && q.word 0 == 1 then (s.writeZ (q.addr % 2 ^ 44) q.bytes, .done [])
  else if q.typ == .write && q.word 0 == 2 then
    let key := localKey (coreOf q.dst) q.addr
    ((touched key (q.bytes.map some) Option.isSome).eraseDups.foldl (fun (s : State) g => s.setFE g true) (s.writeMem key q.bytes), .done [])
  else s.performMem q

/-- K.ACKW of a stream's thread (R258). -/
def State.ackOf (s : State) (st : BitVec 32) : BitVec 32 := match s.issuer st with | some (_, t, _) => t.ackw | none => 0
/-- A request of an engine command, without tag, for the byte at `pa`; `src` is the unit that sends it. -/
def State.engineReq (s : State) (src : Endpoint) (e : Env) (f : Nat) (typ : ReqType) (pa off : Nat) (va : Word) (words : List Word) (l : List Byte) : Request :=
  { typ := typ, src := src, dst := ownerOf pa, serialed := typ != .read, stream := e.stream, serial := if typ == .read then 0 else e.serial
    ack := s.ackOf e.stream, sent := s.us, addr := (match windowOf pa with | some (_, o) => o | none => pa), off := off, f := f
    lsize := 0, words := words, bytes := l, ctag := 0, va := va, cnt := e.cnt, guest := guestOf e.ptbase, ptbase := e.ptbase, tag := 0 }

/-- The command in copy tag `tag` of core `k` changed, and its next step. -/
def State.setCopy (s : State) (k tag : Nat) (c : CopyCmd) : State := s.mapCore k (fun x => { x with copies := x.copies.put tag c })
def State.copyGo (s : State) (k tag : Nat) (c : CopyCmd) : State :=
  ((s.setCopy k tag c).popDelay).at (s.cycle + 1 + s.delay) (.dramAccessComplete k tag)
/-- A request of the command leaves; its answer where there is one. -/
def State.copyAsk (s : State) (k tag : Nat) (c : CopyCmd) (q : Request) : State × Option Reply :=
  (s.setCopy k tag c).launchBy (fun p s => s.setCopy k tag { c with wait := some p }) true c.env.ctag q (fun q s => s.performRW q)

/-! ### Reading a part -/

/-- A fetch failed (R102): a block or a DRAM range that does not check is fetched a second time, then from the replica; else the piece, `n` bytes at `va`, is lost (R96). -/
def State.copyBadFetch (s : State) (k tag : Nat) (c : CopyCmd) (va : Word) (n : Nat) (code : Cause) (v : Word) (check : Bool) : State :=
  let rep := replicaOf c.f c.regs
  if check && c.fetch == 0 then s.copyGo k tag { c with fetch := 1, piece := [], wait := none }
  else if check && c.fetch == 1 && rep != 0 then s.copyGo k tag { c with fetch := 2, piece := [], wait := none }
  else
    let e : Cause × Word := if check || c.fetch == 2 then (.checkFail, va) else (code, v)
    s.copyGo k tag { c with got := c.got ++ List.replicate n none, piece := [], fetch := 0, wait := none, fail := some (c.fail.getD e) }
/-- Bytes of the piece came; `n` is its length. -/
def State.copyGot (s : State) (k tag : Nat) (c : CopyCmd) (n : Nat) (l : List Byte) : State :=
  let p := c.piece ++ l
  s.copyGo k tag (if n ≤ p.length then { c with got := c.got ++ (p.take n).map some, piece := [], fetch := 0, wait := none } else { c with piece := p, wait := none })
/-- The piece that a part reads next: its address, length, and the address and length of the next fetch for it, inside one 1 KiB unit of its place (R102: the replica lies at replica + (address − source)). -/
def CopyCmd.nextFetch (c : CopyCmd) (u : CopyUnit) : Word × Nat × Word × Nat :=
  let va := u.src + BitVec.ofNat 64 c.got.length
  let n := min (1024 - va.toNat % 1024) (u.n - c.got.length)
  let a := (if c.fetch == 2 then replicaOf c.f c.regs + (va - nth c.regs 1) else va) + BitVec.ofNat 64 c.piece.length
  (va, n, a, min (1024 - a.toNat % 1024) (n - c.piece.length))
/-- The answer to a fetch of the part `u` (R102). A block of a Z page is kept for the command (R111). -/
def State.copyFetched (s : State) (k tag : Nat) (c : CopyCmd) (u : CopyUnit) (q : Request) (r : Reply) : State :=
  let x := c.nextFetch u
  match r with
  | .done res =>
    if q.word 3 == 1 then match expandZ (unpackWords 1028 res) with
      | some b => s.copyGot k tag { c with blocks := c.blocks.put (q.addr / 1024) b } x.2.1 ((b.drop (q.addr % 1024)).take x.2.2.2)
      | none => s.copyBadFetch k tag c x.1 x.2.1 .checkFail x.1 true
    else s.copyGot k tag c x.2.1 (unpackWords x.2.2.2 res)
  | .error .eccUncorr _ => s.copyBadFetch k tag c x.1 x.2.1 .eccUncorr x.1 (q.dst.kind == 1)
  | .error e _ => s.copyBadFetch k tag c x.1 x.2.1 e x.1 false
  | _ => s.copyBadFetch k tag c x.1 x.2.1 .remoteUnknown x.1 false
/-- The next fetch of a part, under the command's ctag and address space (R89, R97). -/
def State.copyRead (s : State) (k tag : Nat) (c : CopyCmd) (u : CopyUnit) : State :=
  let x := c.nextFetch u
  let a := x.2.2.1
  let n := x.2.2.2
  match badByte a n with
  | some b => s.copyBadFetch k tag c x.1 x.2.1 .address b false
  | none =>
    if isLocal a then match s.readMem (localKey k (bits a 0 17)) n with
      | (s1, some l) => s1.copyGot k tag c x.2.1 l
      | (s1, none) => s1.copyBadFetch k tag c x.1 x.2.1 .eccUncorr a false
    else match s.seg (dieOf k) c.env.ptbase ⟨true, false, false, true⟩ a n with
      | .error e => s.copyBadFetch k tag c x.1 x.2.1 e.1 e.2 false
      | .ok g => match (if g.isZ then c.blocks.find (g.pa / 1024) else none) with
        | some b => s.copyGot k tag c x.2.1 ((b.drop (g.pa % 1024)).take n)
        | none =>
          let q := s.engineReq (s.endpoint k) c.env c.f .read g.pa 0 a [BitVec.ofNat 64 n, BitVec.ofNat 64 n, 0, if g.isZ then 1 else 0] []
          match s.copyAsk k tag c { q with ctag := if g.isC then c.env.ctag else 0 } with
          | (s1, some r) => if r.settles then s1.copyFetched k tag c u q r else s1
          | (s1, none) => s1

/-! ### Writing a part -/

/-- Bytes into the own local store: one write where they are all there. -/
def State.writeSome (s : State) (key : Nat) (l : List (Option Byte)) : State :=
  if l.all Option.isSome then s.writeMem key (l.map (fun b => b.getD 0))
  else l.zipIdx.foldl (fun (s : State) p => match p.1 with | some b => s.writeMem (key + p.2) [b] | none => s) s
/-- What a command records of bytes that went to a local store, at system physical address `pa`. -/
def CopyCmd.record (c : CopyCmd) (va : Word) (pa : Nat) (l : List (Option Byte)) : CopyCmd :=
  { c with full := c.full ++ (touched pa l Option.isSome).eraseDups, lost := c.lost ++ (touched pa l Option.isNone).eraseDups
           high := if c.high.1 < va.toNat + l.length && l.any Option.isSome then (va.toNat + l.length, pa + l.length) else c.high }
/-- The next part begins. -/
def CopyCmd.advance (c : CopyCmd) : CopyCmd := { c with next := c.next + 1, index := none, got := [], piece := [], fetch := 0, sent := 0, wait := none }
/-- A part that failed. -/
def CopyCmd.failed (c : CopyCmd) (code : Cause) (v : Word) : CopyCmd := { c.advance with fail := some (c.fail.getD (code, v)) }

/-- Where part `i` of a command begins at its destination; its parts go up, except SCAT's. -/
def partDest (f : Nat) (l : List Word) (i : Nat) : Word :=
  nth l 0 + BitVec.ofNat 64 (match f with
    | 0 => 1024 * i - cutSide l
    | 1 => i * (nth l 4).toNat
    | 2 => i * geoSize l
    | _ => 128 * i * fmtWidth (cvtD l))
/-- Whether the granule of the highest byte written waits for more of it: a later part's bytes, or the zeros at the command's end (R95). -/
def CopyCmd.tailOpen (c : CopyCmd) : Bool :=
  c.high.2 % 16 != 0 && (unitCount c.f c.regs ≤ c.next || (partDest c.f c.regs c.next).toNat / 16 == (c.high.1 - 1) / 16)
/-- Whether granule `g` gets no more bytes of the command; of SCAT only its end tells. -/
def CopyCmd.granuleDone (c : CopyCmd) (g : Nat) : Bool := c.f != 3 && !(c.tailOpen && g == (c.high.2 - 1) / 16)
/-- The granule with physical number `g` of the own local store set full. -/
def State.fillOwn (s : State) (k : Nat) (g : Nat) : State := s.setFE (localKey k 0 / 16 + (g - s.localPa k 0 / 16)) true
/-- After a part in the own local store: the granules whose bytes have all been written are set full (R95), but for those of a part that failed (R96); the command goes on. -/
def State.copyNext (s : State) (k tag : Nat) (c : CopyCmd) : State :=
  ((c.full.filter (fun g => c.granuleDone g && !c.lost.contains g)).foldl (fun s g => s.fillOwn k g) s).copyGo k tag
    { c with full := c.full.filter (fun g => !c.granuleDone g) }
/-- A part that failed leaves the granules as they are that it would have written in a local store (R96). -/
def State.copyLost (s : State) (k : Nat) (c : CopyCmd) (dst : Word) (m : Nat) : CopyCmd :=
  if isLocal dst then c.record dst (s.localPa k (bits dst 0 17)) (List.replicate (min m (Config.localSize - bits dst 0 17)) none)
  else match s.segs (dieOf k) c.env.ptbase ⟨false, true, false, c.f == 0⟩ (m / 65536 + 2) dst m with
    | .error _ => c
    | .ok xs => xs.foldl (fun c x => if x.isW then c.record x.va x.pa (List.replicate x.len none) else c) c

/-- The bytes of a page of a part, with the place of each run of bytes that are there. -/
def runsOf : List (Option Byte) → Nat → List (Nat × List Byte)
  | [], _ => []
  | none :: l, i => runsOf l (i + 1)
  | some b :: l, i => match runsOf l (i + 1) with
    | (j, r) :: t => if j == i + 1 then (i, b :: r) :: t else (i, [b]) :: (j, r) :: t
    | [] => [(i, [b])]
/-- The WRITEs of a part whose pages are `xs` (R90): of a page of DRAM one for each 1 KiB unit, which one channel owns; of a core window one. CPY, whose parts share no granule, sets its granules full with the write, after the zeros of R95; a Z block goes compressed. -/
def State.copyWrites (s : State) (k : Nat) (c : CopyCmd) (u : CopyUnit) (b : List (Option Byte)) (xs : List Seg) : List Request :=
  let all := xs.map (fun x =>
    let o := (x.va - u.dst).toNat
    (cutRange (if x.isW then 65536 else 1024) (x.len + 1) x.pa x.len).map (fun p =>
      (runsOf ((b.drop (o + (p.1 - x.pa))).take p.2) 0).map (fun r =>
        let i := o + (p.1 - x.pa) + r.1
        let pa := p.1 + r.1
        let pad := if x.isW && c.f == 0 && c.next + 1 == unitCount 0 c.regs && i + r.2.length == u.m then (16 - (pa + r.2.length) % 16) % 16 else 0
        let l := if x.isZ then packZ r.2 else r.2 ++ List.replicate pad 0
        (x.isC && c.env.ctag != 0, s.engineReq (s.endpoint k) c.env c.f .write pa (u.off + i) (u.dst + BitVec.ofNat 64 i)
          [if x.isZ then 1 else if x.isW && c.f == 0 then 2 else 4, BitVec.ofNat 64 l.length, 0] l))))
  let ws := all.flatten.flatten
  let held := (ws.filter Prod.fst).map Prod.snd
  (match held with
    | [] => []
    | q :: _ => [{ heldStore ((held.map (fun m => m.bytes.length)).foldl max 1) q (held.map (fun m => (⟨m.addr, m.bytes.length, m.va, c.env.ctag⟩, m.bytes))) with ctag := c.env.ctag }]) ++ (ws.filter (fun w => !w.1)).map Prod.snd

/-- The answer to write number c.sent of a part at `u` (R96, R110). Of a failed write the whole part has failed, whatever the cause (log 106). -/
def State.copyWritten (s : State) (k tag : Nat) (c : CopyCmd) (u : CopyUnit) (q : Request) (r : Reply) : State :=
  match r.outcome with
  | .ok _ =>
    let c1 := if q.dst.kind == 0 && c.f == 3 then c.record q.va (q.dst.module * 2 ^ 44 + localKey (coreOf q.dst) q.addr) (q.bytes.map some) else c
    s.copyGo k tag { c1 with sent := c.sent + 1, wait := none }
  | .error (_, e, v) => s.copyGo k tag ((s.copyLost k c u.dst u.m).failed (e.getD .remoteUnknown) (if e == some .canopyFull then v else q.va))

/-- The part is written (R95, R96, R101, R106). -/
def State.copyStore (s : State) (k tag : Nat) (c0 : CopyCmd) (u : CopyUnit) : State :=
  let r := unitBytes c0 u
  let c := { c0 with flags := c0.flags ||| BitVec.ofNat 5 r.2.1, illop := c0.illop || r.2.2 }
  match badByte u.dst u.m with
  | some b => s.copyGo k tag ((s.copyLost k c u.dst u.m).failed .address b)
  | none =>
    if isLocal u.dst then (s.writeSome (localKey k (bits u.dst 0 17)) r.1).copyNext k tag (c.record u.dst (s.localPa k (bits u.dst 0 17)) r.1).advance
    else if r.1.any Option.isNone then s.copyGo k tag (s.copyLost k c u.dst u.m).advance
    else match s.segs (dieOf k) c.env.ptbase ⟨false, true, false, c.f == 0⟩ (u.m / 65536 + 2) u.dst u.m with
      | .error e => s.copyGo k tag ((s.copyLost k c u.dst u.m).failed e.1 e.2)
      | .ok xs =>
        match xs.find? (fun x => x.isZ && (x.pa % 1024 != 0 || x.len != 1024)) with
        | some x => s.copyGo k tag (c.failed .align x.va)
        | none => match (s.copyWrites k c u r.1 xs)[c.sent]? with
          | none => s.copyGo k tag c.advance
          | some q => match s.copyAsk k tag c q with
            | (s1, some a) => if a.settles then s1.copyWritten k tag c u q a else s1
            | (s1, none) => s1

/-! ### The end of a command (R95) -/

/-- Bytes from the destination address to the end of the transfer. -/
def destSpan (f : Nat) (l : List Word) : Nat :=
  match f with
  | 0 => (nth l 2).toNat
  | 1 => rectDest l
  | 2 => geoCount l * geoSize l
  | 4 => cvtSpan l (fmtWidth (cvtD l))
  | _ => geoCount l * geoSize l
/-- Whether the last granule gets zeros: it is cut, and none of its bytes is of a part that failed. -/
def CopyCmd.padded (c : CopyCmd) : Bool :=
  c.high.2 % 16 != 0 && !c.lost.contains (c.high.2 / 16) && (c.f == 3 || c.high.1 == (nth c.regs 0).toNat + destSpan c.f c.regs)
/-- Whether a physical granule number is one of the own local store. -/
def State.ownGranule (s : State) (k g : Nat) : Bool := decide (s.localPa k 0 / 16 ≤ g) && decide (g < (s.localPa k 0 + Config.localSize) / 16)
/-- The requests at the end of a SCAT that wrote to other local stores: the last granule's zeros, and the granules to set full; their OFFs lie past the command's bytes (log 29). -/
def State.copyEnds (s : State) (k : Nat) (c : CopyCmd) : List Request :=
  let pa := c.high.2
  let off := destSpan c.f c.regs
  let zeros := if c.padded && !s.ownGranule k (pa / 16) then
      let l := List.replicate (16 - pa % 16) (0 : Byte)
      [s.engineReq (s.endpoint k) c.env c.f .write pa off (BitVec.ofNat 64 c.high.1) [4, BitVec.ofNat 64 l.length, 0] l] else []
  zeros ++ ((c.full.eraseDups.filter (fun g => !c.lost.contains g && !s.ownGranule k g)).zipIdx.map (fun p =>
    { s.engineReq (s.endpoint k) c.env 0 .febit (16 * p.1) (off + 16 + p.2) 0 [] [] with f := 0 }))
/-- The zeros and the full bits in the own local store. -/
def State.copyOwnEnd (s : State) (k : Nat) (c : CopyCmd) : State :=
  let pa := c.high.2
  let s1 := if c.padded && s.ownGranule k (pa / 16) then s.writeMem (localKey k (pa - s.localPa k 0)) (List.replicate (16 - pa % 16) 0) else s
  (c.full.eraseDups.filter (fun g => !c.lost.contains g && s.ownGranule k g)).foldl (fun s g => s.fillOwn k g) s1
/-- The answer to a request of the end. -/
def State.copyEnded (s : State) (k tag : Nat) (c : CopyCmd) (q : Request) (r : Reply) : State :=
  s.copyGo k tag { c with sent := c.sent + 1, wait := none, fail := match r.outcome with
    | .ok _ => c.fail
    | .error (_, e, _) => some (c.fail.getD (e.getD .remoteUnknown, q.va)) }
/-- The end of a command: the last granule's zeros, the granules still to be set full, and, when all its writes are answered, the arrival. -/
def State.copyEnd (s : State) (k tag : Nat) (c : CopyCmd) : State :=
  let s1 := if c.sent == 0 then s.copyOwnEnd k c else s
  match (s.copyEnds k c)[c.sent]? with
  | some q => match s1.copyAsk k tag c q with
    | (s2, some r) => if r.settles then s2.copyEnded k tag c q r else s2
    | (s2, none) => s2
  | none => (s1.setCopy k tag { c with next := c.next + 1 }).sendArrival
      { plainArrival (s.endpoint k) c.env k c.ref c.fail with flags := c.flags, illop := c.illop, copy := some (k, tag) }

/-- The next access of a command's part: a piece is read, or the part is written. -/
def State.copyPart (s : State) (k tag : Nat) (c : CopyCmd) : State :=
  if c.got.length < c.unit.n then s.copyRead k tag c c.unit else s.copyStore k tag c c.unit
/-- One access of a copy command: a piece is read, a part written, or the command ends; the list entry of a part is read when the part begins (log 105). -/
def State.copyStep (s : State) (k tag : Nat) : State :=
  match (s.core k).copies.find tag with
  | none => s
  | some c =>
    let n := unitCount c.f c.regs
    if c.wait.isSome || n < c.next then s
    else if c.next == n then s.copyEnd k tag c
    else if c.wantsIndex then match s.readMem (localKey k (bits (nth c.regs 2) 0 17 + c.next * geoIdx c.regs)) (geoIdx c.regs) with
      | (s1, none) => s1.copyGo k tag ((if c.f == 2 then s1.copyLost k c (partDest 2 c.regs c.next) (geoSize c.regs) else c).failed .eccUncorr (nth c.regs 2 + BitVec.ofNat 64 (c.next * geoIdx c.regs)))
      | (s1, some b) => s1.copyPart k tag { c with index := some (leNat b) }
    else s.copyPart k tag c
def execDramAccessComplete (k tag : Nat) (s : State) : Host.Outcome State Fault Refusal := .next (s.copyStep k tag)

/-- The copy command that waits for request `tag`. -/
def State.findCopy (s : State) (tag : Nat) : Option (Nat × Nat × CopyCmd × PendReq) :=
  ((s.cores.map (fun (c : Nat × Core) => c.2.copies.filterMap (fun x => match x.2.wait with
    | some p => if p.req.tag == tag then some (c.1, x.1, x.2, p) else none
    | none => none))).flatten).head?
/-- An answer for a copy command's request (R90, R110, R267). -/
def State.copyAnswer (s : State) (k tag : Nat) (c : CopyCmd) (p : PendReq) (r : Reply) : State :=
  if !r.settles then (s.setCopy k tag { c with wait := some (p.unsettled r s.cycle) }).backOff p.req.tag p.tries r
  else
    let c1 := { c with wait := none }
    if c.next == unitCount c.f c.regs then s.copyEnded k tag c1 p.req r
    else if p.req.typ == .read then s.copyFetched k tag c1 c.unit p.req r else s.copyWritten k tag c1 c.unit p.req r

/-! ### The words -/

/-- The ADDRESS checks of a command (R110): each range, then the reference. -/
def rangesBad (l : List (Word × Nat × Bool)) (ref : Word) : Option Word :=
  match l.findSome? (fun x => if x.2.2 && !isLocal x.1 then some x.1 else badByte x.1 x.2.1) with
  | some v => some v
  | none => if refBad ref then some ref else none

/-- The synchronous checks of a copy command (R110) in the order of R351: what they raise. -/
def copyBad (f : Nat) (l : List Word) : Option (Cause × Word) :=
  let r := nth l
  let rep := replicaOf f l
  let loc := fun (w : Word) => w.getLsbD 63
  let geo := bits (r 3) 42 6 != 0 || bits (r 3) 32 8 != 0 || bits (r 3) 40 2 == 3 || geoSize l == 0 || 4096 < geoSize l
  let arg : Option (Cause × Word) := match f with
    | 0 => if 2 ^ 32 ≤ (r 2).toNat then some (.copyArg, r 2)
      else if !loc (r 0) && !loc (r 1) then some (.copyArg, r 0)
      else if loc (r 0) && loc (r 1) && decide ((r 0).toNat < (r 1).toNat + (r 2).toNat) && decide ((r 1).toNat < (r 0).toNat + (r 2).toNat) then some (.copyArg, r 0)
      else none
    | 1 => if bits (r 2) 16 16 != 0 || bits (r 2) 3 5 != 0 || !widths2.contains (rectW l) then some (.copyArg, r 2)
      else if (r 4).toNat < rectRow l then some (.copyArg, r 4) else none
    | 4 => if 2 ^ 32 ≤ (r 2).toNat then some (.copyArg, r 2)
      else if bits (r 3) 25 7 != 0 || bits (r 3) 21 3 != 0 || bits (r 3) 19 1 != 0 || bits (r 3) 13 3 != 0 || bits (r 3) 5 3 != 0 || bits (r 3) 16 3 == 7 then some (.copyArg, r 3)
      else none
    | _ => if geo then some (.copyArg, r 3) else none
  match arg with
  | some e => some e
  | none =>
    if rep != 0 && loc (r 1) then some (.copyArg, rep)
    else if f == 4 && (!(1 ≤ cvtD l && cvtD l ≤ 19) || !((1 ≤ cvtS l && cvtS l ≤ 19) || cvtS l == 21)) then some (.format, r 3)
    else
      let ranges : List (Word × Nat × Bool) := match f with
        | 0 => [(r 0, (r 2).toNat, false), (r 1, (r 2).toNat, false)]
        | 1 => [(r 0, rectDest l, true), (r 1, rectSpan l, false)]
        | 2 => [(r 0, geoCount l * geoSize l, true), (r 1, 0, false), (r 2, geoCount l * geoIdx l, true)]
        | 3 => [(r 0, 0, false), (r 1, geoCount l * geoSize l, true), (r 2, geoCount l * geoIdx l, true)]
        | _ => [(r 0, cvtSpan l (fmtWidth (cvtD l)), true), (r 1, cvtSpan l (fmtWidth (cvtS l)), false)]
      match rangesBad (if rep != 0 then ranges ++ [(rep, 0, false)] else ranges) (r (refIndex f)) with
      | some v => some (.address, v)
      | none => none

/-- The free copy tag a command takes: the search begins at a free value (log 26). -/
def Core.freeTag (c : Core) (start : Nat) : Option Nat :=
  ((List.range Config.copyTags).map (fun i => (start + i) % Config.copyTags)).find? (fun i => (c.copies.find i).isNone)

/-- A copy word (R88): checks, waits, one serial, a tag, the handle. -/
def copyWord (i : Instr) (c : Ctl) (f : Nat) (d a : Reg) (n : Nat) : State → State :=
  runWord i c { roOk := f == 4, reads := (List.range n).map (fun j => a + BitVec.ofNat 6 j), writes := [d] } (fun s t =>
    let l := t.block a n
    match copyBad f l with
    | some e => .trap s e.1 e.2
    | none =>
      if !s.ctagOk t.ctag t.guest then .trap s .ctagInvalid (BitVec.ofNat 64 t.ctag)
      else if t.engs.length ≥ Config.maxEngine then .wait s .engineCount 0
      else match (s.core s.k).freeTag s.free.toNat with
        | none => .wait s .copyTag 0
        | some tag => match t.sendWait 1 0 with
          | some w => .wait s w.1 w.2
          | none =>
            let ref := nth l (refIndex f)
            let t1 := { t.takeSerial.wr d (BitVec.ofNat 64 (t.serial.toNat * 2 ^ 32 + tag)) with engs := t.engs ++ [⟨.copy, t.serial, tag, ref, t.ctag, t.pc⟩] }
            let cmd : CopyCmd := ⟨s.env t s.k t.serial, f, l, t.mode (bits (nth l 3) 16 3), ref, 0, none, [], [], 0, [], 0, none, [], [], (0, 0), none, 0, false⟩
            .done (((s.useFree.put t1).setCopy s.k tag cmd).at (s.cycle + 4) (.dramAccessComplete s.k tag)) 0)

def execCpy (c : Ctl) (d a : Reg) (r : Bool) (s : State) : Host.Outcome State Fault Refusal := .next (copyWord (.cpy c d a r) c 0 d a (if r then 5 else 4) s)
def execCpy2 (c : Ctl) (d a : Reg) (r : Bool) (s : State) : Host.Outcome State Fault Refusal := .next (copyWord (.cpy2 c d a r) c 1 d a (if r then 7 else 6) s)
def execGath (c : Ctl) (d a n : Reg) (s : State) : Host.Outcome State Fault Refusal := .next (copyWord (.gath c d a n) c 2 d a n.toNat s)
def execScat (c : Ctl) (d a : Reg) (s : State) : Host.Outcome State Fault Refusal := .next (copyWord (.scat c d a) c 3 d a 5 s)
def execCpyx (c : Ctl) (d a n : Reg) (s : State) : Host.Outcome State Fault Refusal := .next (copyWord (.cpyx c d a n) c 4 d a n.toNat s)

/-- CSTAT (R109). -/
def execCstat (c : Ctl) (d : Reg) (s : State) : Host.Outcome State Fault Refusal :=
  .next (runWord (.cstat c d) c { writes := [d] } (fun s t =>
    .next (t.wr d (BitVec.ofNat 64 ((s.core s.k).copies.foldl (fun n x => n + 2 ^ x.1) 0))) 0) s)
def execCstatHandle (c : Ctl) (d a : Reg) (s : State) : Host.Outcome State Fault Refusal :=
  .next (runWord (.cstatHandle c d a) c { reads := [a], writes := [d] } (fun s t =>
    let h := t.rd a
    .next (t.wr d (match (s.core s.k).copies.find (bits h 0 5) with
      | some x => if x.env.serial.toNat == bits h 32 32 then 1 else 0
      | none => 0)) 0) s)

end Sys2Proof.Machine
end

