-- ==== Sys2Proof/Machine/Xducer.lean ====
section
/-! DEFINITION. Transducer lanes: XTAB, XSTART, XSTAT, the loading of a table, jobs (R112 to R118). -/
namespace Sys2Proof.Machine

/-- Lane `ln` of a die, by number; no lane is assigned or loaded after start-up (R365). -/
def State.lane (s : State) (die ln : Nat) : Lane := (s.lanes.find (die * 64 + ln)).getD ⟨none, none, [], none⟩
def State.setLane (s : State) (die ln : Nat) (x : Lane) : State := { s with lanes := s.lanes.put (die * 64 + ln) x }

/-! ### What a lane reads and writes -/

/-- A range inside one page as a lane reaches it for a command: the fault of its first bad byte (R97, R118); the issuing core's local store counts as a W page. -/
def State.lanePage (s : State) (e : Env) (need : Need) (va : Word) (n : Nat) : Except (Cause × Word) Seg :=
  match badByte va n with
  | some b => .error (.address, b)
  | none =>
    if isLocal va then .ok ⟨va, n, s.localPa e.core (bits va 0 17), 0x40⟩
    else match s.seg (dieOf e.core) e.ptbase need va n with
      | .error x => .error x
      | .ok x => if x.isC && !s.ctagOk e.ctag (guestOf e.ptbase) then .error (.ctagInvalid, va) else .ok x
/-- A range to be read, up to its first bad byte. -/
def State.laneChunk (s : State) (e : Env) (va : Word) (n : Nat) : Except (Cause × Word) Seg :=
  match s.lanePage e needR va n with
  | .ok x => .ok x
  | .error x => if va.toNat < x.2.toNat && x.2.toNat < va.toNat + n then s.lanePage e needR va (x.2.toNat - va.toNat) else .error x
/-- How many bytes from `va` may be written, and the fault that ends them. -/
def State.laneRoom (s : State) (e : Env) : Nat → Word → Nat → Nat × Option (Cause × Word)
  | 0, _, _ => (0, none)
  | fuel + 1, va, len =>
    if len = 0 then (0, none) else
    let n := min len (65536 - va.toNat % 65536)
    match s.lanePage e needW va n with
    | .error x => (x.2.toNat - va.toNat, some x)
    | .ok _ => let r := s.laneRoom e fuel (va + BitVec.ofNat 64 n) (len - n); (n + r.1, r.2)
/-- A request of a lane for its command, without tag. -/
def State.laneReq (s : State) (die ln : Nat) (j : LaneJob) (typ : ReqType) (off : Nat) (x : Seg) (words : List Word) (l : List Byte) : Request :=
  let q := { s.engineReq ⟨1, s.moduleNo, die, ln⟩ j.env (if j.tab then 0 else 1) typ x.pa off x.va words l with ctag := if x.isC then j.env.ctag else 0 }
  if isLocal x.va then { q with dst := s.endpoint j.env.core, addr := bits x.va 0 17 } else q

/-! ### Tables (R113) -/

/-- The header's fields, when they are legal. -/
def tableHeader (h : List Byte) : Option XTable :=
  let n := field h 0 2
  let c := field h 2 1
  if n == 0 || 4096 < n || c == 0 || 64 < c || field h 3 1 != 0 || n ≤ field h 4 2 || n < field h 6 2 || field h 8 8 != 0 then none
  else some ⟨n, c, field h 4 2, field h 6 2, [], []⟩
/-- The table of a whole image, when it is legal. -/
def parseTable (b : List Byte) : Option XTable :=
  match tableHeader b with
  | none => none
  | some x =>
    let m := ((b.drop 16).take 256).map BitVec.toNat
    let es := (List.range (x.nstate * x.nclass)).map (fun i => BitVec.ofNat 32 (field b (272 + 4 * i) 4))
    if m.any (fun c => x.nclass ≤ c) || es.any (fun e => x.nstate ≤ bits e 20 12 || 8 < bits e 16 4) then none
    else some { x with cmap := m, entries := es }

/-! ### Jobs (R114) -/

/-- A job as it runs: state, accumulator, bytes consumed, the bytes emitted in reverse, and RES once it has ended. -/
structure JobRun where
  s : Nat
  acc : Nat
  n : Nat
  out : List Byte
  res : Option Nat
  fault : Bool
deriving DecidableEq, Repr

/-- An emission (R114): FULL where it exceeds the capacity, a fault where it reaches a byte that cannot be written, and then none of it is written (log 86). -/
def JobRun.emit (cap room : Nat) (l : List Byte) (j : JobRun) : JobRun :=
  if cap < j.out.length + l.length then { j with res := some 2 }
  else if room < j.out.length + l.length then { j with res := some 3, fault := true }
  else { j with out := l.reverse ++ j.out }
/-- One input byte. -/
def JobRun.step (x : XTable) (cap room : Nat) (j : JobRun) (b : Byte) : JobRun :=
  if j.res.isSome then j else
  let e := (x.entries[j.s * x.nclass + x.cmap.getD b.toNat 0]?).getD 0
  let arg := bits e 0 16
  let j1 := match bits e 16 4 with
    | 1 => j.emit cap room [BitVec.ofNat 8 arg]
    | 2 => j.emit cap room [b]
    | 3 => j.emit cap room (leBytes 4 arg)
    | 4 => { j with acc := arg }
    | 5 => { j with acc := (j.acc * 256 + b.toNat) % 2 ^ 32 }
    | 6 => let j2 := j.emit cap room (leBytes 4 j.acc); if j2.res.isSome then j2 else { j2 with acc := 0 }
    | 7 => { j with res := some 1, n := j.n + 1 }
    | 8 => { j with res := some 0, n := j.n + 1 }
    | _ => j
  if j1.res.isSome then j1 else { j1 with n := j1.n + 1, s := bits e 20 12 }
/-- A whole input. -/
def runJob (x : XTable) (cap room : Nat) (input : List Byte) : JobRun :=
  input.foldl (JobRun.step x cap room) ⟨x.start, 0, 0, [], none, false⟩
/-- The result record (R114). -/
def resultRecord (st res n m : Nat) : Word := BitVec.ofNat 64 (st * 2 ^ 52 + res * 2 ^ 48 + n * 2 ^ 24 + m)

/-- The step of an entry, and its first state. -/
def LaneJob.event (die ln : Nat) (j : LaneJob) : Instr := if j.tab then .xducerTableLoad die ln else .xducerJob die ln
def LaneJob.begin (j : LaneJob) : LaneRun := ⟨[], if j.tab then 16 else j.len, none, none, [], 0, none⟩
/-- The head of the queue starts (R116). -/
def State.laneStart (s : State) (die ln : Nat) (x : Lane) : State :=
  match x.queue with
  | [] => s.setLane die ln { x with run := none }
  | j :: _ => ((s.setLane die ln { x with run := some j.begin }).popDelay).at (s.cycle + 4 + j.len + s.delay) (j.event die ln)
/-- The run changed, and its next step. -/
def State.setRun (s : State) (die ln : Nat) (r : LaneRun) : State := s.setLane die ln { s.lane die ln with run := some r }
def State.laneGo (s : State) (die ln : Nat) (j : LaneJob) (r : LaneRun) : State :=
  ((s.setRun die ln r).popDelay).at (s.cycle + 1 + s.delay) (j.event die ln)
/-- The arrival of a lane's entry, which leaves the queue. -/
def State.laneEnd (s : State) (die ln : Nat) (j : LaneJob) (fail : Option (Cause × Word)) (r : Option Word) : State :=
  (s.sendArrival { plainArrival ⟨1, s.moduleNo, die, ln⟩ j.env j.env.core j.ref fail with result := r }).laneStart die ln { s.lane die ln with queue := (s.lane die ln).queue.tail }
/-- The same with the result record of a job. -/
def State.laneResult (s : State) (die ln : Nat) (j : LaneJob) (st res n m : Nat) (fail : Option (Cause × Word)) : State :=
  s.laneEnd die ln j fail (some (resultRecord st res n m))

/-- A request of a lane leaves; its answer where there is one. -/
def State.laneAsk (s : State) (die ln : Nat) (j : LaneJob) (r : LaneRun) (q : Request) : State × Option Reply :=
  s.launchBy (fun p s => s.setRun die ln { r with wait := some p }) true j.env.ctag q (fun q s => s.performRW q)
/-- The answer to a lane's READ, or the fault that ends its reading. -/
def State.laneFetched (s : State) (die ln : Nat) (j : LaneJob) (r : LaneRun) (q : Request) (a : Reply) : State :=
  match a.outcome with
  | .ok res => s.laneGo die ln j { r with got := r.got ++ unpackWords (q.word 0) res, wait := none }
  | .error (_, c, _) => s.laneGo die ln j { r with bad := some (c.getD .remoteUnknown, q.va), wait := none }
def State.laneRead (s : State) (die ln : Nat) (j : LaneJob) (r : LaneRun) : State :=
  let va := j.a + BitVec.ofNat 64 r.got.length
  match s.laneChunk j.env va (min (r.want - r.got.length) (1024 - va.toNat % 1024)) with
  | .error e => s.laneGo die ln j { r with bad := some e }
  | .ok x =>
    let q := s.laneReq die ln j .read 0 x [BitVec.ofNat 64 x.len, BitVec.ofNat 64 x.len, 0] []
    match s.laneAsk die ln j r q with
    | (s1, some a) => if a.settles then s1.laneFetched die ln j r q a else s1
    | (s1, none) => s1

/-- A table image, when what was wanted of it is read (R113, R116): first its header, then the whole; the table changes when all of it is good; FADDR of an image that is rejected is its address (log 46). -/
def State.laneTable (s : State) (die ln : Nat) (j : LaneJob) (r : LaneRun) : State :=
  match r.bad with
  | some e => s.laneEnd die ln j (some e) none
  | none =>
    if r.want == 16 then match tableHeader r.got with
      | none => s.laneEnd die ln j (some (.copyArg, j.a)) none
      | some x => s.laneGo die ln j { r with want := 272 + 4 * x.nstate * x.nclass }
    else match parseTable r.got with
      | none => s.laneEnd die ln j (some (.copyArg, j.a)) none
      | some t => (s.setLane die ln { s.lane die ln with table := some t }).laneEnd die ln j none none
/-- A job runs over its input (R114, R118). -/
def State.laneRun (s : State) (die ln : Nat) (j : LaneJob) (r : LaneRun) (x : XTable) : State :=
  let room := s.laneRoom j.env (j.cap / 65536 + 3) j.out j.cap
  let z := runJob x j.cap room.1 r.got
  let ran : Nat × Nat × Nat × Option (Cause × Word) := match z.res with
    | some 3 => (z.s, 3, z.n, room.2)
    | some v => (z.s, v, z.n, none)
    | none => match r.bad with
      | some e => (z.s, 3, z.n, some e)
      | none => (z.s, if x.amin ≤ z.s then 0 else 1, z.n, none)
  s.laneGo die ln j { r with ran := some ran, out := z.out.reverse }
/-- The answer to a lane's WRITE of `n` bytes of output: the job goes on, or ends with the failure (R96). -/
def State.laneWritten (s : State) (die ln : Nat) (j : LaneJob) (r : LaneRun) (q : Request) (a : Reply) : State :=
  match a.outcome with
  | .ok _ => s.laneGo die ln j { r with sent := r.sent + min (1024 - q.va.toNat % 1024) (r.out.length - r.sent), wait := none }
  | .error (_, c, v) => match r.ran with
    | some (st, _, n, _) => s.laneResult die ln j st 3 n r.sent (some (c.getD .remoteUnknown, if c == some .canopyFull then v else q.va))
    | none => s
/-- The next 1 KiB unit of a job's output, as a copy's destination (R95): granules of a local store are set full with it, the last after its zeros. Its OFF is zero (R260); its owner tells it by its address (log 86). When all is answered, the arrival with the result record. -/
def State.laneWrite (s : State) (die ln : Nat) (j : LaneJob) (r : LaneRun) (st res n : Nat) (fail : Option (Cause × Word)) : State :=
  let va := j.out + BitVec.ofNat 64 r.sent
  let l := (r.out.drop r.sent).take (1024 - va.toNat % 1024)
  if l.isEmpty then s.laneResult die ln j st res n r.sent fail
  else match s.lanePage j.env needW va l.length with
    | .error e => s.laneResult die ln j st 3 n r.sent (some e)
    | .ok x =>
      let pad := if x.isW then (16 - (va.toNat + l.length) % 16) % 16 else 0
      let b := l ++ List.replicate pad 0
      let q := s.laneReq die ln j .write 0 x [if x.isW then 2 else 4, BitVec.ofNat 64 b.length, 0] b
      let q := if q.ctag != 0 then heldStore l.length q [(⟨x.pa, l.length, va, q.ctag⟩, l)] else q
      match s.laneAsk die ln j r q with
      | (s1, some a) => if a.settles then s1.laneWritten die ln j r q a else s1
      | (s1, none) => s1

/-- One step of the entry at the head of a lane's queue. -/
def State.laneStep (s : State) (die ln : Nat) (tab : Bool) : State :=
  let x := s.lane die ln
  match x.queue, x.run with
  | j :: _, some r =>
    if j.tab != tab || r.wait.isSome then s
    else if !tab && x.table.isNone then s.laneResult die ln j 0 3 0 0 (some (.copyArg, BitVec.ofNat 64 ln))
    else if r.bad.isNone && r.got.length < r.want then s.laneRead die ln j r
    else if tab then s.laneTable die ln j r
    else match r.ran, x.table with
      | some (st, res, n, fail), _ => s.laneWrite die ln j r st res n fail
      | none, some t => s.laneRun die ln j r t
      | none, none => s
  | _, _ => s
/-- A step of an XTAB entry, and of a job. -/
def execXducerTableLoad (die ln : Nat) (s : State) : Host.Outcome State Fault Refusal := .next (s.laneStep die ln true)
def execXducerJob (die ln : Nat) (s : State) : Host.Outcome State Fault Refusal := .next (s.laneStep die ln false)

/-- The lane that waits for request `tag`. -/
def State.findLane (s : State) (tag : Nat) : Option (Nat × Nat × LaneJob × LaneRun × PendReq) :=
  (s.lanes.filterMap (fun x => match x.2.queue, x.2.run with
    | j :: _, some r => match r.wait with
      | some p => if p.req.tag == tag then some (x.1 / 64, x.1 % 64, j, r, p) else none
      | none => none
    | _, _ => none)).head?
/-- An answer for a lane's request (R267). -/
def State.laneAnswer (s : State) (die ln : Nat) (j : LaneJob) (r : LaneRun) (p : PendReq) (a : Reply) : State :=
  if !a.settles then (s.setRun die ln { r with wait := some (p.unsettled a s.cycle) }).backOff p.req.tag p.tries a
  else if p.req.typ == .read then s.laneFetched die ln j { r with wait := none } p.req a
  else s.laneWritten die ln j { r with wait := none } p.req a

/-! ### The words -/

/-- One entry placed (R116): 0, or 1 when the lane's queue holds 16. -/
def State.lanePlace (s : State) (die ln : Nat) (j : LaneJob) : State × Nat :=
  let x := s.lane die ln
  if x.queue.length ≥ 16 then (s, 1)
  else
    let y := { x with queue := x.queue ++ [j] }
    (if x.queue.isEmpty then s.laneStart die ln y else s.setLane die ln y, 0)
/-- The entry of a block (R115). -/
def laneJob (tab : Bool) (e : Env) (l : List Word) : LaneJob :=
  if tab then ⟨e, nth l 2, true, nth l 1, 0, 0, 0⟩ else ⟨e, nth l 5, false, nth l 1, (nth l 2).toNat, nth l 3, (nth l 4).toNat⟩
/-- The checks of R118. -/
def State.laneBad (s : State) (die guest : Nat) (lane : Word) : Option (Cause × Word) :=
  if 64 ≤ lane.toNat then some (.copyArg, lane)
  else if (s.lane die lane.toNat).guest != some guest then some (.permission, lane) else none
/-- The checks of XTAB and XSTART in the order of R351. -/
def State.jobBad (s : State) (die guest : Nat) (tab : Bool) (l : List Word) : Option (Cause × Word) :=
  if 64 ≤ (nth l 0).toNat then some (.copyArg, nth l 0)
  else if !tab && 2 ^ 24 ≤ (nth l 2).toNat then some (.copyArg, nth l 2)
  else if !tab && 2 ^ 24 ≤ (nth l 4).toNat then some (.copyArg, nth l 4)
  else if refBad (nth l (if tab then 2 else 5)) then some (.address, nth l (if tab then 2 else 5))
  else s.laneBad die guest (nth l 0)

/-- XDUCER at a lane's channel (R264): the checks of R118, and the entry placed. -/
def State.laneAt (s : State) (q : Request) : State × Reply :=
  match s.jobBad q.dst.die q.guest (q.f == 0) q.words, s.issuer q.stream with
  | some x, _ => (s, .error x.1 x.2)
  | none, none => (s, .error .copyArg (q.words.headD 0))
  | none, some (k, t, _) => match s.lanePlace q.dst.die (q.word 0) (laneJob (q.f == 0) (s.env t k q.serial) q.words) with
    | (s1, v) => (s1, .done [BitVec.ofNat 64 v])
/-- XTAB and XSTART (R115, R116): one request to the lane, for whose answer the word holds. -/
def laneWord (i : Instr) (c : Ctl) (tab : Bool) (d a : Reg) (n : Nat) : State → State :=
  runWord i c { reads := (List.range n).map (fun j => a + BitVec.ofNat 6 j), writes := [d] } (fun s t =>
    let l := t.block a n
    match s.jobBad (dieOf s.k) t.guest tab l with
    | some e => .trapVal s e.1 e.2 (e.1.isAddress && e.1 != .permission)
    | none =>
      if t.engs.length ≥ Config.maxEngine then .wait s .engineCount 0
      else match t.sendWait 1 0 with
        | some w => .wait s w.1 w.2
        | none =>
          let t1 := { t.takeSerial with engs := t.engs ++ [⟨.xducer, t.serial, 0, nth l (if tab then 2 else 5), t.ctag, t.pc⟩] }
          .stop ((s.put t1).sendHold s.k s.sl c (.xducer d)
            { typ := .xducer, src := s.endpoint s.k, dst := ⟨1, s.moduleNo, dieOf s.k, (nth l 0).toNat⟩, serialed := true, stream := t.stream, serial := t.serial, ack := t.ackw, sent := s.us
              addr := 0, off := 0, f := if tab then 0 else 1, lsize := 0, words := l, bytes := [], ctag := 0, va := 0, cnt := t.cnt, guest := t.guest, ptbase := t.ptbase, tag := 0 }
            none (exe := fun q s => s.laneAt q)))
def execXtab (c : Ctl) (d a : Reg) (s : State) : Host.Outcome State Fault Refusal := .next (laneWord (.xtab c d a) c true d a 3 s)
def execXstart (c : Ctl) (d a : Reg) (s : State) : Host.Outcome State Fault Refusal := .next (laneWord (.xstart c d a) c false d a 6 s)
/-- XSTAT (R117). -/
def execXstat (c : Ctl) (d a : Reg) (s : State) : Host.Outcome State Fault Refusal :=
  .next (runWord (.xstat c d a) c { reads := [a], writes := [d] } (fun s t =>
    match s.laneBad (dieOf s.k) t.guest (t.rd a) with
    | some e => .trapVal s e.1 e.2 false
    | none =>
      let x := s.lane (dieOf s.k) (t.rd a).toNat
      .next (t.wr d (BitVec.ofNat 64 ((if x.table.isSome then 256 else 0) + x.queue.length))) 0) s)

/-- XDUCER at a lane's channel (R264, R265). -/
def execReqXducer (m : Request) (s : State) : Host.Outcome State Fault Refusal := .next (s.serveReq m (fun s => s.laneAt m))

end Sys2Proof.Machine
end

