-- ==== Sys2Proof/Machine/Matrix.lean ====
section
/-! DEFINITION. The matrix unit: operand slots, capability and holder, the command queue and its head, order by K-block, forwards, and the MATRIX instructions (R223 to R250). -/
namespace Sys2Proof.Machine

/-! ### Fields -/

def MCmd.sub (m : MCmd) : Nat := if m.mred then bits m.word 2 2 else bits m.word 46 2
def MCmd.kb (m : MCmd) : Nat := if m.mred then bits m.word 4 12 else bits m.word 34 12
def MCmd.zi (m : MCmd) : Bool := !m.mred && m.word.getLsbD 22

/-- Element (i, j) of sub-tile `sub` by number (R149); what is not listed is zero. -/
def accKey (sub i j : Nat) : Nat := sub * 256 + 16 * i + j
def Core.accAt (c : Core) (key : Nat) : BitVec 128 := (c.acc.find key).getD 0
def Core.accPut (c : Core) (key : Nat) (x : BitVec 128) : Core := { c with acc := if x = 0 then c.acc.del key else c.acc.put key x }
def Core.op (c : Core) (i : Nat) : OpSlot := c.ops.getD i OpSlot.reset
def Core.setOp (c : Core) (i : Nat) (o : OpSlot) : Core := { c with ops := c.ops.set i o }
def Core.kbOf (c : Core) (sub : Nat) : Nat := c.nextKb.getD sub 0
/-- The data of consecutive slots as one little-endian number (R224). -/
def OpSlot.num (o : OpSlot) : Nat := o.data.foldl (fun n p => n + p.2.toNat * 256 ^ p.1) 0
def Core.operand (c : Core) (l : List Nat) : Nat := l.zipIdx.foldl (fun n p => n + (c.op p.1).num * 256 ^ (1024 * p.2)) 0

/-! ### Applying (R232, R233, R238) -/

/-- A command's products added to its sub-tile, and ILLOP (R244). -/
def Core.applyMma (c : Core) (m : MCmd) : Core × Bool :=
  let bx := c.operand m.slotsB
  let a := panel c.cb m.afmt (c.operand m.slotsA)
  let b := panel c.cb m.bfmt bx
  let q := quantum m.afmt + quantum m.bfmt
  let sc := fun (l : List Nat) (i : Nat) => ((c.op (l.headD 0)).data.find (1008 + i)).getD 0 |>.toNat
  let c1 := (List.range m.rows).foldl (fun c i => (List.range m.cols).foldl (fun (c : Core) j =>
    let xs := (a.drop (32 * i)).take m.depth
    let ys := (List.range m.depth).filterMap (fun k => b[16 * k + j]?)
    let x := contribution (widePair m.afmt m.bfmt) q xs ys (if m.word.getLsbD 23 && m.depth != 0 then some (sc m.slotsA i, sc m.slotsB j) else none)
    let old : Aw := if m.zi then ⟨0, 0, 0⟩ else Aw.ofBits (c.accAt (accKey m.sub i j))
    c.accPut (accKey m.sub i j) (old.add x).toBits) c) c
  (c1, m.bfmt == 21 && (List.range m.depth).any (fun k => (List.range m.cols).any (fun j => bx / 4 ^ (16 * k + j) % 4 == 2)))
/-- A contribution added to its sub-tile. -/
def Core.applyMred (c : Core) (m : MCmd) : Core :=
  m.data.zipIdx.foldl (fun (c : Core) p =>
    c.accPut (m.sub * 256 + p.2) ((Aw.ofBits (c.accAt (m.sub * 256 + p.2))).add (Aw.ofBits p.1)).toBits) c
def Core.setKb (c : Core) (sub v : Nat) : Core := { c with nextKb := c.nextKb.set sub v }

/-! ### Waits on commands (R241, R246 to R248) -/

/-- Whether the commands and contributions of a list are applied to sub-tile `sub`; for 4, whether the commands have completed. -/
def Core.commandsDone (c : Core) (sub : Nat) (l : List Nat) : Bool :=
  if sub == 4 then !c.mq.any (fun m => l.contains m.tag)
  else !c.redbuf.any (fun m => l.contains m.tag) && match c.phase with
    | .forwarding .. => !c.mq.tail.any (fun m => l.contains m.tag)
    | _ => !c.mq.any (fun m => l.contains m.tag)
/-- The sub-tile that a thread's MDRAIN is about to read, when its wait is over; 4 for a CBLOAD. -/
def Thread.draining (t : Thread) : Option Nat :=
  match t.status with
  | .acting _ w => match decode w with
    | .ok (.mdrain _ a) => some (bits (t.rdN (a.toNat + 1)) 0 2)
    | .ok (.mdrainScaled _ a) => some (bits (t.rdN (a.toNat + 1)) 0 2)
    | .ok (.cbload _ _) => some 4
    | _ => none
  | _ => none
/-- Whether a command or contribution waits for an MDRAIN of its sub-tile, or a command for a CBLOAD, that issued before it was accepted (R246, R248, R250); not for one whose thread is being saved (R226). -/
def Core.blocked (c : Core) (m : MCmd) : Bool :=
  let hit := fun (u : Nat) => u == m.sub || (u == 4 && !m.mred)
  c.threads.any (fun x => x.2.saving.isNone && match x.2.status with
    | .parked (.commands u l) => hit u && !l.contains m.tag
    | _ => (x.2.draining.map hit).getD false)
/-- The commands and contributions accepted now that name `sub`. -/
def Core.naming (c : Core) (sub : Nat) : List Nat :=
  ((c.mq.filter (fun m => m.sub == sub)) ++ c.redbuf.filter (fun m => m.sub == sub)).map MCmd.tag
/-- Whether every accepted command that names `sub` has been applied (R247). -/
def Core.applied (c : Core) (sub : Nat) : Bool :=
  !(match c.phase with | .forwarding .. => c.mq.tail | _ => c.mq).any (fun m => m.sub == sub)

/-- A contribution whose turn it is: applied, or failed where its sub-tile holds an uncorrectable error (R374); its arrival. -/
def State.takeMred (s : State) (k : Nat) (m : MCmd) : State :=
  match s.check (accErr k m.sub) 0x1000 with
  | (s1, true) => (s1.mapCore k (fun c => (c.applyMred m).setKb m.sub (m.kb + 1))).matrixArrival k m none false
  | (s1, false) => s1.matrixArrival k m (some (.eccUncorr, 0)) false
/-- After a change of NEXTKB (R229): buffered contributions that are next are applied, those behind fail; `fuel` bounds them. -/
def State.drainBuf (k : Nat) : Nat → State → State
  | 0, s => s
  | fuel + 1, s =>
    let c := s.core k
    match c.redbuf.find? (fun m => m.kb ≤ c.kbOf m.sub && !c.blocked m) with
    | none => s
    | some m =>
      let rest := c.redbuf.filter (fun x => x.tag != m.tag)
      if m.kb == c.kbOf m.sub then
        State.drainBuf k fuel ((s.setCore k { c with redbuf := rest }).takeMred k m)
      else State.drainBuf k fuel ((s.setCore k { c with redbuf := rest }).matrixArrival k m (some (.kbOrder, BitVec.ofNat 64 m.kb)) false)

/-! ### The head of the queue (R228) -/

/-- A new head, with its limit. -/
def State.newHead (s : State) (k : Nat) : State :=
  let c := s.core k
  match c.mq with
  | [] => s.setCore k { c with phase := .idle }
  | m :: _ => (s.setCore k { c with phase := .waiting s.cycle }).at (s.cycle + m.limit) (.matrixHeadTimeout k)
/-- The head leaves; slots whose thread has gone are freed when no command names them (R304). -/
def State.dequeue (s : State) (k : Nat) : State :=
  (s.mapCore k (fun c =>
    let c1 := { c with mq := c.mq.tail }
    { c1 with ops := c1.ops.zipIdx.map (fun p => if p.1.owner == some 16 && !c1.slotNamed p.2 then OpSlot.reset else p.1) })).newHead k

/-- The core one column east, one row south, on the same die. -/
def eastOf (k : Nat) : Option Nat := if isService k || 127 ≤ colOf k then none else some (k + 1)
def southOf (k : Nat) : Option Nat := if isService k || 79 ≤ rowOf k then none else some (k + 128)

/-- One direction of a forward: dropped, waiting, on its way, or landed (R228 step 3). -/
def State.forwardDir (s : State) (k : Nat) (target : Option Nat) (src : List Nat) (first : Nat) (t : Option Nat) : State × Option Nat :=
  match t, target with
  | none, _ => (s, none)
  | _, none => (s, none)
  | some t, some d =>
    let tg := src.zipIdx.map (fun p => first + p.2)
    let c := s.core d
    if tg.any (fun i => (c.op i).owner.isNone) then (s, none)
    else if t != 0 && s.cycle < t then (s, some t)
    else if tg.any (fun i => (c.op i).full) then (s, some 0)
    else if t == 0 then (s.at (s.cycle + 32 * tg.length) (.operandForward k), some (s.cycle + 32 * tg.length))
    else (s.mapCore d (fun c => (src.zip tg).foldl (fun (c : Core) p =>
        let o := (s.core k).op p.1
        c.setOp p.2 { c.op p.2 with full := true, fmt := o.fmt, roleB := o.roleB, scaled := o.scaled, data := o.data }) c), none)
/-- Forwards go on; when every one has landed or was dropped, the command's slots are emptied and its arrival made (R228 steps 2 to 5). -/
def State.forwardStep (s : State) (k : Nat) : State :=
  match (s.core k).phase, (s.core k).mq with
  | .forwarding fail ill e so, m :: _ =>
    match s.forwardDir k (eastOf k) m.slotsA (bits m.word 52 4) e with
    | (s1, e1) => match s1.forwardDir k (southOf k) m.slotsB (bits m.word 48 4) so with
      | (s2, so1) =>
        if e1.isSome || so1.isSome then s2.mapCore k (fun c => { c with phase := .forwarding fail ill e1 so1 })
        else
          let empty := fun (c : Core) (keep : Bool) (l : List Nat) =>
            if keep || m.depth == 0 then c else l.foldl (fun (c : Core) i => c.setOp i { c.op i with full := false }) c
          ((s2.mapCore k (fun c => empty (empty c (m.word.getLsbD 3) m.slotsA) (m.word.getLsbD 2) m.slotsB)).matrixArrival k m fail ill).dequeue k
  | _, _ => s
/-- The end of a command whose slots were full: its forwards begin. -/
def State.endCommand (s : State) (k : Nat) (m : MCmd) (fail : Option (Cause × Word)) (ill : Bool) : State :=
  (s.mapCore k (fun c => { c with phase := .forwarding fail ill (if m.word.getLsbD 21 && m.depth != 0 then some 0 else none)
                                    (if m.word.getLsbD 20 && m.depth != 0 then some 0 else none) })).forwardStep k
/-- The engine's reads of a command: its slots, and the sub-tile unless ZI is set; false on an uncorrectable error (R374). -/
def State.checkCmd (s : State) (k : Nat) (m : MCmd) : State × Bool :=
  (m.slots.map (fun i => (slotErr k i, 1024)) ++ (if m.zi then [] else [(accErr k m.sub, 0x1000)])).foldl
    (fun (r : State × Bool) (x : Nat × Nat) => if r.2 then r.1.check x.1 x.2 else r) (s, true)
/-- A command applied: NEXTKB advances (R229). With ZI it writes the elements of its M rows and N columns. -/
def State.finishCommand (s : State) (k : Nat) (m : MCmd) : State :=
  if !m.zi && m.kb < (s.core k).kbOf m.sub then s.endCommand k m (some (.kbOrder, BitVec.ofNat 64 m.kb)) false
  else match s.checkCmd k m with
    | (s1, false) => s1.endCommand k m (some (.eccUncorr, 0)) false
    | (s1, true) =>
      let r := (s1.core k).applyMma m
      let s2 := (List.range m.rows).foldl (fun (s : State) i => s.covered (accErr k m.sub + 256 * i) (16 * m.cols)) s1
      ((s2.setCore k (r.1.setKb m.sub (m.kb + 1))).endCommand k m none r.2) |> State.drainBuf k ((s1.core k).redbuf.length + 1)
/-- Whether the descriptors of the slots carry the command's formats and roles (R244 step 3). -/
def Core.descsOk (c : Core) (m : MCmd) : Bool :=
  m.slotsA.all (fun i => (c.op i).fmt == m.afmt && !(c.op i).roleB) && m.slotsB.all (fun i => (c.op i).fmt == m.bfmt && (c.op i).roleB)
/-- A buffered contribution's turn comes, or the head command starts or fails; none while they wait. -/
def State.headStep (s : State) (k : Nat) : Option State :=
  let c := s.core k
  if c.redbuf.any (fun m => m.kb ≤ c.kbOf m.sub && !c.blocked m) then some (State.drainBuf k (c.redbuf.length + 1) s) else
  match c.phase, c.mq with
  | .waiting _, m :: _ =>
    if m.slots.any (fun i => (c.op i).owner.isNone) then some ((s.matrixArrival k m (some (.format, 0)) false).dequeue k)
    else if !m.slots.all (fun i => (c.op i).full) || c.blocked m then none
    else if !m.zi && c.kbOf m.sub < m.kb then none
    else if !m.zi && m.kb < c.kbOf m.sub then some (s.endCommand k m (some (.kbOrder, BitVec.ofNat 64 m.kb)) false)
    else if m.depth == 0 then some (s.finishCommand k m)
    else if !c.descsOk m then some (s.endCommand k m (some (.format, 0)) false)
    else
      let f := s.cycle + 8 + 8192 / max 1 (min (macRate m.afmt) (macRate m.bfmt))
      some ((s.setCore k { c with phase := .running f }).at f (.mmaFinish k))
  | _, _ => none
def execMmaStart (k : Nat) (s : State) : Host.Outcome State Fault Refusal := .next ((s.headStep k).getD s)
def execMmaFinish (k : Nat) (s : State) : Host.Outcome State Fault Refusal :=
  .next (match (s.core k).phase, (s.core k).mq with
    | .running f, m :: _ => if f ≤ s.cycle then s.finishCommand k m else s
    | _, _ => s)
def execOperandForward (k : Nat) (s : State) : Host.Outcome State Fault Refusal := .next (s.forwardStep k)
/-- The limit of R228: a head command that has not started fails. -/
def execMatrixHeadTimeout (k : Nat) (s : State) : Host.Outcome State Fault Refusal :=
  .next (match (s.core k).phase, (s.core k).mq with
    | .waiting since, m :: _ =>
      if s.cycle < since + m.limit then s
      else if !m.slots.isEmpty && m.slots.all (fun i => ((s.core k).op i).full) then s.endCommand k m (some (.syncTimeout, 0)) false
      else (s.matrixArrival k m (some (.syncTimeout, 0)) false).dequeue k
    | _, _ => s)

/-- Whether a forward of core `k` can go on. -/
def State.forwardReady (s : State) (k : Nat) : Bool :=
  match (s.core k).phase, (s.core k).mq with
  | .forwarding _ _ e so, m :: _ =>
    let dir := fun (target : Option Nat) (src : List Nat) (first : Nat) (t : Option Nat) => match t, target with
      | none, _ => false
      | _, none => true
      | some t, some d =>
        let tg := src.zipIdx.map (fun p => (s.core d).op (first + p.2))
        tg.any (fun o => o.owner.isNone) || (t == 0 && tg.all (fun o => !o.full)) || (t != 0 && t ≤ s.cycle)
    dir (eastOf k) m.slotsA (bits m.word 52 4) e || dir (southOf k) m.slotsB (bits m.word 48 4) so
  | _, _ => false

/-! ### Acceptance (R226, R227, R229, R244) -/

/-- The command of a request: the register block, the limit and the issue cycle, and a contribution's elements. -/
def matrixCmd (q : Request) : MCmd :=
  { env := ⟨q.src.module, coreOf q.src, 0, q.cnt, q.stream, q.serial, q.ctag, q.ptbase, 0, 0, 0⟩, mred := q.typ == .mred, regs := q.words.take 4
    limit := (nth q.words 4).toNat, tag := q.tag
    data := if q.typ == .mred then (List.range 256).map (fun i => BitVec.ofNat 128 (leNat ((q.bytes.drop (16 * i)).take 16))) else [] }
/-- Whether a command's limit has passed at its unit, or at its sender in the same module: words 4 and 5 are the limit and the issue cycle. -/
def State.matrixLate (s : State) (q : Request) : Bool :=
  q.src.module == s.moduleNo && decide ((nth q.words 4).toNat ≤ (s.cycle + 2 ^ 64 - (nth q.words 5).toNat) % 2 ^ 64)
/-- A command or contribution at the unit of its target: DONE when it is accepted or settled by its arrival, RETRY when there is no room. -/
def State.matrixAccept (s : State) (q : Request) : State × Reply :=
  let k := coreOf q.dst
  let m := matrixCmd q
  let c := s.core k
  if s.matrixLate q then (s, .error .syncTimeout 0)
  else if nth m.regs 1 == 0 || (nth m.regs 1).toNat != c.cap.toNat then (s.matrixArrival k m (some (.capRefused, 0)) false, .done [])
  else if c.acount ≤ m.sub then (s.matrixArrival k m (some (.matrixArg, 0)) false, .done [])
  else if m.mred then
    if m.kb < c.kbOf m.sub then (s.matrixArrival k m (some (.kbOrder, BitVec.ofNat 64 m.kb)) false, .done [])
    else if m.kb == c.kbOf m.sub && !c.blocked m then
      (s.takeMred k m |> State.drainBuf k (c.redbuf.length + 1), .done [])
    else if m.kb == c.kbOf m.sub || c.redbuf.length < Config.queueEntries then (s.setCore k { c with redbuf := c.redbuf ++ [m] }, .done [])
    else (s, .retry)
  else if m.rows == 0 || m.cols == 0 then (s.matrixArrival k m none false, .done [])
  else if c.mq.length ≥ Config.queueEntries then (s, .retry)
  else
    let s1 := s.setCore k { c with mq := c.mq ++ [m] }
    (if c.mq.isEmpty then s1.newHead k else s1, .done [])
def execReqMma (m : Request) (s : State) : Host.Outcome State Fault Refusal :=
  .next (s.serveReq m (fun s => s.matrixAccept m))
def execReqMred (m : Request) (s : State) : Host.Outcome State Fault Refusal :=
  .next (s.serveReq m (fun s => s.matrixAccept m))

/-! ### The sender (R227, R267) -/

/-- The entry of core `k` with tag `tag` changed, or taken out. -/
def State.mapSend (s : State) (k tag : Nat) (f : PendReq → Option PendReq) : State :=
  s.mapCore k (fun c => { c with sends := c.sends.filterMap (fun p => if p.req.tag == tag then f p else some p) })
/-- The failure of a command that its sender settles. -/
def State.sendFail (s : State) (p : PendReq) (c : Cause) (v : Word) : State :=
  s.matrixArrivalBy p.req.src p.req.dst.module (coreOf p.req.dst) (matrixCmd p.req) (some (c, v)) false
/-- Whether a command is held behind an earlier one: not sent yet (R227). -/
def PendReq.held (p : PendReq) : Bool := p.idle && p.tries == 0
/-- A command is sent to its unit: for the first time with K.ACKW as it is now (R258); its timers start. -/
def State.sendOne (s : State) (k : Nat) (p : PendReq) : State × Option Reply :=
  let q := { p.req with sent := s.us, ack := if p.held then s.ackOf p.req.stream else p.req.ack }
  let s1 := (s.mapSend k q.tag (fun x => some { x with req := q, idle := false, lastSent := s.cycle, clock := if p.held then s.cycle else x.clock })).at
    (s.cycle + Config.resendCycles) (.requestRetransmit q.tag)
  (if p.held then s1.at (s.cycle + Config.giveUpCycles) (.requestGiveUp q.tag) else s1).sendBy q (fun s => s.matrixAccept q)
/-- An answer for a command of core `k` (R227, R267); the later commands of the same stream to the same unit follow when it is accepted. `fuel` bounds them. -/
def State.sendReply (k : Nat) : Nat → State → PendReq → Reply → State
  | 0, s, _, _ => s
  | fuel + 1, s, p, r =>
    let q := p.req
    let refused := if s.matrixLate q then none else
      some ((s.mapSend k q.tag (fun x => some { x with idle := true, clock := s.cycle, tries := x.tries + 1 })).at
        (s.cycle + 64 * 2 ^ min p.tries 10) (.backoffResend q.tag))
    let next := fun (s : State) => match (s.core k).sends.find? (fun x => x.req.stream == q.stream && x.req.dst == q.dst) with
      | none => s
      | some p2 => if !p2.held then s else match s.sendOne k p2 with
        | (s1, none) => s1
        | (s1, some r2) => State.sendReply k fuel s1 p2 r2
    let drop := s.mapSend k q.tag (fun _ => none)
    match r with
    | .parked => s.mapSend k q.tag (fun x => some { x with clock := s.cycle })
    | .fenced => s
    | .retry => match refused with | some s1 => s1 | none => next (drop.sendFail p .syncTimeout 0)
    | .busy => match refused with | some s1 => s1 | none => next (drop.sendFail p .syncTimeout 0)
    | .done _ => next drop
    | .cancelled => next drop
    | .error c v => next (drop.sendFail p c v)
    | _ => next (drop.sendFail p .remoteUnknown (q.serial.setWidth 64))
/-- A new command of core `k`: sent unless an earlier one of its stream to its unit is not accepted yet. -/
def State.sendMatrix (s : State) (k : Nat) (q0 : Request) : State :=
  let q := { q0 with tag := s.nextTag, sent := s.us }
  let p : PendReq := ⟨q, true, s.cycle, s.cycle, 0, q.ctag, true, false, []⟩
  let held := (s.core k).sends.any (fun x => x.req.stream == q.stream && x.req.dst == q.dst)
  let s1 := (({ s with nextTag := s.nextTag + 1 } : State).mapCore k (fun c => { c with sends := c.sends ++ [p] })).at
    (s.cycle + (nth q.words 4).toNat) (.matrixAcceptTimeout q.tag)
  if held then s1 else match s1.sendOne k p with
    | (s2, none) => s2
    | (s2, some r) => State.sendReply k ((s2.core k).sends.length + 1) s2 p r
/-- The command of any core with a tag. -/
def State.findSend (s : State) (tag : Nat) : Option (Nat × PendReq) :=
  (s.cores.map (fun (c : Nat × Core) => (c.2.sends.filter (fun p => p.req.tag == tag)).map (fun p => (c.1, p)))).flatten.head?
/-- A command not accepted within its limit (R227); one that is on its way is decided by its unit. -/
def execMatrixAcceptTimeout (tag : Nat) (s : State) : Host.Outcome State Fault Refusal :=
  .next (match s.findSend tag with
    | some (k, p) => if p.idle then State.sendReply k ((s.core k).sends.length + 1) s p (.error .syncTimeout 0) else s
    | none => s)

/-! ### OCLAIM, ORELS, MCAP -/

def maskSlots (m : Word) : List Nat := (List.range 16).filter (fun i => m.getLsbD i)
/-- OCLAIM (R241). -/
def execOclaim (c : Ctl) (d a : Reg) (s : State) : Host.Outcome State Fault Refusal :=
  .next (runWord (.oclaim c d a) c { reads := [a], writes := [d] } (fun s t =>
    let l := maskSlots (t.rd a)
    if bits (t.rd a) 16 48 != 0 then .trap s .matrixArg (t.rd a)
    else if l.all (fun i => ((s.core s.k).op i).owner.isNone) then
      .done ((s.put (t.wr d (t.rd a))).mapCore s.k (fun c => l.foldl (fun (c : Core) i => c.setOp i { OpSlot.reset with owner := some s.sl }) c)) 0
    else .next (t.wr d 0) 0) s)
/-- ORELS (R241). -/
def execOrels (c : Ctl) (a : Reg) (s : State) : Host.Outcome State Fault Refusal :=
  .next (runWord (.orels c a) c { reads := [a] } (fun s t =>
    let l := maskSlots (t.rd a)
    if l.any (fun i => ((s.core s.k).op i).owner != some s.sl) then .trap s .matrixArg (t.rd a)
    else if l.any (s.core s.k).slotNamed then .wait s (.slotsUnnamed (t.rd a).toNat) 0
    else .done (s.mapCore s.k (fun c => l.foldl (fun (c : Core) i => c.setOp i OpSlot.reset) c)) 0) s)
/-- The fresh capability of a unit (R226): the search begins at a free value (log 2). -/
def Core.findCap (c : Core) : Nat → BitVec 32 → BitVec 32
  | 0, x => x
  | fuel + 1, x => if x = 0 || x = c.cap || c.caps.contains x then c.findCap fuel (x + 1) else x
/-- MCAP (R242). -/
def execMcap (c : Ctl) (d : Reg) (s : State) : Host.Outcome State Fault Refusal :=
  .next (runWord (.mcap c d) c { writes := [d] } (fun s t =>
    let core := s.core s.k
    if core.acount == 0 then .trap s .matrixArg 0
    else if !core.mq.isEmpty then .wait s .unitQueue 0
    else
      let x := core.findCap (core.caps.length + 2) (Config.freshCap s.freeCtr)
      .done ((s.useFree.setCore s.k { core with holder := some s.sl, cap := x, nextKb := [0, 0, 0, 0]
                                                caps := if core.cap == 0 then core.caps else (core.cap :: core.caps).take 65536 }).put
        (t.wr d (x.setWidth 64))) 0) s)

/-! ### MMA and MRED -/

/-- A completion reference with CT in bit 31 (R243). -/
def refBadCt (r : Word) : Bool := refBad (r &&& ~~~0x80000000#64)
/-- The target of MMA and MRED: its register's value is bad, or the core it names. -/
def targetBad (w : Word) : Bool := bits w 52 12 != 0 || bits w 18 14 != 0 || decide (Config.coresPerDie ≤ bits w 0 14)
def State.targetOwn (s : State) (w : Word) : Bool := bits w 32 20 == s.moduleNo && bits w 0 18 == s.k
/-- The request of a matrix word. -/
def State.matrixReq (s : State) (t : Thread) (typ : ReqType) (l : List Word) (b : List Byte) : Request :=
  let tg := nth l 0
  { typ := typ, src := s.endpoint s.k
    dst := ⟨0, bits tg 32 20, bits tg 14 4, bits tg 0 14⟩
    serialed := true, stream := t.stream, serial := t.serial, ack := t.ackw, sent := s.us, addr := 0, off := 0, f := if typ == .mma then 3 else 4
    lsize := 0, words := l ++ [BitVec.ofNat 64 t.synclim, BitVec.ofNat 64 s.cycle], bytes := b, ctag := t.ctag, va := 0, cnt := t.cnt
    guest := t.guest, ptbase := t.ptbase, tag := 0 }
/-- A matrix command leaves: the limits, one serial, the thread's list. -/
def matrixSend (s : State) (t : Thread) (kind : EngKind) (typ : ReqType) (l : List Word) (b : List Byte) : WordRes :=
  if t.engs.length ≥ Config.maxEngine then .wait s .engineCount 0
  else match t.sendWait 1 0 with
    | some w => .wait s w.1 w.2
    | none => .done ((s.put { t.takeSerial with engs := t.engs ++ [⟨kind, t.serial, 0, nth l 3, t.ctag, t.pc⟩] }).sendMatrix s.k (s.matrixReq t typ l b)) 0

/-- A matrix format wider than 8 bits, which takes no scales (R249). -/
def isWide (fmt : Nat) : Bool := macRate fmt != 0 && decide (8 < panelWidth fmt)
/-- MMA (R243, R244, R249). -/
def execMma (c : Ctl) (a : Reg) (s : State) : Host.Outcome State Fault Refusal :=
  .next (runWord (.mma c a) c { reads := [a, a + 1#6, a + 2#6, a + 3#6] } (fun s t =>
    let l := t.block a 4
    let w := nth l 2
    let af := bits w 29 5
    let bf := bits w 24 5
    let past := fun (first fmt : Nat) => decide (16 < first + slotsOf fmt)
    if targetBad (nth l 0) then .trap s .matrixArg (nth l 0)
    else if 2 ^ 32 ≤ (nth l 1).toNat then .trap s .matrixArg (nth l 1)
    else if bits w 0 2 != 0 || 16 < bits w 15 5 || 16 < bits w 10 5 || 32 < bits w 4 6 || past (bits w 60 4) af || past (bits w 56 4) bf
      || (w.getLsbD 21 && past (bits w 52 4) af) || (w.getLsbD 20 && past (bits w 48 4) bf)
      || (s.targetOwn (nth l 0) && decide ((s.core s.k).acount ≤ bits w 46 2))
      || (w.getLsbD 23 && (isWide af || isWide bf)) || isLow af then .trap s .matrixArg w
    else if macRate af == 0 || macRate bf == 0 || !pairOk af bf then .trap s .format w
    else if refBadCt (nth l 3) then .trap s .address (nth l 3)
    else matrixSend s t .mma .mma l []) s)
/-- MRED (R247, R249). -/
def execMred (c : Ctl) (a : Reg) (s : State) : Host.Outcome State Fault Refusal :=
  .next (runWord (.mred c a) c { reads := [a, a + 1#6, a + 2#6, a + 3#6] } (fun s t =>
    let l := t.block a 4
    let w := nth l 2
    let core := s.core s.k
    if targetBad (nth l 0) then .trap s .matrixArg (nth l 0)
    else if 2 ^ 32 ≤ (nth l 1).toNat then .trap s .matrixArg (nth l 1)
    else if bits w 16 48 != 0 || core.acount ≤ bits w 0 2 || (s.targetOwn (nth l 0) && decide (core.acount ≤ bits w 2 2)) then .trap s .matrixArg w
    else if core.holder != some s.sl then .trap s .accHolder (BitVec.ofNat 64 s.sl)
    else if refBadCt (nth l 3) then .trap s .address (nth l 3)
    else if !core.applied (bits w 0 2) then .wait s (.applied (bits w 0 2)) 0
    else match s.check (accErr s.k (bits w 0 2)) 0x1000 with
      | (s1, false) => .trapVal s1 .eccUncorr 0 false
      | (s1, true) => matrixSend s1 t .mred .mred l ((List.range 256).flatMap (fun i => leBytes 16 (core.accAt (bits w 0 2 * 256 + i)).toNat))) s)

/-! ### MFILL -/

/-- The parts of the own local store that a word touches, for R337. -/
def State.ownParts (s : State) (l : List (Word × Nat)) : List Piece := l.map (fun p => ⟨s.localPa s.k (bits p.1 0 17), p.2, p.1, 0⟩)
/-- A range that must be local. -/
def localBad (va : Word) (n : Nat) : Option Word := if isLocal va then badByte va n else some va
/-- The panel of R224 from the rows of the source, each as one number: 512 elements of `w` bits. -/
def packPanel (w : Nat) (roleB tr : Bool) (rows : List Nat) : Nat :=
  (List.range 512).foldl (fun n e =>
    let p := if roleB then (e / 16, e % 16) else (e / 32, e % 32)
    let r := if tr then (p.2, p.1) else p
    n + rows.getD r.1 0 / 2 ^ (r.2 * w) % 2 ^ w * 2 ^ (e * w)) 0
/-- Data bytes of a slot as the table that lists no zero. -/
def slotData (l : List Byte) : Tab Byte := (l.zipIdx.filter (fun p => p.1 != 0)).map (fun p => (p.2, p.1))

/-- MFILL (R245, R249). -/
def execMfill (c : Ctl) (a : Reg) (s : State) : Host.Outcome State Fault Refusal :=
  .next (runWord (.mfill c a) c { reads := [a, a + 1#6, a + 2#6], lag := 4 } (fun s t =>
    let src := t.rd a
    let ctl := t.rdN (a.toNat + 1)
    let sc := t.rdN (a.toNat + 2)
    let core := s.core s.k
    let pitch := bits ctl 48 16
    let roleB := ctl.getLsbD 43
    let tr := ctl.getLsbD 42
    let tv := ctl.getLsbD 41
    let fmt := bits ctl 32 5
    let w := if panelWidth fmt == 0 then 8 else panelWidth fmt
    let along := roleB == tr
    let rows := if along then 16 else 32
    let rowb := ((if along then 32 else 16) * w + 7) / 8
    let slots := (List.range (slotsOf fmt)).map (fun i => bits ctl 44 4 + i)
    let span := (rows - 1) * pitch + rowb
    if bits ctl 37 3 != 0 || bits ctl 0 32 != 0 || pitch < rowb || pitch == 0 || slots.any (fun i => decide (15 < i)) || (isLow fmt && (!roleB || tr)) then .trap s .matrixArg ctl
    else if macRate fmt == 0 then .trap s .format ctl
    else if sc != 0 && 8 < w then .trap s .matrixArg sc
    else if slots.any (fun i => (core.op i).owner != some s.sl) then .trap s .matrixArg ctl
    else if sc != 0 && ctl.getLsbD 40 == along then .trap s .scaleAxis ctl
    else match (if tv then (if core.tsize < src.toNat + span then some (if src.toNat < core.tsize then BitVec.ofNat 64 core.tsize else src) else none) else localBad src span) with
      | some v => .trap s .address v
      | none => match (if sc != 0 then localBad sc 16 else none) with
        | some v => .trap s .address v
        | none =>
          if 8 ≤ w && (src.toNat % (w / 8) != 0 || pitch % (w / 8) != 0) then .trap s .align src
          else
            let rd := (if tv then [] else (List.range rows).map (fun r => (src + BitVec.ofNat 64 (r * pitch), rowb))) ++ (if sc != 0 then [(sc, 16)] else [])
            if !(touching t (s.ownParts rd)).isEmpty then .wait s (.tags (touching t (s.ownParts rd))) src
            else if slots.any (fun i => (core.op i).full) then .wait s (.slotsEmpty (slots.foldl (fun n i => n + 2 ^ i) 0)) 0
            else
              let key := localKey s.k (bits src 0 17)
              let own := rd.map (fun p => (localKey s.k (bits p.1 0 17), p.2, p.1))
              let view := if tv then (List.range rows).map (fun r => (tileErr s.k core.acount (src.toNat + r * pitch), rowb, src + BitVec.ofNat 64 (r * pitch))) else []
              let r := (own ++ view).foldl (fun (r : State × Option Word) p => match r.2 with
                | some _ => r
                | none => match r.1.check p.1 p.2.1 with
                  | (s1, true) => (s1, none)
                  | (s1, false) => (s1, some p.2.2)) (s, none)
              match r.2 with
              | some v => .trapVal r.1 .eccUncorr v (isLocal v)
              | none =>
                let s1 := r.1
                let row := fun (i : Nat) => leNat (if tv then readBytes core.tile (src.toNat + i * pitch) rowb else readBytes s1.mem (key + i * pitch) rowb)
                let x := packPanel w roleB tr ((List.range rows).map row)
                let scales := if sc != 0 then readBytes s1.mem (localKey s.k (bits sc 0 17)) 16 else List.replicate 16 0x7F#8
                let all := leBytes (1024 * slots.length) x
                let data := fun (i : Nat) =>
                  let l := (all.drop (1024 * i)).take 1024
                  slotData (if w ≤ 8 then l.take 1008 ++ scales else l)
                .done ((s1.covered (slotErr s.k (bits ctl 44 4)) (1024 * slots.length)).mapCore s.k (fun c => slots.zipIdx.foldl (fun (c : Core) p =>
                  c.setOp p.1 { c.op p.1 with full := true, fmt := fmt, roleB := roleB, scaled := sc != 0, data := data p.2 }) c))
                  (t.issued + 8 + 64 * slots.length)) s)

/-! ### MDRAIN and CBLOAD -/

/-- One element of the accumulator converted (R246): its encoding and flags. -/
def drainElem (fmt : Nat) (r : Rnd) (rs cs : Option Val) (x : BitVec 128) : Nat × Nat :=
  if fmt == 24 then (x.toNat, 0) else
  let e := Aw.ofBits x
  let v := e.value r.mode
  let scale := fun (p : Val × Nat) (o : Option Val) => match o with
    | none => p
    | some y => match p.1.times y with
      | some (.nan sg) => (Val.nan false, if sg then p.2 ||| fNV else p.2)
      | some z => (z, p.2)
      | none => (Val.nan false, p.2 ||| fNV)
  let p := scale (scale (v.1, if v.2 then fNV else 0) rs) cs
  let o := encodeElem fmt r p.1
  (o.1, o.2 ||| p.2 ||| (if e.f % 2 == 1 then fNX else 0))
/-- The formats MDRAIN writes. -/
def drainFmts : List Nat := [1, 2, 3, 4, 5, 6, 7, 8, 9, 12, 14, 16, 24]

/-- MDRAIN and CBLOAD (R246, R248): the word waits for the commands of the list `l`; then it acts 4 cycles later, as every access to the own store (R120). `sub`: as in `Wait.commands`. -/
def afterCommands (i : Instr) (s : State) (t : Thread) (acts : Bool) (sub : Nat) (l : List Nat) (res : WordRes) : WordRes :=
  if acts then res
  else if t.waitStart.isNone && !(s.core s.k).commandsDone sub l then .wait s (.commands sub l) 0
  else .stop (s.put { t with status := .acting (s.cycle + 4) ((encode i).setWidth 32) })
/-- MDRAIN (R246, R249). `l` is the register block, `scaled` whether n is 4. -/
def drainWord (i : Instr) (c : Ctl) (a : Reg) (scaled : Bool) (s0 : State) : State :=
  runWord i c { reads := (List.range (if scaled then 4 else 2)).map (fun j => a + BitVec.ofNat 6 j), lag := if s0.actsNow then 4 else 0 } (fun s t =>
    let l := t.block a (if scaled then 4 else 2)
    let dst := nth l 0
    let ctl := nth l 1
    let ra := nth l 2
    let ca := nth l 3
    let core := s.core s.k
    let pitch := bits ctl 48 16
    let rs := ctl.getLsbD 19
    let cs := ctl.getLsbD 18
    let fmt := bits ctl 8 5
    let sub := bits ctl 0 2
    let w := if fmtWidth fmt == 0 then 8 else fmtWidth fmt
    let rowb := 2 * w
    if bits ctl 20 28 != 0 || bits ctl 13 3 != 0 || bits ctl 2 3 != 0 || core.acount ≤ sub || 5 < bits ctl 5 3 || pitch < rowb || ((rs || cs) && !scaled) then .trap s .matrixArg ctl
    else if scaled && !rs && ra != 0 then .trap s .matrixArg ra
    else if scaled && !cs && ca != 0 then .trap s .matrixArg ca
    else if !drainFmts.contains fmt then .trap s .format ctl
    else if core.holder != some s.sl then .trap s .accHolder (BitVec.ofNat 64 s.sl)
    else match localBad dst (15 * pitch + rowb), (if rs then localBad ra 64 else none), (if cs then localBad ca 64 else none) with
      | some v, _, _ => .trap s .address v
      | _, some v, _ => .trap s .address v
      | _, _, some v => .trap s .address v
      | none, none, none =>
        if 8 ≤ w && (dst.toNat % (w / 8) != 0 || pitch % (w / 8) != 0) then .trap s .align dst
        else
          let io := (List.range 16).map (fun r => (dst + BitVec.ofNat 64 (r * pitch), rowb)) ++ (if rs then [(ra, 64)] else []) ++ (if cs then [(ca, 64)] else [])
          if !(touching t (s.ownParts io)).isEmpty then .wait s (.tags (touching t (s.ownParts io))) dst
          else afterCommands i s t s0.actsNow sub (core.naming sub) (
            let key := fun (v : Word) => localKey s.k (bits v 0 17)
            match s.check (accErr s.k sub) 0x1000 with
            | (s0, false) => .trapVal s0 .eccUncorr 0 false
            | (s0, true) => match (if rs then s0.readMem (key ra) 64 else (s0, some [])) with
              | (s1, none) => .trap s1 .eccUncorr ra
              | (s1, some lr) => match (if cs then s1.readMem (key ca) 64 else (s1, some [])) with
                | (s2, none) => .trap s2 .eccUncorr ca
                | (s2, some lc) =>
                  let r : Rnd := t.rnd (bits ctl 5 3) (ctl.getLsbD 16)
                  let sc := fun (on : Bool) (l : List Byte) (i : Nat) => if on then some ((match ffmt 2 with | some f => f.decodeDaz t.daz (field l (4 * i) 4) | none => Val.nan false)) else none
                  let es := (List.range 256).map (fun n => drainElem fmt r (sc rs lr (n / 16)) (sc cs lc (n % 16)) (core.accAt (sub * 256 + n)))
                  let fl := es.foldl (fun n e => n ||| e.2) 0
                  if t.fpTraps fl then .trap s2 .fpException (BitVec.ofNat 64 fl)
                  else
                    let s3 := (List.range 16).foldl (fun (s : State) i =>
                      s.writeMem (key dst + i * pitch) (leBytes rowb (((es.drop (16 * i)).take 16).zipIdx.foldl (fun n p => n + p.1.1 * 2 ^ (w * p.2)) 0))) s2
                    let s4 := (List.range 16).foldl (fun (s : State) i =>
                      (cutRange 16 (rowb + 1) (key dst + i * pitch) rowb).foldl (fun (s : State) p => s.setFE (p.1 / 16) true) s) s3
                    let s5 := if ctl.getLsbD 17 then State.drainBuf s.k (core.redbuf.length + 1) ((s4.covered (accErr s.k sub) 0x1000).mapCore s.k (fun c =>
                        { c.setKb sub 0 with acc := c.acc.filter (fun p => p.1 / 256 != sub) })) else s4
                    .done (s5.put (t.orFlags fl)) (t.issued + 72))) s0
def execMdrain (c : Ctl) (a : Reg) (s : State) : Host.Outcome State Fault Refusal := .next (drainWord (.mdrain c a) c a false s)
def execMdrainScaled (c : Ctl) (a : Reg) (s : State) : Host.Outcome State Fault Refusal := .next (drainWord (.mdrainScaled c a) c a true s)

/-- CBLOAD (R248). -/
def execCbload (c : Ctl) (a : Reg) (s0 : State) : Host.Outcome State Fault Refusal :=
  .next (runWord (.cbload c a) c { reads := [a], lag := if s0.actsNow then 4 else 0 } (fun s t =>
    let core := s.core s.k
    let va := t.rd a
    if core.holder != some s.sl then .trap s .accHolder (BitVec.ofNat 64 s.sl)
    else match localBad va 1024 with
      | some v => .trap s .address v
      | none =>
        if va.toNat % 16 != 0 then .trap s .align va
        else if !(touching t (s.ownParts [(va, 1024)])).isEmpty then .wait s (.tags (touching t (s.ownParts [(va, 1024)]))) va
        else afterCommands (.cbload c a) s t s0.actsNow 4 (core.mq.map MCmd.tag) (match s.readMem (localKey s.k (bits va 0 17)) 1024 with
          | (s1, some l) =>
            .done (s1.mapCore s.k (fun c => { c with cb :=
              (((List.range 256).map (fun p => (p, BitVec.ofNat 32 (field l (4 * p) 4)))).filter (fun p => p.2 != 0)) })) (t.issued + 72)
          | (s1, none) => .trap s1 .eccUncorr va)) s0)

end Sys2Proof.Machine
end

