-- ==== Sys2Proof/Machine/Coll.lean ====
section
/-! DEFINITION. Collectives: COLL, the units' combination of contributions, and the requests between them (R271, R272, R275). -/
namespace Sys2Proof.Machine

/-! ### Fields of a descriptor (R271) -/

def collGroup (d : Word) : Nat := bits d 0 12
def collFmt (d : Word) : Nat := bits d 28 5
def collRnd (d : Word) : Nat := bits d 33 3
def collOp (d : Word) : Nat := bits d 36 4
def collInst (d : Word) : Nat := bits d 48 16
/-- Bytes of an element: an AUCTION element is 8 bytes (R272). -/
def collSize (d : Word) : Nat := if collOp d == 4 then 8 else fmtWidth (collFmt d) / 8
/-- Whether a format is allowed for an operation (R272). -/
def collFmtOk (op f : Nat) : Bool :=
  match op with
  | 0 => f == 1 || f == 2
  | 1 => [1, 2, 10, 11, 12, 13].contains f
  | 2 => [1, 2, 10, 11, 12, 13].contains f
  | 3 => (1 ≤ f && f ≤ 6) || (10 ≤ f && f ≤ 17) || f == 23
  | _ => f == 2
/-- A group's members on this module and elsewhere. -/
def Group.rank (g : Group) (m k : Nat) : Option Nat := g.members.findIdx? (fun x => x == (m, k))

/-! ### Results (R272) -/

/-- A term of SUM: an element times K.CNT, rounded to odd where it does not fit. -/
def awTerm (v : Val) (c : Nat) : Aw :=
  match v with
  | .nan sg => ⟨0, 0, if sg then 18 else 2⟩
  | .inf n => ⟨0, 0, if n then 8 else 4⟩
  | .num n m e =>
    let x := m * c
    if x == 0 then ⟨0, 0, 0⟩
    else
      let t : Int := if n then -(x : Int) else x
      let u := e + (Nat.log2 x : Int) - 94
      if Nat.log2 x ≤ 94 then ⟨t, e, 0⟩
      else let r := roundOdd t e u; ⟨r.1, u, if r.2 then 1 else 0⟩
/-- One element of SUM: the encoding and the flags. -/
def collSum (fmt rnd : Nat) (l : List (Nat × Nat)) : Nat × Nat :=
  let a := l.foldl (fun (a : Aw) x => a.add (awTerm (decodeElem fmt false x.1) x.2)) ⟨0, 0, 0⟩
  let v := a.value rnd
  let o := encodeElem fmt ⟨rnd, false, false, false⟩ v.1
  (o.1, o.2 ||| (if v.2 then fNV else 0) ||| (if a.f % 2 == 1 then fNX else 0))
/-- One element of MAX or MIN. -/
def collExtreme (mx : Bool) (fmt : Nat) (l : List Nat) : Nat × Nat :=
  match ffmt fmt, ifmt fmt, l with
  | _, _, [] => (0, 0)
  | some f, _, x :: r =>
    let vs := l.map f.decode
    let v := r.foldl (fun a b => (Val.pick mx a (f.decode b)).1) (f.decode x)
    (if v.isNan then f.nan else f.exact v, if vs.any Val.isSig then fNV else 0)
  | none, some (sg, w), x :: r => (r.foldl (fun a b => if decide (intOf sg w a < intOf sg w b) == mx then b else a) x, 0)
  | none, none, x :: _ => (x, 0)
/-- Whether AUCTION element `b` beats `a`: the larger value, a NaN below every number; equal values and two NaNs go to the smaller index. -/
def auctionBeats (a b : Nat) : Bool :=
  let va := decodeElem 2 false (a % 2 ^ 32)
  let vb := decodeElem 2 false (b % 2 ^ 32)
  let tie := decide (b / 2 ^ 32 < a / 2 ^ 32)
  if va.isNan then !vb.isNan || tie
  else match va.cmp vb with
    | some .lt => true
    | some .eq => tie
    | _ => false
/-- The bytes every member receives, and the flags; contributions in rank order. -/
def collResult (d : Word) (count : Nat) (l : List Contribution) : List Byte × Nat :=
  let n := collSize d
  let at' := fun (c : Contribution) (i : Nat) => field c.bytes (i * n) n
  match collOp d with
  | 3 => ((l.map Contribution.bytes).flatten, 0)
  | op =>
    let es := (List.range count).map (fun i => match op with
      | 0 => collSum (collFmt d) (collRnd d) (l.map (fun c => (at' c i, c.env.cnt)))
      | 1 => collExtreme true (collFmt d) (l.map (fun c => at' c i))
      | 2 => collExtreme false (collFmt d) (l.map (fun c => at' c i))
      | _ => ((l.drop 1).foldl (fun (a : Nat) c => if auctionBeats a (at' c i) then at' c i else a) (((l.head?).map (fun c => at' c i)).getD 0), 0))
    ((es.map (fun e => leBytes n e.1)).flatten, es.foldl (fun n e => n ||| e.2) 0)

/-! ### Instances -/

/-- Whether contributions differ, or one comes from a core that is no member or from a module with another member list (R272, R364). -/
def Inst.mismatch (x : Inst) (n : Nat) : Bool :=
  match x.got with
  | [] => false
  | c :: l => x.got.any (fun b => decide (n ≤ b.rank) || !b.alike) || l.any (fun b => bits b.desc 28 12 != bits c.desc 28 12 || b.count != c.count)
/-- An arrival of a contribution of this module. -/
def State.collArrive (s : State) (c : Contribution) (fail : Option Cause) (flags : Nat) : State :=
  if c.env.module != s.moduleNo then s
  else s.sendArrival { plainArrival ⟨3, s.moduleNo, dieOf c.env.core, 0⟩ c.env c.env.core c.ref (fail.map (fun e => (e, c.desc))) with flags := BitVec.ofNat 5 flags }
/-- The result delivered to a member of this module: its destination as R95 says, then the arrival. -/
def State.collDeliver (s : State) (l : List Byte) (flags : Nat) (c : Contribution) : State :=
  if c.env.module != s.moduleNo || l.isEmpty then s
  else
    let key := localKey c.env.core (bits c.dest 0 17)
    let e := key + l.length
    let s1 := s.writeMem key (l ++ (if e % 16 == 0 then [] else List.replicate (16 - e % 16) 0))
    let s2 := (List.range ((e + 15) / 16 - key / 16)).foldl (fun (s : State) i => s.setFE (key / 16 + i) true) s1
    s2.collArrive c none flags
def insertRank (c : Contribution) : List Contribution → List Contribution
  | [] => [c]
  | y :: l => if c.rank < y.rank then c :: y :: l else y :: insertRank c l
def State.putInst (s : State) (x : Inst) : State :=
  { s with insts := x :: s.insts.filter (fun y => !(y.group == x.group && y.inst == x.inst)) }
def State.dropInst (s : State) (g i : Nat) : State := { s with insts := s.insts.filter (fun y => !(y.group == g && y.inst == i)) }
def State.findInst (s : State) (g i : Nat) : Option Inst := s.insts.find? (fun y => y.group == g && y.inst == i)

/-- A group's member list as words (R364): module in bits 37:18, module core number in bits 17:0. -/
def Group.list (g : Group) : List Word := g.members.map (fun x => BitVec.ofNat 64 (x.1 * 2 ^ 18 + x.2))
/-- The contribution of a request (R260): the register block, the count of its thread, the data. Five words are the block, the member list of its module follows (log 87). -/
def contributionOf (q : Request) (rank : Nat) (list : List Word) : Contribution :=
  ⟨rank, q.words.drop 5 == list, ⟨q.src.module, coreOf q.src, 0, q.cnt, q.stream, q.serial, q.ctag, q.ptbase, 0, 0, 0⟩, nth q.words 0, (nth q.words 3).toNat, nth q.words 2, nth q.words 4, q.bytes⟩
/-- A contribution at the units of this module (R272). -/
def State.contribute (s : State) (q : Request) : State × Reply :=
  let d := nth q.words 0
  match s.groups.find (collGroup d) with
  | none => (s, .error .collMismatch d)
  | some g =>
    let n := g.members.length
    let c := contributionOf q ((g.rank q.src.module (coreOf q.src)).getD n) g.list
    let old := s.findInst (collGroup d) (collInst d)
    if c.rank < n && (match old with | some x => x.got.any (fun y => y.rank == c.rank) | none => false) then
      (s.collArrive c (some .collMismatch) 0, .done [])
    else
      let x : Inst := match old with
        | some x => { x with got := insertRank c x.got }
        | none => ⟨collGroup d, collInst d, s.cycle, [c]⟩
      let s1 := if old.isNone then s.at (s.cycle + g.limit * Config.usCycles) (.collInstanceTimeout x.group x.inst) else s
      let done := n ≤ x.got.length
      let s2 := if done then s1.dropInst x.group x.inst else s1.putInst x
      if x.mismatch n then
        let was := match old with | some y => y.mismatch n | none => false
        ((if was then [c] else x.got).foldl (fun (s : State) y => s.collArrive y (some .collMismatch) 0) s2, .done [])
      else if done then
        let r := collResult d c.count x.got
        (x.got.foldl (fun (s : State) y => s.collDeliver r.1 r.2 y) s2, .done [])
      else (s2, .done [])
def execReqCollc (m : Request) (s : State) : Host.Outcome State Fault Refusal :=
  .next (s.serveReq m (fun s => s.contribute m))
/-- An instance's time limit, counted from its first contribution (R272). -/
def execCollInstanceTimeout (g i : Nat) (s : State) : Host.Outcome State Fault Refusal :=
  .next (match s.findInst g i, s.groups.find g with
    | some x, some y =>
      if s.cycle < x.first + y.limit * Config.usCycles then s
      else (if x.mismatch y.members.length then [] else x.got).foldl (fun (s : State) c => s.collArrive c (some .collTimeout) 0) (s.dropInst g i)
    | _, _ => s)

/-! ### The sender -/

/-- A settling answer for a contribution of core `k` (R267): one that is not known to have arrived fails the member's own command. -/
def State.collSettle (s : State) (k : Nat) (q : Request) (r : Reply) : State :=
  match r.outcome with
  | .ok _ => s.mapSend k q.tag (fun _ => none)
  | .error (_, c, _) =>
    (s.mapCore k (fun x => { x with sends := x.sends.filter (fun y => !(y.req.stream == q.stream && y.req.serial == q.serial)) })).collArrive
      (contributionOf q 0 []) (some (c.getD .remoteUnknown)) 0
/-- An answer for a contribution on its way. -/
def State.collReply (s : State) (k : Nat) (p : PendReq) (r : Reply) : State :=
  if r.settles then s.collSettle k p.req r
  else (s.mapSend k p.req.tag (fun x => some (x.unsettled r s.cycle))).backOff p.req.tag p.tries r
/-- A contribution sent to one collective unit. -/
def State.sendColl (s : State) (k : Nat) (q : Request) (dst : Endpoint) : State :=
  match s.launchBy (fun p s => s.mapCore k (fun c => { c with sends := c.sends ++ [p] })) true q.ctag { q with dst := dst } (fun q s => s.contribute q) with
  | (s1, some r) => if r.settles then s1.collSettle k { q with dst := dst, tag := s.nextTag } r else s1
  | (s1, none) => s1

/-- What COLL's block raises (R275, R351). -/
def State.collBad (s : State) (t : Thread) (l : List Word) : Option (Cause × Word) :=
  let d := nth l 0
  let n := (nth l 3).toNat
  let op := collOp d
  if 5 ≤ op || bits d 40 8 != 0 || bits d 12 16 != 0 || (if op == 0 then collRnd d == 0 || 5 < collRnd d else collRnd d != 0) then some (.collArg, d)
  else if n == 0 || 4096 < n then some (.collArg, nth l 3)
  else match s.groups.find (collGroup d) with
    | none => some (.collArg, d)
    | some g =>
      if (g.rank s.moduleNo s.k).isNone || g.guest != t.guest then some (.collArg, d)
      else if !collFmtOk op (collFmt d) then some (.format, d)
      else match localBad (nth l 1) (n * collSize d) with
        | some v => some (.address, v)
        | none => match localBad (nth l 2) ((if op == 3 then g.members.length else 1) * n * collSize d) with
          | some v => some (.address, v)
          | none => if refBad (nth l 4) then some (.address, nth l 4) else none

/-- COLL (R271). -/
def execColl (c : Ctl) (d a : Reg) (s : State) : Host.Outcome State Fault Refusal :=
  .next (runWord (.coll c d a) c { reads := (List.range 5).map (fun j => a + BitVec.ofNat 6 j), writes := [d] } (fun s t =>
    let l := t.block a 5
    let ds := nth l 0
    let n := (nth l 3).toNat * collSize ds
    match s.collBad t l with
    | some e => .trap s e.1 e.2
    | none =>
      let src := s.ownParts [(nth l 1, n)]
      if !(touching t src).isEmpty then .wait s (.tags (touching t src)) (nth l 1)
      else if t.engs.length ≥ Config.maxEngine then .wait s .engineCount 0
      else match t.sendWait 1 0 with
        | some w => .wait s w.1 w.2
        | none => match s.readMem (localKey s.k (bits (nth l 1) 0 17)) n with
          | (s1, none) => .trap s1 .eccUncorr (nth l 1)
          | (s1, some b) =>
            let t1 := ({ t.takeSerial with engs := t.engs ++ [⟨.coll, t.serial, 0, nth l 4, t.ctag, t.pc⟩] } : Thread).wr d (t.serial.setWidth 64)
            let own : Endpoint := if isService s.k then ⟨2, s.moduleNo, dieOf s.k, 4⟩ else ⟨3, s.moduleNo, dieOf s.k, 0⟩
            let q : Request := { typ := .collc, src := s.endpoint s.k, dst := own, serialed := true, stream := t.stream, serial := t.serial
                                 ack := t.ackw, sent := s.us, addr := 0, off := 0, f := 0, lsize := 0, words := l ++ ((s.groups.find (collGroup ds)).map Group.list).getD [], bytes := b, ctag := t.ctag, va := 0
                                 cnt := t.cnt, guest := t.guest, ptbase := t.ptbase, tag := 0 }
            let others := (((s.groups.find (collGroup ds)).map Group.members).getD []).map Prod.fst |>.eraseDups |>.filter (· != s.moduleNo)
            .done (others.foldl (fun (s : State) m => s.sendColl s.k q ⟨2, m, 0, 4⟩) ((s1.put t1).sendColl s.k q own)) 0) s)

end Sys2Proof.Machine
end

