-- ==== Sys2Proof/Machine/Control.lean ====
section
/-! DEFINITION. Branches and jumps (R198, R199), hints (R30 to R36, R39), TRAP and RFT (R355). -/
namespace Sys2Proof.Machine

/-- A branch target: the word's own address plus four times the offset, widened or not (R198, R33). -/
def Thread.target (t : Thread) (off : BitVec 21) : Word := t.pc + 4 * t.widen off
def execBr (c : Ctl) (off : BitVec 21) (s : State) : Out :=
  .next (runWord (.br c off) c { immOk := true } (fun _ t => .goto t (t.target off)) s)
def execBrl (c : Ctl) (off : BitVec 21) (s : State) : Out :=
  .next (runWord (.brl c off) c { immOk := true, writes := [63#6] } (fun _ t => .goto (t.wr 63#6 (t.pc + 4)) (t.target off)) s)
/-- JR and JRL (R199): a target that is not a multiple of 4 is ALIGN. -/
def execJr (c : Ctl) (a : Reg) (s : State) : Out :=
  .next (runWord (.jr c a) c { reads := [a] } (fun s t =>
    if bits (t.rd a) 0 2 != 0 then .trap s .align (t.rd a) else .goto t (t.rd a)) s)
def execJrl (c : Ctl) (a : Reg) (s : State) : Out :=
  .next (runWord (.jrl c a) c { reads := [a], writes := [63#6] } (fun s t =>
    if bits (t.rd a) 0 2 != 0 then .trap s .align (t.rd a) else .goto (t.wr 63#6 (t.pc + 4)) (t.rd a)) s)

/-- TRAP b (R355): the latches are cleared, then the trap is entered with the address of the next word. -/
def execTrap (c : Ctl) (b : Reg) (s : State) : Out :=
  .next (runWord (.trap c b) c {} (fun s t =>
    .stop ((s.put { t with pfx := 0 }).trapEntry s.k s.sl .trap (b.setWidth 64) (t.pc + 4) false)) s)
/-- RFT (R355): outside a handler it is ILLEGAL. -/
def execRft (c : Ctl) (s : State) : Out :=
  .next (runWord (.rft c) c {} (fun s t =>
    if !t.inh then .trap s .illegal ((encode (.rft c)).setWidth 64)
    else .stop (s.put (let u := t.complete c t.pc 0; u.leaveTrap))) s)

def execNoph (s : State) : Out := .next (runHint .noph false false id (fun _ => 0) s)
/-- IMM sets IMMH and IV (R34). -/
def execImm (p : BitVec 22) (s : State) : Out :=
  .next (runHint (.imm p) true false (fun t => { t with pfx := BitVec.ofNat 28 (bits t.pfx 24 4 * 2 ^ 24 + 2 ^ 23 + p.toNat) }) (fun _ => 0) s)
/-- GUARD writes K.GSEL bits 21:9 (R31). -/
def execGuard (r bit : Reg) (sense : Bool) (s : State) : Out :=
  .next (runHint (.guard r bit sense) false false (fun t =>
    { t with gsel := BitVec.ofNat 22 (r.toNat * 2 ^ 16 + bit.toNat * 2 ^ 10 + (if sense then 512 else 0)) }) (fun _ => 0) s)
/-- LIVE names what is live at the safe point of the word before it; elsewhere it acts as NOPH (R39). -/
def execLive (p : BitVec 22) (s : State) : Out :=
  .next (runHint (.live p) false true (fun t => if t.live then { t with safePoint := some p } else t) (fun _ => 0) s)
/-- RMODE sets RM and RV (R34); codes 0 and 7 have no instruction (R35). -/
def execRmode (rm : BitVec 3) (s : State) : Out :=
  .next (runHint (.rmode rm) false false (fun t => { t with pfx := BitVec.ofNat 28 (2 ^ 27 + rm.toNat * 2 ^ 24) }) (fun _ => 0) s)
/-- STALLX (R32). -/
def execStallx (n : BitVec 8) (s : State) : Out :=
  .next (runHint (.stallx n) false false id (fun c => c + 8 * (n.toNat + 1)) s)

end Sys2Proof.Machine
end

