-- ==== Sys2Proof/Machine/Sha.lean ====
section
/-! DEFINITION. SHA-256 (FIPS 180-4), which R380 and R381 name. -/
namespace Sys2Proof.Machine

/-- The prime numbers below `n + 2`. -/
def primesBelow (n : Nat) : List Nat :=
  (List.range n).foldl (fun l i => if l.all (fun p => (i + 2) % p != 0) then l ++ [i + 2] else l) []
/-- The largest number with an e-th power of at most `x` that has `r` as its upper part: its lower bits are found one by one, the highest first. -/
def rootFrom (e x : Nat) : Nat → Nat → Nat
  | 0, r => r
  | b + 1, r => rootFrom e x b (if (r + 2 ^ b) ^ e ≤ x then r + 2 ^ b else r)
/-- The first 32 bits of the fraction of the e-th root of `p`. -/
def rootBits (e p : Nat) : BitVec 32 := BitVec.ofNat 32 (rootFrom e (p * 2 ^ (32 * e)) 40 0)
/-- The round constants: of the cube roots of the first 64 primes. -/
def shaK : List (BitVec 32) := (primesBelow 310).map (rootBits 3)
/-- The initial hash value: of the square roots of the first 8 primes. -/
def shaInit : List (BitVec 32) := (primesBelow 18).map (rootBits 2)

/-- Bytes as a number, the first byte highest. -/
def beNat (l : List Byte) : Nat := l.foldl (fun n b => 256 * n + b.toNat) 0
/-- A number as `n` bytes, the highest first. -/
def beBytes (n x : Nat) : List Byte := (leBytes n x).reverse
/-- The message with its padding. -/
def shaPad (l : List Byte) : List Byte :=
  l ++ [0x80] ++ List.replicate ((119 - l.length % 64) % 64) 0 ++ beBytes 8 (8 * l.length)
/-- The message schedule, latest word first, from the 16 words of a block. -/
def shaSchedule : Nat → List (BitVec 32) → List (BitVec 32)
  | 0, w => w
  | n + 1, w =>
    let x := fun (i : Nat) => w.getD i 0
    let s0 := (x 14).rotateRight 7 ^^^ (x 14).rotateRight 18 ^^^ ((x 14) >>> 3)
    let s1 := (x 1).rotateRight 17 ^^^ (x 1).rotateRight 19 ^^^ ((x 1) >>> 10)
    shaSchedule n ((s1 + x 6 + s0 + x 15) :: w)
/-- The exclusive or of three rotations. -/
def turns (x : BitVec 32) (i j k : Nat) : BitVec 32 := x.rotateRight i ^^^ x.rotateRight j ^^^ x.rotateRight k
/-- One round on the eight words, of which word 0 is the newest of each half. -/
def shaRound (v : List (BitVec 32)) (kw : BitVec 32 × BitVec 32) : List (BitVec 32) :=
  let x := fun (i : Nat) => v.getD i 0
  let pick := (x 5 &&& x 4) ||| (x 6 &&& ~~~x 4)
  let most := (x 0 &&& (x 1 ||| x 2)) ||| (x 1 &&& x 2)
  let up := x 7 + kw.1 + kw.2 + turns (x 4) 6 11 25 + pick
  (up + turns (x 0) 2 13 22 + most) :: v.take 3 ++ (x 3 + up) :: (v.drop 4).take 3
/-- One block of 64 bytes. -/
def shaBlock (h : List (BitVec 32)) (l : List Byte) : List (BitVec 32) :=
  let w := shaSchedule 48 ((List.range 16).map (fun i => BitVec.ofNat 32 (beNat ((l.drop (4 * i)).take 4)))).reverse
  List.zipWith (· + ·) h ((shaK.zip w.reverse).foldl shaRound h)
/-- The blocks of a padded message; `fuel` bounds them. -/
def shaBlocks : Nat → List Byte → List (BitVec 32) → List (BitVec 32)
  | 0, _, h => h
  | fuel + 1, l, h => if l.isEmpty then h else shaBlocks fuel (l.drop 64) (shaBlock h (l.take 64))
/-- The hash: 32 bytes, byte 0 first. -/
def sha256 (l : List Byte) : List Byte :=
  ((shaBlocks (l.length / 64 + 2) (shaPad l) shaInit).map (fun w => beBytes 4 w.toNat)).flatten

end Sys2Proof.Machine
end

