-- ==== Sys2Proof/Machine/Tasking.lean ====
section
/-! DEFINITION. TEND, SPAWN, GLAUNCH, MEET and MEETQ, YIELD, HBEAT (R281 to R306), and the meet unit's releases (R297, R298). -/
namespace Sys2Proof.Machine

/-! ### Successor decrements (R305, R317) -/

/-- Entry `i` of the successor list at `succ` and the system physical address of the PRED that it names, or the cause and the address of what cannot be read or changed. An entry in another module is a free value (log 27). -/
def State.successor (s : State) (die : Nat) (pt succ : Word) (i : Nat) : State × Except (Cause × Word) (Word × Nat) :=
  let va := succ + BitVec.ofNat 64 (8 * i)
  let pred := fun (s : State) (e : Word) =>
    let pa := BitVec.ofNat 64 (bits e 0 52 + 16)
    if bits e 62 2 != 0 || bits e 0 6 != 0 then (s, .error (.align, pa))
    else match s.seg die pt ⟨true, true, false, false⟩ pa 4 with
      | .error x => (s, .error x)
      | .ok x => if x.isW then (s, .error (.permission, pa)) else (s, .ok (e, x.pa))
  if bits succ 0 3 != 0 then (s, .error (.align, va))
  else if 2 ^ 52 ≤ va.toNat then (s, .error (.address, va))
  else match s.seg die pt ⟨true, false, false, false⟩ va 8 with
    | .error x => (s, .error (x.1, va))
    | .ok x =>
      if moduleOf x.pa != s.moduleNo then pred s.useFree s.free
      else match s.readMem (x.pa % 2 ^ 44) 8 with
        | (s1, some l) => pred s1 (leWord l)
        | (s1, none) => (s1, .error (.eccUncorr, va))
/-- The decrements of a task control block, which is read now, in list order; `send` sends one. A failure is reported and the others are still sent. -/
def State.decrements (s : State) (die : Nat) (pt tcb : Word) (e : Env) (send : Word → Nat → State → State) : State :=
  match s.readBlock die pt tcb with
  | (s, .error c) => s.report e true false c 0 tcb
  | (s, .ok b) => (List.range (field b 20 2 % 2 ^ 13)).foldl (fun s i => match s.successor die pt (BitVec.ofNat 64 (field b 24 8)) i with
    | (s1, .error x) => s1.report e true false x.1 0 x.2
    | (s1, .ok x) => send x.1 x.2 s1) s
/-- One SUCCDEC of a task that retires: a posted request with a serial of its stream. -/
def State.taskDec (k sl : Nat) (e : Env) (entry : Word) (pa : Nat) (s : State) : State :=
  match s.thread k sl with
  | none => s
  | some t =>
    let q : Request := { typ := .succdec, src := s.endpoint k, dst := ownerOf pa, serialed := true, stream := t.stream, serial := t.serial, ack := t.ackw, sent := s.us
                         addr := pa, off := 0, f := 0, lsize := 2, words := [entry], bytes := [], ctag := 0, va := BitVec.ofNat 64 (bits entry 0 52 + 16)
                         cnt := t.cnt, guest := t.guest, ptbase := t.ptbase, tag := 0 }
    (s.setThread k sl t.takeSerial).postBy k sl [] q (fun r s => s.reportDec e q r)
/-- One SUCCDEC that a distributor sends for a mark or a private commit (log 81). -/
def State.distDec (die : Nat) (e : Env) (entry : Word) (pa : Nat) (s : State) : State :=
  let q := { s.chanReq (1024 + die) .succdec (ownerOf pa) pa [entry] with va := BitVec.ofNat 64 (bits entry 0 52 + 16) }
  match s.chanSend (1024 + die) q (some e) (fun s => s.succDec q) with
  | (s1, some r) => s1.reportDec e q r
  | (s1, none) => s1

/-! ### TEND, HBEAT, YIELD -/

/-- A block is RETIRED, in the queue's order of retirement (R327); a PRIVATE one waits for its commit. -/
def State.retireBlock (s : State) (die q n : Nat) : State :=
  let s1 := s.blockStatus die q n 4
  match s1.queue die q, s1.block die q n with
  | some x, some b => (s1.setQueue die q { x with retired := x.retired + 1 }).setBlock die q n { b with retiredNo := x.retired + 1, awaiting := b.mode == 1 }
  | _, _ => s1
/-- A task retires by TEND (R304, R305): a launched one sends its decrements, unless it is PRIVATE and waits for its commit (R317). Its slot is free in the next cycle. -/
def State.retireTask (s : State) (k sl : Nat) : State :=
  match s.thread k sl with
  | none => s
  | some t =>
    let s1 := match t.queue, t.blk with
      | some (die, q), some n =>
        let s1 := s.retireBlock die q n
        match s1.block die q n with
        | some b => if b.mode == 1 then s1 else s1.decrements die b.ptbase b.addr (s.env t k 0) (State.taskDec k sl (s.env t k 0))
        | none => s1
      | _, _ => s
    (s1.leaveSlot k sl).mapCore k (fun c => { c with tended := some (sl, s.cycle, t.guest) })
/-- TEND (R199, R304): the thread leaves its slot; no later word is fetched. -/
def execTend (c : Ctl) (s : State) : Out := .next (runWord (.tend c) c {} (fun s _ => .stop (s.retireTask s.k s.sl)) s)
def execHbeat (c : Ctl) (s : State) : Out := .next (runWord (.hbeat c) c {} (fun _ t => .next { t with hb := 0 } 0) s)

/-- A YIELD: parked until cycle `till`, with which it completes; then the next word (R302). -/
def yieldTill (s : State) (t : Thread) (c : Ctl) (till : Nat) : WordRes :=
  let u := t.complete c (t.pc + 4) till
  .stop ((s.put { u with status := .parked (.clock till), busy := 0, done := false }).at till (.yieldExpire s.k s.sl))
def execYield (c : Ctl) (s : State) : Out := .next (runWord (.yield c) c {} (fun s t => yieldTill s t c (s.cycle + 128)) s)
def execYieldFor (c : Ctl) (a : Reg) (s : State) : Out :=
  .next (runWord (.yieldFor c a) c { reads := [a] } (fun s t =>
    if bits (t.rd a) 16 48 != 0 then .trap s .taskArg (t.rd a)
    else yieldTill s t c (s.cycle + 8 + bits (t.rd a) 0 16)) s)
/-- A YIELD's time comes. -/
def execYieldExpire (k sl : Nat) (s : State) : Out :=
  .next (match s.thread k sl with
    | some t => match t.status with
      | .parked (.clock till) => if till ≤ s.cycle then s.setThread k sl { t.count s.cycle with status := .ready, done := true } else s
      | _ => s
    | none => s)

/-! ### SPAWN and GLAUNCH -/

/-- The north-west core of a coordinate's cell (R320). -/
def Away.cell (q : Away) (die x y z : Nat) : Nat :=
  let cr := (y / q.yb + z) % q.pr
  let cc := (x / q.bx) % q.pc
  die * 16384 + (q.origin / 128 + cr * q.ch) * 128 + (q.origin % 128 + cc * q.cw)
def Queue.cell (q : Queue) (die x y z : Nat) : Nat := (q.away 0).cell die x y z
/-- The cores of the cell, in ascending number. -/
def Queue.cellCores (q : Queue) (die x y z : Nat) : List Nat :=
  ((List.range q.ch).map (fun r => (List.range q.cw).map (fun c => q.cell die x y z + r * 128 + c))).flatten

/-- The target of a SPAWN: module and core, or TASK_ARG (R289, R306). A coordinate is placed by the map of the thread's queue, on the thread's own module (R320, log 97). -/
def State.spawnTarget (s : State) (t : Thread) (tg : Word) : Option (Nat × Nat) :=
  if !tg.getLsbD 63 then
    if bits tg 52 11 != 0 || bits tg 18 14 != 0 || bits tg 0 18 > 163839 || bits tg 0 14 ≥ Config.coresPerDie then none
    else some (bits tg 32 20, bits tg 0 18)
  else if bits tg 48 15 != 0 then none
  else match t.queue with
    | none => none
    | some (die, _) => (s.queueAway t).map (fun a => (s.moduleNo, a.cell die (bits tg 0 16) (bits tg 16 16) (bits tg 32 16)))

/-- K.TOKBUD (R331): of the queue's latest descriptor; of a queue in another module, as the SPAWN carried it. -/
def State.tokbud (s : State) (t : Thread) : Nat := (s.awayOf t).tokbud
/-- The words of the SPAWN of a block `b` by thread `t` (R290), whose child has ordinal `ord`; `acount` and `tsize` are the carve of its core. -/
def State.spawnPayload (s : State) (t : Thread) (acount tsize ord : Nat) (b : List Word) : List Word :=
  let tg := (b.drop 1).headD 0
  let ctl := (b.drop 2).headD 0
  let xyz := if tg.getLsbD 63 then (bits tg 0 16, bits tg 16 16, bits tg 32 16) else (t.cx, t.cy, t.cz)
  spawnWords t (s.awayOf t) (b.headD 0) (ord % 65536) xyz.1 xyz.2.1 xyz.2.2 acount tsize (if bits ctl 0 48 == 0 then t.budget else bits ctl 0 48) (b.drop 3)
/-- The request of a SPAWN to core `k` of module `m`; a spawn on the own core takes no serial (R290). -/
def State.spawnReq (s : State) (t : Thread) (m k : Nat) (b : List Word) : Request :=
  let own := m == s.moduleNo && k == s.k
  { typ := .spawn, src := s.endpoint s.k, dst := ⟨0, m, k / 16384, k % 16384⟩, serialed := !own, stream := t.stream
    serial := if own then 0 else t.serial, ack := t.ackw, sent := s.us, addr := 0, off := 0, f := 0, lsize := 0
    words := s.spawnPayload t (s.core s.k).acount (s.core s.k).tsize (bits t.tid 0 16 * 8 + t.spawnk + 1) b
    bytes := [], ctag := 0, va := BitVec.ofNat 64 k, cnt := t.cnt, guest := t.guest, ptbase := t.ptbase, tag := 0 }
/-- SPAWN (R289, R290), with the checks in the order of R351. -/
def execSpawn (c : Ctl) (d a n : Reg) (s : State) : Out :=
  .next (runWord (.spawn c d a n) c { reads := (List.range n.toNat).map (fun i => a + BitVec.ofNat 6 i), writes := [d] } (fun s t =>
    let b := t.block a n.toNat
    let pc := b.headD 0
    let tg := (b.drop 1).headD 0
    let ctl := (b.drop 2).headD 0
    match s.spawnTarget t tg with
      | none => .trap s .taskArg tg
      | some (m, k) =>
        if bits ctl 48 16 != 0 then .trap s .taskArg ctl
        else if bits pc 0 2 != 0 then .trap s .align pc
        else if 2 ^ 52 ≤ pc.toNat then .trap s .address pc
        else if t.spawnk == 7 then .trap s .spawnLimit 7
        else
          let q := s.spawnReq t m k b
          match (if q.serialed then t.sendWait 1 0 else none) with
          | some w => .wait s w.1 w.2
          | none =>
            let t1 := { t with spawnk := t.spawnk + 1 }
            if q.serialed then .stop ((s.put t1.takeSerial).sendHold s.k s.sl c (.spawn d k a n) q none)
            else
              let r := (s.put t1).spawnAt q
              .stop (r.1.resumeHold s.k s.sl t1 ⟨c, s.cycle, 0, .spawn d k a n, [], [], []⟩ q r.2)) s)

/-- GLAUNCH (R301, R306). -/
def execGlaunch (c : Ctl) (d a : Reg) (s : State) : Out :=
  .next (runWord (.glaunch c d a) c { reads := [a, a + 1#6, a + 2#6], writes := [d] } (fun s t =>
    let qw := t.rd a
    let va := t.rdN (a.toNat + 1)
    let n := t.rdN (a.toNat + 2)
    let die := bits qw 6 4
    if bits qw 10 54 != 0 then .trap s .taskArg qw
    else if n = 0 || 4096 < n.toNat then .trap s .taskArg n
    else if bits va 0 6 != 0 then .trap s .align va
    else if (match s.queue die (bits qw 0 6) with | some x => x.guest != t.guest | none => true) then .trapVal s .permission qw false
    else match t.sendWait 1 0 with
      | some w => .wait s w.1 w.2
      | none =>
        let q : Request := { typ := .spawn, src := s.endpoint s.k, dst := ⟨3, s.moduleNo, die, 1⟩, serialed := true, stream := t.stream
                             serial := t.serial, ack := t.ackw, sent := s.us, addr := 0, off := 0, f := 3, lsize := 0, words := [qw, va, n]
                             bytes := [], ctag := 0, va := va, cnt := t.cnt, guest := t.guest, ptbase := t.ptbase, tag := 0 }
        .stop ((s.put t.takeSerial).sendHold s.k s.sl c (.glaunch d) q none)) s)

/-! ### MEET and MEETQ -/

/-- The declared live state of an arrival (R294). -/
def Thread.declared (t : Thread) (key mask quorum : Word) : List Word :=
  [t.pc, key, mask, quorum] ++ ((List.range 64).filter (fun i => i != 0 && mask.getLsbD i)).map t.rdN
    ++ [BitVec.ofNat 64 t.ctag, t.fpcsr.setWidth 64 &&& 0x7F07#64, t.gsel.setWidth 64, t.tid >>> 16]

/-- The survivor of a group: the smallest K.TID, then the lowest slot (R297). -/
def survivor (l : List (Nat × Thread)) : Option (Nat × Thread) :=
  l.foldl (fun (r : Option (Nat × Thread)) x => match r with
    | none => some x
    | some y => if x.2.tid.toNat < y.2.tid.toNat || (x.2.tid = y.2.tid && x.1 < y.1) then some x else r) none

/-- A thread absorbed leaves its slot; a launched one's block is RETIRED without decrements (R304, R305, log 18). -/
def State.absorb (s : State) (k sl : Nat) : State :=
  match s.thread k sl with
  | none => s
  | some t =>
    let s1 := s.leaveSlot k sl
    match t.queue, t.blk with
    | some (die, q), some n => s1.retireBlock die q n
    | _, _ => s1

/-- Release(e) (R297). -/
def State.release (s : State) (k x : Nat) : State :=
  match (s.core k).meet.find x with
  | none => s
  | some e =>
    let grp := (s.threads k).filter (fun p => e.waiters.contains p.1)
    let s1 := s.mapCore k (fun c => { c with meet := c.meet.del x })
    match survivor grp with
    | none => s1
    | some (sl, t0) =>
      let s2 := (grp.filter (fun p => p.1 != sl)).foldl (fun s p => s.absorb k p.1) s1
      let sum := grp.foldl (fun n p => n + p.2.cnt) 0
      let fl := grp.foldl (fun (f : BitVec 15) p => f ||| (p.2.fpcsr &&& 0xF8#15)) t0.fpcsr
      match t0.status with
      | .meet _ d c =>
        let t1 := t0.count s.cycle
        let t2 := (({ t1 with cnt := min sum (2 ^ 48 - 1), fpcsr := fl } : Thread).wr d 1).complete c (t1.pc + 4) (s.cycle + 1)
        let s3 := s2.setThread k sl t2
        if 2 ^ 48 - 1 < sum then s3.trapEntry k sl .countOvf (BitVec.ofNat 64 sum) t2.pc false else s3
      | _ => s2

/-- When an entry is due (R297): when its quorum is reached, or at its deadline. -/
def MeetEntry.dueAt (e : MeetEntry) (now : Nat) : Option Nat :=
  if e.quorum != 0 && e.quorum ≤ e.waiters.length then some now else if e.det then none else some (max now e.deadline)
def MeetEntry.due (e : MeetEntry) (now : Nat) : Bool := e.dueAt now == some now
/-- The meet unit's release of an entry that is due, at the end of the cycle. -/
def execMeetRelease (k x : Nat) (s : State) : Out :=
  .next (match (s.core k).meet.find x with
    | some e => if e.due s.cycle then s.release k x else s
    | none => s)
/-- A deterministic entry whose first arrival has waited its K.SYNCLIM (R298): every thread raises SYNC_TIMEOUT with the key, unless its quorum is reached in that cycle (R130). -/
def execMeetDetTimeout (k x : Nat) (s : State) : Out :=
  .next (match (s.core k).meet.find x with
    | some e =>
      if e.det && e.deadline ≤ s.cycle && !e.due s.cycle then
        e.waiters.foldl (fun s sl => match s.thread k sl with
          | some t => s.trapEntry k sl .syncTimeout ((e.dstate.drop 1).headD 0) t.pc false
          | none => s) (s.mapCore k (fun c => { c with meet := c.meet.del x }))
      else s
    | none => s)

/-- The arrival of the current thread (R295, R296), one event. -/
def State.arrive (s : State) (t : Thread) (c : Ctl) (d : Reg) (key mask q : Word) : State :=
  let k := s.k
  let st := t.declared key mask q
  let core := s.core k
  let enter := fun (s : State) (x : Nat) (e : MeetEntry) => (s.mapCore k (fun c => { c with meet := c.meet.put x e })).put { t with status := .meet x d c, waitStart := none }
  let opened : MeetEntry := ⟨st, [s.sl], q.toNat, if t.det then s.cycle + t.synclim else s.cycle + t.meetwin, t.det, s.cycle⟩
  let fresh := fun (s : State) (x : Nat) => if t.det then (enter s x opened).at opened.deadline (.meetDetTimeout k x) else enter s x opened
  match core.meet.find? (fun e => e.2.dstate == st) with
  | some (x, e) => enter s x { e with waiters := e.waiters ++ [s.sl] }
  | none => match (List.range Config.meetEntries).find? (fun x => (core.meet.find x).isNone) with
    | some x => fresh s x
    | none => match core.meet.foldl (fun (r : Option (Nat × Nat)) e => if e.2.det then r else match r with
          | none => some (e.1, e.2.first)
          | some y => if e.2.first < y.2 then some (e.1, e.2.first) else r) none with
      | some (x, _) => fresh (s.release k x) x
      | none => s.put ((t.wr d 0).complete c (t.pc + 4) 0)

/-- Whether a MEET need not wait: nothing is unsettled, without its arrival or unreported (R296). -/
def Thread.quiet (t : Thread) : Bool := t.reqs.isEmpty && t.engs.isEmpty && t.unk.all UnkEntry.reported
/-- Whether a word is a MEET or MEETQ. -/
def isMeet (w : IWord) : Bool := match decode w with | .ok (.meet ..) => true | .ok (.meetq ..) => true | _ => false
/-- The MEET `w` of a slot acts at cycle `n`. Two of one core never act in one cycle: the one that issued later does so in the next (R307). `fuel` bounds the slots. -/
def State.actMeet (k : Nat) : Nat → Nat → Nat → IWord → State → State
  | 0, _, _, _, s => s
  | fuel + 1, sl, n, w, s => match s.thread k sl with
    | none => s
    | some t =>
      let s1 := s.setThread k sl { t with status := .acting n w }
      match (s.threads k).find? (fun p => p.1 != sl && (match p.2.status with | .acting c x => c == n && isMeet x | _ => false)) with
      | none => s1
      | some (y, u) => match u.status with
        | .acting _ x => if u.issued < t.issued then State.actMeet k fuel sl (n + 1) w s else State.actMeet k fuel y (n + 1) x s1
        | _ => s1
/-- How many cycles after its issue, or after its waits, a MEET or MEETQ of the current thread acts: its arrival comes 4 cycles later, a wait or a report at once (R296). -/
def State.meetLag (s : State) : Nat := if ((s.thread s.cur.1 s.cur.2).map Thread.quiet).getD true then 4 else 0
/-- The registers that a mask of R294 names. -/
def maskRegs (m : Word) : List Reg := ((List.range 64).filter (fun i => i != 0 && m.getLsbD i)).map (fun i => BitVec.ofNat 6 i)
/-- MEET and MEETQ (R296): the state checks, RSYNC, FENCE.ENGINE, the arrival. Its cycle of issue is the one before the waits (R23). -/
def meetWord (i : Instr) (c : Ctl) (d a : Reg) (q : Thread → Word) (isQ : Bool) (n : Nat) (s0 : State) : State :=
  runWord i c { reads := (List.range n).map (fun j => a + BitVec.ofNat 6 j), more := fun t => maskRegs (t.rdN (a.toNat + 1)), writes := [d], lag := s0.meetLag } (fun s1 t1 =>
    let t : Thread := { t1 with issued := if s0.actsNow then ((s0.thread s0.cur.1 s0.cur.2).map Thread.issued).getD t1.issued else t1.issued }
    let s := s1.put t
    let core := s.core s.k
    if t.claim != 0 || core.ops.any (fun o => o.owner == some s.sl) || core.holder == some s.sl then .trap s .meetState t.tid
    else if (t.det || isQ) && q t = 0 then .trap s .meetArg 0
    else if isQ && 16 < (q t).toNat then .trap s .meetArg (q t)
    else if !t.reqs.isEmpty then .wait s (.meet ((encode i).setWidth 32) false) 0
    else if t.unk.any (fun u => !u.reported) then reportUnknown s t
    else if !t.engs.isEmpty then .wait s (.meet ((encode i).setWidth 32) true) 0
    else .stop (s.arrive t c d (t.rd a) (t.rdN (a.toNat + 1)) (q t))) s0
def execMeet (c : Ctl) (d a : Reg) (s : State) : Out := .next (meetWord (.meet c d a) c d a (fun _ => 0) false 2 s)
def execMeetq (c : Ctl) (d a : Reg) (s : State) : Out := .next (meetWord (.meetq c d a) c d a (fun t => t.rdN (a.toNat + 2)) true 3 s)

end Sys2Proof.Machine
end

