-- ==== Sys2Proof/Machine/Distributor.lean ====
section
/-! DEFINITION. The distributors: allowances (R321), queue descriptors and commands (R312, R313), selection and binding (R318 to R322), private ctags and digests (R327, R329, R379 to R381), marks (R325, R326), stealing (R330). -/
namespace Sys2Proof.Machine

/-! ### Heat (R57, R59, R321) -/

def State.chan (s : State) (die ch : Nat) : Chan := (s.chans.find (die * 64 + ch)).getD Chan.reset
/-- The four channels over the region of core `k`, by layer (R53). -/
def State.regionChans (s : State) (k : Nat) : List Chan := (List.range 4).map (fun l => s.chan (dieOf k) (16 * l + regionOf k))
/-- The hottest sampled reading there. -/
def State.hottest (s : State) (k : Nat) : Nat := (s.regionChans k).foldl (fun n c => max n c.temp) 0
def State.doubled (s : State) (k : Nat) : Bool := (s.regionChans k).any Chan.dbl
/-- ALLOW of the core's market (R321), as of the latest sample. -/
def State.allow (s : State) (k : Nat) : Nat :=
  if 95 ≤ s.hottest k then 0 else min 255 (10 * (95 - s.hottest k)) - (if s.doubled k then 32 else 0)

/-! ### Reports of a queue -/

/-- A record about a queue: to its ERRQ and to the physical log (R326, R328, R361). -/
def State.reportQueue (s : State) (die : Nat) (x : Queue) (tid : Word) (code : Cause) (pc val : Word) : State :=
  let s1 := (s.sinkPush die x.qpt x.errq (recordBytes tid false false code.code pc val 0 s.us)).1
  let v := s1.physValue (die * 16384) x.qpt code.isAddress val
  s1.physLog tid false false code pc v.1 x.guest v.2 0
/-- K.TID of a block's task (R322). -/
def Block.tid (b : Block) : Word := BitVec.ofNat 64 (b.tidh * 65536)
/-- What a report about a block carries. -/
def State.blockEnv (s : State) (k ctag : Nat) (x : Queue) (b : Block) : Env :=
  ⟨s.moduleNo, k, b.tid, 1, 0, 0, ctag, b.ptbase, b.sink, x.errq, x.qpt⟩

/-! ### Queue descriptors (R312, R378) -/

/-- The interval ctag of a REPLAY queue allocated under PCTAG (R327); one that cannot be is reported (R312). -/
def State.allocInterval (s : State) (die q : Nat) : State :=
  match s.queue die q with
  | none => s
  | some x =>
    if !x.replay then s
    else if x.dead || (s.ctagRec x.pctag).depth == 7 then
      (s.setQueue die q { x with interval := none, gone := false }).reportQueue die x 0 .ctagInvalid 0 (BitVec.ofNat 64 x.pctag)
    else match s.allocCtag x.pctag x.guest true false with
      | some (t, s1) => s1.setQueue die q { x with interval := some t, gone := false }
      | none => s.setQueue die q { x with interval := none, gone := false }

/-- A queue from its descriptor, with the state of a queue that has none; none when it is malformed. -/
def State.parseDesc (s : State) (b : List Byte) (pt : Word) : Option Queue :=
  let f := field b 0 1
  let sl := field b 2 1
  let ring := field b 8 8
  let n := field b 16 4
  let org := field b 20 2
  let pr := field b 22 1
  let pc := field b 23 1
  let ch := field b 24 1
  let cw := field b 25 1
  let pct := field b 40 2
  let tv := field b 48 8
  let guest := field b 1 1
  if f / 16 != 0 || field b 3 1 != 0 || field b 30 2 != 0 || field b 44 4 != 0 || field b 56 8 != 0
    || !(sl == 0 || (10 ≤ sl && sl ≤ 40)) || 2 ^ 52 ≤ ring || ring % 4096 != 0
    || !((List.range 9).any (fun i => n == 256 * 2 ^ i)) || org ≥ Config.coresPerDie
    || pr == 0 || 80 < pr || pc == 0 || 128 < pc || ch == 0 || 80 < ch || cw == 0 || 128 < cw
    || 80 < org / 128 + pr * ch || 128 < org % 128 + pc * cw || field b 26 2 == 0 || field b 28 2 == 0
    || 2 ^ 52 ≤ tv || tv % 4 != 0 || !s.ctagOk pct guest || field b 38 2 / 16 % 256 != 0 || field b 32 1 % 32 != 0
    || (f / 2 % 2 == 1 && f / 4 % 2 == 0 && pct == 0) then none
  else some
    { en := f % 2 == 1, det := f / 2 % 2 == 1, replay := f / 4 % 2 == 1, steal := f / 8 % 2 == 1, guest := guest, swapLog := sl
      tokbud := field b 4 4, ring := BitVec.ofNat 64 ring, ringN := n, origin := org, pr := pr, pc := pc, ch := ch, cw := cw
      bx := field b 26 2, yb := field b 28 2, errq := BitVec.ofNat 64 (field b 32 8), pctag := pct, group := field b 42 2
      tvec := BitVec.ofNat 64 tv, qpt := pt, blocks := [], base := 0, marks := 0, digest := List.replicate 32 0
      markDigest := List.replicate 32 0, interval := none, gone := false, lastTid := none, stealCount := 1
      readies := 0, retired := 0, dead := false, retryAt := none, stealAt := 0 }

/-- The distributor of `die` has no further selection in this cycle (R319, R321). -/
def State.selectLater (s : State) (die : Nat) : State := { s with dists := s.dists.put die { s.dist die with actAt := max (s.dist die).actAt (s.cycle + 1) } }
/-- The descriptor of a queue replaced: the queue keeps its blocks and what it counts, and steals no earlier than in the next cycle (R319, R321). Enabling it clears D and allocates its interval ctag, as does another PCTAG or GUEST (R327, R381, log 107). -/
def State.installQueue (s : State) (die q : Nat) (x : Queue) : State :=
  let y := match s.queue die q with
    | none => { x with stealAt := s.cycle + 1 }
    | some o => { x with
        qpt := if o.blocks.isEmpty then x.qpt else o.qpt, blocks := o.blocks, base := o.base, marks := o.marks
        digest := if x.en && !o.en then List.replicate 32 0 else o.digest
        markDigest := o.markDigest
        interval := if x.replay && !(x.en && !o.en) && x.pctag == o.pctag && x.guest == o.guest then o.interval else none, gone := o.gone, lastTid := o.lastTid, stealCount := o.stealCount
        readies := o.readies, retired := o.retired, retryAt := o.retryAt, stealAt := max o.stealAt (s.cycle + 1) }
  let s1 := (s.setQueue die q y).selectLater die
  if y.en && y.replay && y.interval.isNone then s1.allocInterval die q else s1

/-- K.DQLOAD (R313): the state, and what the register reads. -/
def State.dqload (s : State) (pt v : Word) : State × Nat :=
  let die := bits v 58 4
  let q := bits v 52 6
  let key := bits v 6 38 * 64
  if bits v 62 2 != 0 || bits v 44 8 != 0 || bits v 0 6 != 0 || !isDram key then (s, 2)
  else match s.readMem key 64 with
    | (s1, none) => (s1, 2)
    | (s1, some l) => match s1.parseDesc l pt with
      | none => (s1, 2)
      | some x => match s1.queue die q with
        | none => (s1.installQueue die q x, 0)
        | some o =>
          if !o.blocks.isEmpty && (o.guest != x.guest || o.det != x.det || o.replay != x.replay || o.ring != x.ring || o.ringN != x.ringN) then (s1, 1)
          else (s1.installQueue die q x, 0)
/-- The unselected block of a queue that a command names: its number in the ring. -/
def Queue.unselected (x : Queue) (addr : Nat) : Option Nat :=
  (x.blocks.findIdx? (fun b => b.addr.toNat == addr && b.status ≤ 1)).map (x.base + ·)
/-- K.DCMD (R313): `cancel` says which operation. One with must-be-zero bits set is refused, and the register reads 1 (log 57). -/
def State.dcmd (s : State) (cancel : Bool) (v : Word) : State × Nat :=
  let die := bits v 58 4
  let q := bits v 52 6
  match s.queue die q with
  | none => (s, 1)
  | some x => match x.unselected (bits v 6 46 * 64) with
    | none => (s, 1)
    | some n =>
      if bits v 0 3 != 0 then (s, 1)
      else if cancel then ((s.selectLater die).blockStatus die q n 6, 0)
      else match s.block die q n with
        | some b => ((s.selectLater die).setBlock die q n { b with prio := bits v 3 3 }, 0)
        | none => (s, 1)

/-! ### Binding (R318, R322, R327) -/

/-- The core with the highest ALLOW, then the lowest number. -/
def State.coolest (s : State) (l : List Nat) : Option Nat :=
  l.foldl (fun (r : Option Nat) k => match r with
    | none => some k
    | some j => if s.allow j < s.allow k then some k else r) none
/-- E of Bind: the cores of a cell that can take a block of a guest. `map` is the queue whose placement map is used. -/
def State.eligible (s : State) (die : Nat) (map : Queue) (guest : Nat) (b : Block) : List Nat :=
  (map.cellCores die b.x b.y b.z).filter (fun k =>
    let c := s.core k
    !c.sealed && !c.failed && s.dieUp die && decide (0 < s.allow k) && (s.freeSlot k).isSome
      && (s.vacant k || (c.acount == b.acount && c.tsize == b.tsize && s.guestOk k guest)))

/-- The argument words of a block (R314, R322), read under the task's address space and ctag; in another module they are free values (log 55). -/
def State.readArgs (s : State) (k ctag : Nat) (b : Block) : State × Except Cause (List Word) :=
  if b.args = 0 then (s, .ok (List.replicate 8 0))
  else if bits b.args 0 6 != 0 then (s, .error .align)
  else if 2 ^ 52 ≤ b.args.toNat then (s, .error .address)
  else match s.seg (dieOf k) b.ptbase ⟨true, false, false, false⟩ b.args 64 with
    | .error e => (s, .error e.1)
    | .ok x =>
      if moduleOf x.pa != s.moduleNo then
        ({ s with freeCtr := s.freeCtr + 8 }, .ok ((List.range 8).map (fun i => Config.freeValue (s.freeCtr + i))))
      else match s.readPiece ⟨x.pa, 64, b.args, if x.isC then ctag else 0⟩ with
        | (s1, some l) => (s1, .ok (packWords l))
        | (s1, none) => (s1, .error .eccUncorr)

/-- The task of a block killed before its first word: one record to SINK, the block KILLED, its private ctag dropped. -/
def State.killBlock (s : State) (die q n k : Nat) (x : Queue) (b : Block) (own : Option Nat) (code : Cause) (pc val : Word) : State :=
  let s1 := (s.report (s.blockEnv k (own.getD 0) x b) false true code pc val).blockStatus die q n 5
  match own with
  | some t => s1.acceptDrop t none
  | none => s1

/-- A block's task starts in the lowest free slot of core `k` under a ctag, `own` when it is its private one (R322). -/
def State.startBlock (s : State) (die q n k : Nat) (x : Queue) (b : Block) (ctag : Nat) (own : Option Nat) : State :=
  match s.readArgs k ctag b, s.freeSlot k with
  | (s1, .error c), _ => s1.killBlock die q n k x b own c b.entry b.args
  | _, none => s
  | (s1, .ok l), some sl =>
    let t : Thread := { Thread.reset with
      pc := b.entry, tid := b.tid, cx := b.x, cy := b.y, cz := b.z, budget := b.budget, meetwin := b.mwin * 16
      hbint := if b.hblog == 0 then 2 ^ 22 else 2 ^ b.hblog, tvec := x.tvec, ctag := ctag, det := x.det, ptbase := b.ptbase
      queue := some (die, q), blk := some n, tcb := b.addr, sink := b.sink, errq := x.errq, qpt := x.qpt, ownCtag := own }
    ((s1.startThread k sl b.acount b.tsize (t.withArgs l)).setBlock die q n { b with ctag := own, gone := false }).blockStatus die q n 3

/-- A held block is tried (R318) under the descriptors of its selection (R313): none while it stays held. Under an interval ctag that a task has ended it is killed as under such a PCTAG (R312, log 107). -/
def State.tryBind (s : State) (h : Held) (die : Nat) : Option State :=
  match s.block h.die h.q h.n with
  | none => none
  | some b =>
    let x := h.queue
    match s.coolest (s.eligible die h.map x.guest b) with
    | none => none
    | some k =>
      let dead := fun (s : State) (t : Nat) => s.killBlock h.die h.q h.n k x b none .ctagInvalid b.entry (BitVec.ofNat 64 t)
      let interval := fun (s : State) => (s.queue h.die h.q).bind Queue.interval
      let ended := fun (s : State) => x.replay && ((s.queue h.die h.q).map Queue.gone).getD false
      if x.dead || (x.replay && (s.ctagRec x.pctag).depth == 7) then some (dead s x.pctag)
      else
        let s1 := if x.replay && (interval s).isNone then s.allocInterval h.die h.q else s
        match (if x.replay then interval s1 else some x.pctag) with
        | none => none
        | some p =>
          if ended s1 then some (dead s1 p)
          else if b.mode == 0 then some (s1.startBlock h.die h.q h.n k x b p none)
          else if !s1.ctagOk p x.guest || (s1.ctagRec p).depth == 7 then some (dead s1 p)
          else match s1.allocCtag p x.guest b.kill b.chk with
            | some (t, s2) => some (s2.startBlock h.die h.q h.n k x b t (some t))
            | none =>
              if b.heldAt == 0 then
                some ((s1.setBlock h.die h.q h.n { b with heldAt := s.cycle + 1 }).at (s.cycle + 1 + 2 ^ 24) (.distributorSelect die))
              else if b.heldAt + 2 ^ 24 ≤ s.cycle then some (s1.killBlock h.die h.q h.n k x b none .tagExhausted b.entry (BitVec.ofNat 64 p))
              else none

/-- Whether a block is no longer held: bound, or killed. -/
def State.settledBlock (s : State) (h : Held) : Bool :=
  match s.block h.die h.q h.n with
  | some b => b.status != 2
  | none => true
def State.setDist (s : State) (die : Nat) (d : Dist) : State := { s with dists := s.dists.put die d }
/-- The held blocks retried, oldest first; those that are bound or killed leave. -/
def State.retryHeld (s : State) (die : Nat) : State :=
  let s1 := (s.dist die).held.foldl (fun (s : State) h => (s.tryBind h die).getD s) s
  s1.setDist die { s1.dist die with held := (s1.dist die).held.filter (fun h => !s1.settledBlock h) }

/-! ### Selection (R318, R319) -/

/-- The blocks of a queue that stand before its first incomplete mark, with their ring numbers. -/
def Queue.front (x : Queue) : List (Nat × Block) :=
  (x.blocks.zipIdx.takeWhile (fun p => !(p.1.mark && p.1.status < 4))).map (fun p => (x.base + p.2, p.1))
/-- The ready list: READY, unselected blocks that may be selected. -/
def Queue.readyList (x : Queue) : List (Nat × Block) := if x.en then x.front.filter (fun p => p.2.status == 1) else []
/-- Its head: the first to have become ready. -/
def Queue.head (x : Queue) : Option (Nat × Block) :=
  x.readyList.foldl (fun (r : Option (Nat × Block)) p => match r with
    | none => some p
    | some y => if p.2.readyNo < y.2.readyNo then some p else r) none
/-- lvl of a queue's head (R318). -/
def Block.level (b : Block) (now : Nat) : Nat := min 7 (b.prio + (now - b.readyAt) / 65536)
/-- The queues with a head, with its ring number and level. -/
def State.heads (s : State) (die : Nat) : List (Nat × Nat × Nat) :=
  (s.dist die).queues.filterMap (fun p => p.2.head.map (fun h => (p.1, h.1, h.2.level s.cycle)))
/-- The queue chosen: of the highest level, the first in rotation after lastQ of that level. -/
def State.choose (s : State) (die : Nat) : Option (Nat × Nat × Nat) :=
  let l := s.heads die
  let top := l.foldl (fun n h => max n h.2.2) 0
  let last := (s.dist die).lastQ.getD top 63
  ((List.range 64).map (fun i => (last + 1 + i) % 64)).findSome? (fun q => l.find? (fun h => h.1 == q && h.2.2 == top))
/-- A block selected: SELECTED, and held until it is bound, with the descriptors of this moment. -/
def State.takeBlock (s : State) (die vdie q n : Nat) : State :=
  match s.queue vdie q, s.queue die q with
  | some x, some map =>
    let s1 := s.blockStatus vdie q n 2
    s1.setDist die { s1.dist die with held := (s1.dist die).held ++ [⟨vdie, q, n, { x with blocks := [] }, { map with blocks := [] }, s.cycle⟩] }
  | _, _ => s
/-- One cycle of a distributor: the held blocks, then at most one new block. -/
def State.distStep (s : State) (die : Nat) : State :=
  let s1 := s.retryHeld die
  if Config.heldBlocks ≤ (s1.dist die).held.length then s1
  else match s1.choose die with
    | none => s1
    | some (q, n, lvl) =>
      let s2 := s1.setDist die { s1.dist die with lastQ := (s1.dist die).lastQ.set lvl q }
      (s2.takeBlock die die q n).retryHeld die
def execDistributorSelect (die : Nat) (s : State) : Host.Outcome State Fault Refusal :=
  .next (if (s.dist die).actAt ≤ s.cycle then (s.distStep die).selectLater die else s)
/-- Whether a distributor has something to do in the cycle from which it selects again. -/
def State.distReady (s : State) (die : Nat) : Bool :=
  s.dieUp die && (((s.dist die).held.length < Config.heldBlocks && !(s.heads die).isEmpty) || (s.dist die).held.any (fun h => (s.tryBind h die).isSome))

/-! ### Stealing (R330) -/

/-- The members of a queue's steal group, in ascending order. -/
def Queue.members (x : Queue) : List Nat := (List.range 16).filter (fun d => x.group / 2 ^ d % 2 == 1)
/-- The ready list of queue `q` on another die. -/
def State.readyOn (s : State) (q d : Nat) : List (Nat × Block) :=
  match s.queue d q with
  | some y => if y.steal then y.readyList else []
  | none => []
/-- Whether the distributor of `die` steals for queue `q` now: STEAL, nothing ready, room, a core that can take a task, and something ready at another member. -/
def State.stealReady (s : State) (die q : Nat) : Bool :=
  match s.queue die q with
  | none => false
  | some x =>
    x.en && x.steal && x.readyList.isEmpty && (s.dist die).held.length < Config.heldBlocks && x.members.contains die
      && x.members.any (fun d => d != die && !(s.readyOn q d).isEmpty)
      && (List.range (x.pr * x.ch * x.pc * x.cw)).any (fun i =>
        let k := die * 16384 + x.origin + i / (x.pc * x.cw) * 128 + i % (x.pc * x.cw)
        let c := s.core k
        !c.sealed && !c.failed && s.dieUp die && decide (0 < s.allow k) && (s.freeSlot k).isSome && (s.vacant k || s.guestOk k x.guest))
/-- One attempt: the victim's head is taken, or the victim is empty. -/
def State.stealOnce (s : State) (die q : Nat) : State :=
  match s.queue die q with
  | none => s
  | some x =>
    let g := x.members.length
    let t := (x.members.filter (· < die)).length
    let next := if (x.stealCount + 1) % g == 0 then x.stealCount + 2 else x.stealCount + 1
    let victim := if x.det then x.members.getD ((t + x.stealCount) % g) die
      else (x.members.foldl (fun (r : Nat × Nat) d => if d != die && r.2 < (s.readyOn q d).length then (d, (s.readyOn q d).length) else r) (die, 0)).1
    let s1 := s.setQueue die q { x with stealCount := if x.det then next else x.stealCount, stealAt := s.cycle + 1 }
    if victim == die || (s.readyOn q victim).isEmpty then s1
    else match (s1.queue victim q).bind Queue.head with
      | some h => (s1.takeBlock die victim q h.1).retryHeld die
      | none => s1
def execSteal (die q : Nat) (s : State) : Host.Outcome State Fault Refusal :=
  .next (if s.stealReady die q && ((s.queue die q).map Queue.stealAt).getD 0 ≤ s.cycle then s.stealOnce die q else s)

/-! ### Private ctags and the digest chain (R327, R329, R379 to R381) -/

/-- One cell's entry of the message M (R380). -/
def Cell.entry (c : Cell) : List Byte :=
  leBytes 8 c.va.toNat ++ leBytes 8 c.wmask.toNat ++ mergeBytes c.wmask (List.replicate 64 0) c.data
/-- The task digest of a commit. -/
def taskDigest (l : List Cell) : List Byte := sha256 ((l.map Cell.entry).flatten)
/-- The digest of a failed commit, a killed task or a cancelled block. -/
def failDigest : List Byte := List.replicate 32 0xFF
/-- D after a commit outcome (R381). -/
def chain (d : List Byte) (tid : Word) (h : List Byte) : List Byte := sha256 (d ++ leBytes 8 tid.toNat ++ h)

/-- No commit or drop is on its way. -/
def State.canopyQuiet (s : State) : Bool :=
  s.agenda.all (fun e => match e.2 with
    | .canopyCommit _ => false
    | .canopyDrop _ => false
    | _ => true)
/-- The block whose commit outcome is next: in a DET queue in ascending TID, which is ring order; else in the order in which the tasks retired (R327). -/
def Queue.nextCommit (x : Queue) : Option (Nat × Block) :=
  if x.det then match x.front.find? (fun p => p.2.awaiting && !p.2.mark) with
    | some p => if 4 ≤ p.2.status then some p else none
    | none => none
  else (x.front.filter (fun p => p.2.awaiting && !p.2.mark && 4 ≤ p.2.status)).foldl (fun (r : Option (Nat × Block)) p => match r with
    | none => some p
    | some y => if p.2.retiredNo < y.2.retiredNo then some p else r) none
/-- The LIVE children of a ctag. -/
def State.liveKids (s : State) (t : Nat) : List Nat :=
  (s.ctags.filter (fun x => x.2.parent == t && x.1 != t && x.2.state == .live)).map Prod.fst
/-- A commit outcome settled: the block no longer awaits it, and D takes its digest. -/
def State.settleCommit (s : State) (die q n : Nat) (h : List Byte) : State :=
  match s.queue die q, s.block die q n with
  | some x, some b =>
    let s1 := s.setBlock die q n { b with awaiting := false }
    match s1.queue die q with
    | some y => if x.det then s1.setQueue die q { y with digest := chain x.digest b.tid h } else s1
    | none => s1
  | _, _ => s
/-- The distributor commits the private ctag of a retired task, or takes the outcome of a killed or cancelled one. -/
def State.commitBlock (s : State) (die q n : Nat) (x : Queue) (b : Block) : State :=
  let env := s.blockEnv (die * 16384) (b.ctag.getD 0) x b
  if b.status != 4 then s.settleCommit die q n failDigest
  else match b.ctag with
    | none => s.settleCommit die q n failDigest
    | some t =>
      if b.gone || s.ctagState t != .live then
        (s.report env true false .ctagInvalid 0 (BitVec.ofNat 64 t)).settleCommit die q n failDigest
      else
        let s1 := (s.liveKids t).foldl (fun (s : State) c => s.acceptDrop c none) s
        match s1.commitNow t with
        | (s2, .ok l) => (s2.settleCommit die q n (taskDigest l)).decrements die b.ptbase b.addr env (State.distDec die env)
        | (s2, .error e) =>
          let s3 := (s2.report env true false e.1 (BitVec.ofNat 64 (4 * t)) e.2).settleCommit die q n failDigest
          if x.det then s3.acceptDrop t none else s3
/-- Whether a private commit can be made now. -/
def State.commitReady (s : State) (die q : Nat) : Bool :=
  s.canopyQuiet && match s.queue die q with
    | some x => x.nextCommit.isSome
    | none => false
def execPrivateCtagCommit (die q : Nat) (s : State) : Host.Outcome State Fault Refusal :=
  .next (match s.queue die q with
    | some x => match x.nextCommit with
      | some (n, b) => s.commitBlock die q n x b
      | none => s
    | none => s)

/-! ### Marks (R325, R326) -/

/-- The first incomplete mark, with its place in the ring after the last completed mark. -/
def Queue.firstMark (x : Queue) : Option (Nat × Block) :=
  ((x.blocks.zipIdx.find? (fun p => p.1.mark && p.1.status < 4))).map (fun p => (p.2, p.1))
/-- Whether every block before the first mark is done. -/
def Queue.markDue (x : Queue) : Bool :=
  x.firstMark.isSome && x.retryAt.isNone && x.front.all (fun p => 4 ≤ p.2.status && !(p.2.awaiting && !p.2.mark))
def State.markReady (s : State) (die q : Nat) : Bool :=
  s.canopyQuiet && match s.queue die q with
    | some x => x.markDue
    | none => false

/-- The interval ctag committed (R325 step 1, R326): false while it failed for want of heap and is to be tried again. -/
def State.intervalCommit (s : State) (die q : Nat) (x : Queue) : State × Bool :=
  match (if x.replay then x.interval else none) with
  | none => (s, true)
  | some t =>
    if x.gone || s.ctagState t != .live then (s.reportQueue die x 0 .ctagInvalid 0 (BitVec.ofNat 64 t), true)
    else match s.commitNow t with
      | (s1, .ok _) => (s1, true)
      | (s1, .error e) =>
        let s2 := if x.retryAt.isNone then s1.reportQueue die x 0 e.1 (BitVec.ofNat 64 (4 * t)) e.2 else s1
        ((match s2.queue die q with
          | some y => s2.setQueue die q { y with retryAt := some (s.cycle + 2 ^ 20) }
          | none => s2).at (s.cycle + 2 ^ 20) (.intervalCommitRetry die q), false)
/-- The mark's record (R325 step 2). -/
def State.markRecord (s : State) (x : Queue) (i : Nat) : List Byte :=
  leBytes 8 (x.marks + 1) ++ (if x.det then x.digest else List.replicate 32 0) ++ leBytes 8 s.us ++ leBytes 8 i ++ List.replicate 8 0
/-- Steps 2 to 5 of R325 for the mark at place `i`, and the next interval ctag. -/
def State.finishMark (s : State) (die q i : Nat) (b : Block) : State :=
  match s.queue die q with
  | none => s
  | some x =>
    let s1 := s.writeVa die b.ptbase b.args.toNat (s.markRecord x i)
    let s2 := s1.blockStatus die q (x.base + i) 4
    let env := s.blockEnv (die * 16384) 0 x b
    let s3 := s2.decrements die b.ptbase b.addr env (State.distDec die env)
    match s3.queue die q with
    | none => s3
    | some y =>
      (s3.setQueue die q { y with blocks := y.blocks.drop (i + 1), base := y.base + i + 1, marks := y.marks + 1, markDigest := y.digest
                                  interval := none, retryAt := none }).allocInterval die q
/-- A mark's completion: first the drops of R326, then the commit, then its steps. -/
def State.markStep (s : State) (die q : Nat) : State :=
  match s.queue die q with
  | none => s
  | some x => match x.firstMark with
    | none => s
    | some (i, b) =>
      let kids := match (if x.replay then x.interval else none) with
        | some t => if !x.gone && s.ctagState t == CtState.live then s.liveKids t else []
        | none => []
      if !kids.isEmpty then kids.foldl (fun (s : State) c => s.acceptDrop c none) s
      else match s.intervalCommit die q x with
        | (s1, true) => s1.finishMark die q i b
        | (s1, false) => s1
def execMarkComplete (die q : Nat) (s : State) : Host.Outcome State Fault Refusal :=
  .next (if s.markReady die q then s.markStep die q else s)
/-- The commit of an interval ctag tried again (R326): after every commit or drop on its way, and after the drops of new children. -/
def execIntervalCommitRetry (die q : Nat) (s : State) : Host.Outcome State Fault Refusal :=
  .next (match (s.queue die q).bind Queue.retryAt with
    | none => s
    | some t =>
      if s.cycle < t then s
      else
        let s1 := if s.canopyQuiet then s.markStep die q else s
        if (s1.queue die q).bind Queue.retryAt == some t then s1.at (s.cycle + 1) (.intervalCommitRetry die q) else s1)

end Sys2Proof.Machine
end

