-- ==== Sys2Proof/Machine/Requests.lean ====
section
/-! DEFINITION. Requests that arrive at their owners, answers that arrive at their requesters, and the requester's timers (R132, R263 to R268). -/
namespace Sys2Proof.Machine

/-! ### Owners -/

def execReqRead (m : Request) (s : State) : Host.Outcome State Fault Refusal := .next (s.serveReq m (fun s => s.performRW m))
def execReqWrite (m : Request) (s : State) : Host.Outcome State Fault Refusal := .next (s.serveReq m (fun s => s.performRW m))
def execReqLds (m : Request) (s : State) : Host.Outcome State Fault Refusal := .next (s.serveReq m (fun s => s.performMem m))
def execReqLdsc (m : Request) (s : State) : Host.Outcome State Fault Refusal := .next (s.serveReq m (fun s => s.performMem m))
def execReqSts (m : Request) (s : State) : Host.Outcome State Fault Refusal := .next (s.serveReq m (fun s => s.performMem m))
def execReqFebit (m : Request) (s : State) : Host.Outcome State Fault Refusal := .next (s.serveReq m (fun s => s.performMem m))
def execReqFetest (m : Request) (s : State) : Host.Outcome State Fault Refusal := .next (s.serveReq m (fun s => s.performMem m))
def execReqWaitf (m : Request) (s : State) : Host.Outcome State Fault Refusal := .next (s.serveReq m (fun s => s.performMem m))
def execReqAtomic (m : Request) (s : State) : Host.Outcome State Fault Refusal := .next (s.serveReq m (fun s => s.performMem m))
def execReqSpawn (m : Request) (s : State) : Host.Outcome State Fault Refusal := .next (s.serveReq m (fun s => s.spawnAt m))
def execReqGlaunch (m : Request) (s : State) : Host.Outcome State Fault Refusal := .next (s.serveReq m (fun s => s.launchAt m))
def execReqSuccdec (m : Request) (s : State) : Host.Outcome State Fault Refusal := .next (s.serveReq m (fun s => s.succDec m))
def execReqReady (m : Request) (s : State) : Host.Outcome State Fault Refusal :=
  .next (s.serveReq m (fun s => (s.makeReady (m.words.headD 0), .done [])))
def execReqCancel (m : Request) (s : State) : Host.Outcome State Fault Refusal :=
  .next (let r := s.cancelAt m; r.1.answer m r.2)

/-! ### Answers (R267) -/

/-- Requester `n` of the table `readys` with the request of a tag. -/
def State.findUnit (s : State) (tag : Nat) : Option (Nat × PendReq × Option Env) :=
  s.readys.findSome? (fun x => (x.2.reqs.find? (fun p => p.1.req.tag == tag)).map (fun p => (x.1, p.1, p.2)))
/-- The requests of requester `n` changed. -/
def State.mapUnit (s : State) (n : Nat) (f : List (PendReq × Option Env) → List (PendReq × Option Env)) : State :=
  { s with readys := s.readys.put n { s.chanSt n with reqs := f (s.chanSt n).reqs } }
/-- An answer for a part of a host's access to another module (R400): with the last one the host is answered, REMOTE_UNKNOWN where the outcome is unknown, and the receipt is kept (log 28). -/
def State.hostAnswer (s : State) (tag : Nat) (r : Reply) : State :=
  match s.hosted.find? (fun h => h.tags.any (fun x => x.1 == tag)) with
  | none => s
  | some h =>
    let at' := ((h.tags.find? (fun x => x.1 == tag)).map Prod.snd).getD (0, 0)
    let h1 : Hosted := match r.outcome with
      | .ok l => { h with got := if h.req.typ == .hwread then h.got.take at'.1 ++ unpackWords at'.2 l ++ h.got.drop (at'.1 + at'.2) else h.got }
      | .error (_, c, _) => { h with bad := some (h.bad.getD (c.getD .remoteUnknown, BitVec.ofNat 64 h.req.addr)) }
    let h2 := { h1 with tags := h.tags.filter (fun x => x.1 != tag) }
    let rest := s.hosted.filter (fun x => !x.tags.any (fun y => y.1 == tag))
    if !h2.tags.isEmpty then { s with hosted := rest ++ [h2] }
    else
      let r := match h2.bad with
        | some e => .error e.1 e.2
        | none => .done (if h.req.typ == .hwread then packWords h2.got else [])
      (({ s with hosted := rest } : State).keepReceipt h.req r).answer h.req r
/-- An answer for a READY of a channel, an access of a host interface, or a SUCCDEC of a distributor (R267, R317); the failure of a SUCCDEC is reported (R305). -/
def State.unitAnswer (s : State) (n : Nat) (p : PendReq) (e : Option Env) (r : Reply) : State :=
  let tag := p.req.tag
  if r.settles then
    let s1 := s.mapUnit n (fun l => l.filter (fun x => x.1.req.tag != tag))
    let s2 : State := { s1 with readys := s1.readys.put n (s1.chanSt n).advance }
    match e with
    | some e => s2.reportDec e p.req r
    | none => s2.hostAnswer tag r
  else (s.mapUnit n (fun l => l.map (fun x => if x.1.req.tag == tag then (x.1.unsettled r s.cycle, x.2) else x))).backOff tag p.tries r
/-- An answer for the request with a tag: of a copy command, of a lane, of a matrix command or contribution, of a channel or distributor, or of a thread. -/
def State.receive (s : State) (tag : Nat) (r : Reply) : State :=
  match s.findCopy tag with
  | some (k, ct, c, p) => s.copyAnswer k ct c p r
  | none => match s.findLane tag with
    | some (die, ln, j, x, p) => s.laneAnswer die ln j x p r
    | none => match s.findSend tag with
      | some (k, p) => if p.req.typ == ReqType.collc then s.collReply k p r else State.sendReply k ((s.core k).sends.length + 1) s p r
      | none => match s.findUnit tag with
        | some (n, p, e) => s.unitAnswer n p e r
        | none => s.deliver tag r
def execAnsDone (a : Answer) (s : State) : Host.Outcome State Fault Refusal := .next (s.receive a.req.tag (.done a.res))
def execAnsWaiting (a : Answer) (s : State) : Host.Outcome State Fault Refusal := .next (s.receive a.req.tag .parked)
def execAnsRetry (a : Answer) (s : State) : Host.Outcome State Fault Refusal := .next (s.receive a.req.tag .retry)
def execAnsBusy (a : Answer) (s : State) : Host.Outcome State Fault Refusal := .next (s.receive a.req.tag .busy)
def execAnsStale (a : Answer) (s : State) : Host.Outcome State Fault Refusal := .next (s.receive a.req.tag .stale)
def execAnsUnknownOutcome (a : Answer) (s : State) : Host.Outcome State Fault Refusal := .next (s.receive a.req.tag .unknown)
def execAnsCancelled (a : Answer) (s : State) : Host.Outcome State Fault Refusal := .next (s.receive a.req.tag .cancelled)
def execAnsError (cause : Cause) (a : Answer) (s : State) : Host.Outcome State Fault Refusal := .next (s.receive a.req.tag (.error cause a.val))
def execAnsFenced (a : Answer) (s : State) : Host.Outcome State Fault Refusal := .next (s.receive a.req.tag .fenced)

/-! ### Timers -/

/-- Every list of requests in the module: of threads in slots and gone, of copy commands, matrix commands, lanes, channels and distributors. -/
def State.allPend (s : State) : List PendReq :=
  (s.cores.map (fun (c : Nat × Core) => (c.2.threads.map (fun x => x.2.reqs)).flatten ++ c.2.copies.filterMap (fun x => x.2.wait) ++ c.2.sends)).flatten
    ++ (s.retired.map (fun x => x.2.reqs)).flatten ++ s.lanes.filterMap (fun x => x.2.run.bind LaneRun.wait) ++ (s.readys.map (fun x => x.2.reqs.map Prod.fst)).flatten
/-- The record of a request, wherever its requester keeps it. -/
def State.pendOf (s : State) (tag : Nat) : Option PendReq := s.allPend.find? (fun p => p.req.tag == tag)
/-- The record of a request changed there. -/
def State.mapPend (s : State) (tag : Nat) (f : PendReq → PendReq) : State :=
  let g := fun (p : PendReq) => if p.req.tag == tag then f p else p
  { s with
    cores := s.cores.map (fun (c : Nat × Core) => (c.1, { c.2 with
      threads := c.2.threads.map (fun (x : Nat × Thread) => (x.1, x.2.mapReq tag f))
      copies := c.2.copies.map (fun (x : Nat × CopyCmd) => (x.1, { x.2 with wait := x.2.wait.map g }))
      sends := c.2.sends.map g }))
    retired := s.retired.map (fun (x : Nat × Thread) => (x.1, x.2.mapReq tag f))
    lanes := s.lanes.map (fun (x : Nat × Lane) => (x.1, { x.2 with run := x.2.run.map (fun r => { r with wait := r.wait.map g }) }))
    readys := s.readys.map (fun (x : Nat × ChanSt) => (x.1, { x.2 with reqs := x.2.reqs.map (fun p => (g p.1, p.2)) })) }
/-- The thread, being saved, of a request: its give-up clocks stand (R269). -/
def State.clocksStand (s : State) (tag : Nat) : Bool :=
  match (s.findTag tag).bind (fun x => s.thread x.1 x.2) with
  | some t => t.saving.isSome
  | none => false

/-- A request without a settling answer is sent again, unchanged, 20 µs after its latest sending (R267). -/
def execRequestRetransmit (tag : Nat) (s : State) : Host.Outcome State Fault Refusal :=
  .next (match s.pendOf tag with
    | none => s
    | some p =>
      if p.idle || s.cycle < p.lastSent + Config.resendCycles then s
      else ((s.mapPend tag (fun x => { x with lastSent := s.cycle })).at (s.cycle + Config.resendCycles) (.requestRetransmit tag)).resend p.req)
/-- A refused request sent again with a new SENT (R267). -/
def State.sendAgain (s : State) (tag : Nat) (p : PendReq) : State :=
  let q := { p.req with sent := s.us }
  ((s.mapPend tag (fun x => { x with req := q, lastSent := s.cycle, idle := false })).at (s.cycle + Config.resendCycles) (.requestRetransmit tag)).resend q
/-- The back-off of a refused request ends (R132). -/
def execBackoffResend (tag : Nat) (s : State) : Host.Outcome State Fault Refusal :=
  .next (match s.pendOf tag with
    | none => s
    | some p =>
      if !p.idle || p.tries == 0 then s
      else match s.findSend tag with
        | some (k, p1) =>
          if p1.req.typ == ReqType.collc then s.sendAgain tag p
          else match s.sendOne k p1 with
            | (s2, none) => s2
            | (s2, some r) => State.sendReply k ((s2.core k).sends.length + 1) s2 p1 r
        | none => s.sendAgain tag p)
/-- 2 ms on the give-up clock settle a request as unknown (R267, R268); one that has not been sent yet has no clock. -/
def execRequestGiveUp (tag : Nat) (s : State) : Host.Outcome State Fault Refusal :=
  .next (match s.pendOf tag with
    | none => s
    | some p =>
      if s.clocksStand tag || (p.idle && p.tries == 0) then s
      else if s.cycle < p.clock + Config.giveUpCycles then s.at (p.clock + Config.giveUpCycles) (.requestGiveUp tag)
      else s.receive tag .givenUp)
/-- Entries whose keep time has passed are free (R265). -/
def execReceiptExpiry (o : Owner) (s : State) : Host.Outcome State Fault Refusal := .next (s.setOwner o ((s.owner o).fresh s.cycle))

/-! ### Waits (R130) -/

/-- Whether a parked word need not wait longer; a word on a granule is woken by the bit (R129), a YIELD by its time, one that waits for the commands of its unit issues from where it is (R250). -/
def State.waitOver (s : State) (k : Nat) (t : Thread) (w : Wait) : Bool :=
  let c := s.core k
  match w with
  | .granule _ | .clock _ | .commands _ _ => false
  | .copyTag => c.copies.length < Config.copyTags
  | .fence sc => !t.posted.any (fun p => s.covers k sc p.req.dst)
  | .requests => t.reqs.isEmpty
  | .engines => t.engs.isEmpty
  | .meet _ e => if e then t.engs.isEmpty else t.reqs.isEmpty
  | .ctagWork x commit => !s.ctagBusy k t x commit
  | .slotsEmpty m => (List.range 16).all (fun i => m / 2 ^ i % 2 == 0 || !(c.op i).full)
  | .slotsUnnamed m => (List.range 16).all (fun i => m / 2 ^ i % 2 == 0 || !c.slotNamed i)
  | .unitQueue => c.mq.isEmpty
  | .applied sub => c.applied sub
  | .posted n => t.posted.length + n ≤ Config.maxPosted
  | .engineCount => t.engs.length < Config.maxEngine
  | .window n => t.windowOk n
  | .tags l => !t.reqs.any (fun p => l.contains p.req.tag)
  | .trapping _ _ _ _ _ => t.lastLand ≤ s.cycle
  | .goOn _ => (t.sendWait 1 1).isNone
/-- A word whose wait is over is ready to issue again; a MEET acts as R296 says, a VST goes on where it stands, and a trap is entered. -/
def State.unpark (s : State) (k sl : Nat) : State :=
  match s.thread k sl with
  | none => s
  | some t0 =>
    let t := t0.count s.cycle
    match t.status with
    | .parked (.meet w _) => if t.quiet then State.actMeet k 32 sl (s.cycle + 4) w (s.setThread k sl t) else s.setThread k sl { t with status := .acting s.cycle w }
    | .parked (.trapping code val pc async addr) => s.trapEntry k sl code val pc async addr
    | .parked (.goOn h) => State.vstNext k sl (h.data.length + 2) (s.setThread k sl { t with status := .holding h }) h
    | _ => s.setThread k sl { t with status := .ready, elig := max t.elig s.cycle }
/-- A cancel for a word's request (R132): at its owner now, or on its way, and again until it is answered (R267). -/
def State.sendCancel (s : State) (k sl : Nat) (p : PendReq) : State :=
  let q := { p.req with typ := .cancel }
  match s.sendVia q (fun s => s.cancelAt q) with
  | (s1, some r) => match s1.thread k sl with
    | some t => if r.settles then s1.settleAt k sl t p r else s1.at (s.cycle + Config.resendCycles) (.syncTimeout k sl)
    | none => s1
  | (s1, none) => s1.at (s.cycle + Config.resendCycles) (.syncTimeout k sl)
/-- The waits without a limit: for the own unit's commands, for the word's own requests (R337), for pending results. -/
def Wait.unbounded : Wait → Bool
  | .clock _ | .unitQueue | .commands _ _ | .applied _ | .tags _ | .trapping _ _ _ _ _ => true
  | _ => false
/-- Whether K.SYNCLIM bounds what a holding word waits for: a synchronising request (R130, R132), or an allocation that is held (R80). -/
def limited (h : Hold) (q : Request) : Bool :=
  match q.typ, h.kind with
  | .lds, _ | .ldsc, _ | .sts, _ | .waitf, _ => true
  | .canopy, .ctalloc _ _ => true
  | _, _ => false
/-- The cancel of a thread that is being saved is sent again, every 20 µs from the beginning of its save (R267, R269). -/
def State.cancelAgain (s : State) (k sl : Nat) (t : Thread) (lim : Nat) : State :=
  match t.heldReq with
  | some (h, p) => if h.cancels p.req && (s.cycle + Config.saveWait - lim) % Config.resendCycles == 0 then s.sendCancel k sl p else s
  | none => s
/-- The wait count of a word reaches K.SYNCLIM (R130, R132): it raises SYNC_TIMEOUT, or a remote one is cancelled. -/
def execSyncTimeout (k sl : Nat) (s : State) : Host.Outcome State Fault Refusal :=
  .next (match s.thread k sl with
    | none => s
    | some t => match t.saving with
    | some (_, _, lim) => s.cancelAgain k sl t lim
    | none => match t.waitStart, t.status with
      | some ws, .parked w =>
        if s.cycle < ws.1 + t.synclim || w.unbounded then s
        else if s.waitOver k t w then s.unpark k sl
        else s.waitLimit k sl w ws.2
      | some ws, .holding h =>
        if s.cycle < ws.1 + t.synclim then s
        else match t.reqOf h.tag with
          | some p => if limited h p.req then s.sendCancel k sl p else s
          | none => s
      | _, _ => s)
/-- A long-latency result lands, in the cycle in which the word that has issued acts where there is one: a word reads no result that lands after its issue (R25, R120). -/
def execLongResultLand (k sl : Nat) (s : State) : Host.Outcome State Fault Refusal :=
  .next (match s.thread k sl with
    | none => s
    | some t => match t.status with
      | .acting c _ => s.at (max c s.cycle) (.longResultLand k sl)
      | _ => s.setThread k sl (t.landDue s.cycle))

end Sys2Proof.Machine
end

