-- ==== Sys2Proof/Machine/Save.lean ====
section
/-! DEFINITION. Saving a thread into a frame and resuming it (R41, R151, R269, R366 to R371), swapping out and in (R323, R324). -/
namespace Sys2Proof.Machine

/-- Whether the thread's word has issued and has yet to act (R120, R296), waits to trap (R353), or is a vector access under way (R222). -/
def Thread.acts (t : Thread) : Bool :=
  match t.status with
  | .acting _ _ => true
  | .parked (.trapping _ _ _ _ _) => true
  | .parked (.goOn _) => true
  | .holding h => (match h.kind with | .vld .. => true | .vst .. => true | _ => false)
  | _ => false
/-- No asynchronous event comes within a word, while a vector word holds its thread, between a hint that governs and its word, nor between a word with S and its LIVE (R37, R222, R354). -/
def Thread.deferred (t : Thread) (now : Nat) : Bool := t.iv || t.rv || t.live || t.acts || decide (now < t.busy)
/-- Whether its word holds for an answer: no kill comes within it, but where its owner has answered that it waits, which counts as parked (R354, R76, log 103). -/
def Thread.heldFast (t : Thread) : Bool := match t.status with | .holding _ => !t.parkedAway | _ => false
/-- Bytes of a frame (R363). -/
def frameBytes : Nat := 45056

/-! ### A save begins (R367) -/

/-- The thread issues no more; it leaves the meet table, the holder's capability becomes 0, a request that waits at its owner is cancelled. -/
def State.beginSave (s : State) (k sl frame : Nat) (forced : Bool) : State :=
  match s.thread k sl with
  | none => s
  | some t0 =>
    let lim := s.cycle + Config.saveWait
    let t : Thread := { t0.count s.cycle with
      saving := some (frame, forced, lim), preempt := none, forced := none
      status := match t0.status with | .meet _ _ _ => .ready | x => x }
    let s1 := (s.setThread k sl t).mapCore k (fun c =>
      let c1 := c.leaveMeet sl
      if c1.holder == some sl && c1.cap != 0 then { c1 with cap := 0, caps := (c1.cap :: c1.caps).take 65536 } else c1)
    let s2 := s1.at lim (.saveComplete k sl)
    match t.status with
    | .holding h => match t.reqs.find? (fun p => p.req.tag == h.tag) with
      | some p => if h.cancels p.req then s2.sendCancel k sl p else s2
      | none => s2
    | _ => s2
/-- Whether a save's waits are over: its results have landed (R27), its requests have settled or 2 ms have passed (R269), and no command of the holder's unit is left (R226). -/
def State.saveReady (s : State) (k sl : Nat) (t : Thread) : Bool :=
  match t.saving with
  | none => false
  | some (_, _, lim) => t.pend.isEmpty && (t.reqs.isEmpty || lim ≤ s.cycle) && ((s.core k).holder != some sl || (s.core k).mq.isEmpty)

/-! ### The frame (R368 to R370) -/

/-- The state that LIVE names (R40, R41). -/
def Thread.kept (t : Thread) (live : BitVec 22) : Thread :=
  { t with
    g := Vector.ofFn (fun i : Fin 64 => if live.getLsbD (6 + i.val / 4) then t.g[i] else 0)
    v := Vector.ofFn (fun i : Fin 16 => if live.getLsbD (2 + i.val / 4) then t.v[i] else VecReg.empty) }
/-- SRC and DST (R258). -/
def Endpoint.code (e : Endpoint) : Nat := e.kind * 2 ^ 38 + e.module * 2 ^ 18 + e.die * 2 ^ 14 + e.index
/-- What follows the descriptor of a request (R260); of a SPAWN only the descriptor is kept (R370). -/
def requestData (q : Request) : List Byte :=
  match q.typ with
  | .write => q.bytes
  | .sts => q.bytes
  | .atomic => leBytes 8 (nth q.words 0).toNat ++ leBytes 8 (nth q.words 1).toNat ++ leBytes 8 q.cnt
  | .spawn => if q.dst.kind == 3 then wordBytes q.words else []
  | .succdec | .ready | .canopy | .xducer | .mma => wordBytes q.words
  | _ => []
/-- A request with its data read back. -/
def withData (q : Request) (d : List Byte) : Request :=
  match q.typ with
  | .write => { q with bytes := d }
  | .sts => { q with bytes := d }
  | .atomic => { q with words := packWords (d.take 16), cnt := field d 16 8 }
  | .spawn => if q.dst.kind == 3 then { q with words := packWords d } else q
  | .succdec | .ready | .canopy | .xducer | .mma => { q with words := packWords d }
  | _ => q
/-- The endpoint of a code. -/
def Endpoint.ofCode (n : Nat) : Endpoint := ⟨n / 2 ^ 38 % 4, n / 2 ^ 18 % 2 ^ 20, n / 2 ^ 14 % 16, n % 2 ^ 14⟩
/-- A request record (R370): the header as first sent, then the payload. -/
def requestRecord (q : Request) : List Byte :=
  let d := requestData q
  [0x12#8, BitVec.ofNat 8 (typeCode q)] ++ leBytes 2 (16 + d.length) ++ leBytes 5 (Endpoint.code q.src) ++ leBytes 5 (Endpoint.code q.dst)
    ++ leBytes 4 q.stream.toNat ++ leBytes 4 q.serial.toNat ++ leBytes 4 q.ack.toNat ++ leBytes 6 q.sent
    ++ (leBytes 8 q.addr ++ leBytes 4 q.off ++ [BitVec.ofNat 8 q.f, BitVec.ofNat 8 q.lsize, 0, 0] ++ d).take 96
/-- KIND of an engine record (R370). -/
def EngKind.code : EngKind → Nat
  | .copy => 0 | .xducer => 1 | .mma => 2 | .mred => 3 | .canopy => 4 | .coll => 5
def engineRecord (x : EngCmd) : List Byte := leBytes 8 (x.serial.toNat * 2 ^ 32 + x.kind.code * 2 ^ 5 + x.copyTag) ++ leBytes 8 x.ref.toNat
/-- The request of a holding word. -/
def Thread.pendingReq (t : Thread) : Option PendReq :=
  match t.status with
  | .holding h => t.reqs.find? (fun p => !p.posted && p.req.tag == h.tag)
  | _ => none
/-- The request records in order: the pending holding word's first. -/
def Thread.records (t : Thread) : List PendReq :=
  match t.pendingReq with
  | some p => p :: t.reqs.filter (fun x => x.req.tag != p.req.tag)
  | none => t.reqs
/-- STATE (R369). -/
def Thread.stateWord (t : Thread) (forced holder : Bool) : Nat :=
  t.unk.length * 2 ^ 29 + t.reqs.length * 2 ^ 23 + t.engs.length * 2 ^ 16 + t.claim * 2 ^ 8 + (if t.unkOver then 2 ^ 7 else 0)
    + (if holder then 2 ^ 6 else 0) + (if t.inh then 2 ^ 5 else 0) + (if t.pendingReq.isSome then 2 ^ 4 else 0) + (if forced then 2 ^ 3 else 0) + t.spawnk
/-- Granule address of a thread parked on its own core's local store; 0 otherwise. -/
def parkedAddr (k : Nat) (t : Thread) : Nat :=
  match t.status with
  | .parked (.granule g) => 2 ^ 63 + (g * 16 - localKey k 0)
  | _ => 0
/-- The operand slots a slot owns, as a mask (R225). -/
def Core.ownedOps (c : Core) (owner : Nat) : Nat := (List.range 16).foldl (fun n i => if (c.op i).owner == some owner then n + 2 ^ i else n) 0
/-- The module core number of a core (R10). -/
def coreNumber (k : Nat) : Nat := dieOf k * 16384 + indexOf k
/-- The header (R369), DONE written. -/
def State.frameHeader (s : State) (k sl : Nat) (t : Thread) (live : BitVec 22) (forced : Bool) : List Nat :=
  let c := s.core k
  [t.pc.toNat, t.stateWord forced (c.holder == some sl), live.toNat, t.tid.toNat, t.cnt, t.cx + t.cy * 2 ^ 16 + t.cz * 2 ^ 32, t.fpcsr.toNat,
   (if t.det then 2 else 0) + (if t.sc then 1 else 0), t.gsel.toNat, t.pfx.toNat, t.ctag, t.tvec.toNat, t.tcause.toNat, t.tpc.toNat, t.tval.toNat, t.tsave.toNat,
   t.hbint, t.budget, t.hb, t.synclim, t.stream.toNat, t.serial.toNat, t.ackw.toNat, t.meetwin, t.dtbase.toNat, c.acount + c.tsize * 2 ^ 16,
   parkedAddr k t, coreNumber k + c.ownedOps sl * 2 ^ 18, (match t.queue with | some (d, q) => q + d * 64 | none => 0), t.ptbase.toNat, 0, 1]
/-- What a frame holds, as offsets with bytes; everything else in it is zero. -/
def State.frameParts (s : State) (k sl : Nat) (t : Thread) (live : BitVec 22) (forced : Bool) : List (Nat × List Byte) :=
  let c := s.core k
  let u := t.kept live
  let at' := fun (base step : Nat) (l : List (List Byte)) => l.zipIdx.map (fun p => (base + step * p.2, p.1))
  at' 0 8 ((s.frameHeader k sl t live forced).map (leBytes 8))
    ++ at' 0x100 8 (u.g.toList.map (fun w => leBytes 8 w.toNat))
    ++ at' 0x300 4 (u.v.toList.map (fun v => leBytes 4 v.query))
    ++ at' 0x340 8 (t.unk.map (fun x => leBytes 8 x.word.toNat))
    ++ at' 0x400 16 (t.engs.map engineRecord)
    ++ at' 0x800 128 (t.records.map (fun p => requestRecord p.req))
    ++ (u.v.toList.zipIdx.map (fun p => at' (0x1900 + 1280 * p.2) 10 (p.1.runs.map (fun r => leBytes 8 r.value.toNat ++ leBytes 2 r.count)))).flatten
    ++ (if c.holder == some sl && (forced || live.getLsbD 0) then c.acc.map (fun p => (0x6900 + 16 * p.1, leBytes 16 p.2.toNat)) else [])
/-- The frame written: first zero, then its parts. -/
def State.writeFrame (s : State) (frame : Nat) (parts : List (Nat × List Byte)) : State :=
  let inside := fun (a : Nat) => frame ≤ a && a < frame + frameBytes
  let s1 := { s with mem := s.mem.filter (fun p => !inside p.1), eccOne := s.eccOne.filter (fun w => !inside (8 * w)), eccBad := s.eccBad.filter (fun w => !inside (8 * w)) }
  parts.foldl (fun (s : State) p => s.writeMem (frame + p.1) p.2) s1

/-- The save ends: the frame is written, the view's holding and the slot are given up; the thread keeps ctag, stream and operand slots (R367). -/
def State.saveEnd (s : State) (k sl : Nat) : State :=
  match s.thread k sl with
  | none => s
  | some t => match t.saving with
    | none => s
    | some (frame, forced, lim) =>
      let live : BitVec 22 := if forced then BitVec.allOnes 22 else t.safePoint.getD 0
      let s1 := s.writeFrame frame (s.frameParts k sl t live forced)
      let s2 := if (s.core k).holder == some sl then s1.clearHolder k else s1
      let u : Thread := { t.kept live with
        saving := none, safePoint := none, pend := []
        status := match t.pendingReq with | some _ => t.status | none => .ready }
      { (s2.mapCore k (fun c => { c with
          threads := c.threads.del sl
          ops := c.ops.map (fun o => if o.owner == some sl then { o with owner := some (frame + 32) } else o) })) with
        saved := s2.saved.put frame ⟨u, k, lim - Config.saveWait⟩ }
/-- The save's limit, or the end of its waits. -/
def execSaveComplete (k sl : Nat) (s : State) : Host.Outcome State Fault Refusal :=
  .next (match s.thread k sl with
    | some t => if s.saveReady k sl t then s.saveEnd k sl else s
    | none => s)

/-- A pre-emption at the safe point just passed (R39, R366); not where LANES is clear while the thread holds lanes or has engine commands (R41). -/
def Thread.preemptNow (t : Thread) (now : Nat) : Option Nat :=
  match t.preempt, t.safePoint with
  | some (frame, _), some live =>
    if t.saving.isSome || t.deferred now || t.status != .ready || (!live.getLsbD 1 && (t.claim != 0 || !t.engs.isEmpty)) then none else some frame
  | _, _ => none
def execSafePointSave (k sl : Nat) (s : State) : Host.Outcome State Fault Refusal :=
  .next (match s.thread k sl with
    | some t => match t.preemptNow s.cycle with
      | some frame => s.beginSave k sl frame false
      | none => s
    | none => s)
/-- A forced save is taken where R37 allows it, whatever INH holds (R354). -/
def Thread.forcedNow (t : Thread) (now : Nat) : Option Nat := if t.saving.isSome || t.deferred now then none else t.forced
def execForcedSave (k sl : Nat) (s : State) : Host.Outcome State Fault Refusal :=
  .next (match s.thread k sl with
    | some t => match t.forcedNow s.cycle with
      | some frame => s.beginSave k sl frame true
      | none => s
    | none => s)
/-- No safe point within 75,000 cycles: a forced save instead (R366). -/
def execPreemptTimeout (k sl : Nat) (s : State) : Host.Outcome State Fault Refusal :=
  .next (s.mapThread k sl (fun t => match t.preempt with
    | some (frame, till) => if till ≤ s.cycle && t.saving.isNone then { t with preempt := none, forced := some frame } else t
    | none => t))

/-! ### A resume (R371) -/

/-- Word at byte `off` of a frame. -/
def State.frameWord (s : State) (frame off : Nat) : Word := leWord (readBytes s.mem (frame + off) 8)
/-- What is kept of the thread of a frame: found by its stream (log 20). -/
def State.savedOf (s : State) (frame : Nat) : Option (Nat × Saved) :=
  s.saved.find? (fun x => x.2.thread.stream.toNat == (s.frameWord frame 0xA0).toNat)
/-- Vector register `j` of a frame. -/
def State.frameVec (s : State) (frame j : Nat) : VecReg :=
  let q := field (readBytes s.mem (frame + 0x300 + 4 * j) 4) 0 4
  ⟨BitVec.ofNat 5 (q / 2 ^ 24), (List.range (q / 2 ^ 16 % 2 ^ 8)).map (fun i =>
    let b := readBytes s.mem (frame + 0x1900 + (128 * j + i) * 10) 10
    ⟨leWord (b.take 8), field b 8 2⟩)⟩
/-- The unknown-outcome list of a frame; whether an entry has been reported comes from `base`. -/
def State.frameUnk (s : State) (frame : Nat) (base : List UnkEntry) : List UnkEntry :=
  (List.range (bits (s.frameWord frame 8) 29 5)).map (fun i =>
    let w := s.frameWord frame (0x340 + 8 * i)
    ⟨w.setWidth 32, bits w 32 8, bits w 40 2, Cause.ofCode (bits w 42 12), none, ((base[i]?).map UnkEntry.reported).getD false⟩)
/-- Request record `i` of a frame, for the request `p` that it records. -/
def State.frameReq (s : State) (frame i : Nat) (p : PendReq) : PendReq :=
  let b := readBytes s.mem (frame + 0x800 + 128 * i) 128
  let q := { p.req with
    src := Endpoint.ofCode (field b 4 5), dst := Endpoint.ofCode (field b 9 5), stream := BitVec.ofNat 32 (field b 14 4), serial := BitVec.ofNat 32 (field b 18 4)
    ack := BitVec.ofNat 32 (field b 22 4), sent := field b 26 6, addr := field b 32 8, off := field b 40 4, f := field b 44 1, lsize := field b 45 1 }
  { p with req := withData q ((b.drop 48).take (field b 2 2 - 16)) }
/-- The engine commands of a frame whose arrivals have not come. -/
def State.frameEngs (s : State) (frame : Nat) (base : List EngCmd) : List EngCmd :=
  (List.range (bits (s.frameWord frame 8) 16 7)).filterMap (fun i =>
    let w := s.frameWord frame (0x400 + 16 * i)
    (base.find? (fun x => x.serial == (w >>> 32).setWidth 32)).map (fun x => { x with
      kind := ([EngKind.copy, .xducer, .mma, .mred, .canopy, .coll].find? (fun y => y.code == bits w 5 3)).getD x.kind
      copyTag := bits w 0 5, ref := s.frameWord frame (0x408 + 16 * i) }))
/-- The thread of a frame, as its registers read (R5, R34, R157, R352); what no frame holds comes from `base`, the thread as it was saved (log 20). -/
def State.restore (s : State) (frame : Nat) (base : Thread) : Thread :=
  let w := s.frameWord frame
  let n := fun (off : Nat) => (w off).toNat
  { base with
    g := Vector.ofFn (fun i : Fin 64 => if i.val = 0 then 0 else w (0x100 + 8 * i.val))
    v := Vector.ofFn (fun i : Fin 16 => s.frameVec frame i.val)
    pc := w 0 &&& ~~~3#64, claim := bits (w 8) 8 5, spawnk := bits (w 8) 0 3, unkOver := (w 8).getLsbD 7, tid := w 0x18, cnt := bits (w 0x20) 0 48
    cx := bits (w 0x28) 0 16, cy := bits (w 0x28) 16 16, cz := bits (w 0x28) 32 16, fpcsr := (w 0x30).setWidth 15
    sc := (w 0x38).getLsbD 0, det := (w 0x38).getLsbD 1, gsel := (w 0x40).setWidth 22 &&& 0x3FFE00#22, pfx := (w 0x48).setWidth 28 &&& 0xFBFFFFF#28, ctag := bits (w 0x50) 0 16
    tvec := w 0x58 &&& ~~~3#64, tcause := w 0x60 &&& ~~~0x4000000007FC000#64, tpc := w 0x68 &&& ~~~3#64, tval := w 0x70, tsave := w 0x78
    hbint := n 0x80, budget := bits (w 0x88) 0 48, hb := n 0x90
    synclim := bits (w 0x98) 0 40, stream := (w 0xA0).setWidth 32, serial := (w 0xA8).setWidth 32, ackw := (w 0xB0).setWidth 32
    meetwin := bits (w 0xB8) 0 32, dtbase := w 0xC0, queue := base.queue.map (fun _ => (bits (w 0xE0) 6 4, bits (w 0xE0) 0 6)), ptbase := w 0xE8 &&& 0xFFFFF0FFFFFFF0FF#64
    unk := s.frameUnk frame base.unk
    reqs := (base.records.zipIdx.take (bits (w 8) 23 6)).map (fun p => s.frameReq frame p.2 p.1)
    engs := s.frameEngs frame base.engs
    status := if (w 8).getLsbD 4 then base.status else .ready }
/-- Whether a frame's thread held the view, and whether it is saved with it (R151). -/
def State.frameAcc (s : State) (frame : Nat) : Bool := (s.frameWord frame 8).getLsbD 6 && (s.frameWord frame 0x10).getLsbD 0
/-- Whether a slot that waits for a resume can have its thread: enough free lanes, and the view free where it comes back (R205, R151). -/
def State.resumeReady (s : State) (k : Nat) (t : Thread) : Bool :=
  match t.status with
  | .resuming frame => bits (s.frameWord frame 8) 8 5 ≤ s.lanesFree k && (!s.frameAcc frame || (s.core k).holder.isNone)
  | _ => false
/-- The view after a resume: copied back, zeroed, or left (R151). -/
def State.resumeView (s : State) (k sl frame : Nat) : State :=
  (if s.frameAcc frame then s.covered (accErr k 0) (0x1000 * (s.core k).acount) else s).mapCore k (fun c =>
    if s.frameAcc frame then
      { c with holder := some sl, acc := ((List.range (256 * c.acount)).map (fun i =>
          (i, BitVec.ofNat 128 (leNat (readBytes s.mem (frame + 0x6900 + 16 * i) 16))))).filter (fun p => p.2 != 0) }
    else if (s.frameWord frame 8).getLsbD 6 && c.holder.isNone then { c with acc := [] }
    else c)
/-- A recorded request is sent again with its original SENT; its give-up clock goes on where it stopped (R269). One behind another is sent when that settles (R123). -/
def State.resumeReq (s : State) (p : PendReq) : State :=
  if !p.behind.isEmpty then s else
  ((s.at (p.clock + Config.giveUpCycles) (.requestGiveUp p.req.tag)).at (s.cycle + Config.resendCycles) (.requestRetransmit p.req.tag)).resend p.req
/-- A pending SPAWN's payload, rebuilt from the frame of its thread (R370). -/
def State.rebuilt (s : State) (frame : Nat) (t : Thread) (q : Request) : Request :=
  match t.status with
  | .holding h => match h.kind with
    | .spawn _ _ a n => if h.tag == q.tag then
        { q with words := s.spawnPayload t (bits (s.frameWord frame 0xC8) 0 16) (bits (s.frameWord frame 0xC8) 16 16) (bits t.tid 0 16 * 8 + t.spawnk) (t.block a n.toNat) } else q
    | _ => q
  | _ => q
/-- The thread of a slot that waits for it comes back. -/
def State.resumeThread (s : State) (k sl frame : Nat) : State :=
  let x := s.savedOf frame
  let base := (x.map (fun y => y.2.thread)).getD Thread.reset
  let began := (x.map (fun y => y.2.began)).getD s.cycle
  let t0 := s.restore frame base
  let ws := t0.waitStart.map (fun w => (s.cycle, w.2))
  let t : Thread := { t0 with
    acct := s.cycle, elig := s.cycle, issued := s.cycle
    waitStart := match t0.status with | .holding _ => ws | _ => none
    reqs := t0.reqs.map (fun p =>
      let l := p.behind.filter (fun g => t0.reqs.any (fun y => y.req.tag == g))
      { p with req := s.rebuilt frame t0 p.req, clock := s.cycle - (began - p.clock), lastSent := s.cycle, idle := !l.isEmpty, behind := l }) }
  let key := (x.map Prod.fst).getD frame
  let s1 := ((s.setThread k sl t).resumeView k sl frame).mapCore k (fun c => { c with
    ops := c.ops.map (fun o => if o.owner == some (key + 32) then { o with owner := some sl } else o)
    swaps := c.swaps.filter (fun w => w.frame != frame) })
  let s2 := { s1 with saved := s1.saved.del key, swapUsed := s1.swapUsed.filter (· != frame) }
  let s3 := match t.waitStart with
    | some _ => s2.at (s.cycle + t.synclim) (.syncTimeout k sl)
    | none => s2
  t.reqs.foldl (fun (s : State) p => s.resumeReq p) s3
/-- The resume reads its frame: a word with an uncorrectable error kills the thread (R374, log 88). -/
def execThreadResume (k sl : Nat) (s : State) : Host.Outcome State Fault Refusal :=
  .next (match s.thread k sl with
    | some t => match t.status with
      | .resuming frame => if !s.resumeReady k t then s else match s.readMem frame frameBytes, s.savedOf frame with
        | (s1, some _), _ => s1.resumeThread k sl frame
        | (s1, none), some x => s1.killSaved x.1 x.2 .eccUncorr 0 |>.dropThread k sl
        | (s1, none), none => s1.dropThread k sl
      | _ => s
    | none => s)
/-- A slot taken for a resume (R371): it belongs to the guest of the frame, and its stream says whose it is. -/
def State.holdSlot (s : State) (k sl frame : Nat) : State :=
  (s.mapCore k (fun c => { c with killed := c.killed.filter (· != sl) })).setThread k sl { Thread.reset with ptbase := s.frameWord frame 0xE8, stream := (s.frameWord frame 0xA0).setWidth 32, status := .resuming frame, acct := s.cycle, elig := s.cycle, issued := s.cycle }

/-! ### Swapping (R323, R324) -/

/-- SWAPLOG of a thread's queue. -/
def State.swapLogOf (s : State) (t : Thread) : Nat := (s.awayOf t).swapLog
/-- The granule a thread is parked on, and since when: a word parks when it acts, 4 cycles after its issue (R120). -/
def Thread.parkedOn (t : Thread) : Option (Nat × Nat) :=
  match t.status with
  | .parked (.granule g) => if t.saving.isSome || t.deferred t.issued then none else some (g, t.issued + 4)
  | _ => none
/-- The cycle from which a thread is a swap candidate. -/
def State.swapDue (s : State) (k : Nat) (t : Thread) : Option Nat :=
  match t.parkedOn with
  | some (_, since) => if s.swapLogOf t == 0 || Config.swapEntries ≤ (s.core k).swaps.length then none else some (since + 2 ^ s.swapLogOf t)
  | none => none
/-- A free frame of a die's swap pool (R362). -/
def State.poolFrame (s : State) (die : Nat) : Option Nat :=
  let w := (s.swapPools.find die).getD 0
  ((List.range (min (bits w 40 20) (s.swapUsed.length + 1))).map (fun j => die * 2 ^ 40 + bits w 16 24 * 2 ^ 16 + j * 0xB000)).find? (fun f => !s.swapUsed.contains f)
/-- The candidates of a held block's cell, each with the cycle from which it is one: none while a core can take the block. -/
def State.swapCandidates (s : State) (die : Nat) (h : Held) : List (Nat × Nat × Nat × Thread) :=
  match s.block h.die h.q h.n with
  | some b =>
    if !(s.eligible die h.map h.queue.guest b).isEmpty then []
    else ((h.map.cellCores die b.x b.y b.z).map (fun k => (s.threads k).filterMap (fun p => (s.swapDue k p.2).map (fun due => (max due h.swapFrom, k, p.1, p.2))))).flatten
  | none => []
/-- The one parked longest, then the lowest core number, then the lowest slot. -/
def State.swapPick (s : State) (die : Nat) (h : Held) : Option (Nat × Nat × Thread) :=
  (s.swapCandidates die h).foldl (fun (r : Option (Nat × Nat × Thread)) x =>
    if s.cycle < x.1 then r else match r with
      | none => some x.2
      | some y => if x.2.2.2.issued < y.2.2.issued then some x.2 else r) none
/-- The first cycle in which the distributor of `die` has a candidate. -/
def State.swapAt (s : State) (die : Nat) : Option Nat :=
  match s.poolFrame die with
  | none => none
  | some _ => ((s.dist die).held.map (s.swapCandidates die)).flatten.foldl (fun (r : Option Nat) x => some (min x.1 (r.getD x.1))) none
/-- The swap decision of a distributor: the held block that tries, core, slot and thread, and the frame. -/
def State.swapChoice (s : State) (die : Nat) : Option (Held × (Nat × Nat × Thread) × Nat) :=
  match s.poolFrame die with
  | none => none
  | some f => ((s.dist die).held.findSome? (fun h => (s.swapPick die h).map (fun y => (h, y, f))))
/-- The decision carried out; the block tries again in the next cycle while it has no core (R318). -/
def State.swapOutNow (s : State) (die : Nat) : State :=
  match s.swapChoice die with
  | none => s
  | some (h, (k, sl, t), f) => match t.parkedOn with
    | none => s
    | some (g, _) =>
      let s1 := s.setDist die { s.dist die with held := (s.dist die).held.map (fun y => if y == h then { y with swapFrom := s.cycle + 1 } else y) }
      ({ s1.mapCore k (fun c => { c with swaps := c.swaps ++ [⟨f, g, false⟩] }) with swapUsed := f :: s.swapUsed } : State).beginSave k sl f true
def execSwapOut (die : Nat) (s : State) : Host.Outcome State Fault Refusal := .next (s.swapOutNow die)
/-- Whether an entry of a swap list can come back: resumable, its save ended, a slot free. -/
def State.swapBack (s : State) (k : Nat) (w : SwapEntry) : Bool :=
  w.resumable && (s.saved.find w.frame).isSome && (s.freeSlot k).isSome
    && !(s.threads k).any (fun p => p.2.status == Status.resuming w.frame)
/-- It takes the lowest free slot of the core it left. -/
def execSwapResume (k x : Nat) (s : State) : Host.Outcome State Fault Refusal :=
  .next (match (s.core k).swaps.find? (fun w => w.frame == x), s.freeSlot k with
    | some w, some sl => if s.swapBack k w then s.holdSlot k sl x else s
    | _, _ => s)

end Sys2Proof.Machine
end

