-- ==== Sys2Proof/Machine/Events.lean ====
section
/-! DEFINITION. The events of a core's threads and of the silicon: words that cannot issue (R43, R200), budget and heartbeat (R286, R287), kills (R354), fence and containment (R288, R372 to R375), walks (R63), refresh and temperature (R57, R321, R409), partition reset (R328). -/
namespace Sys2Proof.Machine

/-! ### Words that cannot issue -/

/-- A fault of the current thread's word before any meaning of it. -/
def State.issueFault (s : State) (code : Cause) (val : Thread → Word) : State :=
  match s.thread s.k s.sl with
  | none => s
  | some t0 =>
    let t := t0.begin s.cycle 0
    (s.setThread s.k s.sl t).trapEntry s.k s.sl code (val t) t.pc false
/-- A word that denotes no instruction (R43). -/
def execIllegalWord (w : BitVec 32) (s : State) : Host.Outcome State Fault Refusal := .next (s.issueFault .illegal (fun _ => w.setWidth 64))
/-- A fetch that fails (R200). -/
def execFetchFault (cause : Cause) (s : State) : Host.Outcome State Fault Refusal := .next (s.issueFault cause Thread.pc)

/-! ### Between words (R354) -/

/-- Time passes for a thread that waits to be eligible: its cycles count (R23, R283). -/
def execThreadEligible (k sl : Nat) (s : State) : Host.Outcome State Fault Refusal := .next (s.mapThread k sl (fun t => t.count s.cycle))
/-- Whether BUDGET is to be taken: once, outside a handler and not before the word after the RFT of one in which it came up, where R37 allows it (R286, R354, R377). -/
def Thread.budgetNow (t : Thread) (now : Nat) : Bool := t.budget == 0 && !t.budgetTaken && !t.inh && !t.afterRft && !t.deferred now && t.status == .ready && t.saving.isNone
def execBudgetExpiry (k sl : Nat) (s : State) : Host.Outcome State Fault Refusal :=
  .next (match s.thread k sl with
    | none => s
    | some t0 =>
      let t := t0.count s.cycle
      let s1 := s.setThread k sl { t with budgetTaken := t.budgetTaken || t.budgetNow s.cycle }
      if t.budgetNow s.cycle then s1.trapEntry k sl .budget 0 t.pc true else s1)
/-- Whether the heartbeat kills (R287), between two words (R354). -/
def Thread.hangNow (t : Thread) (now : Nat) : Bool := decide (t.hbint ≤ t.hb) && !t.deferred now && !t.heldFast
def execHeartbeatExpiry (k sl : Nat) (s : State) : Host.Outcome State Fault Refusal :=
  .next (match s.thread k sl with
    | none => s
    | some t0 =>
      let t := t0.count s.cycle
      let s1 := s.setThread k sl t
      if t.hangNow s.cycle then s1.killThread k sl .hang (BitVec.ofNat 64 t.hbint) t.pc else s1)
/-- Whether the thread waits where a kill by a drop takes it at once: parked, here or at another owner, or meet-waiting (R76). -/
def Thread.waits (t : Thread) : Bool := match t.status with | .parked _ => true | .meet _ _ _ => true | .holding _ => t.parkedAway | _ => false
/-- A kill that is due: of a thread whose register space holds an uncorrectable error (R374), or one asked for, deferred as R37 says but for a waiting thread whose ctag is dropped (R76). None comes within a word (R354). -/
def Thread.killNow (t : Thread) (now : Nat) : Option (Cause × Word) :=
  if t.acts || t.heldFast || decide (now < t.busy) then none
  else if t.eccBad then some (.eccUncorr, 0)
  else match t.kill with
    | some (c, v, _) => if t.deferred now && !(c == .ctagKilled && t.waits) then none else some (c, v)
    | none => none
def State.takeKill (s : State) (k sl : Nat) : State :=
  match s.thread k sl with
  | none => s
  | some t => match t.killNow s.cycle with
    | some e => ({ s with eccUnc := if t.eccBad then min (2 ^ 32 - 1) (s.eccUnc + 1) else s.eccUnc } : State).killThread k sl e.1 e.2 t.pc (e.1.isAddress && !t.eccBad)
    | none => s
/-- The single-bit errors of the current thread's frame and lane storage are corrected and counted when its next word issues (R374, log 89). -/
def State.fixFrame (s : State) (k sl : Nat) : State :=
  match s.thread k sl with
  | none => s
  | some t => if t.eccOne == 0 then s else
    ({ s with eccCorr := min (2 ^ 32 - 1) (s.eccCorr + t.eccOne), corrected := s.corrected ++ List.replicate t.eccOne (regKey k 0 / 8) } : State).setThread k sl { t with eccOne := 0 }

/-! ### Fence and containment -/

/-- Whether a thread's cycles count for the fence: ready, waiting to be eligible, or holding a local word (R288). -/
def Thread.fences (t : Thread) : Bool :=
  t.saving.isNone && match t.status with
    | .ready => true
    | .acting _ _ => true
    | .parked w => w.counts.1
    | _ => false
/-- The cycle in which the fence count reaches 2^24. -/
def State.fenceAt (s : State) (k : Nat) : Option Nat :=
  if (s.threads k).any (fun p => p.2.fences) then some ((s.core k).fenceFrom + Config.fenceLimit) else none
/-- A task of a fenced core (R288): a launched one goes back to its queue, a spawned one is reported lost. A slot that waits for a resume becomes free. -/
def State.loseThread (s : State) (k : Nat) (p : Nat × Thread) : State :=
  if p.2.resumes then s.dropThread k p.1 else
  match p.2.queue, p.2.blk with
  | some (die, q), some n =>
    let s1 := s.leaveSlot k p.1
    let s2 := match p.2.ownCtag with
      | some c => if s1.ctagState c == CtState.live || s1.ctagState c == CtState.committing then s1.acceptDrop c none else s1
      | none => s1
    match s2.queue die q, s2.block die q n with
    | some x, some b => ((s2.setQueue die q { x with readies := x.readies + 1 }).setBlock die q n { b with readyAt := s.cycle, readyNo := x.readies, ctag := none, heldAt := 0 }).blockStatus die q n 1
    | _, _ => s2
  | _, _ => (s.report (s.env p.2 k 0) false true .fenced p.2.pc (BitVec.ofNat 64 (coreNumber k))).leaveSlot k p.1
/-- The store after the march test (R405) holds what the test left: free values; so do its bits. -/
def State.marchStore (s : State) (k : Nat) : State :=
  let key := localKey k 0
  let n := Config.localSize / 8
  let fresh : Tab Byte := ((List.range n).map (fun i => (leBytes 8 (Config.freeValue (s.freeCtr + i)).toNat).zipIdx.map (fun p => (key + 8 * i + p.2, p.1)))).flatten
  let inside := fun (a : Nat) => decide (key ≤ a) && decide (a < key + Config.localSize)
  let fbits := (List.range (Config.localSize / 16)).filter (fun i => (Config.freeValue (s.freeCtr + n + i)).getLsbD 0)
  { s with
    mem := (s.mem.filter (fun p => decide (p.1 < key))) ++ fresh.filter (fun p => p.2 != 0) ++ s.mem.filter (fun p => decide (key + Config.localSize ≤ p.1))
    full := (s.full.filter (fun g => decide (g < key / 16))) ++ fbits.map (fun i => key / 16 + i) ++ s.full.filter (fun g => decide ((key + Config.localSize) / 16 ≤ g))
    eccOne := s.eccOne.filter (fun w => !inside (8 * w) && (8 * w < regKey k 0 || regKey (k + 1) 0 ≤ 8 * w))
    eccBad := s.eccBad.filter (fun w => !inside (8 * w) && (8 * w < regKey k 0 || regKey (k + 1) 0 ≤ 8 * w))
    freeCtr := s.freeCtr + n + Config.localSize / 16 }
/-- The supervisor of a core: a service core of port die 0 or 1, by the column of its die, numbered by the row (R288). -/
def supervisorOf (k : Nat) : Nat := Config.serviceBase + (if dieOf k % 4 < 2 then 0 else 4) + dieOf k / 4
/-- A containment begins (R372, R288): the core is sealed, its supervisor told, its record written, its tasks requeued or reported lost, its accepted commands fail. A core that holds a swap-list entry keeps its carve (R323). It restarts after the next delay, at least one cycle later. -/
def State.contain (s : State) (k : Nat) (code : Cause) (val : Word) : State :=
  let s1 := (({ s with told := s.told ++ [(supervisorOf k, k)] } : State).mapCore k (fun c => { c with sealed := true })).physLog 0 false false code 0 val 0 false 0
  let s2 := (s1.threads k).foldl (fun (s : State) p => s.loseThread k p) s1
  let c := s2.core k
  let s3 := (c.mq ++ c.redbuf).foldl (fun (s : State) m => s.matrixArrival k m (some (.remoteUnknown, m.env.serial.setWidth 64)) false) s2
  let keep := !c.swaps.isEmpty
  s3.popDelay.setCore k { Core.reset with
    copies := c.copies, sends := c.sends, swaps := c.swaps, caps := if c.cap == 0 then c.caps else (c.cap :: c.caps).take 65536
    acount := if keep then c.acount else 0, tsize := if keep then c.tsize else 0, failed := c.failed, sealed := true, freeAt := s.cycle, fenceFrom := s.cycle
    unitAt := s.cycle + 1, back := s.cycle + 1 + s3.delay }
/-- What a march test finds (R405), from three free values: which of the 12 rows of each of the 8 banks of the local store fail, and whether the register space or the operand memory does. -/
def marchOf (n : Nat) : Repair :=
  let rows := ((List.range 96).filter (fun i => (Config.freeValue (n + i / 64)).getLsbD (i % 64))).map (fun i => (i / 12, i % 12))
  ⟨rows, (Config.freeValue (n + 2)).getLsbD 0 || (List.range 8).any (fun b => decide (2 < (rows.filter (fun r => r.1 == b)).length))⟩
/-- An entry of the repair table, which lists the cores with a failure (R404, R405). -/
def repaired (l : Tab Repair) (k : Nat) (r : Repair) : Tab Repair := if r.rows.isEmpty && !r.bad then l.del k else l.put k r
/-- FENCED and REPAIRED of a boot status word, from the repair table (R406). -/
def Boot.counts (l : Tab Repair) (die : Nat) (b : Boot) : Boot :=
  let mine := l.filter (fun x => dieOf x.1 == die)
  { b with fenced := (mine.filter (fun x => x.2.bad)).length, repaired := (mine.filter (fun x => !x.2.bad)).length }
/-- The end of a containment (R288 step 5, R372): the march test, whose outcome is free values; the receipt cache is empty, RestartTime is now, and a core that passes is unsealed. -/
def State.restartCore (s : State) (k : Nat) : State :=
  let r := marchOf s.freeCtr
  let s1 := (s.mapCore k (fun c => { c with failed := r.bad, sealed := r.bad })).setOwner (.core k) ⟨[], [], s.us, s.cycle⟩
  ({ s1 with freeCtr := s.freeCtr + 3, repair := repaired s.repair k r
             boot := s.boot.zipIdx.map (fun b => if b.2 == dieOf k then b.1.counts (repaired s.repair k r) b.2 else b.1) } : State).marchStore k
/-- The first containment to end: when, and the core. -/
def State.restartDue (s : State) : Option (Nat × Nat) :=
  s.cores.foldl (fun (r : Option (Nat × Nat)) c => if !c.2.sealed || c.2.failed then r else match r with
    | some y => if c.2.back < y.1 then some (c.2.back, c.1) else r
    | none => some (c.2.back, c.1)) none
/-- An owner's restart (R266): its receipt cache is empty, RestartTime is now, and it answers FENCED until the restart ends, after the next delay. A core under containment restarts at the end of it. -/
def execOwnerRestart (o : Owner) (s : State) : Host.Outcome State Fault Refusal :=
  .next (
    let plain := s.popDelay.setOwner o ⟨[], [], s.us, s.cycle + s.delay⟩
    match o with
    | .core k => if (s.core k).sealed && !(s.core k).failed then s.restartCore k else plain
    | _ => plain)
/-- The fence count reaches 2^24. -/
def execCoreFence (k : Nat) (s : State) : Host.Outcome State Fault Refusal :=
  .next (match s.fenceAt k with
    | some t => if t ≤ s.cycle then s.contain k .fenced (BitVec.ofNat 64 (coreNumber k)) else s
    | none => s)
/-- A containment by another cause of R372: an uncorrectable error in the control state, a residue that failed twice, or service software. -/
def execCoreContainment (k : Nat) (cause : Cause) (s : State) : Host.Outcome State Fault Refusal :=
  .next (match cause with
    | .eccUncorr => s.contain k .eccUncorr 0
    | .residue => s.useFree.contain k .residue s.free
    | _ => s.contain k .fenced (BitVec.ofNat 64 (coreNumber k)))
/-- A residue mismatch of unit `u` (R373): the word or K-block is executed again, so that only the record shows; a second one contains the core. -/
def execResidueMismatch (k u : Nat) (again : Bool) (s : State) : Host.Outcome State Fault Refusal :=
  .next (
    if !s.relctl.getLsbD 1 then s
    else if again then s.contain k .residue (BitVec.ofNat 64 u)
    else s.physLog 0 false false .residue 0 (BitVec.ofNat 64 (2 ^ 63 + u)) 0 false 0)
/-- Records of the words corrected since the last step, where RELCTL asks for them (R361, R374): with the address, or 0 for register space (R350). -/
def State.flushEcc (s : State) : State :=
  let s1 : State := { s with corrected := [] }
  if s.relctl.getLsbD 2 then s.corrected.foldl (fun (s : State) w => s.physLog 0 false false .eccCorrected 0 (if 8 * w < 2 ^ 48 then BitVec.ofNat 64 (s.moduleNo * 2 ^ 44 + 8 * w) else 0) 0 false 0) s1
  else s1
/-- One pass over a channel's DRAM (R375). -/
def execScrubPass (die ch : Nat) (s : State) : Host.Outcome State Fault Refusal :=
  .next (
    if !s.relctl.getLsbD 0 then s
    else
      let mine := fun (w : Nat) => decide (8 * w < 2 ^ 44) && 8 * w / 2 ^ 40 == die && isDram (8 * w) && channelOf (8 * w) == ch
      let one := s.eccOne.filter mine
      let bad := s.eccBad.filter mine
      bad.foldl (fun (s : State) w => s.physLog 0 false false .eccUncorr 0 (BitVec.ofNat 64 (s.moduleNo * 2 ^ 44 + 8 * w)) 0 false 0)
        { s with eccOne := s.eccOne.filter (fun w => !mine w), eccCorr := min (2 ^ 32 - 1) (s.eccCorr + one.length)
                 eccUnc := min (2 ^ 32 - 1) (s.eccUnc + bad.length), corrected := s.corrected ++ one })
/-- When the next pass comes: the channels in the order of their numbers, each once in 8 hours (log 91). -/
def State.scrubAt (s : State) : Nat := (s.scrubs + 1) * Config.scrubStep

/-! ### Walks, refresh, temperature -/

/-- A walk for a core's access; its result is cached (R63, R66). -/
def execPageWalk (k : Nat) (pt va : Word) (s : State) : Host.Outcome State Fault Refusal := .next (s.fill (dieOf k) pt va.toNat)
/-- Point `p` of the refresh grid (R57): an even one refreshes every channel, an odd one those at the doubled rate. -/
def execRefreshStart (p : Nat) (s : State) : Host.Outcome State Fault Refusal :=
  .next (
    let s1 := s.at ((p + 1) * Config.refreshStep) (.refreshStart (p + 1))
    let l := if p % 2 == 0 then [] else (s.chans.filter (fun c => c.2.dbl)).map Prod.fst
    if p % 2 == 0 || !l.isEmpty then ({ s1 with refresh := some p, refreshed := l } : State).at (s.cycle + Config.refreshLength) .refreshEnd else s1)
/-- The refresh ends, and the messages that waited for it are served before all that is to come, in the order in which they came (R58, R257). -/
def execRefreshEnd (s : State) : Host.Outcome State Fault Refusal :=
  .next { s with refresh := none, queued := [], agenda := s.queued.map (fun i => (s.cycle, i)) ++ s.agenda }
/-- A channel at a sample (R57); readings are whole degrees (log 90). -/
def Chan.sample (c : Chan) : Chan := ⟨min c.sensor 255, if 85 < c.sensor then true else if c.sensor ≤ 82 then false else c.dbl, c.sensor⟩
/-- The hottest reading of the module. -/
def State.hottestSensor (s : State) : Nat := s.chans.foldl (fun n c => max n c.2.temp) (if s.chans.length < 1024 then Chan.reset.temp else 0)
/-- A thermal trip (R409): every core sealed, one record, no power on the compute dies, whose status words read TRIP (R406). -/
def State.trip (s : State) : State :=
  let s1 : State := { s with cores := s.cores.map (fun (c : Nat × Core) => (c.1, { c.2 with sealed := true })) }
  { s1.physLog 0 false false .thermalTrip 0 (BitVec.ofNat 64 s.hottestSensor) 0 false 0 with power := .tripped, boot := s.boot.map (fun b => { b with done := false, fail := 5 }) }
/-- No distributor selects, binds or steals again in this cycle: the bindings of a sample's cycle have read ALLOW as it stood before (R321). -/
def State.bindLater (s : State) : State :=
  { s with dists := s.dists.map (fun (d : Nat × Dist) => (d.1, { d.2 with
      actAt := max d.2.actAt (s.cycle + 1), queues := d.2.queues.map (fun (x : Nat × Queue) => (x.1, { x.2 with stealAt := max x.2.stealAt (s.cycle + 1) })) })) }
/-- A sample of every sensor (R57): rates and allowances follow it; from 105 °C the module trips. -/
def execTempSample (s : State) : Host.Outcome State Fault Refusal :=
  .next (
    let s1 : State := { s.bindLater with chans := s.chans.map (fun (c : Nat × Chan) => (c.1, c.2.sample)) }
    if 105 ≤ s1.hottestSensor then s1.trip else s1.at (s.cycle + Config.sampleCycles) .tempSample)

/-! ### Partition reset (R328, R381) -/

/-- The dies and queues of a guest. -/
def State.guestQueues (s : State) (guest : Nat) : List (Nat × Nat) :=
  (s.dists.map (fun (d : Nat × Dist) => (d.2.queues.filter (fun q => q.2.guest == guest)).map (fun q => (d.1, q.1)))).flatten
/-- The cores of a queue's placement rectangle. -/
def Queue.cores (x : Queue) (die : Nat) : List Nat :=
  ((List.range (x.pr * x.ch)).map (fun r => (List.range (x.pc * x.cw)).map (fun c => die * 16384 + (x.origin / 128 + r) * 128 + x.origin % 128 + c))).flatten
/-- The cores of a partition (R328): those of its queues' rectangles, and the others that hold a thread of the guest. -/
def State.partition (s : State) (guest : Nat) : List Nat :=
  let rect := ((s.guestQueues guest).map (fun p => ((s.queue p.1 p.2).map (fun x => x.cores p.1)).getD [])).flatten
  rect ++ (s.cores.filter (fun c => !rect.contains c.1 && c.2.threads.any (fun t => t.2.guest == guest))).map Prod.fst
/-- A thread killed without a record. -/
def State.killQuiet (s : State) (k : Nat) (p : Nat × Thread) : State :=
  if p.2.resumes then s.dropThread k p.1 else (s.setThread k p.1 { p.2 with unk := [] }).leaveSlot k p.1
/-- A swapped context discarded. -/
def State.discardSaved (s : State) (frame : Nat) : State :=
  match s.saved.find frame with
  | none => { s with swapUsed := s.swapUsed.filter (· != frame) }
  | some x =>
    let s1 : State := { s with saved := s.saved.del frame, swapUsed := s.swapUsed.filter (· != frame) }
    let s2 := s1.mapCore x.origin (fun c => c.freeOps (frame + 32))
    if x.thread.reqs.isEmpty && x.thread.engs.isEmpty then s2.giveStream x.thread.stream
    else { s2 with retired := (x.origin, { x.thread with unk := [], pend := [] }) :: s2.retired }
def State.clearCore (s : State) (k : Nat) : State :=
  let s1 := (s.threads k).foldl (fun (s : State) p => s.killQuiet k p) s
  let s2 := (s.core k).swaps.foldl (fun (s : State) w => s.discardSaved w.frame) s1
  (s2.mapCore k (fun c => { c with swaps := [] })).setOwner (.core k) ⟨[], [], s.us, s.cycle⟩
/-- A block appended again (R328 step 5): PRED is rewritten, and the block is read again; one that is malformed by now stays as it was recorded (log 108). -/
def State.replayBlock (s0 : State) (die q n : Nat) (b : Block) : State :=
  match (s0.writeVa die b.ptbase (b.addr.toNat + 16) (leBytes 4 b.pred)).readBlock die b.ptbase b.addr with
  | (s, l) => match s.queue die q with
    | none => s
    | some x =>
      let b1 := match l with
        | .ok l => (parseBlock x b.addr b.ptbase l).getD b
        | .error _ => b
      let st := if b.pred == 0 then 1 else 0
      let b2 := { b1 with pred := b.pred, status := st, readyAt := s.cycle, readyNo := x.readies, retiredNo := 0, ctag := none, gone := false, awaiting := x.det, heldAt := 0 }
      ((s.setQueue die q { x with lastTid := some b2.tidh, readies := x.readies + 1 }).setBlock die q n b2).blockStatus die q n st
/-- A queue after a reset: a REPLAY queue runs its interval again, any other is emptied and its blocks are recorded as lost. -/
def State.resetQueue (s : State) (die q : Nat) (x : Queue) : State :=
  let drop := fun (s : State) (t : Nat) => if s.ctagState t == CtState.live || s.ctagState t == CtState.committing then s.acceptDrop t none else s
  let s1 := ((x.blocks.filter (fun b => !b.gone)).filterMap Block.ctag).foldl drop (match (if x.replay && !x.gone then x.interval else none) with | some t => drop s t | none => s)
  match s1.queue die q with
  | none => s1
  | some y =>
    if x.replay then
      let s2 := s1.setQueue die q { y with interval := none, retryAt := none, digest := y.markDigest, lastTid := if y.blocks.isEmpty then y.lastTid else none }
      ((y.blocks.zipIdx).foldl (fun (s : State) p => s.replayBlock die q (y.base + p.2) p.1) s2).allocInterval die q
    else
      let s2 := y.blocks.foldl (fun (s : State) b => s.reportQueue die x b.tid .partitionReset 0 (BitVec.ofNat 64 x.guest)) s1
      s2.setQueue die q { y with blocks := [], base := y.base + y.blocks.length, digest := y.markDigest, retryAt := none }
/-- A killed thread that still holds its slot 2^20 cycles after the kill (R328): when, the die of its core, its guest. -/
def State.stuckKill (s : State) : Option (Nat × Nat × Nat) :=
  s.cores.foldl (fun r c => c.2.threads.foldl (fun (r : Option (Nat × Nat × Nat)) p => match p.2.kill with
    | none => r
    | some e => let x := (e.2.2 + 2 ^ 20, dieOf c.1, p.2.guest)
      match r with
      | some y => if x.1 < y.1 then some x else r
      | none => some x) r) none
def execPartitionReset (_die guest : Nat) (s : State) : Host.Outcome State Fault Refusal :=
  .next (
    let qs := s.guestQueues guest
    let s1 := (s.partition guest).foldl State.clearCore s
    let s2 := (qs.map Prod.fst).eraseDups.foldl (fun (s : State) d =>
      (s.setDist d { s.dist d with held := (s.dist d).held.filter (fun h => !qs.contains (h.die, h.q)) }).setOwner (.distributor d) ⟨[], [], s.us, s.cycle⟩) s1
    let s3 := qs.foldl (fun (s : State) p => match s.queue p.1 p.2 with | some x => s.resetQueue p.1 p.2 x | none => s) s2
    let rings := (qs.filterMap (fun p => (s3.queue p.1 p.2).map (fun x => (p.1, x.qpt, x.errq))))
    let s4 := (rings.zipIdx.filter (fun r => !(rings.take r.2).any (fun y => y.2 == r.1.2))).foldl (fun (s : State) r =>
      (s.sinkPush r.1.1 r.1.2.1 r.1.2.2 (recordBytes 0 false false Cause.partitionReset.code 0 (BitVec.ofNat 64 guest) 0 s.us)).1) s3
    s4.physLog 0 false false .partitionReset 0 (BitVec.ofNat 64 guest) guest false 0)

end Sys2Proof.Machine
end

