-- ==== Sys2Proof/Machine/Service.lean ====
section
/-! DEFINITION. CSRR and CSRW (R157 to R164), and the service registers with what a write of each does (R62, R67, R313, R362 to R365). -/
namespace Sys2Proof.Machine

/-! ### Writes of the service registers -/

def State.svcOf (s : State) (k : Nat) : Svc := (s.svc.find k).getD Svc.reset
def State.mapSvc (s : State) (k : Nat) (f : Svc → Svc) : State := { s with svc := s.svc.put k (f (s.svcOf k)) }
/-- K.PTBASE of the writer `w` of a service register, core × 16 + slot. -/
def State.writerPt (s : State) (w : Nat) : Word := ((s.thread (w / 16) (w % 16)).map Thread.ptbase).getD 0

/-- A write of K.XLINV (R67): an invalidation for the writer's ASN and GUEST starts. -/
def State.xlinvStart (s : State) (w : Nat) (v : Word) : State :=
  (({ s.mapSvc (w / 16) (fun x => { x with xlinv := v &&& 0xFFFFFFFFFFFF0002#64 }) with xlinv := s.xlinv ++ [(w / 16, v, s.writerPt w)] } : State).popDelay).at
    (s.cycle + 1 + s.delay) .xlinvComplete
def execXlinvWrite (w : Nat) (v : Word) (s : State) : Host.Outcome State Fault Refusal := .next (s.xlinvStart w v)
/-- Whether an invalidation removes a cached entry: of its guest, the page's of its ASN or global, or with ALL every one of the ASN and the guest's global ones. -/
def TlbEntry.invalidated (e : TlbEntry) (v pt : Word) : Bool :=
  e.guest == guestOf pt && (e.pte.getLsbD 7 || e.asn == bits pt 48 16) && (v.getLsbD 1 || e.va == bits v 16 48 * 65536 / 2 ^ e.shift)
/-- The oldest invalidation in progress ends: no cache holds a matching entry. -/
def execXlinvComplete (s : State) : Host.Outcome State Fault Refusal :=
  .next (match s.xlinv with
    | [] => s
    | x :: l => { s with xlinv := l, tlb := s.tlb.filter (fun e => !e.invalidated x.2.1 x.2.2) })

def State.dqloadStart (s : State) (w : Nat) (v : Word) : State :=
  let r := s.dqload (s.writerPt w) v
  r.1.mapSvc (w / 16) (fun x => { x with dqload := r.2 })
def execDqloadWrite (w : Nat) (v : Word) (s : State) : Host.Outcome State Fault Refusal := .next (s.dqloadStart w v)

/-- K.DCMD (R313): operation 0 changes the priority of a block, 1 cancels it. -/
def State.dcmdStart (s : State) (w : Nat) (cancel : Bool) (v : Word) : State :=
  let r := s.dcmd cancel v
  r.1.mapSvc (w / 16) (fun x => { x with dcmd := r.2 })
def execDcmdReprio (w : Nat) (v : Word) (s : State) : Host.Outcome State Fault Refusal := .next (s.dcmdStart w false v)
def execDcmdCancel (w : Nat) (v : Word) (s : State) : Host.Outcome State Fault Refusal := .next (s.dcmdStart w true v)

/-- K.PREEMPT and K.RESUME (R363): core, slot, frame. -/
def frameCore (v : Word) : Nat := bits v 58 4 * 16384 + bits v 44 14
def frameAddr (v : Word) : Nat := bits v 58 4 * 2 ^ 40 + bits v 6 34 * 64
/-- Whether the core and the frame named exist. -/
def frameBad (v : Word) : Bool := bits v 0 6 != 0 || decide (Config.coresPerDie ≤ bits v 44 14) || decide (Config.dramSize < bits v 6 34 * 64 + frameBytes)
/-- A write of K.PREEMPT (R363): `f` makes the request pending at the thread named. -/
def State.preemptStart (s : State) (w : Nat) (v : Word) (f : State → Nat → Nat → State) : State :=
  let k := frameCore v
  let sl := bits v 40 4
  let put := fun (s : State) (n : Nat) => s.mapSvc (w / 16) (fun x => { x with preempt := n })
  if bits v 62 2 == 3 || (bits v 62 2 == 2 && bits v 6 34 != 0) || frameBad v then put s 2
  else match s.thread k sl with
    | none => put s 1
    | some t => if t.saving.isSome || t.resumes then put s 1 else put (f s k sl) 0
/-- At a safe point: within 75,000 cycles, else forced (R366). -/
def State.preemptSafe (s : State) (w : Nat) (v : Word) : State :=
  s.preemptStart w v (fun s k sl =>
    (s.mapThread k sl (fun t => { t with preempt := some (frameAddr v, s.cycle + Config.preemptLimit) })).at (s.cycle + Config.preemptLimit) (.preemptTimeout k sl))
def execPreemptSafe (w : Nat) (v : Word) (s : State) : Host.Outcome State Fault Refusal := .next (s.preemptSafe w v)
/-- Forced at the next boundary. -/
def State.preemptForced (s : State) (w : Nat) (v : Word) : State :=
  s.preemptStart w v (fun s k sl => s.mapThread k sl (fun t => { t with forced := some (frameAddr v) }))
def execPreemptForced (w : Nat) (v : Word) (s : State) : Host.Outcome State Fault Refusal := .next (s.preemptForced w v)
/-- A kill with SERVICE_KILL; software that kills every slot of a core contains it (R372). -/
def State.preemptKill (s : State) (w : Nat) (v : Word) : State :=
  s.preemptStart w v (fun s k sl =>
    let s1 := (s.mapThread k sl (fun t => t.setKill .serviceKill 0 s.cycle)).mapCore k (fun c => { c with killed := insertNat sl c.killed })
    if (s1.core k).killed.length == 16 then
      ((s1.threads k).foldl (fun (s : State) p => s.killThread k p.1 .serviceKill 0 p.2.pc) s1).contain k .fenced (BitVec.ofNat 64 (coreNumber k))
    else s1)
def execPreemptKill (w : Nat) (v : Word) (s : State) : Host.Outcome State Fault Refusal := .next (s.preemptKill w v)

/-- A write of K.RESUME (R363, R371): the frame is checked, and the core's lowest free slot waits for its thread. -/
def State.resumeStart (s0 : State) (v : Word) : State × Nat :=
  let k := frameCore v
  let f := frameAddr v
  if bits v 62 2 != 0 || bits v 40 4 != 0 || frameBad v then (s0, 2)
  else match s0.readMem f 256 with
    | (s, none) => (s, 2)
    | (s, some _) =>
      let c := s.core k
      let st := s.frameWord f 8
      if s.frameWord f 0xF8 != 1 then (s, 2)
      else if (bits st 16 7 != 0 || bits (s.frameWord f 0xD8) 18 16 != 0 || s.frameWord f 0xD0 != 0) && bits (s.frameWord f 0xD8) 0 18 != k then (s, 3)
      else match s.freeSlot k with
        | none => (s, 1)
        | some sl =>
          if c.sealed || c.failed || c.acount != bits (s.frameWord f 0xC8) 0 3 || c.tsize != bits (s.frameWord f 0xC8) 16 16 then (s, 1)
          else (s.holdSlot k sl f, 0)
def State.resumeNow (s : State) (w : Nat) (v : Word) : State :=
  let r := s.resumeStart v; r.1.mapSvc (w / 16) (fun x => { x with resume := r.2 })
def execResumeWrite (w : Nat) (v : Word) (s : State) : Host.Outcome State Fault Refusal := .next (s.resumeNow w v)

/-! ### Collective groups (R364) -/

/-- The members of a list of `n` entries at a memory key; none when it is malformed. -/
def State.memberList (s : State) (key n : Nat) : Option (List (Nat × Nat)) :=
  let es := (List.range n).map (fun i => leWord (readBytes s.mem (key + 8 * i) 8))
  let ms := es.map (fun e => (bits e 18 20, bits e 0 18))
  if es.any (fun e => bits e 38 26 != 0 || decide (Config.coresPerDie ≤ bits e 0 14)) || !decide ms.Nodup then none else some ms
/-- The group of a descriptor; none when it is malformed. -/
def State.groupOf (s : State) (b : List Byte) : Option Group :=
  let n := field b 0 4
  let list := field b 16 8
  if n == 0 || 2 ^ 20 < n || field b 4 4 == 0 || field b 9 7 != 0 || field b 24 40 != 0 || list % 8 != 0 || moduleOf list != s.moduleNo
    || Config.dramSize < list % 2 ^ 40 + 8 * n then none
  else match (s.readMem (list % 2 ^ 44) (8 * n)).2 with
    | none => none
    | some _ => (s.memberList (list % 2 ^ 44) n).map (fun ms => ⟨field b 4 4, field b 8 1, ms⟩)
/-- A write of K.COLLCFG; one event at every collective unit of the module. -/
def State.collcfg (s : State) (remove : Bool) (v : Word) : State × Nat :=
  let g := bits v 51 12
  let key := bits v 47 4 * 2 ^ 40 + bits v 6 34 * 64
  let busy := s.insts.any (fun x => x.group == g)
  if bits v 40 7 != 0 || bits v 0 6 != 0 || (remove && bits v 6 34 != 0) then (s, 2)
  else if remove then (if busy then (s, 1) else ({ s with groups := s.groups.del g }, 0))
  else if !isDram key then (s, 2)
  else match s.readMem key 64 with
    | (s1, none) => (s1, 2)
    | (s1, some b) => match s1.groupOf b with
      | none => (s1, 2)
      | some x => if busy then (s1, 1) else ({ s1 with groups := s1.groups.put g x }, 0)
def State.collcfgStart (s : State) (w : Nat) (remove : Bool) (v : Word) : State :=
  let r := s.collcfg remove v
  r.1.mapSvc (w / 16) (fun x => { x with collcfg := r.2 })
def execCollcfgLoad (w : Nat) (v : Word) (s : State) : Host.Outcome State Fault Refusal := .next (s.collcfgStart w false v)
def execCollcfgRemove (w : Nat) (v : Word) (s : State) : Host.Outcome State Fault Refusal := .next (s.collcfgStart w true v)

/-! ### Lanes (R365) -/

/-- A write of K.XLANE: refused while the lane's queue holds an entry; a change of guest clears its table. -/
def State.xlane (s : State) (v : Word) : State × Nat :=
  let die := bits v 60 4
  let ln := bits v 54 6
  let x := s.lane die ln
  let g := if v.getLsbD 45 then some (bits v 46 8) else none
  if bits v 0 45 != 0 then (s, 2)
  else if !x.queue.isEmpty then (s, 1)
  else (s.setLane die ln { x with guest := g, table := if g.isSome && g == x.guest then x.table else none }, 0)
def State.xlaneStart (s : State) (w : Nat) (v : Word) : State :=
  let r := s.xlane v
  r.1.mapSvc (w / 16) (fun x => { x with xlane := r.2 })
def execXlaneWrite (w : Nat) (v : Word) (s : State) : Host.Outcome State Fault Refusal := .next (s.xlaneStart w v)

/-! ### Numbers and access (R157, R362) -/

/-- The registers of task level, and those of them that may be written. -/
def taskCsrs : List Nat :=
  [0, 1, 2, 3, 4, 5, 6, 0x10, 0x11, 0x12, 0x13, 0x20, 0x21, 0x30, 0x31, 0x32, 0x33, 0x34, 0x40, 0x41, 0x42, 0x43, 0x50, 0x51, 0x52,
   0x60, 0x61, 0x62, 0x63, 0x70, 0x80, 0x81, 0x90, 0xA0]
def taskWritable : List Nat := [0x10, 0x11, 0x12, 0x20, 0x30, 0x32, 0x34, 0x43, 0x70, 0xA0]
/-- The registers of service level; ECCCNT alone is read-only. -/
def serviceCsrs : List Nat := [0x800, 0x801, 0x810, 0x812, 0x820, 0x830, 0x831, 0x840, 0x850, 0x851, 0x860, 0x870]
/-- What a CSRR or CSRW is ILLEGAL for by its bits alone (R162). -/
def csrBad (service write : Bool) (n : Nat) : Bool :=
  if n < 0x800 then !taskCsrs.contains n || (write && !taskWritable.contains n)
  else service && (!serviceCsrs.contains n || (write && n == 0x831))

/-! ### Reading -/

/-- K.DTEMP (R59): doubled refresh, the hottest channel's layer, its reading; ties go to the lower layer. -/
def State.dtemp (s : State) (k : Nat) : Nat :=
  let cs := s.regionChans k
  (if s.doubled k then 2 ^ 12 else 0) + ((cs.findIdx? (fun c => c.temp == s.hottest k)).getD 0) * 2 ^ 8 + s.hottest k
/-- The value of register `n` for thread `t` in slot `sl` of core `k`. -/
def State.readCsr (s : State) (k sl : Nat) (t : Thread) (n : Nat) : Word :=
  let c := s.core k
  let w := fun (x : Nat) => BitVec.ofNat 64 x
  match n with
  | 0 => t.tid
  | 1 => w t.cnt
  | 2 => w t.cx
  | 3 => w t.cy
  | 4 => w t.cz
  | 5 => w (sl * 2 ^ 18 + coreNumber k)
  | 6 => w s.moduleNo
  | 0x10 => t.fpcsr.setWidth 64
  | 0x11 => w ((if t.det then 2 else 0) + (if t.sc then 1 else 0))
  | 0x12 => t.gsel.setWidth 64
  | 0x13 => t.pfx.setWidth 64
  | 0x20 => w t.ctag
  | 0x21 => w (s.ctagRec t.ctag).parent
  | 0x30 => t.tvec
  | 0x31 => t.tcause
  | 0x32 => t.tpc
  | 0x33 => t.tval
  | 0x34 => t.tsave
  | 0x40 => w t.hbint
  | 0x41 => w t.budget
  | 0x42 => w s.cycle
  | 0x43 => w t.synclim
  | 0x50 => t.stream.setWidth 64
  | 0x51 => t.serial.setWidth 64
  | 0x52 => t.ackw.setWidth 64
  | 0x60 => w (64 * 2 ^ 16 + sl * 0x200)
  | 0x61 => w ((match c.holder with | some h => h | none => 0x1F) * 2 ^ 8 + c.acount)
  | 0x62 => w (c.tsize * 2 ^ 16 + 0x2000 + 0x1000 * c.acount)
  | 0x63 => w (s.lanesFree k * 2 ^ 16 + t.claim)
  | 0x70 => w t.meetwin
  | 0x80 => w (s.allow k)
  | 0x81 => w (s.dtemp k)
  | 0x90 => w (s.tokbud t)
  | 0xA0 => t.dtbase
  | 0x800 => t.ptbase
  | 0x801 => (s.svcOf k).xlinv ||| (if s.xlinv.any (fun x => x.1 == k) then 1 else 0)
  | 0x810 => w (s.svcOf k).dqload
  | 0x812 => w (s.svcOf k).dcmd
  | 0x820 => s.plog
  | 0x830 => s.relctl.setWidth 64
  | 0x831 => w (s.eccUnc * 2 ^ 32 + s.eccCorr)
  | 0x840 => s.swapPool
  | 0x850 => w (s.svcOf k).preempt
  | 0x851 => w (s.svcOf k).resume
  | 0x860 => w (s.svcOf k).collcfg
  | _ => w (s.svcOf k).xlane

/-- CSRR (R161, R162); K.FPCSR is read when every pending result has landed, whatever K.MODE.SC holds (R163). -/
def execCsrr (c : Ctl) (d : Reg) (n : BitVec 12) (s : State) : Out :=
  .next (runWord (.csrr c d n) c { bad := fun _ => csrBad (isService s.k) false n.toNat, priv := decide (0x800 ≤ n.toNat) && !isService s.k, writes := if n.toNat = 0x10 then [] else [d] } (fun s t =>
    if n.toNat = 0x10 then .next (t.landAll.wr d (t.landAll.fpcsr.setWidth 64)) ((t.pend.map Pend.land).foldl max 0)
    else .next (t.wr d (s.readCsr s.k s.sl t n.toNat)) 0) s)

/-! ### Writing -/

/-- WriteK (R162): reserved bits are ignored (R5). `w` is the writer, core × 16 + slot; the numbers are those that `csrBad` lets through. -/
def State.writeService (s : State) (w n : Nat) (v : Word) : State :=
  match n with
  | 0x801 => s.xlinvStart w v
  | 0x810 => s.dqloadStart w v
  | 0x812 => if bits v 62 2 < 2 then s.dcmdStart w (bits v 62 2 == 1) v else s.mapSvc (w / 16) (fun x => { x with dcmd := 1 })
  | 0x820 => { s with plog := v &&& 0xF0000FFFFFFFFFE0#64 }
  | 0x830 => { s with relctl := v.setWidth 3 }
  | 0x840 => { s with swapPool := v &&& 0xFFFFFFFFFFFF0000#64, swapPools := s.swapPools.put (bits v 60 4) (v &&& 0xFFFFFFFFFFFF0000#64) }
  | 0x850 => if bits v 62 2 == 0 then s.preemptSafe w v else if bits v 62 2 == 1 then s.preemptForced w v else s.preemptKill w v
  | 0x851 => s.resumeNow w v
  | 0x860 => s.collcfgStart w (v.getLsbD 63) v
  | 0x870 => s.xlaneStart w v
  | _ => s
/-- The registers that belong to the thread. -/
def Thread.writeCsr (t : Thread) (n : Nat) (v : Word) : Thread :=
  match n with
  | 0x11 => { t with sc := v.getLsbD 0 }
  | 0x12 => { t with gsel := BitVec.ofNat 22 (bits v 9 13 * 512) }
  | 0x30 => { t with tvec := v &&& ~~~3#64 }
  | 0x32 => { t with tpc := v &&& ~~~3#64 }
  | 0x34 => { t with tsave := v }
  | 0x43 => { t with synclim := bits v 0 40 }
  | 0x70 => { t with meetwin := bits v 0 32 }
  | 0xA0 => { t with dtbase := v }
  | 0x800 => { t with ptbase := v &&& 0xFFFFF0FFFFFFF0FF#64 }
  | _ => t
/-- A CSRW of register `n`. K.FPCSR is written when every pending result has landed, that of the source among them (R162, R163). -/
def csrWrite (c : Ctl) (d : Reg) (n : Nat) (s : State) (t : Thread) : WordRes :=
  let v := t.rd d
  match n with
  | 0x10 =>
    let u := t.landAll
    let x := u.rd d
    if bits x 0 3 == 0 || 6 ≤ bits x 0 3 then .trap s .illegal ((encode (.csrw c d 0x010)).setWidth 64)
    else .next { u with fpcsr := x.setWidth 15 } ((t.pend.map Pend.land).foldl max 0)
  | 0x20 => canopyWord s t c 1 [v] (.ctset 0#6 v.toNat) none
  | _ => if [0x11, 0x12, 0x30, 0x32, 0x34, 0x43, 0x70, 0xA0, 0x800].contains n then .next (t.writeCsr n v) 0
    else .done (s.writeService (s.k * 16 + s.sl) n v) 0
/-- CSRW (R161, R162): the guard of a CSRW of a bad number is not read. -/
def csrwWord (c : Ctl) (d : Reg) (n : BitVec 12) (s : State) : State :=
  runWord (.csrw c d n) c { bad := fun _ => csrBad (isService s.k) true n.toNat, priv := decide (0x800 ≤ n.toNat) && !isService s.k, reads := if n.toNat = 0x10 then [] else [d] } (csrWrite c d n.toNat) s
def execCsrw (c : Ctl) (d : Reg) (n : BitVec 12) (s : State) : Out := .next (csrwWord c d n s)
/-- CSRW of K.CTAG: as CTSET, but for the old value (R69). -/
def execCtagWrite (c : Ctl) (d : Reg) (s : State) : Out := .next (csrwWord c d 0x020 s)
/-- CSRW of K.FPCSR (R160, R163). -/
def execFpcsrWrite (c : Ctl) (d : Reg) (s : State) : Out := .next (csrwWord c d 0x010 s)

end Sys2Proof.Machine
end

