-- ==== Sys2Proof/Machine/Device.lean ====
section
/-! DEFINITION. The host interfaces (R399 to R402), flash images (R403), starts of the module (R404 to R407), removal of power. -/
namespace Sys2Proof.Machine

/-! ### Host windows (R400) -/

/-- Where an access through a host window lies: none where it has no right there, or a byte that is unmapped. -/
def State.hostRange (s : State) (p addr len : Nat) (write : Bool) : Option Nat :=
  match (s.hostWin.getD p [])[addr / 2 ^ 60]? with
  | none => none
  | some w =>
    let pa := w.base * 65536 + addr % 2 ^ 60
    if w.npages * 65536 < addr % 2 ^ 60 + len || !(if write then w.wr else w.rd) || 2 ^ 64 < pa + len
      || (cutRange 65536 (len + 1) pa len).any (fun x => (firstUnmapped x.1 x.2).isSome) then none else some pa
/-- Whether the owner of the bytes answers FENCED: a sealed core, or a die that has stopped in its start (R266). -/
def State.storeSealed (s : State) (pa : Nat) : Bool :=
  !s.dieUp (pa % 2 ^ 44 / 2 ^ 40) || match windowOf pa with
  | some (k, _) => (s.core k).sealed
  | none => false
/-- The length of a host's access: the first word of an HWREAD, the data of an HWWRITE. -/
def hostLen (q : Request) : Nat := if q.typ == .hwread then (nth q.words 0).toNat else q.bytes.length
/-- An access to another module (R400): the host interface of the port asks the owners there, as a requester of its own under R267 (log 28). -/
def State.hostForward (s : State) (q : Request) (pa : Nat) : State :=
  let read := q.typ == .hwread
  let ps := cutRange 1024 (hostLen q + 1) pa (hostLen q)
  let s1 : State := { s with hosted := s.hosted ++ [⟨q, ps.zipIdx.map (fun x => (s.nextTag + x.2, x.1.1 - pa, x.1.2)), List.replicate (hostLen q) 0, none⟩] }
  ps.foldl (fun s x =>
    let r := s.chanReq (1040 + q.dst.die) (if read then .read else .write) (ownerOf x.1) (match windowOf x.1 with | some (_, o) => o | none => x.1) (if read then [BitVec.ofNat 64 x.2, BitVec.ofNat 64 x.2, 0] else [])
    (s.chanSend (1040 + q.dst.die) { r with serialed := !read, bytes := if read then [] else (q.bytes.drop (x.1 - pa)).take x.2, va := BitVec.ofNat 64 x.1 } none (fun s => (s, .later))).1) s1
/-- HWREAD at its host interface: LEN is the request's first word. -/
def State.hostRead (s : State) (q : Request) : State × Reply :=
  match s.hostRange q.dst.die q.addr (nth q.words 0).toNat false with
  | none => (s, .error .permission (BitVec.ofNat 64 q.addr))
  | some pa =>
    if moduleOf pa != s.moduleNo && hostLen q != 0 then (s.hostForward { q with typ := .hwread } pa, .later)
    else if s.storeSealed pa then (s, .fenced)
    else match s.readMem (pa % 2 ^ 44) (nth q.words 0).toNat with
      | (s1, some l) => (s1, .done (packWords l))
      | (s1, none) => (s1, .error .eccUncorr (BitVec.ofNat 64 q.addr))
/-- HWWRITE. -/
def State.hostWrite (s : State) (q : Request) : State × Reply :=
  match s.hostRange q.dst.die q.addr q.bytes.length true with
  | none => (s, .error .permission (BitVec.ofNat 64 q.addr))
  | some pa =>
    if moduleOf pa != s.moduleNo && hostLen q != 0 then (s.hostForward { q with typ := .hwwrite } pa, .later)
    else if s.storeSealed pa then (s, .fenced) else (s.writeMem (pa % 2 ^ 44) q.bytes, .done [])
/-- A request at a host interface: FENCED while the module does not run (R411). -/
def State.serveHost (s : State) (q : Request) (exe : State → State × Reply) : State :=
  if s.power != .running then s.answer q .fenced else s.serveReq q exe
def execReqHwread (m : Request) (s : State) : Host.Outcome State Fault Refusal := .next (s.serveHost { m with typ := .hwread } (fun s => s.hostRead m))
def execReqHwwrite (m : Request) (s : State) : Host.Outcome State Fault Refusal := .next (s.serveHost { m with typ := .hwwrite } (fun s => s.hostWrite m))

/-! ### HROOT (R401) -/

/-- A root task: its block is copied into DRAM of the queue's die, and submitted from there under an address of the firmware's (log 28). -/
def State.hostRoot (s : State) (q : Request) : State × Reply :=
  let die := bits (BitVec.ofNat 64 q.addr) 6 4
  let n := bits (BitVec.ofNat 64 q.addr) 0 6
  if q.addr / 2 ^ 10 != 0 then (s, .error .taskArg (BitVec.ofNat 64 q.addr))
  else match s.queue die n with
    | none => (s, .error .permission (BitVec.ofNat 64 q.addr))
    | some x =>
      if !Config.hostGuest q.dst.die x.guest then (s, .error .permission (BitVec.ofNat 64 q.addr))
      else if !s.dieUp die then (s, .fenced)
      else
        let l := q.bytes.take 64
        let va := s.free &&& 0x000FFFFFFFFFFFC0#64
        let pt := ((Config.firmwareSpace s.freeCtr &&& ~~~0xFF#64) ||| BitVec.ofNat 64 x.guest) &&& 0xFFFFF0FFFFFFF0FF#64
        let s1 := s.useFree.writeMem (die * 2 ^ 40 + (Config.firmwareArea s.freeCtr).toNat % (Config.dramSize / 64) * 64) l
        if !x.en || x.blocks.length ≥ x.ringN then (s1, .done [0])
        else match parseBlock x va pt l with
          | none => (if badView l then s1.report (s1.viewEnv die x pt l) false false .view 0 va else s1, .done [BitVec.ofNat 64 (2 ^ 63)])
          | some b => (s1.appendBlock die n x b, .done [1])
def execReqHroot (m : Request) (s : State) : Host.Outcome State Fault Refusal := .next (s.serveHost m (fun s => s.hostRoot m))

/-! ### HMGMT (R402) -/

/-- A boot status word (R406). -/
def Boot.word (b : Boot) : Word :=
  BitVec.ofNat 64 ((if b.done then 2 ^ 63 else 0) + (if b.warm then 2 ^ 62 else 0) + b.dram * 2 ^ 58 + b.bridge * 2 ^ 54 + b.fenced * 2 ^ 40
    + b.repaired * 2 ^ 26 + b.fail)
/-- The TEMP readings of every channel, 64 bytes a die. -/
def State.sensors (s : State) : List Byte := (List.range 16).flatMap (fun d => (List.range 64).map (fun c => BitVec.ofNat 8 (s.chan d c).temp))
/-- A management operation with its code; a request that carries another is answered REMOTE_ARG. -/
def State.hmgmt (s : State) (q : Request) (code : Nat) (op : State → State × Reply) : State :=
  s.serveReq q (fun s => if q.f == code then op s else (s, .error .remoteArg (BitVec.ofNat 64 q.f)))
def execHmgmtReadStatus (m : Request) (s : State) : Host.Outcome State Fault Refusal :=
  .next (s.hmgmt m 0 (fun s => (s, .done (s.boot.map Boot.word ++ s.portStatus))))
def execHmgmtReadSensors (m : Request) (s : State) : Host.Outcome State Fault Refusal :=
  .next (s.hmgmt m 1 (fun s => (s, .done (packWords s.sensors))))
/-- When a start that a request asks for begins: in a later microsecond than the request's SENT, so that a copy of it meets a later RestartTime (R402, log 64). -/
def State.startTime (s : State) (m : Request) : Nat := s.cycle + (max s.us (min m.sent (s.us + 100)) + 1 - s.us) * Config.usCycles
def execHmgmtWarmStart (m : Request) (s : State) : Host.Outcome State Fault Refusal :=
  .next (s.hmgmt m 2 (fun s => (s.at (s.startTime m) .warmStart, .done [])))
def execHmgmtColdStart (m : Request) (s : State) : Host.Outcome State Fault Refusal :=
  .next (s.hmgmt m 3 (fun s => (s.at (s.startTime m) .coldStart, .done [])))
def execHmgmtSetEventPush (m : Request) (s : State) : Host.Outcome State Fault Refusal :=
  .next (s.hmgmt m 4 (fun s => ({ s with eventPush := s.eventPush.set m.dst.die (m.bytes.headD 0 == 1) }, .done [])))

/-! ### Firmware images (R403) -/

/-- Bytes of a flash device. -/
def Flash.read (x : Flash) (a n : Nat) : List Byte := (List.range n).map (fun i => (x.bytes.find (a + i)).getD 0xFF)
/-- The version of the image in a slot; none where it is not valid. -/
def Flash.version (x : Flash) (slot : Nat) : Option Nat :=
  let h := x.read slot 64
  let len := field h 8 4
  if field h 0 4 != 0x4E445831 || field h 16 48 != 0 || (crc32c (x.read (slot + 64) len)).toNat != field h 12 4 then none
  else some (field h 4 4)
/-- The slot firmware runs: of the valid ones the higher version, slot 0 on equal versions. -/
def Flash.choice (x : Flash) : Option Nat :=
  match x.version 0, x.version (x.size / 2) with
  | some a, some b => if a < b then some 1 else some 0
  | some _, none => some 0
  | none, some _ => some 1
  | none, none => none

/-! ### Starts (R404, R407) -/

/-- Starts, and the removal of power. -/
def Instr.isStart : Instr → Bool
  | .coldStart | .warmStart | .powerRemoval => true
  | _ => false
/-- Requests of hosts. -/
def hostReq : Instr → Option Request
  | .hmgmtReadStatus m | .hmgmtReadSensors m | .hmgmtWarmStart m | .hmgmtColdStart m | .hmgmtSetEventPush m | .reqHwread m | .reqHwwrite m | .reqHroot m => some m
  | _ => none
/-- What is on its way to the module from outside, and the starts that stand to come: no start takes it away. Its times count from now. -/
def State.coming (s : State) : List (Nat × Instr) :=
  (s.agenda.filter (fun e => Instr.isStart e.2 || (hostReq e.2).isSome || (match messageOf e.2 with | some m => m.src.module != s.moduleNo | none => false)
    || (match answerRoute e.2 with | some r => r.1.module != s.moduleNo | none => false))).map (fun e => (e.1 - s.cycle, e.2))
/-- What no start takes away: identity, clock, flash with the stored training and the repair table, sensors, cores that failed the march test, messages on their way and what comes from outside, and the model's own counters. -/
def State.kept (s : State) (base : State) : State :=
  (s.coming.foldl (fun b e => b.at e.1 e.2) { base with
    moduleNo := s.moduleNo, timeBase := s.us, flash := s.flash, train := s.train, repair := s.repair, started := s.us
    chans := s.chans.map (fun (c : Nat × Chan) => (c.1, ⟨min c.2.sensor 255, false, c.2.sensor⟩))
    cores := (s.repair.filter (fun c => c.2.bad)).map (fun c => (c.1, { Core.reset with failed := true, sealed := true }))
    inputs := s.inputs.map (fun e => (e.1 - s.cycle, e.2))
    outbox := s.outbox, hevents := s.hevents, transit := s.transit, freeCtr := s.freeCtr, nextTag := s.nextTag })
/-- A boot status word of a die that has not started. -/
def Boot.none : Boot := ⟨false, false, 0, 0, 0, 0, 0⟩
/-- The module without its own agenda, as a start or the removal of power leaves it. -/
def State.cleared (s : State) : State := { s.kept { State.reset with agenda := [] } with boot := List.replicate 16 Boot.none }
/-- A step of a start takes startCycles and the next delay (log 64). -/
def State.startNext (s : State) (warm : Bool) (step : Nat) : State := { s.popDelay with power := .starting warm step (s.cycle + Config.startCycles + s.delay) }
/-- A start begins: step 1 of R404, or step 2 where it is warm. -/
def State.startBegin (s : State) (warm : Bool) (cold warms : Nat) : State :=
  ({ s.cleared with coldFails := cold, warmFails := warms } : State).startNext warm (if warm then 2 else 1)
/-- A step that fails on a die records its code there and stops it (R404, R406). -/
def failDies (code : Nat) (bad : Nat → Boot → Bool) (l : List Boot) : List Boot :=
  l.zipIdx.map (fun x => if x.1.fail == 0 && bad x.2 x.1 then { x.1 with fail := code } else x.1)
/-- Whether something that only the part can tell fails in this step: the `i`th free value of it (log 64). -/
def State.defect (s : State) (i : Nat) : Bool := (Config.freeValue (s.freeCtr + i)).getLsbD 0
def State.drawn (s : State) (n : Nat) : State := { s with freeCtr := s.freeCtr + n }
/-- Step 1: the power of each compute die. -/
def State.startPower (s : State) : State := { s.drawn 16 with boot := failDies 2 (fun d _ => s.defect d) s.boot }
/-- Step 2: a port die without a valid image stays halted, and its status word reads NOIMAGE, bit 0 (R403); with no port die nothing starts. -/
def State.startFirmware (s : State) : State :=
  { s with
    portStatus := s.flash.map (fun x => if x.choice.isNone then 1 else 0)
    boot := if s.flash.all (fun x => x.choice.isNone) then failDies 1 (fun _ _ => true) s.boot else s.boot }
/-- The present reading of a DRAM layer: the hottest of its 16 channels. -/
def State.layerTemp (s : State) (die layer : Nat) : Nat := (List.range 16).foldl (fun n r => max n (s.chan die (16 * layer + r)).sensor) 0
/-- The stored training of a layer that step 3 need not take again: of a warm start, within 10 °C of the present reading (R407). -/
def State.keptTraining (s : State) (warm : Bool) (i : Nat) : Option Nat :=
  let now := s.layerTemp (i / 4) (i % 4)
  (if warm then s.train.find i else none).filter (fun old => decide (now ≤ old + 10) && decide (old ≤ now + 10))
/-- Step 3: the training of the layers, each stored with its temperature. -/
def State.startDram (s : State) (warm : Bool) : State :=
  let runs := fun (d : Nat) => ((s.boot[d]?).map (fun b => b.fail == 0)).getD false
  let layer := fun (i : Nat) => if !runs (i / 4) then s.train.find i else match s.keptTraining warm i with
    | some old => some old
    | none => if s.defect i then none else some (s.layerTemp (i / 4) (i % 4))
  let trained := fun (d : Nat) => (List.range 4).foldl (fun n l => if runs d && (layer (4 * d + l)).isSome then n + 2 ^ l else n) 0
  { s.drawn 64 with
    train := (List.range 64).filterMap (fun i => (layer i).map (fun t => (i, t)))
    boot := failDies 3 (fun _ b => b.dram != 15) (s.boot.zipIdx.map (fun x => { x.1 with dram := trained x.2 })) }
/-- The bridge of a die to the north, east, south or west (0 to 3), numbered once for both its ends: east and south bridges of a die, then the west bridges of column 0 to the port die. -/
def bridgeOf (die side : Nat) : Nat :=
  match side with
  | 0 => 2 * (die - 4) + 1
  | 1 => 2 * die
  | 2 => 2 * die + 1
  | _ => if die % 4 == 0 then 32 + die / 4 else 2 * (die - 1)
/-- Whether a die has a bridge on a side. -/
def hasBridge (die side : Nat) : Bool := (Boot.started false die).bridge / 2 ^ side % 2 == 1
/-- Step 4: the bridges of the dies; then the Ethernet ports, of which one that fails is left down and marked in its port die's status word, in bit 8 + port. -/
def State.startLinks (s : State) : State :=
  let trained := fun (d : Nat) => (List.range 4).foldl (fun n i => if hasBridge d i && !s.defect (bridgeOf d i) then n + 2 ^ i else n) 0
  let down := fun (p : Nat) => (List.range Config.etherPorts).foldl (fun n i => if s.defect (36 + Config.etherPorts * p + i) then n + 2 ^ (8 + i) else n) 0
  { s.drawn (36 + 2 * Config.etherPorts) with
    boot := failDies 4 (fun d b => b.bridge != (Boot.started false d).bridge) (s.boot.zipIdx.map (fun x => if x.1.fail == 0 then { x.1 with bridge := trained x.2 } else x.1))
    portStatus := s.portStatus.zipIdx.map (fun x => x.1 + BitVec.ofNat 64 (down x.2)) }
/-- Steps 5 and 6 of a cold start: the march test of every core, and the repair table (R405). -/
def State.startMarch (s : State) : State :=
  let n := Config.coresPerDie
  { s.drawn (48 * n) with
    repair := ((List.range (16 * n)).map (fun i => (i / n * 16384 + i % n, marchOf (s.freeCtr + 3 * i)))).filter (fun x => !x.2.rows.isEmpty || x.2.bad) }
/-- Step 8: the boot status words, and the distributors (R404). Where no compute die has come so far, the start has failed (log 64). -/
def State.startOk (s : State) (warm : Bool) : State :=
  { s.kept State.reset with
    started := s.started, hostWin := s.hostWin, portStatus := s.portStatus
    boot := s.boot.zipIdx.map (fun x => if x.1.fail == 0 then { x.1.counts s.repair x.2 with done := true, warm := warm } else x.1) }
/-- A start that has failed (R407): two warm ones in a row force a cold one, three cold ones leave the module halted, and any other is tried again. -/
def State.startFailed (s : State) (warm : Bool) : State :=
  if warm then (if s.warmFails + 1 < 2 then s.startBegin true 0 (s.warmFails + 1) else s.startBegin false 0 0)
  else if s.coldFails + 1 < 3 then s.startBegin false (s.coldFails + 1) 0
  else { s with coldFails := 3, power := .halted }
/-- What a step of a start does at its end. -/
def State.startDo (s : State) (warm : Bool) (step : Nat) : State :=
  match step with
  | 1 => s.startPower.startNext warm 2
  | 2 => s.startFirmware.startNext warm 3
  | 3 => (s.startDram warm).startNext warm 4
  | 4 => s.startLinks.startNext warm (if warm then 7 else 5)
  | 5 => s.startMarch.startNext warm 7
  | _ => if s.boot.any (fun b => b.fail == 0) then s.startOk warm else s.startFailed warm
/-- A step of a start ends. A sensor that has reached 105 °C trips the module in it (R409, R411). -/
def State.startStep (s : State) (warm : Bool) (step : Nat) : State :=
  let s1 : State := { s with chans := s.chans.map (fun (c : Nat × Chan) => (c.1, c.2.sample)) }
  if 105 ≤ s1.hottestSensor then s1.trip else s1.startDo warm step
/-- A cold start begins (R404), but in a module that is halted until its power is removed (R407). -/
def execColdStart (s : State) : Host.Outcome State Fault Refusal := .next (if s.power == .halted then s else s.startBegin false s.coldFails 0)
/-- A warm start begins (R407); after a thermal trip (R409) and without power the start is cold. -/
def execWarmStart (s : State) : Host.Outcome State Fault Refusal :=
  .next (match s.power with
    | .halted => s
    | .tripped | .off => s.startBegin false s.coldFails 0
    | _ => s.startBegin true 0 s.warmFails)
/-- Power is removed: nothing volatile is left; a later power-up starts cold. -/
def execPowerRemoval (s : State) : Host.Outcome State Fault Refusal := .next { s.cleared with power := .off }

end Sys2Proof.Machine
end

