-- ==== Sys2Proof/Machine/Dispatch.lean ====
section
/-! DEFINITION. exec: one arm for every row of spec/opcode_table.json. -/
namespace Sys2Proof.Machine

def exec (i : Instr) (s : State) : Host.Outcome State Fault Refusal :=
  match i with
  | .add c d a b => Sys2Proof.Machine.execAdd c d a b s
  | .sub c d a b => Sys2Proof.Machine.execSub c d a b s
  | .and c d a b => Sys2Proof.Machine.execAnd c d a b s
  | .or c d a b => Sys2Proof.Machine.execOr c d a b s
  | .xor c d a b => Sys2Proof.Machine.execXor c d a b s
  | .shl c d a b => Sys2Proof.Machine.execShl c d a b s
  | .shr c d a b => Sys2Proof.Machine.execShr c d a b s
  | .sra c d a b => Sys2Proof.Machine.execSra c d a b s
  | .mul c d a b => Sys2Proof.Machine.execMul c d a b s
  | .mulh c d a b => Sys2Proof.Machine.execMulh c d a b s
  | .mulhu c d a b => Sys2Proof.Machine.execMulhu c d a b s
  | .div c d a b => Sys2Proof.Machine.execDiv c d a b s
  | .divu c d a b => Sys2Proof.Machine.execDivu c d a b s
  | .rem c d a b => Sys2Proof.Machine.execRem c d a b s
  | .remu c d a b => Sys2Proof.Machine.execRemu c d a b s
  | .min_ c d a b => Sys2Proof.Machine.execMin c d a b s
  | .max_ c d a b => Sys2Proof.Machine.execMax c d a b s
  | .minu c d a b => Sys2Proof.Machine.execMinu c d a b s
  | .maxu c d a b => Sys2Proof.Machine.execMaxu c d a b s
  | .rol c d a b => Sys2Proof.Machine.execRol c d a b s
  | .ror c d a b => Sys2Proof.Machine.execRor c d a b s
  | .clz c d a => Sys2Proof.Machine.execClz c d a s
  | .popc c d a => Sys2Proof.Machine.execPopc c d a s
  | .cmp c cc d a b => Sys2Proof.Machine.execCmp c cc d a b s
  | .bset c d a b => Sys2Proof.Machine.execBset c d a b s
  | .bclr c d a b => Sys2Proof.Machine.execBclr c d a b s
  | .binv c d a b => Sys2Proof.Machine.execBinv c d a b s
  | .bext c d a b => Sys2Proof.Machine.execBext c d a b s
  | .sel c d a b => Sys2Proof.Machine.execSel c d a b s
  | .crnd c d a b => Sys2Proof.Machine.execCrnd c d a b s
  | .addi c d a imm => Sys2Proof.Machine.execAddi c d a imm s
  | .andi c d a imm => Sys2Proof.Machine.execAndi c d a imm s
  | .ori c d a imm => Sys2Proof.Machine.execOri c d a imm s
  | .xori c d a imm => Sys2Proof.Machine.execXori c d a imm s
  | .shli c d a imm => Sys2Proof.Machine.execShli c d a imm s
  | .shri c d a imm => Sys2Proof.Machine.execShri c d a imm s
  | .srai c d a imm => Sys2Proof.Machine.execSrai c d a imm s
  | .movi c d imm => Sys2Proof.Machine.execMovi c d imm s
  | .movs c d imm => Sys2Proof.Machine.execMovs c d imm s
  | .gaddr c d a t => Sys2Proof.Machine.execGaddr c d a t s
  | .fadd c fmt d a b => Sys2Proof.Machine.execFadd c fmt d a b s
  | .fsub c fmt d a b => Sys2Proof.Machine.execFsub c fmt d a b s
  | .fmul c fmt d a b => Sys2Proof.Machine.execFmul c fmt d a b s
  | .fdiv c fmt d a b => Sys2Proof.Machine.execFdiv c fmt d a b s
  | .fma c fmt d a b => Sys2Proof.Machine.execFma c fmt d a b s
  | .fmin c fmt d a b => Sys2Proof.Machine.execFmin c fmt d a b s
  | .fmax c fmt d a b => Sys2Proof.Machine.execFmax c fmt d a b s
  | .fsqrt c fmt d a => Sys2Proof.Machine.execFsqrt c fmt d a s
  | .fcmpD c cc d a b => Sys2Proof.Machine.execFcmpD c cc d a b s
  | .fcmpS c cc d a b => Sys2Proof.Machine.execFcmpS c cc d a b s
  | .fcvt c src rnd dst d a => Sys2Proof.Machine.execFcvt c src rnd dst d a s
  | .fclass c fmt d a => Sys2Proof.Machine.execFclass c fmt d a s
  | .vadd c q vd va vb => Sys2Proof.Machine.execVadd c q vd va vb s
  | .vsub c q vd va vb => Sys2Proof.Machine.execVsub c q vd va vb s
  | .vmul c q vd va vb => Sys2Proof.Machine.execVmul c q vd va vb s
  | .vfma c q vd va vb => Sys2Proof.Machine.execVfma c q vd va vb s
  | .vdiv c q vd va vb => Sys2Proof.Machine.execVdiv c q vd va vb s
  | .vsqrt c clip m vd va => Sys2Proof.Machine.execVsqrt c clip m vd va s
  | .vmin c q vd va vb => Sys2Proof.Machine.execVmin c q vd va vb s
  | .vmax c q vd va vb => Sys2Proof.Machine.execVmax c q vd va vb s
  | .vabs c clip m vd va => Sys2Proof.Machine.execVabs c clip m vd va s
  | .vneg c clip m vd va => Sys2Proof.Machine.execVneg c clip m vd va s
  | .vand c q vd va vb => Sys2Proof.Machine.execVand c q vd va vb s
  | .vor c q vd va vb => Sys2Proof.Machine.execVor c q vd va vb s
  | .vxor c q vd va vb => Sys2Proof.Machine.execVxor c q vd va vb s
  | .vshl c q vd va vb => Sys2Proof.Machine.execVshl c q vd va vb s
  | .vshr c q vd va vb => Sys2Proof.Machine.execVshr c q vd va vb s
  | .vsra c q vd va vb => Sys2Proof.Machine.execVsra c q vd va vb s
  | .vcmpeq c q vd va vb => Sys2Proof.Machine.execVcmpeq c q vd va vb s
  | .vcmpne c q vd va vb => Sys2Proof.Machine.execVcmpne c q vd va vb s
  | .vcmplt c q vd va vb => Sys2Proof.Machine.execVcmplt c q vd va vb s
  | .vcmple c q vd va vb => Sys2Proof.Machine.execVcmple c q vd va vb s
  | .vsel c clip vd va vb => Sys2Proof.Machine.execVsel c clip vd va vb s
  | .vmov c clip m vd va => Sys2Proof.Machine.execVmov c clip m vd va s
  | .vrco c k vd va vb => Sys2Proof.Machine.execVrco c k vd va vb s
  | .vruns c vd va => Sys2Proof.Machine.execVruns c vd va s
  | .vlen c vd va => Sys2Proof.Machine.execVlen c vd va s
  | .vsetlen c clip vd va vb => Sys2Proof.Machine.execVsetlen c clip vd va vb s
  | .vsplat c vd va vb => Sys2Proof.Machine.execVsplat c vd va vb s
  | .vrsum c m vd va => Sys2Proof.Machine.execVrsum c m vd va s
  | .vrsumsq c m vd va => Sys2Proof.Machine.execVrsumsq c m vd va s
  | .vrmax c m vd va => Sys2Proof.Machine.execVrmax c m vd va s
  | .vrmin c m vd va => Sys2Proof.Machine.execVrmin c m vd va s
  | .vrcnt c m vd va => Sys2Proof.Machine.execVrcnt c m vd va s
  | .vamax c m vd va => Sys2Proof.Machine.execVamax c m vd va s
  | .velem c vd va vb => Sys2Proof.Machine.execVelem c vd va vb s
  | .vcat c clip vd va vb => Sys2Proof.Machine.execVcat c clip vd va vb s
  | .vcvt c vd va fmt rnd sat => Sys2Proof.Machine.execVcvt c vd va fmt rnd sat s
  | .vld c vd base count fmt => Sys2Proof.Machine.execVld c vd base count fmt s
  | .vst c vd base count fmt => Sys2Proof.Machine.execVst c vd base count fmt s
  | .vclaim c d a => Sys2Proof.Machine.execVclaim c d a s
  | .vrels c => Sys2Proof.Machine.execVrels c s
  | .vqry c d a => Sys2Proof.Machine.execVqry c d a s
  | .vqnt c vd va fmt rnd sat sc => Sys2Proof.Machine.execVqnt c vd va fmt rnd sat sc s
  | .ldb c d base off => Sys2Proof.Machine.execLdb c d base off s
  | .ldbu c d base off => Sys2Proof.Machine.execLdbu c d base off s
  | .ldh c d base off => Sys2Proof.Machine.execLdh c d base off s
  | .ldhu c d base off => Sys2Proof.Machine.execLdhu c d base off s
  | .ldw c d base off => Sys2Proof.Machine.execLdw c d base off s
  | .ldwu c d base off => Sys2Proof.Machine.execLdwu c d base off s
  | .ldd c d base off => Sys2Proof.Machine.execLdd c d base off s
  | .ldq c d base off => Sys2Proof.Machine.execLdq c d base off s
  | .stb c d base off => Sys2Proof.Machine.execStb c d base off s
  | .sth c d base off => Sys2Proof.Machine.execSth c d base off s
  | .stw c d base off => Sys2Proof.Machine.execStw c d base off s
  | .std c d base off => Sys2Proof.Machine.execStd c d base off s
  | .stq c d base off => Sys2Proof.Machine.execStq c d base off s
  | .lds c sz d base off => Sys2Proof.Machine.execLds c sz d base off s
  | .ldsC c sz d base off => Sys2Proof.Machine.execLdsC c sz d base off s
  | .sts c sz d base off => Sys2Proof.Machine.execSts c sz d base off s
  | .aadd c w4 d a b => Sys2Proof.Machine.execAadd c w4 d a b s
  | .amin c w4 d a b => Sys2Proof.Machine.execAmin c w4 d a b s
  | .amax c w4 d a b => Sys2Proof.Machine.execAmax c w4 d a b s
  | .aand c w4 d a b => Sys2Proof.Machine.execAand c w4 d a b s
  | .aor c w4 d a b => Sys2Proof.Machine.execAor c w4 d a b s
  | .axor c w4 d a b => Sys2Proof.Machine.execAxor c w4 d a b s
  | .aswp c w4 d a b => Sys2Proof.Machine.execAswp c w4 d a b s
  | .acas c w4 d a b => Sys2Proof.Machine.execAcas c w4 d a b s
  | .lkp c d a => Sys2Proof.Machine.execLkp c d a s
  | .dset c d a b => Sys2Proof.Machine.execDset c d a b s
  | .dclr c a => Sys2Proof.Machine.execDclr c a s
  | .dinv c d a b => Sys2Proof.Machine.execDinv c d a b s
  | .feset c a => Sys2Proof.Machine.execFeset c a s
  | .feclr c a => Sys2Proof.Machine.execFeclr c a s
  | .fetest c d a => Sys2Proof.Machine.execFetest c d a s
  | .waitf c a => Sys2Proof.Machine.execWaitf c a s
  | .waitfE c a => Sys2Proof.Machine.execWaitfE c a s
  | .fenceAcq c scope => Sys2Proof.Machine.execFenceAcq c scope s
  | .fenceRel c scope => Sys2Proof.Machine.execFenceRel c scope s
  | .fenceFull c scope => Sys2Proof.Machine.execFenceFull c scope s
  | .fenceEngine c => Sys2Proof.Machine.execFenceEngine c s
  | .ctalloc c d a b => Sys2Proof.Machine.execCtalloc c d a b s
  | .ctset c d a => Sys2Proof.Machine.execCtset c d a s
  | .ctcommit c a b => Sys2Proof.Machine.execCtcommit c a b s
  | .ctdrop c a b => Sys2Proof.Machine.execCtdrop c a b s
  | .ctstat c d a => Sys2Proof.Machine.execCtstat c d a s
  | .ldx c d a b => Sys2Proof.Machine.execLdx c d a b s
  | .cpy c d a r => Sys2Proof.Machine.execCpy c d a r s
  | .cpy2 c d a r => Sys2Proof.Machine.execCpy2 c d a r s
  | .gath c d a n => Sys2Proof.Machine.execGath c d a n s
  | .scat c d a => Sys2Proof.Machine.execScat c d a s
  | .cpyx c d a n => Sys2Proof.Machine.execCpyx c d a n s
  | .cstat c d => Sys2Proof.Machine.execCstat c d s
  | .cstatHandle c d a => Sys2Proof.Machine.execCstatHandle c d a s
  | .oclaim c d a => Sys2Proof.Machine.execOclaim c d a s
  | .orels c a => Sys2Proof.Machine.execOrels c a s
  | .mcap c d => Sys2Proof.Machine.execMcap c d s
  | .mma c a => Sys2Proof.Machine.execMma c a s
  | .mred c a => Sys2Proof.Machine.execMred c a s
  | .mdrain c a => Sys2Proof.Machine.execMdrain c a s
  | .mdrainScaled c a => Sys2Proof.Machine.execMdrainScaled c a s
  | .cbload c a => Sys2Proof.Machine.execCbload c a s
  | .mfill c a => Sys2Proof.Machine.execMfill c a s
  | .coll c d a => Sys2Proof.Machine.execColl c d a s
  | .rsync c => Sys2Proof.Machine.execRsync c s
  | .rstat c d a => Sys2Proof.Machine.execRstat c d a s
  | .xtab c d a => Sys2Proof.Machine.execXtab c d a s
  | .xstart c d a => Sys2Proof.Machine.execXstart c d a s
  | .xstat c d a => Sys2Proof.Machine.execXstat c d a s
  | .br c off => Sys2Proof.Machine.execBr c off s
  | .brl c off => Sys2Proof.Machine.execBrl c off s
  | .jr c a => Sys2Proof.Machine.execJr c a s
  | .jrl c a => Sys2Proof.Machine.execJrl c a s
  | .tend c => Sys2Proof.Machine.execTend c s
  | .spawn c d a n => Sys2Proof.Machine.execSpawn c d a n s
  | .meet c d a => Sys2Proof.Machine.execMeet c d a s
  | .meetq c d a => Sys2Proof.Machine.execMeetq c d a s
  | .glaunch c d a => Sys2Proof.Machine.execGlaunch c d a s
  | .yield c => Sys2Proof.Machine.execYield c s
  | .yieldFor c a => Sys2Proof.Machine.execYieldFor c a s
  | .hbeat c => Sys2Proof.Machine.execHbeat c s
  | .trap c b => Sys2Proof.Machine.execTrap c b s
  | .rft c => Sys2Proof.Machine.execRft c s
  | .csrr c d n => Sys2Proof.Machine.execCsrr c d n s
  | .csrw c d n => Sys2Proof.Machine.execCsrw c d n s
  | .noph => Sys2Proof.Machine.execNoph s
  | .imm p => Sys2Proof.Machine.execImm p s
  | .guard r bit sense => Sys2Proof.Machine.execGuard r bit sense s
  | .live p => Sys2Proof.Machine.execLive p s
  | .rmode rm => Sys2Proof.Machine.execRmode rm s
  | .stallx n => Sys2Proof.Machine.execStallx n s
  | .longResultLand k sl => Sys2Proof.Machine.execLongResultLand k sl s
  | .syncTimeout k sl => Sys2Proof.Machine.execSyncTimeout k sl s
  | .yieldExpire k sl => Sys2Proof.Machine.execYieldExpire k sl s
  | .meetRelease k x => Sys2Proof.Machine.execMeetRelease k x s
  | .meetDetTimeout k x => Sys2Proof.Machine.execMeetDetTimeout k x s
  | .preemptTimeout k sl => Sys2Proof.Machine.execPreemptTimeout k sl s
  | .saveComplete k sl => Sys2Proof.Machine.execSaveComplete k sl s
  | .swapResume k x => Sys2Proof.Machine.execSwapResume k x s
  | .reqRead m => Sys2Proof.Machine.execReqRead m s
  | .reqWrite m => Sys2Proof.Machine.execReqWrite m s
  | .reqLds m => Sys2Proof.Machine.execReqLds m s
  | .reqLdsc m => Sys2Proof.Machine.execReqLdsc m s
  | .reqSts m => Sys2Proof.Machine.execReqSts m s
  | .reqFebit m => Sys2Proof.Machine.execReqFebit m s
  | .reqFetest m => Sys2Proof.Machine.execReqFetest m s
  | .reqWaitf m => Sys2Proof.Machine.execReqWaitf m s
  | .reqAtomic m => Sys2Proof.Machine.execReqAtomic m s
  | .reqSpawn m => Sys2Proof.Machine.execReqSpawn m s
  | .reqGlaunch m => Sys2Proof.Machine.execReqGlaunch m s
  | .reqSuccdec m => Sys2Proof.Machine.execReqSuccdec m s
  | .reqReady m => Sys2Proof.Machine.execReqReady m s
  | .reqMma m => Sys2Proof.Machine.execReqMma m s
  | .reqMred m => Sys2Proof.Machine.execReqMred m s
  | .reqCollc m => Sys2Proof.Machine.execReqCollc m s
  | .collInstanceTimeout g inst => Sys2Proof.Machine.execCollInstanceTimeout g inst s
  | .reqCanopy m => Sys2Proof.Machine.execReqCanopy m s
  | .reqXducer m => Sys2Proof.Machine.execReqXducer m s
  | .reqCancel m => Sys2Proof.Machine.execReqCancel m s
  | .ansDone a => Sys2Proof.Machine.execAnsDone a s
  | .ansWaiting a => Sys2Proof.Machine.execAnsWaiting a s
  | .ansRetry a => Sys2Proof.Machine.execAnsRetry a s
  | .ansBusy a => Sys2Proof.Machine.execAnsBusy a s
  | .ansStale a => Sys2Proof.Machine.execAnsStale a s
  | .ansUnknownOutcome a => Sys2Proof.Machine.execAnsUnknownOutcome a s
  | .ansCancelled a => Sys2Proof.Machine.execAnsCancelled a s
  | .ansError cause a => Sys2Proof.Machine.execAnsError cause a s
  | .ansFenced a => Sys2Proof.Machine.execAnsFenced a s
  | .requestRetransmit tag => Sys2Proof.Machine.execRequestRetransmit tag s
  | .backoffResend tag => Sys2Proof.Machine.execBackoffResend tag s
  | .requestGiveUp tag => Sys2Proof.Machine.execRequestGiveUp tag s
  | .receiptExpiry o => Sys2Proof.Machine.execReceiptExpiry o s
  | .dramAccessComplete k tag => Sys2Proof.Machine.execDramAccessComplete k tag s
  | .refreshStart p => Sys2Proof.Machine.execRefreshStart p s
  | .completionArrival x => Sys2Proof.Machine.execCompletionArrival x s
  | .xducerTableLoad die ln => Sys2Proof.Machine.execXducerTableLoad die ln s
  | .xducerJob die ln => Sys2Proof.Machine.execXducerJob die ln s
  | .mmaStart k => Sys2Proof.Machine.execMmaStart k s
  | .mmaFinish k => Sys2Proof.Machine.execMmaFinish k s
  | .operandForward k => Sys2Proof.Machine.execOperandForward k s
  | .matrixHeadTimeout k => Sys2Proof.Machine.execMatrixHeadTimeout k s
  | .matrixAcceptTimeout tag => Sys2Proof.Machine.execMatrixAcceptTimeout tag s
  | .canopyCommit t => Sys2Proof.Machine.execCanopyCommit t s
  | .canopyDrop t => Sys2Proof.Machine.execCanopyDrop t s
  | .distributorSelect die => Sys2Proof.Machine.execDistributorSelect die s
  | .privateCtagCommit die q => Sys2Proof.Machine.execPrivateCtagCommit die q s
  | .markComplete die q => Sys2Proof.Machine.execMarkComplete die q s
  | .intervalCommitRetry die q => Sys2Proof.Machine.execIntervalCommitRetry die q s
  | .ctagWrite c d => Sys2Proof.Machine.execCtagWrite c d s
  | .fpcsrWrite c d => Sys2Proof.Machine.execFpcsrWrite c d s
  | .xlinvWrite w v => Sys2Proof.Machine.execXlinvWrite w v s
  | .xlinvComplete => Sys2Proof.Machine.execXlinvComplete s
  | .dqloadWrite w v => Sys2Proof.Machine.execDqloadWrite w v s
  | .dcmdReprio w v => Sys2Proof.Machine.execDcmdReprio w v s
  | .dcmdCancel w v => Sys2Proof.Machine.execDcmdCancel w v s
  | .preemptSafe w v => Sys2Proof.Machine.execPreemptSafe w v s
  | .preemptForced w v => Sys2Proof.Machine.execPreemptForced w v s
  | .preemptKill w v => Sys2Proof.Machine.execPreemptKill w v s
  | .resumeWrite w v => Sys2Proof.Machine.execResumeWrite w v s
  | .collcfgLoad w v => Sys2Proof.Machine.execCollcfgLoad w v s
  | .collcfgRemove w v => Sys2Proof.Machine.execCollcfgRemove w v s
  | .xlaneWrite w v => Sys2Proof.Machine.execXlaneWrite w v s
  | .threadEligible k sl => Sys2Proof.Machine.execThreadEligible k sl s
  | .budgetExpiry k sl => Sys2Proof.Machine.execBudgetExpiry k sl s
  | .heartbeatExpiry k sl => Sys2Proof.Machine.execHeartbeatExpiry k sl s
  | .coreFence k => Sys2Proof.Machine.execCoreFence k s
  | .coreContainment k cause => Sys2Proof.Machine.execCoreContainment k cause s
  | .residueMismatch k u again => Sys2Proof.Machine.execResidueMismatch k u again s
  | .scrubPass die ch => Sys2Proof.Machine.execScrubPass die ch s
  | .safePointSave k sl => Sys2Proof.Machine.execSafePointSave k sl s
  | .forcedSave k sl => Sys2Proof.Machine.execForcedSave k sl s
  | .threadResume k sl => Sys2Proof.Machine.execThreadResume k sl s
  | .swapOut die => Sys2Proof.Machine.execSwapOut die s
  | .reqHwread m => Sys2Proof.Machine.execReqHwread m s
  | .reqHwwrite m => Sys2Proof.Machine.execReqHwwrite m s
  | .reqHroot m => Sys2Proof.Machine.execReqHroot m s
  | .hmgmtReadStatus m => Sys2Proof.Machine.execHmgmtReadStatus m s
  | .hmgmtReadSensors m => Sys2Proof.Machine.execHmgmtReadSensors m s
  | .hmgmtWarmStart m => Sys2Proof.Machine.execHmgmtWarmStart m s
  | .hmgmtColdStart m => Sys2Proof.Machine.execHmgmtColdStart m s
  | .hmgmtSetEventPush m => Sys2Proof.Machine.execHmgmtSetEventPush m s
  | .ownerRestart o => Sys2Proof.Machine.execOwnerRestart o s
  | .pageWalk k pt va => Sys2Proof.Machine.execPageWalk k pt va s
  | .refreshEnd => Sys2Proof.Machine.execRefreshEnd s
  | .tempSample => Sys2Proof.Machine.execTempSample s
  | .steal die q => Sys2Proof.Machine.execSteal die q s
  | .partitionReset die guest => Sys2Proof.Machine.execPartitionReset die guest s
  | .coldStart => Sys2Proof.Machine.execColdStart s
  | .warmStart => Sys2Proof.Machine.execWarmStart s
  | .illegalWord w => Sys2Proof.Machine.execIllegalWord w s
  | .fetchFault cause => Sys2Proof.Machine.execFetchFault cause s
  | .powerRemoval => Sys2Proof.Machine.execPowerRemoval s

end Sys2Proof.Machine
end

