-- ==== Sys2Proof/Machine/Issue.lean ====
section
/-! DEFINITION. What one step does and when: the fetch (R200), the choice of the word that issues (R284), the events that are due between words (R354) and their order, and how a program is placed for a first step. -/
namespace Sys2Proof.Machine

/-! ### The fetch (R200) -/

/-- The word at a thread's PC, under ctag 0; what it cost the caches and the error counters. A page of another module gives a free value (log 27). -/
def State.fetch (s : State) (k : Nat) (t : Thread) : State × Except Cause IWord :=
  if (badByte t.pc 4).isSome then (s, .error .address)
  else if isLocal t.pc then (s, .error .permission)
  else match s.seg (dieOf k) t.ptbase ⟨false, false, true, false⟩ t.pc 4 with
    | .error e => (s, .error e.1)
    | .ok x =>
      let s1 := s.fill (dieOf k) t.ptbase t.pc.toNat
      if moduleOf x.pa != s.moduleNo then (s1.useFree, .ok (s.free.setWidth 32))
      else match s1.readMem (x.pa % 2 ^ 44) 4 with
        | (s2, some l) => (s2, .ok (BitVec.ofNat 32 (leNat l)))
        | (s2, none) => (s2, .error .eccUncorr)

/-! ### Events between words -/

/-- What is due now, before any time passes: records of corrected words, kills, forced saves, pre-emptions, waits that are over, saves and resumes that can go on. -/
inductive Now where
  | records
  | kill (k sl : Nat)
  | killSaved (frame : Nat)
  | hang (k sl : Nat)
  | forced (k sl : Nat)
  | preempt (k sl : Nat)
  | unpark (k sl : Nat)
  | saved (k sl : Nat)
  | swapBack (k frame : Nat)
  | resume (k sl : Nat)
deriving DecidableEq, Repr

/-- Whether a meet-waiting thread's entry is released in cycle `n`: a kill or a forced save comes after that (R299). -/
def State.released (s : State) (k : Nat) (t : Thread) (n : Nat) : Bool :=
  match t.status with
  | .meet x _ _ => (((s.core k).meet.find x).map (fun e => e.due n)).getD false
  | _ => false
/-- What a thread has due at a boundary between two words, in the order of R354; and the waits that are over. A BUDGET that is due comes before a pre-emption, and after the words that issue in its cycle (R389). -/
def State.threadNow (s : State) (k sl : Nat) (t : Thread) : Option Now :=
  let now := s.cycle
  let t1 := t.count now
  if s.released k t now then none
  else if (t.killNow now).isSome then some (.kill k sl)
  else if t.saving.isSome then (if s.saveReady k sl t then some (.saved k sl) else none)
  else if (t.forcedNow now).isSome then some (if t1.hangNow now then .hang k sl else .forced k sl)
  else if (t.preemptNow now).isSome then (if t1.hangNow now then some (.hang k sl) else if t1.budgetNow now then none else some (.preempt k sl))
  else match t.status with
    | .parked w => if s.waitOver k t w then some (.unpark k sl) else none
    | .resuming _ => if s.resumeReady k t then some (.resume k sl) else none
    | _ => none
/-- The same for a core: its threads in slot order, then its swap list. -/
def State.coreNow (s : State) (k : Nat) (c : Core) : Option Now :=
  match c.threads.findSome? (fun p => s.threadNow k p.1 p.2) with
  | some d => some d
  | none => (c.swaps.find? (s.swapBack k)).map (fun w => .swapBack k w.frame)
/-- And for the module: saved threads to be killed, then every core. -/
def State.now (s : State) : Option Now :=
  if !s.corrected.isEmpty then some .records
  else match s.saved.find? (fun x => x.2.thread.kill.isSome) with
    | some x => some (.killSaved x.1)
    | none => s.cores.findSome? (fun c => s.coreNow c.1 c.2)
def State.doNow (s : State) : Now → Host.Outcome State Fault Refusal
  | .records => .next s.flushEcc
  | .kill k sl => .next (s.takeKill k sl)
  | .killSaved f => .next (match s.saved.find f with
    | some x => match x.thread.kill with
      | some e => s.killSaved f x e.1 e.2.1
      | none => s
    | none => s)
  | .hang k sl => execHeartbeatExpiry k sl s
  | .forced k sl => execForcedSave k sl s
  | .preempt k sl => execSafePointSave k sl s
  | .unpark k sl => .next (s.unpark k sl)
  | .saved k sl => execSaveComplete k sl s
  | .swapBack k f => execSwapResume k f s
  | .resume k sl => execThreadResume k sl s

/-! ### Units that act on their own -/

/-- A unit's next act (log 9). -/
inductive UnitAct where
  | matrix (k : Nat)
  | forward (k : Nat)
  | select (die : Nat)
  | steal (die q : Nat)
  | commit (die q : Nat)
  | mark (die q : Nat)
deriving DecidableEq, Repr

/-- The earlier of two; the first on equal cycles. -/
def earlier {α : Type} (a b : Option (Nat × α)) : Option (Nat × α) :=
  match a, b with
  | some x, some y => if y.1 < x.1 then b else a
  | none, _ => b
  | _, none => a
/-- What the matrix unit of a core can do, and when: one act in a cycle. -/
def State.coreUnit (s : State) (k : Nat) : Option (Nat × UnitAct) :=
  let t := max s.cycle (s.core k).unitAt
  if (s.headStep k).isSome then some (t, .matrix k) else if s.forwardReady k then some (t, .forward k) else none
/-- What a distributor can do, and when: in each cycle one selection (R318), and one attempt to steal of each queue (R330). -/
def State.distUnit (s : State) (die : Nat) : Option (Nat × UnitAct) :=
  (s.dist die).queues.foldl (fun r q => earlier r (
      if s.commitReady die q.1 then some (s.cycle, .commit die q.1)
      else if s.markReady die q.1 then some (s.cycle, .mark die q.1)
      else if s.stealReady die q.1 then some (max s.cycle q.2.stealAt, .steal die q.1) else none))
    (if s.distReady die then some (max s.cycle (s.dist die).actAt, UnitAct.select die) else none)
/-- The first unit that can act: on equal cycles the matrix units, then the distributors. -/
def State.unit (s : State) : Option (Nat × UnitAct) :=
  s.dists.foldl (fun r d => earlier r (s.distUnit d.1)) (s.cores.foldl (fun r c => earlier r (s.coreUnit c.1)) none)
def State.doUnit (s : State) : UnitAct → Host.Outcome State Fault Refusal
  | .matrix k => execMmaStart k (s.mapCore k (fun c => { c with unitAt := s.cycle + 1 }))
  | .forward k => execOperandForward k (s.mapCore k (fun c => { c with unitAt := s.cycle + 1 }))
  | .select die => execDistributorSelect die s
  | .steal die q => execSteal die q s
  | .commit die q => execPrivateCtagCommit die q s
  | .mark die q => execMarkComplete die q s

/-! ### Time -/

/-- Time comes to cycle `t`: the fence count of a core without a thread that counts has returned to 0 (R288). -/
def State.advance (s : State) (t : Nat) : State :=
  { s with cycle := t, cores := s.cores.map (fun (c : Nat × Core) => if c.2.threads.any (fun p => p.2.fences) then c else (c.1, { c.2 with fenceFrom := t })) }

/-- Whether a thread of the core can issue (R283): it is ready, or the commands that its word waited for are done (R250). -/
def Core.canIssue (c : Core) (t : Thread) : Bool :=
  t.saving.isNone && match t.status with
    | .ready => true
    | .parked (.commands u l) => c.commandsDone u l
    | _ => false
/-- The cycle in which a core next issues a word, and the slot: the first in rotation that is eligible then (R284). A thread whose budget is used up takes its trap instead (R286). -/
def Core.nextIssue (c : Core) (now : Nat) : Option (Nat × Nat) :=
  let at' := fun (t : Thread) => max (max c.freeAt now) t.elig
  let l := c.threads.filter (fun p => c.canIssue p.2 && !(p.2.count (at' p.2)).budgetNow (at' p.2))
  match l with
  | [] => none
  | p :: r =>
    let first := r.foldl (fun n x => min n (at' x.2)) (at' p.2)
    (((List.range 16).map (fun i => (c.last + 1 + i) % 16)).find? (fun sl => l.any (fun x => x.1 == sl && decide (x.2.elig ≤ first)))).map (fun sl => (first, sl))
/-- The first word to issue in the module: cycle, core, slot; on equal cycles the lowest core. -/
def State.nextIssue (s : State) : Option (Nat × Nat × Nat) :=
  s.cores.foldl (fun (r : Option (Nat × Nat × Nat)) c => match c.2.nextIssue s.cycle with
    | none => r
    | some x => match r with
      | none => some (x.1, c.1, x.2)
      | some y => if x.1 < y.1 then some (x.1, c.1, x.2) else r) none
/-- The cycle in which the heartbeat kills a thread: its count has reached K.HBINT (R287), and no word holds it (R222). -/
def Thread.hangAt (t : Thread) (now : Nat) : Option Nat :=
  let n := max now t.busy
  if t.saving.isSome || t.deferred n || t.heldFast then none
  else if t.hbint ≤ t.hb then some n
  else if t.status.counts.1 then some (max n (t.acct + (t.hbint - t.hb))) else none
/-- The cycle in which a thread takes BUDGET (R286): its budget is used up, and no word holds it (R222). -/
def Thread.budgetAt (t : Thread) (now : Nat) : Option Nat :=
  let n := max (max now t.busy) (t.acct + t.budget)
  if t.budget == 2 ^ 48 - 1 then none
  else if (t.count n).budgetNow n then some n else none
/-- The cycle in which a vector word no longer holds a thread for which an event is due (R222). -/
def Thread.freeAt (t : Thread) (now : Nat) : Option Nat :=
  if now < t.busy && (t.kill.isSome || t.eccBad || t.forced.isSome || t.preempt.isSome) then some t.busy else none

/-- What happens at a later cycle. -/
inductive Due where
  | input
  | perform (k sl : Nat)
  | tick
  | unit (u : UnitAct)
  | event
  | restart (k : Nat)
  | scrub
  | reset (die guest : Nat)
  | hang (k sl : Nat)
  | fence (k : Nat)
  | issue (k sl : Nat)
  | budget (k sl : Nat)
  | swap (die : Nat)
  | meet (k x : Nat)
deriving DecidableEq, Repr

/-- A fold over the threads of the module, by core and slot. -/
def State.firstThread (s : State) (f : Nat → Core → Nat → Thread → Option (Nat × Due)) : Option (Nat × Due) :=
  s.cores.foldl (fun r c => c.2.threads.foldl (fun r p => earlier r (f c.1 c.2 p.1 p.2)) r) none
/-- The next word to act (R120, R296). -/
def State.performDue (s : State) : Option (Nat × Due) :=
  s.firstThread (fun k _ sl t => match t.status with | .acting c _ => some (max s.cycle c, .perform k sl) | _ => none)
/-- A slot that a TEND gave up in this cycle is free in the next (R304); and the end of a vector word's hold. -/
def State.tickDue (s : State) : Option (Nat × Due) :=
  earlier (if s.cores.any (fun c => (s.tended c.1).isSome) then some (s.cycle + 1, .tick) else none)
    (s.firstThread (fun _ _ _ t => (t.freeAt s.cycle).map (fun n => (n, .tick))))
/-- What comes next from outside. -/
def State.inputDue (s : State) : Option (Nat × Due) := s.inputs.head?.map (fun e => (max s.cycle e.1, .input))
/-- Whether the word a slot issues at cycle `c` is an HBEAT that executes. -/
def State.hbeatNext (s : State) (k sl : Nat) : Bool :=
  match s.thread k sl with
  | none => false
  | some t => match (s.fetch k t).2 with
    | .error _ => false
    | .ok w => match decode w with
      | .ok (.hbeat c) => !c.g || t.guardHolds
      | _ => false
/-- The first heartbeat kill; one that falls into the cycle of its thread's HBEAT or of its meet's release gives way to it (R287, R299). -/
def State.hangDue (s : State) : Option (Nat × Due) :=
  s.firstThread (fun k c sl t => match t.hangAt s.cycle with
    | none => none
    | some n => if (c.nextIssue s.cycle == some (n, sl) && s.hbeatNext k sl) || s.released k t n then none else some (n, .hang k sl))
def State.budgetDue (s : State) : Option (Nat × Due) := s.firstThread (fun k _ sl t => (t.budgetAt s.cycle).map (fun n => (n, .budget k sl)))
def State.fenceDue (s : State) : Option (Nat × Due) :=
  s.cores.foldl (fun r c => earlier r ((s.fenceAt c.1).map (fun t => (max t s.cycle, .fence c.1)))) none
def State.swapNext (s : State) : Option (Nat × Due) :=
  s.dists.foldl (fun r d => earlier r ((s.swapAt d.1).map (fun t => (max t s.cycle, .swap d.1)))) none
/-- The next release, in the order of the entries (R297). -/
def State.meetDue (s : State) : Option (Nat × Due) :=
  s.cores.foldl (fun r c => c.2.meet.foldl (fun r e => earlier r ((e.2.dueAt s.cycle).map (fun t => (t, .meet c.1 e.1)))) r) none
/-- What comes next. On equal cycles: what comes from outside, the words that act, a slot given up or a hold's end, the units, the agenda, restarts, the scrub, a partition's reset, heartbeat kills, fences, the words that issue, BUDGET, swap decisions, releases (R119, R129, R297, R304, R319, R324, R354, R389). -/
def State.due (s : State) : Option (Nat × Due) :=
  [ s.inputDue, s.performDue, s.tickDue, s.unit.map (fun u => (u.1, Due.unit u.2)), s.agenda.head?.map (fun e => (max s.cycle e.1, Due.event)),
    s.restartDue.map (fun x => (max s.cycle x.1, Due.restart x.2)), some (max s.cycle s.scrubAt, Due.scrub),
    s.stuckKill.map (fun x => (max s.cycle x.1, Due.reset x.2.1 x.2.2)), s.hangDue, s.fenceDue, s.nextIssue.map (fun x => (x.1, Due.issue x.2.1 x.2.2)),
    s.budgetDue, s.swapNext, s.meetDue ].foldl earlier none

/-! ### A step -/

/-- The fence count of a core starts again at cycle `n`, where a word completes (R288); not where it reaches its end before. -/
def Core.completes (c : Core) (n : Nat) : Core := if c.fenceFrom + Config.fenceLimit ≤ n then c else { c with fenceFrom := max c.fenceFrom n }
/-- Cores on which a word has completed since `s0` start their fence count again (R288): now, or when the word no longer holds its thread (R222, R291). -/
def State.noteDone (s0 s : State) : State :=
  let done := fun (k : Nat) (p : Nat × Thread) => p.2.done && match s0.thread k p.1 with
    | some t => t.stream == p.2.stream && !t.done
    | none => false
  { s with cores := s.cores.map (fun (c : Nat × Core) =>
      (c.1, (c.2.threads.filter (done c.1)).foldl (fun c p => c.completes (max s.cycle p.2.busy)) (if (s.tended c.1).isSome then c.2.completes s.cycle else c.2))) }
/-- A step's outcome with that. -/
def noted (s0 : State) : Host.Outcome State Fault Refusal → Host.Outcome State Fault Refusal
  | .next s => .next (State.noteDone s0 s)
  | r => r
/-- The state in which slot `sl` of core `k` issues at cycle `c`, before its word is fetched. -/
def State.select (s : State) (k sl c : Nat) : State :=
  { ((s.advance c).mapCore k (fun x => { x with last := sl, freeAt := c + 1 })).mapThread k sl (fun t => { t with done := false }) with cur := (k, sl) }
/-- How many cycles after its issue a word acts: the accesses to memory, by which the local store is reached, 4 (R120); MEET and MEETQ as R296 says. -/
def Instr.lag (s : State) : Instr → Nat
  | .ldb .. | .ldbu .. | .ldh .. | .ldhu .. | .ldw .. | .ldwu .. | .ldd .. | .ldq .. | .ldx .. | .gaddr .. | .vld .. | .vst .. | .mfill ..
  | .stb .. | .sth .. | .stw .. | .std .. | .stq .. | .lds .. | .ldsC .. | .sts .. | .feset .. | .feclr .. | .fetest .. | .waitf .. | .waitfE ..
  | .aadd .. | .amin .. | .amax .. | .aand .. | .aor .. | .axor .. | .aswp .. | .acas .. => 4
  | .meet .. | .meetq .. => s.meetLag
  | _ => 0
/-- The word of a thread that acts. -/
def State.act (s : State) (k sl : Nat) : Host.Outcome State Fault Refusal :=
  match s.thread k sl with
  | none => .next s
  | some t => match t.status with
    | .acting _ w => match decode w with
      | .ok i => exec i { s with cur := (k, sl) }
      | .error _ => .next s
    | _ => .next s
def State.doPerform (s : State) (t k sl : Nat) : Host.Outcome State Fault Refusal := noted s ((s.advance t).act k sl)
/-- The current thread's word `w` has issued and acts `n` cycles later: in the same step where nothing comes before. -/
def State.startAct (s : State) (t : Thread) (w : IWord) (n : Nat) : Host.Outcome State Fault Refusal :=
  let s1 := if isMeet w then State.actMeet s.k 32 s.sl (s.cycle + n) w (s.put (t.begin s.cycle 0)) else s.put { t.begin s.cycle 0 with status := .acting (s.cycle + n) w }
  if s1.now.isNone && s1.due == some (s.cycle + n, .perform s.k s.sl) then s1.doPerform (s.cycle + n) s.k s.sl else .next s1
/-- A word issues: it is fetched and decoded; it acts now, or later. -/
def State.issue (s0 : State) : Host.Outcome State Fault Refusal :=
  let s := s0.fixFrame s0.k s0.sl
  match s.thread s.k s.sl with
  | none => .next s
  | some t => match s.fetch s.k t with
    | (s1, .error c) => noted s0 (execFetchFault c s1)
    | (s1, .ok w) => match decode w with
      | .error _ => noted s0 (execIllegalWord w s1)
      | .ok i => match Instr.lag s1 i with
        | 0 => noted s0 (exec i s1)
        | n + 1 => s1.startAct t w (n + 1)
/-- The head of the agenda happens at cycle `t`; a message to a channel that is being refreshed joins those that wait for its end (R58). -/
def State.event (s : State) (t : Nat) : Host.Outcome State Fault Refusal :=
  match s.agenda with
  | [] => .next s
  | e :: l =>
    let s1 : State := { s.advance t with agenda := l }
    if s1.heldBack e.2 then .next { s1 with queued := s1.queued ++ [e.2] } else noted s1 (exec e.2 s1)
/-- What the outside world does to the module (log 32): a sensor's reading changes, or firmware sets a host window (R57, R400). -/
def State.apply (s : State) : Input → State
  | .sensor die ch deg => { s with chans := s.chans.put (die * 64 + ch) { s.chan die ch with sensor := deg } }
  | .window p i w => { s with hostWin := s.hostWin.set p ((s.hostWin.getD p HostWindow.none16).set i w) }
/-- The next of these, at cycle `t`. -/
def State.input (s : State) (t : Nat) : State :=
  match s.inputs with
  | [] => s
  | e :: l => ({ s.advance t with inputs := l } : State).apply e.2
def State.doDue (s : State) (t : Nat) : Due → Host.Outcome State Fault Refusal
  | .input => .next (s.input t)
  | .perform k sl => s.doPerform t k sl
  | .tick => .next (s.advance t)
  | .unit u => (s.advance t).doUnit u
  | .event => s.event t
  | .restart k => execOwnerRestart (.core k) (s.advance t)
  | .scrub => execScrubPass (s.scrubs / 64 % 16) (s.scrubs % 64) { s.advance t with scrubs := s.scrubs + 1 }
  | .reset die guest => execPartitionReset die guest (s.advance t)
  | .hang k sl => execHeartbeatExpiry k sl (s.advance t)
  | .fence k => execCoreFence k (s.advance t)
  | .issue k sl => (s.select k sl t).issue
  | .budget k sl => execBudgetExpiry k sl (s.advance t)
  | .swap die => execSwapOut die (s.advance t)
  | .meet k x => noted s (execMeetRelease k x (s.advance t))
/-- One step of a module that runs. -/
def State.run (s : State) : Host.Outcome State Fault Refusal :=
  match s.now with
  | some d => noted s (s.doNow d)
  | none => match s.due with
    | some (t, d) => s.doDue t d
    | none => .next (s.advance (s.cycle + 1))

/-! ### A module that does not run (R404, R407, R409, R411) -/

/-- What comes in a module that does not run. -/
inductive Idle where
  | input
  | event
  | stage (warm : Bool) (step : Nat)
deriving DecidableEq, Repr
/-- What comes next there: what comes from outside, and the end of a step of a start. -/
def State.idleDue (s : State) : Option (Nat × Idle) :=
  [ s.inputs.head?.map (fun e => (max s.cycle e.1, Idle.input)), s.agenda.head?.map (fun e => (max s.cycle e.1, Idle.event)),
    match s.power with | .starting warm n till => some (max s.cycle till, Idle.stage warm n) | _ => none ].foldl earlier none
/-- The agenda's head in a module that does not run. A start begins. A port die serves its host while it has power and firmware (R402, R409, R411); in a start it answers FENCED, as every owner does (R266). A request to a core, sealed by a thermal trip, is answered FENCED (R409). Anything else is lost with the units it was for. -/
def State.idleEvent (s : State) (i : Instr) : Host.Outcome State Fault Refusal :=
  if Instr.isStart i then exec i s
  else match s.power, hostReq i, messageOf i with
    | .off, _, _ => .next s
    | .starting _ _ _, some m, _ => .next (s.answer m .fenced)
    | .starting _ _ _, none, some m => .next (s.answer m .fenced)
    | _, some _, _ => exec i s
    | .tripped, none, some m => .next (if m.dst.kind == 0 then s.answer m .fenced else s)
    | _, none, _ => .next s
/-- One step of such a module; where nothing more comes it stops. -/
def State.idle (s : State) (f : Fault) : Host.Outcome State Fault Refusal :=
  match s.idleDue with
  | none => .fault f
  | some (n, .input) => match s.inputs with
    | [] => .fault f
    | e :: l => .next (({ s with cycle := n, inputs := l } : State).apply e.2)
  | some (n, .event) => match s.agenda with
    | [] => .fault f
    | e :: l => ({ s with cycle := n, agenda := l } : State).idleEvent e.2
  | some (n, .stage warm i) => .next (({ s with cycle := n } : State).startStep warm i)
/-- One step. -/
def State.next (s : State) : Host.Outcome State Fault Refusal :=
  match s.power with
  | .running => s.run
  | .tripped => s.idle .tripped
  | .halted => s.idle .halted
  | .off => s.idle .off
  | .starting _ _ _ => s.idle .off

/-! ### A program placed from outside (log 30) -/

/-- A thread of slot 0 of core 0 at virtual address 0, whose page table maps the first 64 KiB page to DRAM at 0x10000, where the word stands;
nothing else runs or is due. -/
def State.placeWord (s : State) (w : IWord) : State :=
  let table := fun (a : Nat) => BitVec.ofNat 64 (s.moduleNo % 2 ^ 20 * 2 ^ 44 + a)
  let put := fun (m : Tab Byte) (a : Nat) (x : Word) => writeBytes m a (leBytes 8 x.toNat)
  let leaf := table 0x1080B
  let m := put (put (put (put (writeBytes s.mem 0x10000 (leBytes 4 w.toNat)) 0 (table 0x1001)) 0x1000 (table 0x2001)) 0x2000 (table 0x3001)) 0x3000 leaf
  { s with
    moduleNo := s.moduleNo % 2 ^ 20, power := .running, mem := m, tlb := [], agenda := [], queued := [], inputs := [], dists := [], saved := [], corrected := []
    eccOne := [], eccBad := [], heap := [], scrubs := s.cycle / Config.scrubStep + 1
    cores := [(0, { Core.reset with freeAt := s.cycle, fenceFrom := s.cycle, threads := [(0, { Thread.reset with elig := s.cycle, acct := s.cycle, issued := s.cycle })] })] }

end Sys2Proof.Machine
end

