-- ==== Sys2Proof/Safety.lean ====
section
/-! DEFINITION. What the statements speak of: the current thread as its word issues, when a word executes, which instructions are words, what a safe run is, and the invariant that every step keeps. -/
namespace Sys2Proof

/-- The common fields of a word that is no hint (R18). -/
def Instr.ctl : Instr → Option Ctl
  | .add c _ _ _ => some c
  | .sub c _ _ _ => some c
  | .and c _ _ _ => some c
  | .or c _ _ _ => some c
  | .xor c _ _ _ => some c
  | .shl c _ _ _ => some c
  | .shr c _ _ _ => some c
  | .sra c _ _ _ => some c
  | .mul c _ _ _ => some c
  | .mulh c _ _ _ => some c
  | .mulhu c _ _ _ => some c
  | .div c _ _ _ => some c
  | .divu c _ _ _ => some c
  | .rem c _ _ _ => some c
  | .remu c _ _ _ => some c
  | .min_ c _ _ _ => some c
  | .max_ c _ _ _ => some c
  | .minu c _ _ _ => some c
  | .maxu c _ _ _ => some c
  | .rol c _ _ _ => some c
  | .ror c _ _ _ => some c
  | .clz c _ _ => some c
  | .popc c _ _ => some c
  | .cmp c _ _ _ _ => some c
  | .bset c _ _ _ => some c
  | .bclr c _ _ _ => some c
  | .binv c _ _ _ => some c
  | .bext c _ _ _ => some c
  | .sel c _ _ _ => some c
  | .crnd c _ _ _ => some c
  | .addi c _ _ _ => some c
  | .andi c _ _ _ => some c
  | .ori c _ _ _ => some c
  | .xori c _ _ _ => some c
  | .shli c _ _ _ => some c
  | .shri c _ _ _ => some c
  | .srai c _ _ _ => some c
  | .movi c _ _ => some c
  | .movs c _ _ => some c
  | .gaddr c _ _ _ => some c
  | .fadd c _ _ _ _ => some c
  | .fsub c _ _ _ _ => some c
  | .fmul c _ _ _ _ => some c
  | .fdiv c _ _ _ _ => some c
  | .fma c _ _ _ _ => some c
  | .fmin c _ _ _ _ => some c
  | .fmax c _ _ _ _ => some c
  | .fsqrt c _ _ _ => some c
  | .fcmpD c _ _ _ _ => some c
  | .fcmpS c _ _ _ _ => some c
  | .fcvt c _ _ _ _ _ => some c
  | .fclass c _ _ _ => some c
  | .vadd c _ _ _ _ => some c
  | .vsub c _ _ _ _ => some c
  | .vmul c _ _ _ _ => some c
  | .vfma c _ _ _ _ => some c
  | .vdiv c _ _ _ _ => some c
  | .vsqrt c _ _ _ _ => some c
  | .vmin c _ _ _ _ => some c
  | .vmax c _ _ _ _ => some c
  | .vabs c _ _ _ _ => some c
  | .vneg c _ _ _ _ => some c
  | .vand c _ _ _ _ => some c
  | .vor c _ _ _ _ => some c
  | .vxor c _ _ _ _ => some c
  | .vshl c _ _ _ _ => some c
  | .vshr c _ _ _ _ => some c
  | .vsra c _ _ _ _ => some c
  | .vcmpeq c _ _ _ _ => some c
  | .vcmpne c _ _ _ _ => some c
  | .vcmplt c _ _ _ _ => some c
  | .vcmple c _ _ _ _ => some c
  | .vsel c _ _ _ _ => some c
  | .vmov c _ _ _ _ => some c
  | .vrco c _ _ _ _ => some c
  | .vruns c _ _ => some c
  | .vlen c _ _ => some c
  | .vsetlen c _ _ _ _ => some c
  | .vsplat c _ _ _ => some c
  | .vrsum c _ _ _ => some c
  | .vrsumsq c _ _ _ => some c
  | .vrmax c _ _ _ => some c
  | .vrmin c _ _ _ => some c
  | .vrcnt c _ _ _ => some c
  | .vamax c _ _ _ => some c
  | .velem c _ _ _ => some c
  | .vcat c _ _ _ _ => some c
  | .vcvt c _ _ _ _ _ => some c
  | .vld c _ _ _ _ => some c
  | .vst c _ _ _ _ => some c
  | .vclaim c _ _ => some c
  | .vrels c => some c
  | .vqry c _ _ => some c
  | .vqnt c _ _ _ _ _ _ => some c
  | .ldb c _ _ _ => some c
  | .ldbu c _ _ _ => some c
  | .ldh c _ _ _ => some c
  | .ldhu c _ _ _ => some c
  | .ldw c _ _ _ => some c
  | .ldwu c _ _ _ => some c
  | .ldd c _ _ _ => some c
  | .ldq c _ _ _ => some c
  | .stb c _ _ _ => some c
  | .sth c _ _ _ => some c
  | .stw c _ _ _ => some c
  | .std c _ _ _ => some c
  | .stq c _ _ _ => some c
  | .lds c _ _ _ _ => some c
  | .ldsC c _ _ _ _ => some c
  | .sts c _ _ _ _ => some c
  | .aadd c _ _ _ _ => some c
  | .amin c _ _ _ _ => some c
  | .amax c _ _ _ _ => some c
  | .aand c _ _ _ _ => some c
  | .aor c _ _ _ _ => some c
  | .axor c _ _ _ _ => some c
  | .aswp c _ _ _ _ => some c
  | .acas c _ _ _ _ => some c
  | .lkp c _ _ => some c
  | .dset c _ _ _ => some c
  | .dclr c _ => some c
  | .dinv c _ _ _ => some c
  | .feset c _ => some c
  | .feclr c _ => some c
  | .fetest c _ _ => some c
  | .waitf c _ => some c
  | .waitfE c _ => some c
  | .fenceAcq c _ => some c
  | .fenceRel c _ => some c
  | .fenceFull c _ => some c
  | .fenceEngine c => some c
  | .ctalloc c _ _ _ => some c
  | .ctset c _ _ => some c
  | .ctcommit c _ _ => some c
  | .ctdrop c _ _ => some c
  | .ctstat c _ _ => some c
  | .ldx c _ _ _ => some c
  | .cpy c _ _ _ => some c
  | .cpy2 c _ _ _ => some c
  | .gath c _ _ _ => some c
  | .scat c _ _ => some c
  | .cpyx c _ _ _ => some c
  | .cstat c _ => some c
  | .cstatHandle c _ _ => some c
  | .oclaim c _ _ => some c
  | .orels c _ => some c
  | .mcap c _ => some c
  | .mma c _ => some c
  | .mred c _ => some c
  | .mdrain c _ => some c
  | .mdrainScaled c _ => some c
  | .cbload c _ => some c
  | .mfill c _ => some c
  | .coll c _ _ => some c
  | .rsync c => some c
  | .rstat c _ _ => some c
  | .xtab c _ _ => some c
  | .xstart c _ _ => some c
  | .xstat c _ _ => some c
  | .br c _ => some c
  | .brl c _ => some c
  | .jr c _ => some c
  | .jrl c _ => some c
  | .tend c => some c
  | .spawn c _ _ _ => some c
  | .meet c _ _ => some c
  | .meetq c _ _ => some c
  | .glaunch c _ _ => some c
  | .yield c => some c
  | .yieldFor c _ => some c
  | .hbeat c => some c
  | .trap c _ => some c
  | .rft c => some c
  | .csrr c _ _ => some c
  | .csrw c _ _ => some c
  | _ => none
/-- Hint words (R30). -/
def Instr.isHint : Instr → Bool
  | .noph => true
  | .imm _ => true
  | .guard _ _ _ => true
  | .live _ => true
  | .rmode _ => true
  | .stallx _ => true
  | _ => false
/-- The instructions that a word denotes; the others are steps of the machine's other agents. -/
def Instr.isWord (i : Instr) : Bool := i.ctl.isSome || i.isHint

namespace Machine

/-- Thread `t` is the current one, as its word acts, `lag` cycles after its issue (R23, R120, R283). -/
def Acts (s : State) (t : Thread) (lag : Nat) : Prop := ∃ t0, s.thread s.k s.sl = some t0 ∧ t = t0.begin s.cycle lag
/-- The same for a word that acts at its issue. -/
def Issues (s : State) (t : Thread) : Prop := Acts s t 0

/-- A word with common fields `c` executes (R26, R29, R33, R35, R39, R161, R351): no LIVE is due, the latches may govern it, its own conditions hold,
its guard holds and is not pending, the core is of its level, and no register it names is pending. -/
def Thread.Runs (t : Thread) (c : Ctl) (f : Form) : Prop :=
  t.live = false ∧ (t.iv = true → f.immOk = true) ∧ (t.rv = true ∧ bits t.pfx 24 3 = 6 → f.roOk = true) ∧ f.bad t = false
  ∧ (c.g = true → t.guardHolds = true ∧ (t.sc = true → t.pendingAt [t.guardReg] = none))
  ∧ f.priv = false ∧ (t.sc = true → t.pendingAt (f.reads ++ f.more t ++ f.writes) = none)

/-- A hint may stand here: no LIVE is due and no latch waits for its word (R33, R36, R39). -/
def Thread.HintFree (t : Thread) : Prop := t.live = false ∧ t.iv = false ∧ t.rv = false

/-- A word's registers are not for the guard to decide (R162, R185): its immediate amount and its register number are legal. -/
def legalWord (i : Instr) (s : State) (t : Thread) : Bool :=
  match i with
  | .shli _ _ _ imm => decide ((t.widen imm).toNat ≤ 63)
  | .shri _ _ _ imm => decide ((t.widen imm).toNat ≤ 63)
  | .srai _ _ _ imm => decide ((t.widen imm).toNat ≤ 63)
  | .csrr _ _ n => !csrBad (isService s.k) false n.toNat
  | .csrw _ _ n => !csrBad (isService s.k) true n.toNat
  | _ => true

/-- A run that does not stop: each of `n` steps gives a next state. -/
def SafeRun : Nat → State → Prop
  | 0, _ => True
  | n + 1, s => ∃ t, step s = .next t ∧ SafeRun n t

/-- The invariant of memory: its table is in canonical form (addresses rise strictly, no zero is listed). -/
def State.MemInv (s : State) : Prop := Memory.wf s.mem = true

/-- The special registers of a thread, and what its core keeps of it, are as before (R157, R179); the PC, K.PFX, K.FPCSR and the marks of an issue stand apart. -/
def Thread.SameSpecial (t x : Thread) : Prop :=
  x.tid = t.tid ∧ x.cnt = t.cnt ∧ x.cx = t.cx ∧ x.cy = t.cy ∧ x.cz = t.cz ∧ x.sc = t.sc ∧ x.det = t.det ∧ x.gsel = t.gsel ∧ x.ctag = t.ctag
  ∧ x.tvec = t.tvec ∧ x.tcause = t.tcause ∧ x.tpc = t.tpc ∧ x.tval = t.tval ∧ x.tsave = t.tsave ∧ x.hbint = t.hbint ∧ x.budget = t.budget
  ∧ x.synclim = t.synclim ∧ x.stream = t.stream ∧ x.serial = t.serial ∧ x.ackw = t.ackw ∧ x.meetwin = t.meetwin ∧ x.dtbase = t.dtbase
  ∧ x.ptbase = t.ptbase ∧ x.spawnk = t.spawnk ∧ x.hb = t.hb ∧ x.claim = t.claim ∧ x.reqs = t.reqs ∧ x.unk = t.unk ∧ x.engs = t.engs

/-- The frame of a word of thread `t` that leads from `s` to `u`: no byte of memory, no full/empty bit, no cell, no other core, no other thread and nothing else of
its core changes; of the thread, only the general registers `ds`, the vector registers `vs` and K.FPCSR, which becomes `fp`, beside the PC and the latches. -/
def Kept (s : State) (t : Thread) (ds : List Reg) (vs : List VReg) (fp : BitVec 15) (u : State) : Prop :=
  (∀ a, readByte u.mem a = readByte s.mem a) ∧ u.full = s.full ∧ u.cells = s.cells ∧ u.ctags = s.ctags
  ∧ (∀ k, k ≠ s.k → u.core k = s.core k) ∧ (∀ sl, sl ≠ s.sl → u.thread s.k sl = s.thread s.k sl)
  ∧ (∃ l, u.core s.k = { s.core s.k with threads := l })
  ∧ ∃ x, u.thread s.k s.sl = some x ∧ (∀ r, r ∉ ds → x.rd r = t.rd r) ∧ (∀ r, r ∉ vs → x.vr r = t.vr r) ∧ x.fpcsr = fp ∧ t.SameSpecial x

/-- The state after word with common fields `c` of thread `t` has completed with `v` in G[d], `fl` ORed into the sticky flags, and the next word held until cycle `m`. -/
def State.completed (s : State) (t : Thread) (c : Ctl) (d : Reg) (v : Word) (fl m : Nat) : State :=
  s.put (((t.wr d v).orFlags fl).complete c (t.pc + 4) m)
/-- Word `i` completes so, and changes nothing else. -/
def Gives (s : State) (t : Thread) (c : Ctl) (i : Instr) (d : Reg) (v : Word) (fl m : Nat) : Prop :=
  exec i s = .next (s.completed t c d v fl m) ∧ Kept s t [d] [] ((t.orFlags fl).fpcsr) (s.completed t c d v fl m)
  ∧ ∃ x, (s.completed t c d v fl m).thread s.k s.sl = some x ∧ x.rd d = (if d = 0#6 then 0 else v) ∧ x.pc = t.pc + 4

/-- The state after a word has completed with `v` in the vector register `vd`. -/
def State.completedV (s : State) (t : Thread) (c : Ctl) (vd : VReg) (v : VecReg) (fl m : Nat) : State :=
  s.put (((t.vw vd v).orFlags fl).complete c (t.pc + 4) m)
def GivesV (s : State) (t : Thread) (c : Ctl) (i : Instr) (vd : VReg) (v : VecReg) (fl m : Nat) : Prop :=
  exec i s = .next (s.completedV t c vd v fl m) ∧ Kept s t [] [vd] ((t.orFlags fl).fpcsr) (s.completedV t c vd v fl m)
  ∧ ∃ x, (s.completedV t c vd v fl m).thread s.k s.sl = some x ∧ x.vr vd = v ∧ x.pc = t.pc + 4

/-- The core of the running thread exists (R10); `ea` names `n` bytes of its own local store (R11, R119), none of whose words holds an error (R374),
and no posted request of the thread is on its way (R337). -/
def OwnBytes (s : State) (t : Thread) (ea : Word) (n : Nat) : Prop :=
  s.moduleNo < 2 ^ 20 ∧ (isService s.k = true ∨ indexOf s.k < Config.coresPerDie) ∧ isLocal ea = true ∧ bits ea 0 17 + n ≤ Config.localSize
  ∧ t.posted = [] ∧ ∀ w ∈ wordsOf (localKey s.k (bits ea 0 17)) n, w ∉ s.eccOne ∧ w ∉ s.eccBad
/-- Where they stand in memory (R12). -/
def ownKey (s : State) (ea : Word) : Nat := localKey s.k (bits ea 0 17)
/-- A word traps at its own address, and that is all it does (R353). -/
def Traps (s : State) (t : Thread) (i : Instr) (e : Cause) (v : Word) : Prop :=
  exec i s = .next ((s.put t).trapEntry s.k s.sl e v t.pc false)
/-- Every die has finished its start (R403, R404), and no owner is restarting (R266). -/
def State.Serving (s : State) : Prop :=
  (∀ b ∈ s.boot, b.done = true) ∧ (∀ w ∈ s.portStatus, w.getLsbD 0 = false) ∧ ∀ p ∈ s.owners, p.2.back ≤ s.cycle
/-- Nothing delays a message: the tape gives no delay, no message, answer or arrival is under way (log 9), no channel is being refreshed and nothing waits for the end of a refresh (R58),
no host's access to another module is under way (R400), no word of another thread acts in this cycle, before which no message reaches its core's store (R119), and the owners serve. -/
def State.NoDelay (s : State) : Prop :=
  s.transit = [] ∧ (∀ e ∈ s.agenda, messageOf e.2 = none ∧ answerRoute e.2 = none) ∧ s.refresh = none ∧ s.queued = [] ∧ s.hosted = []
  ∧ (∀ c ∈ s.cores, ∀ p ∈ c.2.threads, (c.1, p.1) ≠ (s.k, s.sl) → (match p.2.status with | .acting n _ => decide (s.cycle < n) | _ => true) = true)
  ∧ s.Serving
/-- No other thread has the stream of `t` (R261). -/
def State.OwnStream (s : State) (t : Thread) : Prop :=
  (∀ c ∈ s.cores, ∀ p ∈ c.2.threads, p.2.stream = t.stream → (c.1, p.1) = (s.k, s.sl)) ∧ ∀ x ∈ s.saved, x.2.thread.stream ≠ t.stream
/-- A part in DRAM of this module whose words hold no error (R12, R374). -/
def InDram (s : State) (p : Piece) : Prop :=
  p.isOwn = false ∧ isDram p.pa = true ∧ windowOf p.pa = none ∧ moduleOf p.pa = s.moduleNo ∧ p.pa < 2 ^ 64
  ∧ ∀ w ∈ wordsOf (p.pa % 2 ^ 44) p.size, w ∉ s.eccOne ∧ w ∉ s.eccBad
/-- Owner `o` executes a request with a serial that thread `t` sends it now: it is not restarting, holds no receipt for that serial, takes the serial to lie
in the window above its floor, has not restarted in this microsecond, and has an entry free for the receipt (R264 to R266); every die has finished its start (R404), and no host's access to another module is under way (R400). -/
def Accepts (s : State) (t : Thread) (o : Owner) : Prop :=
  let x := (s.owner o).fresh s.cycle
  s.Serving ∧ s.hosted = [] ∧ (∀ k, o = .core k → (s.core k).sealed = false)
  ∧ (∀ r ∈ x.receipts, ¬(r.module = s.moduleNo ∧ r.stream = t.stream ∧ r.serial = t.serial))
  ∧ ∃ y f, x.updateFloor (ownerEntries o) s.moduleNo t.stream t.ackw s.cycle = some (y, f)
    ∧ 1 ≤ (t.serial - f).toNat ∧ (t.serial - f).toNat ≤ 2 ^ 16 ∧ y.restart ≤ s.us ∧ y.receipts.length + y.floors.length < ownerEntries o
/-- An owner executes request `m` from the state `s1`, in which only its floors have changed: it is not fenced, no receipt answers it, it is young enough, its serial lies in the window
above the floor, the owner has not restarted since it was sent, and an entry for its receipt is free beside those of the requests under way there (R264 to R266). -/
def Admits (s : State) (m : Request) (s1 : State) : Prop :=
  m.serialed = true ∧ midway m = false ∧ s.sealedFor m = false ∧ ((s.owner (ownerKind m)).fresh s.cycle).receiptFor m = none ∧ s.us ≤ m.sent + Config.ageLimit ∧ s.parkedHere m = false
  ∧ ∃ x f, ((s.owner (ownerKind m)).fresh s.cycle).updateFloor (ownerEntries (ownerKind m) - s.writing (ownerKind m)) m.src.module m.stream m.ack s.cycle = some (x, f)
    ∧ 1 ≤ (m.serial - f).toNat ∧ (m.serial - f).toNat ≤ 2 ^ 16 ∧ x.restart ≤ m.sent ∧ x.receipts.length + x.floors.length + s.writing (ownerKind m) < ownerEntries (ownerKind m)
    ∧ s1 = s.setOwner (ownerKind m) x
/-- The answer `i` of an owner to request `m` is on its way: on the agenda for a requester of this module, else out of the module (R259). -/
def Answered (s u : State) (m : Request) (i : Instr) : Prop :=
  (m.src.module = s.moduleNo → ∃ n, s.cycle ≤ n ∧ (n, i) ∈ u.agenda) ∧ (m.src.module ≠ s.moduleNo → i ∈ u.outbox)
/-- Nothing waits for the granule of `ea`: no remote request and no thread (R129, R132). -/
def NoWaiters (s : State) (g : Nat) : Prop :=
  (s.core s.k).waiters = [] ∧ (∀ p ∈ (s.core s.k).threads, p.2.status ≠ .parked (.granule g)) ∧ ∀ w ∈ (s.core s.k).swaps, w.granule ≠ g

/-! ### Tables and outcomes of the statements -/

/-- The element-wise words of two operands: the word, the classes of va, the result's format, whether vd is an addend, the value and flags of a piece. -/
def vectorBinaries (t : Thread) (c : Ctl) (q : Qual) (vd va vb : VReg) :
    List (Instr × (Nat → Bool) × (Nat → Nat) × Bool × (Nat → List Word → Nat × Nat)) :=
  let bitwise := fun k => isIntC k || isNatC k || isBoolC k
  let whole := fun k => isIntC k || isNatC k
  [(.vadd c q vd va vb, isArithC, id, false, arithOp Val.add (· + ·) t), (.vsub c q vd va vb, isArithC, id, false, arithOp (fun m x y => x.add m y.neg) (· - ·) t),
   (.vmul c q vd va vb, isArithC, id, false, arithOp (fun _ x y => x.mul y) (· * ·) t), (.vfma c q vd va vb, isFloatC, id, true, fmaOp t),
   (.vdiv c q vd va vb, isFloatC, id, false, arithOp (fun _ x y => x.div y) (fun x _ => x) t),
   (.vmin c q vd va vb, isArithC, id, false, pickOp false t), (.vmax c q vd va vb, isArithC, id, false, pickOp true t),
   (.vand c q vd va vb, bitwise, id, false, bitOp (· &&& ·) t), (.vor c q vd va vb, bitwise, id, false, bitOp (· ||| ·) t),
   (.vxor c q vd va vb, bitwise, id, false, bitOp (· ^^^ ·) t),
   (.vshl c q vd va vb, whole, id, false, shiftOp (fun w a b => a * 2 ^ b % 2 ^ w) t), (.vshr c q vd va vb, whole, id, false, shiftOp (fun _ a b => a / 2 ^ b) t),
   (.vsra c q vd va vb, isIntC, id, false, shiftOp (fun w a b => wrapInt w (intOf true w a / 2 ^ b)) t),
   (.vcmpeq c q vd va vb, notE8m0, fun _ => 22, false, cmpOp 0 t), (.vcmpne c q vd va vb, notE8m0, fun _ => 22, false, cmpOp 4 t),
   (.vcmplt c q vd va vb, isArithC, fun _ => 22, false, cmpOp 1 t), (.vcmple c q vd va vb, isArithC, fun _ => 22, false, cmpOp 2 t)]
/-- The element-wise words of one operand. -/
def vectorUnaries (t : Thread) (c : Ctl) (clip m : Bool) (vd va : VReg) : List (Instr × (Nat → Bool) × (Nat → List Word → Nat × Nat)) :=
  let signed := fun k => isFloatC k || isIntC k
  [(.vsqrt c clip m vd va, isFloatC, sqrtOp t), (.vabs c clip m vd va, signed, absOp t), (.vneg c clip m vd va, signed, negOp t),
   (.vmov c clip m vd va, isAnyC, fun _ l => (arg l 0, 0))]
/-- A piece's value and flags under a mask: where v0 is not 1, the old element without a flag (R207). -/
def maskedOp (m : Bool) (op : List Word → Nat × Nat) (xs : List Word) : Nat × Nat :=
  if m then (if xs.headD 0 = 1 then op (xs.drop 2) else (((xs.drop 1).headD 0).toNat, 0)) else op xs
/-- The end of a word that builds the runs of `vd`, of format `fmt`, from values with counts and flags (R206 to R209). -/
def buildOutcome (s : State) (t : Thread) (c : Ctl) (i : Instr) (clip : Bool) (vd : VReg) (fmt : Nat) (vals : List (Word × Nat × Nat)) : Prop :=
  let r := build (8 * t.claim) vals [] 0 0
  let v : VecReg := ⟨BitVec.ofNat 5 fmt, r.1⟩
  let m := s.cycle + 8 + (computed vals r.2.2 + t.claim - 1) / t.claim
  let done := ((t.vw vd v).orFlags r.2.1)
  (∀ n, r.2.2 = some n → clip = false → exec i s = .next ((s.put t).trapEntry s.k s.sl .runOverflow (BitVec.ofNat 64 n) t.pc false))
  ∧ (r.2.2 = none ∨ clip = true →
      (r.2.1 &&& t.enables ≠ 0 → exec i s = .next ((s.put t).trapEntry s.k s.sl .fpException (BitVec.ofNat 64 r.2.1) t.pc false))
      ∧ (r.2.1 &&& t.enables = 0 →
          (clip = false → GivesV s t c i vd v r.2.1 m)
          ∧ (clip = true → exec i s = .next (s.put ((done.wr (regOf vd) (BitVec.ofNat 64 v.len)).complete c (t.pc + 4) m))
              ∧ Kept s t [regOf vd] [vd] done.fpcsr (s.put ((done.wr (regOf vd) (BitVec.ofNat 64 v.len)).complete c (t.pc + 4) m)))))
/-- The same for an element-wise word over the streams `ss`, with `op` for a piece. -/
def elementOutcome (s : State) (t : Thread) (c : Ctl) (i : Instr) (clip : Bool) (vd : VReg) (fmt : Nat) (ss : List (List Run)) (op : List Word → Nat × Nat) : Prop :=
  buildOutcome s t c i clip vd fmt ((piecesOf ss).map (fun p => (BitVec.ofNat 64 (op p.1).1, p.2, (op p.1).2)))
/-- The elements of a register, run by run (R154). -/
def runElements (l : List Run) : List Word := l.flatMap (fun r => List.replicate r.count r.value)
/-- The loads of one register, with their sizes. -/
def loadForms (c : Ctl) (d base off : Reg) : List (Instr × Nat) :=
  [(.ldb c d base off, 1), (.ldbu c d base off, 1), (.ldh c d base off, 2), (.ldhu c d base off, 2), (.ldw c d base off, 4), (.ldwu c d base off, 4), (.ldd c d base off, 8)]
/-- The stores of one register, with their sizes. -/
def storeForms (c : Ctl) (d base off : Reg) : List (Instr × Nat) :=
  [(.stb c d base off, 1), (.sth c d base off, 2), (.stw c d base off, 4), (.std c d base off, 8)]
/-- The effective address of an M word (R124, R33). -/
def effective (t : Thread) (base off : Reg) (n : Nat) : Word :=
  t.rd base + (if t.iv then sext 28 (t.immh * 64 + off.toNat) else off.setWidth 64) * BitVec.ofNat 64 n

end Machine
end Sys2Proof
end

