-- ==== Sys2Proof/Certificates/Slice0/Obligations.lean ====
section
/-! DEFINITION. The statements of this model for the provers. Each docstring names the rules of the spec that its clauses follow; where a clause rests on a choice of the model, it names the log entry. -/
open Sys2Proof Sys2Proof.Machine

/-- R181, R153: the integer words of two registers and of one: the value of the table in G[d], and nothing else but the PC changes.
R182, R24, R25: a division word whose stall count is at least 3, or that may trap, has its result in place for the next word, which waits for it;
an undersized one leaves its result pending, to land 32 cycles after its issue; an earlier pending result of the register is discarded (the model's reading of R25, log 12). -/
def Obligations.IntegerWords : Prop :=
  (
∀ (s : State) (t : Thread) (c : Ctl) (d a b : Reg), Issues s t →
    (t.Runs c { reads := [a, b], writes := [d] } →
      let x := t.rd a
      let y := t.rd b
      let k := y.toNat % 64
      Gives s t c (.add c d a b) d (x + y) 0 0 ∧ Gives s t c (.sub c d a b) d (x - y) 0 0
      ∧ Gives s t c (.and c d a b) d (x &&& y) 0 0 ∧ Gives s t c (.or c d a b) d (x ||| y) 0 0 ∧ Gives s t c (.xor c d a b) d (x ^^^ y) 0 0
      ∧ Gives s t c (.shl c d a b) d (x <<< k) 0 0 ∧ Gives s t c (.shr c d a b) d (x >>> k) 0 0 ∧ Gives s t c (.sra c d a b) d (x.sshiftRight k) 0 0
      ∧ Gives s t c (.mul c d a b) d (x * y) 0 0
      ∧ Gives s t c (.mulh c d a b) d (BitVec.ofInt 64 (x.toInt * y.toInt / 2 ^ 64)) 0 0
      ∧ Gives s t c (.mulhu c d a b) d (BitVec.ofNat 64 (x.toNat * y.toNat / 2 ^ 64)) 0 0
      ∧ Gives s t c (.min_ c d a b) d (if x.toInt < y.toInt then x else y) 0 0
      ∧ Gives s t c (.max_ c d a b) d (if x.toInt < y.toInt then y else x) 0 0
      ∧ Gives s t c (.minu c d a b) d (if x.toNat < y.toNat then x else y) 0 0
      ∧ Gives s t c (.maxu c d a b) d (if x.toNat < y.toNat then y else x) 0 0
      ∧ Gives s t c (.rol c d a b) d (x.rotateLeft k) 0 0 ∧ Gives s t c (.ror c d a b) d (x.rotateRight k) 0 0)
    ∧ (t.Runs c { reads := [a], writes := [d] } →
      ∃ n m : Nat, Gives s t c (.clz c d a) d (BitVec.ofNat 64 n) 0 0 ∧ Gives s t c (.popc c d a) d (BitVec.ofNat 64 m) 0 0
        ∧ n ≤ 64 ∧ (∀ i, 64 - n ≤ i → i < 64 → (t.rd a).getLsbD i = false) ∧ (n < 64 → (t.rd a).getLsbD (63 - n) = true)
        ∧ m = ((List.range 64).filter (fun i => (t.rd a).getLsbD i)).length)
  ) ∧ (
∀ (s : State) (t : Thread) (c : Ctl) (d a b : Reg), Issues s t → t.Runs c { reads := [a, b], writes := [d] } →
    let x := t.rd a
    let y := t.rd b
    let ones := BitVec.allOnes 64
    let ok := fun (i : Instr) (v : Word) =>
      (3 ≤ c.w.toNat ∨ t.enables ≠ 0 → Gives s t c i d v 0 (s.cycle + 32))
      ∧ (c.w.toNat < 3 → t.enables = 0 → ∃ (u : State) (x1 : Thread), exec i s = .next u ∧ u.thread s.k s.sl = some x1
          ∧ (⟨d, v, 0, s.cycle + 32, t.pc⟩ : Pend) ∈ x1.pend ∧ (d ≠ 0#6 → ∀ p ∈ x1.pend, p.reg = d → p = ⟨d, v, 0, s.cycle + 32, t.pc⟩) ∧ (s.cycle + 32, Instr.longResultLand s.k s.sl) ∈ u.agenda
          ∧ x1.pc = t.pc + 4 ∧ Kept s t [] [] t.fpcsr u)
    ok (.div c d a b) (if y = 0 then ones else x.sdiv y) ∧ ok (.divu c d a b) (if y = 0 then ones else x / y)
    ∧ ok (.rem c d a b) (if y = 0 then x else x.srem y) ∧ ok (.remu c d a b) (if y = 0 then x else x % y)
  )

/-- R183, R184, R177: the compares and the bit words.
R185, R186, R33: the words with an immediate, widened by an IMM hint where one stands before them; a shift amount above 63 is ILLEGAL. -/
def Obligations.CompareBitAndImmediateWords : Prop :=
  (
∀ (s : State) (t : Thread) (c : Ctl) (d a b : Reg), Issues s t →
    let x := t.rd a
    let y := t.rd b
    let k := y.toNat % 64
    let say := fun (p : Bool) => if p then (1 : Word) else 0
    (t.Runs c { reads := [a, b], writes := [d] } →
    Gives s t c (.cmp c 0 d a b) d (say (x == y)) 0 0 ∧ Gives s t c (.cmp c 1 d a b) d (say (x != y)) 0 0
    ∧ Gives s t c (.cmp c 2 d a b) d (say (decide (x.toInt < y.toInt))) 0 0 ∧ Gives s t c (.cmp c 3 d a b) d (say (decide (y.toInt ≤ x.toInt))) 0 0
    ∧ Gives s t c (.cmp c 4 d a b) d (say (decide (x.toNat < y.toNat))) 0 0 ∧ Gives s t c (.cmp c 5 d a b) d (say (decide (y.toNat ≤ x.toNat))) 0 0
    ∧ Gives s t c (.cmp c 6 d a b) d (say ((x &&& y) != 0)) 0 0 ∧ Gives s t c (.cmp c 7 d a b) d (say ((x &&& y) == 0)) 0 0
    ∧ Gives s t c (.bset c d a b) d (x ||| 1#64 <<< k) 0 0 ∧ Gives s t c (.bclr c d a b) d (x &&& ~~~(1#64 <<< k)) 0 0
    ∧ Gives s t c (.binv c d a b) d (x ^^^ 1#64 <<< k) 0 0 ∧ Gives s t c (.bext c d a b) d (say (x.getLsbD k)) 0 0
    ∧ Gives s t c (.crnd c d a b) d (mix x y) 0 0)
    ∧ (t.Runs c { reads := [t.guardReg, if t.guardHolds then a else b], writes := [d] } → Gives s t c (.sel c d a b) d (if t.guardHolds then x else y) 0 0)
  ) ∧ (
∀ (s : State) (t : Thread) (c : Ctl) (d a : Reg) (i9 : BitVec 9) (i15 : BitVec 15), Issues s t →
    let x := t.rd a
    let z := t.rd d
    let im := if t.iv then sext 31 (t.immh * 512 + i9.toNat) else i9.signExtend 64
    (t.Runs c { immOk := true, reads := [a], writes := [d] } →
      Gives s t c (.addi c d a i9) d (x + im) 0 0 ∧ Gives s t c (.andi c d a i9) d (x &&& im) 0 0
      ∧ Gives s t c (.ori c d a i9) d (x ||| im) 0 0 ∧ Gives s t c (.xori c d a i9) d (x ^^^ im) 0 0
      ∧ (im.toNat ≤ 63 → Gives s t c (.shli c d a i9) d (x <<< im.toNat) 0 0 ∧ Gives s t c (.shri c d a i9) d (x >>> im.toNat) 0 0
          ∧ Gives s t c (.srai c d a i9) d (x.sshiftRight im.toNat) 0 0)
      ∧ (63 < im.toNat → ∀ i ∈ [Instr.shli c d a i9, .shri c d a i9, .srai c d a i9],
          exec i s = .next ((s.put t).trapEntry s.k s.sl .illegal ((encode i).setWidth 64) t.pc false)))
    ∧ (t.Runs c { immOk := true, writes := [d] } →
      Gives s t c (.movi c d i15) d (if t.iv then sext 37 (t.immh * 32768 + i15.toNat) else i15.signExtend 64) 0 0)
    ∧ (t.Runs c { immOk := true, reads := [d], writes := [d] } →
      Gives s t c (.movs c d i15) d
        (if t.iv then z <<< 37 ||| BitVec.ofNat 64 (t.immh * 32768 + i15.toNat) else z <<< 15 ||| i15.setWidth 64) 0 0)
  )

/-- R192 to R194, R160, R176: the floating words whose result is in place for the next word. Without an enabled exception the result and its flags are written;
with one, nothing is written and FP_EXCEPTION is raised.
R195, R196: conversions between the eight types, and the class of an encoding: one bit of ten, no flag, DAZ ignored.
R24, R25, R192: FDIV and FSQRT: minimum stall count 2 for .d, 1 for .s, 0 for .h and .bf; the result and its flags together, in place or pending.
R176, R353: an enabled exception writes nothing: the word waits until its result and the pending ones would have landed, and then FP_EXCEPTION is taken at its address. -/
def Obligations.ScalarFloatWords : Prop :=
  (
∀ (s : State) (t : Thread) (c : Ctl) (fmt : BitVec 2) (cc : BitVec 3) (d a b : Reg), Issues s t →
    let f := scalarFmt fmt.toNat
    let x := t.fval f a
    let y := t.fval f b
    let z := t.fval f d
    let m := t.mode 0
    let ok := fun (i : Instr) (r : Nat × Nat) =>
      (r.2 &&& t.enables = 0 → Gives s t c i d (BitVec.ofNat 64 r.1) r.2 0)
      ∧ (r.2 &&& t.enables ≠ 0 → exec i s = .next ((s.put t).trapEntry s.k s.sl .fpException (BitVec.ofNat 64 r.2) t.pc false))
    (t.Runs c { reads := [a, b], writes := [d] } →
      ok (.fadd c fmt d a b) (f.finish (t.rnd 0 false) (x.add m y)) ∧ ok (.fsub c fmt d a b) (f.finish (t.rnd 0 false) (x.add m y.neg))
      ∧ ok (.fmul c fmt d a b) (f.finish (t.rnd 0 false) (x.mul y))
      ∧ (∀ mx : Bool, ok (if mx then .fmax c fmt d a b else .fmin c fmt d a b)
          ((f.finish ⟨1, false, false, false⟩ (Val.pick mx x y).1.res).1, if x.isSig || y.isSig then 16 else 0))
      ∧ ok (.fcmpD c cc d a b) (let r := fcmp cc.toNat (t.fval (scalarFmt 0) a) (t.fval (scalarFmt 0) b); (r.1.toNat, if r.2 then 16 else 0))
      ∧ ok (.fcmpS c cc d a b) (let r := fcmp cc.toNat (t.fval (scalarFmt 1) a) (t.fval (scalarFmt 1) b); (r.1.toNat, if r.2 then 16 else 0)))
    ∧ (t.Runs c { reads := [a, b, d], writes := [d] } → ok (.fma c fmt d a b) (f.finish (t.rnd 0 false) (x.fma m y z)))
  ) ∧ (
∀ (s : State) (t : Thread) (c : Ctl) (fmt : BitVec 2) (src rnd dst : BitVec 3) (d a : Reg), Issues s t →
    (t.Runs c { roOk := true, reads := [a], writes := [d] } →
      let sc := cvtCode src.toNat
      let r := encodeElem (cvtCode dst.toNat) (t.rnd rnd.toNat false) (decodeElem sc t.daz ((t.rd a).toNat % 2 ^ fmtWidth sc))
      let v := if dst = 6 then (BitVec.ofNat 32 r.1).signExtend 64 else BitVec.ofNat 64 r.1
      (r.2 &&& t.enables = 0 → Gives s t c (.fcvt c src rnd dst d a) d v r.2 0)
      ∧ (r.2 &&& t.enables ≠ 0 →
          exec (.fcvt c src rnd dst d a) s = .next ((s.put t).trapEntry s.k s.sl .fpException (BitVec.ofNat 64 r.2) t.pc false)))
    ∧ (t.Runs c { reads := [a], writes := [d] } →
      ∃ n : Nat, n < 10 ∧ Gives s t c (.fclass c fmt d a) d (1#64 <<< n) 0 0 ∧ n = (scalarFmt fmt.toNat).classOf ((t.rd a).toNat % 2 ^ (scalarFmt fmt.toNat).width))
  ) ∧ (
∀ (s : State) (t : Thread) (c : Ctl) (fmt : BitVec 2) (d a b : Reg), Issues s t →
    let f := scalarFmt fmt.toNat
    let mn := 2 - fmt.toNat
    let land := s.cycle + 8 * (mn + 1)
    let ok := fun (i : Instr) (r : Nat × Nat) =>
      (r.2 &&& t.enables ≠ 0 → ∃ (u : State) (x1 : Thread), exec i s = .next u ∧ u.thread s.k s.sl = some x1
          ∧ x1.status = .parked (.trapping .fpException (BitVec.ofNat 64 r.2) t.pc false false) ∧ x1.pc = t.pc ∧ land ≤ x1.lastLand
          ∧ (x1.lastLand, Instr.longResultLand s.k s.sl) ∈ u.agenda ∧ Kept s t [] [] t.fpcsr u
          ∧ (∀ v : State, v.thread s.k s.sl = some x1 → (v.waitOver s.k x1 (.trapping .fpException (BitVec.ofNat 64 r.2) t.pc false false) = true ↔ x1.lastLand ≤ v.cycle)
              ∧ v.unpark s.k s.sl = v.trapEntry s.k s.sl .fpException (BitVec.ofNat 64 r.2) t.pc false))
      ∧ (r.2 &&& t.enables = 0 →
      (mn ≤ c.w.toNat ∨ t.enables ≠ 0 → Gives s t c i d (BitVec.ofNat 64 r.1) r.2 land)
      ∧ (c.w.toNat < mn → t.enables = 0 → ∃ (u : State) (x1 : Thread), exec i s = .next u ∧ u.thread s.k s.sl = some x1
          ∧ (⟨d, BitVec.ofNat 64 r.1, BitVec.ofNat 5 r.2, land, t.pc⟩ : Pend) ∈ x1.pend ∧ (land, Instr.longResultLand s.k s.sl) ∈ u.agenda
          ∧ x1.pc = t.pc + 4 ∧ Kept s t [] [] t.fpcsr u))
    (t.Runs c { reads := [a, b], writes := [d] } → ok (.fdiv c fmt d a b) (f.finish (t.rnd 0 false) ((t.fval f a).div (t.fval f b))))
    ∧ (t.Runs c { reads := [a], writes := [d] } → ok (.fsqrt c fmt d a) (f.finish (t.rnd 0 false) (t.fval f a).sqrt))
  )

/-- R206 to R211: every element-wise word completes with the runs that Append builds from its pieces, whenever its operands have the formats and lengths it needs;
a result beyond the capacity is cut under .CLIP and raises RUN_OVERFLOW without it; an enabled exception raises FP_EXCEPTION, after RUN_OVERFLOW (log 14). -/
def Obligations.VectorElementwiseWords : Prop :=
  ∀ (s : State) (t : Thread) (c : Ctl) (q : Qual) (vd va vb : VReg), Issues s t → t.claim ≠ 0 →
    let a := t.vr va
    let fits := fun (v : VecReg) => v.fmt.toNat ≠ 0 ∧ v.fmt = a.fmt ∧ v.len = a.len
    let mask := fun (m : Bool) (res : Nat) => m = true →
      (t.vr 0).fmt.toNat = 22 ∧ (t.vr 0).len = a.len ∧ (t.vr vd).fmt.toNat ≠ 0 ∧ (t.vr vd).fmt.toNat = res ∧ (t.vr vd).len = a.len
    let held := fun (m : Bool) => if m then [(t.vr 0).runs, (t.vr vd).runs] else []
    (∀ p ∈ vectorBinaries t c q vd va vb,
      let b := operandB t q.s a vb
      t.Runs c { reads := if q.s then [regOf vb] else [], writes := if q.clip then [regOf vd] else [] } →
      fits a → fits b → p.2.1 a.fmt.toNat = true → (p.2.2.2.1 = true → fits (t.vr vd)) → mask q.m (p.2.2.1 a.fmt.toNat) →
      elementOutcome s t c p.1 q.clip vd (p.2.2.1 a.fmt.toNat)
        (held q.m ++ a.runs :: b.runs :: (if p.2.2.2.1 then [(t.vr vd).runs] else [])) (maskedOp q.m (p.2.2.2.2 a.fmt.toNat)))
    ∧ (∀ p ∈ vectorUnaries t c q.clip q.m vd va, t.Runs c { writes := if q.clip then [regOf vd] else [] } →
        fits a → p.2.1 a.fmt.toNat = true → mask q.m a.fmt.toNat →
        elementOutcome s t c p.1 q.clip vd a.fmt.toNat (held q.m ++ [a.runs]) (maskedOp q.m (p.2.2 a.fmt.toNat)))
    ∧ (t.Runs c { writes := if q.clip then [regOf vd] else [] } → fits a → fits (t.vr vb) → notE8m0 a.fmt.toNat = true →
        (t.vr 0).fmt.toNat = 22 → (t.vr 0).len = a.len →
        elementOutcome s t c (.vsel c q.clip vd va vb) q.clip vd a.fmt.toNat [(t.vr 0).runs, a.runs, (t.vr vb).runs]
          (fun xs => if xs.headD 0 = 1 then (((xs.drop 1).headD 0).toNat, 0) else (((xs.drop 2).headD 0).toNat, 0)))

/-- R206, R208: the computation by pieces is the computation element by element: the runs built hold the elements' values in order, neighbouring runs differ,
the capacity is kept, and a cut falls where the next element would need one run more. -/
def Obligations.PiecesComputeElements : Prop :=
  ∀ (ss : List (List Run)) (cap len : Nat) (op : List Word → Nat × Nat), ss ≠ [] → len ≤ 65535 →
    (∀ l ∈ ss, (∀ r ∈ l, 1 ≤ r.count) ∧ (runElements l).length = len) →
    let els := (List.range len).map (fun i => op (ss.map (fun l => (runElements l).getD i 0)))
    let r := build cap ((piecesOf ss).map (fun p => (BitVec.ofNat 64 (op p.1).1, p.2, (op p.1).2))) [] 0 0
    let n := (runElements r.1).length
    runElements r.1 = (els.take n).map (fun e => BitVec.ofNat 64 e.1)
    ∧ r.2.1 = (els.take n).foldl (fun f e => f ||| e.2) 0
    ∧ r.1.length ≤ cap ∧ r.1.IsChain (fun x y => x.value ≠ y.value) ∧ (∀ x ∈ r.1, 1 ≤ x.count)
    ∧ (r.2.2 = none → n = len)
    ∧ (∀ k, r.2.2 = some k → k = n ∧ n < len ∧ r.1.length = cap ∧ ∀ x, r.1.getLast? = some x → ∀ e, els[n]? = some e → BitVec.ofNat 64 e.1 ≠ x.value)

/-- R211: the integer operations on one run of each operand: modulo 2^w, signed or unsigned as the format says; no flag. -/
def Obligations.VectorIntegerOneRun : Prop :=
  ∀ (s : State) (t : Thread) (c : Ctl) (vd va vb : VReg) (x y : Word) (n w : Nat) (sg : Bool), Issues s t → t.claim ≠ 0 → t.Runs c {} →
    0 < n → n ≤ 65535 → ifmt (t.vr va).fmt.toNat = some (sg, w) → t.vr va = ⟨(t.vr va).fmt, [⟨x, n⟩]⟩ → t.vr vb = ⟨(t.vr va).fmt, [⟨y, n⟩]⟩ →
    let q : Qual := ⟨false, false, false⟩
    let m := s.cycle + 8 + (1 + t.claim - 1) / t.claim
    let one := fun (z : Int) => (⟨(t.vr va).fmt, [⟨BitVec.ofNat 64 (z % (2 : Int) ^ w).toNat, n⟩]⟩ : VecReg)
    let truth := fun (p : Bool) => (⟨22, [⟨if p then 1 else 0, n⟩]⟩ : VecReg)
    let X := intOf sg w x.toNat
    let Y := intOf sg w y.toNat
    GivesV s t c (.vadd c q vd va vb) vd (one (X + Y)) 0 m ∧ GivesV s t c (.vsub c q vd va vb) vd (one (X - Y)) 0 m
    ∧ GivesV s t c (.vmul c q vd va vb) vd (one (X * Y)) 0 m
    ∧ GivesV s t c (.vmin c q vd va vb) vd ⟨(t.vr va).fmt, [⟨if X < Y then x else y, n⟩]⟩ 0 m
    ∧ GivesV s t c (.vmax c q vd va vb) vd ⟨(t.vr va).fmt, [⟨if X < Y then y else x, n⟩]⟩ 0 m
    ∧ GivesV s t c (.vand c q vd va vb) vd ⟨(t.vr va).fmt, [⟨x &&& y, n⟩]⟩ 0 m ∧ GivesV s t c (.vor c q vd va vb) vd ⟨(t.vr va).fmt, [⟨x ||| y, n⟩]⟩ 0 m
    ∧ GivesV s t c (.vxor c q vd va vb) vd ⟨(t.vr va).fmt, [⟨x ^^^ y, n⟩]⟩ 0 m
    ∧ GivesV s t c (.vshl c q vd va vb) vd (one (x.toNat * 2 ^ (y.toNat % w))) 0 m
    ∧ GivesV s t c (.vshr c q vd va vb) vd ⟨(t.vr va).fmt, [⟨BitVec.ofNat 64 (x.toNat / 2 ^ (y.toNat % w)), n⟩]⟩ 0 m
    ∧ (sg = true → GivesV s t c (.vsra c q vd va vb) vd (one (X / 2 ^ (y.toNat % w))) 0 m
        ∧ GivesV s t c (.vabs c false false vd va) vd (one X.natAbs) 0 m ∧ GivesV s t c (.vneg c false false vd va) vd (one (-X)) 0 m)
    ∧ GivesV s t c (.vmov c false false vd va) vd (t.vr va) 0 m
    ∧ GivesV s t c (.vcmpeq c q vd va vb) vd (truth (X == Y)) 0 m ∧ GivesV s t c (.vcmpne c q vd va vb) vd (truth (X != Y)) 0 m
    ∧ GivesV s t c (.vcmplt c q vd va vb) vd (truth (decide (X < Y))) 0 m ∧ GivesV s t c (.vcmple c q vd va vb) vd (truth (decide (X ≤ Y))) 0 m

/-- R205, R210, R207: without lanes a vector word raises NOLANES; an operand of a class it does not take raises FORMAT with its code; lengths that differ raise LENGTH with both.
R212, R213: copying and re-coalescing, run and element counts, cutting and extending, splatting, picking an element, joining. How long VRCO, VRUNS, VLEN and VELEM hold is log 92. -/
def Obligations.VectorFaultsAndShapes : Prop :=
  (
∀ (s : State) (t : Thread) (c : Ctl) (q : Qual) (vd va vb : VReg), Issues s t →
    let a := t.vr va
    let b := operandB t q.s a vb
    let stop := fun (i : Instr) (e : Cause) (v : Word) => exec i s = .next ((s.put t).trapEntry s.k s.sl e v t.pc false)
    (∀ p ∈ vectorBinaries t c q vd va vb,
      t.Runs c { reads := if q.s then [regOf vb] else [], writes := if q.clip then [regOf vd] else [] } →
      (t.claim = 0 → stop p.1 .noLanes 0)
      ∧ (t.claim ≠ 0 → a.fmt.toNat = 0 ∨ p.2.1 a.fmt.toNat = false → stop p.1 .format (a.fmt.setWidth 64))
      ∧ (t.claim ≠ 0 → a.fmt.toNat ≠ 0 → p.2.1 a.fmt.toNat = true → b.fmt ≠ a.fmt → stop p.1 .format (b.fmt.setWidth 64))
      ∧ (t.claim ≠ 0 → a.fmt.toNat ≠ 0 → p.2.1 a.fmt.toNat = true → b.fmt = a.fmt → (p.2.2.2.1 = true → (t.vr vd).fmt = a.fmt) → q.m = false → b.len ≠ a.len →
          stop p.1 .length (BitVec.ofNat 64 (a.len * 65536 + b.len))))
    ∧ (∀ p ∈ vectorUnaries t c q.clip q.m vd va, t.Runs c { writes := if q.clip then [regOf vd] else [] } →
      (t.claim = 0 → stop p.1 .noLanes 0)
      ∧ (t.claim ≠ 0 → a.fmt.toNat = 0 ∨ p.2.1 a.fmt.toNat = false → stop p.1 .format (a.fmt.setWidth 64)))
  ) ∧ (
∀ (s : State) (t : Thread) (c : Ctl) (clip : Bool) (vd va vb : VReg), Issues s t → t.claim ≠ 0 →
    let a := t.vr va
    let b := t.vr vb
    let n := t.rd (regOf vb)
    let f := a.fmt.toNat
    let at' := fun (p : Nat) => s.cycle + 8 + (p + t.claim - 1) / t.claim
    let stop := fun (i : Instr) (e : Cause) (v : Word) => exec i s = .next ((s.put t).trapEntry s.k s.sl e v t.pc false)
    isAnyC f = true →
    (t.Runs c {} → GivesV s t c (.vrco c false vd va vb) vd a 0 (at' a.runs.length))
    ∧ (t.Runs c { reads := [regOf vb] } →
        (n.toNat < 64 → GivesV s t c (.vrco c true vd va vb) vd ⟨a.fmt, recoalesce n.toNat a.runs []⟩ 0 (at' a.runs.length))
        ∧ (64 ≤ n.toNat → stop (.vrco c true vd va vb) .laneArg n)
        ∧ buildOutcome s t c (.vsplat c vd va vb) false vd f (if a.len = 0 then [] else [(BitVec.ofNat 64 (n.toNat % 2 ^ fmtWidth f), a.len, 0)]))
    ∧ (t.Runs c { writes := [regOf vd] } →
        Gives s t c (.vruns c vd va) (regOf vd) (BitVec.ofNat 64 a.runs.length) 0 (at' 0) ∧ Gives s t c (.vlen c vd va) (regOf vd) (BitVec.ofNat 64 a.len) 0 (at' 0))
    ∧ (t.Runs c { reads := [regOf vb], writes := if clip then [regOf vd] else [] } →
        let l := takeRuns n.toNat a.runs ++ (if a.len < n.toNat then [⟨0, n.toNat - a.len⟩] else [])
        (n.toNat ≤ 65535 → buildOutcome s t c (.vsetlen c clip vd va vb) clip vd f (l.map (fun r => (r.value, r.count, 0))))
        ∧ (65535 < n.toNat → stop (.vsetlen c clip vd va vb) .length n))
    ∧ (t.Runs c { writes := if clip then [regOf vd] else [] } → b.fmt = a.fmt →
        (a.len + b.len ≤ 65535 →
          buildOutcome s t c (.vcat c clip vd va vb) clip vd f ((a.runs ++ b.runs).map (fun r => (r.value, r.count, 0))))
        ∧ (65535 < a.len + b.len → stop (.vcat c clip vd va vb) .length (BitVec.ofNat 64 (a.len + b.len))))
    ∧ (t.Runs c { reads := [regOf vb], writes := [regOf vd] } →
        let x := elementAt n.toNat a.runs
        (n.toNat < a.len → Gives s t c (.velem c vd va vb) (regOf vd)
          (if isIntC f then sext (fmtWidth f) x.toNat else x) 0 (at' 0))
        ∧ (a.len ≤ n.toNat → stop (.velem c vd va vb) .length n))
  )

/-- R214, R209: the reductions over the pieces that take part: the value and flags in g(vd), held for the pieces; an enabled exception writes nothing.
Without a mask, the sums of integers and the count of elements that are not zero are those of the elements.
R216, R217: conversion run by run, with the rounding of the word; VQNT multiplies by the B32 scale first, with one rounding. RUN_OVERFLOW comes before FP_EXCEPTION (log 14). -/
def Obligations.VectorReductionsAndConversions : Prop :=
  (
∀ (s : State) (t : Thread) (c : Ctl) (m : Bool) (vd va : VReg), Issues s t → t.claim ≠ 0 → t.Runs c { writes := [regOf vd] } →
    let a := t.vr va
    let f := a.fmt.toNat
    f ≠ 0 → (m = true → (t.vr 0).fmt.toNat = 22 ∧ (t.vr 0).len = a.len) →
    let ps := piecesOf (if m then [a.runs, (t.vr 0).runs] else [a.runs])
    let used := (ps.filter (fun p => !m || (p.1.drop 1).headD 0 = 1)).map (fun p => ((p.1.headD 0).toNat, p.2))
    let hold := s.cycle + 8 + (ps.length + t.claim - 1) / t.claim
    let signed := fun k => isFloatC k || isIntC k
    (∀ p ∈ [(Instr.vrsum c m vd va, isArithC, sumRed false t f used), (.vrsumsq c m vd va, isArithC, sumRed true t f used), (.vrmax c m vd va, isArithC, extremeRed true t f used),
        (.vrmin c m vd va, isArithC, extremeRed false t f used), (.vrcnt c m vd va, notE8m0, countRed t f used), (.vamax c m vd va, signed, amaxRed t f used)],
      p.2.1 f = true →
        (p.2.2.2 &&& t.enables = 0 → Gives s t c p.1 (regOf vd) (BitVec.ofNat 64 p.2.2.1) p.2.2.2 hold)
        ∧ (p.2.2.2 &&& t.enables ≠ 0 → exec p.1 s = .next ((s.put t).trapEntry s.k s.sl .fpException (BitVec.ofNat 64 p.2.2.2) t.pc false)))
    ∧ (∀ (sg : Bool) (w : Nat), ifmt f = some (sg, w) → m = false → (∀ r ∈ a.runs, 1 ≤ r.count) → a.len ≤ 65535 →
        let els := (runElements a.runs).map (fun x => intOf sg w x.toNat)
        Gives s t c (.vrsum c m vd va) (regOf vd) (BitVec.ofInt 64 els.sum) 0 hold
        ∧ Gives s t c (.vrsumsq c m vd va) (regOf vd) (BitVec.ofInt 64 (els.map (fun x => x * x)).sum) 0 hold
        ∧ Gives s t c (.vrcnt c m vd va) (regOf vd) (BitVec.ofNat 64 ((runElements a.runs).filter (fun x => x != 0)).length) 0 hold)
  ) ∧ (
∀ (s : State) (t : Thread) (c : Ctl) (vd va sc : VReg) (fmt : BitVec 5) (rnd : BitVec 3) (sat : Bool), Issues s t → t.claim ≠ 0 →
    let a := t.vr va
    let f := a.fmt.toNat
    let conv := fun (g : Val → Val) (r : Run) =>
      let x := encodeElem fmt.toNat (t.rnd rnd.toNat sat) (g (decodeElem f t.daz r.value.toNat))
      (BitVec.ofNat 64 x.1, r.count, x.2)
    let scale := (scalarFmt 1).decodeDaz t.daz ((t.rd (regOf sc)).toNat % 2 ^ 32)
    (t.Runs c { roOk := true } → isAnyC f = true → notE8m0 fmt.toNat = true →
      buildOutcome s t c (.vcvt c vd va fmt rnd sat) false vd fmt.toNat (a.runs.map (conv id)))
    ∧ (t.Runs c { roOk := true, reads := [regOf sc] } → isFloatC f = true → isArithC fmt.toNat = true →
      buildOutcome s t c (.vqnt c vd va fmt rnd sat sc) false vd fmt.toNat (a.runs.map (conv (fun x => (x.times scale).getD (.nan true)))))
  )

/-- R203, R204, R156: claiming lanes grows or shrinks the claim or changes nothing; releasing empties every register; the query returns format, runs and length. -/
def Obligations.LaneClaims : Prop :=
  ∀ (s : State) (t : Thread) (c : Ctl) (d a : Reg), Issues s t →
    let l := (t.rd a).toNat
    let big := t.v.toList.any (fun v => decide (8 * l < v.runs.length))
    let free := (s.put t).lanesFree s.k
    let stop := fun (i : Instr) (e : Cause) => exec i s = .next ((s.put t).trapEntry s.k s.sl e (t.rd a) t.pc false)
    let claimed := s.put ((({ t with claim := l } : Thread).wr d (t.rd a)).complete c (t.pc + 4) 0)
    (t.Runs c { reads := [a], writes := [d] } →
      (l = 0 ∨ 16 < l → stop (.vclaim c d a) .laneArg)
      ∧ (0 < l → l < t.claim → l ≤ 16 → big = true → stop (.vclaim c d a) .runOverflow)
      ∧ (t.claim < l → l ≤ 16 → free < l - t.claim → Gives s t c (.vclaim c d a) d 0 0 0)
      ∧ (0 < l → l ≤ 16 → (l < t.claim → big = false) → (t.claim < l → l - t.claim ≤ free) → exec (.vclaim c d a) s = .next claimed)
      ∧ (16 ≤ l → stop (.vqry c d a) .laneArg)
      ∧ (l < 16 → Gives s t c (.vqry c d a) d
          (if t.claim = 0 then 0 else let v := t.vr ((t.rd a).setWidth 4); BitVec.ofNat 64 (v.fmt.toNat * 2 ^ 24 + v.runs.length * 2 ^ 16 + v.len)) 0 0))
    ∧ (t.Runs c {} → exec (.vrels c) s = .next (s.put (({ t with claim := 0, v := Vector.replicate 16 ⟨0, []⟩ } : Thread).complete c (t.pc + 4) 0)))

/-- R124, R125, R4: loads from the core's own local store: the bytes at the effective address, little-endian, extended as the form says; LDQ writes two registers. -/
def Obligations.LocalLoads : Prop :=
  ∀ (s : State) (t : Thread) (c : Ctl) (d base off : Reg), Acts s t 4 →
    let ea := fun (n : Nat) => t.rd base + (if t.iv then sext 28 (t.immh * 64 + off.toNat) else off.setWidth 64) * BitVec.ofNat 64 n
    let mem := fun (n : Nat) => leNat (readBytes s.mem (ownKey s (ea n)) n)
    (t.Runs c { immOk := true, reads := [base], writes := [d] } →
      (OwnBytes s t (ea 1) 1 → Gives s t c (.ldb c d base off) d ((BitVec.ofNat 8 (mem 1)).signExtend 64) 0 s.cycle
        ∧ Gives s t c (.ldbu c d base off) d (BitVec.ofNat 64 (mem 1)) 0 s.cycle)
      ∧ (OwnBytes s t (ea 2) 2 → Gives s t c (.ldh c d base off) d ((BitVec.ofNat 16 (mem 2)).signExtend 64) 0 s.cycle
        ∧ Gives s t c (.ldhu c d base off) d (BitVec.ofNat 64 (mem 2)) 0 s.cycle)
      ∧ (OwnBytes s t (ea 4) 4 → Gives s t c (.ldw c d base off) d ((BitVec.ofNat 32 (mem 4)).signExtend 64) 0 s.cycle
        ∧ Gives s t c (.ldwu c d base off) d (BitVec.ofNat 64 (mem 4)) 0 s.cycle)
      ∧ (OwnBytes s t (ea 8) 8 → Gives s t c (.ldd c d base off) d (BitVec.ofNat 64 (mem 8)) 0 s.cycle))
    ∧ (t.Runs c { immOk := true, reads := [base], writes := [d, d + 1#6] } → OwnBytes s t (ea 16) 16 → d.toNat % 2 = 0 →
      let u := s.put (((t.wr d (BitVec.ofNat 64 (mem 16 % 2 ^ 64))).wr (d + 1#6) (BitVec.ofNat 64 (mem 16 / 2 ^ 64))).complete c (t.pc + 4) s.cycle)
      exec (.ldq c d base off) s = .next u ∧ Kept s t [d, d + 1#6] [] t.fpcsr u)

/-- R124, R125, R121: stores to the core's own local store: the low bytes of G[d], or of G[d+1] ‖ G[d], little-endian at the effective address;
every other byte, every register and every full/empty bit is unchanged. -/
def Obligations.LocalStores : Prop :=
  ∀ (s : State) (t : Thread) (c : Ctl) (d base off : Reg), Acts s t 4 →
    let ea := fun (n : Nat) => t.rd base + (if t.iv then sext 28 (t.immh * 64 + off.toNat) else off.setWidth 64) * BitVec.ofNat 64 n
    let x := t.rd d
    let stored := fun (i : Instr) (n : Nat) (v : Nat) => OwnBytes s t (ea n) n →
      ∃ u : State, exec i s = .next u ∧ (∀ a, readByte u.mem a = if ownKey s (ea n) ≤ a ∧ a < ownKey s (ea n) + n then BitVec.ofNat 8 (v / 256 ^ (a - ownKey s (ea n))) else readByte s.mem a)
        ∧ u.full = s.full ∧ Kept s t [] [] t.fpcsr { u with mem := s.mem } ∧ ∃ y, u.thread s.k s.sl = some y ∧ y.pc = t.pc + 4 ∧ y.status = .ready
    (t.Runs c { immOk := true, reads := [base, d] } →
      stored (.stb c d base off) 1 x.toNat ∧ stored (.sth c d base off) 2 x.toNat ∧ stored (.stw c d base off) 4 x.toNat ∧ stored (.std c d base off) 8 x.toNat)
    ∧ (t.Runs c { immOk := true, reads := [base, d, d + 1#6] } → d.toNat % 2 = 0 → stored (.stq c d base off) 16 (x.toNat + (t.rd (d + 1#6)).toNat * 2 ^ 64))

/-- R11, R135, R351: an address that is neither a local one inside the store nor a translated one of 52 bits raises ADDRESS, with the first bad byte, on every load and store;
a synchronising access that is not naturally aligned raises ALIGN with the address, and an aligned one ADDRESS where its first bad byte lies. -/
def Obligations.AddressAndAlignFaults : Prop :=
  ∀ (s : State) (t : Thread) (c : Ctl) (d base off : Reg), Acts s t 4 →
    let o : Word := if t.iv then sext 28 (t.immh * 64 + off.toNat) else off.setWidth 64
    let stop := fun (i : Instr) (e : Cause) (v : Word) => ∃ u : State, exec i s = .next (u.trapEntry s.k s.sl e v t.pc false) ∧ u.mem = s.mem ∧ u.full = s.full ∧ u.thread s.k s.sl = some t
    (∀ p ∈ [(Instr.ldb c d base off, 1), (.ldbu c d base off, 1), (.ldh c d base off, 2), (.ldhu c d base off, 2), (.ldw c d base off, 4), (.ldwu c d base off, 4),
        (.ldd c d base off, 8)],
      t.Runs c { immOk := true, reads := [base], writes := [d] } → ∀ b, badByte (t.rd base + o * BitVec.ofNat 64 p.2) p.2 = some b → stop p.1 .address b)
    ∧ (∀ p ∈ [(Instr.stb c d base off, 1), (.sth c d base off, 2), (.stw c d base off, 4), (.std c d base off, 8)],
      t.Runs c { immOk := true, reads := [base, d] } → ∀ b, badByte (t.rd base + o * BitVec.ofNat 64 p.2) p.2 = some b → stop p.1 .address b)
    ∧ (∀ b, badByte (t.rd base + o * 16#64) 16 = some b →
        (t.Runs c { immOk := true, reads := [base], writes := [d, d + 1#6] } → stop (.ldq c d base off) .address b)
        ∧ (t.Runs c { immOk := true, reads := [base, d, d + 1#6] } → stop (.stq c d base off) .address b))
    ∧ (∀ sz : BitVec 2, sz ≠ 3#2 → ∀ n, n = 4 * 2 ^ sz.toNat →
        let ea := t.rd base + o * BitVec.ofNat 64 n
        let faults := fun (i : Instr) => (ea.toNat % n ≠ 0 → stop i .align ea) ∧ (ea.toNat % n = 0 → ∀ b, badByte ea n = some b → stop i .address b)
        (t.Runs c { immOk := true, reads := [base], writes := if sz = 2#2 then [d, d + 1#6] else [d] } → faults (.lds c sz d base off) ∧ faults (.ldsC c sz d base off))
        ∧ (t.Runs c { immOk := true, reads := if sz = 2#2 then [base, d, d + 1#6] else [base, d] } → faults (.sts c sz d base off)))

/-- R128, R129: synchronising accesses to the own store. LDS on a full granule reads, and its .C form empties it; STS on an empty one writes and fills it;
the other way round the word parks with no effect. The .Q forms read and write two registers. -/
def Obligations.SynchronisingAccesses : Prop :=
  ∀ (s : State) (t : Thread) (c : Ctl) (sz : BitVec 2) (d base off : Reg), Acts s t 4 → sz ≠ 3#2 →
    let n := 4 * 2 ^ sz.toNat
    let ea := t.rd base + (if t.iv then sext 28 (t.immh * 64 + off.toNat) else off.setWidth 64) * BitVec.ofNat 64 n
    let key := ownKey s ea
    let g := key / 16
    let two := sz = 2#2
    let m := leNat (readBytes s.mem key n)
    let loaded := if two then (t.wr d (BitVec.ofNat 64 (m % 2 ^ 64))).wr (d + 1#6) (BitVec.ofNat 64 (m / 2 ^ 64)) else t.wr d (BitVec.ofNat 64 m)
    let parks := fun (i : Instr) => s.cycle < (t.waitStart.getD (s.cycle, ea)).1 + t.synclim →
      ∃ (u : State) (x : Thread), exec i s = .next u ∧ u.thread s.k s.sl = some x ∧ x.status = .parked (.granule g) ∧ x.pc = t.pc ∧ Kept s t [] [] t.fpcsr u
    OwnBytes s t ea n → ea.toNat % n = 0 → NoWaiters s g →
    (t.Runs c { immOk := true, reads := [base], writes := if two then [d, d + 1#6] else [d] } →
      (s.fe g = true → exec (.lds c sz d base off) s = .next (s.put (loaded.complete c (t.pc + 4) s.cycle))
        ∧ Kept s t (if two then [d, d + 1#6] else [d]) [] t.fpcsr (s.put (loaded.complete c (t.pc + 4) s.cycle))
        ∧ ∃ (u : State) (x : Thread), exec (.ldsC c sz d base off) s = .next u ∧ u.mem = s.mem ∧ (∀ g', u.fe g' = (s.fe g' && decide (g' ≠ g)))
            ∧ u.thread s.k s.sl = some x ∧ x = loaded.complete c (t.pc + 4) s.cycle)
      ∧ (s.fe g = false → parks (.lds c sz d base off) ∧ parks (.ldsC c sz d base off)))
    ∧ (t.Runs c { immOk := true, reads := if two then [base, d, d + 1#6] else [base, d] } →
      (s.fe g = false → ∃ (u : State) (x : Thread), exec (.sts c sz d base off) s = .next u ∧ (∀ g', u.fe g' = (s.fe g' || decide (g' = g)))
          ∧ u.mem = writeBytes s.mem key (leBytes n ((t.rd d).toNat + (if two then (t.rd (d + 1#6)).toNat * 2 ^ 64 else 0))) ∧ u.thread s.k s.sl = some x ∧ x = t.complete c (t.pc + 4) s.cycle)
      ∧ (s.fe g = true → parks (.sts c sz d base off)))

/-- R134: the bit words on the own store: set, clear and test the granule's bit; WAITF and WAITF.E complete where the bit is as they want, and park elsewhere. -/
def Obligations.FullEmptyBitWords : Prop :=
  ∀ (s : State) (t : Thread) (c : Ctl) (d a : Reg), Acts s t 4 →
    let ea := t.rd a
    let g := ownKey s ea / 16
    OwnBytes s t ea 1 → NoWaiters s g →
    let done := fun (i : Instr) (v : Bool) => ∃ (u : State) (x : Thread), exec i s = .next u ∧ u.mem = s.mem ∧ (∀ g', u.fe g' = if g' = g then v else s.fe g')
      ∧ u.thread s.k s.sl = some x ∧ x = t.complete c (t.pc + 4) 0
    let parks := fun (i : Instr) => s.cycle < (t.waitStart.getD (s.cycle, ea)).1 + t.synclim →
      ∃ (u : State) (x : Thread), exec i s = .next u ∧ u.thread s.k s.sl = some x ∧ x.status = .parked (.granule g) ∧ x.pc = t.pc ∧ Kept s t [] [] t.fpcsr u
    (t.Runs c { reads := [a] } →
      done (.feset c a) true ∧ done (.feclr c a) false
      ∧ (s.fe g = true → exec (.waitf c a) s = .next (s.put (t.complete c (t.pc + 4) s.cycle)) ∧ parks (.waitfE c a))
      ∧ (s.fe g = false → exec (.waitfE c a) s = .next (s.put (t.complete c (t.pc + 4) s.cycle)) ∧ parks (.waitf c a)))
    ∧ (t.Runs c { reads := [a], writes := [d] } → Gives s t c (.fetest c d a) d (if s.fe g then 1 else 0) 0 0)

/-- R137, R138: an atomic on the own store is one event: G[d] receives the old value (sign-extended in the 4-byte forms), the bytes the new one;
ASWP and ACAS of a merged thread raise MULTIPLICITY. -/
def Obligations.LocalAtomics : Prop :=
  ∀ (s : State) (t : Thread) (c : Ctl) (w4 : Bool) (d a b : Reg), Acts s t 4 →
    let ea := t.rd a
    let n := if w4 then 4 else 8
    let w := 8 * n
    let key := ownKey s ea
    let m := leNat (readBytes s.mem key n)
    let v := (t.rd b).toNat % 2 ^ w
    let less := fun (x y : Nat) => decide ((BitVec.ofNat w x).toInt < (BitVec.ofNat w y).toInt)
    OwnBytes s t ea n → ea.toNat % n = 0 →
    let ok := fun (i : Instr) (new : Nat) => ∃ u : State, exec i s = .next u
      ∧ (∀ x, readByte u.mem x = if key ≤ x ∧ x < key + n then BitVec.ofNat 8 (new / 256 ^ (x - key)) else readByte s.mem x)
      ∧ u.full = s.full ∧ ∃ x, u.thread s.k s.sl = some x ∧ x = (t.wr d (if w4 then (BitVec.ofNat 32 m).signExtend 64 else BitVec.ofNat 64 m)).complete c (t.pc + 4) s.cycle
        ∧ Kept s t [d] [] t.fpcsr { u with mem := s.mem }
    (t.Runs c { reads := [a, b], writes := [d] } →
      ok (.aadd c w4 d a b) ((m + t.cnt * v) % 2 ^ w)
      ∧ ok (.amin c w4 d a b) (if less v m then v else m) ∧ ok (.amax c w4 d a b) (if less m v then v else m)
      ∧ ok (.aand c w4 d a b) (m &&& v) ∧ ok (.aor c w4 d a b) (m ||| v) ∧ ok (.axor c w4 d a b) (if t.cnt % 2 = 1 then m ^^^ v else m)
      ∧ (t.cnt ≤ 1 → ok (.aswp c w4 d a b) v)
      ∧ (1 < t.cnt → exec (.aswp c w4 d a b) s = .next ((s.put t).trapEntry s.k s.sl .multiplicity (BitVec.ofNat 64 t.cnt) t.pc false)))
    ∧ (t.Runs c { reads := [a, b, d], writes := [d] } →
      (t.cnt ≤ 1 → ok (.acas c w4 d a b) (if m = (t.rd d).toNat % 2 ^ w then v else m))
      ∧ (1 < t.cnt → exec (.acas c w4 d a b) s = .next ((s.put t).trapEntry s.k s.sl .multiplicity (BitVec.ofNat 64 t.cnt) t.pc false)))

/-- R126, R263, R15: an access whose one part lies in another module leaves as a request. A load sends a READ and holds; a store takes a serial, sends a WRITE and completes;
an atomic with d ≠ 0 takes a serial and holds, with d = 0 it is posted. No byte here changes, and no register but the serial. -/
def Obligations.AccessesLeaveTheModule : Prop :=
  ∀ (s : State) (t : Thread) (c : Ctl) (w4 : Bool) (d a b base off : Reg) (p : Piece), Acts s t 4 → p.isOwn = false → p.ctag = 0 → touching t [p] = [] →
    (ownerOf p.pa).module ≠ s.moduleNo → t.windowOk 1 = true → t.posted.length < 32 →
    let sent := fun (u : State) (x : Thread) (q : Request) (posted : Bool) =>
      q.dst = ownerOf p.pa ∧ q.stream = t.stream ∧ (∀ a, readByte u.mem a = readByte s.mem a) ∧ u.full = s.full ∧ u.thread s.k s.sl = some x
      ∧ (∃ r ∈ x.reqs, r.req = q ∧ r.posted = posted) ∧ (∀ r, x.rd r = t.rd r)
    (∀ f ∈ loadForms c d base off, t.Runs c { immOk := true, reads := [base], writes := [d] } →
      s.access s.k t.ptbase t.ctag ⟨true, false, false, false⟩ (effective t base off f.2) f.2 = .ok [p] →
      ∃ (u : State) (x : Thread) (q : Request), exec f.1 s = .next u ∧ u.outbox = s.outbox ++ [.reqRead q] ∧ sent u x q false ∧ q.serialed = false
        ∧ (∃ h, x.status = .holding h ∧ h.tag = q.tag) ∧ x.pc = t.pc)
    ∧ (∀ f ∈ storeForms c d base off, t.Runs c { immOk := true, reads := [base, d] } →
      s.access s.k t.ptbase t.ctag ⟨false, true, false, false⟩ (effective t base off f.2) f.2 = .ok [p] → p.size = f.2 →
      ∃ (u : State) (x : Thread) (q : Request), exec f.1 s = .next u ∧ u.outbox = s.outbox ++ [.reqWrite q] ∧ sent u x q true ∧ q.serial = t.serial
        ∧ q.bytes = leBytes f.2 (t.rd d).toNat ∧ x.serial = t.serial + 1 ∧ x.status = .ready ∧ x.pc = t.pc + 4)
    ∧ (t.Runs c { reads := [a, b], writes := [d] } → (t.rd a).toNat % (if w4 then 4 else 8) = 0 → isLocal (t.rd a) = false →
      s.access s.k t.ptbase t.ctag ⟨true, true, false, false⟩ (t.rd a) (if w4 then 4 else 8) = .ok [p] →
      ∃ (u : State) (x : Thread) (q : Request), exec (.aadd c w4 d a b) s = .next u ∧ u.outbox = s.outbox ++ [.reqAtomic q] ∧ sent u x q (d == 0#6)
        ∧ q.serial = t.serial ∧ q.cnt = t.cnt ∧ x.serial = t.serial + 1
        ∧ (d ≠ 0#6 → ∃ h, x.status = .holding h ∧ h.tag = q.tag) ∧ (d = 0#6 → x.status = .ready ∧ x.pc = t.pc + 4))

/-- R125, R137, R138: an access to DRAM of the module that nothing delays (no delay on the tape, no message under way, no refresh: log 9) is performed in the step in which its word acts;
a store or an atomic where the channel accepts its serial (R265), and a store that no earlier posted request of its thread to that channel keeps back (log 83). -/
def Obligations.DramAccesses : Prop :=
  ∀ (s : State) (t : Thread) (c : Ctl) (w4 : Bool) (d a b base off : Reg) (p : Piece), Acts s t 4 → InDram s p → p.ctag = 0 → touching t [p] = [] → s.NoDelay →
    t.windowOk 1 = true → t.posted.length < 32 →
    let key := p.pa % 2 ^ 44
    let m := leNat (readBytes s.mem key p.size)
    (∀ f ∈ [(Instr.ldbu c d base off, 1), (.ldhu c d base off, 2), (.ldwu c d base off, 4), (.ldd c d base off, 8)], t.Runs c { immOk := true, reads := [base], writes := [d] } →
      s.access s.k t.ptbase t.ctag ⟨true, false, false, false⟩ (effective t base off f.2) f.2 = .ok [p] → p.size = f.2 →
      ∃ (u : State) (x : Thread), exec f.1 s = .next u ∧ u.mem = s.mem ∧ u.full = s.full ∧ u.thread s.k s.sl = some x
        ∧ x = (t.wr d (BitVec.ofNat 64 m)).complete c (t.pc + 4) s.cycle)
    ∧ (∀ f ∈ storeForms c d base off, Accepts s t (.channel (p.pa / 2 ^ 40 % 16) (channelOf p.pa)) → (∀ r ∈ t.posted, r.req.dst ≠ ownerOf p.pa) → t.Runs c { immOk := true, reads := [base, d] } →
      s.access s.k t.ptbase t.ctag ⟨false, true, false, false⟩ (effective t base off f.2) f.2 = .ok [p] → p.size = f.2 →
      ∃ (u : State) (x : Thread), exec f.1 s = .next u ∧ u.mem = writeBytes s.mem key (leBytes f.2 (t.rd d).toNat) ∧ u.full = s.full ∧ u.thread s.k s.sl = some x
        ∧ x.serial = t.serial + 1 ∧ x.reqs = t.reqs ∧ x.pc = t.pc + 4 ∧ x.status = .ready ∧ ∀ r, x.rd r = t.rd r)
    ∧ (t.Runs c { reads := [a, b], writes := [d] } → (t.rd a).toNat % (if w4 then 4 else 8) = 0 → isLocal (t.rd a) = false → d ≠ 0#6 → Accepts s t (.channel (p.pa / 2 ^ 40 % 16) (channelOf p.pa)) → p.size = (if w4 then 4 else 8) →
      s.access s.k t.ptbase t.ctag ⟨true, true, false, false⟩ (t.rd a) (if w4 then 4 else 8) = .ok [p] →
      ∃ (u : State) (x : Thread), exec (.aadd c w4 d a b) s = .next u ∧ u.mem = writeBytes s.mem key (leBytes p.size ((m + t.cnt * ((t.rd b).toNat % 2 ^ (8 * p.size))) % 2 ^ (8 * p.size)))
        ∧ u.thread s.k s.sl = some x ∧ x.rd d = (if w4 then (BitVec.ofNat 32 m).signExtend 64 else BitVec.ofNat 64 m) ∧ x.serial = t.serial + 1 ∧ x.pc = t.pc + 4)

/-- R218 to R220: VLD from the own store, for elements of 8 bits or more: the longest prefix of the n elements whose runs fit the lanes (neighbouring runs differ, and an element left behind would have needed one run more); VST writes the first m elements densely.
Both write the count back, and a count of 0 moves nothing. -/
def Obligations.VectorLoadsAndStores : Prop :=
  ∀ (s : State) (t : Thread) (c : Ctl) (vd : VReg) (base count : Reg) (fmt : BitVec 5), Acts s t 4 → t.claim ≠ 0 → t.Runs c { reads := [base, count], writes := [count] } →
    isAnyC fmt.toNat = true → 8 ≤ fmtWidth fmt.toNat →
    let w := fmtWidth fmt.toNat / 8
    let ea := t.rd base
    let key := ownKey s ea
    ea.toNat % w = 0 →
    (let n := min (t.rd count).toNat 65535
     OwnBytes s t ea (n * w) → ∃ (u : State) (x : Thread) (k : Nat), exec (.vld c vd base count fmt) s = .next u ∧ u.mem = s.mem ∧ u.full = s.full ∧ u.thread s.k s.sl = some x
      ∧ k ≤ n ∧ (x.vr vd).fmt = fmt ∧ runElements (x.vr vd).runs = (List.range k).map (fun i => BitVec.ofNat 64 (leNat (readBytes s.mem (key + i * w) w)))
      ∧ (x.vr vd).runs.length ≤ 8 * t.claim ∧ (∀ r ∈ (x.vr vd).runs, 0 < r.count) ∧ (∀ l a b m, (x.vr vd).runs = l ++ a :: b :: m → a.value ≠ b.value)
      ∧ (k < n → (x.vr vd).runs.length = 8 * t.claim ∧ ∀ r, (x.vr vd).runs.getLast? = some r → r.value ≠ BitVec.ofNat 64 (leNat (readBytes s.mem (key + k * w) w)))
      ∧ x.rd count = (if count = 0#6 then 0 else BitVec.ofNat 64 k) ∧ x.pc = t.pc + 4 ∧ Kept s t [count] [vd] t.fpcsr u)
    ∧ (let v := t.vr vd
       let m := min (t.rd count).toNat v.len
       v.fmt = fmt → (∀ r ∈ v.runs, r.value.toNat < 2 ^ (8 * w)) → OwnBytes s t ea (m * w) →
       ∃ (u : State) (x : Thread), exec (.vst c vd base count fmt) s = .next u
        ∧ u.mem = writeBytes s.mem key ((runElements (takeRuns m v.runs)).flatMap (fun e => leBytes w e.toNat)) ∧ u.full = s.full ∧ u.thread s.k s.sl = some x
        ∧ x.rd count = (if count = 0#6 then 0 else BitVec.ofNat 64 m) ∧ x.vr vd = v ∧ x.pc = t.pc + 4)

/-- R140 to R145: the directory: lookup under the thread's ctag, the lowest index first; set, clear and invalidate; bad descriptors raise DIR_ARG. Nothing else of the core changes. -/
def Obligations.LocalDirectory : Prop :=
  ∀ (s : State) (t : Thread) (c : Ctl) (d a b : Reg), Issues s t →
    let dir := (s.core s.k).dir
    let va := t.rd a
    let x := t.rd b
    let hit := fun (e : Nat × DirEntry) => e.2.ctag == t.ctag && e.2.va / 2 ^ (8 + e.2.size) == va.toNat / 2 ^ (8 + e.2.size)
    let after := fun (i : Instr) (l : Tab DirEntry) (r : Reg) (v : Word) => ∃ u : State, exec i s = .next u ∧ (u.core s.k).dir = l
      ∧ Kept s t [r] [] t.fpcsr (u.mapCore s.k (fun k => { k with dir := dir })) ∧ ∃ y, u.thread s.k s.sl = some y ∧ y.rd r = (if r = 0#6 then 0 else v) ∧ y.pc = t.pc + 4
    (t.Runs c { reads := [a], writes := [d] } →
      (2 ^ 52 ≤ va.toNat → Gives s t c (.lkp c d a) d (BitVec.allOnes 64) 0 0)
      ∧ (va.toNat < 2 ^ 52 → (∀ e ∈ dir, hit e = false) → Gives s t c (.lkp c d a) d (BitVec.allOnes 64) 0 0)
      ∧ (va.toNat < 2 ^ 52 → ∀ e, dir.find? hit = some e → Gives s t c (.lkp c d a) d (0x8000000000000000#64 + BitVec.ofNat 64 (e.2.slot + va.toNat % 2 ^ (8 + e.2.size))) 0 0))
    ∧ (t.Runs c { reads := [a, b], writes := [d] } →
      let size := bits x 8 3
      let slot := bits x 16 17
      (bits x 33 15 ≠ 0 ∨ bits x 11 5 ≠ 0 ∨ bits x 7 1 ≠ 0 ∨ 5 < size → exec (.dset c d a b) s = .next ((s.put t).trapEntry s.k s.sl .dirArg x t.pc false))
      ∧ (bits x 33 15 = 0 → bits x 11 5 = 0 → bits x 7 1 = 0 → size ≤ 5 → va.toNat < 2 ^ 52 → va.toNat % 2 ^ (8 + size) = 0 → slot % 2 ^ (8 + size) = 0 →
          slot + 2 ^ (8 + size) ≤ Config.localSize →
          after (.dset c d a b) (dir.put (bits x 0 7) ⟨va.toNat, bits x 48 16, size, slot⟩) d (if (dir.find (bits x 0 7)).isSome then 1 else 0))
      ∧ (va.toNat < 2 → x.toNat < 2 ^ 16 →
          let gone := fun (e : Nat × DirEntry) => va = 1 || e.2.ctag == x.toNat
          after (.dinv c d a b) (dir.filter (fun e => !gone e)) d (BitVec.ofNat 64 (dir.filter gone).length)))
    ∧ (t.Runs c { reads := [a] } →
      (va.toNat < 128 → after (.dclr c a) (dir.del va.toNat) 0#6 0)
      ∧ (128 ≤ va.toNat → exec (.dclr c a) s = .next ((s.put t).trapEntry s.k s.sl .dirArg va t.pc false)))

/-- R147, R268, R273, R274: fences and RSYNC complete where nothing they cover is open, park where something is, and raise the oldest unreported entry; RSTAT reads the remote state. -/
def Obligations.FencesAndRemoteState : Prop :=
  ∀ (s : State) (t : Thread) (c : Ctl) (sc : BitVec 3) (d a : Reg), Issues s t →
    let done := fun (i : Instr) => Gives s t c i 0#6 0 0 0
    let parks := fun (i : Instr) (w : Wait) => s.cycle < (t.waitStart.getD (s.cycle, 0)).1 + t.synclim →
      ∃ (u : State) (x : Thread), exec i s = .next u ∧ u.thread s.k s.sl = some x ∧ x.status = .parked w ∧ x.pc = t.pc ∧ Kept s t [] [] t.fpcsr u
    let open' := t.posted.any (fun p => s.covers s.k sc.toNat p.req.dst)
    let told := t.unk.all UnkEntry.reported
    let raises := fun (i : Instr) => ∀ e, t.unk.find? (fun u => !u.reported) = some e →
      exec i s = .next ((s.put { t with unk := t.unk.map (fun x => { x with reported := true }) }).trapEntry s.k s.sl
        (if e.reason = 3 then e.cause.getD .remoteUnknown else .remoteUnknown) (e.serial.setWidth 64) t.pc false false)
    (t.Runs c {} →
      done (.fenceAcq c sc)
      ∧ (open' = false → told = true → done (.fenceRel c sc) ∧ done (.fenceFull c sc))
      ∧ (open' = false → (∃ e ∈ t.unk, e.reported = false ∧ (e.owner = none ∨ ∃ o, e.owner = some o ∧ s.covers s.k sc.toNat o = true)) → raises (.fenceRel c sc) ∧ raises (.fenceFull c sc))
      ∧ (open' = true → parks (.fenceRel c sc) (.fence sc.toNat) ∧ parks (.fenceFull c sc) (.fence sc.toNat))
      ∧ (t.engs = [] → (∀ e ∈ t.unk, e.owner = none → e.reported = true) → done (.fenceEngine c))
      ∧ (t.engs = [] → (∃ e ∈ t.unk, e.owner = none ∧ e.reported = false) → raises (.fenceEngine c)) ∧ (t.engs ≠ [] → parks (.fenceEngine c) .engines)
      ∧ (t.reqs = [] → (told = true → done (.rsync c)) ∧ raises (.rsync c)) ∧ (t.reqs ≠ [] → parks (.rsync c) .requests))
    ∧ (t.Runs c { reads := [a], writes := [d] } →
      (t.rd a = 0 → Gives s t c (.rstat c d a) d (BitVec.ofNat 64 t.reqs.length) 0 0)
      ∧ (t.rd a = 1 → Gives s t c (.rstat c d a) d (BitVec.ofNat 64 (t.unk.length + (if t.unkOver then 2 ^ 63 else 0))) 0 0)
      ∧ (t.rd a = 2 → (t.unk = [] → Gives s t c (.rstat c d a) d (BitVec.allOnes 64) 0 0)
          ∧ ∀ e l, t.unk = e :: l → exec (.rstat c d a) s = .next (s.put ((({ t with unk := l } : Thread).wr d e.word).complete c (t.pc + 4) 0)))
      ∧ (t.rd a = 3 → exec (.rstat c d a) s = .next (s.put ((({ t with unk := [], unkOver := false } : Thread).wr d 0).complete c (t.pc + 4) 0)))
      ∧ (4 ≤ (t.rd a).toNat → exec (.rstat c d a) s = .next ((s.put t).trapEntry s.k s.sl .remoteArg (t.rd a) t.pc false)))

/-- R80, R81, R84, R86: CTALLOC makes a LIVE child of its parent with any free number, and holds where none is free; CTSET changes K.CTAG and nothing else of the ctags;
CTSTAT reads a record. Each request takes one serial; a refused one traps with its cause. Here where nothing delays the request (log 9) and the allocator accepts its serial; no other thread has the stream of this one (R261).
R82, R83, R86, R397: with no earlier work of its thread open under the ctag, CTCOMMIT leaves it COMMITTING and CTDROP leaves every member of D RETIRED, which no thread has as its private ctag any more (R68); the word completes,
and the rest of the commit or drop stands on the agenda. Nothing in memory and no cell has changed yet. A child that is LIVE or COMMITTING, or whose drop is in progress, refuses a commit.
With such work open the word parks. Here where nothing delays the request (log 9) and the allocator accepts its serial. -/
def Obligations.CanopyWords : Prop :=
  (
∀ (s : State) (t : Thread) (c : Ctl) (d a b : Reg), Issues s t → t.sendWait 1 0 = none → s.NoDelay → Accepts s t .ctagAlloc → s.OwnStream t →
    let s1 := s.put t
    let x := t.rd a
    let y := t.rd b
    let live := fun (n : Nat) => n < 65536 ∧ s1.ctagState n = .live ∧ (n = 0 ∨ (s1.ctagRec n).guest = t.guest)
    let kept := fun (u : State) (z : Thread) => u.mem = s.mem ∧ u.full = s.full ∧ u.cells = s.cells ∧ (∀ k sl, (k, sl) ≠ (s.k, s.sl) → u.thread k sl = s.thread k sl)
      ∧ u.thread s.k s.sl = some z ∧ z.serial = t.serial + 1 ∧ z.engs = t.engs
    let traps := fun (i : Instr) (e : Cause) (v : Word) => ∃ (u : State) (z : Thread), exec i s = .next (u.trapEntry s.k s.sl e v t.pc false)
      ∧ kept u z ∧ u.ctags = s.ctags ∧ z.ctag = t.ctag ∧ z.pc = t.pc ∧ ∀ r, z.rd r = t.rd r
    (t.Runs c { reads := [a, b], writes := [d] } →
      let ok := y.toNat < 4 ∧ ¬ (y.getLsbD 1 = true ∧ x = 0)
      let deep := (s1.ctagRec x.toNat).depth = 7
      let free := fun (n : Nat) => 1 ≤ n ∧ n < 65536 ∧ s1.ctagState n = .free
      (¬ live x.toNat → traps (.ctalloc c d a b) .ctagInvalid x)
      ∧ (live x.toNat → ¬ ok → traps (.ctalloc c d a b) .ctagInvalid y)
      ∧ (live x.toNat → ok → deep → traps (.ctalloc c d a b) .ctagDepth x)
      ∧ (live x.toNat → ok → ¬ deep → (∃ n, free n) →
          ∃ (n : Nat) (u : State) (z : Thread), free n ∧ exec (.ctalloc c d a b) s = .next u ∧ kept u z
            ∧ u.ctags = s.ctags.put n ⟨.live, x.toNat, (s1.ctagRec x.toNat).depth + 1, t.guest, y.getLsbD 0, y.getLsbD 1, none⟩
            ∧ z.ctag = t.ctag ∧ z.pc = t.pc + 4 ∧ z.status = .ready ∧ ∀ r, z.rd r = (if r = d ∧ d ≠ 0#6 then BitVec.ofNat 64 n else t.rd r))
      ∧ (live x.toNat → ok → ¬ deep → (∀ n, ¬ free n) →
          ∃ (u : State) (z : Thread) (h : Hold), exec (.ctalloc c d a b) s = .next u ∧ kept u z ∧ u.ctags = s.ctags ∧ z.status = .holding h ∧ h.kind = .ctalloc d x
            ∧ z.pc = t.pc ∧ ∀ r, z.rd r = t.rd r))
    ∧ (t.Runs c { reads := [a], writes := [d] } →
      (¬ live x.toNat → traps (.ctset c d a) .ctagInvalid x)
      ∧ (live x.toNat → ∃ (u : State) (z : Thread), exec (.ctset c d a) s = .next u ∧ kept u z ∧ u.ctags = s.ctags
          ∧ z.ctag = x.toNat ∧ z.pc = t.pc + 4 ∧ z.status = .ready ∧ ∀ r, z.rd r = (if r = d ∧ d ≠ 0#6 then BitVec.ofNat 64 t.ctag else t.rd r))
      ∧ (65536 ≤ x.toNat → Traps s t (.ctstat c d a) .ctagInvalid x)
      ∧ (x.toNat < 65536 → ∃ w : Word, Gives s t c (.ctstat c d a) d w 0 0
          ∧ (x.toNat ≠ 0 → (s1.ctagRec x.toNat).guest ≠ t.guest → w = 0)
          ∧ ((x.toNat = 0 ∨ (s1.ctagRec x.toNat).guest = t.guest) → s1.ctagState x.toNat ≠ .free → (s1.ctagRec x.toNat).depth < 8 → (s1.ctagRec x.toNat).parent < 65536 →
              bits w 32 32 = min (2 ^ 32 - 1) (s.cells.filter (fun e => e.ctag == x.toNat)).length ∧ bits w 24 8 = min 255 (s1.ctagHolders x.toNat)
              ∧ w.getLsbD 23 = (s1.ctagRec x.toNat).chk ∧ w.getLsbD 22 = (s1.ctagRec x.toNat).kill
              ∧ bits w 20 2 = (match s1.ctagState x.toNat with | .free => 0 | .live => 1 | .committing => 2 | .retired => 3)
              ∧ w.getLsbD 19 = s1.hasKids x.toNat ∧ bits w 16 3 = (s1.ctagRec x.toNat).depth ∧ bits w 0 16 = (s1.ctagRec x.toNat).parent)))
  ) ∧ (
∀ (s : State) (t : Thread) (c : Ctl) (a b : Reg), Issues s t → t.sendWait 1 0 = none → t.engs.length < 64 → s.NoDelay → Accepts s t .ctagAlloc → t.Runs c { reads := [a, b] } →
    let s1 := s.put t
    let x := t.rd a
    let y := t.rd b
    let n := x.toNat
    let live := n < 65536 ∧ s1.ctagState n = .live ∧ (n = 0 ∨ (s1.ctagRec n).guest = t.guest)
    let goodRef := bits y 17 15 = 0 ∧ bits y 0 4 = 0 ∧ bits y 0 17 < 0x18000
    let both := [Instr.ctcommit c a b, .ctdrop c a b]
    let traps := fun (i : Instr) (e : Cause) (v : Word) => ∃ (u : State) (z : Thread), exec i s = .next (u.trapEntry s.k s.sl e v t.pc false)
      ∧ u.mem = s.mem ∧ u.cells = s.cells ∧ u.ctags = s.ctags ∧ u.thread s.k s.sl = some z ∧ z.serial = t.serial + 1 ∧ z.pc = t.pc ∧ z.ctag = t.ctag ∧ ∀ r, z.rd r = t.rd r
    let after := fun (u : State) => (∀ k, readByte u.mem k = readByte s.mem k) ∧ u.full = s.full ∧ u.cells = s.cells
      ∧ ∃ z, u.thread s.k s.sl = some z ∧ z.pc = t.pc + 4 ∧ z.serial = t.serial + 1 ∧ z.ctag = t.ctag ∧ (∀ r, z.rd r = t.rd r)
        ∧ z.engs = t.engs ++ [⟨.canopy, t.serial, 0, y, t.ctag, t.pc⟩]
    let issuer := fun (e : Env) => ∃ r, s1.issuer t.stream = some r ∧ e = s1.env r.2.1 r.1 t.serial
    (¬ goodRef → ∀ i ∈ both, Traps s t i .address y)
    ∧ (goodRef → s1.ctagBusy s.k t n true = true → s.cycle < (t.waitStart.getD (s.cycle, 0)).1 + t.synclim →
        ∃ (u : State) (z : Thread), exec (.ctcommit c a b) s = .next u ∧ u.thread s.k s.sl = some z ∧ z.status = .parked (.ctagWork n true) ∧ z.pc = t.pc ∧ Kept s t [] [] t.fpcsr u)
    ∧ (goodRef → s1.ctagBusy s.k t n true = false →
        (¬ live → ∀ i ∈ both, traps i .ctagInvalid x) ∧ (n = 0 → ∀ i ∈ both, traps i .ctagInvalid 0)
        ∧ (live → n ≠ 0 → s1.hasKids n = true ∨ s1.dropsKid n = true → traps (.ctcommit c a b) .ctagBusy x)
        ∧ (live → n ≠ 0 → s1.hasKids n = false → s1.dropsKid n = false → ∃ (u : State) (at' : Nat) (e : Env), exec (.ctcommit c a b) s = .next u ∧ after u ∧ issuer e
            ∧ u.ctagRec n = { s1.ctagRec n with state := .committing, job := some (some (y, e)) }
            ∧ (∀ m, m ≠ n → u.ctagRec m = s.ctagRec m) ∧ s.cycle ≤ at' ∧ (at', Instr.canopyCommit n) ∈ u.agenda)
        ∧ (live → n ≠ 0 → ∃ (u : State) (at' : Nat) (e : Env), exec (.ctdrop c a b) s = .next u ∧ after u ∧ issuer e
            ∧ (∀ m, (u.ctagRec m).state = (if m ∈ s1.dropSet n then .retired else (s.ctagRec m).state))
            ∧ u.drops = s.drops ++ [⟨n, s1.dropSet n, some (y, e), false⟩]
            ∧ (∀ k sl z, (k, sl) ≠ (s.k, s.sl) → s.thread k sl = some z → ∃ z1, u.thread k sl = some z1
                ∧ z1 = { (if z.ctag ∈ s1.dropSet n ∧ (s.ctagRec z.ctag).kill = true then z.setKill .ctagKilled (BitVec.ofNat 64 z.ctag) s.cycle else z) with
                    ownCtag := z.ownCtag.filter (fun m => !(s1.dropSet n).contains m) })
            ∧ s.cycle ≤ at' ∧ (at', Instr.canopyDrop n) ∈ u.agenda))
  )

/-- R85, R86, R188 to R191: LDX reads 8 bytes as they are under the ctag in G[b], LIVE and of its guest on every kind of page; GADDR gives the owner and the offset
of a coordinate by its distribution table, or the fault of R191. Where nothing delays the reads (log 9) they end in the step in which the word acts. -/
def Obligations.LoadsByCtagAndTable : Prop :=
  ∀ (s : State) (t : Thread) (c : Ctl) (d a b : Reg) (f : BitVec 3), Acts s t 4 →
    let s1 := s.put t
    let ea := t.rd a
    let ct := t.rd b
    (t.Runs c { reads := [a, b], writes := [d] } →
      (OwnBytes s t ea 8 → bits ea 0 3 ≠ 0 → Traps s t (.ldx c d a b) .align ea)
      ∧ (OwnBytes s t ea 8 → bits ea 0 3 = 0 → s1.ctagOk ct.toNat t.guest = false → Traps s t (.ldx c d a b) .ctagInvalid ct)
      ∧ (OwnBytes s t ea 8 → bits ea 0 3 = 0 → s1.ctagOk ct.toNat t.guest = true →
          Gives s t c (.ldx c d a b) d (BitVec.ofNat 64 (leNat (readBytes s.mem (ownKey s ea) 8))) 0 s.cycle)
      ∧ (∀ p l, InDram s p → s1.access s.k t.ptbase ct.toNat ⟨true, false, false, false⟩ ea 8 = .ok [p] → p.size = 8 → bits ea 0 3 = 0 →
          s1.ctagOk ct.toNat t.guest = true → touching t [p] = [] → s.NoDelay → (s.readPiece p).2 = some l →
          ∃ (u : State) (x : Thread), exec (.ldx c d a b) s = .next u ∧ u.mem = s.mem ∧ u.full = s.full ∧ u.cells = s.cells ∧ u.ctags = s.ctags
            ∧ u.thread s.k s.sl = some x ∧ x = (t.wr d (leWord l)).complete c (t.pc + 4) s.cycle))
    ∧ (t.Runs c { reads := [a, a + 1#6], writes := [d, d + 1#6] } →
      ((bits t.dtbase 0 8 ≠ 0 ∨ 2 ^ 52 ≤ t.dtbase.toNat) → Traps s t (.gaddr c d a f) .address t.dtbase)
      ∧ (∀ (ps : List Piece), bits t.dtbase 0 8 = 0 → t.dtbase.toNat < 2 ^ 52 → d.toNat ≤ 62 →
          let va := t.dtbase + BitVec.ofNat 64 (32 * f.toNat)
          s1.tableParts s.k t va = .ok ps → (∀ p ∈ ps, InDram s p ∧ p.ctag = 0) → touching t ps = [] → s.NoDelay →
          let l := ps.flatMap (fun p => readBytes s.mem (p.pa % 2 ^ 44) p.size)
          l.length = 32 →
          let i := ea.toNat
          let j := (t.rd (a + 1#6)).toNat
          let br := field l 0 4
          let bc := field l 4 4
          let pr := field l 8 2
          let pc := field l 10 2
          let ld := field l 12 4
          let es := field l 16 1
          let org := field l 20 4
          let lb := field l 24 4
          let good := 1 ≤ br ∧ 1 ≤ bc ∧ 1 ≤ pr ∧ pr ≤ 80 ∧ 1 ≤ pc ∧ pc ≤ 128 ∧ 1 ≤ ld ∧ es ∈ [1, 2, 4, 8, 16] ∧ field l 17 3 = 0 ∧ org < 2 ^ 18 ∧ org % 16384 < 10240
            ∧ lb < 0x18000 ∧ field l 28 4 = 0
          let li := i / br / pr * br + i % br
          let lj := j / bc / pc * bc + j % bc
          let row := org % 16384 / 128 + i / br % pr
          let col := org % 16384 % 128 + j / bc % pc
          let off := lb + (li * ld + lj) * es
          let fails := fun (e : Cause) (v : Word) (addr : Bool) => ∃ (u : State), exec (.gaddr c d a f) s = .next (u.trapEntry s.k s.sl e v t.pc false addr)
            ∧ u.mem = s.mem ∧ u.cores = s1.cores
          (¬ good → fails .distArg va true)
          ∧ (good → (79 < row ∨ 127 < col ∨ ld ≤ lj) → fails .distArg ea false)
          ∧ (good → row ≤ 79 → col ≤ 127 → lj < ld → 0x18000 < off + es → fails .address (BitVec.ofNat 64 off) true)
          ∧ (good → row ≤ 79 → col ≤ 127 → lj < ld → off + es ≤ 0x18000 →
              ∃ (u : State) (x : Thread), exec (.gaddr c d a f) s = .next u ∧ u.mem = s.mem ∧ u.full = s.full ∧ u.cells = s.cells ∧ u.thread s.k s.sl = some x
                ∧ x.rd d = (if d = 0#6 then 0 else BitVec.ofNat 64 (org / 16384 * 16384 + row * 128 + col)) ∧ x.rd (d + 1#6) = BitVec.ofNat 64 off ∧ x.pc = t.pc + 4
                ∧ (∀ r, r ≠ d → r ≠ d + 1#6 → x.rd r = t.rd r))))

/-- R88, R89, R109, R110: a copy word that passes its checks takes a serial and a free copy tag, writes its handle, completes, and leaves its command at the port,
whose first access comes at cycle + 4. One that fails a check raises its fault and sends nothing. CSTAT reads the busy tags. -/
def Obligations.CopyWords : Prop :=
  ∀ (s : State) (t : Thread) (c : Ctl) (d a n : Reg) (r : Bool), Issues s t →
    let block := fun (m : Nat) => (List.range m).map (fun j => a + BitVec.ofNat 6 j)
    let copies := (s.core s.k).copies
    let starts := fun (i : Instr) (f m ref : Nat) =>
      let l := t.block a m
      t.Runs c { roOk := f == 4, reads := block m, writes := [d] } →
      (∀ e, copyBad f l = some e → Traps s t i e.1 e.2)
      ∧ (copyBad f l = none → (s.put t).ctagOk t.ctag t.guest = false → Traps s t i .ctagInvalid (BitVec.ofNat 64 t.ctag))
      ∧ (copyBad f l = none → (s.put t).ctagOk t.ctag t.guest = true → t.engs.length < 64 → t.sendWait 1 0 = none → (∃ g < 32, copies.find g = none) →
          ∃ (u : State) (x : Thread) (g : Nat), exec i s = .next u ∧ g < 32 ∧ copies.find g = none ∧ u.thread s.k s.sl = some x
            ∧ u.mem = s.mem ∧ u.full = s.full ∧ u.cells = s.cells ∧ u.ctags = s.ctags ∧ (∀ k, k ≠ s.k → u.core k = s.core k)
            ∧ (∃ cmd, (u.core s.k).copies = copies.put g cmd ∧ cmd.f = f ∧ cmd.regs = l ∧ cmd.env = (s.put t).env t s.k t.serial ∧ cmd.ref = (l.drop ref).headD 0
                ∧ cmd.next = 0 ∧ cmd.fail = none ∧ cmd.rnd = t.mode (bits ((l.drop 3).headD 0) 16 3))
            ∧ u.agenda = insertEvent (s.cycle + 4) (.dramAccessComplete s.k g) s.agenda
            ∧ x.rd d = (if d = 0#6 then 0 else BitVec.ofNat 64 (t.serial.toNat * 2 ^ 32 + g)) ∧ x.serial = t.serial + 1 ∧ x.pc = t.pc + 4 ∧ x.ctag = t.ctag
            ∧ x.engs = t.engs ++ [⟨.copy, t.serial, g, (l.drop ref).headD 0, t.ctag, t.pc⟩] ∧ ∀ q, q ≠ d → x.rd q = t.rd q)
    starts (.cpy c d a r) 0 (if r then 5 else 4) 3 ∧ starts (.cpy2 c d a r) 1 (if r then 7 else 6) 5 ∧ starts (.gath c d a n) 2 n.toNat 4
    ∧ starts (.scat c d a) 3 5 4 ∧ starts (.cpyx c d a n) 4 n.toNat 4
    ∧ (t.Runs c { reads := block 4, writes := [d] } →
        let dst := t.rd (a + 0#6)
        let len := t.rd (a + 2#6)
        (2 ^ 32 ≤ len.toNat → Traps s t (.cpy c d a false) .copyArg len)
        ∧ (len.toNat < 2 ^ 32 → dst.getLsbD 63 = false → (t.rd (a + 1#6)).getLsbD 63 = false → Traps s t (.cpy c d a false) .copyArg dst))
    ∧ (t.Runs c { writes := [d] } → Gives s t c (.cstat c d) d (BitVec.ofNat 64 (copies.foldl (fun n x => n + 2 ^ x.1) 0)) 0 0)
    ∧ (t.Runs c { reads := [a], writes := [d] } →
        let h := t.rd a
        Gives s t c (.cstatHandle c d a) d (match copies.find (bits h 0 5) with | some x => if x.env.serial.toNat = bits h 32 32 then 1 else 0 | none => 0) 0 0)

/-- R87, R90, R95, R96, R103, R106: one access of a copy command: the list entry of a part is read as the part begins; a piece of the part's source inside a 1 KiB unit is read; a part read whole is written to its local destination
and the granules it completes are set full; a part that does not fit the local store fails alone, with ADDRESS. Here for the own local store, the writes with CPY and CPY2. When a list entry is read is log 105. -/
def Obligations.CopyCommandsAndObjects : Prop :=
  ∀ (s : State) (k tag : Nat) (c : CopyCmd), (s.core k).copies.find tag = some c → c.wait = none → c.next < unitCount c.f c.regs →
    let key := fun (a : Word) => localKey k (bits a 0 17)
    let entry := key (nth c.regs 2) + c.next * geoIdx c.regs
    let clean := fun (a n : Nat) => ∀ w ∈ wordsOf a n, w ∉ s.eccOne ∧ w ∉ s.eccBad
    (c.wantsIndex = true → clean entry (geoIdx c.regs)) →
    let c1 := if c.wantsIndex then { c with index := some (leNat (readBytes s.mem entry (geoIdx c.regs))) } else c
    let u := c1.unit
    let va := u.src + BitVec.ofNat 64 c.got.length
    let n := min (1024 - va.toNat % 1024) (u.n - c.got.length)
    let physical := fun (g : Nat) => s.localPa k 0 / 16 + (g - localKey k 0 / 16)
    let goesOn := fun (v : State) (x : CopyCmd) => (v.core k).copies.find tag = some x
      ∧ ∃ at', s.cycle + 1 ≤ at' ∧ (at', Instr.dramAccessComplete k tag) ∈ v.agenda
    (c.piece = [] → c.fetch = 0 → c.got.length < u.n → isLocal va = true → bits va 0 17 + n ≤ 0x18000 → clean (key va) n →
      ∃ v : State, exec (.dramAccessComplete k tag) s = .next v ∧ v.mem = s.mem ∧ v.full = s.full
        ∧ goesOn v { c1 with got := c.got ++ (readBytes s.mem (key va) n).map some })
    ∧ (c.got.length = u.n → ∀ b, isLocal u.dst = true → badByte u.dst u.m = some b →
      ∃ (v : State) (x : CopyCmd), exec (.dramAccessComplete k tag) s = .next v ∧ v.mem = s.mem ∧ v.full = s.full ∧ goesOn v x ∧ x.next = c.next + 1 ∧ x.got = [] ∧ x.index = none
        ∧ x.fail = some (c.fail.getD (.address, b)) ∧ x.full = c.full)
    ∧ (c.f ≤ 1 → c.got.length = u.n → isLocal u.dst = true → bits u.dst 0 17 + u.m ≤ 0x18000 → (∀ b ∈ c.got, b.isSome = true) → (∀ x ∈ s.cores, x.2.waiters = []) →
      ∃ (v : State) (x : CopyCmd), exec (.dramAccessComplete k tag) s = .next v ∧ goesOn v x ∧ x.next = c.next + 1 ∧ x.got = [] ∧ x.fail = c.fail
        ∧ (∀ g ∈ s.full, g ∈ v.full)
        ∧ (∀ g ∈ v.full, g ∈ s.full ∨ (∃ p ∈ c.full, g = localKey k 0 / 16 + (p - s.localPa k 0 / 16)) ∨ (key u.dst < 16 * g + 16 ∧ 16 * g < key u.dst + u.m))
        ∧ (c.f = 0 → c.high.1 ≤ u.dst.toNat → ∀ g, key u.dst ≤ 16 * g → 16 * g + 16 ≤ key u.dst + u.m → physical g ∉ c.lost → g ∈ v.full)
        ∧ (c.f = 0 → v.mem = writeBytes s.mem (key u.dst) (c.got.map (fun b => b.getD 0)))
        ∧ (c.f = 1 → ∀ a, ¬ (key u.dst ≤ a ∧ a < key u.dst + u.m) → readByte v.mem a = readByte s.mem a))

/-- R226, R241, R242, R249: claiming and releasing operand slots, and MCAP: what each writes in the core, its waits, and its faults. Nothing in memory changes.
R248, R120: CBLOAD by the holder: its faults; its wait for the accepted commands; then its access to the own store, 4 cycles after its issue, which fills the codebook and holds the thread for 72 cycles. -/
def Obligations.MatrixOwnershipWords : Prop :=
  (
∀ (s : State) (t : Thread) (c : Ctl) (d a : Reg), Issues s t → (s.core s.k).ops.length = 16 →
    let core := s.core s.k
    let m := t.rd a
    let named := fun (i : Nat) => i < 16 ∧ m.getLsbD i = true
    let after := fun (u : State) (ds : List Reg) (v : Word) => (∀ p, readByte u.mem p = readByte s.mem p) ∧ u.full = s.full ∧ (∀ k, k ≠ s.k → u.core k = s.core k)
      ∧ ∃ x, u.thread s.k s.sl = some x ∧ x.pc = t.pc + 4 ∧ (∀ r, r ∉ ds → x.rd r = t.rd r) ∧ (∀ r ∈ ds, x.rd r = (if r = 0#6 then 0 else v)) ∧ t.SameSpecial x
    let parks := fun (i : Instr) (w : Wait) => ∃ (u : State) (x : Thread), exec i s = .next u ∧ u.thread s.k s.sl = some x ∧ x.status = .parked w ∧ x.pc = t.pc ∧ Kept s t [] [] t.fpcsr u
    (t.Runs c { reads := [a], writes := [d] } →
      (bits m 16 48 ≠ 0 → Traps s t (.oclaim c d a) .matrixArg m)
      ∧ (bits m 16 48 = 0 → (∀ i, named i → (core.op i).owner = none) → ∃ u : State, exec (.oclaim c d a) s = .next u ∧ after u [d] m
          ∧ ∀ i, (u.core s.k).op i = (if named i then { OpSlot.reset with owner := some s.sl } else core.op i))
      ∧ (bits m 16 48 = 0 → (∃ i, named i ∧ (core.op i).owner ≠ none) → Gives s t c (.oclaim c d a) d 0 0 0))
    ∧ (t.Runs c { reads := [a] } →
      ((∃ i, named i ∧ (core.op i).owner ≠ some s.sl) → Traps s t (.orels c a) .matrixArg m)
      ∧ ((∀ i, named i → (core.op i).owner = some s.sl ∧ core.slotNamed i = false) → ∃ u : State, exec (.orels c a) s = .next u ∧ after u [] 0
          ∧ ∀ i, (u.core s.k).op i = (if named i then OpSlot.reset else core.op i))
      ∧ ((∀ i, named i → (core.op i).owner = some s.sl) → (∃ i, named i ∧ core.slotNamed i = true) →
          s.cycle < (t.waitStart.getD (s.cycle, 0)).1 + t.synclim → parks (.orels c a) (.slotsUnnamed m.toNat)))
    ∧ (t.Runs c { writes := [d] } →
      (core.acount = 0 → Traps s t (.mcap c d) .matrixArg 0)
      ∧ (core.acount ≠ 0 → core.mq ≠ [] → parks (.mcap c d) .unitQueue)
      ∧ (core.acount ≠ 0 → core.mq = [] → core.caps.length ≤ 65536 → ∃ (u : State) (cap : BitVec 32), exec (.mcap c d) s = .next u
          ∧ cap ≠ 0 ∧ cap ≠ core.cap ∧ cap ∉ core.caps ∧ after u [d] (cap.setWidth 64)
          ∧ (u.core s.k).holder = some s.sl ∧ (u.core s.k).cap = cap ∧ (∀ j < 4, (u.core s.k).kbOf j = 0) ∧ (u.core s.k).acc = core.acc ∧ (u.core s.k).ops = core.ops))
  ) ∧ (
∀ (s : State) (t : Thread) (c : Ctl) (a : Reg), Acts s t (if s.actsNow then 4 else 0) → t.Runs c { reads := [a] } →
    let core := s.core s.k
    let m := t.rd a
    let i := Instr.cbload c a
    let tags := core.mq.map MCmd.tag
    (core.holder ≠ some s.sl → Traps s t i .accHolder (BitVec.ofNat 64 s.sl))
    ∧ (core.holder = some s.sl → isLocal m = false → Traps s t i .address m)
    ∧ (core.holder = some s.sl → OwnBytes s t m 1024 → m.toNat % 16 ≠ 0 → Traps s t i .align m)
    ∧ (core.holder = some s.sl → OwnBytes s t m 1024 → m.toNat % 16 = 0 →
        (s.actsNow = false → core.mq ≠ [] → t.waitStart = none →
          ∃ (u : State) (x : Thread), exec i s = .next u ∧ u.thread s.k s.sl = some x ∧ x.status = .parked (.commands 4 tags) ∧ x.pc = t.pc ∧ Kept s t [] [] t.fpcsr u)
        ∧ (s.actsNow = false → core.mq = [] ∨ t.waitStart ≠ none → exec i s = .next (s.put { t with status := .acting (s.cycle + 4) ((encode i).setWidth 32) }))
        ∧ (s.actsNow = true → ∃ (u : State) (x : Thread), exec i s = .next u ∧ u.mem = s.mem ∧ u.full = s.full ∧ (∀ k, k ≠ s.k → u.core k = s.core k)
          ∧ u.thread s.k s.sl = some x ∧ x.pc = t.pc + 4 ∧ (∀ r, x.rd r = t.rd r) ∧ t.SameSpecial x ∧ x.status = .ready ∧ s.cycle + 68 ≤ x.elig
          ∧ (u.core s.k).acc = core.acc ∧ (u.core s.k).ops = core.ops ∧ (u.core s.k).mq = core.mq
          ∧ (∀ p < 256, ((u.core s.k).cb.find p).getD 0 = BitVec.ofNat 32 (leNat (readBytes s.mem (ownKey s m + 4 * p) 4)))))
  )

/-- R243, R244, R227, R226, R247, R249: MMA and MRED check their blocks, take a serial, send their command and complete; the unit of the issuing core accepts it at once where nothing delays it
(log 9) and its receipts admit the serial. An MRED waits only for accepted commands that name its sub-tile. -/
def Obligations.MatrixCommandWords : Prop :=
  ∀ (s : State) (t : Thread) (c : Ctl) (a : Reg), Issues s t → t.engs.length < 64 → t.sendWait 1 0 = none → t.Runs c { reads := [a, a + 1#6, a + 2#6, a + 3#6] } →
    let core := s.core s.k
    let tg := t.rd a
    let cap := t.rd (a + 1#6)
    let w := t.rd (a + 2#6)
    let ref := t.rd (a + 3#6)
    let okTarget := bits tg 52 12 = 0 ∧ bits tg 18 14 = 0 ∧ bits tg 0 14 < 10240
    let own := bits tg 32 20 = s.moduleNo ∧ bits tg 0 18 = s.k
    let okRef := bits ref 17 14 = 0 ∧ bits ref 0 4 = 0 ∧ bits ref 0 17 < 0x18000
    let af := bits w 29 5
    let bf := bits w 24 5
    let okWord := bits w 0 2 = 0 ∧ bits w 15 5 ≤ 16 ∧ bits w 10 5 ≤ 16 ∧ bits w 4 6 ≤ 32 ∧ bits w 60 4 + slotsOf af ≤ 16 ∧ bits w 56 4 + slotsOf bf ≤ 16
      ∧ (w.getLsbD 21 = true → bits w 52 4 + slotsOf af ≤ 16) ∧ (w.getLsbD 20 = true → bits w 48 4 + slotsOf bf ≤ 16) ∧ (own → bits w 46 2 < core.acount)
      ∧ (w.getLsbD 23 = true → isWide af = false ∧ isWide bf = false) ∧ af ≠ 20 ∧ af ≠ 21
    let formats := macRate af ≠ 0 ∧ macRate bf ≠ 0 ∧ pairOk af bf = true
    let okRed := bits w 16 48 = 0 ∧ bits w 0 2 < core.acount ∧ (own → bits w 2 2 < core.acount)
    let admits := s.NoDelay ∧ Accepts s t (.core s.k) ∧ (s.put t).ackOf t.stream = t.ackw ∧ ∀ w ∈ core.waiters, w.typ ≠ .mma ∧ w.typ ≠ .mred
    let noErr := fun (sub : Nat) => ∀ x ∈ wordsOf (accErr s.k sub) 0x1000, x ∉ s.eccOne ∧ x ∉ s.eccBad
    let done := fun (u : State) (kind : EngKind) => (∀ p, readByte u.mem p = readByte s.mem p) ∧ u.full = s.full
      ∧ ∃ x, u.thread s.k s.sl = some x ∧ x.pc = t.pc + 4 ∧ x.serial = t.serial + 1 ∧ (∀ r, x.rd r = t.rd r)
        ∧ x.engs = t.engs ++ [⟨kind, t.serial, 0, ref, t.ctag, t.pc⟩]
    (∀ i ∈ [Instr.mma c a, .mred c a], (¬ okTarget → Traps s t i .matrixArg tg) ∧ (okTarget → 2 ^ 32 ≤ cap.toNat → Traps s t i .matrixArg cap))
    ∧ (okTarget → cap.toNat < 2 ^ 32 →
        (¬ okWord → Traps s t (.mma c a) .matrixArg w) ∧ (okWord → ¬ formats → Traps s t (.mma c a) .format w)
        ∧ (okWord → formats → ¬ okRef → Traps s t (.mma c a) .address ref)
        ∧ (okWord → formats → okRef → bits tg 32 20 ≠ s.moduleNo → core.sends = [] → (s.put t).ackOf t.stream = t.ackw →
            ∃ (u : State) (q : Request), exec (.mma c a) s = .next u ∧ u.outbox = s.outbox ++ [.reqMma q] ∧ q.serial = t.serial ∧ q.ack = t.ackw ∧ q.words.take 4 = [tg, cap, w, ref] ∧ done u .mma)
        ∧ (okWord → formats → okRef → own → admits → core.sends = [] → core.mq.length < 8 → 0 < t.synclim → t.synclim < 2 ^ 64 → cap.toNat = core.cap.toNat → cap ≠ 0 →
            bits w 15 5 ≠ 0 → bits w 10 5 ≠ 0 →
            ∃ (u : State) (m : MCmd), exec (.mma c a) s = .next u ∧ done u .mma ∧ (u.core s.k).mq = core.mq ++ [m] ∧ m.regs = [tg, cap, w, ref] ∧ m.limit = t.synclim ∧ m.mred = false
              ∧ m.env.serial = t.serial ∧ m.env.stream = t.stream ∧ (u.core s.k).acc = core.acc ∧ (u.core s.k).ops = core.ops ∧ (u.core s.k).sends = []
              ∧ (core.mq = [] → (u.core s.k).phase = .waiting s.cycle ∧ (s.cycle + t.synclim, Instr.matrixHeadTimeout s.k) ∈ u.agenda))
        ∧ (okWord → formats → okRef → own → admits → core.sends = [] → 0 < t.synclim → t.synclim < 2 ^ 64 → cap = 0 ∨ cap.toNat ≠ core.cap.toNat →
            ∃ (u : State) (x : Arrival) (at' : Nat), exec (.mma c a) s = .next u ∧ done u .mma ∧ (u.core s.k).mq = core.mq ∧ (u.core s.k).ops = core.ops
              ∧ (at', Instr.completionArrival x) ∈ u.agenda ∧ x.serial = t.serial ∧ x.ref = ref ∧ x.fail = some (.capRefused, 0)))
    ∧ (okTarget → cap.toNat < 2 ^ 32 →
        (¬ okRed → Traps s t (.mred c a) .matrixArg w) ∧ (okRed → core.holder ≠ some s.sl → Traps s t (.mred c a) .accHolder (BitVec.ofNat 64 s.sl))
        ∧ (okRed → core.holder = some s.sl → ¬ okRef → Traps s t (.mred c a) .address ref)
        ∧ (okRed → core.holder = some s.sl → okRef → core.applied (bits w 0 2) = false → 0 < t.synclim → t.waitStart = none →
            ∃ (u : State) (x : Thread), exec (.mred c a) s = .next u ∧ u.thread s.k s.sl = some x ∧ x.status = .parked (.applied (bits w 0 2)) ∧ x.pc = t.pc ∧ Kept s t [] [] t.fpcsr u)
        ∧ (okRed → core.holder = some s.sl → okRef → own → admits → core.sends = [] → core.redbuf = [] → core.applied (bits w 0 2) = true → noErr (bits w 0 2) → noErr (bits w 2 2) → 0 < t.synclim → t.synclim < 2 ^ 64 →
            cap.toNat = core.cap.toNat → cap ≠ 0 → bits w 4 12 = core.kbOf (bits w 2 2) →
            core.nextKb.length = 4 → (∀ p ∈ core.threads, p.2.draining = none ∧ ∀ u l, p.2.status ≠ .parked (.commands u l)) →
            ∃ u : State, exec (.mred c a) s = .next u ∧ done u .mred ∧ (u.core s.k).kbOf (bits w 2 2) = core.kbOf (bits w 2 2) + 1
              ∧ (∀ n < 256, (u.core s.k).accAt (bits w 2 2 * 256 + n)
                  = ((Aw.ofBits (core.accAt (bits w 2 2 * 256 + n))).add (Aw.ofBits (core.accAt (bits w 0 2 * 256 + n)))).toBits)
              ∧ (∀ n, n / 256 ≠ bits w 2 2 → (u.core s.k).accAt n = core.accAt n)))

/-- R245, R224, R223, R237, R120: MFILL from the own store, which it reads 4 cycles after its issue, into empty owned slots: element e of the panel is the element of its row and column, the scales are copied or 0x7F,
descriptor and full bits are set, the thread is held 8 + 64 cycles a slot from its issue; a full slot makes it wait, and bad operands raise the causes of R249. -/
def Obligations.OperandFill : Prop :=
  ∀ (s : State) (t : Thread) (c : Ctl) (a : Reg), Acts s t 4 → (s.core s.k).ops.length = 16 → t.Runs c { reads := [a, a + 1#6, a + 2#6] } →
    let core := s.core s.k
    let src := t.rd a
    let ctl := t.rd (a + 1#6)
    let sc := t.rd (a + 2#6)
    let pitch := bits ctl 48 16
    let fmt := bits ctl 32 5
    let w := panelWidth fmt
    let roleB := ctl.getLsbD 43
    let tr := ctl.getLsbD 42
    let along := roleB == tr
    let rows := if along then 16 else 32
    let rowb := ((if along then 32 else 16) * w + 7) / 8
    let first := bits ctl 44 4
    let n := slotsOf fmt
    let slots := (List.range n).map (fun i => first + i)
    let ok := bits ctl 37 3 = 0 ∧ bits ctl 0 32 = 0 ∧ rowb ≤ pitch ∧ first + n ≤ 16 ∧ ((fmt = 20 ∨ fmt = 21) → roleB = true ∧ tr = false)
    macRate fmt ≠ 0 →
    (¬ ok → Traps s t (.mfill c a) .matrixArg ctl)
    ∧ (ok → sc = 0 → (∃ i ∈ slots, (core.op i).owner ≠ some s.sl) → Traps s t (.mfill c a) .matrixArg ctl)
    ∧ (ok → sc ≠ 0 → w ≤ 8 → (∀ i ∈ slots, (core.op i).owner = some s.sl) → ctl.getLsbD 40 = along → Traps s t (.mfill c a) .scaleAxis ctl)
    ∧ (ok → (∀ i ∈ slots, (core.op i).owner = some s.sl) → ctl.getLsbD 41 = false → OwnBytes s t src ((rows - 1) * pitch + rowb) →
        (sc ≠ 0 → w ≤ 8 ∧ ctl.getLsbD 40 ≠ along ∧ OwnBytes s t sc 16) → (8 ≤ w → src.toNat % (w / 8) = 0 ∧ pitch % (w / 8) = 0) →
        ((∃ i ∈ slots, (core.op i).full = true) → s.cycle < (t.waitStart.getD (s.cycle, 0)).1 + t.synclim →
          ∃ (u : State) (x : Thread) (wt : Wait), exec (.mfill c a) s = .next u ∧ u.thread s.k s.sl = some x ∧ x.status = .parked wt ∧ x.pc = t.pc ∧ Kept s t [] [] t.fpcsr u)
        ∧ ((∀ i ∈ slots, (core.op i).full = false) →
          ∃ (u : State) (x : Thread), exec (.mfill c a) s = .next u ∧ u.mem = s.mem ∧ u.full = s.full ∧ u.thread s.k s.sl = some x
            ∧ x.pc = t.pc + 4 ∧ (∀ r, x.rd r = t.rd r) ∧ s.cycle + 4 + 64 * n ≤ x.elig
            ∧ (∀ i ∈ slots, ((u.core s.k).op i).full = true ∧ ((u.core s.k).op i).owner = some s.sl ∧ ((u.core s.k).op i).fmt = fmt ∧ ((u.core s.k).op i).roleB = roleB
                ∧ ((u.core s.k).op i).scaled = (sc != 0))
            ∧ (∀ i, i ∉ slots → (u.core s.k).op i = core.op i)
            ∧ (∀ e < 512, let p := if roleB then (e / 16, e % 16) else (e / 32, e % 32)
                let r := if tr then (p.2, p.1) else p
                (u.core s.k).operand slots / 2 ^ (e * w) % 2 ^ w = leNat (readBytes s.mem (ownKey s src + r.1 * pitch) rowb) / 2 ^ (r.2 * w) % 2 ^ w)
            ∧ (w ≤ 8 → ∀ j < 16, (((u.core s.k).op first).data.find (1008 + j)).getD 0 = (if sc = 0 then 0x7F#8 else readByte s.mem (ownKey s sc + j)))))

/-- R246, R250, R120: MDRAIN by the holder: its wait for the accepted commands of its sub-tile; then, 4 cycles after its issue, the sub-tile in the named format at the destination, each element times the scale of its row
where RS is set and of its column where CS is, each touched granule full, the raised flags in K.FPCSR, and with ZERO the sub-tile zero and NEXTKB 0; an enabled exception writes nothing. With n = 4 and no scale flag both forms do the same. -/
def Obligations.AccumulatorDrain : Prop :=
  ∀ (s : State) (t : Thread) (c : Ctl) (a : Reg), Acts s t (if s.actsNow then 4 else 0) →
    let core := s.core s.k
    let dst := t.rd (a + 0#6)
    let ctl := t.rd (a + 1#6)
    let pitch := bits ctl 48 16
    let fmt := bits ctl 8 5
    let sub := bits ctl 0 2
    let rs := ctl.getLsbD 19
    let cs := ctl.getLsbD 18
    let w := fmtWidth fmt
    let rowb := 2 * w
    let key := ownKey s dst
    let tags := core.naming sub
    let ok := bits ctl 20 28 = 0 ∧ bits ctl 13 3 = 0 ∧ bits ctl 2 3 = 0 ∧ sub < core.acount ∧ bits ctl 5 3 ≤ 5 ∧ rowb ≤ pitch
    let does := fun (i : Instr) (ra ca : Word) =>
      let scale := fun (on : Bool) (va : Word) (j : Nat) =>
        if on then some (match ffmt 2 with | some f => f.decodeDaz t.daz (leNat (readBytes s.mem (ownKey s va + 4 * j) 4)) | none => Val.nan false) else none
      let el := fun (i j : Nat) => drainElem fmt (t.rnd (bits ctl 5 3) (ctl.getLsbD 16)) (scale rs ra i) (scale cs ca j) (core.accAt (accKey sub i j))
      let flags := (List.range 256).foldl (fun n e => n ||| (el (e / 16) (e % 16)).2) 0
      (ok → fmt ∈ drainFmts → core.holder ≠ some s.sl → Traps s t i .accHolder (BitVec.ofNat 64 s.sl))
      ∧ (ok → fmt ∈ drainFmts → core.holder = some s.sl → OwnBytes s t dst (15 * pitch + rowb) → (rs = true → OwnBytes s t ra 64) → (cs = true → OwnBytes s t ca 64) →
          (8 ≤ w → dst.toNat % (w / 8) = 0 ∧ pitch % (w / 8) = 0) →
          (s.actsNow = false → t.waitStart = none → core.commandsDone sub tags = false →
            ∃ (u : State) (x : Thread), exec i s = .next u ∧ u.thread s.k s.sl = some x ∧ x.status = .parked (.commands sub tags) ∧ x.pc = t.pc ∧ Kept s t [] [] t.fpcsr u)
          ∧ (s.actsNow = false → core.commandsDone sub tags = true ∨ t.waitStart ≠ none → exec i s = .next (s.put { t with status := .acting (s.cycle + 4) ((encode i).setWidth 32) }))
          ∧ (s.actsNow = true → core.redbuf = [] → core.waiters = [] → core.nextKb.length = 4 → (∀ x ∈ wordsOf (accErr s.k sub) 0x1000, x ∉ s.eccOne ∧ x ∉ s.eccBad) →
            (flags &&& t.enables ≠ 0 → Traps s t i .fpException (BitVec.ofNat 64 flags))
            ∧ (flags &&& t.enables = 0 → ∃ (u : State) (x : Thread), exec i s = .next u ∧ u.thread s.k s.sl = some x ∧ x.pc = t.pc + 4 ∧ (∀ r, x.rd r = t.rd r)
                ∧ x.fpcsr = (t.orFlags flags).fpcsr ∧ s.cycle + 68 ≤ x.elig
                ∧ (∀ i < 16, ∀ j < 16, leNat (readBytes u.mem (key + i * pitch) rowb) / 2 ^ (j * w) % 2 ^ w = (el i j).1 % 2 ^ w)
                ∧ (∀ p, (∀ i < 16, ¬ (key + i * pitch ≤ p ∧ p < key + i * pitch + rowb)) → readByte u.mem p = readByte s.mem p)
                ∧ (∀ g, u.fe g = (s.fe g || (List.range 16).any (fun i => decide ((key + i * pitch) / 16 ≤ g) && decide (g ≤ (key + i * pitch + rowb - 1) / 16))))
                ∧ (∀ n, (u.core s.k).accAt n = (if ctl.getLsbD 17 = true ∧ n / 256 = sub then 0 else core.accAt n))
                ∧ (∀ j < 4, (u.core s.k).kbOf j = (if ctl.getLsbD 17 = true ∧ j = sub then 0 else core.kbOf j)))))
    (t.Runs c { reads := [a + 0#6, a + 1#6] } → rs = false → cs = false → does (.mdrain c a) 0 0)
    ∧ (t.Runs c { reads := [a + 0#6, a + 1#6, a + 2#6, a + 3#6] } → (rs = false → t.rd (a + 2#6) = 0) → (cs = false → t.rd (a + 3#6) = 0) →
        does (.mdrainScaled c a) (t.rd (a + 2#6)) (t.rd (a + 3#6)))
    ∧ (t.Runs c { reads := [a + 0#6, a + 1#6] } → rs = true ∨ cs = true → Traps s t (.mdrain c a) .matrixArg ctl)

/-- R228, R229, R232, R233, R244, R227: the head of a unit's queue: it waits, fails, or starts; when its products are done each element of its sub-tile has its contribution added, NEXTKB is kb + 1,
its slots are empty but for the kept ones, its arrival is made and the next command is the head; a forward fills the neighbour's slots; the limits end in SYNC_TIMEOUT; an uncorrectable error of a slot or of the sub-tile ends it with ECC_UNCORR (R374). -/
def Obligations.MatrixUnitSteps : Prop :=
  (∀ (s : State) (k : Nat) (m : MCmd) (rest : List MCmd), (s.core k).mq = m :: rest → m.env.module = s.moduleNo → m.mred = false → m.rows ≤ 16 → m.cols ≤ 16 → (s.core k).ops.length = 16 → (s.core k).nextKb.length = 4 →
    (s.core k).redbuf = [] → (∀ i ∈ m.slots, i < 16) → (∀ i < 16, ((s.core k).op i).owner ≠ some 16) →
    let core := s.core k
    let w := m.word
    let sub := bits w 46 2
    let kb := bits w 34 12
    let zi := w.getLsbD 22
    let still := w.getLsbD 21 = false ∧ w.getLsbD 20 = false
    let allFull := ∀ i ∈ m.slots, (core.op i).full = true
    let owned := ∀ i ∈ m.slots, (core.op i).owner ≠ none
    let inOrder := zi = true ∨ kb = core.kbOf sub
    let turn := core.blocked m = false
    let clean := ((m.slots.map (fun i => (slotErr k i, 1024))) ++ (if zi then [] else [(accErr k sub, 0x1000)])).all (fun x => (wordsOf x.1 x.2).all (fun n => !s.eccBad.contains n)) = true
    let leaves := fun (u : State) (e : Option Cause) => (u.core k).mq = rest
      ∧ (∃ (x : Arrival) (n : Nat), (n, Instr.completionArrival x) ∈ u.agenda ∧ x.serial = m.env.serial ∧ x.stream = m.env.stream ∧ x.ref = (m.regs.drop 3).headD 0 ∧ x.fail = e.map (fun c => (c, 0)))
      ∧ (rest = [] → (u.core k).phase = .idle) ∧ (∀ h l, rest = h :: l → (u.core k).phase = .waiting s.cycle ∧ (s.cycle + h.limit, Instr.matrixHeadTimeout k) ∈ u.agenda) ∧ u.mem = s.mem
    let emptied := fun (u : State) => ∀ i, (u.core k).op i = (if m.depth ≠ 0 ∧ ((i ∈ m.slotsA ∧ w.getLsbD 3 = false) ∨ (i ∈ m.slotsB ∧ w.getLsbD 2 = false)) ∧ i < 16 then { core.op i with full := false } else core.op i)
    let fails := fun (i : Instr) (e : Cause) (empties : Bool) => ∃ u : State, exec i s = .next u ∧ leaves u (some e) ∧ (u.core k).acc = core.acc ∧ (if empties then emptied u else (u.core k).ops = core.ops)
    let applied := fun (i : Instr) => ∃ u : State, exec i s = .next u ∧ leaves u none ∧ emptied u ∧ (u.core k).kbOf sub = kb + 1 ∧ (∀ j < 4, j ≠ sub → (u.core k).kbOf j = core.kbOf j)
      ∧ let a := panel core.cb m.afmt (core.operand m.slotsA)
        let b := panel core.cb m.bfmt (core.operand m.slotsB)
        let scale := fun (l : List Nat) (i : Nat) => (((core.op (l.headD 0)).data.find (1008 + i)).getD 0).toNat
        ∀ n < 1024, (u.core k).accAt n = (if n / 256 = sub ∧ n % 256 / 16 < m.rows ∧ n % 16 < m.cols then
          ((if zi then ⟨0, 0, 0⟩ else Aw.ofBits (core.accAt n)).add (contribution (widePair m.afmt m.bfmt) (quantum m.afmt + quantum m.bfmt) ((a.drop (32 * (n % 256 / 16))).take m.depth)
            ((List.range m.depth).filterMap (fun j => b[16 * j + n % 16]?))
            (if w.getLsbD 23 ∧ m.depth ≠ 0 then some (scale m.slotsA (n % 256 / 16), scale m.slotsB (n % 16)) else none))).toBits else core.accAt n)
    (∀ since, core.phase = .waiting since →
      (¬ owned → fails (.mmaStart k) .format false)
      ∧ (owned → (¬ allFull ∨ (core.kbOf sub < kb ∧ zi = false)) → exec (.mmaStart k) s = .next s)
      ∧ (owned → allFull → turn → zi = false → kb < core.kbOf sub → still → fails (.mmaStart k) .kbOrder true)
      ∧ (owned → allFull → turn → inOrder → m.depth ≠ 0 → core.descsOk m = false → still → fails (.mmaStart k) .format true)
      ∧ (owned → ¬ turn → exec (.mmaStart k) s = .next s)
      ∧ (owned → allFull → turn → inOrder → m.depth = 0 → clean → still → applied (.mmaStart k))
      ∧ (owned → allFull → turn → inOrder → m.depth = 0 → ¬ clean → still → fails (.mmaStart k) .eccUncorr true)
      ∧ (owned → allFull → turn → inOrder → m.depth ≠ 0 → core.descsOk m = true → 0 < macRate m.afmt → 0 < macRate m.bfmt →
          let f := s.cycle + 8 + 8192 / min (macRate m.afmt) (macRate m.bfmt)
          ∃ u : State, exec (.mmaStart k) s = .next u ∧ (u.core k).phase = .running f ∧ (f, Instr.mmaFinish k) ∈ u.agenda ∧ (u.core k).acc = core.acc ∧ (u.core k).ops = core.ops ∧ (u.core k).mq = core.mq)
      ∧ (s.cycle < since + m.limit → exec (.matrixHeadTimeout k) s = .next s)
      ∧ (since + m.limit ≤ s.cycle → ¬ allFull → fails (.matrixHeadTimeout k) .syncTimeout false)
      ∧ (since + m.limit ≤ s.cycle → allFull → m.slots ≠ [] → still → fails (.matrixHeadTimeout k) .syncTimeout true)
      ∧ (since + m.limit ≤ s.cycle → m.slots = [] → fails (.matrixHeadTimeout k) .syncTimeout false))
    ∧ (∀ f, core.phase = .running f → (s.cycle < f → exec (.mmaFinish k) s = .next s) ∧ (f ≤ s.cycle → inOrder → still → clean → applied (.mmaFinish k))
      ∧ (f ≤ s.cycle → inOrder → still → ¬ clean → fails (.mmaFinish k) .eccUncorr true))
    ∧ (∀ fail t, core.phase = .forwarding fail false (some t) none → isService k = false → colOf k < 127 → m.depth ≠ 0 →
        let first := bits w 52 4
        let tg := (List.range (slotsOf m.afmt)).map (fun i => first + i)
        let east := s.core (k + 1)
        (∀ i ∈ tg, i < 16 ∧ (east.op i).owner ≠ none ∧ (east.op i).full = false) → east.ops.length = 16 →
          (t = 0 → ∃ u : State, exec (.operandForward k) s = .next u ∧ (u.core k).phase = .forwarding fail false (some (s.cycle + 32 * tg.length)) none
            ∧ (s.cycle + 32 * tg.length, Instr.operandForward k) ∈ u.agenda ∧ (u.core k).mq = core.mq ∧ u.core (k + 1) = east)
          ∧ (t ≠ 0 → s.cycle < t → ∃ u : State, exec (.operandForward k) s = .next u ∧ (u.core k).phase = core.phase ∧ u.core (k + 1) = east)
          ∧ (t ≠ 0 → t ≤ s.cycle → ∃ u : State, exec (.operandForward k) s = .next u ∧ emptied u ∧ leaves u (fail.map Prod.fst)
            ∧ ∀ i < slotsOf m.afmt, let o := core.op (bits w 60 4 + i)
              (u.core (k + 1)).op (first + i) = { east.op (first + i) with full := true, fmt := o.fmt, roleB := o.roleB, scaled := o.scaled, data := o.data })))
  ∧ (∀ (s : State) (tag k : Nat) (p : PendReq), s.findSend tag = some (k, p) → p.req.tag = tag → p.req.src.module = s.moduleNo → 4 ≤ p.req.words.length →
      (p.idle = false → exec (.matrixAcceptTimeout tag) s = .next s)
      ∧ (p.idle = true → (s.core k).sends = [p] → ∃ (u : State) (x : Arrival) (n : Nat), exec (.matrixAcceptTimeout tag) s = .next u ∧ (u.core k).sends = []
          ∧ (n, Instr.completionArrival x) ∈ u.agenda ∧ x.home = s.moduleNo ∧ x.serial = p.req.serial ∧ x.ref = (p.req.words.drop 3).headD 0
          ∧ x.module = (if x.ref.getLsbD 31 then p.req.dst.module else s.moduleNo) ∧ x.core = (if x.ref.getLsbD 31 then coreOf p.req.dst else coreOf p.req.src)
          ∧ x.fail = some (.syncTimeout, 0) ∧ u.mem = s.mem))

/-- R271, R272, R275, R364: COLL by a member takes a serial, writes it to G[d] and completes; its contribution, with its rank, its K.CNT and the source bytes,
is at the unit. A first contribution opens the instance and its time limit. A second one of the same rank fails with COLL_MISMATCH, and so does, at every member that has contributed, an instance that one differs from. Here where nothing delays the contribution (log 9) and its unit accepts the serial. -/
def Obligations.CollectiveWord : Prop :=
  ∀ (s : State) (t : Thread) (c : Ctl) (d a : Reg) (g : Group) (r : Nat), Issues s t → t.engs.length < 64 → t.sendWait 1 0 = none →
    t.Runs c { reads := (List.range 5).map (fun j => a + BitVec.ofNat 6 j), writes := [d] } → s.moduleNo < 2 ^ 20 → isService s.k = false →
    let desc := t.rd a
    let src := t.rd (a + 1#6)
    let dst := t.rd (a + 2#6)
    let count := (t.rd (a + 3#6)).toNat
    let ref := t.rd (a + 4#6)
    let size := collSize desc
    (5 ≤ collOp desc → Traps s t (.coll c d a) .collArg desc)
    ∧ (collOp desc < 5 → s.groups.find (collGroup desc) = none → ∃ v, Traps s t (.coll c d a) .collArg v)
    ∧ (s.groups.find (collGroup desc) = some g → g.rank s.moduleNo s.k = some r → g.guest = t.guest → (∀ m ∈ g.members, m.1 = s.moduleNo) → collFmtOk (collOp desc) (collFmt desc) = true →
        collOp desc < 5 → bits desc 40 8 = 0 → bits desc 12 16 = 0 → (if collOp desc = 0 then 1 ≤ collRnd desc ∧ collRnd desc ≤ 5 else collRnd desc = 0) →
        1 ≤ count → count ≤ 4096 → OwnBytes s t src (count * size) → isLocal dst = true →
        bits dst 0 17 + (if collOp desc = 3 then g.members.length else 1) * count * size ≤ 0x18000 → refBad ref = false → s.NoDelay → Accepts s t (.collDie (dieOf s.k)) → 1 < g.members.length →
        let sent := fun (u : State) => exec (.coll c d a) s = .next u ∧ u.mem = s.mem ∧ u.full = s.full ∧ ∃ x, u.thread s.k s.sl = some x
          ∧ x.rd d = (if d = 0#6 then 0 else t.serial.setWidth 64) ∧ (∀ q, q ≠ d → x.rd q = t.rd q) ∧ x.serial = t.serial + 1 ∧ x.pc = t.pc + 4
          ∧ x.engs = t.engs ++ [⟨.coll, t.serial, 0, ref, t.ctag, t.pc⟩]
        let refused := fun (u : State) (serial : BitVec 32) (cref ds : Word) =>
          ∃ (y : Arrival) (n : Nat), (n, Instr.completionArrival y) ∈ u.agenda ∧ y.serial = serial ∧ y.ref = cref ∧ y.fail = some (.collMismatch, ds)
        (s.findInst (collGroup desc) (collInst desc) = none → ∃ (u : State) (k : Contribution), sent u
          ∧ u.findInst (collGroup desc) (collInst desc) = some ⟨collGroup desc, collInst desc, s.cycle, [k]⟩
          ∧ (s.cycle + g.limit * 1500, Instr.collInstanceTimeout (collGroup desc) (collInst desc)) ∈ u.agenda
          ∧ k.rank = r ∧ k.alike = true ∧ k.env.cnt = t.cnt ∧ k.env.serial = t.serial ∧ k.desc = desc ∧ k.count = count ∧ k.dest = dst ∧ k.ref = ref
          ∧ k.bytes = readBytes s.mem (ownKey s src) (count * size))
        ∧ (∀ old, s.findInst (collGroup desc) (collInst desc) = some old →
            ((∃ y ∈ old.got, y.rank = r) → ∃ u, sent u ∧ u.insts = s.insts ∧ refused u t.serial ref desc)
            ∧ ((∀ y ∈ old.got, y.rank ≠ r) → old.mismatch g.members.length = false → (∃ y ∈ old.got, bits y.desc 28 12 ≠ bits desc 28 12 ∨ y.count ≠ count) →
                ∃ u, sent u ∧ refused u t.serial ref desc ∧ ∀ y ∈ old.got, y.env.module = s.moduleNo → refused u y.env.serial y.ref y.desc)))

/-- R272, R193, R95, R364: contributions are combined in rank order, whatever order they arrive in: SUM by AddRO from zero, each element times K.CNT, rounded once; ALLGATHER by rank;
MAX and MIN of floats by maximumNumber and minimumNumber, of integers the extreme; AUCTION the element that none beats. A contribution that completes an instance of one member delivers, in the step in which it is made (log 59), the result, sets its granules full and makes the arrival; the limit fails an instance. -/
def Obligations.CollectiveResults : Prop :=
  (∀ (l l' : List Contribution), l.Perm l' → (l.map Contribution.rank).Nodup →
    l.foldl (fun a c => insertRank c a) [] = l'.foldl (fun a c => insertRank c a) [])
  ∧ (∀ (d : Word) (count : Nat) (l : List Contribution), collOp d = 3 → (collResult d count l).1 = l.flatMap Contribution.bytes)
  ∧ (∀ (d : Word) (count : Nat) (l : List Contribution), collOp d = 0 →
      let el := fun (i : Nat) =>
        let a := l.foldl (fun (a : Aw) c => a.add (awTerm (decodeElem (collFmt d) false (field c.bytes (i * collSize d) (collSize d))) c.env.cnt)) ⟨0, 0, 0⟩
        encodeElem (collFmt d) ⟨collRnd d, false, false, false⟩ (a.value (collRnd d)).1
      (collResult d count l).1 = (List.range count).flatMap (fun i => leBytes (collSize d) (el i).1))
  ∧ (∀ (d : Word) (count : Nat) (l : List Contribution), l ≠ [] →
      let el := fun (c : Contribution) (i : Nat) => field c.bytes (i * collSize d) (collSize d)
      let gives := fun (e : Nat → Nat) => (collResult d count l).1 = (List.range count).flatMap (fun i => leBytes (collSize d) (e i))
      (∀ sg w, collOp d = 1 ∨ collOp d = 2 → ffmt (collFmt d) = none → ifmt (collFmt d) = some (sg, w) → ∃ e, gives e ∧ ∀ i < count, (∃ c ∈ l, e i = el c i)
        ∧ ∀ c ∈ l, if collOp d = 1 then intOf sg w (el c i) ≤ intOf sg w (e i) else intOf sg w (e i) ≤ intOf sg w (el c i))
      ∧ (∀ f, collOp d = 1 ∨ collOp d = 2 → ffmt (collFmt d) = some f →
          let v := fun (i : Nat) => (l.drop 1).foldl (fun a c => (Val.pick (collOp d == 1) a (f.decode (el c i))).1) (((l.head?).map (fun c => f.decode (el c i))).getD (.nan false))
          gives (fun i => if (v i).isNan then f.nan else f.exact (v i)) ∧ ∀ i, (v i).isNan = l.all (fun c => (f.decode (el c i)).isNan))
      ∧ (collOp d = 4 → ∃ e, gives e ∧ ∀ i < count, (∃ c ∈ l, e i = el c i) ∧ ∀ c ∈ l, auctionBeats (e i) (el c i) = false))
  ∧ (∀ (s s1 : State) (m : Request) (g : Group), Admits s m s1 → m.typ = .collc → m.src.module = s.moduleNo → isService (coreOf m.src) = false → indexOf (coreOf m.src) < 10240 →
      coreOf m.src < 16 * 16384 →
      let d := m.words.headD 0
      let count := ((m.words.drop 3).headD 0).toNat
      let dst := (m.words.drop 2).headD 0
      let key := localKey (coreOf m.src) (bits dst 0 17)
      s.groups.find (collGroup d) = some g → g.members = [(s.moduleNo, coreOf m.src)] → s.findInst (collGroup d) (collInst d) = none → (s.core (coreOf m.src)).waiters = [] →
      let me : Contribution := contributionOf m 0 g.list
      let r := collResult d count [me]
      me.alike = true → r.1 ≠ [] → bits dst 0 17 + r.1.length ≤ 0x18000 →
      ∃ (u : State) (x : Arrival) (n : Nat), exec (.reqCollc m) s = .next u ∧ readBytes u.mem key r.1.length = r.1
        ∧ (∀ i < (key + r.1.length + 15) / 16 - key / 16, u.fe (key / 16 + i) = true)
        ∧ (n, Instr.completionArrival x) ∈ u.agenda ∧ x.ref = (m.words.drop 4).headD 0 ∧ x.fail = none ∧ x.flags = BitVec.ofNat 5 r.2
        ∧ u.findInst (collGroup d) (collInst d) = none ∧ Answered s u m (.ansDone ⟨m, [], 0⟩))
  ∧ (∀ (s : State) (g i : Nat) (x : Inst) (y : Group), s.findInst g i = some x → s.groups.find g = some y → x.first + y.limit * 1500 ≤ s.cycle → x.mismatch y.members.length = false →
      ∃ u : State, exec (.collInstanceTimeout g i) s = .next u ∧ u.findInst g i = none ∧ u.mem = s.mem
        ∧ ∀ c ∈ x.got, c.env.module = s.moduleNo → ∃ (a : Arrival) (n : Nat), (n, Instr.completionArrival a) ∈ u.agenda ∧ a.ref = c.ref ∧ a.serial = c.env.serial
            ∧ a.fail = some (.collTimeout, c.desc))

/-- R115 to R118: XTAB and XSTART send one request and place one entry in the queue of a lane assigned to the guest, or write 1 where it holds 16; XSTAT reads the lane; bad operands raise COPY_ARG, ADDRESS or, with the lane as VALUE, PERMISSION, in the order of R351. -/
def Obligations.LaneWords : Prop :=
  ∀ (s : State) (t : Thread) (c : Ctl) (d a : Reg), Issues s t → t.engs.length < 64 → t.sendWait 1 0 = none →
    let die := dieOf s.k
    let w := fun (i : Nat) => t.rd (a + BitVec.ofNat 6 i)
    let ln := w 0
    let lane := s.lane die ln.toNat
    let regs := fun (n : Nat) => (List.range n).map (fun j => a + BitVec.ofNat 6 j)
    let notYours := fun (i : Instr) => exec i s = .next ((s.put t).trapEntry s.k s.sl .permission ln t.pc false false)
    let refuses := fun (i : Instr) (ref : Word) =>
      (64 ≤ ln.toNat → Traps s t i .copyArg ln)
      ∧ (ln.toNat < 64 → refBad ref = true → Traps s t i .address ref)
      ∧ (ln.toNat < 64 → refBad ref = false → lane.guest ≠ some t.guest → notYours i)
    let places := fun (i : Instr) (job : LaneJob) (ref : Word) => s.NoDelay → Accepts s t (.channel die ln.toNat) → (s.put t).issuer t.stream = some (s.k, t, false) →
      (∀ e ∈ t.engs, e.serial ≠ t.serial) → ln.toNat < 64 → lane.guest = some t.guest → refBad ref = false →
      (lane.queue.length < 16 → ∃ (u : State) (x : Thread), exec i s = .next u ∧ u.mem = s.mem ∧ u.full = s.full ∧ u.thread s.k s.sl = some x
        ∧ u.lane die ln.toNat = { lane with queue := lane.queue ++ [job], run := if lane.queue = [] then some job.begin else lane.run } ∧ x.rd d = 0 ∧ (∀ q, q ≠ d → x.rd q = t.rd q) ∧ x.serial = t.serial + 1 ∧ x.pc = t.pc + 4
        ∧ x.engs = t.engs ++ [⟨.xducer, t.serial, 0, ref, t.ctag, t.pc⟩]
        ∧ (lane.queue = [] → ∃ n, s.cycle ≤ n ∧ (n, if job.tab then Instr.xducerTableLoad die ln.toNat else .xducerJob die ln.toNat) ∈ u.agenda))
      ∧ (16 ≤ lane.queue.length → ∃ (u : State) (x : Thread), exec i s = .next u ∧ u.mem = s.mem ∧ u.lanes = s.lanes ∧ u.thread s.k s.sl = some x
        ∧ x.rd d = (if d = 0#6 then 0 else 1) ∧ x.engs = t.engs ∧ x.pc = t.pc + 4 ∧ ∀ q, q ≠ d → x.rd q = t.rd q)
    (t.Runs c { reads := regs 3, writes := [d] } → refuses (.xtab c d a) (w 2)
      ∧ places (.xtab c d a) ⟨(s.put t).env t s.k t.serial, w 2, true, w 1, 0, 0, 0⟩ (w 2))
    ∧ (t.Runs c { reads := regs 6, writes := [d] } → (w 2).toNat < 2 ^ 24 → (w 4).toNat < 2 ^ 24 → refuses (.xstart c d a) (w 5)
      ∧ places (.xstart c d a) ⟨(s.put t).env t s.k t.serial, w 5, false, w 1, (w 2).toNat, w 3, (w 4).toNat⟩ (w 5))
    ∧ (t.Runs c { reads := regs 6, writes := [d] } → ln.toNat < 64 → 2 ^ 24 ≤ (w 2).toNat → Traps s t (.xstart c d a) .copyArg (w 2))
    ∧ (t.Runs c { reads := [a], writes := [d] } →
        (64 ≤ ln.toNat → Traps s t (.xstat c d a) .copyArg ln) ∧ (ln.toNat < 64 → lane.guest ≠ some t.guest → notYours (.xstat c d a))
        ∧ (ln.toNat < 64 → lane.guest = some t.guest → Gives s t c (.xstat c d a) d (BitVec.ofNat 64 ((if lane.table.isSome then 256 else 0) + lane.queue.length)) 0 0))

/-- R95, R112, R113, R114, R116, R118: the entry at the head of a lane's queue, step by step: the lane reads its image or input 1 KiB unit by unit, up to its first bad byte;
a legal image becomes the table and a bad one leaves it; a job runs over its input; its output is written unit by unit with its granules set full; then the arrival, with the result
record, and the entry leaves the queue. Here for an issuing core of this module, for images, inputs and outputs in its store, where nothing delays a request (log 9). That a rejected image arrives with its address as FADDR is log 46. -/
def Obligations.LaneSteps : Prop :=
  ∀ (s : State) (die ln : Nat) (j : LaneJob) (rest : List LaneJob) (r : LaneRun), (s.lane die ln).queue = j :: rest → (s.lane die ln).run = some r → r.wait = none →
    j.env.core < 16 * 16384 → indexOf j.env.core < 10240 → s.moduleNo < 2 ^ 20 →
    let lane := s.lane die ln
    let key := fun (a : Word) => localKey j.env.core (bits a 0 17)
    let step := fun (u : State) => exec (if j.tab then .xducerTableLoad die ln else .xducerJob die ln) s = .next u
    let goesOn := fun (u : State) (x : LaneRun) => step u ∧ u.lane die ln = { lane with run := some x }
      ∧ ∃ n, s.cycle + 1 ≤ n ∧ (n, if j.tab then Instr.xducerTableLoad die ln else .xducerJob die ln) ∈ u.agenda
    let ends := fun (u : State) (table : Option XTable) (fail : Option (Cause × Word)) (res : Option Word) =>
      step u ∧ u.mem = s.mem ∧ (u.lane die ln).queue = rest ∧ (u.lane die ln).table = table
      ∧ (j.env.module = s.moduleNo → ∃ (x : Arrival) (n : Nat), (n, Instr.completionArrival x) ∈ u.agenda ∧ x.ref = j.ref ∧ x.serial = j.env.serial ∧ x.fail = fail ∧ x.result = res)
    let open' := s.NoDelay ∧ (s.core j.env.core).sealed = false ∧ ∀ w ∈ (s.core j.env.core).waiters, w.typ ≠ .read
    (j.tab = false → lane.table = none → ∃ u, ends u none (some (.copyArg, BitVec.ofNat 64 ln)) (some 0x0003000000000000#64))
    ∧ (r.bad = none → r.got.length < r.want → (j.tab = false → lane.table ≠ none) →
      let va := j.a + BitVec.ofNat 64 r.got.length
      let n := min (r.want - r.got.length) (1024 - va.toNat % 1024)
      (isLocal va = true → bits va 0 17 + n ≤ 0x18000 → open' → (∀ w ∈ wordsOf (key va) n, w ∉ s.eccOne ∧ w ∉ s.eccBad) →
        ∃ u, goesOn u { r with got := r.got ++ readBytes s.mem (key va) n } ∧ u.mem = s.mem)
      ∧ (isLocal va = true → badByte va n = some va → ∃ u, goesOn u { r with bad := some (.address, va) } ∧ u.mem = s.mem))
    ∧ (j.tab = true →
        (∀ e, r.bad = some e → ∃ u, ends u lane.table (some e) none)
        ∧ (r.bad = none → r.want ≤ r.got.length →
          (r.want = 16 → tableHeader r.got = none → ∃ u, ends u lane.table (some (.copyArg, j.a)) none)
          ∧ (∀ x, r.want = 16 → tableHeader r.got = some x → ∃ u, goesOn u { r with want := 272 + 4 * x.nstate * x.nclass } ∧ u.mem = s.mem)
          ∧ (r.want ≠ 16 → parseTable r.got = none → ∃ u, ends u lane.table (some (.copyArg, j.a)) none)
          ∧ (∀ y, r.want ≠ 16 → parseTable r.got = some y → ∃ u, ends u (some y) none none)))
    ∧ (∀ x, j.tab = false → lane.table = some x → r.bad ≠ none ∨ r.want ≤ r.got.length →
        (r.ran = none → isLocal j.out = true → bits j.out 0 17 + j.cap ≤ 0x18000 →
          let z := runJob x j.cap j.cap r.got
          ∃ u, u.mem = s.mem ∧ goesOn u { r with out := z.out.reverse, ran := some (match z.res, r.bad with
            | some v, _ => (z.s, v, z.n, none)
            | none, some e => (z.s, 3, z.n, some e)
            | none, none => (z.s, if x.amin ≤ z.s then 0 else 1, z.n, none)) })
        ∧ (∀ st res n fail, r.ran = some (st, res, n, fail) →
            let va := j.out + BitVec.ofNat 64 r.sent
            let l := (r.out.drop r.sent).take (1024 - va.toNat % 1024)
            (r.out.length ≤ r.sent → ∃ u, ends u (some x) fail (some (resultRecord st res n r.sent)))
            ∧ (l ≠ [] → isLocal va = true → bits va 0 17 + l.length ≤ 0x18000 → open' → (s.core j.env.core).waiters = [] →
                (∃ y f, ((s.owner (.core j.env.core)).fresh s.cycle).updateFloor 64 s.moduleNo j.env.stream (s.ackOf j.env.stream) s.cycle = some (y, f)
                  ∧ 1 ≤ (j.env.serial - f).toNat ∧ (j.env.serial - f).toNat ≤ 2 ^ 16 ∧ y.restart ≤ s.us ∧ y.receipts.length + y.floors.length < 64) →
                (∀ z ∈ ((s.owner (.core j.env.core)).fresh s.cycle).receipts, ¬(z.module = s.moduleNo ∧ z.stream = j.env.stream ∧ z.serial = j.env.serial)) →
                ∃ u, goesOn u { r with sent := r.sent + l.length } ∧ readBytes u.mem (key va) l.length = l
                  ∧ (∀ g, key va / 16 ≤ g → g < (key va + l.length + 15) / 16 → u.fe g = true)
                  ∧ (∀ p, ¬ (key va ≤ p ∧ p < (key va + l.length + 15) / 16 * 16) → readByte u.mem p = readByte s.mem p))))

/-- R198, R199, R33: branches and jumps go to their target, BRL and JRL with the address of the next word in g63; a jump target that is no multiple of 4 is ALIGN.
R30 to R36, R39: the hints: each moves the PC by 4 and changes only its latch, selector, safe point or eligibility; a hint where none may stand is ILLEGAL. -/
def Obligations.BranchesJumpsAndHints : Prop :=
  (
∀ (s : State) (t : Thread) (c : Ctl) (off : BitVec 21) (a : Reg), Issues s t →
    let goes := fun (i : Instr) (ds : List Reg) (x : Thread) (target : Word) =>
      exec i s = .next (s.put (x.complete c target 0)) ∧ Kept s t ds [] t.fpcsr (s.put (x.complete c target 0))
    let im := if t.iv then sext 43 (t.immh * 2 ^ 21 + off.toNat) else off.signExtend 64
    let linked := t.wr 63#6 (t.pc + 4)
    (t.Runs c { immOk := true } → goes (.br c off) [] t (t.pc + 4 * im))
    ∧ (t.Runs c { immOk := true, writes := [63#6] } → goes (.brl c off) [63#6] linked (t.pc + 4 * im))
    ∧ (t.Runs c { reads := [a] } → (bits (t.rd a) 0 2 = 0 → goes (.jr c a) [] t (t.rd a)) ∧ (bits (t.rd a) 0 2 ≠ 0 → Traps s t (.jr c a) .align (t.rd a)))
    ∧ (t.Runs c { reads := [a], writes := [63#6] } →
        (bits (t.rd a) 0 2 = 0 → goes (.jrl c a) [63#6] linked (t.rd a)) ∧ (bits (t.rd a) 0 2 ≠ 0 → Traps s t (.jrl c a) .align (t.rd a)))
    ∧ linked.rd 63#6 = t.pc + 4
    ∧ (c.g = true → t.guardHolds = false → t.live = false → t.rv = false → t.sc = false → ∀ i ∈ [Instr.br c off, .brl c off],
        exec i s = .next (s.put (t.complete c (t.pc + 4) 0)) ∧ Kept s t [] [] t.fpcsr (s.put (t.complete c (t.pc + 4) 0)))
    ∧ ∀ target, (t.complete c target 0).elig = s.cycle + 8 * (c.w.toNat + 1)
  ) ∧ (
∀ (s : State) (t : Thread) (p : BitVec 22) (r b : Reg) (sense : Bool) (rm : BitVec 3) (n : BitVec 8), Issues s t →
    let gives := fun (i : Instr) (x : Thread) (m : Nat) =>
      exec i s = .next (s.put { x with pc := t.pc + 4, elig := max (s.cycle + 8) m, live := false, status := .ready, done := true })
    (t.HintFree →
      gives .noph t 0 ∧ gives (.guard r b sense) { t with gsel := BitVec.ofNat 22 (r.toNat * 2 ^ 16 + b.toNat * 2 ^ 10 + if sense then 512 else 0) } 0
      ∧ gives (.stallx n) t (s.cycle + 8 * (n.toNat + 1)) ∧ gives (.live p) t 0
      ∧ ∃ x, gives (.rmode rm) { t with pfx := x } 0 ∧ x.getLsbD 27 = true ∧ bits x 24 3 = rm.toNat ∧ bits x 0 24 = 0)
    ∧ (t.live = false → t.iv = false → ∃ x, gives (.imm p) { t with pfx := x } 0 ∧ x.getLsbD 23 = true ∧ bits x 0 22 = p.toNat ∧ bits x 24 4 = bits t.pfx 24 4)
    ∧ (t.live = true → t.iv = false → t.rv = false → gives (.live p) { t with safePoint := some p } 0)
    ∧ (t.live = true ∨ t.iv = true ∨ t.rv = true → ∀ i ∈ [Instr.noph, .guard r b sense, .rmode rm, .stallx n], Traps s t i .illegal ((encode i).setWidth 64))
    ∧ (t.live = true ∨ t.iv = true → Traps s t (.imm p) .illegal ((encode (.imm p)).setWidth 64))
    ∧ (t.iv = true ∨ t.rv = true → Traps s t (.live p) .illegal ((encode (.live p)).setWidth 64))
  )

/-- R352, R353, R357, R350: taking a trap: what K.TCAUSE, K.TPC, K.TVAL, K.PFX, K.GSEL and the PC become, once every pending result has landed; in a handler it is a DOUBLE_FAULT kill,
without one a kill with the cause, whose record names the word that trapped (R360). A kill frees the slot, and gives its operand slots, its place in the meet table and, where nothing is outstanding, its stream up.
R355, R352, R377: TRAP raises its code with the address of the next word saved; RFT gives back K.PFX, K.GSEL and the PC and leaves the handler, and a BUDGET that came up there waits for the word after; outside one it is ILLEGAL. -/
def Obligations.TrapsKillsAndReturn : Prop :=
  (
(∀ (s : State) (k sl : Nat) (t : Thread) (code : Cause) (val pc : Word) (async : Bool), s.thread k sl = some t →
    let v := t.landAll.count s.cycle
    (s.cycle < t.lastLand → ∃ (u : State) (x : Thread), s.trapEntry k sl code val pc async = u ∧ u.thread k sl = some x ∧ x.pc = t.pc ∧ x.g = t.g ∧ x.pend = t.pend
      ∧ x.status = .parked (.trapping code val pc async code.isAddress) ∧ (t.lastLand, Instr.longResultLand k sl) ∈ u.agenda)
    ∧ (t.lastLand ≤ s.cycle → t.inh = false → t.tvec ≠ 0 → ∃ x, (s.trapEntry k sl code val pc async) = s.setThread k sl x
      ∧ bits x.tcause 0 12 = code.code ∧ x.tcause.getLsbD 12 = true ∧ x.tcause.getLsbD 13 = async ∧ bits x.tcause 14 22 = t.gsel.toNat ∧ bits x.tcause 36 28 = t.pfx.toNat
      ∧ x.tpc = pc ∧ x.tval = val ∧ x.pfx = 0 ∧ x.gsel = 0x200 ∧ x.pc = t.tvec ∧ x.pend = [] ∧ x.g = v.g ∧ x.fpcsr = v.fpcsr ∧ x.v = t.v
      ∧ x.status = .ready ∧ t.issued + 8 ≤ x.elig ∧ t.busy ≤ x.elig ∧ x.tvec = t.tvec ∧ x.tsave = t.tsave ∧ x.ctag = t.ctag ∧ x.serial = t.serial ∧ x.budget = (t.count s.cycle).budget)
    ∧ (t.lastLand ≤ s.cycle → t.inh = true → s.trapEntry k sl code val pc async
        = (s.setThread k sl v).killThread k sl .doubleFault (BitVec.ofNat 64 code.code) (if code = .trap ∨ code = .countOvf then pc - 4 else pc))
    ∧ (t.lastLand ≤ s.cycle → t.inh = false → t.tvec = 0 → s.trapEntry k sl code val pc async
        = (s.setThread k sl v).killThread k sl code val (if code = .trap ∨ code = .countOvf then pc - 4 else pc)))
  ∧ (∀ (s : State) (k sl : Nat) (t : Thread) (code : Cause) (val pc : Word), s.thread k sl = some t → sl < 16 → t.resumes = false → t.ownCtag = none →
      let u := s.killThread k sl code val pc
      u.thread k sl = none ∧ (∀ j, j ≠ sl → u.thread k j = s.thread k j) ∧ (∀ x e, (u.core k).meet.find x = some e → sl ∉ e.waiters)
      ∧ ((s.core k).holder = some sl → (u.core k).holder = none ∧ (u.core k).cap = 0)
      ∧ (∀ i, ((u.core k).op i).owner ≠ some sl)
      ∧ (t.reqs = [] → t.engs = [] → (t.stream, s.cycle) ∈ u.streams))
  ) ∧ (
∀ (s : State) (t : Thread) (c : Ctl) (b : Reg), Issues s t → t.Runs c {} →
    exec (.trap c b) s = .next ((s.put { t with pfx := 0 }).trapEntry s.k s.sl .trap (b.setWidth 64) (t.pc + 4) false)
    ∧ (t.lastLand ≤ s.cycle → t.inh = false → t.tvec ≠ 0 → ∃ (u : State) (x : Thread), exec (.trap c b) s = .next u ∧ u = s.put x ∧ x.pc = t.tvec ∧ x.tpc = t.pc + 4 ∧ x.tval = b.setWidth 64
        ∧ bits x.tcause 0 12 = 4 ∧ x.inh = true ∧ x.pfx = 0)
    ∧ (t.inh = true → ∃ x, exec (.rft c) s = .next (s.put x) ∧ x.inh = false ∧ x.pc = t.tpc ∧ x.pfx = BitVec.ofNat 28 (bits t.tcause 36 28) &&& 0xFBFFFFF#28 ∧ x.gsel = BitVec.ofNat 22 (bits t.tcause 14 22) &&& 0x3FFE00#22
        ∧ (∀ i, i ≠ 12 → x.tcause.getLsbD i = t.tcause.getLsbD i) ∧ x.g = t.g ∧ x.v = t.v ∧ x.fpcsr = t.fpcsr ∧ x.tpc = t.tpc ∧ x.tval = t.tval
        ∧ x.afterRft = (t.budget == 0 && !t.budgetTaken))
    ∧ (t.inh = false → Traps s t (.rft c) .illegal ((encode (.rft c)).setWidth 64))
  )

/-- R199, R302 to R304, R287: TEND gives its slot up, free in the next cycle, and leaves every other thread; HBEAT clears the heartbeat count; YIELD parks its thread until its time, with the next word to come. -/
def Obligations.TaskWords : Prop :=
  ∀ (s : State) (t : Thread) (c : Ctl) (a : Reg), Issues s t → s.sl < 16 →
    let waits := fun (i : Instr) (till : Nat) => ∃ (u : State) (x : Thread), exec i s = .next u ∧ u.thread s.k s.sl = some x ∧ x.status = .parked (.clock till) ∧ x.pc = t.pc + 4
      ∧ till ≤ x.elig ∧ u.agenda = insertEvent till (.yieldExpire s.k s.sl) s.agenda ∧ Kept s t [] [] t.fpcsr u
    (t.Runs c {} →
      (∃ u : State, exec (.tend c) s = .next u ∧ u.thread s.k s.sl = none ∧ (∀ sl, sl ≠ s.sl → u.thread s.k sl = s.thread s.k sl)
        ∧ (∀ i, ((u.core s.k).op i).owner ≠ some s.sl) ∧ ((s.core s.k).holder = some s.sl → (u.core s.k).holder = none)
        ∧ (u.core s.k).tended = some (s.sl, s.cycle, t.guest) ∧ (t.queue = none ∨ t.blk = none → t.reqs = [] → t.engs = [] → (t.stream, s.cycle) ∈ u.streams))
      ∧ exec (.hbeat c) s = .next (s.put (({ t with hb := 0 } : Thread).complete c (t.pc + 4) 0))
      ∧ waits (.yield c) (s.cycle + 128))
    ∧ (t.Runs c { reads := [a] } → (bits (t.rd a) 16 48 ≠ 0 → Traps s t (.yieldFor c a) .taskArg (t.rd a))
        ∧ (bits (t.rd a) 16 48 = 0 → waits (.yieldFor c a) (s.cycle + 8 + bits (t.rd a) 0 16)))

/-- R289 to R292, R282, R306, R351: SPAWN: its checks, in their order (of its two TASK_ARG, and of ALIGN and ADDRESS, the model's: log 22); on the issuing core a child starts in the lowest free slot with the state of R292, or the spawn bounces;
to another module it takes a serial, leaves and holds. -/
def Obligations.SpawnWord : Prop :=
  ∀ (s : State) (t : Thread) (c : Ctl) (d a n : Reg), Issues s t → 3 ≤ n.toNat → n.toNat ≤ 11 →
    t.Runs c { reads := (List.range n.toNat).map (fun i => a + BitVec.ofNat 6 i), writes := [d] } →
    let i := Instr.spawn c d a n
    let arg := fun (j : Nat) => t.rd (a + BitVec.ofNat 6 j)
    let pc := arg 0
    let tg := arg 1
    let ctl := arg 2
    let core := s.core s.k
    let core' := (s.put t).core s.k
    let okPc := bits pc 0 2 = 0 ∧ pc.toNat < 2 ^ 52
    let okCore := tg.getLsbD 63 = false ∧ bits tg 52 11 = 0 ∧ bits tg 18 14 = 0 ∧ bits tg 0 18 ≤ 163839 ∧ bits tg 0 14 < 10240
    let ok := okPc ∧ okCore ∧ bits ctl 48 16 = 0 ∧ t.spawnk ≠ 7
    let free := fun (sl : Nat) => (core'.threads.find sl).isNone && (s.put t).tended s.k != some sl
    let ends := fun (u : State) (v : Word) => ∃ x, u.thread s.k s.sl = some x ∧ x.rd d = (if d = 0#6 then 0 else v) ∧ x.pc = t.pc + 4 ∧ x.spawnk = t.spawnk + 1
      ∧ x.serial = t.serial ∧ ∀ r, r ≠ d → x.rd r = t.rd r
    (tg.getLsbD 63 = false → ¬ okCore → Traps s t i .taskArg tg) ∧ (tg.getLsbD 63 = true → bits tg 48 15 ≠ 0 ∨ t.queue = none → Traps s t i .taskArg tg)
    ∧ (okCore → bits ctl 48 16 ≠ 0 → Traps s t i .taskArg ctl)
    ∧ (okCore → bits ctl 48 16 = 0 → bits pc 0 2 ≠ 0 → Traps s t i .align pc) ∧ (okCore → bits ctl 48 16 = 0 → bits pc 0 2 = 0 → 2 ^ 52 ≤ pc.toNat → Traps s t i .address pc)
    ∧ (okPc → okCore → bits ctl 48 16 = 0 → t.spawnk = 7 → Traps s t i .spawnLimit 7)
    ∧ (ok → bits tg 32 20 = s.moduleNo → bits tg 0 18 = s.k → core.sealed = false → (s.put t).guestOk s.k t.guest = true → (s.put t).ctagOk t.ctag t.guest = true →
        t.ctag < 65536 → t.cnt < 2 ^ 48 → t.budget < 2 ^ 48 → t.hbint < 2 ^ 64 → t.meetwin < 2 ^ 32 → t.cx < 65536 → t.cy < 65536 → t.cz < 65536 →
        core.acount < 65536 → core.tsize < 2 ^ 32 → (∀ q, t.queue = some q → q.2 < 64 ∧ q.1 < 16) →
        (∀ f, (List.range 16).find? free = some f → ∃ (u : State) (y : Thread), exec i s = .next u ∧ ends u 0 ∧ u.thread s.k f = some y
          ∧ u.mem = s.mem ∧ y.pc = pc ∧ y.cnt = t.cnt ∧ y.ctag = t.ctag ∧ y.cx = t.cx ∧ y.cy = t.cy ∧ y.cz = t.cz
          ∧ y.budget = (if bits ctl 0 48 = 0 then t.budget else bits ctl 0 48) ∧ y.hbint = t.hbint ∧ y.meetwin = t.meetwin ∧ y.tvec = t.tvec ∧ y.dtbase = t.dtbase ∧ y.ptbase = t.ptbase
          ∧ y.tid = BitVec.ofNat 64 (t.tid.toNat / 65536 * 65536 + (bits t.tid 0 16 * 8 + t.spawnk + 1) % 65536)
          ∧ y.fpcsr = (t.fpcsr &&& 0x7F07#15) ∧ y.sc = false ∧ y.det = t.det ∧ y.gsel = 0x200 ∧ y.spawnk = 0 ∧ y.hb = 0 ∧ y.queue = t.queue ∧ (t.away = none → s.moduleNo < 2 ^ 32 → y.away = none) ∧ y.spawned = true ∧ y.serial = 1
          ∧ (∀ j < 8, y.rd (BitVec.ofNat 6 (1 + j)) = (if j + 3 < n.toNat then arg (3 + j) else 0)) ∧ (∀ r : Reg, r = 0#6 ∨ 9 ≤ r.toNat → y.rd r = 0))
        ∧ ((∀ sl < 16, free sl = false) → ∃ u : State, exec i s = .next u ∧ ends u 1 ∧ ∀ sl, sl ≠ s.sl → u.thread s.k sl = s.thread s.k sl))
    ∧ (ok → bits tg 32 20 ≠ s.moduleNo → t.sendWait 1 0 = none →
        ∃ (u : State) (x : Thread) (q : Request), exec i s = .next u ∧ u.outbox = s.outbox ++ [.reqSpawn q] ∧ q.serial = t.serial ∧ q.dst = ⟨0, bits tg 32 20, bits tg 0 18 / 16384, bits tg 0 18 % 16384⟩
          ∧ u.thread s.k s.sl = some x ∧ x.serial = t.serial + 1 ∧ x.spawnk = t.spawnk + 1 ∧ x.pc = t.pc ∧ ∃ h, x.status = .holding h ∧ h.tag = q.tag)

/-- R293 to R297, R306: MEET and MEETQ: a thread with lanes, operand slots or the holding raises MEET_STATE, a deterministic MEET and a quorum outside 1 to 16 MEET_ARG;
open requests make it wait, a failure not reported is raised, open engine commands make it wait; 4 cycles after its issue it joins the open entry of its declared state, opens the free entry
of lowest index, or takes the oldest entry that is not deterministic, which is released. -/
def Obligations.MeetWords : Prop :=
  ∀ (s : State) (t0 : Thread) (c : Ctl) (d a : Reg) (isQ : Bool), s.thread s.k s.sl = some t0 →
    let t : Thread := { t0.begin s.cycle s.meetLag with issued := if s.actsNow then t0.issued else s.cycle - s.meetLag }
    t.Runs c { reads := (List.range (if isQ then 3 else 2)).map (fun j => a + BitVec.ofNat 6 j), more := fun t => maskRegs (t.rd (a + 1#6)), writes := [d] } →
    let i := if isQ then Instr.meetq c d a else .meet c d a
    let q := if isQ then t.rd (a + 2#6) else 0
    let core := s.core s.k
    let own := t.claim ≠ 0 ∨ (∃ o ∈ core.ops, o.owner = some s.sl) ∨ core.holder = some s.sl
    let st := t.declared (t.rd a) (t.rd (a + 1#6)) q
    let calm := t.reqs = [] ∧ t.engs = [] ∧ ∀ e ∈ t.unk, e.reported = true
    let waits := fun (u : State) (x : Nat) => u.mem = s.mem ∧ ∃ y, u.thread s.k s.sl = some y ∧ y.status = .meet x d c ∧ y.pc = t.pc ∧ ∀ r, y.rd r = t.rd r
    let parks := fun (engines : Bool) => s.cycle < (t.waitStart.getD (s.cycle, 0)).1 + t.synclim →
      ∃ (u : State) (y : Thread), exec i s = .next u ∧ u.thread s.k s.sl = some y ∧ y.status = .parked (.meet ((encode i).setWidth 32) engines) ∧ y.pc = t.pc ∧ Kept s t [] [] t.fpcsr u
    (own → Traps s t i .meetState t.tid)
    ∧ (¬ own → t.det = true → q = 0 → Traps s t i .meetArg 0)
    ∧ (¬ own → isQ = true → (q = 0 ∨ 16 < q.toNat) → Traps s t i .meetArg q)
    ∧ (¬ own → (if isQ then 1 ≤ q.toNat ∧ q.toNat ≤ 16 else t.det = false) →
        (t.reqs ≠ [] → parks false)
        ∧ (t.reqs = [] → ∀ e, t.unk.find? (fun u => !u.reported) = some e → exec i s = .next ((s.put { t with unk := t.unk.map (fun x => { x with reported := true }) }).trapEntry s.k s.sl
            (if e.reason = 3 then e.cause.getD .remoteUnknown else .remoteUnknown) (e.serial.setWidth 64) t.pc false false))
        ∧ (t.reqs = [] → (∀ e ∈ t.unk, e.reported = true) → t.engs ≠ [] → parks true)
        ∧ (calm → ∀ x e, core.meet.find? (fun p => p.2.dstate == st) = some (x, e) →
            ∃ u : State, exec i s = .next u ∧ waits u x ∧ (u.core s.k).meet = core.meet.put x { e with waiters := e.waiters ++ [s.sl] }
              ∧ (1 ≤ e.quorum → e.quorum ≤ e.waiters.length + 1 → ({ e with waiters := e.waiters ++ [s.sl] } : MeetEntry).dueAt s.cycle = some s.cycle))
        ∧ (calm → core.meet.find? (fun p => p.2.dstate == st) = none → ∀ x, (List.range 32).find? (fun x => (core.meet.find x).isNone) = some x →
            ∃ (u : State) (e : MeetEntry), exec i s = .next u ∧ waits u x ∧ (u.core s.k).meet = core.meet.put x e ∧ e.dstate = st ∧ e.waiters = [s.sl] ∧ e.quorum = q.toNat ∧ e.det = t.det
              ∧ e.first = s.cycle ∧ (t.det = false → e.deadline = s.cycle + t.meetwin)
              ∧ (t.det = true → e.deadline = s.cycle + t.synclim ∧ (e.deadline, Instr.meetDetTimeout s.k x) ∈ u.agenda))
        ∧ (calm → core.meet.find? (fun p => p.2.dstate == st) = none → (∀ x < 32, (core.meet.find x).isSome) → ∀ x e, core.meet.find x = some e → e.det = false →
            (∀ p ∈ core.meet, p.2.det = false → p.1 = x ∨ e.first < p.2.first) →
            ∃ (u : State) (y : Thread) (f : MeetEntry), exec i s = .next u ∧ u.thread s.k s.sl = some y ∧ y.status = .meet x d c ∧ (u.core s.k).meet.find x = some f
              ∧ f.dstate = st ∧ f.waiters = [s.sl] ∧ f.first = s.cycle)
        ∧ (calm → core.meet.find? (fun p => p.2.dstate == st) = none → (∀ x < 32, (core.meet.find x).isSome) → (∀ e ∈ core.meet, e.2.det = true) →
            Gives s t c i d 0 0 0))

/-- R301, R306, R315, R316: GLAUNCH: its checks; its distributor appends the blocks in order and stops at a malformed one or a full queue; the number appended is in G[d].
Here where nothing delays the request (log 9) and the distributor accepts its serial. The VALUE of its PERMISSION is log 23's. -/
def Obligations.LaunchWord : Prop :=
  ∀ (s : State) (t : Thread) (c : Ctl) (d a : Reg), Issues s t → t.Runs c { reads := [a, a + 1#6, a + 2#6], writes := [d] } →
    let i := Instr.glaunch c d a
    let qw := t.rd a
    let va := t.rd (a + 1#6)
    let n := t.rd (a + 2#6)
    let die := bits qw 6 4
    let q := bits qw 0 6
    (bits qw 10 54 ≠ 0 → Traps s t i .taskArg qw) ∧ (bits qw 10 54 = 0 → (n = 0 ∨ 4096 < n.toNat) → Traps s t i .taskArg n)
    ∧ (bits qw 10 54 = 0 → n ≠ 0 → n.toNat ≤ 4096 → bits va 0 6 ≠ 0 → Traps s t i .align va)
    ∧ (bits qw 10 54 = 0 → n ≠ 0 → n.toNat ≤ 4096 → bits va 0 6 = 0 → t.sendWait 1 0 = none → s.NoDelay → Accepts s t (.distributor die) → ∀ x, s.queue die q = some x → x.guest = t.guest →
        let r := (s.put t.takeSerial).appendAll die q t.ptbase n.toNat va 0
        (∃ (u : State) (y : Thread), exec i s = .next u ∧ u.thread s.k s.sl = some y ∧ y.rd d = (if d = 0#6 then 0 else BitVec.ofNat 64 (r.2.1 + if r.2.2 then 2 ^ 63 else 0))
          ∧ y.pc = t.pc + 4 ∧ y.serial = t.serial + 1 ∧ u.dists = r.1.dists ∧ u.mem = r.1.mem)
        ∧ r.2.1 ≤ n.toNat ∧ ((x.en = false ∨ x.ringN ≤ x.blocks.length) → r.2.1 = 0 ∧ r.2.2 = false)
        ∧ (x.en = true → x.blocks.length < x.ringN → ∀ l b, (s.readBlock die t.ptbase va).2 = .ok l → parseBlock x va t.ptbase l = some b → 1 ≤ r.2.1)
        ∧ (x.en = true → x.blocks.length < x.ringN → ∀ l, (s.readBlock die t.ptbase va).2 = .ok l → parseBlock x va t.ptbase l = none → r.2.1 = 0 ∧ r.2.2 = true))
    ∧ (bits qw 10 54 = 0 → n ≠ 0 → n.toNat ≤ 4096 → bits va 0 6 = 0 → (s.queue die q = none ∨ ∃ x, s.queue die q = some x ∧ x.guest ≠ t.guest) →
        exec i s = .next ((s.put t).trapEntry s.k s.sl .permission qw t.pc false false))

/-- R157 to R163, R158, R362, R69, R81: what CSRR reads, what CSRW writes, and the numbers and values that are ILLEGAL or PRIVILEGE. A register of the thread changes alone;
FPCSR waits for every pending result, whatever K.MODE.SC holds, and a write takes its source as it landed; K.TOKBUD is that of the queue, or what the SPAWN from another module carried (log 97); CTAG is set as by CTSET; a service register takes the value, or does what its own event does. -/
def Obligations.SpecialRegisterWords : Prop :=
  ∀ (s : State) (t : Thread) (c : Ctl) (d : Reg) (n : BitVec 12), Issues s t →
    let svc := isService s.k
    let r := Instr.csrr c d n
    let w := Instr.csrw c d n
    let word := fun (i : Instr) => (encode i).setWidth 64
    let x := t.rd d
    let nat := fun (v : Nat) => BitVec.ofNat 64 v
    let task := [0, 1, 2, 3, 4, 5, 6, 0x10, 0x11, 0x12, 0x13, 0x20, 0x21, 0x30, 0x31, 0x32, 0x33, 0x34, 0x40, 0x41, 0x42, 0x43, 0x50, 0x51, 0x52, 0x60, 0x61, 0x62, 0x63, 0x70, 0x80, 0x81, 0x90, 0xA0]
    let taskRw := [0x10, 0x11, 0x12, 0x20, 0x30, 0x32, 0x34, 0x43, 0x70, 0xA0]
    let service := [0x800, 0x801, 0x810, 0x812, 0x820, 0x830, 0x831, 0x840, 0x850, 0x851, 0x860, 0x870]
    let readable := n.toNat ∈ task ∨ (svc = true ∧ n.toNat ∈ service)
    let writable := n.toNat ∈ taskRw ∨ (svc = true ∧ n.toNat ∈ service ∧ n.toNat ≠ 0x831)
    let wrote := fun (y : Thread) => exec w s = .next (s.put (y.complete c (t.pc + 4) 0))
    let turns := fun (y : Thread) (m : Nat) => y.pend = [] ∧ (∀ p ∈ t.pend, p.land ≤ m)
      ∧ ∀ i < 5, t.landAll.fpcsr.getLsbD (3 + i) = (t.fpcsr.getLsbD (3 + i) || t.pend.any (fun p => p.flags.getLsbD i))
    -- what has no meaning here
    (¬ readable → (n.toNat < 0x800 ∨ svc = true) → Traps s t r .illegal (word r))
    ∧ (¬ writable → (n.toNat < 0x800 ∨ svc = true) → Traps s t w .illegal (word w))
    ∧ (t.Runs c {} → 0x800 ≤ n.toNat → svc = false → Traps s t r .privilege (word r) ∧ Traps s t w .privilege (word w))
    -- reading
    ∧ (t.Runs c { writes := [d] } → readable → n ≠ 0x010#12 → ∃ v : Word, Gives s t c r d v 0 0
        ∧ (n = 0x000#12 → v = t.tid) ∧ (n = 0x001#12 → v = nat t.cnt) ∧ (n = 0x002#12 → v = nat t.cx) ∧ (n = 0x003#12 → v = nat t.cy) ∧ (n = 0x004#12 → v = nat t.cz)
        ∧ (n = 0x005#12 → v = nat (s.sl * 2 ^ 18 + (dieOf s.k * 16384 + indexOf s.k))) ∧ (n = 0x006#12 → v = nat s.moduleNo)
        ∧ (n = 0x011#12 → v.getLsbD 0 = t.sc ∧ v.getLsbD 1 = t.det ∧ bits v 2 62 = 0) ∧ (n = 0x012#12 → v = t.gsel.setWidth 64) ∧ (n = 0x013#12 → v = t.pfx.setWidth 64)
        ∧ (n = 0x020#12 → v = nat t.ctag) ∧ (n = 0x021#12 → v = nat ((s.ctagRec t.ctag).parent)) ∧ (n = 0x030#12 → v = t.tvec) ∧ (n = 0x031#12 → v = t.tcause)
        ∧ (n = 0x032#12 → v = t.tpc) ∧ (n = 0x033#12 → v = t.tval) ∧ (n = 0x034#12 → v = t.tsave) ∧ (n = 0x040#12 → v = nat t.hbint) ∧ (n = 0x041#12 → v = nat t.budget)
        ∧ (n = 0x042#12 → v = nat s.cycle) ∧ (n = 0x043#12 → v = nat t.synclim) ∧ (n = 0x050#12 → v = t.stream.setWidth 64) ∧ (n = 0x051#12 → v = t.serial.setWidth 64)
        ∧ (n = 0x052#12 → v = t.ackw.setWidth 64) ∧ (n = 0x060#12 → v = nat (64 * 2 ^ 16 + s.sl * 0x200))
        ∧ (n = 0x061#12 → v = nat (((s.core s.k).holder.getD 31) * 2 ^ 8 + (s.core s.k).acount))
        ∧ (n = 0x062#12 → v = nat ((s.core s.k).tsize * 2 ^ 16 + 0x2000 + 0x1000 * (s.core s.k).acount)) ∧ (n = 0x063#12 → t.claim < 2 ^ 16 → bits v 0 16 = t.claim)
        ∧ (n = 0x070#12 → v = nat t.meetwin) ∧ (n = 0x080#12 → v = nat (s.allow s.k)) ∧ (n = 0x0A0#12 → v = t.dtbase)
        ∧ (n = 0x090#12 → ∀ die q y, t.away = none → t.queue = some (die, q) → s.queue die q = some y → v = nat y.tokbud) ∧ (n = 0x090#12 → ∀ a, t.away = some a → v = nat a.tokbud)
        ∧ (n = 0x800#12 → v = t.ptbase) ∧ (n = 0x820#12 → v = s.plog) ∧ (n = 0x830#12 → v = s.relctl.setWidth 64) ∧ (n = 0x831#12 → v = nat (s.eccUnc * 2 ^ 32 + s.eccCorr))
        ∧ (n = 0x840#12 → v = s.swapPool) ∧ (n = 0x801#12 → (s.xlinv = [] → v = (s.svcOf s.k).xlinv) ∧ ((∃ e ∈ s.xlinv, e.1 = s.k) → v.getLsbD 0 = true))
        ∧ (n = 0x810#12 → v = nat (s.svcOf s.k).dqload) ∧ (n = 0x812#12 → v = nat (s.svcOf s.k).dcmd) ∧ (n = 0x850#12 → v = nat (s.svcOf s.k).preempt)
        ∧ (n = 0x851#12 → v = nat (s.svcOf s.k).resume) ∧ (n = 0x860#12 → v = nat (s.svcOf s.k).collcfg) ∧ (n = 0x870#12 → v = nat (s.svcOf s.k).xlane))
    ∧ (t.Runs c {} → n = 0x010#12 → ∃ (y : Thread) (m : Nat), turns y m
        ∧ exec r s = .next (s.put ((y.wr d (t.landAll.fpcsr.setWidth 64)).complete c (t.pc + 4) m)) ∧ y.fpcsr = t.landAll.fpcsr)
    -- writing
    ∧ (t.Runs c {} → n = 0x010#12 → let z := t.landAll.rd d
        ((∀ p ∈ t.pend, p.reg ≠ d) → z = x)
        ∧ ((bits z 0 3 = 0 ∨ 6 ≤ bits z 0 3) → Traps s t w .illegal (word w) ∧ Traps s t (.fpcsrWrite c d) .illegal (word w))
        ∧ (1 ≤ bits z 0 3 → bits z 0 3 ≤ 5 → ∃ (y : Thread) (m : Nat), turns y m ∧ y.fpcsr = z.setWidth 15
            ∧ exec w s = .next (s.put (y.complete c (t.pc + 4) m)) ∧ exec (.fpcsrWrite c d) s = .next (s.put (y.complete c (t.pc + 4) m))))
    ∧ (t.Runs c { reads := [d] } →
        (n = 0x020#12 → t.sendWait 1 0 = none → s.NoDelay → Accepts s t .ctagAlloc → s.OwnStream t →
            let live := x.toNat < 65536 ∧ (s.put t).ctagState x.toNat = .live ∧ (x.toNat = 0 ∨ ((s.put t).ctagRec x.toNat).guest = t.guest)
            let kept := fun (v : State) (y : Thread) => v.thread s.k s.sl = some y ∧ v.mem = s.mem ∧ v.full = s.full ∧ v.cells = s.cells ∧ v.ctags = s.ctags
              ∧ (∀ k sl, (k, sl) ≠ (s.k, s.sl) → v.thread k sl = s.thread k sl) ∧ y.serial = t.serial + 1 ∧ ∀ q, y.rd q = t.rd q
            (¬ live → ∃ v y, exec w s = .next (v.trapEntry s.k s.sl .ctagInvalid x t.pc false) ∧ kept v y ∧ y.ctag = t.ctag ∧ y.pc = t.pc)
            ∧ (live → ∃ v y, exec w s = .next v ∧ kept v y ∧ y.ctag = x.toNat ∧ y.pc = t.pc + 4 ∧ y.status = .ready))
        ∧ exec (.ctagWrite c d) s = exec (.csrw c d 0x020#12) s
        ∧ (n = 0x011#12 → wrote { t with sc := x.getLsbD 0 })
        ∧ (n = 0x012#12 → ∃ g : BitVec 22, wrote { t with gsel := g } ∧ (∀ i, 9 ≤ i → i < 22 → g.getLsbD i = x.getLsbD i) ∧ ∀ i < 9, g.getLsbD i = false)
        ∧ (n = 0x030#12 → wrote { t with tvec := x &&& ~~~3#64 }) ∧ (n = 0x032#12 → wrote { t with tpc := x &&& ~~~3#64 }) ∧ (n = 0x034#12 → wrote { t with tsave := x })
        ∧ (n = 0x043#12 → wrote { t with synclim := bits x 0 40 }) ∧ (n = 0x070#12 → wrote { t with meetwin := bits x 0 32 }) ∧ (n = 0x0A0#12 → wrote { t with dtbase := x })
        ∧ (svc = true → t.Runs c { reads := [d] } →
            let u := fun (f : State → State) => exec w s = .next ((f s).put (t.complete c (t.pc + 4) 0))
            let does := fun (i : Instr) => ∃ v, exec i (s.put t) = .next v ∧ exec w s = .next (v.mapThread s.k s.sl (fun y => y.complete c (t.pc + 4) 0))
            let me := s.k * 16 + s.sl
            (n = 0x800#12 → ∃ p : Word, wrote { t with ptbase := p } ∧ ∀ i < 64, p.getLsbD i = (x.getLsbD i && !decide (8 ≤ i ∧ i < 12) && !decide (40 ≤ i ∧ i < 44)))
            ∧ (n = 0x820#12 → ∃ p : Word, u (fun s => { s with plog := p }) ∧ bits p 5 39 = bits x 5 39 ∧ bits p 60 4 = bits x 60 4)
            ∧ (n = 0x830#12 → u (fun s => { s with relctl := x.setWidth 3 }))
            ∧ (n = 0x840#12 → ∃ p : Word, u (fun s => { s with swapPool := p, swapPools := s.swapPools.put (bits x 60 4) p }) ∧ bits p 16 48 = bits x 16 48 ∧ bits p 0 16 = 0)
            ∧ (n = 0x801#12 → does (.xlinvWrite me x)) ∧ (n = 0x810#12 → does (.dqloadWrite me x))
            ∧ (n = 0x812#12 → (bits x 62 2 = 0 → does (.dcmdReprio me x)) ∧ (bits x 62 2 = 1 → does (.dcmdCancel me x))
                ∧ (2 ≤ bits x 62 2 → u (fun s => s.mapSvc (me / 16) (fun y => { y with dcmd := 1 }))))
            ∧ (n = 0x850#12 → (bits x 62 2 = 0 → does (.preemptSafe me x)) ∧ (bits x 62 2 = 1 → does (.preemptForced me x)) ∧ (bits x 62 2 = 2 → does (.preemptKill me x)))
            ∧ (n = 0x851#12 → does (.resumeWrite me x)) ∧ (n = 0x860#12 → (x.getLsbD 63 = false → does (.collcfgLoad me x)) ∧ (x.getLsbD 63 = true → does (.collcfgRemove me x)))
            ∧ (n = 0x870#12 → does (.xlaneWrite me x))))

/-- R67, R313, R363 to R365: what a write of each service register does, and what the register then reads for the same core: an invalidation that leaves no cached entry of the page
or the address space, a queue's descriptor, a block's priority or cancellation, a save or a kill asked for, a slot that waits for a frame, a group, a lane's guest. Malformed is found before refused, and 2 for must-be-zero bits of a K.DQLOAD, as log 51 says; 1 for those of a K.DCMD is log 57's. -/
def Obligations.ServiceRegisterEvents : Prop :=
  ∀ (s : State) (w : Nat) (v : Word),
    let k := w / 16
    let next := fun (i : Instr) (p : State → Prop) => ∃ u, exec i s = .next u ∧ p u
    let reads := fun (i : Instr) (get : Svc → Nat) (n : Nat) => next i (fun u => get (u.svcOf k) = n ∧ ∀ j, j ≠ k → u.svcOf j = s.svcOf j)
    -- K.XLINV
    (next (.xlinvWrite w v) (fun u => u.xlinv = s.xlinv ++ [(k, v, s.writerPt w)] ∧ u.mem = s.mem ∧ u.cores = s.cores ∧ u.tlb = s.tlb ∧ bits (u.svcOf k).xlinv 16 48 = bits v 16 48
      ∧ (u.svcOf k).xlinv.getLsbD 1 = v.getLsbD 1 ∧ ∃ n, s.cycle < n ∧ (n, Instr.xlinvComplete) ∈ u.agenda))
    ∧ (∀ c x pt l, s.xlinv = (c, x, pt) :: l → next .xlinvComplete (fun u => u.xlinv = l ∧ u.mem = s.mem ∧ u.cores = s.cores
        ∧ ∀ e, e ∈ u.tlb ↔ e ∈ s.tlb ∧ ¬ (e.guest = bits pt 0 8 ∧ (e.pte.getLsbD 7 = true ∨ e.asn = bits pt 48 16) ∧ (x.getLsbD 1 = true ∨ e.va = bits x 16 48 * 65536 / 2 ^ e.shift))))
    -- K.DQLOAD
    ∧ ((bits v 62 2 ≠ 0 ∨ bits v 44 8 ≠ 0 ∨ bits v 0 6 ≠ 0) → reads (.dqloadWrite w v) Svc.dqload 2 ∧ next (.dqloadWrite w v) (fun u => u.dists = s.dists))
    ∧ (bits v 62 2 = 0 → bits v 44 8 = 0 → bits v 0 6 = 0 → isDram (bits v 6 38 * 64) = true →
        (∀ a ∈ wordsOf (bits v 6 38 * 64) 64, a ∉ s.eccOne ∧ a ∉ s.eccBad) →
        let d := s.parseDesc (readBytes s.mem (bits v 6 38 * 64) 64) (s.writerPt w)
        (d = none → reads (.dqloadWrite w v) Svc.dqload 2 ∧ next (.dqloadWrite w v) (fun u => u.dists = s.dists))
        ∧ (∀ x, d = some x → s.queue (bits v 58 4) (bits v 52 6) = none → reads (.dqloadWrite w v) Svc.dqload 0
            ∧ next (.dqloadWrite w v) (fun u => ∃ y, u.queue (bits v 58 4) (bits v 52 6) = some y ∧ y.guest = x.guest ∧ y.ring = x.ring ∧ y.ringN = x.ringN ∧ y.en = x.en ∧ y.det = x.det
                ∧ y.replay = x.replay ∧ y.blocks = [] ∧ y.tvec = x.tvec ∧ y.pctag = x.pctag ∧ y.errq = x.errq))
        ∧ (∀ x o, d = some x → s.queue (bits v 58 4) (bits v 52 6) = some o → o.blocks ≠ [] →
            (o.guest ≠ x.guest ∨ o.det ≠ x.det ∨ o.replay ≠ x.replay ∨ o.ring ≠ x.ring ∨ o.ringN ≠ x.ringN) →
            reads (.dqloadWrite w v) Svc.dqload 1 ∧ next (.dqloadWrite w v) (fun u => u.dists = s.dists)))
    -- K.DCMD
    ∧ (bits v 0 3 = 0 →
        let die := bits v 58 4
        let q := bits v 52 6
        let addr := bits v 6 46 * 64
        let both := [Instr.dcmdReprio w v, .dcmdCancel w v]
        ((∀ x, s.queue die q = some x → ∀ b ∈ x.blocks, b.addr.toNat = addr → 2 ≤ b.status) → ∀ i ∈ both, reads i Svc.dcmd 1 ∧ next i (fun u => u.dists = s.dists ∧ u.mem = s.mem))
        ∧ (∀ x n b, s.queue die q = some x → x.blocks[n]? = some b → b.addr.toNat = addr → b.status ≤ 1 → (∀ m y, m < n → x.blocks[m]? = some y → y.addr.toNat ≠ addr ∨ 2 ≤ y.status) →
            (reads (.dcmdReprio w v) Svc.dcmd 0 ∧ next (.dcmdReprio w v) (fun u => u.mem = s.mem ∧ u.block die q (x.base + n) = some { b with prio := bits v 3 3 }))
            ∧ (reads (.dcmdCancel w v) Svc.dcmd 0 ∧ next (.dcmdCancel w v) (fun u => u.block die q (x.base + n) = some { b with status := 6 }))))
    -- K.PREEMPT
    ∧ (let c := bits v 58 4 * 16384 + bits v 44 14
       let sl := bits v 40 4
       let frame := bits v 58 4 * 2 ^ 40 + bits v 6 34 * 64
       let bad := bits v 0 6 ≠ 0 ∨ 10240 ≤ bits v 44 14
       let all := [(Instr.preemptSafe w v, 0), (Instr.preemptForced w v, 1), (Instr.preemptKill w v, 2)]
       (∀ p ∈ all, bits v 62 2 = p.2 → (bad ∨ (p.2 = 2 ∧ bits v 6 34 ≠ 0)) → reads p.1 Svc.preempt 2 ∧ next p.1 (fun u => u.cores = s.cores))
       ∧ (∀ p ∈ all, bits v 62 2 = p.2 → ¬ bad → bits v 6 34 * 64 + 45056 ≤ Config.dramSize → (p.2 = 2 → bits v 6 34 = 0) →
            (s.thread c sl = none ∨ ∃ t, s.thread c sl = some t ∧ t.saving ≠ none) → reads p.1 Svc.preempt 1 ∧ next p.1 (fun u => u.cores = s.cores))
       ∧ (∀ t, ¬ bad → bits v 6 34 * 64 + 45056 ≤ Config.dramSize → s.thread c sl = some t → t.saving = none → (∀ f, t.status ≠ .resuming f) →
            (bits v 62 2 = 0 → reads (.preemptSafe w v) Svc.preempt 0 ∧ next (.preemptSafe w v) (fun u => u.thread c sl = some { t with preempt := some (frame, s.cycle + 75000) }
                ∧ (s.cycle + 75000, Instr.preemptTimeout c sl) ∈ u.agenda ∧ ∀ j, j ≠ sl → u.thread c j = s.thread c j))
            ∧ (bits v 62 2 = 1 → reads (.preemptForced w v) Svc.preempt 0 ∧ next (.preemptForced w v) (fun u => u.thread c sl = some { t with forced := some frame } ∧ ∀ j, j ≠ sl → u.thread c j = s.thread c j))
            ∧ (bits v 62 2 = 2 → bits v 6 34 = 0 → t.kill = none → (insertNat sl (s.core c).killed).length ≠ 16 →
                reads (.preemptKill w v) Svc.preempt 0 ∧ next (.preemptKill w v) (fun u => u.thread c sl = some { t with kill := some (.serviceKill, 0, s.cycle) } ∧ ∀ j, j ≠ sl → u.thread c j = s.thread c j)))
       -- K.RESUME
       ∧ ((bits v 62 2 ≠ 0 ∨ bits v 40 4 ≠ 0 ∨ bad) → reads (.resumeWrite w v) Svc.resume 2 ∧ next (.resumeWrite w v) (fun u => u.cores = s.cores))
       ∧ (bits v 62 2 = 0 → bits v 40 4 = 0 → ¬ bad → bits v 6 34 * 64 + 45056 ≤ Config.dramSize → (∀ a ∈ wordsOf frame 256, a ∉ s.eccOne ∧ a ∉ s.eccBad) → s.frameWord frame 0xF8 = 1 →
            let st := s.frameWord frame 8
            let home := bits (s.frameWord frame 0xD8) 0 18
            let tied := bits st 16 7 ≠ 0 ∨ bits (s.frameWord frame 0xD8) 18 16 ≠ 0 ∨ s.frameWord frame 0xD0 ≠ 0
            let fits := (s.core c).acount = bits (s.frameWord frame 0xC8) 0 3 ∧ (s.core c).tsize = bits (s.frameWord frame 0xC8) 16 16
            (tied → home ≠ c → reads (.resumeWrite w v) Svc.resume 3 ∧ next (.resumeWrite w v) (fun u => u.cores = s.cores))
            ∧ ((¬ tied ∨ home = c) → ((∀ j < 16, s.thread c j ≠ none ∨ s.tended c = some j) ∨ ¬ fits) → reads (.resumeWrite w v) Svc.resume 1 ∧ next (.resumeWrite w v) (fun u => u.cores = s.cores))
            ∧ ((¬ tied ∨ home = c) → fits → (s.core c).sealed = false → (s.core c).failed = false → ∀ f, (List.range 16).find? (fun j => (s.thread c j).isNone && s.tended c != some j) = some f →
                reads (.resumeWrite w v) Svc.resume 0 ∧ next (.resumeWrite w v) (fun u => (∃ t, u.thread c f = some t ∧ t.status = .resuming frame) ∧ ∀ j, j ≠ f → u.thread c j = s.thread c j))))
    -- K.COLLCFG
    ∧ (let g := bits v 51 12
       let key := bits v 47 4 * 2 ^ 40 + bits v 6 34 * 64
       let busy := ∃ x ∈ s.insts, x.group = g
       let bad := bits v 40 7 ≠ 0 ∨ bits v 0 6 ≠ 0
       (bad → (reads (.collcfgLoad w v) Svc.collcfg 2 ∧ next (.collcfgLoad w v) (fun u => u.groups = s.groups)) ∧ reads (.collcfgRemove w v) Svc.collcfg 2 ∧ next (.collcfgRemove w v) (fun u => u.groups = s.groups))
       ∧ (¬ bad → bits v 6 34 = 0 → busy → reads (.collcfgRemove w v) Svc.collcfg 1 ∧ next (.collcfgRemove w v) (fun u => u.groups = s.groups))
       ∧ (¬ bad → bits v 6 34 = 0 → ¬ busy → reads (.collcfgRemove w v) Svc.collcfg 0 ∧ next (.collcfgRemove w v) (fun u => u.groups.find g = none ∧ ∀ j, j ≠ g → u.groups.find j = s.groups.find j))
       ∧ (¬ bad → isDram key = true → (∀ a ∈ wordsOf key 64, a ∉ s.eccOne ∧ a ∉ s.eccBad) →
            let d := s.groupOf (readBytes s.mem key 64)
            (d = none → reads (.collcfgLoad w v) Svc.collcfg 2 ∧ next (.collcfgLoad w v) (fun u => u.groups = s.groups))
            ∧ (∀ x, d = some x → busy → reads (.collcfgLoad w v) Svc.collcfg 1 ∧ next (.collcfgLoad w v) (fun u => u.groups = s.groups))
            ∧ (∀ x, d = some x → ¬ busy → reads (.collcfgLoad w v) Svc.collcfg 0 ∧ next (.collcfgLoad w v) (fun u => u.groups.find g = some x ∧ ∀ j, j ≠ g → u.groups.find j = s.groups.find j))))
    -- K.XLANE
    ∧ (let die := bits v 60 4
       let ln := bits v 54 6
       let x := s.lane die ln
       let g := if v.getLsbD 45 then some (bits v 46 8) else none
       (bits v 0 45 ≠ 0 → reads (.xlaneWrite w v) Svc.xlane 2 ∧ next (.xlaneWrite w v) (fun u => u.lanes = s.lanes))
       ∧ (bits v 0 45 = 0 → x.queue ≠ [] → reads (.xlaneWrite w v) Svc.xlane 1 ∧ next (.xlaneWrite w v) (fun u => u.lanes = s.lanes))
       ∧ (bits v 0 45 = 0 → x.queue = [] → reads (.xlaneWrite w v) Svc.xlane 0
            ∧ next (.xlaneWrite w v) (fun u => (u.lane die ln).guest = g ∧ (u.lane die ln).queue = [] ∧ (u.lane die ln).table = (if g ≠ none ∧ g = x.guest then x.table else none))))

/-- R25, R27, R43, R80, R200, R283, R286, R287, R302, R130, R132: what happens to a thread apart from its words' own effects: results that land, cycles that are counted, the end of a YIELD, BUDGET once and HANG, neither while a vector word holds the thread (R222),
a word that denotes nothing, a fetch that fails, and the limit of a wait (R80: of a CTALLOC that holds, TAG_EXHAUSTED with its parent). Other slots keep their threads.
R297, R298, R300: a release makes one thread of a group: the survivor's count is the group's sum its G[d] is 1 and it issues in a later cycle, the others leave their slots, the entry is free.
A deterministic entry whose time is over is free, and its one thread raises SYNC_TIMEOUT with the key. -/
def Obligations.ThreadEventsAndMeetReleases : Prop :=
  (
∀ (s : State) (k sl : Nat) (t : Thread), s.thread k sl = some t →
    let only := fun (i : Instr) (p : Thread → Prop) => ∃ (u : State) (x : Thread), exec i s = .next u ∧ u.thread k sl = some x ∧ p x ∧ u.mem = s.mem
      ∧ (∀ j m, (j, m) ≠ (k, sl) → u.thread j m = s.thread j m)
    let same := fun (x : Thread) => x.g = t.g ∧ x.v = t.v ∧ x.pc = t.pc ∧ x.reqs = t.reqs ∧ x.engs = t.engs
    let n := s.cycle - t.acct
    let left := if t.budget = 2 ^ 48 - 1 then t.budget else t.budget - n
    let quiet := t.iv = false ∧ t.rv = false ∧ t.live = false
    -- results
    ((∀ c w, t.status = .acting c w → exec (.longResultLand k sl) s = .next (s.at (max c s.cycle) (.longResultLand k sl)))
    ∧ ((∀ c w, t.status ≠ .acting c w) → only (.longResultLand k sl) (fun x => x.pend = t.pend.filter (fun p => s.cycle < p.land) ∧ x.pc = t.pc ∧ x.status = t.status ∧ x.v = t.v
        ∧ (∀ p ∈ t.pend, p.land ≤ s.cycle → p.reg ≠ 0#6 → (∀ q ∈ t.pend, q.reg = p.reg → q = p) → x.rd p.reg = p.value)
        ∧ (∀ r, (∀ p ∈ t.pend, p.reg ≠ r ∨ s.cycle < p.land) → x.rd r = t.rd r)
        ∧ ∀ i < 5, x.fpcsr.getLsbD (3 + i) = (t.fpcsr.getLsbD (3 + i) || t.pend.any (fun p => decide (p.land ≤ s.cycle) && p.flags.getLsbD i)))))
    -- time
    ∧ (t.saving = none → t.status = .ready → only (.threadEligible k sl) (fun x => x.hb = t.hb + n ∧ x.budget = left ∧ x.status = .ready ∧ same x))
    ∧ (t.saving = none → ∀ h, t.status = .holding h → only (.threadEligible k sl) (fun x => x.hb = t.hb ∧ x.budget = left ∧ x.status = t.status ∧ same x))
    ∧ (∀ g, t.status = .parked (.granule g) → only (.threadEligible k sl) (fun x => x.hb = t.hb ∧ x.budget = t.budget ∧ x.status = t.status ∧ same x))
    ∧ (∀ till, t.status = .parked (.clock till) → till ≤ s.cycle → only (.yieldExpire k sl) (fun x => x.status = .ready ∧ x.elig = t.elig ∧ x.done = true ∧ same x))
    ∧ (∀ till, t.status = .parked (.clock till) → s.cycle < till → exec (.yieldExpire k sl) s = .next s)
    -- budget and heartbeat
    ∧ (t.saving = none → t.status = .ready → quiet → t.busy ≤ s.cycle → left = 0 → t.budgetTaken = false → t.inh = false → t.afterRft = false → t.lastLand ≤ s.cycle →
        (t.tvec ≠ 0 → only (.budgetExpiry k sl) (fun x => x.pc = t.tvec ∧ x.tpc = t.pc ∧ x.tval = 0 ∧ bits x.tcause 0 12 = 0x086 ∧ x.tcause.getLsbD 12 = true ∧ x.tcause.getLsbD 13 = true
          ∧ x.budgetTaken = true ∧ x.budget = 0))
        ∧ (t.tvec = 0 → sl < 16 → t.ownCtag = none → ∃ u : State, exec (.budgetExpiry k sl) s = .next u ∧ u.thread k sl = none))
    ∧ (t.saving = none → t.status = .ready → (t.budgetTaken = true ∨ left ≠ 0 ∨ t.inh = true ∨ t.afterRft = true ∨ ¬ quiet ∨ s.cycle < t.busy) → only (.budgetExpiry k sl) (fun x => same x ∧ x.budgetTaken = t.budgetTaken ∧ x.status = .ready))
    ∧ (t.saving = none → t.status = .ready → quiet → t.busy ≤ s.cycle → t.hbint ≤ t.hb + n → sl < 16 → t.ownCtag = none →
        ∃ (u : State) (y : Thread), exec (.heartbeatExpiry k sl) s = .next u ∧ same y ∧ u = (s.setThread k sl y).killThread k sl .hang (BitVec.ofNat 64 t.hbint) t.pc ∧ u.thread k sl = none)
    ∧ (t.saving = none → t.status = .ready → (t.hb + n < t.hbint ∨ ¬ quiet ∨ s.cycle < t.busy) → only (.heartbeatExpiry k sl) (fun x => x.hb = t.hb + n ∧ same x))
    -- a word that cannot issue
    ∧ (k = s.k → sl = s.sl → ∀ (w : BitVec 32) (e : Cause), Traps s (t.begin s.cycle 0) (.illegalWord w) .illegal (w.setWidth 64) ∧ Traps s (t.begin s.cycle 0) (.fetchFault e) e t.pc)
    -- the limit of a wait
    ∧ (∀ w ws, t.status = .parked w → t.waitStart = some ws → t.saving = none →
        (s.cycle < ws.1 + t.synclim ∨ w.unbounded = true → exec (.syncTimeout k sl) s = .next s)
        ∧ (ws.1 + t.synclim ≤ s.cycle → w.unbounded = false → s.waitOver k t w = false →
            exec (.syncTimeout k sl) s = .next (s.trapEntry k sl .syncTimeout ws.2 t.pc false (match w with | .granule _ => true | _ => false)))
        ∧ (ws.1 + t.synclim ≤ s.cycle → w.unbounded = false → s.waitOver k t w = true → (∀ x e, w ≠ .meet x e) → (∀ h, w ≠ .goOn h) → only (.syncTimeout k sl) (fun x => x.status = .ready ∧ same x)))
    ∧ (∀ h ws p, t.status = .holding h → t.waitStart = some ws → t.saving = none → ws.1 + t.synclim ≤ s.cycle → t.reqs.find? (fun p => p.req.tag == h.tag) = some p →
        (limited h p.req = false → exec (.syncTimeout k sl) s = .next s)
        ∧ (∀ d x, h.kind = .ctalloc d x → p.req.typ = .canopy → p.posted = false → p.req.dst.module = s.moduleNo → s.arrival { p.req with typ := .cancel } ≤ s.cycle → s.waitsAt p.req.dst = false
            → (∀ e ∈ s.agenda, answerRoute e.2 ≠ some (p.req.dst, p.req.src)) → (s.popDelay.cancelAt { p.req with typ := .cancel }).2 = .cancelled →
          ∃ (u : State) (y : Thread), exec (.syncTimeout k sl) s = .next (u.trapEntry k sl .tagExhausted x t.pc false) ∧ u.mem = s.mem ∧ u.ctags = s.ctags ∧ u.thread k sl = some y
            ∧ y.reqs.map PendReq.req = (t.reqs.map PendReq.req).filter (fun z => z.tag != h.tag) ∧ y.g = t.g ∧ y.pc = t.pc)
        ∧ (limited h p.req = true → p.req.dst.module ≠ s.moduleNo → ∃ u : State, exec (.syncTimeout k sl) s = .next u ∧ u.outbox = s.outbox ++ [.reqCancel { p.req with typ := .cancel }] ∧ u.cores = s.cores))
  ) ∧ (
∀ (s : State) (k x : Nat) (e : MeetEntry), (s.core k).meet.find x = some e →
    let grp := (s.threads k).filter (fun p => e.waiters.contains p.1)
    let sum := (grp.map (fun p => p.2.cnt)).sum
    let due := (1 ≤ e.quorum ∧ e.quorum ≤ e.waiters.length) ∨ (e.det = false ∧ e.deadline ≤ s.cycle)
    (∀ sl t d c, due → ((s.threads k).map Prod.fst).Nodup → (sl, t) ∈ grp → t.status = .meet x d c →
      (∀ p ∈ grp, t.tid.toNat < p.2.tid.toNat ∨ (t.tid = p.2.tid ∧ sl ≤ p.1)) →
        let ends := fun (u : State) (y : Thread) => (∀ p ∈ grp, p.1 ≠ sl → u.thread k p.1 = none) ∧ (u.core k).meet.find x = none ∧ y.rd d = (if d = 0#6 then 0 else 1)
          ∧ (∀ r, r ≠ d → y.rd r = t.rd r) ∧ y.tid = t.tid ∧ s.cycle < y.elig ∧ ∀ i < 5, y.fpcsr.getLsbD (3 + i) = grp.any (fun p => p.2.fpcsr.getLsbD (3 + i))
        (sum ≤ 2 ^ 48 - 1 → ∃ (u : State) (y : Thread), exec (.meetRelease k x) s = .next u ∧ u.thread k sl = some y ∧ ends u y ∧ y.cnt = sum ∧ y.pc = t.pc + 4 ∧ y.status = .ready)
        ∧ (2 ^ 48 - 1 < sum → t.pend = [] → t.inh = false → t.tvec ≠ 0 → ∃ (u : State) (y : Thread), exec (.meetRelease k x) s = .next u ∧ u.thread k sl = some y ∧ ends u y ∧ y.cnt = 2 ^ 48 - 1
            ∧ y.pc = t.tvec ∧ y.tpc = t.pc + 4 ∧ bits y.tcause 0 12 = 0x085 ∧ y.tval = BitVec.ofNat 64 sum))
    ∧ (¬ due → exec (.meetRelease k x) s = .next s)
    ∧ (e.det = true → s.cycle < e.deadline → exec (.meetDetTimeout k x) s = .next s)
    ∧ (∀ sl t, e.det = true → e.deadline ≤ s.cycle → e.waiters = [sl] → e.quorum ≠ 1 → s.thread k sl = some t → t.lastLand ≤ s.cycle → t.inh = false → t.tvec ≠ 0 →
        ∃ (u : State) (y : Thread), exec (.meetDetTimeout k x) s = .next u ∧ (u.core k).meet.find x = none ∧ u.thread k sl = some y ∧ y.pc = t.tvec ∧ y.tpc = t.pc
          ∧ bits y.tcause 0 12 = 0x040 ∧ y.tval = (e.dstate.drop 1).headD 0 ∧ ∀ j, j ≠ sl → u.thread k j = s.thread k j)
  )

/-- R366, R367, R369, R269, R299, R226: a save begins at a safe point, or forced: the thread issues no more, it has left the meet table and the holder's capability is 0.
No save begins within a word. When its waits are over, its results landed and its requests settled or their time past, the frame holds its header and registers, the slot is free, and nothing outside the frame has changed. What stands beside the frame is log 20.
R371, R269, R151, R323: a slot that waits for a frame takes its thread back from it once lanes and view allow: registers from the frame, its recorded requests on their way again, the payload of a pending SPAWN rebuilt from the frame's registers (R370);
a swap decision takes a thread that has been parked long enough and saves it as a forced save is; a resumable entry takes the lowest free slot of its core. What the frame does not hold comes from beside it (log 20). -/
def Obligations.SavesAndResumes : Prop :=
  (
∀ (s : State) (k sl : Nat) (t : Thread), s.thread k sl = some t →
    let quiet := t.iv = false ∧ t.rv = false ∧ t.live = false ∧ t.acts = false ∧ t.busy ≤ s.cycle
    let begins := fun (i : Instr) (frame : Nat) (forced : Bool) => ∃ (u : State) (x : Thread), exec i s = .next u ∧ u.thread k sl = some x
      ∧ x.saving = some (frame, forced, s.cycle + 3000000) ∧ (u.core k).canIssue x = false ∧ x.pend = t.pend ∧ x.g = t.g ∧ x.v = t.v ∧ x.pc = t.pc ∧ x.reqs = t.reqs ∧ x.engs = t.engs
      ∧ (∀ j e, (u.core k).meet.find j = some e → sl ∉ e.waiters) ∧ ((s.core k).holder = some sl → (u.core k).cap = 0) ∧ u.mem = s.mem
      ∧ (s.cycle + 3000000, Instr.saveComplete k sl) ∈ u.agenda ∧ ∀ j, j ≠ sl → u.thread k j = s.thread k j
    (∀ frame till, t.preempt = some (frame, till) → t.saving = none → (till ≤ s.cycle → exec (.preemptTimeout k sl) s = .next (s.setThread k sl { t with preempt := none, forced := some frame })))
    ∧ (∀ frame, t.forced = some frame → t.saving = none → quiet → (∀ h, t.status ≠ .holding h) → begins (.forcedSave k sl) frame true)
    ∧ (t.saving = none → ¬ quiet → exec (.forcedSave k sl) s = .next s ∧ exec (.safePointSave k sl) s = .next s)
    ∧ (∀ frame till live, t.preempt = some (frame, till) → t.safePoint = some live → t.saving = none → quiet → t.status = .ready →
        ((live.getLsbD 1 = true ∨ (t.claim = 0 ∧ t.engs = [])) → begins (.safePointSave k sl) frame false)
        ∧ (live.getLsbD 1 = false → (t.claim ≠ 0 ∨ t.engs ≠ []) → exec (.safePointSave k sl) s = .next s))
    ∧ (∀ frame forced lim, t.saving = some (frame, forced, lim) →
        (t.pend ≠ [] ∨ (t.reqs ≠ [] ∧ s.cycle < lim) ∨ ((s.core k).holder = some sl ∧ (s.core k).mq ≠ []) → exec (.saveComplete k sl) s = .next s)
        ∧ (t.pend = [] → (t.reqs = [] ∨ lim ≤ s.cycle) → ((s.core k).holder ≠ some sl ∨ (s.core k).mq = []) → t.unk.length ≤ 16 → t.engs.length ≤ 64 → t.reqs.length ≤ 33 →
            (∀ v ∈ t.v.toList, v.runs.length ≤ 128) → (∀ p ∈ (s.core k).acc, p.1 < 1024) →
            let live : BitVec 22 := if forced then 0x3FFFFF else t.safePoint.getD 0
            let nat := fun (n : Nat) => BitVec.ofNat 64 n
            ∃ u : State, exec (.saveComplete k sl) s = .next u ∧ u.thread k sl = none ∧ (∀ j, j ≠ sl → u.thread k j = s.thread k j) ∧ (u.core k).holder ≠ some sl
              ∧ (∀ a, ¬ (frame ≤ a ∧ a < frame + 45056) → readByte u.mem a = readByte s.mem a)
              ∧ (∃ z, u.saved.find frame = some z ∧ z.origin = k ∧ z.thread.stream = t.stream ∧ z.thread.ctag = t.ctag ∧ z.thread.reqs = t.reqs ∧ z.thread.engs = t.engs)
              ∧ (∀ i, ((s.core k).op i).owner = some sl → i < (s.core k).ops.length → ((u.core k).op i).owner = some (frame + 32))
              ∧ u.frameWord frame 0xF8 = 1 ∧ u.frameWord frame 0 = t.pc ∧ u.frameWord frame 0x10 = live.setWidth 64 ∧ u.frameWord frame 0x18 = t.tid ∧ u.frameWord frame 0x20 = nat t.cnt
              ∧ u.frameWord frame 0x30 = t.fpcsr.setWidth 64 ∧ u.frameWord frame 0x40 = t.gsel.setWidth 64 ∧ u.frameWord frame 0x48 = t.pfx.setWidth 64 ∧ u.frameWord frame 0x50 = nat t.ctag
              ∧ u.frameWord frame 0x58 = t.tvec ∧ u.frameWord frame 0x60 = t.tcause ∧ u.frameWord frame 0x68 = t.tpc ∧ u.frameWord frame 0x70 = t.tval ∧ u.frameWord frame 0x78 = t.tsave
              ∧ u.frameWord frame 0x80 = nat t.hbint ∧ u.frameWord frame 0x88 = nat t.budget ∧ u.frameWord frame 0x90 = nat t.hb ∧ u.frameWord frame 0x98 = nat t.synclim
              ∧ u.frameWord frame 0xA0 = t.stream.setWidth 64 ∧ u.frameWord frame 0xA8 = t.serial.setWidth 64 ∧ u.frameWord frame 0xB0 = t.ackw.setWidth 64 ∧ u.frameWord frame 0xB8 = nat t.meetwin
              ∧ u.frameWord frame 0xC0 = t.dtbase ∧ u.frameWord frame 0xE8 = t.ptbase
              ∧ ∀ i < 64, u.frameWord frame (0x100 + 8 * i) = (if forced || live.getLsbD (6 + i / 4) then t.g.toList.getD i 0 else 0)))
  ) ∧ (
(∀ (s : State) (k sl frame : Nat) (t : Thread), s.thread k sl = some t → t.status = .resuming frame →
    let w := fun (off : Nat) => s.frameWord frame off
    let acc := (w 8).getLsbD 6 = true ∧ (w 0x10).getLsbD 0 = true
    (s.lanesFree k < bits (w 8) 8 5 → exec (.threadResume k sl) s = .next s)
    ∧ (acc → (s.core k).holder ≠ none → exec (.threadResume k sl) s = .next s)
    ∧ (bits (w 8) 8 5 ≤ s.lanesFree k → (acc → (s.core k).holder = none) → (∀ a ∈ wordsOf frame frameBytes, a ∉ s.eccOne ∧ a ∉ s.eccBad) → ∀ key z, s.savedOf frame = some (key, z) →
        ∃ (u : State) (x : Thread), exec (.threadResume k sl) s = .next u ∧ u.thread k sl = some x ∧ (∀ j, j ≠ sl → u.thread k j = s.thread k j) ∧ u.mem = s.mem
          ∧ x.pc = w 0 &&& ~~~3#64 ∧ x.claim = bits (w 8) 8 5 ∧ x.spawnk = bits (w 8) 0 3 ∧ x.tid = w 0x18 ∧ x.cnt = bits (w 0x20) 0 48 ∧ x.cx = bits (w 0x28) 0 16 ∧ x.cy = bits (w 0x28) 16 16
          ∧ x.cz = bits (w 0x28) 32 16 ∧ x.fpcsr = (w 0x30).setWidth 15 ∧ x.sc = (w 0x38).getLsbD 0 ∧ x.det = (w 0x38).getLsbD 1 ∧ x.ctag = bits (w 0x50) 0 16 ∧ x.tvec = w 0x58 &&& ~~~3#64
          ∧ x.tcause = w 0x60 &&& ~~~0x4000000007FC000#64 ∧ x.tpc = w 0x68 &&& ~~~3#64 ∧ x.tval = w 0x70 ∧ x.tsave = w 0x78 ∧ x.hbint = (w 0x80).toNat ∧ x.budget = bits (w 0x88) 0 48 ∧ x.hb = (w 0x90).toNat
          ∧ x.synclim = bits (w 0x98) 0 40 ∧ x.stream = (w 0xA0).setWidth 32 ∧ x.serial = (w 0xA8).setWidth 32 ∧ x.ackw = (w 0xB0).setWidth 32 ∧ x.meetwin = bits (w 0xB8) 0 32
          ∧ x.dtbase = w 0xC0 ∧ x.ptbase = w 0xE8 &&& 0xFFFFF0FFFFFFF0FF#64 ∧ (∀ r : Reg, r ≠ 0#6 → x.rd r = w (0x100 + 8 * r.toNat)) ∧ x.status = (if (w 8).getLsbD 4 then z.thread.status else .ready)
          ∧ x.unkOver = (w 8).getLsbD 7 ∧ x.unk = s.frameUnk frame z.thread.unk ∧ x.engs = s.frameEngs frame z.thread.engs
          ∧ x.reqs.map PendReq.req = (z.thread.records.zipIdx.take (bits (w 8) 23 6)).map (fun p => s.rebuilt frame (s.restore frame z.thread) (s.frameReq frame p.2 p.1).req)
          ∧ (∀ p ∈ x.reqs, p.behind = [] → p.req.dst.module ≠ s.moduleNo → reqEvent p.req ∈ u.outbox)
          ∧ (∀ p ∈ x.reqs, p.behind = [] → p.lastSent = s.cycle ∧ (s.cycle + 30000, Instr.requestRetransmit p.req.tag) ∈ u.agenda)
          ∧ (acc → (u.core k).holder = some sl) ∧ (¬ acc → (u.core k).holder = (s.core k).holder) ∧ u.saved.find key = none))
  ∧ (∀ (s : State) (die k sl f : Nat) (t : Thread) (h : Held), s.swapChoice die = some (h, (k, sl, t), f) →
      f ∉ s.swapUsed ∧ (s.core k).swaps.length < 32 ∧ s.swapLogOf t ≠ 0 ∧ ∃ g, t.status = .parked (.granule g) ∧ t.issued + 4 + 2 ^ s.swapLogOf t ≤ s.cycle
        ∧ (s.thread k sl = some t → ∃ (u : State) (x : Thread), exec (.swapOut die) s = .next u ∧ u.thread k sl = some x ∧ x.saving = some (f, true, s.cycle + 3000000) ∧ x.pc = t.pc
            ∧ (u.core k).swaps = (s.core k).swaps ++ [⟨f, g, false⟩] ∧ f ∈ u.swapUsed ∧ u.mem = s.mem ∧ ∀ j, j ≠ sl → u.thread k j = s.thread k j))
  ∧ (∀ (s : State) (k x sl : Nat) (w : SwapEntry), (s.core k).swaps.find? (fun w => w.frame == x) = some w → w.resumable = true → (s.saved.find x).isSome = true →
      (List.range 16).find? (fun j => (s.thread k j).isNone && s.tended k != some j) = some sl → (∀ p ∈ s.threads k, p.2.status ≠ .resuming x) →
      ∃ (u : State) (y : Thread), exec (.swapResume k x) s = .next u ∧ u.thread k sl = some y ∧ y.status = .resuming x ∧ y.ptbase = s.frameWord x 0xE8 ∧ ∀ j, j ≠ sl → u.thread k j = s.thread k j)
  )

/-- R128, R129, R131, R132, R134, R137, R263 to R266: a request that its owner admits is executed once, leaves a receipt and is answered: reads, writes (an aligned one as one event, a misaligned one byte by byte: here where no delay parts them, log 9), synchronising requests, the bit requests
and atomics, for a core's store or a channel's DRAM. One with a receipt gets that answer again and has no effect; one too old is STALE; one sent before the owner's restart has an unknown outcome;
a sealed core, an owner that restarts, and one of a die that has stopped in its start (log 64), answers FENCED to every request. -/
def Obligations.OwnerRequests : Prop :=
  (∀ (s : State) (m : Request) (s1 : State) (n : Nat), (Admits s m s1 ∨ (m.serialed = false ∧ midway m = false ∧ s.sealedFor m = false ∧ s.parkedHere m = false ∧ s1 = s)) → m.ctag = 0 →
    let k := coreOf m.dst
    let onCore := m.dst.kind = 0 ∧ m.dst.die < 16 ∧ m.dst.index < 10240 ∧ (s.core k).sealed = false ∧ (s.core k).waiters = [] ∧ m.addr + n ≤ 0x18000
    let onChannel := m.dst.kind = 1 ∧ m.addr % 2 ^ 44 + n ≤ 2 ^ 44
    let key := if m.dst.kind = 0 then localKey k m.addr else m.addr % 2 ^ 44
    let g := key / 16
    let data := readBytes s.mem key n
    let done := fun (i : Instr) (res : List Word) (mem : Tab Byte) (full : Nat → Bool) => ∃ u, exec i s = .next u ∧ u.mem = mem ∧ (∀ x, u.fe x = full x)
      ∧ Answered s u m (.ansDone ⟨m, res, 0⟩) ∧ (m.serialed = true → ∃ r ∈ (u.owner (ownerKind m)).receipts, r.module = m.src.module ∧ r.stream = m.stream ∧ r.serial = m.serial ∧ r.off = m.off ∧ r.reply = .done res)
    let waits := fun (i : Instr) => ∃ u, exec i s = .next u ∧ u.mem = s.mem ∧ u.full = s.full ∧ (u.core k).waiters = [m] ∧ Answered s u m (.ansWaiting ⟨m, [], 0⟩)
    let becomes := fun (v : Bool) (x : Nat) => if x = g then v else s.fe x
    (∀ w ∈ wordsOf key n, w ∉ s.eccOne ∧ w ∉ s.eccBad) →
    (onCore ∨ onChannel →
      (∀ u, m.typ = .read → m.words = [BitVec.ofNat 64 n, BitVec.ofNat 64 u, 0] → m.bytes = [] → 0 < u → n % u = 0 → 0 < n → n < 2 ^ 32 → s.transit = [] →
          done (.reqRead m) (packWords data) s.mem s.fe)
      ∧ (∀ u, m.typ = .write → m.words = [4, BitVec.ofNat 64 u, 0] → n = m.bytes.length → 0 < u → n % u = 0 → 0 < n → n < 2 ^ 32 → s.transit = [] →
          done (.reqWrite m) [] (writeBytes s.mem key m.bytes) s.fe)
      ∧ (m.typ = .atomic → n = 2 ^ m.lsize → 2 ≤ m.lsize → m.lsize ≤ 3 → m.f < 8 →
          let old := leNat data
          let w := 8 * n
          let v := (m.words.headD 0).toNat % 2 ^ w
          let less := fun (x y : Nat) => decide ((BitVec.ofNat w x).toInt < (BitVec.ofNat w y).toInt)
          (m.words.headD 0).toNat < 2 ^ w → ((m.words.drop 1).headD 0).toNat < 2 ^ w →
          done (.reqAtomic m) [BitVec.ofNat 64 old] (writeBytes s.mem key (leBytes n (match m.f with
            | 0 => (old + m.cnt * v) % 2 ^ w | 1 => if less v old then v else old | 2 => if less old v then v else old | 3 => old &&& v | 4 => old ||| v
            | 5 => if m.cnt % 2 = 1 then old ^^^ v else old | 6 => v | _ => if old = ((m.words.drop 1).headD 0).toNat then v else old))) s.fe))
    ∧ (onCore → n = 2 ^ m.lsize →
      (m.typ = .lds → (s.fe g = true → done (.reqLds m) (packWords data) s.mem s.fe) ∧ (s.fe g = false → waits (.reqLds m)))
      ∧ (m.typ = .ldsc → (s.fe g = true → done (.reqLdsc m) (packWords data) s.mem (becomes false)) ∧ (s.fe g = false → waits (.reqLdsc m)))
      ∧ (m.typ = .sts → m.bytes.length = n → (s.fe g = false → done (.reqSts m) [] (writeBytes s.mem key m.bytes) (becomes true)) ∧ (s.fe g = true → waits (.reqSts m)))
      ∧ (m.typ = .febit → done (.reqFebit m) [] s.mem (becomes (m.f == 0)))
      ∧ (m.typ = .fetest → done (.reqFetest m) [if s.fe g then 1 else 0] s.mem s.fe)
      ∧ (m.typ = .waitf → ((s.fe g = true ↔ m.words.headD 0 = 0) → done (.reqWaitf m) [] s.mem s.fe) ∧ (¬ (s.fe g = true ↔ m.words.headD 0 = 0) → waits (.reqWaitf m)))))
  ∧ (∀ (s : State) (m : Request), m.serialed = true →
      let own := (s.owner (ownerKind m)).fresh s.cycle
      let all := [Instr.reqRead m, .reqWrite m, .reqLds m, .reqLdsc m, .reqSts m, .reqFebit m, .reqFetest m, .reqWaitf m, .reqAtomic m, .reqSpawn m, .reqGlaunch m, .reqSuccdec m, .reqReady m, .reqMma m, .reqMred m, .reqCollc m, .reqXducer m]
      let turned := fun (i : Instr) (r : Reply) => ∃ u : State, exec i s = .next u ∧ u.mem = s.mem ∧ u.full = s.full ∧ u.cores = s.cores ∧ u.dists = s.dists ∧ Answered s u m (r.event m)
      (s.sealedFor m = true → (∀ i ∈ all, turned i .fenced) ∧ turned (.reqCancel m) .fenced) ∧ (s.sealedFor m = false → midway m = false →
      (∀ r, own.receiptFor m = some r → ∀ i ∈ all, turned i r.reply)
      ∧ (own.receiptFor m = none → m.sent + 4000 < s.us → ∀ i ∈ all, turned i .stale)
      ∧ (own.receiptFor m = none → s.us ≤ m.sent + 4000 → s.parkedHere m = false → ∀ x f, own.updateFloor (ownerEntries (ownerKind m) - s.writing (ownerKind m)) m.src.module m.stream m.ack s.cycle = some (x, f) →
          ((m.serial = f ∨ 2 ^ 16 < (m.serial - f).toNat) → ∀ i ∈ all, turned i .stale)
          ∧ (m.serial ≠ f → (m.serial - f).toNat ≤ 2 ^ 16 → m.sent < x.restart → ∀ i ∈ all, turned i .unknown))))
  ∧ (∀ (s : State) (m w : Request), w ∈ (s.core (coreOf m.dst)).waiters → w.src.module = m.src.module → w.stream = m.stream → w.serial = m.serial → w.tag = m.tag → s.sealedFor m = false → (∀ e ∈ s.agenda, ∀ q, e.2 ≠ .reqCanopy q) →
      ∃ u : State, exec (.reqCancel m) s = .next u ∧ u.mem = s.mem ∧ u.full = s.full ∧ w ∉ (u.core (coreOf m.dst)).waiters ∧ Answered s u m (.ansCancelled ⟨m, [], 0⟩))
  ∧ (∀ (s : State) (o : Owner),
      ((∀ k, o = .core k → (s.core k).sealed = false) →
        ∃ u : State, exec (.ownerRestart o) s = .next u ∧ u.owner o = ⟨[], [], s.us, s.cycle + s.delay⟩ ∧ (∀ p, p ≠ o → u.owner p = s.owner p) ∧ u.mem = s.mem ∧ u.cores = s.cores)
      ∧ ∃ u : State, exec (.receiptExpiry o) s = .next u ∧ u.mem = s.mem ∧ u.cores = s.cores ∧ (u.owner o).restart = (s.owner o).restart
          ∧ (∀ r, r ∈ (u.owner o).receipts ↔ r ∈ (s.owner o).receipts ∧ s.cycle < r.time + 6000000) ∧ ∀ f, f ∈ (u.owner o).floors ↔ f ∈ (s.owner o).floors ∧ s.cycle < f.time + 6000000)

/-- R227, R229, R243, R247, R79 to R83, R115, R116, R291, R292, R301, R305, R317: what the other owners do with a request they admit: a matrix unit queues a command or applies a contribution,
the allocator makes a ctag, gives one to the thread that asked (R81), commits or drops one, a lane takes an entry, a core starts a thread or bounces it (what it is told of a queue in another module: log 97), a distributor appends blocks or makes one ready, and a channel lowers a count and at 0 sends READY. -/
def Obligations.UnitRequests : Prop :=
  ∀ (s : State) (m : Request) (s1 : State), Admits s m s1 →
    let k := coreOf m.dst
    let core := s.core k
    let w := fun (i : Nat) => (m.words.drop i).headD 0
    let ends := fun (i : Instr) (a : Instr) (p : State → Prop) => ∃ u : State, exec i s = .next u ∧ Answered s u m a ∧ p u
    let done := fun (res : List Word) => Instr.ansDone ⟨m, res, 0⟩
    let arrives := fun (u : State) (e : Option (Cause × Word)) => ∃ x : Arrival, Instr.completionArrival x ∈ u.outbox ∧ x.serial = m.serial ∧ x.stream = m.stream ∧ x.ref = w 3 ∧ x.fail = e
    let placed := m.dst.kind = 0 ∧ m.dst.die < 16 ∧ m.dst.index < 10240 ∧ core.sealed = false
    -- the matrix unit
    (placed → m.src.module ≠ s.moduleNo → 4 ≤ m.words.length →
      let i := if m.typ = .mred then Instr.reqMred m else .reqMma m
      (m.typ = .mma ∨ m.typ = .mred →
        ((w 1 = 0 ∨ (w 1).toNat ≠ core.cap.toNat) → ends i (done []) (fun u => u.core k = core ∧ arrives u (some (.capRefused, 0))))
        ∧ (w 1 ≠ 0 → (w 1).toNat = core.cap.toNat → core.acount ≤ (if m.typ = .mred then bits (w 2) 2 2 else bits (w 2) 46 2) → ends i (done []) (fun u => u.core k = core ∧ arrives u (some (.matrixArg, 0)))))
      ∧ (m.typ = .mma → w 1 ≠ 0 → (w 1).toNat = core.cap.toNat → bits (w 2) 46 2 < core.acount → bits (w 2) 15 5 ≠ 0 → bits (w 2) 10 5 ≠ 0 →
          (core.mq.length < 8 → ends i (done []) (fun u => ∃ x : MCmd, (u.core k).mq = core.mq ++ [x] ∧ x.regs = m.words.take 4 ∧ x.mred = false ∧ x.limit = (w 4).toNat ∧ (u.core k).acc = core.acc))
          ∧ (8 ≤ core.mq.length → ends i (.ansRetry ⟨m, [], 0⟩) (fun u => u.core k = core)))
      ∧ (m.typ = .mred → w 1 ≠ 0 → (w 1).toNat = core.cap.toNat → bits (w 2) 2 2 < core.acount →
          let sub := bits (w 2) 2 2
          let kb := bits (w 2) 4 12
          (kb < core.kbOf sub → ends i (done []) (fun u => u.core k = core ∧ ∃ v, arrives u (some (.kbOrder, v))))
          ∧ (kb = core.kbOf sub → (∀ p ∈ core.threads, p.2.draining = none ∧ ∀ u l, p.2.status ≠ .parked (.commands u l)) → core.redbuf = [] → core.nextKb.length = 4 → (∀ a ∈ wordsOf (accErr k sub) 0x1000, a ∉ s.eccOne ∧ a ∉ s.eccBad) → ends i (done []) (fun u => (u.core k).kbOf sub = kb + 1 ∧ arrives u none
              ∧ ∀ n < 256, (u.core k).accAt (sub * 256 + n) = ((Aw.ofBits (core.accAt (sub * 256 + n))).add (Aw.ofBits (BitVec.ofNat 128 (leNat ((m.bytes.drop (16 * n)).take 16))))).toBits))
          ∧ (core.kbOf sub < kb → core.redbuf.length < 8 → ends i (done []) (fun u => ∃ x : MCmd, (u.core k).redbuf = core.redbuf ++ [x] ∧ x.kb = kb ∧ x.sub = sub ∧ (u.core k).acc = core.acc))
          ∧ (core.kbOf sub < kb → 8 ≤ core.redbuf.length → ends i (.ansRetry ⟨m, [], 0⟩) (fun u => u.core k = core))))
    -- the allocator
    ∧ (m.typ = .canopy → m.words.length ≤ 2 → s.issuer m.stream ≠ none →
      let x := w 0
      let y := w 1
      let live := x.toNat < 65536 ∧ s.ctagState x.toNat = .live ∧ (x.toNat = 0 ∨ (s.ctagRec x.toNat).guest = m.guest)
      (¬ live → ends (.reqCanopy m) (.ansError .ctagInvalid ⟨m, [], x⟩) (fun u => u.ctags = s.ctags))
      ∧ (live → m.f = 0 → y.toNat < 4 → (y.getLsbD 1 = true → x ≠ 0) → (s.ctagRec x.toNat).depth ≠ 7 → (∃ n, 1 ≤ n ∧ n < 65536 ∧ s.ctagState n = .free) →
          ∃ n, 1 ≤ n ∧ n < 65536 ∧ s.ctagState n = .free ∧ ends (.reqCanopy m) (done [BitVec.ofNat 64 n]) (fun u => u.ctagRec n = ⟨.live, x.toNat, (s.ctagRec x.toNat).depth + 1, m.guest, y.getLsbD 0, y.getLsbD 1, none⟩))
      ∧ (live → m.f = 0 → y.toNat < 4 → (y.getLsbD 1 = true → x ≠ 0) → (s.ctagRec x.toNat).depth ≠ 7 → (∀ n, 1 ≤ n → n < 65536 → s.ctagState n ≠ .free) →
          ends (.reqCanopy m) (.ansWaiting ⟨m, [], 0⟩) (fun u => u.ctags = s.ctags ∧ ∃ q, (s.cycle + 1, Instr.reqCanopy q) ∈ u.agenda ∧ q.serial = m.serial ∧ q.stream = m.stream))
      ∧ (live → m.f = 0 → y.toNat < 4 → (y.getLsbD 1 = true → x ≠ 0) → (s.ctagRec x.toNat).depth = 7 → ends (.reqCanopy m) (.ansError .ctagDepth ⟨m, [], x⟩) (fun u => u.ctags = s.ctags))
      ∧ (live → m.f = 1 → ∀ kk sl t, s.thread kk sl = some t → t.stream = m.stream → t.resumes = false → (∀ p ∈ s.cores, ∀ y ∈ p.2.threads, y.2.stream = m.stream → (p.1, y.1, y.2) = (kk, sl, t)) →
          ends (.reqCanopy m) (done [BitVec.ofNat 64 t.ctag]) (fun u => u.ctags = s.ctags ∧ u.thread kk sl = some { t with ctag := x.toNat } ∧ ∀ j n, (j, n) ≠ (kk, sl) → u.thread j n = s.thread j n))
      ∧ (live → m.f = 2 → x.toNat ≠ 0 → (s.hasKids x.toNat = true ∨ s.dropsKid x.toNat = true) → ends (.reqCanopy m) (.ansError .ctagBusy ⟨m, [], x⟩) (fun u => u.ctags = s.ctags))
      ∧ (live → m.f = 2 → x.toNat ≠ 0 → s.hasKids x.toNat = false → s.dropsKid x.toNat = false → ends (.reqCanopy m) (done []) (fun u => (u.ctagRec x.toNat).state = .committing ∧ ∃ n, s.cycle ≤ n ∧ (n, Instr.canopyCommit x.toNat) ∈ u.agenda))
      ∧ (live → m.f = 3 → x.toNat ≠ 0 → ends (.reqCanopy m) (done []) (fun u => (∀ t ∈ s.dropSet x.toNat, t ≠ 0 → (u.ctagRec t).state = .retired) ∧ ∃ n, s.cycle ≤ n ∧ (n, Instr.canopyDrop x.toNat) ∈ u.agenda)))
    -- a lane
    ∧ (m.typ = .xducer → s.issuer m.stream ≠ none → m.words.length = (if m.f = 0 then 3 else 6) →
      let lane := s.lane m.dst.die (w 0).toNat
      let ref := if m.f = 0 then w 2 else w 5
      let free := (w 0).toNat < 64 ∧ lane.guest = some m.guest ∧ refBad ref = false ∧ (m.f ≠ 0 → (w 2).toNat < 2 ^ 24 ∧ (w 4).toNat < 2 ^ 24)
      (free → lane.queue.length < 16 → ends (.reqXducer m) (done [0]) (fun u => ∃ j : LaneJob, (u.lane m.dst.die (w 0).toNat).queue = lane.queue ++ [j] ∧ j.tab = (m.f == 0) ∧ j.ref = ref ∧ j.env.serial = m.serial))
      ∧ (free → 16 ≤ lane.queue.length → ends (.reqXducer m) (done [1]) (fun u => u.lanes = s.lanes))
      ∧ ((w 0).toNat < 64 → (m.f ≠ 0 → (w 2).toNat < 2 ^ 24 ∧ (w 4).toNat < 2 ^ 24) → refBad ref = false → lane.guest ≠ some m.guest → ends (.reqXducer m) (.ansError .permission ⟨m, [], w 0⟩) (fun u => u.lanes = s.lanes))
      ∧ ((w 0).toNat < 64 → (m.f ≠ 0 → (w 2).toNat < 2 ^ 24 ∧ (w 4).toNat < 2 ^ 24) → refBad ref = true → ends (.reqXducer m) (.ansError .address ⟨m, [], ref⟩) (fun u => u.lanes = s.lanes)))
    -- a spawn
    ∧ (m.typ = .spawn → placed →
      let fits := s.vacant k = true ∨ (core.acount = bits (w 5) 0 16 ∧ core.tsize = bits (w 5) 16 32)
      let ok := s.guestOk k (bits (w 11) 0 8) = true ∧ s.ctagOk (bits (w 3) 0 16) (bits (w 11) 0 8) = true
      (s.guestOk k (bits (w 11) 0 8) = false → ends (.reqSpawn m) (.ansError .permission ⟨m, [], BitVec.ofNat 64 k⟩) (fun u => u.cores = s.cores))
      ∧ (ok → ((∀ sl < 16, s.thread k sl ≠ none ∨ s.tended k = some sl) ∨ ¬ fits) → ends (.reqSpawn m) (done [1]) (fun u => u.cores = s.cores))
      ∧ (ok → fits → ∀ f, (List.range 16).find? (fun sl => (s.thread k sl).isNone && s.tended k != some sl) = some f → ends (.reqSpawn m) (done [0]) (fun u => ∃ y, u.thread k f = some y ∧ y.pc = w 0 ∧ y.tid = w 1
          ∧ y.cnt = bits (w 2) 0 48 ∧ y.ctag = bits (w 3) 0 16 ∧ y.budget = bits (w 6) 0 48 ∧ y.ptbase = w 11 ∧ y.serial = 1 ∧ y.spawned = true ∧ y.away = (if w 13 = 0 ∨ bits (w 18) 0 32 = s.moduleNo then none else some (Away.ofWords (w 18) (w 19) (w 20)))
          ∧ (∀ j < 8, y.rd (BitVec.ofNat 6 (1 + j)) = (if 21 + j < m.words.length then w (21 + j) else 0)) ∧ ∀ sl, sl ≠ f → u.thread k sl = s.thread k sl)))
    -- the distributor and a predecessor count
    ∧ (m.typ = .spawn →
        let r := s1.appendAll m.dst.die (bits (w 0) 0 6) m.ptbase (w 2).toNat (w 1) 0
        ends (.reqGlaunch m) (done [BitVec.ofNat 64 (r.2.1 + if r.2.2 then 2 ^ 63 else 0)]) (fun u => u.dists = r.1.dists ∧ u.mem = r.1.mem))
    ∧ (∀ q i b, s.queue (bits (w 0) 58 4) (bits (w 0) 52 6) = some q → q.blocks[i]? = some b → b.addr.toNat = bits (w 0) 0 52 → b.status = 0 →
        (∀ j c, j < i → q.blocks[j]? = some c → c.addr.toNat ≠ bits (w 0) 0 52 ∨ c.status ≠ 0) →
        ends (.reqReady m) (done []) (fun u => u.block (bits (w 0) 58 4) (bits (w 0) 52 6) (q.base + i) = some { b with status := 1, readyAt := s.cycle, readyNo := q.readies }))
    ∧ (let e := w 0
       let key := m.addr % 2 ^ 44
       let n := leNat (readBytes s.mem key 4)
       let rq := s.chanReq (m.dst.die * 64 + m.dst.index) .ready ⟨3, s.moduleNo, bits e 58 4, 1⟩ e.toNat [e]
       (∀ a ∈ wordsOf key 4, a ∉ s.eccOne ∧ a ∉ s.eccBad) →
        (n = 0 → ends (.reqSuccdec m) (.ansError .predUnderflow ⟨m, [], BitVec.ofNat 64 (bits e 0 52)⟩) (fun u => u.mem = s.mem ∧ u.dists = s.dists))
        ∧ (2 ≤ n → ends (.reqSuccdec m) (done []) (fun u => u.mem = writeBytes s.mem key (leBytes 4 (n - 1)) ∧ u.dists = s.dists))
        ∧ (n = 1 → 0 < s.delay → ends (.reqSuccdec m) (done []) (fun u => u.mem = writeBytes s.mem key [0, 0, 0, 0] ∧ u.dists = s.dists ∧ (s.arrival rq, Instr.reqReady rq) ∈ u.agenda))
        ∧ (n = 1 → s.NoDelay → (∃ z, Admits s rq z) → ownerKind m ≠ ownerKind rq → ∀ q i b, s.queue (bits e 58 4) (bits e 52 6) = some q → q.blocks[i]? = some b → b.addr.toNat = bits e 0 52 → b.status = 0 →
            (∀ j c, j < i → q.blocks[j]? = some c → c.addr.toNat ≠ bits e 0 52 ∨ c.status ≠ 0) →
            ends (.reqSuccdec m) (done []) (fun u => u.block (bits e 58 4) (bits e 52 6) (q.base + i) = some { b with status := 1, readyAt := s.cycle, readyNo := q.readies })))

/-- R261, R263, R267, R268, R132, R269: an answer reaches the thread whose request it is. DONE completes a holding word with its result, or settles a posted request; ERROR, STALE, an unknown outcome and
the give-up raise a trap at a holding word and make an entry of the list for a posted request; WAITING, RETRY, BUSY and FENCED do not settle; the timers send a request again. A command that settles as unknown completes its word, and its object receives the failure (R268);
a request that waits for the one before it leaves when that settles (R123). The VALUE of an ERROR answer's trap is log 19's, a command that completes with REMOTE_UNKNOWN log 99's, the order of the WRITEs of one store log 83's. -/
def Obligations.AnswersAndTimers : Prop :=
  ∀ (s : State) (k sl tag : Nat) (t : Thread) (p : PendReq) (a : Answer), a.req.tag = tag → s.findCopy tag = none → s.findLane tag = none → s.findSend tag = none → s.findUnit tag = none → s.pendOf tag = some p → s.findTag tag = some (k, sl) →
    s.thread k sl = some t → t.reqs.find? (fun x => x.req.tag == tag) = some p → (∀ y ∈ t.reqs, y.req.tag = tag → y = p) →
    let rest := (t.reqs.filter (fun x => x.req.tag != tag)).map (fun x => { x with behind := x.behind.filter (· != tag) })
    let ends := fun (i : Instr) (q : Thread → Prop) => ∃ (u : State) (x : Thread), exec i s = .next u ∧ u.thread k sl = some x ∧ x.reqs = rest ∧ q x ∧ u.mem = s.mem ∧ ∀ j, j ≠ sl → u.thread k j = s.thread k j
    let res := a.res.headD 0
    let unknown := if p.req.serialed then p.req.serial.setWidth 64 else p.req.va
    let traps := fun (i : Instr) (e : Cause) (v : Word) (addr : Bool) => ∃ y : Thread, y.reqs = rest ∧ y.g = t.g ∧ exec i s = .next ((s.setThread k sl y).trapEntry k sl e v t.pc false addr)
    let command := fun (h : Hold) => h.kind = .ctend ∨ ∃ d, h.kind = .xducer d
    let unsent := p.idle = true ∧ p.tries = 0
    let stays := fun (i : Instr) (q : PendReq) (n : Option Nat) => ∃ (u : State) (x : Thread), exec i s = .next u ∧ u.thread k sl = some x ∧ x.status = t.status ∧ x.pc = t.pc ∧ x.g = t.g
      ∧ x.reqs = t.reqs.map (fun y => if y.req.tag == tag then q else y)
      ∧ u.mem = s.mem ∧ ∀ m, n = some m → (m, Instr.backoffResend tag) ∈ u.agenda
    -- a holding word
    (∀ h, t.status = .holding h → h.tag = tag → p.posted = false →
      (∀ d c v, h.kind = .fetest d ∨ (∃ e n, h.kind = .spawn d c e n) ∨ (∃ q, h.kind = .ctalloc d q) ∨ h.kind = .glaunch d ∨ (∃ z, z ≠ 2 ∧ h.kind = .lds z d) ∨ h.kind = .atomic false d → v = res →
          ends (.ansDone a) (fun x => x.rd d = (if d = 0#6 then 0 else v) ∧ (∀ r, r ≠ d → x.rd r = t.rd r) ∧ x.pc = t.pc + 4 ∧ x.status = .ready))
      ∧ (∀ d, h.kind = .atomic true d → ends (.ansDone a) (fun x => x.rd d = (if d = 0#6 then 0 else (BitVec.ofNat 32 res.toNat).signExtend 64) ∧ x.pc = t.pc + 4 ∧ x.status = .ready))
      ∧ (∀ d, h.kind = .lds 2 d → d ≠ 63#6 → ends (.ansDone a) (fun x => x.rd d = (if d = 0#6 then 0 else res) ∧ x.rd (d + 1#6) = (a.res.drop 1).headD 0 ∧ x.pc = t.pc + 4 ∧ x.status = .ready))
      ∧ (∀ d c, h.kind = .ctset d c → ends (.ansDone a) (fun x => x.ctag = c ∧ x.rd d = (if d = 0#6 then 0 else res) ∧ x.pc = t.pc + 4 ∧ x.status = .ready))
      ∧ (∀ d n, h.kind = .load 3 n d → h.todo = [] → h.got = [] → p.req.words.headD 0 = 8 → a.res = [res] →
          ends (.ansDone a) (fun x => x.rd d = (if d = 0#6 then 0 else res) ∧ (∀ r, r ≠ d → x.rd r = t.rd r) ∧ x.pc = t.pc + 4 ∧ x.status = .ready))
      ∧ ((h.kind = .store ∧ h.todo = []) ∨ h.kind = .nothing ∨ h.kind = .ctend → ends (.ansDone a) (fun x => (∀ r, x.rd r = t.rd r) ∧ x.pc = t.pc + 4 ∧ x.status = .ready))
      ∧ (∀ c, (∀ d n e m, h.kind ≠ .spawn d n e m) → (∀ d, h.kind ≠ .xducer d) → traps (.ansError c a) c a.val c.isAddress) ∧ (∀ c d n e m, h.kind = .spawn d n e m → traps (.ansError c a) c (BitVec.ofNat 64 n) false)
      ∧ (∀ c d, h.kind = .xducer d → traps (.ansError c a) c a.val (c.isAddress && c != .permission))
      ∧ (¬ command h → traps (.ansStale a) .remoteUnknown unknown (!p.req.serialed) ∧ traps (.ansUnknownOutcome a) .remoteUnknown unknown (!p.req.serialed)
          ∧ (t.saving = none → ¬ unsent → p.clock + 3000000 ≤ s.cycle → traps (.requestGiveUp tag) .remoteUnknown unknown (!p.req.serialed)))
      ∧ (command h → ∀ i ∈ [Instr.ansStale a, .ansUnknownOutcome a], ends i (fun x => x.pc = t.pc + 4 ∧ x.status = .ready)
          ∧ ∃ u, exec i s = .next u ∧ ∃ n x, (n, Instr.completionArrival x) ∈ u.agenda ∧ x.serial = p.req.serial ∧ x.fail = some (.remoteUnknown, 0))
      ∧ (t.saving = none → (∀ d q, h.kind ≠ .ctalloc d q) → traps (.ansCancelled a) .syncTimeout (t.waitStart.getD (0, 0)).2 true)
      ∧ (t.saving = none → ∀ d q, h.kind = .ctalloc d q → traps (.ansCancelled a) .tagExhausted q false)
      ∧ (t.saving ≠ none → ends (.ansCancelled a) (fun x => x.status = .ready ∧ x.pc = t.pc ∧ ∀ r, x.rd r = t.rd r)))
    -- a posted request
    ∧ (p.posted = true → (∀ y ∈ t.reqs, y.req.tag ≠ tag → y.behind = [tag] → y.idle = true → y.tries = 0 → y.req.dst.module ≠ s.moduleNo → (∀ z ∈ t.reqs, z.req.tag = y.req.tag → z = y) →
        (∀ z ∈ rest, z.req.tag ≠ y.req.tag → z.freed = false) → ∃ (u : State) (q : Request), exec (.ansDone a) s = .next u ∧ u.outbox = s.outbox ++ [reqEvent q] ∧ q.serial = y.req.serial ∧ q.dst = y.req.dst ∧ q.bytes = y.req.bytes))
    ∧ (p.posted = true → (∀ z ∈ rest, z.freed = false) →
      let entry := fun (i : Instr) (n : Nat) (c : Option Cause) =>
        (t.unk.length < 16 → ends i (fun x => ∃ e, x.unk = t.unk ++ [e] ∧ e.serial = p.req.serial ∧ e.typ = typeCode p.req ∧ e.reason = n ∧ e.cause = c ∧ e.owner = some p.req.dst ∧ e.reported = false ∧ x.pc = t.pc ∧ x.g = t.g))
        ∧ (16 ≤ t.unk.length → ends i (fun x => x.unk = t.unk ∧ x.unkOver = true ∧ x.pc = t.pc))
      ends (.ansDone a) (fun x => x.unk = t.unk ∧ x.pc = t.pc ∧ x.g = t.g ∧ x.status = t.status)
      ∧ (rest = [] → t.engs = [] → t.ackw ≠ t.serial → ends (.ansDone a) (fun x => x.ackw = t.serial - 1))
      ∧ (p.req.typ ≠ .succdec → (∀ c, entry (.ansError c a) 3 (some c)) ∧ entry (.ansStale a) 2 none ∧ entry (.ansUnknownOutcome a) 1 none
        ∧ (t.saving = none → ¬ unsent → p.clock + 3000000 ≤ s.cycle → entry (.requestGiveUp tag) 0 none))
      ∧ (p.req.typ = .succdec → ∀ c, ∃ (u : State) (x : Thread), exec (.ansError c a) s = .next u ∧ u.thread k sl = some x ∧ x.reqs = rest ∧ x.unk = t.unk ∧ u.mem = (s.report (s.env t k 0) true false c 0 a.val).mem))
    -- answers that do not settle
    ∧ stays (.ansWaiting a) { p with clock := s.cycle, waits := true } none
    ∧ (∀ x ∈ [(Instr.ansRetry a, true), (.ansBusy a, false)], stays x.1 { p with clock := s.cycle, tries := p.tries + 1, idle := true, waits := x.2 } (some (s.cycle + 64 * 2 ^ min p.tries 10)))
    ∧ (∃ u : State, exec (.ansFenced a) s = .next u ∧ u.thread k sl = some t ∧ (∀ j m, (j, m) ≠ (k, sl) → u.thread j m = s.thread j m) ∧ u.mem = s.mem ∧ u.agenda = s.agenda ∧ u.outbox = s.outbox)
    -- timers
    ∧ (p.req.dst.module ≠ s.moduleNo →
        (p.idle = false → p.lastSent + 30000 ≤ s.cycle → ∃ u : State, exec (.requestRetransmit tag) s = .next u ∧ u.outbox = s.outbox ++ [reqEvent p.req]
          ∧ (s.cycle + 30000, Instr.requestRetransmit tag) ∈ u.agenda ∧ u.mem = s.mem)
        ∧ (p.idle = true → p.tries ≠ 0 → ∃ u : State, exec (.backoffResend tag) s = .next u ∧ u.outbox = s.outbox ++ [reqEvent { p.req with sent := s.us }]
          ∧ (s.cycle + 30000, Instr.requestRetransmit tag) ∈ u.agenda ∧ u.mem = s.mem))
    ∧ (p.idle = true ∨ s.cycle < p.lastSent + 30000 → exec (.requestRetransmit tag) s = .next s)
    ∧ (p.idle = false ∨ unsent → exec (.backoffResend tag) s = .next s)
    ∧ (t.saving ≠ none ∨ unsent → exec (.requestGiveUp tag) s = .next s)
    ∧ (t.saving = none → ¬ unsent → s.cycle < p.clock + 3000000 → exec (.requestGiveUp tag) s = .next (s.at (p.clock + 3000000) (.requestGiveUp tag)))

/-- R74 to R76, R82, R83: a commit's turn: into the root the written bytes of its cells reach memory, into another ctag its cells' written bytes and masks reach the parent's cells, the ctag is RETIRED and its
cells are gone; a conflict or a full heap changes nothing and leaves it LIVE. A drop frees the cells of its members once their threads are killed; it is in progress until its arrival comes (log 82). The arrival reports the outcome. -/
def Obligations.CanopyEvents : Prop :=
  ∀ (s : State) (t : Nat) (ref : Word) (env : Env), 1 ≤ t → t < 65536 → env.module = s.moduleNo →
    let r := s.ctagRec t
    let mine := fun (c : Cell) => c ∈ s.cells ∧ c.ctag = t
    let arrives := fun (u : State) (e : Option (Cause × Word)) => ∃ (x : Arrival) (n : Nat), (n, Instr.completionArrival x) ∈ u.agenda ∧ x.ref = ref ∧ x.serial = env.serial ∧ x.stream = env.stream ∧ x.fail = e
    let distinct := (s.cells.map (fun c => (c.blk, c.ctag))).Nodup ∧ ∀ c ∈ s.cells, c.data.length = 64
    (r.job = some (some (ref, env)) → distinct →
      (r.parent = 0 → ∃ u : State, exec (.canopyCommit t) s = .next u ∧ (u.ctagRec t).state = .retired ∧ (∀ c, c ∈ u.cells ↔ c ∈ s.cells ∧ c.ctag ≠ t) ∧ arrives u none
        ∧ (∀ c, mine c → ∀ i < 64, readByte u.mem (c.blk * 64 + i) = (if c.wmask.getLsbD i then c.data.getD i 0 else readByte s.mem (c.blk * 64 + i)))
        ∧ (∀ a, (∀ c, mine c → a / 64 ≠ c.blk) → readByte u.mem a = readByte s.mem a) ∧ u.full = s.full)
      ∧ (r.parent ≠ 0 → r.parent ≠ t → (∀ c, mine c → ∃ d ∈ s.cells, d.blk = c.blk ∧ d.ctag = r.parent ∧ (r.chk = true → c.wmask &&& d.cmask = 0)) →
          ∃ u : State, exec (.canopyCommit t) s = .next u ∧ (u.ctagRec t).state = .retired ∧ u.mem = s.mem ∧ arrives u none ∧ (∀ c ∈ u.cells, c.ctag ≠ t)
            ∧ (∀ c d, mine c → d ∈ s.cells → d.blk = c.blk → d.ctag = r.parent → ∃ e ∈ u.cells, e.blk = d.blk ∧ e.ctag = d.ctag ∧ e.wmask = d.wmask ||| c.wmask
                ∧ e.cmask = (if r.chk then d.cmask ||| c.wmask else d.cmask) ∧ ∀ i < 64, e.data.getD i 0 = (if c.wmask.getLsbD i then c.data.getD i 0 else d.data.getD i 0))
            ∧ (∀ d ∈ s.cells, d.ctag ≠ t → (∀ c, mine c → d.blk = c.blk → d.ctag ≠ r.parent) → d ∈ u.cells))
      ∧ (r.parent ≠ 0 → env.sink = 0 → env.errq = 0 → s.plog = 0 → ∀ c, s.cells.filter (fun x => x.ctag == t) = [c] →
          let fails := fun (e : Cause) (v : Word) => ∃ u : State, exec (.canopyCommit t) s = .next u ∧ (r.state = .committing → (u.ctagRec t).state = .live) ∧ u.cells = s.cells ∧ u.mem = s.mem ∧ arrives u (some (e, v))
          (∀ d, d ∈ s.cells → d.blk = c.blk → d.ctag = r.parent → r.chk = true → ∀ i < 64, (c.wmask &&& d.cmask).getLsbD i = true → (∀ j < i, (c.wmask &&& d.cmask).getLsbD j = false) →
            fails .commitConflict (c.va + BitVec.ofNat 64 i))
          ∧ ((∀ d ∈ s.cells, d.blk = c.blk → d.ctag ≠ r.parent) → s.heapFull c.blk = true → fails .canopyFull c.va)))
    ∧ (∀ d, s.drops.find? (fun x => x.root == t && !x.freed) = some d → d.ref = some (ref, env) →
      let hit := fun (x : Thread) => x.kill ≠ none ∧ x.ctag ∈ d.members ∧ (s.ctagRec x.ctag).kill = true
      let killing := (∃ c ∈ s.cores, ∃ x ∈ c.2.threads, hit x.2) ∨ (∃ x ∈ s.saved, hit x.2.thread)
      (killing → exec (.canopyDrop t) s = .next (s.at (s.cycle + 1) (.canopyDrop t)))
      ∧ (¬ killing → ∃ u : State, exec (.canopyDrop t) s = .next u ∧ (∀ c, c ∈ u.cells ↔ c ∈ s.cells ∧ c.ctag ∉ d.members) ∧ u.mem = s.mem ∧ arrives u none
          ∧ { d with freed := true } ∈ u.drops ∧ ∀ x, x.root ≠ t → (x ∈ u.drops ↔ x ∈ s.drops)))

/-- R318 to R322, R327: in a cycle a distributor takes the head of the highest level, in rotation; the block becomes SELECTED and is held while no core of its cell can take it; else it starts in the lowest free slot of the
coolest such core (most ALLOW, then lowest number), RUNNING, with the state of R322; arguments that cannot be read kill it, as does a PCTAG that stopped being LIVE (R312), or an interval ctag that a task has ended (log 107).
R325 to R327, R329, R330, R379 to R381: a private ctag is committed in its order, and D becomes SHA-256(D ‖ TID ‖ h) with h the SHA-256 of the committed cells or 32 bytes FF; a mark writes its record, is RETIRED and leaves
with every block before it; an interval commit that fails is tried again after 2^20 cycles, and children that are still LIVE are dropped first (log 52, 53: a mark completes whatever its PRED, a private commit drops children first); a ctag that was ended before its turn is a failed commit, whoever has its number now; a thief takes its victim's head and counts its attempts, at most one in a cycle, and only while another member has something ready (log 56). -/
def Obligations.DistributorSteps : Prop :=
  (
(∀ (x : Queue) (die a b c k : Nat), k ∈ x.cellCores die a b c ↔ ∃ i < x.ch, ∃ j < x.cw,
      k = die * 16384 + (x.origin / 128 + (b / x.yb + c) % x.pr * x.ch + i) * 128 + (x.origin % 128 + a / x.bx % x.pc * x.cw + j))
  ∧ (∀ (s : State) (die : Nat), s.cycle < (s.dist die).actAt → exec (.distributorSelect die) s = .next s)
  ∧ (∀ (s : State) (die : Nat), (s.dist die).actAt ≤ s.cycle → (s.dist die).held = [] → (∀ q x, s.queue die q = some x → x.head = none) → (∀ p ∈ (s.dist die).queues, s.queue die p.1 = some p.2) →
      ∃ u : State, exec (.distributorSelect die) s = .next u ∧ u.dist die = { s.dist die with actAt := s.cycle + 1 } ∧ (∀ d, d ≠ die → u.dist d = s.dist d) ∧ u.mem = s.mem ∧ u.cores = s.cores)
  ∧ ∀ (s : State) (die q n : Nat) (x : Queue) (b : Block), (s.dist die).actAt ≤ s.cycle → (s.dist die).held = [] → (s.dist die).lastQ.length = 8 → (∀ p ∈ (s.dist die).queues, p.1 < 64 ∧ s.queue die p.1 = some p.2) →
    s.queue die q = some x → x.head = some (n, b) → 0 < x.pc → x.origin % 128 + x.pc * x.cw ≤ 128 →
    let level := fun (c : Block) => min 7 (c.prio + (s.cycle - c.readyAt) / 2 ^ 16)
    let lv := level b
    let after := fun (p : Nat) => (p + 64 - ((s.dist die).lastQ.getD lv 63 + 1) % 64) % 64
    (∀ p y m c, s.queue die p = some y → y.head = some (m, c) → level c ≤ lv ∧ (p ≠ q → level c = lv → after q < after p)) →
    let e := fun (k : Nat) => k ∈ x.cellCores die b.x b.y b.z ∧ (s.core k).sealed = false ∧ (s.core k).failed = false ∧ s.dieUp die = true ∧ 0 < s.allow k ∧ (s.freeSlot k).isSome
      ∧ (((s.core k).threads = [] ∧ (s.core k).swaps = [] ∧ s.tended k = none) ∨ ((s.core k).acount = b.acount ∧ (s.core k).tsize = b.tsize ∧ s.guestOk k x.guest))
    let r := s.retryHeld die
    let s2 := (r.setDist die { r.dist die with lastQ := (r.dist die).lastQ.set lv q }).takeBlock die die q n
    b.status = 1 ∧ x.base ≤ n
    ∧ ((∀ k, ¬ e k) → ∃ (u : State) (b' : Block), exec (.distributorSelect die) s = .next u ∧ u.block die q n = some b' ∧ b'.status = 2 ∧ (∃ h, (u.dist die).held = [h] ∧ h.die = die ∧ h.q = q ∧ h.n = n ∧ h.queue = { x with blocks := [] } ∧ h.map = { x with blocks := [] }) ∧ (u.dist die).actAt = s.cycle + 1
        ∧ (u.dist die).lastQ = (s.dist die).lastQ.set lv q ∧ u.cores = s.cores)
    ∧ (∀ k sl p, e k → (∀ j, e j → s.allow j < s.allow k ∨ (s.allow j = s.allow k ∧ k ≤ j)) → s.freeSlot k = some sl → x.dead = false → (x.replay = true → (s.ctagRec x.pctag).depth < 7 ∧ x.gone = false) →
        (if x.replay then x.interval else some x.pctag) = some p →
        let starts := fun (u : State) (ctag : Nat) (l : List Word) => (u.dist die).held = [] ∧ (∃ b', u.block die q n = some b' ∧ b'.status = 3) ∧ (∀ j, j ≠ k → u.core j = s.core j) ∧ ∃ y, u.thread k sl = some y
          ∧ y.pc = b.entry ∧ y.tid = BitVec.ofNat 64 (b.tidh * 2 ^ 16) ∧ y.cx = b.x ∧ y.cy = b.y ∧ y.cz = b.z ∧ y.cnt = 1 ∧ y.budget = b.budget ∧ y.meetwin = b.mwin * 16
          ∧ y.hbint = (if b.hblog = 0 then 2 ^ 22 else 2 ^ b.hblog) ∧ y.tvec = x.tvec ∧ y.ctag = ctag ∧ y.det = x.det ∧ y.ptbase = b.ptbase ∧ y.sink = b.sink
          ∧ (∀ j < 8, y.rd (BitVec.ofNat 6 (1 + j)) = l.getD j 0) ∧ (∀ g : Reg, g = 0#6 ∨ 9 ≤ g.toNat → y.rd g = 0)
        (b.mode = 0 → ∀ s3 l, s2.readArgs k p b = (s3, .ok l) → l.length = 8 → ∃ u : State, exec (.distributorSelect die) s = .next u ∧ starts u p l)
        ∧ (b.mode = 0 → ∀ s3 c, s2.readArgs k p b = (s3, .error c) → ∃ (u : State) (b' : Block), exec (.distributorSelect die) s = .next u ∧ u.block die q n = some b' ∧ b'.status = 5 ∧ (u.dist die).held = [] ∧ u.thread k sl = none)
        ∧ (b.mode = 1 → s.ctagOk p x.guest = true → (s.ctagRec p).depth < 7 → ∀ t s3 s4 l, s2.allocCtag p x.guest b.kill b.chk = some (t, s3) → s3.readArgs k t b = (s4, .ok l) → l.length = 8 →
            ∃ u : State, exec (.distributorSelect die) s = .next u ∧ starts u t l ∧ (u.ctagRec t).state = .live ∧ (u.ctagRec t).parent = p ∧ (u.ctagRec t).kill = b.kill ∧ (u.ctagRec t).chk = b.chk
              ∧ (u.ctagRec t).depth = (s.ctagRec p).depth + 1))
    ∧ (∀ k, e k → x.dead = true ∨ (x.replay = true ∧ x.gone = true ∧ x.interval ≠ none) → ∃ (u : State) (b' : Block), exec (.distributorSelect die) s = .next u ∧ u.block die q n = some b' ∧ b'.status = 5 ∧ (u.dist die).held = [] ∧ u.cores = s.cores)
  ) ∧ (
(∀ (s : State) (die q n : Nat) (x : Queue) (b : Block), s.queue die q = some x → x.nextCommit = some (n, b) →
    let after := fun (u : State) (h : List Byte) => ∃ y b', u.queue die q = some y ∧ u.block die q n = some b' ∧ b'.awaiting = false ∧ b'.status = b.status
      ∧ y.digest = (if x.det then sha256 (x.digest ++ leBytes 8 (b.tidh * 65536 % 2 ^ 64) ++ h) else x.digest) ∧ y.base = x.base ∧ y.blocks.length = x.blocks.length
    let ff := List.replicate 32 (0xFF : Byte)
    b.awaiting = true ∧ 4 ≤ b.status ∧ (x.det = false → ∀ m c, (m, c) ∈ x.front → c.awaiting = true → c.mark = false → 4 ≤ c.status → b.retiredNo ≤ c.retiredNo) ∧ (x.det = true → ∀ m c, x.base ≤ m → m < n → x.blocks[m - x.base]? = some c → c.mark = false → c.awaiting = false)
    ∧ (b.status ≠ 4 → ∃ u : State, exec (.privateCtagCommit die q) s = .next u ∧ after u ff ∧ u.mem = s.mem ∧ u.ctags = s.ctags ∧ u.cells = s.cells)
    ∧ (∀ t, t ≠ 0 → b.status = 4 → b.ctag = some t → b.sink = 0 → x.errq = 0 → s.plog = 0 →
        (s.ctagState t ≠ .live ∨ b.gone = true → ∃ u : State, exec (.privateCtagCommit die q) s = .next u ∧ after u ff ∧ u.mem = s.mem ∧ u.ctags = s.ctags)
        ∧ (s.ctagState t = .live → b.gone = false → s.liveKids t = [] →
            (∀ s1 l v z, s.commitNow t = (s1, .ok l) → s1.readBlock die b.ptbase b.addr = (z, .ok v) → field v 20 2 % 2 ^ 13 = 0 → ∃ u : State, exec (.privateCtagCommit die q) s = .next u ∧ u.mem = s1.mem ∧ u.cells = s1.cells ∧ (u.ctagRec t).state = .retired
              ∧ after u (sha256 ((l.map (fun c => leBytes 8 c.va.toNat ++ leBytes 8 c.wmask.toNat ++ (List.range 64).map (fun i => if c.wmask.getLsbD i then c.data.getD i 0 else 0))).flatten))
            ∧ (∀ s1 e, s.commitNow t = (s1, .error e) → ∃ u : State, exec (.privateCtagCommit die q) s = .next u ∧ after u ff ∧ u.mem = s1.mem ∧ u.cells = s1.cells
              ∧ (x.det = false → (u.ctagRec t).state = (s1.ctagRec t).state) ∧ (x.det = true → (s1.ctagRec t).state = .live → s1.ctags.find t = some (s1.ctagRec t) → (u.ctagRec t).state = .retired)))))
  ∧ (∀ (s : State) (die q i : Nat) (x : Queue) (b : Block), s.queue die q = some x → x.firstMark = some (i, b) →
    let recorded := fun (s1 : State) => (s1.writeVa die b.ptbase b.args.toNat (leBytes 8 (x.marks + 1) ++ (if x.det then x.digest else List.replicate 32 0) ++ leBytes 8 s.us ++ leBytes 8 i ++ List.replicate 8 0)).blockStatus die q (x.base + i) 4
    let alone := fun (s1 : State) => ∃ v z, (recorded s1).readBlock die b.ptbase b.addr = (z, .ok v) ∧ field v 20 2 % 2 ^ 13 = 0
    let finished := fun (s1 u : State) => ∃ y, u.queue die q = some y ∧ y.base = x.base + i + 1 ∧ y.blocks = x.blocks.drop (i + 1) ∧ y.marks = x.marks + 1 ∧ y.retryAt = none ∧ u.mem = (recorded s1).mem
    let done := ∀ j c, j < i → x.blocks[j]? = some c → 4 ≤ c.status ∧ (c.awaiting = false ∨ c.mark = true)
    let tries := fun (ins : Instr) => (x.replay = false → alone s → ∃ u : State, exec ins s = .next u ∧ finished s u)
      ∧ (∀ t, x.replay = true → x.interval = some t → (x.gone = true ∨ s.ctagState t ≠ .live) → x.errq = 0 → s.plog = 0 → alone s → ∃ u : State, exec ins s = .next u ∧ finished s u)
      ∧ (∀ t, x.replay = true → x.interval = some t → x.gone = false → s.ctagState t = .live → s.liveKids t = [] → x.errq = 0 → s.plog = 0 →
          (∀ s1 l, s.commitNow t = (s1, .ok l) → alone s1 → ∃ u : State, exec ins s = .next u ∧ finished s1 u)
          ∧ (∀ s1 e, s.commitNow t = (s1, .error e) → ∃ (u : State) (y : Queue), exec ins s = .next u ∧ u.queue die q = some y ∧ y.retryAt = some (s.cycle + 2 ^ 20) ∧ y.blocks = x.blocks ∧ y.base = x.base ∧ y.marks = x.marks
            ∧ (s.cycle + 2 ^ 20, Instr.intervalCommitRetry die q) ∈ u.agenda ∧ u.mem = s1.mem))
      ∧ (∀ t, x.replay = true → x.interval = some t → x.gone = false → s.ctagState t = .live → s.liveKids t ≠ [] → ∃ (u : State) (y : Queue), exec ins s = .next u ∧ u.queue die q = some y ∧ y.marks = x.marks ∧ y.blocks = x.blocks
          ∧ y.retryAt = x.retryAt ∧ u.mem = s.mem ∧ (∀ c ∈ s.liveKids t, (u.ctagRec c).state = .retired) ∧ (x.retryAt ≠ none → (s.cycle + 1, Instr.intervalCommitRetry die q) ∈ u.agenda))
    (x.retryAt = none → s.canopyQuiet = true → done → tries (.markComplete die q))
    ∧ (x.retryAt ≠ none ∨ s.canopyQuiet = false ∨ (∃ j c, j < i ∧ x.blocks[j]? = some c ∧ c.status < 4) → exec (.markComplete die q) s = .next s)
    ∧ (x.retryAt = none → exec (.intervalCommitRetry die q) s = .next s)
    ∧ (∀ t, x.retryAt = some t → (s.cycle < t → exec (.intervalCommitRetry die q) s = .next s) ∧ (t ≤ s.cycle → s.canopyQuiet = true → tries (.intervalCommitRetry die q))
      ∧ (t ≤ s.cycle → s.canopyQuiet = false → exec (.intervalCommitRetry die q) s = .next (s.at (s.cycle + 1) (.intervalCommitRetry die q)))))
  ∧ (∀ (s : State) (die q v : Nat) (x : Queue), s.queue die q = some x →
    let g := x.members.length
    let t := (x.members.filter (· < die)).length
    let count := if x.det then (if (x.stealCount + 1) % g = 0 then x.stealCount + 2 else x.stealCount + 1) else x.stealCount
    (s.stealReady die q = false ∨ s.cycle < x.stealAt → exec (.steal die q) s = .next s)
    ∧ ((x.en = false ∨ x.steal = false ∨ x.readyList ≠ [] ∨ 16 ≤ (s.dist die).held.length) → s.stealReady die q = false)
    ∧ (s.stealReady die q = true → x.stealAt ≤ s.cycle → v ≠ die →
        (if x.det then x.members[(t + x.stealCount) % g]? = some v
          else v ∈ x.members ∧ (∀ d ∈ x.members, d ≠ die → (s.readyOn q d).length < (s.readyOn q v).length ∨ ((s.readyOn q d).length = (s.readyOn q v).length ∧ v ≤ d)) ∧ s.readyOn q v ≠ []) →
        (s.readyOn q v = [] → ∃ (u : State) (y : Queue), exec (.steal die q) s = .next u ∧ u.queue die q = some y ∧ y = { x with stealCount := count, stealAt := s.cycle + 1 } ∧ u.mem = s.mem ∧ u.cores = s.cores ∧ (u.dist die).held = (s.dist die).held)
        ∧ (∀ w n b, s.queue v q = some w → w.head = some (n, b) → s.readyOn q v ≠ [] → ∃ (u : State) (y : Queue) (b' : Block), exec (.steal die q) s = .next u ∧ u.queue die q = some y ∧ y.stealCount = count
            ∧ u.block v q n = some b' ∧ (b'.status = 2 ∨ b'.status = 3 ∨ b'.status = 5) ∧ b'.tidh = b.tidh ∧ (b'.status = 2 → ∃ h ∈ (u.dist die).held, h.die = v ∧ h.q = q ∧ h.n = n)))))
  )

/-- R57, R58, R59, R63, R66, R321, R409, R373 to R375, R288, R372, R328: refresh on its grid of 2,925 cycles, during which a channel serves no request; a sample sets every channel's reading and rate, every market's allowance, and trips at 105 °C; a walk is cached and changes nothing
else; a residue mismatch is masked or contains its core; a scrub corrects and counts; a fenced core is sealed and loses its threads and its commands, its supervisor is told, and at the end of its containment its receipts are gone and it is unsealed unless it failed its march test; a partition is reset when a killed thread holds its slot for 2^20 cycles, which kills, empties or replays. What a march test leaves is the
model's free value (log 8, 60); a core's tasks are requeued at once and its supervisor told by a C0 message (log 60), and the extent of a partition is log 63's. -/
def Obligations.MachineEvents : Prop :=
  (∀ (s : State) (p : Nat), ∃ u : State, exec (.refreshStart p) s = .next u ∧ ((p + 1) * 2925, Instr.refreshStart (p + 1)) ∈ u.agenda ∧ u.mem = s.mem ∧ u.cores = s.cores ∧ u.chans = s.chans
      ∧ ((p % 2 = 0 ∨ ∃ c ∈ s.chans, c.2.dbl = true) → u.refresh = some p ∧ (s.cycle + 420, Instr.refreshEnd) ∈ u.agenda)
      ∧ (¬ (p % 2 = 0 ∨ ∃ c ∈ s.chans, c.2.dbl = true) → u.refresh = s.refresh ∧ u.refreshed = s.refreshed)
      ∧ (p % 2 = 1 → ∀ n, (∃ c ∈ s.chans, c.2.dbl = true) → (n ∈ u.refreshed ↔ ∃ c ∈ s.chans, c.1 = n ∧ c.2.dbl = true)))
  ∧ (∀ s : State, ∃ u : State, exec .refreshEnd s = .next u ∧ u.refresh = none ∧ u.queued = [] ∧ u.agenda = s.queued.map (fun i => (s.cycle, i)) ++ s.agenda ∧ u.mem = s.mem ∧ u.cores = s.cores)
  ∧ (∀ (s : State) (p n : Nat) (i : Instr) (m : Request) (l : List (Nat × Instr)), messageOf i = some m → s.agenda = (n, i) :: l → s.cycle ≤ n →
      ((m.dst.kind = 1 ∧ s.refresh = some p ∧ (p % 2 = 0 ∨ m.dst.die * 64 + m.dst.index ∈ s.refreshed) ∧ n < p * 2925 + 420) ∨ (∃ j ∈ s.queued, ∃ q, messageOf j = some q ∧ q.dst = m.dst)) →
      ∃ u : State, s.event n = .next u ∧ u.queued = s.queued ++ [i] ∧ u.agenda = l ∧ u.mem = s.mem ∧ u.full = s.full ∧ u.cycle = n)
  ∧ (∀ s : State, (∀ p ∈ s.chans, s.chans.find p.1 = some p.2) → ∃ u : State, exec .tempSample s = .next u ∧ (s.plog = 0 → u.mem = s.mem) ∧ (∀ d ∈ u.dists, s.cycle < d.2.actAt ∧ ∀ q ∈ d.2.queues, s.cycle < q.2.stealAt)
      ∧ (∀ d ch c, s.chans.find (d * 64 + ch) = some c → (u.chan d ch).temp = min c.sensor 255 ∧ (u.chan d ch).dbl = (if 85 < c.sensor then true else if c.sensor ≤ 82 then false else c.dbl))
      ∧ (∀ k, let top := fun (n : Nat) => (∃ l < 4, (u.chan (dieOf k) (16 * l + regionOf k)).temp = n) ∧ ∀ l < 4, (u.chan (dieOf k) (16 * l + regionOf k)).temp ≤ n
          (∀ n, top n → (95 ≤ n → u.allow k = 0)
            ∧ (n < 95 → (∃ l < 4, (u.chan (dieOf k) (16 * l + regionOf k)).dbl = true) → u.allow k = min 255 (10 * (95 - n)) - 32)
            ∧ (n < 95 → (∀ l < 4, (u.chan (dieOf k) (16 * l + regionOf k)).dbl = false) → u.allow k = min 255 (10 * (95 - n)))))
      ∧ ((∃ c ∈ s.chans, 105 ≤ c.2.sensor) → u.power = .tripped ∧ (∀ c ∈ u.cores, c.2.sealed = true) ∧ (∀ b ∈ u.boot, b.done = false ∧ b.fail = 5) ∧ ∀ k sl, u.thread k sl = s.thread k sl)
      ∧ ((∀ c ∈ s.chans, c.2.sensor < 105) → u.power = s.power ∧ u.cores = s.cores ∧ (s.cycle + 150000, Instr.tempSample) ∈ u.agenda))
  ∧ (∀ (s : State) (k : Nat) (pt va : Word), ∃ u : State, exec (.pageWalk k pt va) s = .next u ∧ (s.eccOne = [] → s.eccBad = [] → u = { s with tlb := u.tlb }) ∧ u.mem = s.mem ∧ u.cores = s.cores ∧ (∀ e ∈ s.tlb, e ∈ u.tlb)
      ∧ (∀ e sh, s.walk va.toNat [0, 1, 2, 3] (s.root pt) = .ok (e, sh) → ∃ x ∈ u.tlb, x.die = dieOf k ∧ x.pte = e ∧ x.shift = sh ∧ x.va = va.toNat / 2 ^ sh)
      ∧ (∀ e, s.walk va.toNat [0, 1, 2, 3] (s.root pt) = .error e → u.tlb = s.tlb))
  ∧ (∀ (s : State) (k u : Nat) (again : Bool), (s.relctl.getLsbD 1 = false → exec (.residueMismatch k u again) s = .next s)
      ∧ (s.relctl.getLsbD 1 = true → again = false → s.plog = 0 → ∃ t : State, exec (.residueMismatch k u again) s = .next t ∧ t.mem = s.mem ∧ t.cores = s.cores))
  ∧ (∀ (s : State) (die ch : Nat), (s.relctl.getLsbD 0 = false → exec (.scrubPass die ch) s = .next s)
      ∧ (s.relctl.getLsbD 0 = true → s.plog = 0 → ∃ u : State, exec (.scrubPass die ch) s = .next u ∧ u.mem = s.mem ∧ u.eccBad = s.eccBad
          ∧ (let mine := fun (w : Nat) => 8 * w < 2 ^ 44 ∧ 8 * w / 2 ^ 40 = die ∧ isDram (8 * w) = true ∧ channelOf (8 * w) = ch
             (∀ w, w ∈ u.eccOne ↔ w ∈ s.eccOne ∧ ¬ mine w) ∧ ((∀ w ∈ s.eccOne, ¬ mine w) → u.eccCorr = min (2 ^ 32 - 1) s.eccCorr))))
  ∧ (∀ (s : State) (k : Nat) (cause : Cause) (i : Instr), s.plog = 0 → (s.core k).mq = [] → (s.core k).redbuf = [] → (s.core k).holder = none →
      (i = .coreFence k ∧ (∃ p ∈ (s.core k).threads, p.2.fences = true) ∧ (s.core k).fenceFrom + 2 ^ 24 ≤ s.cycle) ∨ i = .coreContainment k cause ∨ (i = .residueMismatch k 0 true ∧ s.relctl.getLsbD 1 = true) →
      let lost := fun (u : State) => (∀ sl, u.thread k sl = none) ∧ (u.core k).sealed = true ∧ (u.core k).failed = (s.core k).failed ∧ s.cycle < (u.core k).back ∧ (supervisorOf k, k) ∈ u.told ∧ (∀ j, j ≠ k → u.core j = s.core j)
        ∧ (u.core k).meet = [] ∧ (u.core k).waiters = [] ∧ (u.core k).swaps = (s.core k).swaps ∧ ((s.core k).swaps ≠ [] → (u.core k).acount = (s.core k).acount ∧ (u.core k).tsize = (s.core k).tsize)
      ((s.core k).threads = [] → ∃ u : State, exec i s = .next u ∧ lost u ∧ u.mem = s.mem)
      ∧ (∀ sl t die q n b, (s.core k).threads = [(sl, t)] → t.resumes = false → t.queue = some (die, q) → t.blk = some n → t.ownCtag = none → t.unk = [] → s.block die q n = some b →
          ∃ (u : State) (b' : Block), exec i s = .next u ∧ lost u ∧ u.block die q n = some b' ∧ b'.status = 1 ∧ b'.readyAt = s.cycle ∧ b'.entry = b.entry ∧ (∀ x, s.queue die q = some x → b'.readyNo = x.readies)))
  ∧ (∀ (s : State) (k : Nat), (s.core k).sealed = true → (s.core k).failed = false → ∃ u : State, exec (.ownerRestart (.core k)) s = .next u ∧ (u.core k).sealed = (u.core k).failed ∧ (u.core k).failed = ((u.repair.find k).map Repair.bad).getD false
      ∧ (∀ b, u.boot[dieOf k]? = some b → b.fenced = (u.repair.filter (fun x => dieOf x.1 == dieOf k && x.2.bad)).length ∧ b.repaired = (u.repair.filter (fun x => dieOf x.1 == dieOf k && !x.2.bad)).length) ∧ (∀ j, j ≠ k → u.core j = s.core j)
      ∧ (u.owner (.core k)).receipts = [] ∧ (u.owner (.core k)).floors = [] ∧ (u.owner (.core k)).restart = s.us ∧ (∀ w ∈ wordsOf (localKey k 0) 98304, w ∉ u.eccOne ∧ w ∉ u.eccBad)
      ∧ ∀ a, (a < localKey k 0 ∨ localKey k 0 + 98304 ≤ a) → readByte u.mem a = readByte s.mem a)
  ∧ (∀ (s : State) (k : Nat), ((∀ p ∈ (s.core k).threads, p.2.fences = false) ∨ s.cycle < (s.core k).fenceFrom + 2 ^ 24) → exec (.coreFence k) s = .next s)
  ∧ (∀ (s : State) (k sl : Nat) (t : Thread) (e : Cause × Word × Nat), s.thread k sl = some t → t.kill = some e → ∃ x, s.stuckKill = some x ∧ x.1 ≤ e.2.2 + 2 ^ 20)
  ∧ (∀ (s : State) (d g : Nat), ∃ u : State, exec (.partitionReset d g) s = .next u ∧ (∀ k ∈ s.partition g, (u.core k).threads = [] ∧ (u.core k).swaps = [])
      ∧ (∀ die q x, s.guestQueues g = [(die, q)] → s.queue die q = some x →
          (x.replay = false → ∃ y, u.queue die q = some y ∧ y.blocks = [] ∧ y.base = x.base + x.blocks.length ∧ y.digest = x.markDigest)
          ∧ (x.replay = true → ∃ y, u.queue die q = some y ∧ y.blocks.length = x.blocks.length ∧ y.base = x.base ∧ y.digest = x.markDigest ∧ y.retryAt = none
              ∧ ∀ (i : Nat) (b c : Block), x.blocks[i]? = some b → y.blocks[i]? = some c → c.status = (if b.pred = 0 then 1 else 0) ∧ c.readyAt = s.cycle ∧ c.pred = b.pred ∧ c.addr = b.addr ∧ c.ptbase = b.ptbase ∧ c.ctag = none ∧ c.gone = false)))

/-- R399 to R403, R407, R409: an access through a host window is answered PERMISSION beyond the window, without its right or at an unmapped byte, else it reads or writes home bytes; an access to another module leaves as requests of the host interface (log 28); HROOT launches one block,
which stands in DRAM of its queue's die; HMGMT reads the status words and the sensors, starts the module, or sets the event push, and answers REMOTE_ARG to any other code; the valid image of the higher version boots; a start, and the removal of power, leave memory and local stores zero,
every receipt cache empty and no thread, and keep flash, training and the repair table. Which guests a port serves, and where firmware keeps a block, are the model's free values (log 28); that a start is a run of steps, what fails in them, and that a warm start without power or after a trip is cold, are log 64's.
R403 to R407, R409: the steps of a start, each with its end: power, firmware, DRAM, bridges and Ethernet, the march tests of a cold start, the status words. A failing step writes its code on its die, which has then stopped; a port die without an image reads NOIMAGE, and with no image at all nothing starts;
a warm start keeps a training within 10 °C; a die that has finished reads DONE. A start of which no die is left has failed: two warm ones force a cold one, three cold ones leave the module halted. A sensor at 105 °C trips it. What fails is free (log 64). -/
def Obligations.HostRequestsAndStarts : Prop :=
  (
(∀ (s : State) (p addr len : Nat) (wr : Bool),
      let w := (s.hostWin.getD p [])[addr / 2 ^ 60]?
      (w = none → s.hostRange p addr len wr = none)
      ∧ (∀ x, w = some x → (x.npages * 65536 < addr % 2 ^ 60 + len ∨ (if wr then x.wr else x.rd) = false) → s.hostRange p addr len wr = none)
      ∧ (∀ a, s.hostRange p addr len wr = some a → ∃ x, w = some x ∧ a = x.base * 65536 + addr % 2 ^ 60 ∧ addr % 2 ^ 60 + len ≤ x.npages * 65536 ∧ a + len ≤ 2 ^ 64 ∧ (if wr then x.wr else x.rd) = true))
  ∧ (∀ (s : State) (m : Request), m.typ = .hwread → m.serialed = false →
      let len := (m.words.headD 0).toNat
      let ends := fun (a : Instr) => ∃ u : State, exec (.reqHwread m) s = .next u ∧ Answered s u m a ∧ u.mem = s.mem ∧ u.cores = s.cores
      (s.power ≠ .running ∨ s.sealedFor m = true → ends (.ansFenced ⟨m, [], 0⟩))
      ∧ (s.power = .running → s.sealedFor m = false → s.parkedHere m = false →
        (s.hostRange m.dst.die m.addr len false = none → ends (.ansError .permission ⟨m, [], BitVec.ofNat 64 m.addr⟩))
        ∧ (∀ a, s.hostRange m.dst.die m.addr len false = some a → moduleOf a = s.moduleNo →
          (s.storeSealed a = true → ends (.ansFenced ⟨m, [], 0⟩))
          ∧ (s.storeSealed a = false → (∀ w ∈ wordsOf (a % 2 ^ 44) len, w ∉ s.eccBad) → ends (.ansDone ⟨m, packWords (readBytes s.mem (a % 2 ^ 44) len), 0⟩)))
        ∧ (∀ a, s.hostRange m.dst.die m.addr len false = some a → 0 < len → len ≤ 1024 → a % 1024 + len ≤ 1024 → moduleOf a ≠ s.moduleNo → (ownerOf a).module ≠ s.moduleNo →
          ∃ (u : State) (q : Request), exec (.reqHwread m) s = .next u ∧ u.outbox = s.outbox ++ [.reqRead q] ∧ q.dst = ownerOf a ∧ q.va = BitVec.ofNat 64 a ∧ q.serialed = false ∧ nth q.words 0 = BitVec.ofNat 64 len
            ∧ u.hosted = s.hosted ++ [⟨m, [(q.tag, 0, len)], List.replicate len 0, none⟩] ∧ u.mem = s.mem ∧ u.cores = s.cores)))
  ∧ (∀ (s : State) (m : Request) (s1 : State), s.power = .running → Admits s m s1 →
      let ends := fun (i a : Instr) (p : State → Prop) => ∃ u : State, exec i s = .next u ∧ Answered s u m a ∧ p u
      (m.typ = .hwwrite →
        (s.hostRange m.dst.die m.addr m.bytes.length true = none → ends (.reqHwwrite m) (.ansError .permission ⟨m, [], BitVec.ofNat 64 m.addr⟩) (fun u => u.mem = s.mem))
        ∧ (∀ a, s.hostRange m.dst.die m.addr m.bytes.length true = some a → moduleOf a = s.moduleNo → s.storeSealed a = false →
            ends (.reqHwwrite m) (.ansDone ⟨m, [], 0⟩) (fun u => u.mem = writeBytes s.mem (a % 2 ^ 44) m.bytes ∧ u.cells = s.cells ∧ u.cores = s.cores)))
      ∧ (m.typ = .hroot →
        let die := m.addr / 64 % 16
        let q := m.addr % 64
        let va := Config.freeValue s.freeCtr &&& 0x000FFFFFFFFFFFC0#64
        (2 ^ 10 ≤ m.addr → ends (.reqHroot m) (.ansError .taskArg ⟨m, [], BitVec.ofNat 64 m.addr⟩) (fun u => u.mem = s.mem ∧ u.dists = s.dists))
        ∧ (m.addr < 2 ^ 10 → (s.queue die q = none ∨ ∃ x, s.queue die q = some x ∧ Config.hostGuest m.dst.die x.guest = false) →
            ends (.reqHroot m) (.ansError .permission ⟨m, [], BitVec.ofNat 64 m.addr⟩) (fun u => u.mem = s.mem ∧ u.dists = s.dists))
        ∧ (m.addr < 2 ^ 10 → ∀ x, s.queue die q = some x → Config.hostGuest m.dst.die x.guest = true →
            let pt := ((Config.firmwareSpace s.freeCtr &&& ~~~0xFF#64) ||| BitVec.ofNat 64 x.guest) &&& 0xFFFFF0FFFFFFF0FF#64
            let l := m.bytes.take 64
            let s2 := s1.useFree.writeMem (die * 2 ^ 40 + (Config.firmwareArea s.freeCtr).toNat % (0x1800000000 / 64) * 64) l
            let answers := fun (w : Word) (y : State) => ends (.reqHroot m) (.ansDone ⟨m, [w], 0⟩) (fun u => u.dists = y.dists ∧ u.mem = y.mem)
            (s.dieUp die = false → ends (.reqHroot m) (.ansFenced ⟨m, [], 0⟩) (fun u => u.mem = s.mem ∧ u.dists = s.dists))
            ∧ (s.dieUp die = true → (x.en = false ∨ x.ringN ≤ x.blocks.length) → answers 0 s2)
            ∧ (s.dieUp die = true → x.en = true → x.blocks.length < x.ringN →
                (∀ b, parseBlock x va pt l = some b → answers 1 (s2.appendBlock die q x b))
                ∧ (parseBlock x va pt l = none → badView l = false → answers (BitVec.ofNat 64 (2 ^ 63)) s2))))
      ∧ (m.f = 0 → ends (.hmgmtReadStatus m) (.ansDone ⟨m, s.boot.map Boot.word ++ s.portStatus, 0⟩) (fun u => u.mem = s.mem))
      ∧ (m.f = 1 → ends (.hmgmtReadSensors m) (.ansDone ⟨m, packWords ((List.range 16).flatMap (fun d => (List.range 64).map (fun c => BitVec.ofNat 8 (s.chan d c).temp))), 0⟩) (fun u => u.mem = s.mem))
      ∧ (m.f = 2 → ends (.hmgmtWarmStart m) (.ansDone ⟨m, [], 0⟩) (fun u => s.cycle < s.startTime m ∧ (s.startTime m, Instr.warmStart) ∈ u.agenda ∧ u.mem = s.mem))
      ∧ (m.f = 3 → ends (.hmgmtColdStart m) (.ansDone ⟨m, [], 0⟩) (fun u => s.cycle < s.startTime m ∧ (s.startTime m, Instr.coldStart) ∈ u.agenda ∧ u.mem = s.mem))
      ∧ (m.f = 4 → ends (.hmgmtSetEventPush m) (.ansDone ⟨m, [], 0⟩) (fun u => u.eventPush = s.eventPush.set m.dst.die (m.bytes.headD 0 == 1) ∧ u.mem = s.mem))
      ∧ (∀ i ∈ [Instr.hmgmtReadStatus m, .hmgmtReadSensors m, .hmgmtWarmStart m, .hmgmtColdStart m, .hmgmtSetEventPush m], 4 < m.f →
          ends i (.ansError .remoteArg ⟨m, [], BitVec.ofNat 64 m.f⟩) (fun u => u.mem = s.mem ∧ u.eventPush = s.eventPush)))
  ∧ (∀ (f : Flash) (a b : Nat), (f.version 0 = some a → f.version (f.size / 2) = some b → f.choice = some (if a < b then 1 else 0))
      ∧ (f.version 0 = some a → f.version (f.size / 2) = none → f.choice = some 0) ∧ (f.version 0 = none → f.version (f.size / 2) = some b → f.choice = some 1)
      ∧ (f.version 0 = none → f.version (f.size / 2) = none → f.choice = none))
  ∧ (∀ s : State,
      let bare := fun (u : State) => u.mem = [] ∧ u.full = [] ∧ u.ctags = [] ∧ u.cells = [] ∧ u.owners = [] ∧ u.started = s.us ∧ u.dists = [] ∧ u.saved = [] ∧ u.tlb = [] ∧ (∀ k sl, u.thread k sl = none)
        ∧ u.moduleNo = s.moduleNo ∧ u.flash = s.flash ∧ u.train = s.train ∧ u.repair = s.repair ∧ u.boot.length = 16 ∧ (∀ b ∈ u.boot, b.done = false ∧ b.fail = 0) ∧ u.us = s.us
        ∧ (∀ e ∈ s.agenda, ∀ q, hostReq e.2 = some q → (e.1 - s.cycle, e.2) ∈ u.agenda)
      let begins := fun (i : Instr) (warm : Bool) (cold warms : Nat) => ∃ u : State, exec i s = .next u ∧ bare u ∧ u.power = .starting warm (if warm then 2 else 1) (1500 + s.delay) ∧ u.coldFails = cold ∧ u.warmFails = warms
      (s.power ≠ .halted → begins .coldStart false s.coldFails 0)
      ∧ (s.power = .tripped ∨ s.power = .off → begins .warmStart false s.coldFails 0)
      ∧ (s.power ≠ .tripped → s.power ≠ .off → s.power ≠ .halted → begins .warmStart true 0 s.warmFails)
      ∧ (s.power = .halted → exec .coldStart s = .next s ∧ exec .warmStart s = .next s)
      ∧ ∃ u : State, exec .powerRemoval s = .next u ∧ bare u ∧ u.power = .off ∧ u.coldFails = 0 ∧ u.warmFails = 0)
  ) ∧ (
∀ (s : State) (warm : Bool) (n till m : Nat), s.power = .starting warm n till → s.idleDue = some (m, .stage warm n) →
    let cool := ∀ c ∈ s.chans, c.2.sensor < 105
    let goes := fun (next : Nat) (p : State → Prop) => ∃ u : State, step s = .next u ∧ p u ∧ (∃ d, u.power = .starting warm next d ∧ m + 1500 ≤ d) ∧ u.mem = s.mem ∧ u.cores = s.cores ∧ u.cycle = m
    let dies := fun (u : State) (code : Nat) (bad : Nat → Boot → Bool) => ∀ (i : Nat) (b : Boot), s.boot[i]? = some b → ∃ c, u.boot[i]? = some c ∧ c.done = b.done ∧ c.fail = (if b.fail = 0 ∧ bad i c = true then code else b.fail)
    ((∃ c ∈ s.chans, 105 ≤ c.2.sensor) → ∃ u : State, step s = .next u ∧ u.power = .tripped ∧ ∀ b ∈ u.boot, b.done = false ∧ b.fail = 5)
    ∧ (cool → n = 1 → goes 2 (fun u => ∃ bad : Nat → Bool, dies u 2 (fun d _ => bad d)))
    ∧ (cool → n = 2 → goes 3 (fun u => u.portStatus = s.flash.map (fun x => if x.choice.isNone then 1 else 0) ∧ dies u 1 (fun _ _ => s.flash.all (fun x => x.choice.isNone))))
    ∧ (cool → n = 3 → goes 4 (fun u => dies u 3 (fun _ b => b.dram != 15)
        ∧ ∀ (d l : Nat) (b c : Boot), d < 16 → l < 4 → s.boot[d]? = some b → b.fail = 0 → u.boot[d]? = some c →
            let now := s.layerTemp d l
            (c.dram.testBit l = true ↔ (u.train.find (4 * d + l)).isSome)
            ∧ (∀ old, warm = true → s.train.find (4 * d + l) = some old → now ≤ old + 10 → old ≤ now + 10 → u.train.find (4 * d + l) = some old)
            ∧ ((warm = false ∨ ∀ old, s.train.find (4 * d + l) = some old → old + 10 < now ∨ now + 10 < old) → u.train.find (4 * d + l) = some now ∨ u.train.find (4 * d + l) = none)))
    ∧ (cool → n = 4 → goes (if warm then 7 else 5) (fun u => dies u 4 (fun d b => b.bridge != (Boot.started false d).bridge) ∧ u.portStatus.length = s.portStatus.length))
    ∧ (cool → n = 5 → goes 7 (fun u => u.boot = s.boot ∧ ∀ k, (u.repair.find k).isSome = true → dieOf k < 16 ∧ indexOf k < 10240))
    ∧ (cool → n = 7 → (∃ b ∈ s.boot, b.fail = 0) → ∃ u : State, step s = .next u ∧ u.power = .running ∧ u.mem = [] ∧ u.full = [] ∧ u.owners = [] ∧ u.dists = [] ∧ u.started = s.started ∧ u.portStatus = s.portStatus ∧ u.coldFails = 0 ∧ u.warmFails = 0
        ∧ (∀ k sl, u.thread k sl = none) ∧ (∀ k, (∃ r, (k, r) ∈ s.repair ∧ r.bad = true) → (u.core k).sealed = true ∧ (u.core k).failed = true)
        ∧ (2925, Instr.refreshStart 1) ∈ u.agenda ∧ (150000, Instr.tempSample) ∈ u.agenda
        ∧ ∀ (i : Nat) (b : Boot), s.boot[i]? = some b → ∃ c, u.boot[i]? = some c ∧ (b.fail ≠ 0 → c = b)
            ∧ (b.fail = 0 → c.done = true ∧ c.warm = warm ∧ c.fail = 0 ∧ c.dram = b.dram ∧ c.bridge = b.bridge
              ∧ c.fenced = (s.repair.filter (fun x => dieOf x.1 == i && x.2.bad)).length ∧ c.repaired = (s.repair.filter (fun x => dieOf x.1 == i && !x.2.bad)).length))
    ∧ (cool → n = 7 → (∀ b ∈ s.boot, b.fail ≠ 0) →
        let again := fun (w : Bool) (cold warms : Nat) => ∃ (u : State) (d : Nat), step s = .next u ∧ u.power = .starting w (if w then 2 else 1) d ∧ u.coldFails = cold ∧ u.warmFails = warms ∧ u.mem = []
        (warm = true → s.warmFails + 1 < 2 → again true 0 (s.warmFails + 1)) ∧ (warm = true → 2 ≤ s.warmFails + 1 → again false 0 0)
        ∧ (warm = false → s.coldFails + 1 < 3 → again false (s.coldFails + 1) 0)
        ∧ (warm = false → 3 ≤ s.coldFails + 1 → ∃ u : State, step s = .next u ∧ u.power = .halted ∧ u.coldFails = 3))
  )

/-- R121, R76 to R80, R264, R318, R404, R57: reset: memory and the local stores read zero and their bits are empty, no thread stands in a slot, every ctag but 0 is FREE, no cell, receipt or held block is left, lastQ is 63, the boot words read DONE,
and memory has its canonical form. Values that the spec does not state (log 6) are left out. -/
def Obligations.ResetState : Prop :=
  let s := State.reset
  s.MemInv ∧ (∀ a, readByte s.mem a = 0) ∧ (∀ g, s.fe g = false) ∧ (∀ k sl, s.thread k sl = none) ∧ (∀ k, (s.core k).sealed = false ∧ (s.core k).meet = [] ∧ (s.core k).waiters = [] ∧ (s.core k).swaps = [])
  ∧ (∀ t, t ≠ 0 → s.ctagState t = .free) ∧ s.ctagState 0 = .live ∧ s.cells = [] ∧ (∀ o, (s.owner o).receipts = [] ∧ (s.owner o).floors = []) ∧ s.power = .running
  ∧ (∀ d, (s.dist d).held = [] ∧ (∀ q, s.queue d q = none) ∧ ∀ l < 8, (s.dist d).lastQ[l]? = some 63) ∧ (∀ b ∈ s.boot, b.done = true ∧ b.warm = false ∧ b.fail = 0) ∧ s.cycle = 0
  ∧ (2925, Instr.refreshStart 1) ∈ s.agenda ∧ (150000, Instr.tempSample) ∈ s.agenda

/-- R18 to R22, R42, R43: words of every group, written out from the formats, denote the instructions they stand for; the all-zero word, a reserved major, a must-be-zero field and a guarded SEL denote none. -/
def Obligations.DecodedWords : Prop :=
  let c : Ctl := ⟨false, false, 0#3⟩
  decode 0x04028C39#32 = .ok (.sub c 5#6 6#6 7#6) ∧ decode 0x06C28C39#32 = .ok (.sub ⟨true, false, 6#3⟩ 5#6 6#6 7#6) ∧ decode 0x1004FE00#32 = .ok (.cmp c 0#3 9#6 63#6 0#6)
  ∧ decode 0xC404082D#32 = .ok (.ldx c 8#6 4#6 5#6) ∧ decode 0xA8028815#32 = .ok (.ldsC c 1#2 5#6 4#6 2#6) ∧ decode 0xAC038809#32 = .ok (.sts c 1#2 7#6 4#6 1#6)
  ∧ decode 0xC4028830#32 = .ok (.ctalloc c 5#6 4#6 6#6) ∧ decode 0xC4000A52#32 = .ok (.ctcommit c 5#6 10#6) ∧ decode 0xE802800A#32 = .ok (.csrr c 5#6 1#12) ∧ decode 0xE8030083#32 = .ok (.csrw c 6#6 16#12)
  ∧ decode 0xE8000028#32 = .ok (.trap c 5#6) ∧ decode 0xE8000001#32 = .ok (.rft c) ∧ decode 0xDC000010#32 = .ok (.brl c 16#21) ∧ decode 0xE0007E00#32 = .ok (.jr c 63#6) ∧ decode 0xE0000002#32 = .ok (.tend c)
  ∧ decode 0xD0032028#32 = .ok (.coll c 6#6 16#6) ∧ decode 0xD403B018#32 = .ok (.xtab c 7#6 24#6) ∧ decode 0xCC002023#32 = .ok (.mma c 16#6) ∧ decode 0xE402A030#32 = .ok (.spawn c 5#6 16#6 6#6)
  ∧ decode 0xE402A011#32 = .ok (.meet c 5#6 16#6) ∧ decode 0x3C050812#32 = .ok (.gaddr c 10#6 4#6 2#3)
  ∧ decode 0#32 = .error .reservedMajor ∧ decode 0x70000000#32 = .error .reservedMajor ∧ decode 0xE8000009#32 = .error .mustBeZero ∧ decode 0x16000004#32 = .error .field ∧ decodeTableWord 32 0x04028C39 = some (.sub c 5#6 6#6 7#6)

/-- Decoding the encoding of a well-formed word gives it back, with every operand at every value its field admits. -/
def Obligations.EncodeDecode : Prop :=
  ∀ i : Instr, i.isWord = true → i.wf = true → decode (encode i) = .ok i

/-- R43: no bit pattern has a meaning beside its encoding: a word that decodes is well formed and is the encoding of what it denotes; so is one that stands in memory in four bytes (R4, R19). -/
def Obligations.WordsHaveOneMeaning : Prop :=
  (∀ (w : BitVec 32) (i : Instr), decode w = .ok i → i.isWord = true ∧ i.wf = true ∧ encode i = w)
  ∧ (∀ (b0 b1 b2 b3 : Byte) (l : List Byte) (i : Instr), decode (b3 ++ b2 ++ b1 ++ b0) = .ok i → decodeBytes (b0 :: b1 :: b2 :: b3 :: l) = .ok (i, l))

/-- R200, R284, R286, R43, R120, R296: when a word's turn comes, with nothing due before it, the step fetches the four bytes at the PC; a word that acts at its issue makes the step exec of the instruction they denote, and one that acts later
leaves its thread acting (a MEET where no other of its core acts in that cycle, R307), or acts in the same step where nothing comes before; when its cycle comes the step is exec of that instruction. Bytes that denote none, and a fetch that fails, take the step of that trap; a budget that has run out is taken
as its own step. The state before it is the one in which core and slot are chosen, the cycle is that of the issue and the frame's single-bit errors are corrected and counted (R374, in this step by log 89). Beside exec, a step only starts the fence counts of cores again (R288). -/
def Obligations.StepRunsDecodedInstruction : Prop :=
  (∀ (s : State) (k sl n : Nat) (t : Thread), s.power = .running → s.now = none → s.due = some (n, .issue k sl) → s.thread k sl = some t →
    let c := s.select k sl n
    let s0 := c.fixFrame k sl
    let t0 : Thread := { t with done := false, eccOne := 0 }
    s0.cycle = n ∧ s0.cur = (k, sl) ∧ s0.mem = s.mem ∧ s0.thread k sl = some t0 ∧ (s0.core k).last = sl ∧ (s0.core k).freeAt = n + 1 ∧ s0.eccCorr = (if t.eccOne = 0 then s.eccCorr else min (2 ^ 32 - 1) (s.eccCorr + t.eccOne))
    ∧ (∀ s1 w i, s0.fetch k t0 = (s1, .ok w) → decode w = .ok i →
        (Instr.lag s1 i = 0 → step s = noted c (exec i s1))
        ∧ (∀ m, Instr.lag s1 i = m + 1 → (isMeet w = false ∨ ∀ p ∈ s1.threads k, p.1 ≠ sl → ∀ c x, p.2.status = .acting c x → isMeet x = true → c ≠ n + m + 1) → let s2 := s1.put { t0.begin n 0 with status := .acting (n + m + 1) w }
            (s2.now = none → s2.due = some (n + m + 1, .perform k sl) → step s = noted s2 (exec i { s2.advance (n + m + 1) with cur := (k, sl) }))
            ∧ (s2.now ≠ none ∨ s2.due ≠ some (n + m + 1, .perform k sl) → step s = .next s2)))
    ∧ (∀ s1 w e, s0.fetch k t0 = (s1, .ok w) → decode w = .error e → step s = noted c (exec (.illegalWord w) s1))
    ∧ (∀ s1 e, s0.fetch k t0 = (s1, .error e) → step s = noted c (exec (.fetchFault e) s1))
    -- what is fetched
    ∧ (∀ x, t.pc.toNat + 4 ≤ 2 ^ 52 → isLocal t.pc = false → s0.seg (dieOf k) t.ptbase ⟨false, false, true, false⟩ t.pc 4 = .ok x → moduleOf x.pa = s.moduleNo →
        (∀ w ∈ wordsOf (x.pa % 2 ^ 44) 4, w ∉ s.eccBad) →
        ∃ s1, s0.fetch k t0 = (s1, .ok (BitVec.ofNat 32 (leNat (readBytes s.mem (x.pa % 2 ^ 44) 4)))) ∧ s1.mem = s.mem ∧ s1.cores = s0.cores ∧ s1.cycle = n ∧ s1.cur = (k, sl)
          ∧ (s.eccOne = [] → s.eccBad = [] → s1 = { s0 with tlb := s1.tlb })))
  ∧ (∀ (s : State) (k sl n m : Nat) (t : Thread) (w : BitVec 32) (i : Instr), s.power = .running → s.now = none → s.due = some (n, .perform k sl) → s.thread k sl = some t → t.status = .acting m w → decode w = .ok i →
      step s = noted s (exec i { s.advance n with cur := (k, sl) }))
  ∧ (∀ (s : State) (k sl n : Nat), s.power = .running → s.now = none → s.due = some (n, .budget k sl) → step s = exec (.budgetExpiry k sl) (s.advance n))
  ∧ (∀ (s : State) (k n : Nat), s.power = .running → s.now = none → s.due = some (n, .restart k) → step s = exec (.ownerRestart (.core k)) (s.advance n))
  ∧ (∀ (s : State) (d g n : Nat), s.power = .running → s.now = none → s.due = some (n, .reset d g) → step s = exec (.partitionReset d g) (s.advance n))
  ∧ (∀ a u : State, ∃ v : State, noted a (.next u) = .next v ∧ v = { u with cores := v.cores } ∧ ∀ j, v.core j = { u.core j with fenceFrom := (v.core j).fenceFrom })

/-- R29: a word whose guard does not hold changes nothing but its issue: its slot, its W and the latches; here where no latch waits for it, for every instruction with a guard, and with a latch for ADDI. -/
def Obligations.GuardSuppresses : Prop :=
  (∀ (s : State) (t : Thread) (i : Instr) (c : Ctl), Acts s t (Instr.lag s i) → i.ctl = some c → i.wf = true → legalWord i s t = true → c.g = true → t.guardHolds = false → t.live = false → t.iv = false → t.rv = false → t.sc = false →
      exec i s = .next (s.put (t.complete c (t.pc + 4) 0)) ∧ Kept s t [] [] t.fpcsr (s.put (t.complete c (t.pc + 4) 0)))
  ∧ (∀ (s : State) (t : Thread) (c : Ctl) (d a : Reg) (imm : BitVec 9), Issues s t → c.g = true → t.guardHolds = false → t.live = false → t.rv = false → t.sc = false →
      exec (.addi c d a imm) s = .next (s.put (t.complete c (t.pc + 4) 0)) ∧ (t.complete c (t.pc + 4) 0).iv = false)

/-- Every instruction and event of the table gives a next state in every state: a trap is a next state (R353), and nothing is refused. -/
def Obligations.NoInstructionStops : Prop :=
  ∀ (i : Instr) (s : State), ∃ u : State, exec i s = .next u

/-- Every step keeps the canonical form of memory, from every state that has it. -/
def Obligations.StepKeepsMemory : Prop :=
  ∀ s t : State, s.MemInv → step s = .next t → t.MemInv

/-- R94, R261: an arrival at its completion object: where the object is ARMED or FAILED, of the arrival's generation and expects one, COUNT falls by one, a failure of an ARMED object is recorded,
flags are ORed in, and the granule is set full when COUNT becomes 0; else the object is left unchanged and the record STALE_COMPLETION goes to the sink of the command's task and names the reference and the handle (R88). The command settles.
Here for a command of a thread of this module, whose arrival is not reported for a reason of its own (R244, R270), and for an arrival that an object here takes from another module's thread. That the record's PC is the command's word, and that the handle stands beside the record in State.handles, is log 42. -/
def Obligations.CompletionObjects : Prop :=
  ∀ (s : State) (x : Arrival), indexOf x.core < 10240 → isService x.core = false → x.core < 16 * 16384 → (s.core x.core).waiters = [] → x.module = s.moduleNo →
    let key := localKey x.core (bits x.ref 0 17)
    let w0 := BitVec.ofNat 64 (leNat (readBytes s.mem key 8))
    let w1 := BitVec.ofNat 64 (leNat (readBytes s.mem (key + 8) 8))
    let st := bits w0 30 2
    let good := (st = 1 ∨ st = 2) ∧ bits w0 32 32 = bits x.ref 32 32 ∧ bits w0 0 12 ≠ 0
    bits x.ref 0 17 % 16 = 0 → bits x.ref 0 17 < 0x18000 → (∀ w ∈ wordsOf key 16, w ∉ s.eccOne ∧ w ∉ s.eccBad) →
    let taken := fun (u : State) =>
      (let v0 := BitVec.ofNat 64 (leNat (readBytes u.mem key 8))
       let v1 := BitVec.ofNat 64 (leNat (readBytes u.mem (key + 8) 8))
       bits v0 0 12 = bits w0 0 12 - 1 ∧ bits v0 32 32 = bits w0 32 32
       ∧ bits v0 13 5 = bits w0 13 5 ||| x.flags.toNat ∧ v0.getLsbD 12 = (w0.getLsbD 12 || x.illop)
       ∧ (∀ e v, x.fail = some (e, v) → st = 1 → bits v0 30 2 = 2 ∧ bits v0 18 12 = e.code ∧ (x.result = none → v1 = v))
       ∧ (x.fail = none ∨ st = 2 → bits v0 30 2 = st ∧ bits v0 18 12 = bits w0 18 12 ∧ (x.result = none → v1 = w1)))
      ∧ (∀ a, ¬ (key ≤ a ∧ a < key + 16) → readByte u.mem a = readByte s.mem a)
      ∧ (bits w0 0 12 = 1 → u.fe (key / 16) = true) ∧ (bits w0 0 12 ≠ 1 → u.full = s.full)
    let settled := fun (u : State) => (∀ c ∈ u.cores, ∀ y ∈ c.2.threads, y.2.stream = x.stream → ∀ e ∈ y.2.engs, e.serial ≠ x.serial)
      ∧ ∀ j n, x.copy = some (j, n) → (u.core j).copies.find n = none
    (x.home ≠ s.moduleNo → good → ∃ u : State, exec (.completionArrival x) s = .next u ∧ taken u)
    ∧ (x.home = s.moduleNo → (∀ v, x.fail ≠ some (.staleCompletion, v)) → ∀ k t e, s.issuer x.stream = some (k, t, false) →
        t.engs.find? (fun e => e.serial == x.serial) = some e → (x.fail = none ∨ (e.kind ≠ .mma ∧ e.kind ≠ .mred)) →
        (good → ∃ u : State, exec (.completionArrival x) s = .next u ∧ taken u ∧ settled u)
        ∧ (¬ good → let named := s.handles ++ [(x.ref, BitVec.ofNat 64 (x.serial.toNat * 2 ^ 32 + e.copyTag))]
            let r := ({ s with handles := named } : State).report (s.env t k x.serial) false false .staleCompletion e.pc x.ref false
            ∃ u : State, exec (.completionArrival x) s = .next u ∧ settled u ∧ u.mem = r.mem ∧ u.hevents = r.hevents ∧ u.full = s.full ∧ u.handles = named))
end

