-- ==== Sys2Proof/Laws/Thread.lean ====
section
/-! SUPPORT. What each update of a thread leaves as it is, one lemma a field; the general registers. -/
namespace Sys2Proof.Machine

@[simp] theorem Thread.wr_pc (t : Thread) (r : Reg) (v : Word) : (t.wr r v).pc = t.pc := by unfold Thread.wr; split <;> rfl
@[simp] theorem Thread.wr_v (t : Thread) (r : Reg) (v : Word) : (t.wr r v).v = t.v := by unfold Thread.wr; split <;> rfl
@[simp] theorem Thread.wr_claim (t : Thread) (r : Reg) (v : Word) : (t.wr r v).claim = t.claim := by unfold Thread.wr; split <;> rfl
@[simp] theorem Thread.wr_busy (t : Thread) (r : Reg) (v : Word) : (t.wr r v).busy = t.busy := by unfold Thread.wr; split <;> rfl
@[simp] theorem Thread.wr_tid (t : Thread) (r : Reg) (v : Word) : (t.wr r v).tid = t.tid := by unfold Thread.wr; split <;> rfl
@[simp] theorem Thread.wr_cnt (t : Thread) (r : Reg) (v : Word) : (t.wr r v).cnt = t.cnt := by unfold Thread.wr; split <;> rfl
@[simp] theorem Thread.wr_cx (t : Thread) (r : Reg) (v : Word) : (t.wr r v).cx = t.cx := by unfold Thread.wr; split <;> rfl
@[simp] theorem Thread.wr_cy (t : Thread) (r : Reg) (v : Word) : (t.wr r v).cy = t.cy := by unfold Thread.wr; split <;> rfl
@[simp] theorem Thread.wr_cz (t : Thread) (r : Reg) (v : Word) : (t.wr r v).cz = t.cz := by unfold Thread.wr; split <;> rfl
@[simp] theorem Thread.wr_fpcsr (t : Thread) (r : Reg) (v : Word) : (t.wr r v).fpcsr = t.fpcsr := by unfold Thread.wr; split <;> rfl
@[simp] theorem Thread.wr_sc (t : Thread) (r : Reg) (v : Word) : (t.wr r v).sc = t.sc := by unfold Thread.wr; split <;> rfl
@[simp] theorem Thread.wr_det (t : Thread) (r : Reg) (v : Word) : (t.wr r v).det = t.det := by unfold Thread.wr; split <;> rfl
@[simp] theorem Thread.wr_gsel (t : Thread) (r : Reg) (v : Word) : (t.wr r v).gsel = t.gsel := by unfold Thread.wr; split <;> rfl
@[simp] theorem Thread.wr_pfx (t : Thread) (r : Reg) (v : Word) : (t.wr r v).pfx = t.pfx := by unfold Thread.wr; split <;> rfl
@[simp] theorem Thread.wr_ctag (t : Thread) (r : Reg) (v : Word) : (t.wr r v).ctag = t.ctag := by unfold Thread.wr; split <;> rfl
@[simp] theorem Thread.wr_tvec (t : Thread) (r : Reg) (v : Word) : (t.wr r v).tvec = t.tvec := by unfold Thread.wr; split <;> rfl
@[simp] theorem Thread.wr_tcause (t : Thread) (r : Reg) (v : Word) : (t.wr r v).tcause = t.tcause := by unfold Thread.wr; split <;> rfl
@[simp] theorem Thread.wr_tpc (t : Thread) (r : Reg) (v : Word) : (t.wr r v).tpc = t.tpc := by unfold Thread.wr; split <;> rfl
@[simp] theorem Thread.wr_tval (t : Thread) (r : Reg) (v : Word) : (t.wr r v).tval = t.tval := by unfold Thread.wr; split <;> rfl
@[simp] theorem Thread.wr_tsave (t : Thread) (r : Reg) (v : Word) : (t.wr r v).tsave = t.tsave := by unfold Thread.wr; split <;> rfl
@[simp] theorem Thread.wr_hbint (t : Thread) (r : Reg) (v : Word) : (t.wr r v).hbint = t.hbint := by unfold Thread.wr; split <;> rfl
@[simp] theorem Thread.wr_budget (t : Thread) (r : Reg) (v : Word) : (t.wr r v).budget = t.budget := by unfold Thread.wr; split <;> rfl
@[simp] theorem Thread.wr_synclim (t : Thread) (r : Reg) (v : Word) : (t.wr r v).synclim = t.synclim := by unfold Thread.wr; split <;> rfl
@[simp] theorem Thread.wr_stream (t : Thread) (r : Reg) (v : Word) : (t.wr r v).stream = t.stream := by unfold Thread.wr; split <;> rfl
@[simp] theorem Thread.wr_serial (t : Thread) (r : Reg) (v : Word) : (t.wr r v).serial = t.serial := by unfold Thread.wr; split <;> rfl
@[simp] theorem Thread.wr_ackw (t : Thread) (r : Reg) (v : Word) : (t.wr r v).ackw = t.ackw := by unfold Thread.wr; split <;> rfl
@[simp] theorem Thread.wr_meetwin (t : Thread) (r : Reg) (v : Word) : (t.wr r v).meetwin = t.meetwin := by unfold Thread.wr; split <;> rfl
@[simp] theorem Thread.wr_dtbase (t : Thread) (r : Reg) (v : Word) : (t.wr r v).dtbase = t.dtbase := by unfold Thread.wr; split <;> rfl
@[simp] theorem Thread.wr_ptbase (t : Thread) (r : Reg) (v : Word) : (t.wr r v).ptbase = t.ptbase := by unfold Thread.wr; split <;> rfl
@[simp] theorem Thread.wr_spawnk (t : Thread) (r : Reg) (v : Word) : (t.wr r v).spawnk = t.spawnk := by unfold Thread.wr; split <;> rfl
@[simp] theorem Thread.wr_hb (t : Thread) (r : Reg) (v : Word) : (t.wr r v).hb = t.hb := by unfold Thread.wr; split <;> rfl
@[simp] theorem Thread.wr_acct (t : Thread) (r : Reg) (v : Word) : (t.wr r v).acct = t.acct := by unfold Thread.wr; split <;> rfl
@[simp] theorem Thread.wr_done (t : Thread) (r : Reg) (v : Word) : (t.wr r v).done = t.done := by unfold Thread.wr; split <;> rfl
@[simp] theorem Thread.wr_budgetTaken (t : Thread) (r : Reg) (v : Word) : (t.wr r v).budgetTaken = t.budgetTaken := by unfold Thread.wr; split <;> rfl
@[simp] theorem Thread.wr_afterRft (t : Thread) (r : Reg) (v : Word) : (t.wr r v).afterRft = t.afterRft := by unfold Thread.wr; split <;> rfl
@[simp] theorem Thread.wr_status (t : Thread) (r : Reg) (v : Word) : (t.wr r v).status = t.status := by unfold Thread.wr; split <;> rfl
@[simp] theorem Thread.wr_elig (t : Thread) (r : Reg) (v : Word) : (t.wr r v).elig = t.elig := by unfold Thread.wr; split <;> rfl
@[simp] theorem Thread.wr_issued (t : Thread) (r : Reg) (v : Word) : (t.wr r v).issued = t.issued := by unfold Thread.wr; split <;> rfl
@[simp] theorem Thread.wr_waitStart (t : Thread) (r : Reg) (v : Word) : (t.wr r v).waitStart = t.waitStart := by unfold Thread.wr; split <;> rfl
@[simp] theorem Thread.wr_reqs (t : Thread) (r : Reg) (v : Word) : (t.wr r v).reqs = t.reqs := by unfold Thread.wr; split <;> rfl
@[simp] theorem Thread.wr_unk (t : Thread) (r : Reg) (v : Word) : (t.wr r v).unk = t.unk := by unfold Thread.wr; split <;> rfl
@[simp] theorem Thread.wr_unkOver (t : Thread) (r : Reg) (v : Word) : (t.wr r v).unkOver = t.unkOver := by unfold Thread.wr; split <;> rfl
@[simp] theorem Thread.wr_engs (t : Thread) (r : Reg) (v : Word) : (t.wr r v).engs = t.engs := by unfold Thread.wr; split <;> rfl
@[simp] theorem Thread.wr_live (t : Thread) (r : Reg) (v : Word) : (t.wr r v).live = t.live := by unfold Thread.wr; split <;> rfl
@[simp] theorem Thread.wr_safePoint (t : Thread) (r : Reg) (v : Word) : (t.wr r v).safePoint = t.safePoint := by unfold Thread.wr; split <;> rfl
@[simp] theorem Thread.wr_preempt (t : Thread) (r : Reg) (v : Word) : (t.wr r v).preempt = t.preempt := by unfold Thread.wr; split <;> rfl
@[simp] theorem Thread.wr_forced (t : Thread) (r : Reg) (v : Word) : (t.wr r v).forced = t.forced := by unfold Thread.wr; split <;> rfl
@[simp] theorem Thread.wr_saving (t : Thread) (r : Reg) (v : Word) : (t.wr r v).saving = t.saving := by unfold Thread.wr; split <;> rfl
@[simp] theorem Thread.wr_kill (t : Thread) (r : Reg) (v : Word) : (t.wr r v).kill = t.kill := by unfold Thread.wr; split <;> rfl
@[simp] theorem Thread.wr_queue (t : Thread) (r : Reg) (v : Word) : (t.wr r v).queue = t.queue := by unfold Thread.wr; split <;> rfl
@[simp] theorem Thread.wr_blk (t : Thread) (r : Reg) (v : Word) : (t.wr r v).blk = t.blk := by unfold Thread.wr; split <;> rfl
@[simp] theorem Thread.wr_tcb (t : Thread) (r : Reg) (v : Word) : (t.wr r v).tcb = t.tcb := by unfold Thread.wr; split <;> rfl
@[simp] theorem Thread.wr_sink (t : Thread) (r : Reg) (v : Word) : (t.wr r v).sink = t.sink := by unfold Thread.wr; split <;> rfl
@[simp] theorem Thread.wr_errq (t : Thread) (r : Reg) (v : Word) : (t.wr r v).errq = t.errq := by unfold Thread.wr; split <;> rfl
@[simp] theorem Thread.wr_qpt (t : Thread) (r : Reg) (v : Word) : (t.wr r v).qpt = t.qpt := by unfold Thread.wr; split <;> rfl
@[simp] theorem Thread.wr_spawned (t : Thread) (r : Reg) (v : Word) : (t.wr r v).spawned = t.spawned := by unfold Thread.wr; split <;> rfl
@[simp] theorem Thread.wr_away (t : Thread) (r : Reg) (v : Word) : (t.wr r v).away = t.away := by unfold Thread.wr; split <;> rfl
@[simp] theorem Thread.wr_ownCtag (t : Thread) (r : Reg) (v : Word) : (t.wr r v).ownCtag = t.ownCtag := by unfold Thread.wr; split <;> rfl
@[simp] theorem Thread.wr_eccBad (t : Thread) (r : Reg) (v : Word) : (t.wr r v).eccBad = t.eccBad := by unfold Thread.wr; split <;> rfl
@[simp] theorem Thread.wr_eccOne (t : Thread) (r : Reg) (v : Word) : (t.wr r v).eccOne = t.eccOne := by unfold Thread.wr; split <;> rfl

@[simp] theorem Thread.vw_g (t : Thread) (r : VReg) (x : VecReg) : (t.vw r x).g = t.g := rfl
@[simp] theorem Thread.vw_pc (t : Thread) (r : VReg) (x : VecReg) : (t.vw r x).pc = t.pc := rfl
@[simp] theorem Thread.vw_claim (t : Thread) (r : VReg) (x : VecReg) : (t.vw r x).claim = t.claim := rfl
@[simp] theorem Thread.vw_busy (t : Thread) (r : VReg) (x : VecReg) : (t.vw r x).busy = t.busy := rfl
@[simp] theorem Thread.vw_tid (t : Thread) (r : VReg) (x : VecReg) : (t.vw r x).tid = t.tid := rfl
@[simp] theorem Thread.vw_cnt (t : Thread) (r : VReg) (x : VecReg) : (t.vw r x).cnt = t.cnt := rfl
@[simp] theorem Thread.vw_cx (t : Thread) (r : VReg) (x : VecReg) : (t.vw r x).cx = t.cx := rfl
@[simp] theorem Thread.vw_cy (t : Thread) (r : VReg) (x : VecReg) : (t.vw r x).cy = t.cy := rfl
@[simp] theorem Thread.vw_cz (t : Thread) (r : VReg) (x : VecReg) : (t.vw r x).cz = t.cz := rfl
@[simp] theorem Thread.vw_fpcsr (t : Thread) (r : VReg) (x : VecReg) : (t.vw r x).fpcsr = t.fpcsr := rfl
@[simp] theorem Thread.vw_sc (t : Thread) (r : VReg) (x : VecReg) : (t.vw r x).sc = t.sc := rfl
@[simp] theorem Thread.vw_det (t : Thread) (r : VReg) (x : VecReg) : (t.vw r x).det = t.det := rfl
@[simp] theorem Thread.vw_gsel (t : Thread) (r : VReg) (x : VecReg) : (t.vw r x).gsel = t.gsel := rfl
@[simp] theorem Thread.vw_pfx (t : Thread) (r : VReg) (x : VecReg) : (t.vw r x).pfx = t.pfx := rfl
@[simp] theorem Thread.vw_ctag (t : Thread) (r : VReg) (x : VecReg) : (t.vw r x).ctag = t.ctag := rfl
@[simp] theorem Thread.vw_tvec (t : Thread) (r : VReg) (x : VecReg) : (t.vw r x).tvec = t.tvec := rfl
@[simp] theorem Thread.vw_tcause (t : Thread) (r : VReg) (x : VecReg) : (t.vw r x).tcause = t.tcause := rfl
@[simp] theorem Thread.vw_tpc (t : Thread) (r : VReg) (x : VecReg) : (t.vw r x).tpc = t.tpc := rfl
@[simp] theorem Thread.vw_tval (t : Thread) (r : VReg) (x : VecReg) : (t.vw r x).tval = t.tval := rfl
@[simp] theorem Thread.vw_tsave (t : Thread) (r : VReg) (x : VecReg) : (t.vw r x).tsave = t.tsave := rfl
@[simp] theorem Thread.vw_hbint (t : Thread) (r : VReg) (x : VecReg) : (t.vw r x).hbint = t.hbint := rfl
@[simp] theorem Thread.vw_budget (t : Thread) (r : VReg) (x : VecReg) : (t.vw r x).budget = t.budget := rfl
@[simp] theorem Thread.vw_synclim (t : Thread) (r : VReg) (x : VecReg) : (t.vw r x).synclim = t.synclim := rfl
@[simp] theorem Thread.vw_stream (t : Thread) (r : VReg) (x : VecReg) : (t.vw r x).stream = t.stream := rfl
@[simp] theorem Thread.vw_serial (t : Thread) (r : VReg) (x : VecReg) : (t.vw r x).serial = t.serial := rfl
@[simp] theorem Thread.vw_ackw (t : Thread) (r : VReg) (x : VecReg) : (t.vw r x).ackw = t.ackw := rfl
@[simp] theorem Thread.vw_meetwin (t : Thread) (r : VReg) (x : VecReg) : (t.vw r x).meetwin = t.meetwin := rfl
@[simp] theorem Thread.vw_dtbase (t : Thread) (r : VReg) (x : VecReg) : (t.vw r x).dtbase = t.dtbase := rfl
@[simp] theorem Thread.vw_ptbase (t : Thread) (r : VReg) (x : VecReg) : (t.vw r x).ptbase = t.ptbase := rfl
@[simp] theorem Thread.vw_spawnk (t : Thread) (r : VReg) (x : VecReg) : (t.vw r x).spawnk = t.spawnk := rfl
@[simp] theorem Thread.vw_hb (t : Thread) (r : VReg) (x : VecReg) : (t.vw r x).hb = t.hb := rfl
@[simp] theorem Thread.vw_acct (t : Thread) (r : VReg) (x : VecReg) : (t.vw r x).acct = t.acct := rfl
@[simp] theorem Thread.vw_done (t : Thread) (r : VReg) (x : VecReg) : (t.vw r x).done = t.done := rfl
@[simp] theorem Thread.vw_budgetTaken (t : Thread) (r : VReg) (x : VecReg) : (t.vw r x).budgetTaken = t.budgetTaken := rfl
@[simp] theorem Thread.vw_afterRft (t : Thread) (r : VReg) (x : VecReg) : (t.vw r x).afterRft = t.afterRft := rfl
@[simp] theorem Thread.vw_status (t : Thread) (r : VReg) (x : VecReg) : (t.vw r x).status = t.status := rfl
@[simp] theorem Thread.vw_elig (t : Thread) (r : VReg) (x : VecReg) : (t.vw r x).elig = t.elig := rfl
@[simp] theorem Thread.vw_issued (t : Thread) (r : VReg) (x : VecReg) : (t.vw r x).issued = t.issued := rfl
@[simp] theorem Thread.vw_waitStart (t : Thread) (r : VReg) (x : VecReg) : (t.vw r x).waitStart = t.waitStart := rfl
@[simp] theorem Thread.vw_pend (t : Thread) (r : VReg) (x : VecReg) : (t.vw r x).pend = t.pend := rfl
@[simp] theorem Thread.vw_reqs (t : Thread) (r : VReg) (x : VecReg) : (t.vw r x).reqs = t.reqs := rfl
@[simp] theorem Thread.vw_unk (t : Thread) (r : VReg) (x : VecReg) : (t.vw r x).unk = t.unk := rfl
@[simp] theorem Thread.vw_unkOver (t : Thread) (r : VReg) (x : VecReg) : (t.vw r x).unkOver = t.unkOver := rfl
@[simp] theorem Thread.vw_engs (t : Thread) (r : VReg) (x : VecReg) : (t.vw r x).engs = t.engs := rfl
@[simp] theorem Thread.vw_live (t : Thread) (r : VReg) (x : VecReg) : (t.vw r x).live = t.live := rfl
@[simp] theorem Thread.vw_safePoint (t : Thread) (r : VReg) (x : VecReg) : (t.vw r x).safePoint = t.safePoint := rfl
@[simp] theorem Thread.vw_preempt (t : Thread) (r : VReg) (x : VecReg) : (t.vw r x).preempt = t.preempt := rfl
@[simp] theorem Thread.vw_forced (t : Thread) (r : VReg) (x : VecReg) : (t.vw r x).forced = t.forced := rfl
@[simp] theorem Thread.vw_saving (t : Thread) (r : VReg) (x : VecReg) : (t.vw r x).saving = t.saving := rfl
@[simp] theorem Thread.vw_kill (t : Thread) (r : VReg) (x : VecReg) : (t.vw r x).kill = t.kill := rfl
@[simp] theorem Thread.vw_queue (t : Thread) (r : VReg) (x : VecReg) : (t.vw r x).queue = t.queue := rfl
@[simp] theorem Thread.vw_blk (t : Thread) (r : VReg) (x : VecReg) : (t.vw r x).blk = t.blk := rfl
@[simp] theorem Thread.vw_tcb (t : Thread) (r : VReg) (x : VecReg) : (t.vw r x).tcb = t.tcb := rfl
@[simp] theorem Thread.vw_sink (t : Thread) (r : VReg) (x : VecReg) : (t.vw r x).sink = t.sink := rfl
@[simp] theorem Thread.vw_errq (t : Thread) (r : VReg) (x : VecReg) : (t.vw r x).errq = t.errq := rfl
@[simp] theorem Thread.vw_qpt (t : Thread) (r : VReg) (x : VecReg) : (t.vw r x).qpt = t.qpt := rfl
@[simp] theorem Thread.vw_spawned (t : Thread) (r : VReg) (x : VecReg) : (t.vw r x).spawned = t.spawned := rfl
@[simp] theorem Thread.vw_away (t : Thread) (r : VReg) (x : VecReg) : (t.vw r x).away = t.away := rfl
@[simp] theorem Thread.vw_ownCtag (t : Thread) (r : VReg) (x : VecReg) : (t.vw r x).ownCtag = t.ownCtag := rfl
@[simp] theorem Thread.vw_eccBad (t : Thread) (r : VReg) (x : VecReg) : (t.vw r x).eccBad = t.eccBad := rfl
@[simp] theorem Thread.vw_eccOne (t : Thread) (r : VReg) (x : VecReg) : (t.vw r x).eccOne = t.eccOne := rfl

@[simp] theorem Thread.orFlags_g (t : Thread) (fl : Nat) : (t.orFlags fl).g = t.g := rfl
@[simp] theorem Thread.orFlags_pc (t : Thread) (fl : Nat) : (t.orFlags fl).pc = t.pc := rfl
@[simp] theorem Thread.orFlags_v (t : Thread) (fl : Nat) : (t.orFlags fl).v = t.v := rfl
@[simp] theorem Thread.orFlags_claim (t : Thread) (fl : Nat) : (t.orFlags fl).claim = t.claim := rfl
@[simp] theorem Thread.orFlags_busy (t : Thread) (fl : Nat) : (t.orFlags fl).busy = t.busy := rfl
@[simp] theorem Thread.orFlags_tid (t : Thread) (fl : Nat) : (t.orFlags fl).tid = t.tid := rfl
@[simp] theorem Thread.orFlags_cnt (t : Thread) (fl : Nat) : (t.orFlags fl).cnt = t.cnt := rfl
@[simp] theorem Thread.orFlags_cx (t : Thread) (fl : Nat) : (t.orFlags fl).cx = t.cx := rfl
@[simp] theorem Thread.orFlags_cy (t : Thread) (fl : Nat) : (t.orFlags fl).cy = t.cy := rfl
@[simp] theorem Thread.orFlags_cz (t : Thread) (fl : Nat) : (t.orFlags fl).cz = t.cz := rfl
@[simp] theorem Thread.orFlags_sc (t : Thread) (fl : Nat) : (t.orFlags fl).sc = t.sc := rfl
@[simp] theorem Thread.orFlags_det (t : Thread) (fl : Nat) : (t.orFlags fl).det = t.det := rfl
@[simp] theorem Thread.orFlags_gsel (t : Thread) (fl : Nat) : (t.orFlags fl).gsel = t.gsel := rfl
@[simp] theorem Thread.orFlags_pfx (t : Thread) (fl : Nat) : (t.orFlags fl).pfx = t.pfx := rfl
@[simp] theorem Thread.orFlags_ctag (t : Thread) (fl : Nat) : (t.orFlags fl).ctag = t.ctag := rfl
@[simp] theorem Thread.orFlags_tvec (t : Thread) (fl : Nat) : (t.orFlags fl).tvec = t.tvec := rfl
@[simp] theorem Thread.orFlags_tcause (t : Thread) (fl : Nat) : (t.orFlags fl).tcause = t.tcause := rfl
@[simp] theorem Thread.orFlags_tpc (t : Thread) (fl : Nat) : (t.orFlags fl).tpc = t.tpc := rfl
@[simp] theorem Thread.orFlags_tval (t : Thread) (fl : Nat) : (t.orFlags fl).tval = t.tval := rfl
@[simp] theorem Thread.orFlags_tsave (t : Thread) (fl : Nat) : (t.orFlags fl).tsave = t.tsave := rfl
@[simp] theorem Thread.orFlags_hbint (t : Thread) (fl : Nat) : (t.orFlags fl).hbint = t.hbint := rfl
@[simp] theorem Thread.orFlags_budget (t : Thread) (fl : Nat) : (t.orFlags fl).budget = t.budget := rfl
@[simp] theorem Thread.orFlags_synclim (t : Thread) (fl : Nat) : (t.orFlags fl).synclim = t.synclim := rfl
@[simp] theorem Thread.orFlags_stream (t : Thread) (fl : Nat) : (t.orFlags fl).stream = t.stream := rfl
@[simp] theorem Thread.orFlags_serial (t : Thread) (fl : Nat) : (t.orFlags fl).serial = t.serial := rfl
@[simp] theorem Thread.orFlags_ackw (t : Thread) (fl : Nat) : (t.orFlags fl).ackw = t.ackw := rfl
@[simp] theorem Thread.orFlags_meetwin (t : Thread) (fl : Nat) : (t.orFlags fl).meetwin = t.meetwin := rfl
@[simp] theorem Thread.orFlags_dtbase (t : Thread) (fl : Nat) : (t.orFlags fl).dtbase = t.dtbase := rfl
@[simp] theorem Thread.orFlags_ptbase (t : Thread) (fl : Nat) : (t.orFlags fl).ptbase = t.ptbase := rfl
@[simp] theorem Thread.orFlags_spawnk (t : Thread) (fl : Nat) : (t.orFlags fl).spawnk = t.spawnk := rfl
@[simp] theorem Thread.orFlags_hb (t : Thread) (fl : Nat) : (t.orFlags fl).hb = t.hb := rfl
@[simp] theorem Thread.orFlags_acct (t : Thread) (fl : Nat) : (t.orFlags fl).acct = t.acct := rfl
@[simp] theorem Thread.orFlags_done (t : Thread) (fl : Nat) : (t.orFlags fl).done = t.done := rfl
@[simp] theorem Thread.orFlags_budgetTaken (t : Thread) (fl : Nat) : (t.orFlags fl).budgetTaken = t.budgetTaken := rfl
@[simp] theorem Thread.orFlags_afterRft (t : Thread) (fl : Nat) : (t.orFlags fl).afterRft = t.afterRft := rfl
@[simp] theorem Thread.orFlags_status (t : Thread) (fl : Nat) : (t.orFlags fl).status = t.status := rfl
@[simp] theorem Thread.orFlags_elig (t : Thread) (fl : Nat) : (t.orFlags fl).elig = t.elig := rfl
@[simp] theorem Thread.orFlags_issued (t : Thread) (fl : Nat) : (t.orFlags fl).issued = t.issued := rfl
@[simp] theorem Thread.orFlags_waitStart (t : Thread) (fl : Nat) : (t.orFlags fl).waitStart = t.waitStart := rfl
@[simp] theorem Thread.orFlags_pend (t : Thread) (fl : Nat) : (t.orFlags fl).pend = t.pend := rfl
@[simp] theorem Thread.orFlags_reqs (t : Thread) (fl : Nat) : (t.orFlags fl).reqs = t.reqs := rfl
@[simp] theorem Thread.orFlags_unk (t : Thread) (fl : Nat) : (t.orFlags fl).unk = t.unk := rfl
@[simp] theorem Thread.orFlags_unkOver (t : Thread) (fl : Nat) : (t.orFlags fl).unkOver = t.unkOver := rfl
@[simp] theorem Thread.orFlags_engs (t : Thread) (fl : Nat) : (t.orFlags fl).engs = t.engs := rfl
@[simp] theorem Thread.orFlags_live (t : Thread) (fl : Nat) : (t.orFlags fl).live = t.live := rfl
@[simp] theorem Thread.orFlags_safePoint (t : Thread) (fl : Nat) : (t.orFlags fl).safePoint = t.safePoint := rfl
@[simp] theorem Thread.orFlags_preempt (t : Thread) (fl : Nat) : (t.orFlags fl).preempt = t.preempt := rfl
@[simp] theorem Thread.orFlags_forced (t : Thread) (fl : Nat) : (t.orFlags fl).forced = t.forced := rfl
@[simp] theorem Thread.orFlags_saving (t : Thread) (fl : Nat) : (t.orFlags fl).saving = t.saving := rfl
@[simp] theorem Thread.orFlags_kill (t : Thread) (fl : Nat) : (t.orFlags fl).kill = t.kill := rfl
@[simp] theorem Thread.orFlags_queue (t : Thread) (fl : Nat) : (t.orFlags fl).queue = t.queue := rfl
@[simp] theorem Thread.orFlags_blk (t : Thread) (fl : Nat) : (t.orFlags fl).blk = t.blk := rfl
@[simp] theorem Thread.orFlags_tcb (t : Thread) (fl : Nat) : (t.orFlags fl).tcb = t.tcb := rfl
@[simp] theorem Thread.orFlags_sink (t : Thread) (fl : Nat) : (t.orFlags fl).sink = t.sink := rfl
@[simp] theorem Thread.orFlags_errq (t : Thread) (fl : Nat) : (t.orFlags fl).errq = t.errq := rfl
@[simp] theorem Thread.orFlags_qpt (t : Thread) (fl : Nat) : (t.orFlags fl).qpt = t.qpt := rfl
@[simp] theorem Thread.orFlags_spawned (t : Thread) (fl : Nat) : (t.orFlags fl).spawned = t.spawned := rfl
@[simp] theorem Thread.orFlags_away (t : Thread) (fl : Nat) : (t.orFlags fl).away = t.away := rfl
@[simp] theorem Thread.orFlags_ownCtag (t : Thread) (fl : Nat) : (t.orFlags fl).ownCtag = t.ownCtag := rfl
@[simp] theorem Thread.orFlags_eccBad (t : Thread) (fl : Nat) : (t.orFlags fl).eccBad = t.eccBad := rfl
@[simp] theorem Thread.orFlags_eccOne (t : Thread) (fl : Nat) : (t.orFlags fl).eccOne = t.eccOne := rfl

@[simp] theorem Thread.complete_g (t : Thread) (c : Ctl) (pc : Word) (m : Nat) : (t.complete c pc m).g = t.g := rfl
@[simp] theorem Thread.complete_v (t : Thread) (c : Ctl) (pc : Word) (m : Nat) : (t.complete c pc m).v = t.v := rfl
@[simp] theorem Thread.complete_claim (t : Thread) (c : Ctl) (pc : Word) (m : Nat) : (t.complete c pc m).claim = t.claim := rfl
@[simp] theorem Thread.complete_tid (t : Thread) (c : Ctl) (pc : Word) (m : Nat) : (t.complete c pc m).tid = t.tid := rfl
@[simp] theorem Thread.complete_cnt (t : Thread) (c : Ctl) (pc : Word) (m : Nat) : (t.complete c pc m).cnt = t.cnt := rfl
@[simp] theorem Thread.complete_cx (t : Thread) (c : Ctl) (pc : Word) (m : Nat) : (t.complete c pc m).cx = t.cx := rfl
@[simp] theorem Thread.complete_cy (t : Thread) (c : Ctl) (pc : Word) (m : Nat) : (t.complete c pc m).cy = t.cy := rfl
@[simp] theorem Thread.complete_cz (t : Thread) (c : Ctl) (pc : Word) (m : Nat) : (t.complete c pc m).cz = t.cz := rfl
@[simp] theorem Thread.complete_fpcsr (t : Thread) (c : Ctl) (pc : Word) (m : Nat) : (t.complete c pc m).fpcsr = t.fpcsr := rfl
@[simp] theorem Thread.complete_sc (t : Thread) (c : Ctl) (pc : Word) (m : Nat) : (t.complete c pc m).sc = t.sc := rfl
@[simp] theorem Thread.complete_det (t : Thread) (c : Ctl) (pc : Word) (m : Nat) : (t.complete c pc m).det = t.det := rfl
@[simp] theorem Thread.complete_gsel (t : Thread) (c : Ctl) (pc : Word) (m : Nat) : (t.complete c pc m).gsel = t.gsel := rfl
@[simp] theorem Thread.complete_ctag (t : Thread) (c : Ctl) (pc : Word) (m : Nat) : (t.complete c pc m).ctag = t.ctag := rfl
@[simp] theorem Thread.complete_tvec (t : Thread) (c : Ctl) (pc : Word) (m : Nat) : (t.complete c pc m).tvec = t.tvec := rfl
@[simp] theorem Thread.complete_tcause (t : Thread) (c : Ctl) (pc : Word) (m : Nat) : (t.complete c pc m).tcause = t.tcause := rfl
@[simp] theorem Thread.complete_tpc (t : Thread) (c : Ctl) (pc : Word) (m : Nat) : (t.complete c pc m).tpc = t.tpc := rfl
@[simp] theorem Thread.complete_tval (t : Thread) (c : Ctl) (pc : Word) (m : Nat) : (t.complete c pc m).tval = t.tval := rfl
@[simp] theorem Thread.complete_tsave (t : Thread) (c : Ctl) (pc : Word) (m : Nat) : (t.complete c pc m).tsave = t.tsave := rfl
@[simp] theorem Thread.complete_hbint (t : Thread) (c : Ctl) (pc : Word) (m : Nat) : (t.complete c pc m).hbint = t.hbint := rfl
@[simp] theorem Thread.complete_budget (t : Thread) (c : Ctl) (pc : Word) (m : Nat) : (t.complete c pc m).budget = t.budget := rfl
@[simp] theorem Thread.complete_synclim (t : Thread) (c : Ctl) (pc : Word) (m : Nat) : (t.complete c pc m).synclim = t.synclim := rfl
@[simp] theorem Thread.complete_stream (t : Thread) (c : Ctl) (pc : Word) (m : Nat) : (t.complete c pc m).stream = t.stream := rfl
@[simp] theorem Thread.complete_serial (t : Thread) (c : Ctl) (pc : Word) (m : Nat) : (t.complete c pc m).serial = t.serial := rfl
@[simp] theorem Thread.complete_ackw (t : Thread) (c : Ctl) (pc : Word) (m : Nat) : (t.complete c pc m).ackw = t.ackw := rfl
@[simp] theorem Thread.complete_meetwin (t : Thread) (c : Ctl) (pc : Word) (m : Nat) : (t.complete c pc m).meetwin = t.meetwin := rfl
@[simp] theorem Thread.complete_dtbase (t : Thread) (c : Ctl) (pc : Word) (m : Nat) : (t.complete c pc m).dtbase = t.dtbase := rfl
@[simp] theorem Thread.complete_ptbase (t : Thread) (c : Ctl) (pc : Word) (m : Nat) : (t.complete c pc m).ptbase = t.ptbase := rfl
@[simp] theorem Thread.complete_spawnk (t : Thread) (c : Ctl) (pc : Word) (m : Nat) : (t.complete c pc m).spawnk = t.spawnk := rfl
@[simp] theorem Thread.complete_hb (t : Thread) (c : Ctl) (pc : Word) (m : Nat) : (t.complete c pc m).hb = t.hb := rfl
@[simp] theorem Thread.complete_acct (t : Thread) (c : Ctl) (pc : Word) (m : Nat) : (t.complete c pc m).acct = t.acct := rfl
@[simp] theorem Thread.complete_budgetTaken (t : Thread) (c : Ctl) (pc : Word) (m : Nat) : (t.complete c pc m).budgetTaken = t.budgetTaken := rfl
@[simp] theorem Thread.complete_afterRft (t : Thread) (c : Ctl) (pc : Word) (m : Nat) : (t.complete c pc m).afterRft = t.afterRft := rfl
@[simp] theorem Thread.complete_issued (t : Thread) (c : Ctl) (pc : Word) (m : Nat) : (t.complete c pc m).issued = t.issued := rfl
@[simp] theorem Thread.complete_pend (t : Thread) (c : Ctl) (pc : Word) (m : Nat) : (t.complete c pc m).pend = t.pend := rfl
@[simp] theorem Thread.complete_reqs (t : Thread) (c : Ctl) (pc : Word) (m : Nat) : (t.complete c pc m).reqs = t.reqs := rfl
@[simp] theorem Thread.complete_unk (t : Thread) (c : Ctl) (pc : Word) (m : Nat) : (t.complete c pc m).unk = t.unk := rfl
@[simp] theorem Thread.complete_unkOver (t : Thread) (c : Ctl) (pc : Word) (m : Nat) : (t.complete c pc m).unkOver = t.unkOver := rfl
@[simp] theorem Thread.complete_engs (t : Thread) (c : Ctl) (pc : Word) (m : Nat) : (t.complete c pc m).engs = t.engs := rfl
@[simp] theorem Thread.complete_safePoint (t : Thread) (c : Ctl) (pc : Word) (m : Nat) : (t.complete c pc m).safePoint = t.safePoint := rfl
@[simp] theorem Thread.complete_preempt (t : Thread) (c : Ctl) (pc : Word) (m : Nat) : (t.complete c pc m).preempt = t.preempt := rfl
@[simp] theorem Thread.complete_forced (t : Thread) (c : Ctl) (pc : Word) (m : Nat) : (t.complete c pc m).forced = t.forced := rfl
@[simp] theorem Thread.complete_saving (t : Thread) (c : Ctl) (pc : Word) (m : Nat) : (t.complete c pc m).saving = t.saving := rfl
@[simp] theorem Thread.complete_kill (t : Thread) (c : Ctl) (pc : Word) (m : Nat) : (t.complete c pc m).kill = t.kill := rfl
@[simp] theorem Thread.complete_queue (t : Thread) (c : Ctl) (pc : Word) (m : Nat) : (t.complete c pc m).queue = t.queue := rfl
@[simp] theorem Thread.complete_blk (t : Thread) (c : Ctl) (pc : Word) (m : Nat) : (t.complete c pc m).blk = t.blk := rfl
@[simp] theorem Thread.complete_tcb (t : Thread) (c : Ctl) (pc : Word) (m : Nat) : (t.complete c pc m).tcb = t.tcb := rfl
@[simp] theorem Thread.complete_sink (t : Thread) (c : Ctl) (pc : Word) (m : Nat) : (t.complete c pc m).sink = t.sink := rfl
@[simp] theorem Thread.complete_errq (t : Thread) (c : Ctl) (pc : Word) (m : Nat) : (t.complete c pc m).errq = t.errq := rfl
@[simp] theorem Thread.complete_qpt (t : Thread) (c : Ctl) (pc : Word) (m : Nat) : (t.complete c pc m).qpt = t.qpt := rfl
@[simp] theorem Thread.complete_spawned (t : Thread) (c : Ctl) (pc : Word) (m : Nat) : (t.complete c pc m).spawned = t.spawned := rfl
@[simp] theorem Thread.complete_away (t : Thread) (c : Ctl) (pc : Word) (m : Nat) : (t.complete c pc m).away = t.away := rfl
@[simp] theorem Thread.complete_ownCtag (t : Thread) (c : Ctl) (pc : Word) (m : Nat) : (t.complete c pc m).ownCtag = t.ownCtag := rfl
@[simp] theorem Thread.complete_eccBad (t : Thread) (c : Ctl) (pc : Word) (m : Nat) : (t.complete c pc m).eccBad = t.eccBad := rfl
@[simp] theorem Thread.complete_eccOne (t : Thread) (c : Ctl) (pc : Word) (m : Nat) : (t.complete c pc m).eccOne = t.eccOne := rfl

@[simp] theorem Thread.count_g (t : Thread) (now : Nat) : (t.count now).g = t.g := by unfold Thread.count; dsimp only; split; rfl; split <;> rfl
@[simp] theorem Thread.count_pc (t : Thread) (now : Nat) : (t.count now).pc = t.pc := by unfold Thread.count; dsimp only; split; rfl; split <;> rfl
@[simp] theorem Thread.count_v (t : Thread) (now : Nat) : (t.count now).v = t.v := by unfold Thread.count; dsimp only; split; rfl; split <;> rfl
@[simp] theorem Thread.count_claim (t : Thread) (now : Nat) : (t.count now).claim = t.claim := by unfold Thread.count; dsimp only; split; rfl; split <;> rfl
@[simp] theorem Thread.count_busy (t : Thread) (now : Nat) : (t.count now).busy = t.busy := by unfold Thread.count; dsimp only; split; rfl; split <;> rfl
@[simp] theorem Thread.count_tid (t : Thread) (now : Nat) : (t.count now).tid = t.tid := by unfold Thread.count; dsimp only; split; rfl; split <;> rfl
@[simp] theorem Thread.count_cnt (t : Thread) (now : Nat) : (t.count now).cnt = t.cnt := by unfold Thread.count; dsimp only; split; rfl; split <;> rfl
@[simp] theorem Thread.count_cx (t : Thread) (now : Nat) : (t.count now).cx = t.cx := by unfold Thread.count; dsimp only; split; rfl; split <;> rfl
@[simp] theorem Thread.count_cy (t : Thread) (now : Nat) : (t.count now).cy = t.cy := by unfold Thread.count; dsimp only; split; rfl; split <;> rfl
@[simp] theorem Thread.count_cz (t : Thread) (now : Nat) : (t.count now).cz = t.cz := by unfold Thread.count; dsimp only; split; rfl; split <;> rfl
@[simp] theorem Thread.count_fpcsr (t : Thread) (now : Nat) : (t.count now).fpcsr = t.fpcsr := by unfold Thread.count; dsimp only; split; rfl; split <;> rfl
@[simp] theorem Thread.count_sc (t : Thread) (now : Nat) : (t.count now).sc = t.sc := by unfold Thread.count; dsimp only; split; rfl; split <;> rfl
@[simp] theorem Thread.count_det (t : Thread) (now : Nat) : (t.count now).det = t.det := by unfold Thread.count; dsimp only; split; rfl; split <;> rfl
@[simp] theorem Thread.count_gsel (t : Thread) (now : Nat) : (t.count now).gsel = t.gsel := by unfold Thread.count; dsimp only; split; rfl; split <;> rfl
@[simp] theorem Thread.count_pfx (t : Thread) (now : Nat) : (t.count now).pfx = t.pfx := by unfold Thread.count; dsimp only; split; rfl; split <;> rfl
@[simp] theorem Thread.count_ctag (t : Thread) (now : Nat) : (t.count now).ctag = t.ctag := by unfold Thread.count; dsimp only; split; rfl; split <;> rfl
@[simp] theorem Thread.count_tvec (t : Thread) (now : Nat) : (t.count now).tvec = t.tvec := by unfold Thread.count; dsimp only; split; rfl; split <;> rfl
@[simp] theorem Thread.count_tcause (t : Thread) (now : Nat) : (t.count now).tcause = t.tcause := by unfold Thread.count; dsimp only; split; rfl; split <;> rfl
@[simp] theorem Thread.count_tpc (t : Thread) (now : Nat) : (t.count now).tpc = t.tpc := by unfold Thread.count; dsimp only; split; rfl; split <;> rfl
@[simp] theorem Thread.count_tval (t : Thread) (now : Nat) : (t.count now).tval = t.tval := by unfold Thread.count; dsimp only; split; rfl; split <;> rfl
@[simp] theorem Thread.count_tsave (t : Thread) (now : Nat) : (t.count now).tsave = t.tsave := by unfold Thread.count; dsimp only; split; rfl; split <;> rfl
@[simp] theorem Thread.count_hbint (t : Thread) (now : Nat) : (t.count now).hbint = t.hbint := by unfold Thread.count; dsimp only; split; rfl; split <;> rfl
@[simp] theorem Thread.count_synclim (t : Thread) (now : Nat) : (t.count now).synclim = t.synclim := by unfold Thread.count; dsimp only; split; rfl; split <;> rfl
@[simp] theorem Thread.count_stream (t : Thread) (now : Nat) : (t.count now).stream = t.stream := by unfold Thread.count; dsimp only; split; rfl; split <;> rfl
@[simp] theorem Thread.count_serial (t : Thread) (now : Nat) : (t.count now).serial = t.serial := by unfold Thread.count; dsimp only; split; rfl; split <;> rfl
@[simp] theorem Thread.count_ackw (t : Thread) (now : Nat) : (t.count now).ackw = t.ackw := by unfold Thread.count; dsimp only; split; rfl; split <;> rfl
@[simp] theorem Thread.count_meetwin (t : Thread) (now : Nat) : (t.count now).meetwin = t.meetwin := by unfold Thread.count; dsimp only; split; rfl; split <;> rfl
@[simp] theorem Thread.count_dtbase (t : Thread) (now : Nat) : (t.count now).dtbase = t.dtbase := by unfold Thread.count; dsimp only; split; rfl; split <;> rfl
@[simp] theorem Thread.count_ptbase (t : Thread) (now : Nat) : (t.count now).ptbase = t.ptbase := by unfold Thread.count; dsimp only; split; rfl; split <;> rfl
@[simp] theorem Thread.count_spawnk (t : Thread) (now : Nat) : (t.count now).spawnk = t.spawnk := by unfold Thread.count; dsimp only; split; rfl; split <;> rfl
@[simp] theorem Thread.count_done (t : Thread) (now : Nat) : (t.count now).done = t.done := by unfold Thread.count; dsimp only; split; rfl; split <;> rfl
@[simp] theorem Thread.count_budgetTaken (t : Thread) (now : Nat) : (t.count now).budgetTaken = t.budgetTaken := by unfold Thread.count; dsimp only; split; rfl; split <;> rfl
@[simp] theorem Thread.count_afterRft (t : Thread) (now : Nat) : (t.count now).afterRft = t.afterRft := by unfold Thread.count; dsimp only; split; rfl; split <;> rfl
@[simp] theorem Thread.count_status (t : Thread) (now : Nat) : (t.count now).status = t.status := by unfold Thread.count; dsimp only; split; rfl; split <;> rfl
@[simp] theorem Thread.count_elig (t : Thread) (now : Nat) : (t.count now).elig = t.elig := by unfold Thread.count; dsimp only; split; rfl; split <;> rfl
@[simp] theorem Thread.count_issued (t : Thread) (now : Nat) : (t.count now).issued = t.issued := by unfold Thread.count; dsimp only; split; rfl; split <;> rfl
@[simp] theorem Thread.count_waitStart (t : Thread) (now : Nat) : (t.count now).waitStart = t.waitStart := by unfold Thread.count; dsimp only; split; rfl; split <;> rfl
@[simp] theorem Thread.count_pend (t : Thread) (now : Nat) : (t.count now).pend = t.pend := by unfold Thread.count; dsimp only; split; rfl; split <;> rfl
@[simp] theorem Thread.count_reqs (t : Thread) (now : Nat) : (t.count now).reqs = t.reqs := by unfold Thread.count; dsimp only; split; rfl; split <;> rfl
@[simp] theorem Thread.count_unk (t : Thread) (now : Nat) : (t.count now).unk = t.unk := by unfold Thread.count; dsimp only; split; rfl; split <;> rfl
@[simp] theorem Thread.count_unkOver (t : Thread) (now : Nat) : (t.count now).unkOver = t.unkOver := by unfold Thread.count; dsimp only; split; rfl; split <;> rfl
@[simp] theorem Thread.count_engs (t : Thread) (now : Nat) : (t.count now).engs = t.engs := by unfold Thread.count; dsimp only; split; rfl; split <;> rfl
@[simp] theorem Thread.count_live (t : Thread) (now : Nat) : (t.count now).live = t.live := by unfold Thread.count; dsimp only; split; rfl; split <;> rfl
@[simp] theorem Thread.count_safePoint (t : Thread) (now : Nat) : (t.count now).safePoint = t.safePoint := by unfold Thread.count; dsimp only; split; rfl; split <;> rfl
@[simp] theorem Thread.count_preempt (t : Thread) (now : Nat) : (t.count now).preempt = t.preempt := by unfold Thread.count; dsimp only; split; rfl; split <;> rfl
@[simp] theorem Thread.count_forced (t : Thread) (now : Nat) : (t.count now).forced = t.forced := by unfold Thread.count; dsimp only; split; rfl; split <;> rfl
@[simp] theorem Thread.count_saving (t : Thread) (now : Nat) : (t.count now).saving = t.saving := by unfold Thread.count; dsimp only; split; rfl; split <;> rfl
@[simp] theorem Thread.count_kill (t : Thread) (now : Nat) : (t.count now).kill = t.kill := by unfold Thread.count; dsimp only; split; rfl; split <;> rfl
@[simp] theorem Thread.count_queue (t : Thread) (now : Nat) : (t.count now).queue = t.queue := by unfold Thread.count; dsimp only; split; rfl; split <;> rfl
@[simp] theorem Thread.count_blk (t : Thread) (now : Nat) : (t.count now).blk = t.blk := by unfold Thread.count; dsimp only; split; rfl; split <;> rfl
@[simp] theorem Thread.count_tcb (t : Thread) (now : Nat) : (t.count now).tcb = t.tcb := by unfold Thread.count; dsimp only; split; rfl; split <;> rfl
@[simp] theorem Thread.count_sink (t : Thread) (now : Nat) : (t.count now).sink = t.sink := by unfold Thread.count; dsimp only; split; rfl; split <;> rfl
@[simp] theorem Thread.count_errq (t : Thread) (now : Nat) : (t.count now).errq = t.errq := by unfold Thread.count; dsimp only; split; rfl; split <;> rfl
@[simp] theorem Thread.count_qpt (t : Thread) (now : Nat) : (t.count now).qpt = t.qpt := by unfold Thread.count; dsimp only; split; rfl; split <;> rfl
@[simp] theorem Thread.count_spawned (t : Thread) (now : Nat) : (t.count now).spawned = t.spawned := by unfold Thread.count; dsimp only; split; rfl; split <;> rfl
@[simp] theorem Thread.count_away (t : Thread) (now : Nat) : (t.count now).away = t.away := by unfold Thread.count; dsimp only; split; rfl; split <;> rfl
@[simp] theorem Thread.count_ownCtag (t : Thread) (now : Nat) : (t.count now).ownCtag = t.ownCtag := by unfold Thread.count; dsimp only; split; rfl; split <;> rfl
@[simp] theorem Thread.count_eccBad (t : Thread) (now : Nat) : (t.count now).eccBad = t.eccBad := by unfold Thread.count; dsimp only; split; rfl; split <;> rfl
@[simp] theorem Thread.count_eccOne (t : Thread) (now : Nat) : (t.count now).eccOne = t.eccOne := by unfold Thread.count; dsimp only; split; rfl; split <;> rfl

@[simp] theorem Thread.begin_g (t : Thread) (now lag : Nat) : (t.begin now lag).g = t.g := by simp [Thread.begin]
@[simp] theorem Thread.begin_pc (t : Thread) (now lag : Nat) : (t.begin now lag).pc = t.pc := by simp [Thread.begin]
@[simp] theorem Thread.begin_v (t : Thread) (now lag : Nat) : (t.begin now lag).v = t.v := by simp [Thread.begin]
@[simp] theorem Thread.begin_claim (t : Thread) (now lag : Nat) : (t.begin now lag).claim = t.claim := by simp [Thread.begin]
@[simp] theorem Thread.begin_busy (t : Thread) (now lag : Nat) : (t.begin now lag).busy = t.busy := by simp [Thread.begin]
@[simp] theorem Thread.begin_tid (t : Thread) (now lag : Nat) : (t.begin now lag).tid = t.tid := by simp [Thread.begin]
@[simp] theorem Thread.begin_cnt (t : Thread) (now lag : Nat) : (t.begin now lag).cnt = t.cnt := by simp [Thread.begin]
@[simp] theorem Thread.begin_cx (t : Thread) (now lag : Nat) : (t.begin now lag).cx = t.cx := by simp [Thread.begin]
@[simp] theorem Thread.begin_cy (t : Thread) (now lag : Nat) : (t.begin now lag).cy = t.cy := by simp [Thread.begin]
@[simp] theorem Thread.begin_cz (t : Thread) (now lag : Nat) : (t.begin now lag).cz = t.cz := by simp [Thread.begin]
@[simp] theorem Thread.begin_fpcsr (t : Thread) (now lag : Nat) : (t.begin now lag).fpcsr = t.fpcsr := by simp [Thread.begin]
@[simp] theorem Thread.begin_sc (t : Thread) (now lag : Nat) : (t.begin now lag).sc = t.sc := by simp [Thread.begin]
@[simp] theorem Thread.begin_det (t : Thread) (now lag : Nat) : (t.begin now lag).det = t.det := by simp [Thread.begin]
@[simp] theorem Thread.begin_gsel (t : Thread) (now lag : Nat) : (t.begin now lag).gsel = t.gsel := by simp [Thread.begin]
@[simp] theorem Thread.begin_pfx (t : Thread) (now lag : Nat) : (t.begin now lag).pfx = t.pfx := by simp [Thread.begin]
@[simp] theorem Thread.begin_ctag (t : Thread) (now lag : Nat) : (t.begin now lag).ctag = t.ctag := by simp [Thread.begin]
@[simp] theorem Thread.begin_tvec (t : Thread) (now lag : Nat) : (t.begin now lag).tvec = t.tvec := by simp [Thread.begin]
@[simp] theorem Thread.begin_tcause (t : Thread) (now lag : Nat) : (t.begin now lag).tcause = t.tcause := by simp [Thread.begin]
@[simp] theorem Thread.begin_tpc (t : Thread) (now lag : Nat) : (t.begin now lag).tpc = t.tpc := by simp [Thread.begin]
@[simp] theorem Thread.begin_tval (t : Thread) (now lag : Nat) : (t.begin now lag).tval = t.tval := by simp [Thread.begin]
@[simp] theorem Thread.begin_tsave (t : Thread) (now lag : Nat) : (t.begin now lag).tsave = t.tsave := by simp [Thread.begin]
@[simp] theorem Thread.begin_hbint (t : Thread) (now lag : Nat) : (t.begin now lag).hbint = t.hbint := by simp [Thread.begin]
@[simp] theorem Thread.begin_synclim (t : Thread) (now lag : Nat) : (t.begin now lag).synclim = t.synclim := by simp [Thread.begin]
@[simp] theorem Thread.begin_stream (t : Thread) (now lag : Nat) : (t.begin now lag).stream = t.stream := by simp [Thread.begin]
@[simp] theorem Thread.begin_serial (t : Thread) (now lag : Nat) : (t.begin now lag).serial = t.serial := by simp [Thread.begin]
@[simp] theorem Thread.begin_ackw (t : Thread) (now lag : Nat) : (t.begin now lag).ackw = t.ackw := by simp [Thread.begin]
@[simp] theorem Thread.begin_meetwin (t : Thread) (now lag : Nat) : (t.begin now lag).meetwin = t.meetwin := by simp [Thread.begin]
@[simp] theorem Thread.begin_dtbase (t : Thread) (now lag : Nat) : (t.begin now lag).dtbase = t.dtbase := by simp [Thread.begin]
@[simp] theorem Thread.begin_ptbase (t : Thread) (now lag : Nat) : (t.begin now lag).ptbase = t.ptbase := by simp [Thread.begin]
@[simp] theorem Thread.begin_spawnk (t : Thread) (now lag : Nat) : (t.begin now lag).spawnk = t.spawnk := by simp [Thread.begin]
@[simp] theorem Thread.begin_budgetTaken (t : Thread) (now lag : Nat) : (t.begin now lag).budgetTaken = t.budgetTaken := by simp [Thread.begin]
@[simp] theorem Thread.begin_elig (t : Thread) (now lag : Nat) : (t.begin now lag).elig = t.elig := by simp [Thread.begin]
@[simp] theorem Thread.begin_waitStart (t : Thread) (now lag : Nat) : (t.begin now lag).waitStart = t.waitStart := by simp [Thread.begin]
@[simp] theorem Thread.begin_pend (t : Thread) (now lag : Nat) : (t.begin now lag).pend = t.pend := by simp [Thread.begin]
@[simp] theorem Thread.begin_reqs (t : Thread) (now lag : Nat) : (t.begin now lag).reqs = t.reqs := by simp [Thread.begin]
@[simp] theorem Thread.begin_unk (t : Thread) (now lag : Nat) : (t.begin now lag).unk = t.unk := by simp [Thread.begin]
@[simp] theorem Thread.begin_unkOver (t : Thread) (now lag : Nat) : (t.begin now lag).unkOver = t.unkOver := by simp [Thread.begin]
@[simp] theorem Thread.begin_engs (t : Thread) (now lag : Nat) : (t.begin now lag).engs = t.engs := by simp [Thread.begin]
@[simp] theorem Thread.begin_live (t : Thread) (now lag : Nat) : (t.begin now lag).live = t.live := by simp [Thread.begin]
@[simp] theorem Thread.begin_preempt (t : Thread) (now lag : Nat) : (t.begin now lag).preempt = t.preempt := by simp [Thread.begin]
@[simp] theorem Thread.begin_forced (t : Thread) (now lag : Nat) : (t.begin now lag).forced = t.forced := by simp [Thread.begin]
@[simp] theorem Thread.begin_saving (t : Thread) (now lag : Nat) : (t.begin now lag).saving = t.saving := by simp [Thread.begin]
@[simp] theorem Thread.begin_kill (t : Thread) (now lag : Nat) : (t.begin now lag).kill = t.kill := by simp [Thread.begin]
@[simp] theorem Thread.begin_queue (t : Thread) (now lag : Nat) : (t.begin now lag).queue = t.queue := by simp [Thread.begin]
@[simp] theorem Thread.begin_blk (t : Thread) (now lag : Nat) : (t.begin now lag).blk = t.blk := by simp [Thread.begin]
@[simp] theorem Thread.begin_tcb (t : Thread) (now lag : Nat) : (t.begin now lag).tcb = t.tcb := by simp [Thread.begin]
@[simp] theorem Thread.begin_sink (t : Thread) (now lag : Nat) : (t.begin now lag).sink = t.sink := by simp [Thread.begin]
@[simp] theorem Thread.begin_errq (t : Thread) (now lag : Nat) : (t.begin now lag).errq = t.errq := by simp [Thread.begin]
@[simp] theorem Thread.begin_qpt (t : Thread) (now lag : Nat) : (t.begin now lag).qpt = t.qpt := by simp [Thread.begin]
@[simp] theorem Thread.begin_spawned (t : Thread) (now lag : Nat) : (t.begin now lag).spawned = t.spawned := by simp [Thread.begin]
@[simp] theorem Thread.begin_away (t : Thread) (now lag : Nat) : (t.begin now lag).away = t.away := by simp [Thread.begin]
@[simp] theorem Thread.begin_ownCtag (t : Thread) (now lag : Nat) : (t.begin now lag).ownCtag = t.ownCtag := by simp [Thread.begin]
@[simp] theorem Thread.begin_eccBad (t : Thread) (now lag : Nat) : (t.begin now lag).eccBad = t.eccBad := by simp [Thread.begin]
@[simp] theorem Thread.begin_eccOne (t : Thread) (now lag : Nat) : (t.begin now lag).eccOne = t.eccOne := by simp [Thread.begin]

@[simp] theorem Thread.takeSerial_g (t : Thread)  : (t.takeSerial).g = t.g := rfl
@[simp] theorem Thread.takeSerial_pc (t : Thread)  : (t.takeSerial).pc = t.pc := rfl
@[simp] theorem Thread.takeSerial_v (t : Thread)  : (t.takeSerial).v = t.v := rfl
@[simp] theorem Thread.takeSerial_claim (t : Thread)  : (t.takeSerial).claim = t.claim := rfl
@[simp] theorem Thread.takeSerial_busy (t : Thread)  : (t.takeSerial).busy = t.busy := rfl
@[simp] theorem Thread.takeSerial_tid (t : Thread)  : (t.takeSerial).tid = t.tid := rfl
@[simp] theorem Thread.takeSerial_cnt (t : Thread)  : (t.takeSerial).cnt = t.cnt := rfl
@[simp] theorem Thread.takeSerial_cx (t : Thread)  : (t.takeSerial).cx = t.cx := rfl
@[simp] theorem Thread.takeSerial_cy (t : Thread)  : (t.takeSerial).cy = t.cy := rfl
@[simp] theorem Thread.takeSerial_cz (t : Thread)  : (t.takeSerial).cz = t.cz := rfl
@[simp] theorem Thread.takeSerial_fpcsr (t : Thread)  : (t.takeSerial).fpcsr = t.fpcsr := rfl
@[simp] theorem Thread.takeSerial_sc (t : Thread)  : (t.takeSerial).sc = t.sc := rfl
@[simp] theorem Thread.takeSerial_det (t : Thread)  : (t.takeSerial).det = t.det := rfl
@[simp] theorem Thread.takeSerial_gsel (t : Thread)  : (t.takeSerial).gsel = t.gsel := rfl
@[simp] theorem Thread.takeSerial_pfx (t : Thread)  : (t.takeSerial).pfx = t.pfx := rfl
@[simp] theorem Thread.takeSerial_ctag (t : Thread)  : (t.takeSerial).ctag = t.ctag := rfl
@[simp] theorem Thread.takeSerial_tvec (t : Thread)  : (t.takeSerial).tvec = t.tvec := rfl
@[simp] theorem Thread.takeSerial_tcause (t : Thread)  : (t.takeSerial).tcause = t.tcause := rfl
@[simp] theorem Thread.takeSerial_tpc (t : Thread)  : (t.takeSerial).tpc = t.tpc := rfl
@[simp] theorem Thread.takeSerial_tval (t : Thread)  : (t.takeSerial).tval = t.tval := rfl
@[simp] theorem Thread.takeSerial_tsave (t : Thread)  : (t.takeSerial).tsave = t.tsave := rfl
@[simp] theorem Thread.takeSerial_hbint (t : Thread)  : (t.takeSerial).hbint = t.hbint := rfl
@[simp] theorem Thread.takeSerial_budget (t : Thread)  : (t.takeSerial).budget = t.budget := rfl
@[simp] theorem Thread.takeSerial_synclim (t : Thread)  : (t.takeSerial).synclim = t.synclim := rfl
@[simp] theorem Thread.takeSerial_stream (t : Thread)  : (t.takeSerial).stream = t.stream := rfl
@[simp] theorem Thread.takeSerial_ackw (t : Thread)  : (t.takeSerial).ackw = t.ackw := rfl
@[simp] theorem Thread.takeSerial_meetwin (t : Thread)  : (t.takeSerial).meetwin = t.meetwin := rfl
@[simp] theorem Thread.takeSerial_dtbase (t : Thread)  : (t.takeSerial).dtbase = t.dtbase := rfl
@[simp] theorem Thread.takeSerial_ptbase (t : Thread)  : (t.takeSerial).ptbase = t.ptbase := rfl
@[simp] theorem Thread.takeSerial_spawnk (t : Thread)  : (t.takeSerial).spawnk = t.spawnk := rfl
@[simp] theorem Thread.takeSerial_hb (t : Thread)  : (t.takeSerial).hb = t.hb := rfl
@[simp] theorem Thread.takeSerial_acct (t : Thread)  : (t.takeSerial).acct = t.acct := rfl
@[simp] theorem Thread.takeSerial_done (t : Thread)  : (t.takeSerial).done = t.done := rfl
@[simp] theorem Thread.takeSerial_budgetTaken (t : Thread)  : (t.takeSerial).budgetTaken = t.budgetTaken := rfl
@[simp] theorem Thread.takeSerial_afterRft (t : Thread)  : (t.takeSerial).afterRft = t.afterRft := rfl
@[simp] theorem Thread.takeSerial_status (t : Thread)  : (t.takeSerial).status = t.status := rfl
@[simp] theorem Thread.takeSerial_elig (t : Thread)  : (t.takeSerial).elig = t.elig := rfl
@[simp] theorem Thread.takeSerial_issued (t : Thread)  : (t.takeSerial).issued = t.issued := rfl
@[simp] theorem Thread.takeSerial_waitStart (t : Thread)  : (t.takeSerial).waitStart = t.waitStart := rfl
@[simp] theorem Thread.takeSerial_pend (t : Thread)  : (t.takeSerial).pend = t.pend := rfl
@[simp] theorem Thread.takeSerial_reqs (t : Thread)  : (t.takeSerial).reqs = t.reqs := rfl
@[simp] theorem Thread.takeSerial_unk (t : Thread)  : (t.takeSerial).unk = t.unk := rfl
@[simp] theorem Thread.takeSerial_unkOver (t : Thread)  : (t.takeSerial).unkOver = t.unkOver := rfl
@[simp] theorem Thread.takeSerial_engs (t : Thread)  : (t.takeSerial).engs = t.engs := rfl
@[simp] theorem Thread.takeSerial_live (t : Thread)  : (t.takeSerial).live = t.live := rfl
@[simp] theorem Thread.takeSerial_safePoint (t : Thread)  : (t.takeSerial).safePoint = t.safePoint := rfl
@[simp] theorem Thread.takeSerial_preempt (t : Thread)  : (t.takeSerial).preempt = t.preempt := rfl
@[simp] theorem Thread.takeSerial_forced (t : Thread)  : (t.takeSerial).forced = t.forced := rfl
@[simp] theorem Thread.takeSerial_saving (t : Thread)  : (t.takeSerial).saving = t.saving := rfl
@[simp] theorem Thread.takeSerial_kill (t : Thread)  : (t.takeSerial).kill = t.kill := rfl
@[simp] theorem Thread.takeSerial_queue (t : Thread)  : (t.takeSerial).queue = t.queue := rfl
@[simp] theorem Thread.takeSerial_blk (t : Thread)  : (t.takeSerial).blk = t.blk := rfl
@[simp] theorem Thread.takeSerial_tcb (t : Thread)  : (t.takeSerial).tcb = t.tcb := rfl
@[simp] theorem Thread.takeSerial_sink (t : Thread)  : (t.takeSerial).sink = t.sink := rfl
@[simp] theorem Thread.takeSerial_errq (t : Thread)  : (t.takeSerial).errq = t.errq := rfl
@[simp] theorem Thread.takeSerial_qpt (t : Thread)  : (t.takeSerial).qpt = t.qpt := rfl
@[simp] theorem Thread.takeSerial_spawned (t : Thread)  : (t.takeSerial).spawned = t.spawned := rfl
@[simp] theorem Thread.takeSerial_away (t : Thread)  : (t.takeSerial).away = t.away := rfl
@[simp] theorem Thread.takeSerial_ownCtag (t : Thread)  : (t.takeSerial).ownCtag = t.ownCtag := rfl
@[simp] theorem Thread.takeSerial_eccBad (t : Thread)  : (t.takeSerial).eccBad = t.eccBad := rfl
@[simp] theorem Thread.takeSerial_eccOne (t : Thread)  : (t.takeSerial).eccOne = t.eccOne := rfl

@[simp] theorem Thread.advance_g (t : Thread)  : (t.advance).g = t.g := rfl
@[simp] theorem Thread.advance_pc (t : Thread)  : (t.advance).pc = t.pc := rfl
@[simp] theorem Thread.advance_v (t : Thread)  : (t.advance).v = t.v := rfl
@[simp] theorem Thread.advance_claim (t : Thread)  : (t.advance).claim = t.claim := rfl
@[simp] theorem Thread.advance_busy (t : Thread)  : (t.advance).busy = t.busy := rfl
@[simp] theorem Thread.advance_tid (t : Thread)  : (t.advance).tid = t.tid := rfl
@[simp] theorem Thread.advance_cnt (t : Thread)  : (t.advance).cnt = t.cnt := rfl
@[simp] theorem Thread.advance_cx (t : Thread)  : (t.advance).cx = t.cx := rfl
@[simp] theorem Thread.advance_cy (t : Thread)  : (t.advance).cy = t.cy := rfl
@[simp] theorem Thread.advance_cz (t : Thread)  : (t.advance).cz = t.cz := rfl
@[simp] theorem Thread.advance_fpcsr (t : Thread)  : (t.advance).fpcsr = t.fpcsr := rfl
@[simp] theorem Thread.advance_sc (t : Thread)  : (t.advance).sc = t.sc := rfl
@[simp] theorem Thread.advance_det (t : Thread)  : (t.advance).det = t.det := rfl
@[simp] theorem Thread.advance_gsel (t : Thread)  : (t.advance).gsel = t.gsel := rfl
@[simp] theorem Thread.advance_pfx (t : Thread)  : (t.advance).pfx = t.pfx := rfl
@[simp] theorem Thread.advance_ctag (t : Thread)  : (t.advance).ctag = t.ctag := rfl
@[simp] theorem Thread.advance_tvec (t : Thread)  : (t.advance).tvec = t.tvec := rfl
@[simp] theorem Thread.advance_tcause (t : Thread)  : (t.advance).tcause = t.tcause := rfl
@[simp] theorem Thread.advance_tpc (t : Thread)  : (t.advance).tpc = t.tpc := rfl
@[simp] theorem Thread.advance_tval (t : Thread)  : (t.advance).tval = t.tval := rfl
@[simp] theorem Thread.advance_tsave (t : Thread)  : (t.advance).tsave = t.tsave := rfl
@[simp] theorem Thread.advance_hbint (t : Thread)  : (t.advance).hbint = t.hbint := rfl
@[simp] theorem Thread.advance_budget (t : Thread)  : (t.advance).budget = t.budget := rfl
@[simp] theorem Thread.advance_synclim (t : Thread)  : (t.advance).synclim = t.synclim := rfl
@[simp] theorem Thread.advance_stream (t : Thread)  : (t.advance).stream = t.stream := rfl
@[simp] theorem Thread.advance_serial (t : Thread)  : (t.advance).serial = t.serial := rfl
@[simp] theorem Thread.advance_meetwin (t : Thread)  : (t.advance).meetwin = t.meetwin := rfl
@[simp] theorem Thread.advance_dtbase (t : Thread)  : (t.advance).dtbase = t.dtbase := rfl
@[simp] theorem Thread.advance_ptbase (t : Thread)  : (t.advance).ptbase = t.ptbase := rfl
@[simp] theorem Thread.advance_spawnk (t : Thread)  : (t.advance).spawnk = t.spawnk := rfl
@[simp] theorem Thread.advance_hb (t : Thread)  : (t.advance).hb = t.hb := rfl
@[simp] theorem Thread.advance_acct (t : Thread)  : (t.advance).acct = t.acct := rfl
@[simp] theorem Thread.advance_done (t : Thread)  : (t.advance).done = t.done := rfl
@[simp] theorem Thread.advance_budgetTaken (t : Thread)  : (t.advance).budgetTaken = t.budgetTaken := rfl
@[simp] theorem Thread.advance_afterRft (t : Thread)  : (t.advance).afterRft = t.afterRft := rfl
@[simp] theorem Thread.advance_status (t : Thread)  : (t.advance).status = t.status := rfl
@[simp] theorem Thread.advance_elig (t : Thread)  : (t.advance).elig = t.elig := rfl
@[simp] theorem Thread.advance_issued (t : Thread)  : (t.advance).issued = t.issued := rfl
@[simp] theorem Thread.advance_waitStart (t : Thread)  : (t.advance).waitStart = t.waitStart := rfl
@[simp] theorem Thread.advance_pend (t : Thread)  : (t.advance).pend = t.pend := rfl
@[simp] theorem Thread.advance_reqs (t : Thread)  : (t.advance).reqs = t.reqs := rfl
@[simp] theorem Thread.advance_unk (t : Thread)  : (t.advance).unk = t.unk := rfl
@[simp] theorem Thread.advance_unkOver (t : Thread)  : (t.advance).unkOver = t.unkOver := rfl
@[simp] theorem Thread.advance_engs (t : Thread)  : (t.advance).engs = t.engs := rfl
@[simp] theorem Thread.advance_live (t : Thread)  : (t.advance).live = t.live := rfl
@[simp] theorem Thread.advance_safePoint (t : Thread)  : (t.advance).safePoint = t.safePoint := rfl
@[simp] theorem Thread.advance_preempt (t : Thread)  : (t.advance).preempt = t.preempt := rfl
@[simp] theorem Thread.advance_forced (t : Thread)  : (t.advance).forced = t.forced := rfl
@[simp] theorem Thread.advance_saving (t : Thread)  : (t.advance).saving = t.saving := rfl
@[simp] theorem Thread.advance_kill (t : Thread)  : (t.advance).kill = t.kill := rfl
@[simp] theorem Thread.advance_queue (t : Thread)  : (t.advance).queue = t.queue := rfl
@[simp] theorem Thread.advance_blk (t : Thread)  : (t.advance).blk = t.blk := rfl
@[simp] theorem Thread.advance_tcb (t : Thread)  : (t.advance).tcb = t.tcb := rfl
@[simp] theorem Thread.advance_sink (t : Thread)  : (t.advance).sink = t.sink := rfl
@[simp] theorem Thread.advance_errq (t : Thread)  : (t.advance).errq = t.errq := rfl
@[simp] theorem Thread.advance_qpt (t : Thread)  : (t.advance).qpt = t.qpt := rfl
@[simp] theorem Thread.advance_spawned (t : Thread)  : (t.advance).spawned = t.spawned := rfl
@[simp] theorem Thread.advance_away (t : Thread)  : (t.advance).away = t.away := rfl
@[simp] theorem Thread.advance_ownCtag (t : Thread)  : (t.advance).ownCtag = t.ownCtag := rfl
@[simp] theorem Thread.advance_eccBad (t : Thread)  : (t.advance).eccBad = t.eccBad := rfl
@[simp] theorem Thread.advance_eccOne (t : Thread)  : (t.advance).eccOne = t.eccOne := rfl

@[simp] theorem Thread.passSerial_g (t : Thread)  : (t.passSerial).g = t.g := by simp [Thread.passSerial]
@[simp] theorem Thread.passSerial_pc (t : Thread)  : (t.passSerial).pc = t.pc := by simp [Thread.passSerial]
@[simp] theorem Thread.passSerial_v (t : Thread)  : (t.passSerial).v = t.v := by simp [Thread.passSerial]
@[simp] theorem Thread.passSerial_claim (t : Thread)  : (t.passSerial).claim = t.claim := by simp [Thread.passSerial]
@[simp] theorem Thread.passSerial_busy (t : Thread)  : (t.passSerial).busy = t.busy := by simp [Thread.passSerial]
@[simp] theorem Thread.passSerial_tid (t : Thread)  : (t.passSerial).tid = t.tid := by simp [Thread.passSerial]
@[simp] theorem Thread.passSerial_cnt (t : Thread)  : (t.passSerial).cnt = t.cnt := by simp [Thread.passSerial]
@[simp] theorem Thread.passSerial_cx (t : Thread)  : (t.passSerial).cx = t.cx := by simp [Thread.passSerial]
@[simp] theorem Thread.passSerial_cy (t : Thread)  : (t.passSerial).cy = t.cy := by simp [Thread.passSerial]
@[simp] theorem Thread.passSerial_cz (t : Thread)  : (t.passSerial).cz = t.cz := by simp [Thread.passSerial]
@[simp] theorem Thread.passSerial_fpcsr (t : Thread)  : (t.passSerial).fpcsr = t.fpcsr := by simp [Thread.passSerial]
@[simp] theorem Thread.passSerial_sc (t : Thread)  : (t.passSerial).sc = t.sc := by simp [Thread.passSerial]
@[simp] theorem Thread.passSerial_det (t : Thread)  : (t.passSerial).det = t.det := by simp [Thread.passSerial]
@[simp] theorem Thread.passSerial_gsel (t : Thread)  : (t.passSerial).gsel = t.gsel := by simp [Thread.passSerial]
@[simp] theorem Thread.passSerial_pfx (t : Thread)  : (t.passSerial).pfx = t.pfx := by simp [Thread.passSerial]
@[simp] theorem Thread.passSerial_ctag (t : Thread)  : (t.passSerial).ctag = t.ctag := by simp [Thread.passSerial]
@[simp] theorem Thread.passSerial_tvec (t : Thread)  : (t.passSerial).tvec = t.tvec := by simp [Thread.passSerial]
@[simp] theorem Thread.passSerial_tcause (t : Thread)  : (t.passSerial).tcause = t.tcause := by simp [Thread.passSerial]
@[simp] theorem Thread.passSerial_tpc (t : Thread)  : (t.passSerial).tpc = t.tpc := by simp [Thread.passSerial]
@[simp] theorem Thread.passSerial_tval (t : Thread)  : (t.passSerial).tval = t.tval := by simp [Thread.passSerial]
@[simp] theorem Thread.passSerial_tsave (t : Thread)  : (t.passSerial).tsave = t.tsave := by simp [Thread.passSerial]
@[simp] theorem Thread.passSerial_hbint (t : Thread)  : (t.passSerial).hbint = t.hbint := by simp [Thread.passSerial]
@[simp] theorem Thread.passSerial_budget (t : Thread)  : (t.passSerial).budget = t.budget := by simp [Thread.passSerial]
@[simp] theorem Thread.passSerial_synclim (t : Thread)  : (t.passSerial).synclim = t.synclim := by simp [Thread.passSerial]
@[simp] theorem Thread.passSerial_stream (t : Thread)  : (t.passSerial).stream = t.stream := by simp [Thread.passSerial]
@[simp] theorem Thread.passSerial_meetwin (t : Thread)  : (t.passSerial).meetwin = t.meetwin := by simp [Thread.passSerial]
@[simp] theorem Thread.passSerial_dtbase (t : Thread)  : (t.passSerial).dtbase = t.dtbase := by simp [Thread.passSerial]
@[simp] theorem Thread.passSerial_ptbase (t : Thread)  : (t.passSerial).ptbase = t.ptbase := by simp [Thread.passSerial]
@[simp] theorem Thread.passSerial_spawnk (t : Thread)  : (t.passSerial).spawnk = t.spawnk := by simp [Thread.passSerial]
@[simp] theorem Thread.passSerial_hb (t : Thread)  : (t.passSerial).hb = t.hb := by simp [Thread.passSerial]
@[simp] theorem Thread.passSerial_acct (t : Thread)  : (t.passSerial).acct = t.acct := by simp [Thread.passSerial]
@[simp] theorem Thread.passSerial_done (t : Thread)  : (t.passSerial).done = t.done := by simp [Thread.passSerial]
@[simp] theorem Thread.passSerial_budgetTaken (t : Thread)  : (t.passSerial).budgetTaken = t.budgetTaken := by simp [Thread.passSerial]
@[simp] theorem Thread.passSerial_afterRft (t : Thread)  : (t.passSerial).afterRft = t.afterRft := by simp [Thread.passSerial]
@[simp] theorem Thread.passSerial_status (t : Thread)  : (t.passSerial).status = t.status := by simp [Thread.passSerial]
@[simp] theorem Thread.passSerial_elig (t : Thread)  : (t.passSerial).elig = t.elig := by simp [Thread.passSerial]
@[simp] theorem Thread.passSerial_issued (t : Thread)  : (t.passSerial).issued = t.issued := by simp [Thread.passSerial]
@[simp] theorem Thread.passSerial_waitStart (t : Thread)  : (t.passSerial).waitStart = t.waitStart := by simp [Thread.passSerial]
@[simp] theorem Thread.passSerial_pend (t : Thread)  : (t.passSerial).pend = t.pend := by simp [Thread.passSerial]
@[simp] theorem Thread.passSerial_reqs (t : Thread)  : (t.passSerial).reqs = t.reqs := by simp [Thread.passSerial]
@[simp] theorem Thread.passSerial_unk (t : Thread)  : (t.passSerial).unk = t.unk := by simp [Thread.passSerial]
@[simp] theorem Thread.passSerial_unkOver (t : Thread)  : (t.passSerial).unkOver = t.unkOver := by simp [Thread.passSerial]
@[simp] theorem Thread.passSerial_engs (t : Thread)  : (t.passSerial).engs = t.engs := by simp [Thread.passSerial]
@[simp] theorem Thread.passSerial_live (t : Thread)  : (t.passSerial).live = t.live := by simp [Thread.passSerial]
@[simp] theorem Thread.passSerial_safePoint (t : Thread)  : (t.passSerial).safePoint = t.safePoint := by simp [Thread.passSerial]
@[simp] theorem Thread.passSerial_preempt (t : Thread)  : (t.passSerial).preempt = t.preempt := by simp [Thread.passSerial]
@[simp] theorem Thread.passSerial_forced (t : Thread)  : (t.passSerial).forced = t.forced := by simp [Thread.passSerial]
@[simp] theorem Thread.passSerial_saving (t : Thread)  : (t.passSerial).saving = t.saving := by simp [Thread.passSerial]
@[simp] theorem Thread.passSerial_kill (t : Thread)  : (t.passSerial).kill = t.kill := by simp [Thread.passSerial]
@[simp] theorem Thread.passSerial_queue (t : Thread)  : (t.passSerial).queue = t.queue := by simp [Thread.passSerial]
@[simp] theorem Thread.passSerial_blk (t : Thread)  : (t.passSerial).blk = t.blk := by simp [Thread.passSerial]
@[simp] theorem Thread.passSerial_tcb (t : Thread)  : (t.passSerial).tcb = t.tcb := by simp [Thread.passSerial]
@[simp] theorem Thread.passSerial_sink (t : Thread)  : (t.passSerial).sink = t.sink := by simp [Thread.passSerial]
@[simp] theorem Thread.passSerial_errq (t : Thread)  : (t.passSerial).errq = t.errq := by simp [Thread.passSerial]
@[simp] theorem Thread.passSerial_qpt (t : Thread)  : (t.passSerial).qpt = t.qpt := by simp [Thread.passSerial]
@[simp] theorem Thread.passSerial_spawned (t : Thread)  : (t.passSerial).spawned = t.spawned := by simp [Thread.passSerial]
@[simp] theorem Thread.passSerial_away (t : Thread)  : (t.passSerial).away = t.away := by simp [Thread.passSerial]
@[simp] theorem Thread.passSerial_ownCtag (t : Thread)  : (t.passSerial).ownCtag = t.ownCtag := by simp [Thread.passSerial]
@[simp] theorem Thread.passSerial_eccBad (t : Thread)  : (t.passSerial).eccBad = t.eccBad := by simp [Thread.passSerial]
@[simp] theorem Thread.passSerial_eccOne (t : Thread)  : (t.passSerial).eccOne = t.eccOne := by simp [Thread.passSerial]

/-! ### General registers -/

@[simp] theorem Thread.rd_zero (t : Thread) : t.rd 0#6 = 0 := by simp [Thread.rd]
/-- A register reads what was written, g0 as zero (R153). -/
theorem Thread.rd_wr (t : Thread) (r j : Reg) (v : Word) : (t.wr r v).rd j = if j = r ∧ r ≠ 0#6 then v else t.rd j := by
  by_cases hr : r = 0#6
  · simp [Thread.wr, hr]
  · by_cases hj : j = r
    · subst hj; simp [Thread.wr, Thread.rd, hr]
    · have : r.toNat ≠ j.toNat := fun h => hj (BitVec.eq_of_toNat_eq h.symm)
      simp [Thread.wr, Thread.rd, hr, hj, this]
/-- A write to g0 is discarded. -/
@[simp] theorem Thread.wr_zero (t : Thread) (v : Word) : t.wr 0#6 v = t := by simp [Thread.wr]
@[simp] theorem Thread.complete_rd (t : Thread) (c : Ctl) (pc : Word) (m : Nat) (r : Reg) : (t.complete c pc m).rd r = t.rd r := rfl
@[simp] theorem Thread.orFlags_rd (t : Thread) (fl : Nat) (r : Reg) : (t.orFlags fl).rd r = t.rd r := rfl
@[simp] theorem Thread.count_rd (t : Thread) (now : Nat) (r : Reg) : (t.count now).rd r = t.rd r := by simp [Thread.rd]
@[simp] theorem Thread.begin_rd (t : Thread) (now lag : Nat) (r : Reg) : (t.begin now lag).rd r = t.rd r := by simp [Thread.rd]
@[simp] theorem Thread.begin_issued (t : Thread) (now lag : Nat) : (t.begin now lag).issued = now - lag := rfl
@[simp] theorem Thread.begin_status (t : Thread) (now lag : Nat) : (t.begin now lag).status = .ready := rfl
@[simp] theorem Thread.begin_safePoint (t : Thread) (now lag : Nat) : (t.begin now lag).safePoint = none := rfl
@[simp] theorem Thread.complete_pc (t : Thread) (c : Ctl) (pc : Word) (m : Nat) : (t.complete c pc m).pc = pc := rfl
@[simp] theorem Thread.complete_status (t : Thread) (c : Ctl) (pc : Word) (m : Nat) : (t.complete c pc m).status = .ready := rfl
@[simp] theorem Thread.complete_done (t : Thread) (c : Ctl) (pc : Word) (m : Nat) : (t.complete c pc m).done = true := rfl
@[simp] theorem Thread.complete_live (t : Thread) (c : Ctl) (pc : Word) (m : Nat) : (t.complete c pc m).live = c.s := rfl
@[simp] theorem Thread.complete_pfx (t : Thread) (c : Ctl) (pc : Word) (m : Nat) : (t.complete c pc m).pfx = 0 := rfl
@[simp] theorem Thread.complete_elig (t : Thread) (c : Ctl) (pc : Word) (m : Nat) : (t.complete c pc m).elig = max (t.issued + 8 * (c.w.toNat + 1)) m := rfl
@[simp] theorem Thread.takeSerial_serial (t : Thread) : t.takeSerial.serial = t.serial + 1 := rfl
@[simp] theorem Thread.passSerial_serial (t : Thread) : t.passSerial.serial = t.serial + 1 := by simp [Thread.passSerial]

end Sys2Proof.Machine
end

