-- ==== Sys2Proof/Laws/Exceptions.lean ====
section
/-! SUPPORT. Taking a trap and returning from one (R353, R355), said once: which of its three ends an entry has, what it leaves, and that the return undoes it. -/
namespace Sys2Proof.Machine

/-- The thread as a trap in cycle `now` finds it: its pending results have landed and its cycles are counted (R353, R283). -/
def Thread.trapped (t : Thread) (now : Nat) : Thread := t.landAll.count now
/-- While pending results of the thread are to land, the entry waits for the last of them. -/
theorem State.trapEntry_waits {s : State} {k sl : Nat} {t : Thread} {code : Cause} {val pc : Word} {async addr : Bool}
    (h : s.thread k sl = some t) (hl : s.cycle < t.lastLand) :
    s.trapEntry k sl code val pc async addr =
      (s.setThread k sl { t.count s.cycle with status := .parked (.trapping code val pc async addr) }).at t.lastLand (.longResultLand k sl) := by
  unfold State.trapEntry; simp only [h, hl, if_true]
/-- A thread with a handler enters it. -/
theorem State.trapEntry_enters {s : State} {k sl : Nat} {t : Thread} {code : Cause} {val pc : Word} {async addr : Bool}
    (h : s.thread k sl = some t) (hl : t.lastLand ≤ s.cycle) (h1 : (t.trapped s.cycle).inh = false) (h2 : (t.trapped s.cycle).tvec ≠ 0) :
    s.trapEntry k sl code val pc async addr = (s.setThread k sl (t.trapped s.cycle)).setThread k sl
      ((t.trapped s.cycle).enterTrap code val pc async (max (max ((t.trapped s.cycle).issued + 8) (t.trapped s.cycle).busy) s.cycle)) := by
  unfold State.trapEntry Thread.trapped at *; simp only [h, h1, h2, Nat.not_lt.mpr hl, Bool.false_eq_true, if_false]
/-- A thread in its handler is killed with DOUBLE_FAULT; the cause is its value. -/
theorem State.trapEntry_double {s : State} {k sl : Nat} {t : Thread} {code : Cause} {val pc : Word} {async addr : Bool}
    (h : s.thread k sl = some t) (hl : t.lastLand ≤ s.cycle) (h1 : (t.trapped s.cycle).inh = true) :
    s.trapEntry k sl code val pc async addr = (s.setThread k sl (t.trapped s.cycle)).killThread k sl .doubleFault (BitVec.ofNat 64 code.code) (code.wordAt pc) := by
  unfold State.trapEntry Thread.trapped at *; simp only [h, h1, Nat.not_lt.mpr hl, if_true, if_false]
/-- A thread without a handler is killed with the cause. -/
theorem State.trapEntry_kills {s : State} {k sl : Nat} {t : Thread} {code : Cause} {val pc : Word} {async addr : Bool}
    (h : s.thread k sl = some t) (hl : t.lastLand ≤ s.cycle) (h1 : (t.trapped s.cycle).inh = false) (h2 : (t.trapped s.cycle).tvec = 0) :
    s.trapEntry k sl code val pc async addr = (s.setThread k sl (t.trapped s.cycle)).killThread k sl code val (code.wordAt pc) addr := by
  unfold State.trapEntry Thread.trapped at *; simp only [h, h1, h2, Nat.not_lt.mpr hl, Bool.false_eq_true, if_false, if_true]
/-- Nothing happens where no thread stands. -/
theorem State.trapEntry_none {s : State} {k sl : Nat} {code : Cause} {val pc : Word} {async addr : Bool} (h : s.thread k sl = none) :
    s.trapEntry k sl code val pc async addr = s := by unfold State.trapEntry; simp only [h]

/-- The cause codes have 12 bits (R350). -/
theorem cause_code_lt (c : Cause) : c.code < 4096 := by cases c <;> decide
/-- The fields of the trap state (R352). -/
theorem Thread.enterTrap_fields (t : Thread) (code : Cause) (val pc : Word) (async : Bool) (e : Nat) :
    let x := t.enterTrap code val pc async e
    bits x.tcause 0 12 = code.code ∧ bits x.tcause 12 1 = 1 ∧ bits x.tcause 13 1 = (if async then 1 else 0)
      ∧ bits x.tcause 14 22 = t.gsel.toNat ∧ bits x.tcause 36 28 = t.pfx.toNat := by
  have h1 := cause_code_lt code
  have h2 := t.gsel.isLt
  have h3 := t.pfx.isLt
  simp only [Thread.enterTrap, bits, BitVec.toNat_ofNat]
  cases async <;> simp only [Bool.false_eq_true, if_false, if_true] <;> omega
/-- A return right after an entry brings the PC, the latches and the guard selector back, without the bits that read as zero (R28, R31, R38, R355). -/
theorem Thread.leaveTrap_enterTrap (t : Thread) (code : Cause) (val pc : Word) (async : Bool) (e : Nat) :
    let x := (t.enterTrap code val pc async e).leaveTrap
    x.pfx = t.pfx &&& 0xFBFFFFF#28 ∧ x.gsel = t.gsel &&& 0x3FFE00#22 ∧ x.pc = pc ∧ x.g = t.g ∧ x.v = t.v ∧ x.tvec = t.tvec ∧ x.fpcsr = t.fpcsr := by
  obtain ⟨-, -, -, h4, h5⟩ := t.enterTrap_fields code val pc async e
  refine ⟨?_, ?_, rfl, rfl, rfl, rfl, rfl⟩
  · simp only [Thread.leaveTrap, h5, BitVec.ofNat_toNat, BitVec.setWidth_eq]
  · simp only [Thread.leaveTrap, h4, BitVec.ofNat_toNat, BitVec.setWidth_eq]

end Sys2Proof.Machine
end

