-- ==== Sys2Proof/Laws/Tab.lean ====
section
/-! SUPPORT. Sparse tables: reading after writing and deleting. -/
namespace Sys2Proof

@[simp] theorem Tab.find_put_same {α : Type} (k : Nat) (x : α) (t : Tab α) : Tab.find k (Tab.put k x t) = some x := by
  induction t with
  | nil => simp [Tab.put, Tab.find]
  | cons p t ih =>
    obtain ⟨j, y⟩ := p
    unfold Tab.put
    split
    · simp [Tab.find]
    · split
      · simp [Tab.find]
      · simp only [Tab.find]; rw [if_neg (by omega)]; exact ih

theorem Tab.find_put_ne {α : Type} {k j : Nat} (h : j ≠ k) (x : α) (t : Tab α) : Tab.find j (Tab.put k x t) = Tab.find j t := by
  induction t with
  | nil => simp [Tab.put, Tab.find, h.symm]
  | cons p t ih =>
    obtain ⟨i, y⟩ := p
    unfold Tab.put
    split
    · simp [Tab.find, h.symm]
    · split
      · subst_vars; simp [Tab.find, h.symm]
      · simp only [Tab.find, ih]

theorem Tab.find_put {α : Type} (j k : Nat) (x : α) (t : Tab α) :
    Tab.find j (Tab.put k x t) = if j = k then some x else Tab.find j t := by
  split
  · subst_vars; simp
  · exact Tab.find_put_ne ‹_› x t

@[simp] theorem Tab.put_put {α : Type} (k : Nat) (x y : α) (t : Tab α) : Tab.put k y (Tab.put k x t) = Tab.put k y t := by
  induction t with
  | nil => simp [Tab.put]
  | cons p t ih =>
    obtain ⟨j, z⟩ := p
    by_cases h1 : k < j
    · simp [Tab.put, h1]
    · by_cases h2 : k = j
      · subst h2; simp [Tab.put]
      · simp [Tab.put, h1, h2, ih]

@[simp] theorem Tab.find_del_same {α : Type} (k : Nat) (t : Tab α) : Tab.find k (Tab.del k t) = none := by
  induction t with
  | nil => rfl
  | cons p t ih =>
    obtain ⟨j, z⟩ := p
    unfold Tab.del at *
    by_cases h : j = k
    · subst h; simpa using ih
    · simp [h, Tab.find, ih]

theorem Tab.find_del_ne {α : Type} {k j : Nat} (h : j ≠ k) (t : Tab α) : Tab.find j (Tab.del k t) = Tab.find j t := by
  induction t with
  | nil => rfl
  | cons p t ih =>
    obtain ⟨i, z⟩ := p
    unfold Tab.del at *
    by_cases h2 : i = k
    · subst h2; simp [Tab.find, h.symm, ih]
    · simp [h2, Tab.find, ih]

end Sys2Proof
end

