-- ==== Sys2Proof/Laws/State.lean ====
section
/-! SUPPORT. What each update of the state leaves as it is, one lemma a field; and reading back what was written. -/
namespace Sys2Proof.Machine

@[simp] theorem State.setCore_moduleNo (s : State) (k : Nat) (c : Core) : (s.setCore k c).moduleNo = s.moduleNo := rfl
@[simp] theorem State.setCore_cycle (s : State) (k : Nat) (c : Core) : (s.setCore k c).cycle = s.cycle := rfl
@[simp] theorem State.setCore_timeBase (s : State) (k : Nat) (c : Core) : (s.setCore k c).timeBase = s.timeBase := rfl
@[simp] theorem State.setCore_mem (s : State) (k : Nat) (c : Core) : (s.setCore k c).mem = s.mem := rfl
@[simp] theorem State.setCore_full (s : State) (k : Nat) (c : Core) : (s.setCore k c).full = s.full := rfl
@[simp] theorem State.setCore_ctags (s : State) (k : Nat) (c : Core) : (s.setCore k c).ctags = s.ctags := rfl
@[simp] theorem State.setCore_drops (s : State) (k : Nat) (c : Core) : (s.setCore k c).drops = s.drops := rfl
@[simp] theorem State.setCore_cells (s : State) (k : Nat) (c : Core) : (s.setCore k c).cells = s.cells := rfl
@[simp] theorem State.setCore_heap (s : State) (k : Nat) (c : Core) : (s.setCore k c).heap = s.heap := rfl
@[simp] theorem State.setCore_tlb (s : State) (k : Nat) (c : Core) : (s.setCore k c).tlb = s.tlb := rfl
@[simp] theorem State.setCore_xlinv (s : State) (k : Nat) (c : Core) : (s.setCore k c).xlinv = s.xlinv := rfl
@[simp] theorem State.setCore_chans (s : State) (k : Nat) (c : Core) : (s.setCore k c).chans = s.chans := rfl
@[simp] theorem State.setCore_refresh (s : State) (k : Nat) (c : Core) : (s.setCore k c).refresh = s.refresh := rfl
@[simp] theorem State.setCore_side (s : State) (k : Nat) (c : Core) : (s.setCore k c).side = s.side := rfl
@[simp] theorem State.setCore_refreshed (s : State) (k : Nat) (c : Core) : (s.setCore k c).refreshed = s.refreshed := rfl
@[simp] theorem State.setCore_queued (s : State) (k : Nat) (c : Core) : (s.setCore k c).queued = s.queued := rfl
@[simp] theorem State.setCore_inputs (s : State) (k : Nat) (c : Core) : (s.setCore k c).inputs = s.inputs := rfl
@[simp] theorem State.setCore_repair (s : State) (k : Nat) (c : Core) : (s.setCore k c).repair = s.repair := rfl
@[simp] theorem State.setCore_hosted (s : State) (k : Nat) (c : Core) : (s.setCore k c).hosted = s.hosted := rfl
@[simp] theorem State.setCore_owners (s : State) (k : Nat) (c : Core) : (s.setCore k c).owners = s.owners := rfl
@[simp] theorem State.setCore_dists (s : State) (k : Nat) (c : Core) : (s.setCore k c).dists = s.dists := rfl
@[simp] theorem State.setCore_readys (s : State) (k : Nat) (c : Core) : (s.setCore k c).readys = s.readys := rfl
@[simp] theorem State.setCore_groups (s : State) (k : Nat) (c : Core) : (s.setCore k c).groups = s.groups := rfl
@[simp] theorem State.setCore_insts (s : State) (k : Nat) (c : Core) : (s.setCore k c).insts = s.insts := rfl
@[simp] theorem State.setCore_lanes (s : State) (k : Nat) (c : Core) : (s.setCore k c).lanes = s.lanes := rfl
@[simp] theorem State.setCore_svc (s : State) (k : Nat) (c : Core) : (s.setCore k c).svc = s.svc := rfl
@[simp] theorem State.setCore_plog (s : State) (k : Nat) (c : Core) : (s.setCore k c).plog = s.plog := rfl
@[simp] theorem State.setCore_relctl (s : State) (k : Nat) (c : Core) : (s.setCore k c).relctl = s.relctl := rfl
@[simp] theorem State.setCore_eccCorr (s : State) (k : Nat) (c : Core) : (s.setCore k c).eccCorr = s.eccCorr := rfl
@[simp] theorem State.setCore_eccUnc (s : State) (k : Nat) (c : Core) : (s.setCore k c).eccUnc = s.eccUnc := rfl
@[simp] theorem State.setCore_swapPool (s : State) (k : Nat) (c : Core) : (s.setCore k c).swapPool = s.swapPool := rfl
@[simp] theorem State.setCore_swapPools (s : State) (k : Nat) (c : Core) : (s.setCore k c).swapPools = s.swapPools := rfl
@[simp] theorem State.setCore_swapUsed (s : State) (k : Nat) (c : Core) : (s.setCore k c).swapUsed = s.swapUsed := rfl
@[simp] theorem State.setCore_eccOne (s : State) (k : Nat) (c : Core) : (s.setCore k c).eccOne = s.eccOne := rfl
@[simp] theorem State.setCore_eccBad (s : State) (k : Nat) (c : Core) : (s.setCore k c).eccBad = s.eccBad := rfl
@[simp] theorem State.setCore_corrected (s : State) (k : Nat) (c : Core) : (s.setCore k c).corrected = s.corrected := rfl
@[simp] theorem State.setCore_told (s : State) (k : Nat) (c : Core) : (s.setCore k c).told = s.told := rfl
@[simp] theorem State.setCore_handles (s : State) (k : Nat) (c : Core) : (s.setCore k c).handles = s.handles := rfl
@[simp] theorem State.setCore_scrubs (s : State) (k : Nat) (c : Core) : (s.setCore k c).scrubs = s.scrubs := rfl
@[simp] theorem State.setCore_streams (s : State) (k : Nat) (c : Core) : (s.setCore k c).streams = s.streams := rfl
@[simp] theorem State.setCore_retired (s : State) (k : Nat) (c : Core) : (s.setCore k c).retired = s.retired := rfl
@[simp] theorem State.setCore_saved (s : State) (k : Nat) (c : Core) : (s.setCore k c).saved = s.saved := rfl
@[simp] theorem State.setCore_hostWin (s : State) (k : Nat) (c : Core) : (s.setCore k c).hostWin = s.hostWin := rfl
@[simp] theorem State.setCore_eventPush (s : State) (k : Nat) (c : Core) : (s.setCore k c).eventPush = s.eventPush := rfl
@[simp] theorem State.setCore_hevents (s : State) (k : Nat) (c : Core) : (s.setCore k c).hevents = s.hevents := rfl
@[simp] theorem State.setCore_boot (s : State) (k : Nat) (c : Core) : (s.setCore k c).boot = s.boot := rfl
@[simp] theorem State.setCore_portStatus (s : State) (k : Nat) (c : Core) : (s.setCore k c).portStatus = s.portStatus := rfl
@[simp] theorem State.setCore_flash (s : State) (k : Nat) (c : Core) : (s.setCore k c).flash = s.flash := rfl
@[simp] theorem State.setCore_train (s : State) (k : Nat) (c : Core) : (s.setCore k c).train = s.train := rfl
@[simp] theorem State.setCore_power (s : State) (k : Nat) (c : Core) : (s.setCore k c).power = s.power := rfl
@[simp] theorem State.setCore_coldFails (s : State) (k : Nat) (c : Core) : (s.setCore k c).coldFails = s.coldFails := rfl
@[simp] theorem State.setCore_warmFails (s : State) (k : Nat) (c : Core) : (s.setCore k c).warmFails = s.warmFails := rfl
@[simp] theorem State.setCore_started (s : State) (k : Nat) (c : Core) : (s.setCore k c).started = s.started := rfl
@[simp] theorem State.setCore_outbox (s : State) (k : Nat) (c : Core) : (s.setCore k c).outbox = s.outbox := rfl
@[simp] theorem State.setCore_agenda (s : State) (k : Nat) (c : Core) : (s.setCore k c).agenda = s.agenda := rfl
@[simp] theorem State.setCore_cur (s : State) (k : Nat) (c : Core) : (s.setCore k c).cur = s.cur := rfl
@[simp] theorem State.setCore_transit (s : State) (k : Nat) (c : Core) : (s.setCore k c).transit = s.transit := rfl
@[simp] theorem State.setCore_freeCtr (s : State) (k : Nat) (c : Core) : (s.setCore k c).freeCtr = s.freeCtr := rfl
@[simp] theorem State.setCore_nextTag (s : State) (k : Nat) (c : Core) : (s.setCore k c).nextTag = s.nextTag := rfl

@[simp] theorem State.mapCore_moduleNo (s : State) (k : Nat) (f : Core → Core) : (s.mapCore k f).moduleNo = s.moduleNo := rfl
@[simp] theorem State.mapCore_cycle (s : State) (k : Nat) (f : Core → Core) : (s.mapCore k f).cycle = s.cycle := rfl
@[simp] theorem State.mapCore_timeBase (s : State) (k : Nat) (f : Core → Core) : (s.mapCore k f).timeBase = s.timeBase := rfl
@[simp] theorem State.mapCore_mem (s : State) (k : Nat) (f : Core → Core) : (s.mapCore k f).mem = s.mem := rfl
@[simp] theorem State.mapCore_full (s : State) (k : Nat) (f : Core → Core) : (s.mapCore k f).full = s.full := rfl
@[simp] theorem State.mapCore_ctags (s : State) (k : Nat) (f : Core → Core) : (s.mapCore k f).ctags = s.ctags := rfl
@[simp] theorem State.mapCore_drops (s : State) (k : Nat) (f : Core → Core) : (s.mapCore k f).drops = s.drops := rfl
@[simp] theorem State.mapCore_cells (s : State) (k : Nat) (f : Core → Core) : (s.mapCore k f).cells = s.cells := rfl
@[simp] theorem State.mapCore_heap (s : State) (k : Nat) (f : Core → Core) : (s.mapCore k f).heap = s.heap := rfl
@[simp] theorem State.mapCore_tlb (s : State) (k : Nat) (f : Core → Core) : (s.mapCore k f).tlb = s.tlb := rfl
@[simp] theorem State.mapCore_xlinv (s : State) (k : Nat) (f : Core → Core) : (s.mapCore k f).xlinv = s.xlinv := rfl
@[simp] theorem State.mapCore_chans (s : State) (k : Nat) (f : Core → Core) : (s.mapCore k f).chans = s.chans := rfl
@[simp] theorem State.mapCore_refresh (s : State) (k : Nat) (f : Core → Core) : (s.mapCore k f).refresh = s.refresh := rfl
@[simp] theorem State.mapCore_side (s : State) (k : Nat) (f : Core → Core) : (s.mapCore k f).side = s.side := rfl
@[simp] theorem State.mapCore_refreshed (s : State) (k : Nat) (f : Core → Core) : (s.mapCore k f).refreshed = s.refreshed := rfl
@[simp] theorem State.mapCore_queued (s : State) (k : Nat) (f : Core → Core) : (s.mapCore k f).queued = s.queued := rfl
@[simp] theorem State.mapCore_inputs (s : State) (k : Nat) (f : Core → Core) : (s.mapCore k f).inputs = s.inputs := rfl
@[simp] theorem State.mapCore_repair (s : State) (k : Nat) (f : Core → Core) : (s.mapCore k f).repair = s.repair := rfl
@[simp] theorem State.mapCore_hosted (s : State) (k : Nat) (f : Core → Core) : (s.mapCore k f).hosted = s.hosted := rfl
@[simp] theorem State.mapCore_owners (s : State) (k : Nat) (f : Core → Core) : (s.mapCore k f).owners = s.owners := rfl
@[simp] theorem State.mapCore_dists (s : State) (k : Nat) (f : Core → Core) : (s.mapCore k f).dists = s.dists := rfl
@[simp] theorem State.mapCore_readys (s : State) (k : Nat) (f : Core → Core) : (s.mapCore k f).readys = s.readys := rfl
@[simp] theorem State.mapCore_groups (s : State) (k : Nat) (f : Core → Core) : (s.mapCore k f).groups = s.groups := rfl
@[simp] theorem State.mapCore_insts (s : State) (k : Nat) (f : Core → Core) : (s.mapCore k f).insts = s.insts := rfl
@[simp] theorem State.mapCore_lanes (s : State) (k : Nat) (f : Core → Core) : (s.mapCore k f).lanes = s.lanes := rfl
@[simp] theorem State.mapCore_svc (s : State) (k : Nat) (f : Core → Core) : (s.mapCore k f).svc = s.svc := rfl
@[simp] theorem State.mapCore_plog (s : State) (k : Nat) (f : Core → Core) : (s.mapCore k f).plog = s.plog := rfl
@[simp] theorem State.mapCore_relctl (s : State) (k : Nat) (f : Core → Core) : (s.mapCore k f).relctl = s.relctl := rfl
@[simp] theorem State.mapCore_eccCorr (s : State) (k : Nat) (f : Core → Core) : (s.mapCore k f).eccCorr = s.eccCorr := rfl
@[simp] theorem State.mapCore_eccUnc (s : State) (k : Nat) (f : Core → Core) : (s.mapCore k f).eccUnc = s.eccUnc := rfl
@[simp] theorem State.mapCore_swapPool (s : State) (k : Nat) (f : Core → Core) : (s.mapCore k f).swapPool = s.swapPool := rfl
@[simp] theorem State.mapCore_swapPools (s : State) (k : Nat) (f : Core → Core) : (s.mapCore k f).swapPools = s.swapPools := rfl
@[simp] theorem State.mapCore_swapUsed (s : State) (k : Nat) (f : Core → Core) : (s.mapCore k f).swapUsed = s.swapUsed := rfl
@[simp] theorem State.mapCore_eccOne (s : State) (k : Nat) (f : Core → Core) : (s.mapCore k f).eccOne = s.eccOne := rfl
@[simp] theorem State.mapCore_eccBad (s : State) (k : Nat) (f : Core → Core) : (s.mapCore k f).eccBad = s.eccBad := rfl
@[simp] theorem State.mapCore_corrected (s : State) (k : Nat) (f : Core → Core) : (s.mapCore k f).corrected = s.corrected := rfl
@[simp] theorem State.mapCore_told (s : State) (k : Nat) (f : Core → Core) : (s.mapCore k f).told = s.told := rfl
@[simp] theorem State.mapCore_handles (s : State) (k : Nat) (f : Core → Core) : (s.mapCore k f).handles = s.handles := rfl
@[simp] theorem State.mapCore_scrubs (s : State) (k : Nat) (f : Core → Core) : (s.mapCore k f).scrubs = s.scrubs := rfl
@[simp] theorem State.mapCore_streams (s : State) (k : Nat) (f : Core → Core) : (s.mapCore k f).streams = s.streams := rfl
@[simp] theorem State.mapCore_retired (s : State) (k : Nat) (f : Core → Core) : (s.mapCore k f).retired = s.retired := rfl
@[simp] theorem State.mapCore_saved (s : State) (k : Nat) (f : Core → Core) : (s.mapCore k f).saved = s.saved := rfl
@[simp] theorem State.mapCore_hostWin (s : State) (k : Nat) (f : Core → Core) : (s.mapCore k f).hostWin = s.hostWin := rfl
@[simp] theorem State.mapCore_eventPush (s : State) (k : Nat) (f : Core → Core) : (s.mapCore k f).eventPush = s.eventPush := rfl
@[simp] theorem State.mapCore_hevents (s : State) (k : Nat) (f : Core → Core) : (s.mapCore k f).hevents = s.hevents := rfl
@[simp] theorem State.mapCore_boot (s : State) (k : Nat) (f : Core → Core) : (s.mapCore k f).boot = s.boot := rfl
@[simp] theorem State.mapCore_portStatus (s : State) (k : Nat) (f : Core → Core) : (s.mapCore k f).portStatus = s.portStatus := rfl
@[simp] theorem State.mapCore_flash (s : State) (k : Nat) (f : Core → Core) : (s.mapCore k f).flash = s.flash := rfl
@[simp] theorem State.mapCore_train (s : State) (k : Nat) (f : Core → Core) : (s.mapCore k f).train = s.train := rfl
@[simp] theorem State.mapCore_power (s : State) (k : Nat) (f : Core → Core) : (s.mapCore k f).power = s.power := rfl
@[simp] theorem State.mapCore_coldFails (s : State) (k : Nat) (f : Core → Core) : (s.mapCore k f).coldFails = s.coldFails := rfl
@[simp] theorem State.mapCore_warmFails (s : State) (k : Nat) (f : Core → Core) : (s.mapCore k f).warmFails = s.warmFails := rfl
@[simp] theorem State.mapCore_started (s : State) (k : Nat) (f : Core → Core) : (s.mapCore k f).started = s.started := rfl
@[simp] theorem State.mapCore_outbox (s : State) (k : Nat) (f : Core → Core) : (s.mapCore k f).outbox = s.outbox := rfl
@[simp] theorem State.mapCore_agenda (s : State) (k : Nat) (f : Core → Core) : (s.mapCore k f).agenda = s.agenda := rfl
@[simp] theorem State.mapCore_cur (s : State) (k : Nat) (f : Core → Core) : (s.mapCore k f).cur = s.cur := rfl
@[simp] theorem State.mapCore_transit (s : State) (k : Nat) (f : Core → Core) : (s.mapCore k f).transit = s.transit := rfl
@[simp] theorem State.mapCore_freeCtr (s : State) (k : Nat) (f : Core → Core) : (s.mapCore k f).freeCtr = s.freeCtr := rfl
@[simp] theorem State.mapCore_nextTag (s : State) (k : Nat) (f : Core → Core) : (s.mapCore k f).nextTag = s.nextTag := rfl

@[simp] theorem State.setThread_moduleNo (s : State) (k sl : Nat) (t : Thread) : (s.setThread k sl t).moduleNo = s.moduleNo := rfl
@[simp] theorem State.setThread_cycle (s : State) (k sl : Nat) (t : Thread) : (s.setThread k sl t).cycle = s.cycle := rfl
@[simp] theorem State.setThread_timeBase (s : State) (k sl : Nat) (t : Thread) : (s.setThread k sl t).timeBase = s.timeBase := rfl
@[simp] theorem State.setThread_mem (s : State) (k sl : Nat) (t : Thread) : (s.setThread k sl t).mem = s.mem := rfl
@[simp] theorem State.setThread_full (s : State) (k sl : Nat) (t : Thread) : (s.setThread k sl t).full = s.full := rfl
@[simp] theorem State.setThread_ctags (s : State) (k sl : Nat) (t : Thread) : (s.setThread k sl t).ctags = s.ctags := rfl
@[simp] theorem State.setThread_drops (s : State) (k sl : Nat) (t : Thread) : (s.setThread k sl t).drops = s.drops := rfl
@[simp] theorem State.setThread_cells (s : State) (k sl : Nat) (t : Thread) : (s.setThread k sl t).cells = s.cells := rfl
@[simp] theorem State.setThread_heap (s : State) (k sl : Nat) (t : Thread) : (s.setThread k sl t).heap = s.heap := rfl
@[simp] theorem State.setThread_tlb (s : State) (k sl : Nat) (t : Thread) : (s.setThread k sl t).tlb = s.tlb := rfl
@[simp] theorem State.setThread_xlinv (s : State) (k sl : Nat) (t : Thread) : (s.setThread k sl t).xlinv = s.xlinv := rfl
@[simp] theorem State.setThread_chans (s : State) (k sl : Nat) (t : Thread) : (s.setThread k sl t).chans = s.chans := rfl
@[simp] theorem State.setThread_refresh (s : State) (k sl : Nat) (t : Thread) : (s.setThread k sl t).refresh = s.refresh := rfl
@[simp] theorem State.setThread_side (s : State) (k sl : Nat) (t : Thread) : (s.setThread k sl t).side = s.side := rfl
@[simp] theorem State.setThread_refreshed (s : State) (k sl : Nat) (t : Thread) : (s.setThread k sl t).refreshed = s.refreshed := rfl
@[simp] theorem State.setThread_queued (s : State) (k sl : Nat) (t : Thread) : (s.setThread k sl t).queued = s.queued := rfl
@[simp] theorem State.setThread_inputs (s : State) (k sl : Nat) (t : Thread) : (s.setThread k sl t).inputs = s.inputs := rfl
@[simp] theorem State.setThread_repair (s : State) (k sl : Nat) (t : Thread) : (s.setThread k sl t).repair = s.repair := rfl
@[simp] theorem State.setThread_hosted (s : State) (k sl : Nat) (t : Thread) : (s.setThread k sl t).hosted = s.hosted := rfl
@[simp] theorem State.setThread_owners (s : State) (k sl : Nat) (t : Thread) : (s.setThread k sl t).owners = s.owners := rfl
@[simp] theorem State.setThread_dists (s : State) (k sl : Nat) (t : Thread) : (s.setThread k sl t).dists = s.dists := rfl
@[simp] theorem State.setThread_readys (s : State) (k sl : Nat) (t : Thread) : (s.setThread k sl t).readys = s.readys := rfl
@[simp] theorem State.setThread_groups (s : State) (k sl : Nat) (t : Thread) : (s.setThread k sl t).groups = s.groups := rfl
@[simp] theorem State.setThread_insts (s : State) (k sl : Nat) (t : Thread) : (s.setThread k sl t).insts = s.insts := rfl
@[simp] theorem State.setThread_lanes (s : State) (k sl : Nat) (t : Thread) : (s.setThread k sl t).lanes = s.lanes := rfl
@[simp] theorem State.setThread_svc (s : State) (k sl : Nat) (t : Thread) : (s.setThread k sl t).svc = s.svc := rfl
@[simp] theorem State.setThread_plog (s : State) (k sl : Nat) (t : Thread) : (s.setThread k sl t).plog = s.plog := rfl
@[simp] theorem State.setThread_relctl (s : State) (k sl : Nat) (t : Thread) : (s.setThread k sl t).relctl = s.relctl := rfl
@[simp] theorem State.setThread_eccCorr (s : State) (k sl : Nat) (t : Thread) : (s.setThread k sl t).eccCorr = s.eccCorr := rfl
@[simp] theorem State.setThread_eccUnc (s : State) (k sl : Nat) (t : Thread) : (s.setThread k sl t).eccUnc = s.eccUnc := rfl
@[simp] theorem State.setThread_swapPool (s : State) (k sl : Nat) (t : Thread) : (s.setThread k sl t).swapPool = s.swapPool := rfl
@[simp] theorem State.setThread_swapPools (s : State) (k sl : Nat) (t : Thread) : (s.setThread k sl t).swapPools = s.swapPools := rfl
@[simp] theorem State.setThread_swapUsed (s : State) (k sl : Nat) (t : Thread) : (s.setThread k sl t).swapUsed = s.swapUsed := rfl
@[simp] theorem State.setThread_eccOne (s : State) (k sl : Nat) (t : Thread) : (s.setThread k sl t).eccOne = s.eccOne := rfl
@[simp] theorem State.setThread_eccBad (s : State) (k sl : Nat) (t : Thread) : (s.setThread k sl t).eccBad = s.eccBad := rfl
@[simp] theorem State.setThread_corrected (s : State) (k sl : Nat) (t : Thread) : (s.setThread k sl t).corrected = s.corrected := rfl
@[simp] theorem State.setThread_told (s : State) (k sl : Nat) (t : Thread) : (s.setThread k sl t).told = s.told := rfl
@[simp] theorem State.setThread_handles (s : State) (k sl : Nat) (t : Thread) : (s.setThread k sl t).handles = s.handles := rfl
@[simp] theorem State.setThread_scrubs (s : State) (k sl : Nat) (t : Thread) : (s.setThread k sl t).scrubs = s.scrubs := rfl
@[simp] theorem State.setThread_streams (s : State) (k sl : Nat) (t : Thread) : (s.setThread k sl t).streams = s.streams := rfl
@[simp] theorem State.setThread_retired (s : State) (k sl : Nat) (t : Thread) : (s.setThread k sl t).retired = s.retired := rfl
@[simp] theorem State.setThread_saved (s : State) (k sl : Nat) (t : Thread) : (s.setThread k sl t).saved = s.saved := rfl
@[simp] theorem State.setThread_hostWin (s : State) (k sl : Nat) (t : Thread) : (s.setThread k sl t).hostWin = s.hostWin := rfl
@[simp] theorem State.setThread_eventPush (s : State) (k sl : Nat) (t : Thread) : (s.setThread k sl t).eventPush = s.eventPush := rfl
@[simp] theorem State.setThread_hevents (s : State) (k sl : Nat) (t : Thread) : (s.setThread k sl t).hevents = s.hevents := rfl
@[simp] theorem State.setThread_boot (s : State) (k sl : Nat) (t : Thread) : (s.setThread k sl t).boot = s.boot := rfl
@[simp] theorem State.setThread_portStatus (s : State) (k sl : Nat) (t : Thread) : (s.setThread k sl t).portStatus = s.portStatus := rfl
@[simp] theorem State.setThread_flash (s : State) (k sl : Nat) (t : Thread) : (s.setThread k sl t).flash = s.flash := rfl
@[simp] theorem State.setThread_train (s : State) (k sl : Nat) (t : Thread) : (s.setThread k sl t).train = s.train := rfl
@[simp] theorem State.setThread_power (s : State) (k sl : Nat) (t : Thread) : (s.setThread k sl t).power = s.power := rfl
@[simp] theorem State.setThread_coldFails (s : State) (k sl : Nat) (t : Thread) : (s.setThread k sl t).coldFails = s.coldFails := rfl
@[simp] theorem State.setThread_warmFails (s : State) (k sl : Nat) (t : Thread) : (s.setThread k sl t).warmFails = s.warmFails := rfl
@[simp] theorem State.setThread_started (s : State) (k sl : Nat) (t : Thread) : (s.setThread k sl t).started = s.started := rfl
@[simp] theorem State.setThread_outbox (s : State) (k sl : Nat) (t : Thread) : (s.setThread k sl t).outbox = s.outbox := rfl
@[simp] theorem State.setThread_agenda (s : State) (k sl : Nat) (t : Thread) : (s.setThread k sl t).agenda = s.agenda := rfl
@[simp] theorem State.setThread_cur (s : State) (k sl : Nat) (t : Thread) : (s.setThread k sl t).cur = s.cur := rfl
@[simp] theorem State.setThread_transit (s : State) (k sl : Nat) (t : Thread) : (s.setThread k sl t).transit = s.transit := rfl
@[simp] theorem State.setThread_freeCtr (s : State) (k sl : Nat) (t : Thread) : (s.setThread k sl t).freeCtr = s.freeCtr := rfl
@[simp] theorem State.setThread_nextTag (s : State) (k sl : Nat) (t : Thread) : (s.setThread k sl t).nextTag = s.nextTag := rfl

@[simp] theorem State.put_moduleNo (s : State) (t : Thread) : (s.put t).moduleNo = s.moduleNo := rfl
@[simp] theorem State.put_cycle (s : State) (t : Thread) : (s.put t).cycle = s.cycle := rfl
@[simp] theorem State.put_timeBase (s : State) (t : Thread) : (s.put t).timeBase = s.timeBase := rfl
@[simp] theorem State.put_mem (s : State) (t : Thread) : (s.put t).mem = s.mem := rfl
@[simp] theorem State.put_full (s : State) (t : Thread) : (s.put t).full = s.full := rfl
@[simp] theorem State.put_ctags (s : State) (t : Thread) : (s.put t).ctags = s.ctags := rfl
@[simp] theorem State.put_drops (s : State) (t : Thread) : (s.put t).drops = s.drops := rfl
@[simp] theorem State.put_cells (s : State) (t : Thread) : (s.put t).cells = s.cells := rfl
@[simp] theorem State.put_heap (s : State) (t : Thread) : (s.put t).heap = s.heap := rfl
@[simp] theorem State.put_tlb (s : State) (t : Thread) : (s.put t).tlb = s.tlb := rfl
@[simp] theorem State.put_xlinv (s : State) (t : Thread) : (s.put t).xlinv = s.xlinv := rfl
@[simp] theorem State.put_chans (s : State) (t : Thread) : (s.put t).chans = s.chans := rfl
@[simp] theorem State.put_refresh (s : State) (t : Thread) : (s.put t).refresh = s.refresh := rfl
@[simp] theorem State.put_side (s : State) (t : Thread) : (s.put t).side = s.side := rfl
@[simp] theorem State.put_refreshed (s : State) (t : Thread) : (s.put t).refreshed = s.refreshed := rfl
@[simp] theorem State.put_queued (s : State) (t : Thread) : (s.put t).queued = s.queued := rfl
@[simp] theorem State.put_inputs (s : State) (t : Thread) : (s.put t).inputs = s.inputs := rfl
@[simp] theorem State.put_repair (s : State) (t : Thread) : (s.put t).repair = s.repair := rfl
@[simp] theorem State.put_hosted (s : State) (t : Thread) : (s.put t).hosted = s.hosted := rfl
@[simp] theorem State.put_owners (s : State) (t : Thread) : (s.put t).owners = s.owners := rfl
@[simp] theorem State.put_dists (s : State) (t : Thread) : (s.put t).dists = s.dists := rfl
@[simp] theorem State.put_readys (s : State) (t : Thread) : (s.put t).readys = s.readys := rfl
@[simp] theorem State.put_groups (s : State) (t : Thread) : (s.put t).groups = s.groups := rfl
@[simp] theorem State.put_insts (s : State) (t : Thread) : (s.put t).insts = s.insts := rfl
@[simp] theorem State.put_lanes (s : State) (t : Thread) : (s.put t).lanes = s.lanes := rfl
@[simp] theorem State.put_svc (s : State) (t : Thread) : (s.put t).svc = s.svc := rfl
@[simp] theorem State.put_plog (s : State) (t : Thread) : (s.put t).plog = s.plog := rfl
@[simp] theorem State.put_relctl (s : State) (t : Thread) : (s.put t).relctl = s.relctl := rfl
@[simp] theorem State.put_eccCorr (s : State) (t : Thread) : (s.put t).eccCorr = s.eccCorr := rfl
@[simp] theorem State.put_eccUnc (s : State) (t : Thread) : (s.put t).eccUnc = s.eccUnc := rfl
@[simp] theorem State.put_swapPool (s : State) (t : Thread) : (s.put t).swapPool = s.swapPool := rfl
@[simp] theorem State.put_swapPools (s : State) (t : Thread) : (s.put t).swapPools = s.swapPools := rfl
@[simp] theorem State.put_swapUsed (s : State) (t : Thread) : (s.put t).swapUsed = s.swapUsed := rfl
@[simp] theorem State.put_eccOne (s : State) (t : Thread) : (s.put t).eccOne = s.eccOne := rfl
@[simp] theorem State.put_eccBad (s : State) (t : Thread) : (s.put t).eccBad = s.eccBad := rfl
@[simp] theorem State.put_corrected (s : State) (t : Thread) : (s.put t).corrected = s.corrected := rfl
@[simp] theorem State.put_told (s : State) (t : Thread) : (s.put t).told = s.told := rfl
@[simp] theorem State.put_handles (s : State) (t : Thread) : (s.put t).handles = s.handles := rfl
@[simp] theorem State.put_scrubs (s : State) (t : Thread) : (s.put t).scrubs = s.scrubs := rfl
@[simp] theorem State.put_streams (s : State) (t : Thread) : (s.put t).streams = s.streams := rfl
@[simp] theorem State.put_retired (s : State) (t : Thread) : (s.put t).retired = s.retired := rfl
@[simp] theorem State.put_saved (s : State) (t : Thread) : (s.put t).saved = s.saved := rfl
@[simp] theorem State.put_hostWin (s : State) (t : Thread) : (s.put t).hostWin = s.hostWin := rfl
@[simp] theorem State.put_eventPush (s : State) (t : Thread) : (s.put t).eventPush = s.eventPush := rfl
@[simp] theorem State.put_hevents (s : State) (t : Thread) : (s.put t).hevents = s.hevents := rfl
@[simp] theorem State.put_boot (s : State) (t : Thread) : (s.put t).boot = s.boot := rfl
@[simp] theorem State.put_portStatus (s : State) (t : Thread) : (s.put t).portStatus = s.portStatus := rfl
@[simp] theorem State.put_flash (s : State) (t : Thread) : (s.put t).flash = s.flash := rfl
@[simp] theorem State.put_train (s : State) (t : Thread) : (s.put t).train = s.train := rfl
@[simp] theorem State.put_power (s : State) (t : Thread) : (s.put t).power = s.power := rfl
@[simp] theorem State.put_coldFails (s : State) (t : Thread) : (s.put t).coldFails = s.coldFails := rfl
@[simp] theorem State.put_warmFails (s : State) (t : Thread) : (s.put t).warmFails = s.warmFails := rfl
@[simp] theorem State.put_started (s : State) (t : Thread) : (s.put t).started = s.started := rfl
@[simp] theorem State.put_outbox (s : State) (t : Thread) : (s.put t).outbox = s.outbox := rfl
@[simp] theorem State.put_agenda (s : State) (t : Thread) : (s.put t).agenda = s.agenda := rfl
@[simp] theorem State.put_cur (s : State) (t : Thread) : (s.put t).cur = s.cur := rfl
@[simp] theorem State.put_transit (s : State) (t : Thread) : (s.put t).transit = s.transit := rfl
@[simp] theorem State.put_freeCtr (s : State) (t : Thread) : (s.put t).freeCtr = s.freeCtr := rfl
@[simp] theorem State.put_nextTag (s : State) (t : Thread) : (s.put t).nextTag = s.nextTag := rfl

@[simp] theorem State.dropThread_moduleNo (s : State) (k sl : Nat) : (s.dropThread k sl).moduleNo = s.moduleNo := rfl
@[simp] theorem State.dropThread_cycle (s : State) (k sl : Nat) : (s.dropThread k sl).cycle = s.cycle := rfl
@[simp] theorem State.dropThread_timeBase (s : State) (k sl : Nat) : (s.dropThread k sl).timeBase = s.timeBase := rfl
@[simp] theorem State.dropThread_mem (s : State) (k sl : Nat) : (s.dropThread k sl).mem = s.mem := rfl
@[simp] theorem State.dropThread_full (s : State) (k sl : Nat) : (s.dropThread k sl).full = s.full := rfl
@[simp] theorem State.dropThread_ctags (s : State) (k sl : Nat) : (s.dropThread k sl).ctags = s.ctags := rfl
@[simp] theorem State.dropThread_drops (s : State) (k sl : Nat) : (s.dropThread k sl).drops = s.drops := rfl
@[simp] theorem State.dropThread_cells (s : State) (k sl : Nat) : (s.dropThread k sl).cells = s.cells := rfl
@[simp] theorem State.dropThread_heap (s : State) (k sl : Nat) : (s.dropThread k sl).heap = s.heap := rfl
@[simp] theorem State.dropThread_tlb (s : State) (k sl : Nat) : (s.dropThread k sl).tlb = s.tlb := rfl
@[simp] theorem State.dropThread_xlinv (s : State) (k sl : Nat) : (s.dropThread k sl).xlinv = s.xlinv := rfl
@[simp] theorem State.dropThread_chans (s : State) (k sl : Nat) : (s.dropThread k sl).chans = s.chans := rfl
@[simp] theorem State.dropThread_refresh (s : State) (k sl : Nat) : (s.dropThread k sl).refresh = s.refresh := rfl
@[simp] theorem State.dropThread_side (s : State) (k sl : Nat) : (s.dropThread k sl).side = s.side := rfl
@[simp] theorem State.dropThread_refreshed (s : State) (k sl : Nat) : (s.dropThread k sl).refreshed = s.refreshed := rfl
@[simp] theorem State.dropThread_queued (s : State) (k sl : Nat) : (s.dropThread k sl).queued = s.queued := rfl
@[simp] theorem State.dropThread_inputs (s : State) (k sl : Nat) : (s.dropThread k sl).inputs = s.inputs := rfl
@[simp] theorem State.dropThread_repair (s : State) (k sl : Nat) : (s.dropThread k sl).repair = s.repair := rfl
@[simp] theorem State.dropThread_hosted (s : State) (k sl : Nat) : (s.dropThread k sl).hosted = s.hosted := rfl
@[simp] theorem State.dropThread_owners (s : State) (k sl : Nat) : (s.dropThread k sl).owners = s.owners := rfl
@[simp] theorem State.dropThread_dists (s : State) (k sl : Nat) : (s.dropThread k sl).dists = s.dists := rfl
@[simp] theorem State.dropThread_readys (s : State) (k sl : Nat) : (s.dropThread k sl).readys = s.readys := rfl
@[simp] theorem State.dropThread_groups (s : State) (k sl : Nat) : (s.dropThread k sl).groups = s.groups := rfl
@[simp] theorem State.dropThread_insts (s : State) (k sl : Nat) : (s.dropThread k sl).insts = s.insts := rfl
@[simp] theorem State.dropThread_lanes (s : State) (k sl : Nat) : (s.dropThread k sl).lanes = s.lanes := rfl
@[simp] theorem State.dropThread_svc (s : State) (k sl : Nat) : (s.dropThread k sl).svc = s.svc := rfl
@[simp] theorem State.dropThread_plog (s : State) (k sl : Nat) : (s.dropThread k sl).plog = s.plog := rfl
@[simp] theorem State.dropThread_relctl (s : State) (k sl : Nat) : (s.dropThread k sl).relctl = s.relctl := rfl
@[simp] theorem State.dropThread_eccCorr (s : State) (k sl : Nat) : (s.dropThread k sl).eccCorr = s.eccCorr := rfl
@[simp] theorem State.dropThread_eccUnc (s : State) (k sl : Nat) : (s.dropThread k sl).eccUnc = s.eccUnc := rfl
@[simp] theorem State.dropThread_swapPool (s : State) (k sl : Nat) : (s.dropThread k sl).swapPool = s.swapPool := rfl
@[simp] theorem State.dropThread_swapPools (s : State) (k sl : Nat) : (s.dropThread k sl).swapPools = s.swapPools := rfl
@[simp] theorem State.dropThread_swapUsed (s : State) (k sl : Nat) : (s.dropThread k sl).swapUsed = s.swapUsed := rfl
@[simp] theorem State.dropThread_eccOne (s : State) (k sl : Nat) : (s.dropThread k sl).eccOne = s.eccOne := rfl
@[simp] theorem State.dropThread_eccBad (s : State) (k sl : Nat) : (s.dropThread k sl).eccBad = s.eccBad := rfl
@[simp] theorem State.dropThread_corrected (s : State) (k sl : Nat) : (s.dropThread k sl).corrected = s.corrected := rfl
@[simp] theorem State.dropThread_told (s : State) (k sl : Nat) : (s.dropThread k sl).told = s.told := rfl
@[simp] theorem State.dropThread_handles (s : State) (k sl : Nat) : (s.dropThread k sl).handles = s.handles := rfl
@[simp] theorem State.dropThread_scrubs (s : State) (k sl : Nat) : (s.dropThread k sl).scrubs = s.scrubs := rfl
@[simp] theorem State.dropThread_streams (s : State) (k sl : Nat) : (s.dropThread k sl).streams = s.streams := rfl
@[simp] theorem State.dropThread_retired (s : State) (k sl : Nat) : (s.dropThread k sl).retired = s.retired := rfl
@[simp] theorem State.dropThread_saved (s : State) (k sl : Nat) : (s.dropThread k sl).saved = s.saved := rfl
@[simp] theorem State.dropThread_hostWin (s : State) (k sl : Nat) : (s.dropThread k sl).hostWin = s.hostWin := rfl
@[simp] theorem State.dropThread_eventPush (s : State) (k sl : Nat) : (s.dropThread k sl).eventPush = s.eventPush := rfl
@[simp] theorem State.dropThread_hevents (s : State) (k sl : Nat) : (s.dropThread k sl).hevents = s.hevents := rfl
@[simp] theorem State.dropThread_boot (s : State) (k sl : Nat) : (s.dropThread k sl).boot = s.boot := rfl
@[simp] theorem State.dropThread_portStatus (s : State) (k sl : Nat) : (s.dropThread k sl).portStatus = s.portStatus := rfl
@[simp] theorem State.dropThread_flash (s : State) (k sl : Nat) : (s.dropThread k sl).flash = s.flash := rfl
@[simp] theorem State.dropThread_train (s : State) (k sl : Nat) : (s.dropThread k sl).train = s.train := rfl
@[simp] theorem State.dropThread_power (s : State) (k sl : Nat) : (s.dropThread k sl).power = s.power := rfl
@[simp] theorem State.dropThread_coldFails (s : State) (k sl : Nat) : (s.dropThread k sl).coldFails = s.coldFails := rfl
@[simp] theorem State.dropThread_warmFails (s : State) (k sl : Nat) : (s.dropThread k sl).warmFails = s.warmFails := rfl
@[simp] theorem State.dropThread_started (s : State) (k sl : Nat) : (s.dropThread k sl).started = s.started := rfl
@[simp] theorem State.dropThread_outbox (s : State) (k sl : Nat) : (s.dropThread k sl).outbox = s.outbox := rfl
@[simp] theorem State.dropThread_agenda (s : State) (k sl : Nat) : (s.dropThread k sl).agenda = s.agenda := rfl
@[simp] theorem State.dropThread_cur (s : State) (k sl : Nat) : (s.dropThread k sl).cur = s.cur := rfl
@[simp] theorem State.dropThread_transit (s : State) (k sl : Nat) : (s.dropThread k sl).transit = s.transit := rfl
@[simp] theorem State.dropThread_freeCtr (s : State) (k sl : Nat) : (s.dropThread k sl).freeCtr = s.freeCtr := rfl
@[simp] theorem State.dropThread_nextTag (s : State) (k sl : Nat) : (s.dropThread k sl).nextTag = s.nextTag := rfl

@[simp] theorem State.mapThread_moduleNo (s : State) (k sl : Nat) (f : Thread → Thread) : (s.mapThread k sl f).moduleNo = s.moduleNo := by unfold State.mapThread; split <;> rfl
@[simp] theorem State.mapThread_cycle (s : State) (k sl : Nat) (f : Thread → Thread) : (s.mapThread k sl f).cycle = s.cycle := by unfold State.mapThread; split <;> rfl
@[simp] theorem State.mapThread_timeBase (s : State) (k sl : Nat) (f : Thread → Thread) : (s.mapThread k sl f).timeBase = s.timeBase := by unfold State.mapThread; split <;> rfl
@[simp] theorem State.mapThread_mem (s : State) (k sl : Nat) (f : Thread → Thread) : (s.mapThread k sl f).mem = s.mem := by unfold State.mapThread; split <;> rfl
@[simp] theorem State.mapThread_full (s : State) (k sl : Nat) (f : Thread → Thread) : (s.mapThread k sl f).full = s.full := by unfold State.mapThread; split <;> rfl
@[simp] theorem State.mapThread_ctags (s : State) (k sl : Nat) (f : Thread → Thread) : (s.mapThread k sl f).ctags = s.ctags := by unfold State.mapThread; split <;> rfl
@[simp] theorem State.mapThread_drops (s : State) (k sl : Nat) (f : Thread → Thread) : (s.mapThread k sl f).drops = s.drops := by unfold State.mapThread; split <;> rfl
@[simp] theorem State.mapThread_cells (s : State) (k sl : Nat) (f : Thread → Thread) : (s.mapThread k sl f).cells = s.cells := by unfold State.mapThread; split <;> rfl
@[simp] theorem State.mapThread_heap (s : State) (k sl : Nat) (f : Thread → Thread) : (s.mapThread k sl f).heap = s.heap := by unfold State.mapThread; split <;> rfl
@[simp] theorem State.mapThread_tlb (s : State) (k sl : Nat) (f : Thread → Thread) : (s.mapThread k sl f).tlb = s.tlb := by unfold State.mapThread; split <;> rfl
@[simp] theorem State.mapThread_xlinv (s : State) (k sl : Nat) (f : Thread → Thread) : (s.mapThread k sl f).xlinv = s.xlinv := by unfold State.mapThread; split <;> rfl
@[simp] theorem State.mapThread_chans (s : State) (k sl : Nat) (f : Thread → Thread) : (s.mapThread k sl f).chans = s.chans := by unfold State.mapThread; split <;> rfl
@[simp] theorem State.mapThread_refresh (s : State) (k sl : Nat) (f : Thread → Thread) : (s.mapThread k sl f).refresh = s.refresh := by unfold State.mapThread; split <;> rfl
@[simp] theorem State.mapThread_side (s : State) (k sl : Nat) (f : Thread → Thread) : (s.mapThread k sl f).side = s.side := by unfold State.mapThread; split <;> rfl
@[simp] theorem State.mapThread_refreshed (s : State) (k sl : Nat) (f : Thread → Thread) : (s.mapThread k sl f).refreshed = s.refreshed := by unfold State.mapThread; split <;> rfl
@[simp] theorem State.mapThread_queued (s : State) (k sl : Nat) (f : Thread → Thread) : (s.mapThread k sl f).queued = s.queued := by unfold State.mapThread; split <;> rfl
@[simp] theorem State.mapThread_inputs (s : State) (k sl : Nat) (f : Thread → Thread) : (s.mapThread k sl f).inputs = s.inputs := by unfold State.mapThread; split <;> rfl
@[simp] theorem State.mapThread_repair (s : State) (k sl : Nat) (f : Thread → Thread) : (s.mapThread k sl f).repair = s.repair := by unfold State.mapThread; split <;> rfl
@[simp] theorem State.mapThread_hosted (s : State) (k sl : Nat) (f : Thread → Thread) : (s.mapThread k sl f).hosted = s.hosted := by unfold State.mapThread; split <;> rfl
@[simp] theorem State.mapThread_owners (s : State) (k sl : Nat) (f : Thread → Thread) : (s.mapThread k sl f).owners = s.owners := by unfold State.mapThread; split <;> rfl
@[simp] theorem State.mapThread_dists (s : State) (k sl : Nat) (f : Thread → Thread) : (s.mapThread k sl f).dists = s.dists := by unfold State.mapThread; split <;> rfl
@[simp] theorem State.mapThread_readys (s : State) (k sl : Nat) (f : Thread → Thread) : (s.mapThread k sl f).readys = s.readys := by unfold State.mapThread; split <;> rfl
@[simp] theorem State.mapThread_groups (s : State) (k sl : Nat) (f : Thread → Thread) : (s.mapThread k sl f).groups = s.groups := by unfold State.mapThread; split <;> rfl
@[simp] theorem State.mapThread_insts (s : State) (k sl : Nat) (f : Thread → Thread) : (s.mapThread k sl f).insts = s.insts := by unfold State.mapThread; split <;> rfl
@[simp] theorem State.mapThread_lanes (s : State) (k sl : Nat) (f : Thread → Thread) : (s.mapThread k sl f).lanes = s.lanes := by unfold State.mapThread; split <;> rfl
@[simp] theorem State.mapThread_svc (s : State) (k sl : Nat) (f : Thread → Thread) : (s.mapThread k sl f).svc = s.svc := by unfold State.mapThread; split <;> rfl
@[simp] theorem State.mapThread_plog (s : State) (k sl : Nat) (f : Thread → Thread) : (s.mapThread k sl f).plog = s.plog := by unfold State.mapThread; split <;> rfl
@[simp] theorem State.mapThread_relctl (s : State) (k sl : Nat) (f : Thread → Thread) : (s.mapThread k sl f).relctl = s.relctl := by unfold State.mapThread; split <;> rfl
@[simp] theorem State.mapThread_eccCorr (s : State) (k sl : Nat) (f : Thread → Thread) : (s.mapThread k sl f).eccCorr = s.eccCorr := by unfold State.mapThread; split <;> rfl
@[simp] theorem State.mapThread_eccUnc (s : State) (k sl : Nat) (f : Thread → Thread) : (s.mapThread k sl f).eccUnc = s.eccUnc := by unfold State.mapThread; split <;> rfl
@[simp] theorem State.mapThread_swapPool (s : State) (k sl : Nat) (f : Thread → Thread) : (s.mapThread k sl f).swapPool = s.swapPool := by unfold State.mapThread; split <;> rfl
@[simp] theorem State.mapThread_swapPools (s : State) (k sl : Nat) (f : Thread → Thread) : (s.mapThread k sl f).swapPools = s.swapPools := by unfold State.mapThread; split <;> rfl
@[simp] theorem State.mapThread_swapUsed (s : State) (k sl : Nat) (f : Thread → Thread) : (s.mapThread k sl f).swapUsed = s.swapUsed := by unfold State.mapThread; split <;> rfl
@[simp] theorem State.mapThread_eccOne (s : State) (k sl : Nat) (f : Thread → Thread) : (s.mapThread k sl f).eccOne = s.eccOne := by unfold State.mapThread; split <;> rfl
@[simp] theorem State.mapThread_eccBad (s : State) (k sl : Nat) (f : Thread → Thread) : (s.mapThread k sl f).eccBad = s.eccBad := by unfold State.mapThread; split <;> rfl
@[simp] theorem State.mapThread_corrected (s : State) (k sl : Nat) (f : Thread → Thread) : (s.mapThread k sl f).corrected = s.corrected := by unfold State.mapThread; split <;> rfl
@[simp] theorem State.mapThread_told (s : State) (k sl : Nat) (f : Thread → Thread) : (s.mapThread k sl f).told = s.told := by unfold State.mapThread; split <;> rfl
@[simp] theorem State.mapThread_handles (s : State) (k sl : Nat) (f : Thread → Thread) : (s.mapThread k sl f).handles = s.handles := by unfold State.mapThread; split <;> rfl
@[simp] theorem State.mapThread_scrubs (s : State) (k sl : Nat) (f : Thread → Thread) : (s.mapThread k sl f).scrubs = s.scrubs := by unfold State.mapThread; split <;> rfl
@[simp] theorem State.mapThread_streams (s : State) (k sl : Nat) (f : Thread → Thread) : (s.mapThread k sl f).streams = s.streams := by unfold State.mapThread; split <;> rfl
@[simp] theorem State.mapThread_retired (s : State) (k sl : Nat) (f : Thread → Thread) : (s.mapThread k sl f).retired = s.retired := by unfold State.mapThread; split <;> rfl
@[simp] theorem State.mapThread_saved (s : State) (k sl : Nat) (f : Thread → Thread) : (s.mapThread k sl f).saved = s.saved := by unfold State.mapThread; split <;> rfl
@[simp] theorem State.mapThread_hostWin (s : State) (k sl : Nat) (f : Thread → Thread) : (s.mapThread k sl f).hostWin = s.hostWin := by unfold State.mapThread; split <;> rfl
@[simp] theorem State.mapThread_eventPush (s : State) (k sl : Nat) (f : Thread → Thread) : (s.mapThread k sl f).eventPush = s.eventPush := by unfold State.mapThread; split <;> rfl
@[simp] theorem State.mapThread_hevents (s : State) (k sl : Nat) (f : Thread → Thread) : (s.mapThread k sl f).hevents = s.hevents := by unfold State.mapThread; split <;> rfl
@[simp] theorem State.mapThread_boot (s : State) (k sl : Nat) (f : Thread → Thread) : (s.mapThread k sl f).boot = s.boot := by unfold State.mapThread; split <;> rfl
@[simp] theorem State.mapThread_portStatus (s : State) (k sl : Nat) (f : Thread → Thread) : (s.mapThread k sl f).portStatus = s.portStatus := by unfold State.mapThread; split <;> rfl
@[simp] theorem State.mapThread_flash (s : State) (k sl : Nat) (f : Thread → Thread) : (s.mapThread k sl f).flash = s.flash := by unfold State.mapThread; split <;> rfl
@[simp] theorem State.mapThread_train (s : State) (k sl : Nat) (f : Thread → Thread) : (s.mapThread k sl f).train = s.train := by unfold State.mapThread; split <;> rfl
@[simp] theorem State.mapThread_power (s : State) (k sl : Nat) (f : Thread → Thread) : (s.mapThread k sl f).power = s.power := by unfold State.mapThread; split <;> rfl
@[simp] theorem State.mapThread_coldFails (s : State) (k sl : Nat) (f : Thread → Thread) : (s.mapThread k sl f).coldFails = s.coldFails := by unfold State.mapThread; split <;> rfl
@[simp] theorem State.mapThread_warmFails (s : State) (k sl : Nat) (f : Thread → Thread) : (s.mapThread k sl f).warmFails = s.warmFails := by unfold State.mapThread; split <;> rfl
@[simp] theorem State.mapThread_started (s : State) (k sl : Nat) (f : Thread → Thread) : (s.mapThread k sl f).started = s.started := by unfold State.mapThread; split <;> rfl
@[simp] theorem State.mapThread_outbox (s : State) (k sl : Nat) (f : Thread → Thread) : (s.mapThread k sl f).outbox = s.outbox := by unfold State.mapThread; split <;> rfl
@[simp] theorem State.mapThread_agenda (s : State) (k sl : Nat) (f : Thread → Thread) : (s.mapThread k sl f).agenda = s.agenda := by unfold State.mapThread; split <;> rfl
@[simp] theorem State.mapThread_cur (s : State) (k sl : Nat) (f : Thread → Thread) : (s.mapThread k sl f).cur = s.cur := by unfold State.mapThread; split <;> rfl
@[simp] theorem State.mapThread_transit (s : State) (k sl : Nat) (f : Thread → Thread) : (s.mapThread k sl f).transit = s.transit := by unfold State.mapThread; split <;> rfl
@[simp] theorem State.mapThread_freeCtr (s : State) (k sl : Nat) (f : Thread → Thread) : (s.mapThread k sl f).freeCtr = s.freeCtr := by unfold State.mapThread; split <;> rfl
@[simp] theorem State.mapThread_nextTag (s : State) (k sl : Nat) (f : Thread → Thread) : (s.mapThread k sl f).nextTag = s.nextTag := by unfold State.mapThread; split <;> rfl

@[simp] theorem State.covered_moduleNo (s : State) (key n : Nat) : (s.covered key n).moduleNo = s.moduleNo := rfl
@[simp] theorem State.covered_cycle (s : State) (key n : Nat) : (s.covered key n).cycle = s.cycle := rfl
@[simp] theorem State.covered_timeBase (s : State) (key n : Nat) : (s.covered key n).timeBase = s.timeBase := rfl
@[simp] theorem State.covered_mem (s : State) (key n : Nat) : (s.covered key n).mem = s.mem := rfl
@[simp] theorem State.covered_full (s : State) (key n : Nat) : (s.covered key n).full = s.full := rfl
@[simp] theorem State.covered_cores (s : State) (key n : Nat) : (s.covered key n).cores = s.cores := rfl
@[simp] theorem State.covered_ctags (s : State) (key n : Nat) : (s.covered key n).ctags = s.ctags := rfl
@[simp] theorem State.covered_drops (s : State) (key n : Nat) : (s.covered key n).drops = s.drops := rfl
@[simp] theorem State.covered_cells (s : State) (key n : Nat) : (s.covered key n).cells = s.cells := rfl
@[simp] theorem State.covered_heap (s : State) (key n : Nat) : (s.covered key n).heap = s.heap := rfl
@[simp] theorem State.covered_tlb (s : State) (key n : Nat) : (s.covered key n).tlb = s.tlb := rfl
@[simp] theorem State.covered_xlinv (s : State) (key n : Nat) : (s.covered key n).xlinv = s.xlinv := rfl
@[simp] theorem State.covered_chans (s : State) (key n : Nat) : (s.covered key n).chans = s.chans := rfl
@[simp] theorem State.covered_refresh (s : State) (key n : Nat) : (s.covered key n).refresh = s.refresh := rfl
@[simp] theorem State.covered_side (s : State) (key n : Nat) : (s.covered key n).side = s.side := rfl
@[simp] theorem State.covered_refreshed (s : State) (key n : Nat) : (s.covered key n).refreshed = s.refreshed := rfl
@[simp] theorem State.covered_queued (s : State) (key n : Nat) : (s.covered key n).queued = s.queued := rfl
@[simp] theorem State.covered_inputs (s : State) (key n : Nat) : (s.covered key n).inputs = s.inputs := rfl
@[simp] theorem State.covered_repair (s : State) (key n : Nat) : (s.covered key n).repair = s.repair := rfl
@[simp] theorem State.covered_hosted (s : State) (key n : Nat) : (s.covered key n).hosted = s.hosted := rfl
@[simp] theorem State.covered_owners (s : State) (key n : Nat) : (s.covered key n).owners = s.owners := rfl
@[simp] theorem State.covered_dists (s : State) (key n : Nat) : (s.covered key n).dists = s.dists := rfl
@[simp] theorem State.covered_readys (s : State) (key n : Nat) : (s.covered key n).readys = s.readys := rfl
@[simp] theorem State.covered_groups (s : State) (key n : Nat) : (s.covered key n).groups = s.groups := rfl
@[simp] theorem State.covered_insts (s : State) (key n : Nat) : (s.covered key n).insts = s.insts := rfl
@[simp] theorem State.covered_lanes (s : State) (key n : Nat) : (s.covered key n).lanes = s.lanes := rfl
@[simp] theorem State.covered_svc (s : State) (key n : Nat) : (s.covered key n).svc = s.svc := rfl
@[simp] theorem State.covered_plog (s : State) (key n : Nat) : (s.covered key n).plog = s.plog := rfl
@[simp] theorem State.covered_relctl (s : State) (key n : Nat) : (s.covered key n).relctl = s.relctl := rfl
@[simp] theorem State.covered_eccCorr (s : State) (key n : Nat) : (s.covered key n).eccCorr = s.eccCorr := rfl
@[simp] theorem State.covered_eccUnc (s : State) (key n : Nat) : (s.covered key n).eccUnc = s.eccUnc := rfl
@[simp] theorem State.covered_swapPool (s : State) (key n : Nat) : (s.covered key n).swapPool = s.swapPool := rfl
@[simp] theorem State.covered_swapPools (s : State) (key n : Nat) : (s.covered key n).swapPools = s.swapPools := rfl
@[simp] theorem State.covered_swapUsed (s : State) (key n : Nat) : (s.covered key n).swapUsed = s.swapUsed := rfl
@[simp] theorem State.covered_corrected (s : State) (key n : Nat) : (s.covered key n).corrected = s.corrected := rfl
@[simp] theorem State.covered_told (s : State) (key n : Nat) : (s.covered key n).told = s.told := rfl
@[simp] theorem State.covered_handles (s : State) (key n : Nat) : (s.covered key n).handles = s.handles := rfl
@[simp] theorem State.covered_scrubs (s : State) (key n : Nat) : (s.covered key n).scrubs = s.scrubs := rfl
@[simp] theorem State.covered_streams (s : State) (key n : Nat) : (s.covered key n).streams = s.streams := rfl
@[simp] theorem State.covered_retired (s : State) (key n : Nat) : (s.covered key n).retired = s.retired := rfl
@[simp] theorem State.covered_saved (s : State) (key n : Nat) : (s.covered key n).saved = s.saved := rfl
@[simp] theorem State.covered_hostWin (s : State) (key n : Nat) : (s.covered key n).hostWin = s.hostWin := rfl
@[simp] theorem State.covered_eventPush (s : State) (key n : Nat) : (s.covered key n).eventPush = s.eventPush := rfl
@[simp] theorem State.covered_hevents (s : State) (key n : Nat) : (s.covered key n).hevents = s.hevents := rfl
@[simp] theorem State.covered_boot (s : State) (key n : Nat) : (s.covered key n).boot = s.boot := rfl
@[simp] theorem State.covered_portStatus (s : State) (key n : Nat) : (s.covered key n).portStatus = s.portStatus := rfl
@[simp] theorem State.covered_flash (s : State) (key n : Nat) : (s.covered key n).flash = s.flash := rfl
@[simp] theorem State.covered_train (s : State) (key n : Nat) : (s.covered key n).train = s.train := rfl
@[simp] theorem State.covered_power (s : State) (key n : Nat) : (s.covered key n).power = s.power := rfl
@[simp] theorem State.covered_coldFails (s : State) (key n : Nat) : (s.covered key n).coldFails = s.coldFails := rfl
@[simp] theorem State.covered_warmFails (s : State) (key n : Nat) : (s.covered key n).warmFails = s.warmFails := rfl
@[simp] theorem State.covered_started (s : State) (key n : Nat) : (s.covered key n).started = s.started := rfl
@[simp] theorem State.covered_outbox (s : State) (key n : Nat) : (s.covered key n).outbox = s.outbox := rfl
@[simp] theorem State.covered_agenda (s : State) (key n : Nat) : (s.covered key n).agenda = s.agenda := rfl
@[simp] theorem State.covered_cur (s : State) (key n : Nat) : (s.covered key n).cur = s.cur := rfl
@[simp] theorem State.covered_transit (s : State) (key n : Nat) : (s.covered key n).transit = s.transit := rfl
@[simp] theorem State.covered_freeCtr (s : State) (key n : Nat) : (s.covered key n).freeCtr = s.freeCtr := rfl
@[simp] theorem State.covered_nextTag (s : State) (key n : Nat) : (s.covered key n).nextTag = s.nextTag := rfl

@[simp] theorem State.at_moduleNo (s : State) (t : Nat) (i : Instr) : (s.at t i).moduleNo = s.moduleNo := rfl
@[simp] theorem State.at_cycle (s : State) (t : Nat) (i : Instr) : (s.at t i).cycle = s.cycle := rfl
@[simp] theorem State.at_timeBase (s : State) (t : Nat) (i : Instr) : (s.at t i).timeBase = s.timeBase := rfl
@[simp] theorem State.at_mem (s : State) (t : Nat) (i : Instr) : (s.at t i).mem = s.mem := rfl
@[simp] theorem State.at_full (s : State) (t : Nat) (i : Instr) : (s.at t i).full = s.full := rfl
@[simp] theorem State.at_cores (s : State) (t : Nat) (i : Instr) : (s.at t i).cores = s.cores := rfl
@[simp] theorem State.at_ctags (s : State) (t : Nat) (i : Instr) : (s.at t i).ctags = s.ctags := rfl
@[simp] theorem State.at_drops (s : State) (t : Nat) (i : Instr) : (s.at t i).drops = s.drops := rfl
@[simp] theorem State.at_cells (s : State) (t : Nat) (i : Instr) : (s.at t i).cells = s.cells := rfl
@[simp] theorem State.at_heap (s : State) (t : Nat) (i : Instr) : (s.at t i).heap = s.heap := rfl
@[simp] theorem State.at_tlb (s : State) (t : Nat) (i : Instr) : (s.at t i).tlb = s.tlb := rfl
@[simp] theorem State.at_xlinv (s : State) (t : Nat) (i : Instr) : (s.at t i).xlinv = s.xlinv := rfl
@[simp] theorem State.at_chans (s : State) (t : Nat) (i : Instr) : (s.at t i).chans = s.chans := rfl
@[simp] theorem State.at_refresh (s : State) (t : Nat) (i : Instr) : (s.at t i).refresh = s.refresh := rfl
@[simp] theorem State.at_side (s : State) (t : Nat) (i : Instr) : (s.at t i).side = s.side := rfl
@[simp] theorem State.at_refreshed (s : State) (t : Nat) (i : Instr) : (s.at t i).refreshed = s.refreshed := rfl
@[simp] theorem State.at_queued (s : State) (t : Nat) (i : Instr) : (s.at t i).queued = s.queued := rfl
@[simp] theorem State.at_inputs (s : State) (t : Nat) (i : Instr) : (s.at t i).inputs = s.inputs := rfl
@[simp] theorem State.at_repair (s : State) (t : Nat) (i : Instr) : (s.at t i).repair = s.repair := rfl
@[simp] theorem State.at_hosted (s : State) (t : Nat) (i : Instr) : (s.at t i).hosted = s.hosted := rfl
@[simp] theorem State.at_owners (s : State) (t : Nat) (i : Instr) : (s.at t i).owners = s.owners := rfl
@[simp] theorem State.at_dists (s : State) (t : Nat) (i : Instr) : (s.at t i).dists = s.dists := rfl
@[simp] theorem State.at_readys (s : State) (t : Nat) (i : Instr) : (s.at t i).readys = s.readys := rfl
@[simp] theorem State.at_groups (s : State) (t : Nat) (i : Instr) : (s.at t i).groups = s.groups := rfl
@[simp] theorem State.at_insts (s : State) (t : Nat) (i : Instr) : (s.at t i).insts = s.insts := rfl
@[simp] theorem State.at_lanes (s : State) (t : Nat) (i : Instr) : (s.at t i).lanes = s.lanes := rfl
@[simp] theorem State.at_svc (s : State) (t : Nat) (i : Instr) : (s.at t i).svc = s.svc := rfl
@[simp] theorem State.at_plog (s : State) (t : Nat) (i : Instr) : (s.at t i).plog = s.plog := rfl
@[simp] theorem State.at_relctl (s : State) (t : Nat) (i : Instr) : (s.at t i).relctl = s.relctl := rfl
@[simp] theorem State.at_eccCorr (s : State) (t : Nat) (i : Instr) : (s.at t i).eccCorr = s.eccCorr := rfl
@[simp] theorem State.at_eccUnc (s : State) (t : Nat) (i : Instr) : (s.at t i).eccUnc = s.eccUnc := rfl
@[simp] theorem State.at_swapPool (s : State) (t : Nat) (i : Instr) : (s.at t i).swapPool = s.swapPool := rfl
@[simp] theorem State.at_swapPools (s : State) (t : Nat) (i : Instr) : (s.at t i).swapPools = s.swapPools := rfl
@[simp] theorem State.at_swapUsed (s : State) (t : Nat) (i : Instr) : (s.at t i).swapUsed = s.swapUsed := rfl
@[simp] theorem State.at_eccOne (s : State) (t : Nat) (i : Instr) : (s.at t i).eccOne = s.eccOne := rfl
@[simp] theorem State.at_eccBad (s : State) (t : Nat) (i : Instr) : (s.at t i).eccBad = s.eccBad := rfl
@[simp] theorem State.at_corrected (s : State) (t : Nat) (i : Instr) : (s.at t i).corrected = s.corrected := rfl
@[simp] theorem State.at_told (s : State) (t : Nat) (i : Instr) : (s.at t i).told = s.told := rfl
@[simp] theorem State.at_handles (s : State) (t : Nat) (i : Instr) : (s.at t i).handles = s.handles := rfl
@[simp] theorem State.at_scrubs (s : State) (t : Nat) (i : Instr) : (s.at t i).scrubs = s.scrubs := rfl
@[simp] theorem State.at_streams (s : State) (t : Nat) (i : Instr) : (s.at t i).streams = s.streams := rfl
@[simp] theorem State.at_retired (s : State) (t : Nat) (i : Instr) : (s.at t i).retired = s.retired := rfl
@[simp] theorem State.at_saved (s : State) (t : Nat) (i : Instr) : (s.at t i).saved = s.saved := rfl
@[simp] theorem State.at_hostWin (s : State) (t : Nat) (i : Instr) : (s.at t i).hostWin = s.hostWin := rfl
@[simp] theorem State.at_eventPush (s : State) (t : Nat) (i : Instr) : (s.at t i).eventPush = s.eventPush := rfl
@[simp] theorem State.at_hevents (s : State) (t : Nat) (i : Instr) : (s.at t i).hevents = s.hevents := rfl
@[simp] theorem State.at_boot (s : State) (t : Nat) (i : Instr) : (s.at t i).boot = s.boot := rfl
@[simp] theorem State.at_portStatus (s : State) (t : Nat) (i : Instr) : (s.at t i).portStatus = s.portStatus := rfl
@[simp] theorem State.at_flash (s : State) (t : Nat) (i : Instr) : (s.at t i).flash = s.flash := rfl
@[simp] theorem State.at_train (s : State) (t : Nat) (i : Instr) : (s.at t i).train = s.train := rfl
@[simp] theorem State.at_power (s : State) (t : Nat) (i : Instr) : (s.at t i).power = s.power := rfl
@[simp] theorem State.at_coldFails (s : State) (t : Nat) (i : Instr) : (s.at t i).coldFails = s.coldFails := rfl
@[simp] theorem State.at_warmFails (s : State) (t : Nat) (i : Instr) : (s.at t i).warmFails = s.warmFails := rfl
@[simp] theorem State.at_started (s : State) (t : Nat) (i : Instr) : (s.at t i).started = s.started := rfl
@[simp] theorem State.at_outbox (s : State) (t : Nat) (i : Instr) : (s.at t i).outbox = s.outbox := rfl
@[simp] theorem State.at_cur (s : State) (t : Nat) (i : Instr) : (s.at t i).cur = s.cur := rfl
@[simp] theorem State.at_transit (s : State) (t : Nat) (i : Instr) : (s.at t i).transit = s.transit := rfl
@[simp] theorem State.at_freeCtr (s : State) (t : Nat) (i : Instr) : (s.at t i).freeCtr = s.freeCtr := rfl
@[simp] theorem State.at_nextTag (s : State) (t : Nat) (i : Instr) : (s.at t i).nextTag = s.nextTag := rfl

@[simp] theorem State.popDelay_moduleNo (s : State)  : (s.popDelay).moduleNo = s.moduleNo := rfl
@[simp] theorem State.popDelay_cycle (s : State)  : (s.popDelay).cycle = s.cycle := rfl
@[simp] theorem State.popDelay_timeBase (s : State)  : (s.popDelay).timeBase = s.timeBase := rfl
@[simp] theorem State.popDelay_mem (s : State)  : (s.popDelay).mem = s.mem := rfl
@[simp] theorem State.popDelay_full (s : State)  : (s.popDelay).full = s.full := rfl
@[simp] theorem State.popDelay_cores (s : State)  : (s.popDelay).cores = s.cores := rfl
@[simp] theorem State.popDelay_ctags (s : State)  : (s.popDelay).ctags = s.ctags := rfl
@[simp] theorem State.popDelay_drops (s : State)  : (s.popDelay).drops = s.drops := rfl
@[simp] theorem State.popDelay_cells (s : State)  : (s.popDelay).cells = s.cells := rfl
@[simp] theorem State.popDelay_heap (s : State)  : (s.popDelay).heap = s.heap := rfl
@[simp] theorem State.popDelay_tlb (s : State)  : (s.popDelay).tlb = s.tlb := rfl
@[simp] theorem State.popDelay_xlinv (s : State)  : (s.popDelay).xlinv = s.xlinv := rfl
@[simp] theorem State.popDelay_chans (s : State)  : (s.popDelay).chans = s.chans := rfl
@[simp] theorem State.popDelay_refresh (s : State)  : (s.popDelay).refresh = s.refresh := rfl
@[simp] theorem State.popDelay_side (s : State)  : (s.popDelay).side = s.side := rfl
@[simp] theorem State.popDelay_refreshed (s : State)  : (s.popDelay).refreshed = s.refreshed := rfl
@[simp] theorem State.popDelay_queued (s : State)  : (s.popDelay).queued = s.queued := rfl
@[simp] theorem State.popDelay_inputs (s : State)  : (s.popDelay).inputs = s.inputs := rfl
@[simp] theorem State.popDelay_repair (s : State)  : (s.popDelay).repair = s.repair := rfl
@[simp] theorem State.popDelay_hosted (s : State)  : (s.popDelay).hosted = s.hosted := rfl
@[simp] theorem State.popDelay_owners (s : State)  : (s.popDelay).owners = s.owners := rfl
@[simp] theorem State.popDelay_dists (s : State)  : (s.popDelay).dists = s.dists := rfl
@[simp] theorem State.popDelay_readys (s : State)  : (s.popDelay).readys = s.readys := rfl
@[simp] theorem State.popDelay_groups (s : State)  : (s.popDelay).groups = s.groups := rfl
@[simp] theorem State.popDelay_insts (s : State)  : (s.popDelay).insts = s.insts := rfl
@[simp] theorem State.popDelay_lanes (s : State)  : (s.popDelay).lanes = s.lanes := rfl
@[simp] theorem State.popDelay_svc (s : State)  : (s.popDelay).svc = s.svc := rfl
@[simp] theorem State.popDelay_plog (s : State)  : (s.popDelay).plog = s.plog := rfl
@[simp] theorem State.popDelay_relctl (s : State)  : (s.popDelay).relctl = s.relctl := rfl
@[simp] theorem State.popDelay_eccCorr (s : State)  : (s.popDelay).eccCorr = s.eccCorr := rfl
@[simp] theorem State.popDelay_eccUnc (s : State)  : (s.popDelay).eccUnc = s.eccUnc := rfl
@[simp] theorem State.popDelay_swapPool (s : State)  : (s.popDelay).swapPool = s.swapPool := rfl
@[simp] theorem State.popDelay_swapPools (s : State)  : (s.popDelay).swapPools = s.swapPools := rfl
@[simp] theorem State.popDelay_swapUsed (s : State)  : (s.popDelay).swapUsed = s.swapUsed := rfl
@[simp] theorem State.popDelay_eccOne (s : State)  : (s.popDelay).eccOne = s.eccOne := rfl
@[simp] theorem State.popDelay_eccBad (s : State)  : (s.popDelay).eccBad = s.eccBad := rfl
@[simp] theorem State.popDelay_corrected (s : State)  : (s.popDelay).corrected = s.corrected := rfl
@[simp] theorem State.popDelay_told (s : State)  : (s.popDelay).told = s.told := rfl
@[simp] theorem State.popDelay_handles (s : State)  : (s.popDelay).handles = s.handles := rfl
@[simp] theorem State.popDelay_scrubs (s : State)  : (s.popDelay).scrubs = s.scrubs := rfl
@[simp] theorem State.popDelay_streams (s : State)  : (s.popDelay).streams = s.streams := rfl
@[simp] theorem State.popDelay_retired (s : State)  : (s.popDelay).retired = s.retired := rfl
@[simp] theorem State.popDelay_saved (s : State)  : (s.popDelay).saved = s.saved := rfl
@[simp] theorem State.popDelay_hostWin (s : State)  : (s.popDelay).hostWin = s.hostWin := rfl
@[simp] theorem State.popDelay_eventPush (s : State)  : (s.popDelay).eventPush = s.eventPush := rfl
@[simp] theorem State.popDelay_hevents (s : State)  : (s.popDelay).hevents = s.hevents := rfl
@[simp] theorem State.popDelay_boot (s : State)  : (s.popDelay).boot = s.boot := rfl
@[simp] theorem State.popDelay_portStatus (s : State)  : (s.popDelay).portStatus = s.portStatus := rfl
@[simp] theorem State.popDelay_flash (s : State)  : (s.popDelay).flash = s.flash := rfl
@[simp] theorem State.popDelay_train (s : State)  : (s.popDelay).train = s.train := rfl
@[simp] theorem State.popDelay_power (s : State)  : (s.popDelay).power = s.power := rfl
@[simp] theorem State.popDelay_coldFails (s : State)  : (s.popDelay).coldFails = s.coldFails := rfl
@[simp] theorem State.popDelay_warmFails (s : State)  : (s.popDelay).warmFails = s.warmFails := rfl
@[simp] theorem State.popDelay_started (s : State)  : (s.popDelay).started = s.started := rfl
@[simp] theorem State.popDelay_outbox (s : State)  : (s.popDelay).outbox = s.outbox := rfl
@[simp] theorem State.popDelay_agenda (s : State)  : (s.popDelay).agenda = s.agenda := rfl
@[simp] theorem State.popDelay_cur (s : State)  : (s.popDelay).cur = s.cur := rfl
@[simp] theorem State.popDelay_freeCtr (s : State)  : (s.popDelay).freeCtr = s.freeCtr := rfl
@[simp] theorem State.popDelay_nextTag (s : State)  : (s.popDelay).nextTag = s.nextTag := rfl

@[simp] theorem State.useFree_moduleNo (s : State)  : (s.useFree).moduleNo = s.moduleNo := rfl
@[simp] theorem State.useFree_cycle (s : State)  : (s.useFree).cycle = s.cycle := rfl
@[simp] theorem State.useFree_timeBase (s : State)  : (s.useFree).timeBase = s.timeBase := rfl
@[simp] theorem State.useFree_mem (s : State)  : (s.useFree).mem = s.mem := rfl
@[simp] theorem State.useFree_full (s : State)  : (s.useFree).full = s.full := rfl
@[simp] theorem State.useFree_cores (s : State)  : (s.useFree).cores = s.cores := rfl
@[simp] theorem State.useFree_ctags (s : State)  : (s.useFree).ctags = s.ctags := rfl
@[simp] theorem State.useFree_drops (s : State)  : (s.useFree).drops = s.drops := rfl
@[simp] theorem State.useFree_cells (s : State)  : (s.useFree).cells = s.cells := rfl
@[simp] theorem State.useFree_heap (s : State)  : (s.useFree).heap = s.heap := rfl
@[simp] theorem State.useFree_tlb (s : State)  : (s.useFree).tlb = s.tlb := rfl
@[simp] theorem State.useFree_xlinv (s : State)  : (s.useFree).xlinv = s.xlinv := rfl
@[simp] theorem State.useFree_chans (s : State)  : (s.useFree).chans = s.chans := rfl
@[simp] theorem State.useFree_refresh (s : State)  : (s.useFree).refresh = s.refresh := rfl
@[simp] theorem State.useFree_side (s : State)  : (s.useFree).side = s.side := rfl
@[simp] theorem State.useFree_refreshed (s : State)  : (s.useFree).refreshed = s.refreshed := rfl
@[simp] theorem State.useFree_queued (s : State)  : (s.useFree).queued = s.queued := rfl
@[simp] theorem State.useFree_inputs (s : State)  : (s.useFree).inputs = s.inputs := rfl
@[simp] theorem State.useFree_repair (s : State)  : (s.useFree).repair = s.repair := rfl
@[simp] theorem State.useFree_hosted (s : State)  : (s.useFree).hosted = s.hosted := rfl
@[simp] theorem State.useFree_owners (s : State)  : (s.useFree).owners = s.owners := rfl
@[simp] theorem State.useFree_dists (s : State)  : (s.useFree).dists = s.dists := rfl
@[simp] theorem State.useFree_readys (s : State)  : (s.useFree).readys = s.readys := rfl
@[simp] theorem State.useFree_groups (s : State)  : (s.useFree).groups = s.groups := rfl
@[simp] theorem State.useFree_insts (s : State)  : (s.useFree).insts = s.insts := rfl
@[simp] theorem State.useFree_lanes (s : State)  : (s.useFree).lanes = s.lanes := rfl
@[simp] theorem State.useFree_svc (s : State)  : (s.useFree).svc = s.svc := rfl
@[simp] theorem State.useFree_plog (s : State)  : (s.useFree).plog = s.plog := rfl
@[simp] theorem State.useFree_relctl (s : State)  : (s.useFree).relctl = s.relctl := rfl
@[simp] theorem State.useFree_eccCorr (s : State)  : (s.useFree).eccCorr = s.eccCorr := rfl
@[simp] theorem State.useFree_eccUnc (s : State)  : (s.useFree).eccUnc = s.eccUnc := rfl
@[simp] theorem State.useFree_swapPool (s : State)  : (s.useFree).swapPool = s.swapPool := rfl
@[simp] theorem State.useFree_swapPools (s : State)  : (s.useFree).swapPools = s.swapPools := rfl
@[simp] theorem State.useFree_swapUsed (s : State)  : (s.useFree).swapUsed = s.swapUsed := rfl
@[simp] theorem State.useFree_eccOne (s : State)  : (s.useFree).eccOne = s.eccOne := rfl
@[simp] theorem State.useFree_eccBad (s : State)  : (s.useFree).eccBad = s.eccBad := rfl
@[simp] theorem State.useFree_corrected (s : State)  : (s.useFree).corrected = s.corrected := rfl
@[simp] theorem State.useFree_told (s : State)  : (s.useFree).told = s.told := rfl
@[simp] theorem State.useFree_handles (s : State)  : (s.useFree).handles = s.handles := rfl
@[simp] theorem State.useFree_scrubs (s : State)  : (s.useFree).scrubs = s.scrubs := rfl
@[simp] theorem State.useFree_streams (s : State)  : (s.useFree).streams = s.streams := rfl
@[simp] theorem State.useFree_retired (s : State)  : (s.useFree).retired = s.retired := rfl
@[simp] theorem State.useFree_saved (s : State)  : (s.useFree).saved = s.saved := rfl
@[simp] theorem State.useFree_hostWin (s : State)  : (s.useFree).hostWin = s.hostWin := rfl
@[simp] theorem State.useFree_eventPush (s : State)  : (s.useFree).eventPush = s.eventPush := rfl
@[simp] theorem State.useFree_hevents (s : State)  : (s.useFree).hevents = s.hevents := rfl
@[simp] theorem State.useFree_boot (s : State)  : (s.useFree).boot = s.boot := rfl
@[simp] theorem State.useFree_portStatus (s : State)  : (s.useFree).portStatus = s.portStatus := rfl
@[simp] theorem State.useFree_flash (s : State)  : (s.useFree).flash = s.flash := rfl
@[simp] theorem State.useFree_train (s : State)  : (s.useFree).train = s.train := rfl
@[simp] theorem State.useFree_power (s : State)  : (s.useFree).power = s.power := rfl
@[simp] theorem State.useFree_coldFails (s : State)  : (s.useFree).coldFails = s.coldFails := rfl
@[simp] theorem State.useFree_warmFails (s : State)  : (s.useFree).warmFails = s.warmFails := rfl
@[simp] theorem State.useFree_started (s : State)  : (s.useFree).started = s.started := rfl
@[simp] theorem State.useFree_outbox (s : State)  : (s.useFree).outbox = s.outbox := rfl
@[simp] theorem State.useFree_agenda (s : State)  : (s.useFree).agenda = s.agenda := rfl
@[simp] theorem State.useFree_cur (s : State)  : (s.useFree).cur = s.cur := rfl
@[simp] theorem State.useFree_transit (s : State)  : (s.useFree).transit = s.transit := rfl
@[simp] theorem State.useFree_nextTag (s : State)  : (s.useFree).nextTag = s.nextTag := rfl

@[simp] theorem State.putFE_moduleNo (s : State) (g : Nat) (v : Bool) : (s.putFE g v).moduleNo = s.moduleNo := rfl
@[simp] theorem State.putFE_cycle (s : State) (g : Nat) (v : Bool) : (s.putFE g v).cycle = s.cycle := rfl
@[simp] theorem State.putFE_timeBase (s : State) (g : Nat) (v : Bool) : (s.putFE g v).timeBase = s.timeBase := rfl
@[simp] theorem State.putFE_mem (s : State) (g : Nat) (v : Bool) : (s.putFE g v).mem = s.mem := rfl
@[simp] theorem State.putFE_cores (s : State) (g : Nat) (v : Bool) : (s.putFE g v).cores = s.cores := rfl
@[simp] theorem State.putFE_ctags (s : State) (g : Nat) (v : Bool) : (s.putFE g v).ctags = s.ctags := rfl
@[simp] theorem State.putFE_drops (s : State) (g : Nat) (v : Bool) : (s.putFE g v).drops = s.drops := rfl
@[simp] theorem State.putFE_cells (s : State) (g : Nat) (v : Bool) : (s.putFE g v).cells = s.cells := rfl
@[simp] theorem State.putFE_heap (s : State) (g : Nat) (v : Bool) : (s.putFE g v).heap = s.heap := rfl
@[simp] theorem State.putFE_tlb (s : State) (g : Nat) (v : Bool) : (s.putFE g v).tlb = s.tlb := rfl
@[simp] theorem State.putFE_xlinv (s : State) (g : Nat) (v : Bool) : (s.putFE g v).xlinv = s.xlinv := rfl
@[simp] theorem State.putFE_chans (s : State) (g : Nat) (v : Bool) : (s.putFE g v).chans = s.chans := rfl
@[simp] theorem State.putFE_refresh (s : State) (g : Nat) (v : Bool) : (s.putFE g v).refresh = s.refresh := rfl
@[simp] theorem State.putFE_side (s : State) (g : Nat) (v : Bool) : (s.putFE g v).side = s.side := rfl
@[simp] theorem State.putFE_refreshed (s : State) (g : Nat) (v : Bool) : (s.putFE g v).refreshed = s.refreshed := rfl
@[simp] theorem State.putFE_queued (s : State) (g : Nat) (v : Bool) : (s.putFE g v).queued = s.queued := rfl
@[simp] theorem State.putFE_inputs (s : State) (g : Nat) (v : Bool) : (s.putFE g v).inputs = s.inputs := rfl
@[simp] theorem State.putFE_repair (s : State) (g : Nat) (v : Bool) : (s.putFE g v).repair = s.repair := rfl
@[simp] theorem State.putFE_hosted (s : State) (g : Nat) (v : Bool) : (s.putFE g v).hosted = s.hosted := rfl
@[simp] theorem State.putFE_owners (s : State) (g : Nat) (v : Bool) : (s.putFE g v).owners = s.owners := rfl
@[simp] theorem State.putFE_dists (s : State) (g : Nat) (v : Bool) : (s.putFE g v).dists = s.dists := rfl
@[simp] theorem State.putFE_readys (s : State) (g : Nat) (v : Bool) : (s.putFE g v).readys = s.readys := rfl
@[simp] theorem State.putFE_groups (s : State) (g : Nat) (v : Bool) : (s.putFE g v).groups = s.groups := rfl
@[simp] theorem State.putFE_insts (s : State) (g : Nat) (v : Bool) : (s.putFE g v).insts = s.insts := rfl
@[simp] theorem State.putFE_lanes (s : State) (g : Nat) (v : Bool) : (s.putFE g v).lanes = s.lanes := rfl
@[simp] theorem State.putFE_svc (s : State) (g : Nat) (v : Bool) : (s.putFE g v).svc = s.svc := rfl
@[simp] theorem State.putFE_plog (s : State) (g : Nat) (v : Bool) : (s.putFE g v).plog = s.plog := rfl
@[simp] theorem State.putFE_relctl (s : State) (g : Nat) (v : Bool) : (s.putFE g v).relctl = s.relctl := rfl
@[simp] theorem State.putFE_eccCorr (s : State) (g : Nat) (v : Bool) : (s.putFE g v).eccCorr = s.eccCorr := rfl
@[simp] theorem State.putFE_eccUnc (s : State) (g : Nat) (v : Bool) : (s.putFE g v).eccUnc = s.eccUnc := rfl
@[simp] theorem State.putFE_swapPool (s : State) (g : Nat) (v : Bool) : (s.putFE g v).swapPool = s.swapPool := rfl
@[simp] theorem State.putFE_swapPools (s : State) (g : Nat) (v : Bool) : (s.putFE g v).swapPools = s.swapPools := rfl
@[simp] theorem State.putFE_swapUsed (s : State) (g : Nat) (v : Bool) : (s.putFE g v).swapUsed = s.swapUsed := rfl
@[simp] theorem State.putFE_eccOne (s : State) (g : Nat) (v : Bool) : (s.putFE g v).eccOne = s.eccOne := rfl
@[simp] theorem State.putFE_eccBad (s : State) (g : Nat) (v : Bool) : (s.putFE g v).eccBad = s.eccBad := rfl
@[simp] theorem State.putFE_corrected (s : State) (g : Nat) (v : Bool) : (s.putFE g v).corrected = s.corrected := rfl
@[simp] theorem State.putFE_told (s : State) (g : Nat) (v : Bool) : (s.putFE g v).told = s.told := rfl
@[simp] theorem State.putFE_handles (s : State) (g : Nat) (v : Bool) : (s.putFE g v).handles = s.handles := rfl
@[simp] theorem State.putFE_scrubs (s : State) (g : Nat) (v : Bool) : (s.putFE g v).scrubs = s.scrubs := rfl
@[simp] theorem State.putFE_streams (s : State) (g : Nat) (v : Bool) : (s.putFE g v).streams = s.streams := rfl
@[simp] theorem State.putFE_retired (s : State) (g : Nat) (v : Bool) : (s.putFE g v).retired = s.retired := rfl
@[simp] theorem State.putFE_saved (s : State) (g : Nat) (v : Bool) : (s.putFE g v).saved = s.saved := rfl
@[simp] theorem State.putFE_hostWin (s : State) (g : Nat) (v : Bool) : (s.putFE g v).hostWin = s.hostWin := rfl
@[simp] theorem State.putFE_eventPush (s : State) (g : Nat) (v : Bool) : (s.putFE g v).eventPush = s.eventPush := rfl
@[simp] theorem State.putFE_hevents (s : State) (g : Nat) (v : Bool) : (s.putFE g v).hevents = s.hevents := rfl
@[simp] theorem State.putFE_boot (s : State) (g : Nat) (v : Bool) : (s.putFE g v).boot = s.boot := rfl
@[simp] theorem State.putFE_portStatus (s : State) (g : Nat) (v : Bool) : (s.putFE g v).portStatus = s.portStatus := rfl
@[simp] theorem State.putFE_flash (s : State) (g : Nat) (v : Bool) : (s.putFE g v).flash = s.flash := rfl
@[simp] theorem State.putFE_train (s : State) (g : Nat) (v : Bool) : (s.putFE g v).train = s.train := rfl
@[simp] theorem State.putFE_power (s : State) (g : Nat) (v : Bool) : (s.putFE g v).power = s.power := rfl
@[simp] theorem State.putFE_coldFails (s : State) (g : Nat) (v : Bool) : (s.putFE g v).coldFails = s.coldFails := rfl
@[simp] theorem State.putFE_warmFails (s : State) (g : Nat) (v : Bool) : (s.putFE g v).warmFails = s.warmFails := rfl
@[simp] theorem State.putFE_started (s : State) (g : Nat) (v : Bool) : (s.putFE g v).started = s.started := rfl
@[simp] theorem State.putFE_outbox (s : State) (g : Nat) (v : Bool) : (s.putFE g v).outbox = s.outbox := rfl
@[simp] theorem State.putFE_agenda (s : State) (g : Nat) (v : Bool) : (s.putFE g v).agenda = s.agenda := rfl
@[simp] theorem State.putFE_cur (s : State) (g : Nat) (v : Bool) : (s.putFE g v).cur = s.cur := rfl
@[simp] theorem State.putFE_transit (s : State) (g : Nat) (v : Bool) : (s.putFE g v).transit = s.transit := rfl
@[simp] theorem State.putFE_freeCtr (s : State) (g : Nat) (v : Bool) : (s.putFE g v).freeCtr = s.freeCtr := rfl
@[simp] theorem State.putFE_nextTag (s : State) (g : Nat) (v : Bool) : (s.putFE g v).nextTag = s.nextTag := rfl

@[simp] theorem State.setCtag_moduleNo (s : State) (t : Nat) (r : Ctag) : (s.setCtag t r).moduleNo = s.moduleNo := rfl
@[simp] theorem State.setCtag_cycle (s : State) (t : Nat) (r : Ctag) : (s.setCtag t r).cycle = s.cycle := rfl
@[simp] theorem State.setCtag_timeBase (s : State) (t : Nat) (r : Ctag) : (s.setCtag t r).timeBase = s.timeBase := rfl
@[simp] theorem State.setCtag_mem (s : State) (t : Nat) (r : Ctag) : (s.setCtag t r).mem = s.mem := rfl
@[simp] theorem State.setCtag_full (s : State) (t : Nat) (r : Ctag) : (s.setCtag t r).full = s.full := rfl
@[simp] theorem State.setCtag_cores (s : State) (t : Nat) (r : Ctag) : (s.setCtag t r).cores = s.cores := rfl
@[simp] theorem State.setCtag_drops (s : State) (t : Nat) (r : Ctag) : (s.setCtag t r).drops = s.drops := rfl
@[simp] theorem State.setCtag_cells (s : State) (t : Nat) (r : Ctag) : (s.setCtag t r).cells = s.cells := rfl
@[simp] theorem State.setCtag_heap (s : State) (t : Nat) (r : Ctag) : (s.setCtag t r).heap = s.heap := rfl
@[simp] theorem State.setCtag_tlb (s : State) (t : Nat) (r : Ctag) : (s.setCtag t r).tlb = s.tlb := rfl
@[simp] theorem State.setCtag_xlinv (s : State) (t : Nat) (r : Ctag) : (s.setCtag t r).xlinv = s.xlinv := rfl
@[simp] theorem State.setCtag_chans (s : State) (t : Nat) (r : Ctag) : (s.setCtag t r).chans = s.chans := rfl
@[simp] theorem State.setCtag_refresh (s : State) (t : Nat) (r : Ctag) : (s.setCtag t r).refresh = s.refresh := rfl
@[simp] theorem State.setCtag_side (s : State) (t : Nat) (r : Ctag) : (s.setCtag t r).side = s.side := rfl
@[simp] theorem State.setCtag_refreshed (s : State) (t : Nat) (r : Ctag) : (s.setCtag t r).refreshed = s.refreshed := rfl
@[simp] theorem State.setCtag_queued (s : State) (t : Nat) (r : Ctag) : (s.setCtag t r).queued = s.queued := rfl
@[simp] theorem State.setCtag_inputs (s : State) (t : Nat) (r : Ctag) : (s.setCtag t r).inputs = s.inputs := rfl
@[simp] theorem State.setCtag_repair (s : State) (t : Nat) (r : Ctag) : (s.setCtag t r).repair = s.repair := rfl
@[simp] theorem State.setCtag_hosted (s : State) (t : Nat) (r : Ctag) : (s.setCtag t r).hosted = s.hosted := rfl
@[simp] theorem State.setCtag_owners (s : State) (t : Nat) (r : Ctag) : (s.setCtag t r).owners = s.owners := rfl
@[simp] theorem State.setCtag_dists (s : State) (t : Nat) (r : Ctag) : (s.setCtag t r).dists = s.dists := rfl
@[simp] theorem State.setCtag_readys (s : State) (t : Nat) (r : Ctag) : (s.setCtag t r).readys = s.readys := rfl
@[simp] theorem State.setCtag_groups (s : State) (t : Nat) (r : Ctag) : (s.setCtag t r).groups = s.groups := rfl
@[simp] theorem State.setCtag_insts (s : State) (t : Nat) (r : Ctag) : (s.setCtag t r).insts = s.insts := rfl
@[simp] theorem State.setCtag_lanes (s : State) (t : Nat) (r : Ctag) : (s.setCtag t r).lanes = s.lanes := rfl
@[simp] theorem State.setCtag_svc (s : State) (t : Nat) (r : Ctag) : (s.setCtag t r).svc = s.svc := rfl
@[simp] theorem State.setCtag_plog (s : State) (t : Nat) (r : Ctag) : (s.setCtag t r).plog = s.plog := rfl
@[simp] theorem State.setCtag_relctl (s : State) (t : Nat) (r : Ctag) : (s.setCtag t r).relctl = s.relctl := rfl
@[simp] theorem State.setCtag_eccCorr (s : State) (t : Nat) (r : Ctag) : (s.setCtag t r).eccCorr = s.eccCorr := rfl
@[simp] theorem State.setCtag_eccUnc (s : State) (t : Nat) (r : Ctag) : (s.setCtag t r).eccUnc = s.eccUnc := rfl
@[simp] theorem State.setCtag_swapPool (s : State) (t : Nat) (r : Ctag) : (s.setCtag t r).swapPool = s.swapPool := rfl
@[simp] theorem State.setCtag_swapPools (s : State) (t : Nat) (r : Ctag) : (s.setCtag t r).swapPools = s.swapPools := rfl
@[simp] theorem State.setCtag_swapUsed (s : State) (t : Nat) (r : Ctag) : (s.setCtag t r).swapUsed = s.swapUsed := rfl
@[simp] theorem State.setCtag_eccOne (s : State) (t : Nat) (r : Ctag) : (s.setCtag t r).eccOne = s.eccOne := rfl
@[simp] theorem State.setCtag_eccBad (s : State) (t : Nat) (r : Ctag) : (s.setCtag t r).eccBad = s.eccBad := rfl
@[simp] theorem State.setCtag_corrected (s : State) (t : Nat) (r : Ctag) : (s.setCtag t r).corrected = s.corrected := rfl
@[simp] theorem State.setCtag_told (s : State) (t : Nat) (r : Ctag) : (s.setCtag t r).told = s.told := rfl
@[simp] theorem State.setCtag_handles (s : State) (t : Nat) (r : Ctag) : (s.setCtag t r).handles = s.handles := rfl
@[simp] theorem State.setCtag_scrubs (s : State) (t : Nat) (r : Ctag) : (s.setCtag t r).scrubs = s.scrubs := rfl
@[simp] theorem State.setCtag_streams (s : State) (t : Nat) (r : Ctag) : (s.setCtag t r).streams = s.streams := rfl
@[simp] theorem State.setCtag_retired (s : State) (t : Nat) (r : Ctag) : (s.setCtag t r).retired = s.retired := rfl
@[simp] theorem State.setCtag_saved (s : State) (t : Nat) (r : Ctag) : (s.setCtag t r).saved = s.saved := rfl
@[simp] theorem State.setCtag_hostWin (s : State) (t : Nat) (r : Ctag) : (s.setCtag t r).hostWin = s.hostWin := rfl
@[simp] theorem State.setCtag_eventPush (s : State) (t : Nat) (r : Ctag) : (s.setCtag t r).eventPush = s.eventPush := rfl
@[simp] theorem State.setCtag_hevents (s : State) (t : Nat) (r : Ctag) : (s.setCtag t r).hevents = s.hevents := rfl
@[simp] theorem State.setCtag_boot (s : State) (t : Nat) (r : Ctag) : (s.setCtag t r).boot = s.boot := rfl
@[simp] theorem State.setCtag_portStatus (s : State) (t : Nat) (r : Ctag) : (s.setCtag t r).portStatus = s.portStatus := rfl
@[simp] theorem State.setCtag_flash (s : State) (t : Nat) (r : Ctag) : (s.setCtag t r).flash = s.flash := rfl
@[simp] theorem State.setCtag_train (s : State) (t : Nat) (r : Ctag) : (s.setCtag t r).train = s.train := rfl
@[simp] theorem State.setCtag_power (s : State) (t : Nat) (r : Ctag) : (s.setCtag t r).power = s.power := rfl
@[simp] theorem State.setCtag_coldFails (s : State) (t : Nat) (r : Ctag) : (s.setCtag t r).coldFails = s.coldFails := rfl
@[simp] theorem State.setCtag_warmFails (s : State) (t : Nat) (r : Ctag) : (s.setCtag t r).warmFails = s.warmFails := rfl
@[simp] theorem State.setCtag_started (s : State) (t : Nat) (r : Ctag) : (s.setCtag t r).started = s.started := rfl
@[simp] theorem State.setCtag_outbox (s : State) (t : Nat) (r : Ctag) : (s.setCtag t r).outbox = s.outbox := rfl
@[simp] theorem State.setCtag_agenda (s : State) (t : Nat) (r : Ctag) : (s.setCtag t r).agenda = s.agenda := rfl
@[simp] theorem State.setCtag_cur (s : State) (t : Nat) (r : Ctag) : (s.setCtag t r).cur = s.cur := rfl
@[simp] theorem State.setCtag_transit (s : State) (t : Nat) (r : Ctag) : (s.setCtag t r).transit = s.transit := rfl
@[simp] theorem State.setCtag_freeCtr (s : State) (t : Nat) (r : Ctag) : (s.setCtag t r).freeCtr = s.freeCtr := rfl
@[simp] theorem State.setCtag_nextTag (s : State) (t : Nat) (r : Ctag) : (s.setCtag t r).nextTag = s.nextTag := rfl

@[simp] theorem State.setQueue_moduleNo (s : State) (die q : Nat) (x : Queue) : (s.setQueue die q x).moduleNo = s.moduleNo := rfl
@[simp] theorem State.setQueue_cycle (s : State) (die q : Nat) (x : Queue) : (s.setQueue die q x).cycle = s.cycle := rfl
@[simp] theorem State.setQueue_timeBase (s : State) (die q : Nat) (x : Queue) : (s.setQueue die q x).timeBase = s.timeBase := rfl
@[simp] theorem State.setQueue_mem (s : State) (die q : Nat) (x : Queue) : (s.setQueue die q x).mem = s.mem := rfl
@[simp] theorem State.setQueue_full (s : State) (die q : Nat) (x : Queue) : (s.setQueue die q x).full = s.full := rfl
@[simp] theorem State.setQueue_cores (s : State) (die q : Nat) (x : Queue) : (s.setQueue die q x).cores = s.cores := rfl
@[simp] theorem State.setQueue_ctags (s : State) (die q : Nat) (x : Queue) : (s.setQueue die q x).ctags = s.ctags := rfl
@[simp] theorem State.setQueue_drops (s : State) (die q : Nat) (x : Queue) : (s.setQueue die q x).drops = s.drops := rfl
@[simp] theorem State.setQueue_cells (s : State) (die q : Nat) (x : Queue) : (s.setQueue die q x).cells = s.cells := rfl
@[simp] theorem State.setQueue_heap (s : State) (die q : Nat) (x : Queue) : (s.setQueue die q x).heap = s.heap := rfl
@[simp] theorem State.setQueue_tlb (s : State) (die q : Nat) (x : Queue) : (s.setQueue die q x).tlb = s.tlb := rfl
@[simp] theorem State.setQueue_xlinv (s : State) (die q : Nat) (x : Queue) : (s.setQueue die q x).xlinv = s.xlinv := rfl
@[simp] theorem State.setQueue_chans (s : State) (die q : Nat) (x : Queue) : (s.setQueue die q x).chans = s.chans := rfl
@[simp] theorem State.setQueue_refresh (s : State) (die q : Nat) (x : Queue) : (s.setQueue die q x).refresh = s.refresh := rfl
@[simp] theorem State.setQueue_side (s : State) (die q : Nat) (x : Queue) : (s.setQueue die q x).side = s.side := rfl
@[simp] theorem State.setQueue_refreshed (s : State) (die q : Nat) (x : Queue) : (s.setQueue die q x).refreshed = s.refreshed := rfl
@[simp] theorem State.setQueue_queued (s : State) (die q : Nat) (x : Queue) : (s.setQueue die q x).queued = s.queued := rfl
@[simp] theorem State.setQueue_inputs (s : State) (die q : Nat) (x : Queue) : (s.setQueue die q x).inputs = s.inputs := rfl
@[simp] theorem State.setQueue_repair (s : State) (die q : Nat) (x : Queue) : (s.setQueue die q x).repair = s.repair := rfl
@[simp] theorem State.setQueue_hosted (s : State) (die q : Nat) (x : Queue) : (s.setQueue die q x).hosted = s.hosted := rfl
@[simp] theorem State.setQueue_owners (s : State) (die q : Nat) (x : Queue) : (s.setQueue die q x).owners = s.owners := rfl
@[simp] theorem State.setQueue_readys (s : State) (die q : Nat) (x : Queue) : (s.setQueue die q x).readys = s.readys := rfl
@[simp] theorem State.setQueue_groups (s : State) (die q : Nat) (x : Queue) : (s.setQueue die q x).groups = s.groups := rfl
@[simp] theorem State.setQueue_insts (s : State) (die q : Nat) (x : Queue) : (s.setQueue die q x).insts = s.insts := rfl
@[simp] theorem State.setQueue_lanes (s : State) (die q : Nat) (x : Queue) : (s.setQueue die q x).lanes = s.lanes := rfl
@[simp] theorem State.setQueue_svc (s : State) (die q : Nat) (x : Queue) : (s.setQueue die q x).svc = s.svc := rfl
@[simp] theorem State.setQueue_plog (s : State) (die q : Nat) (x : Queue) : (s.setQueue die q x).plog = s.plog := rfl
@[simp] theorem State.setQueue_relctl (s : State) (die q : Nat) (x : Queue) : (s.setQueue die q x).relctl = s.relctl := rfl
@[simp] theorem State.setQueue_eccCorr (s : State) (die q : Nat) (x : Queue) : (s.setQueue die q x).eccCorr = s.eccCorr := rfl
@[simp] theorem State.setQueue_eccUnc (s : State) (die q : Nat) (x : Queue) : (s.setQueue die q x).eccUnc = s.eccUnc := rfl
@[simp] theorem State.setQueue_swapPool (s : State) (die q : Nat) (x : Queue) : (s.setQueue die q x).swapPool = s.swapPool := rfl
@[simp] theorem State.setQueue_swapPools (s : State) (die q : Nat) (x : Queue) : (s.setQueue die q x).swapPools = s.swapPools := rfl
@[simp] theorem State.setQueue_swapUsed (s : State) (die q : Nat) (x : Queue) : (s.setQueue die q x).swapUsed = s.swapUsed := rfl
@[simp] theorem State.setQueue_eccOne (s : State) (die q : Nat) (x : Queue) : (s.setQueue die q x).eccOne = s.eccOne := rfl
@[simp] theorem State.setQueue_eccBad (s : State) (die q : Nat) (x : Queue) : (s.setQueue die q x).eccBad = s.eccBad := rfl
@[simp] theorem State.setQueue_corrected (s : State) (die q : Nat) (x : Queue) : (s.setQueue die q x).corrected = s.corrected := rfl
@[simp] theorem State.setQueue_told (s : State) (die q : Nat) (x : Queue) : (s.setQueue die q x).told = s.told := rfl
@[simp] theorem State.setQueue_handles (s : State) (die q : Nat) (x : Queue) : (s.setQueue die q x).handles = s.handles := rfl
@[simp] theorem State.setQueue_scrubs (s : State) (die q : Nat) (x : Queue) : (s.setQueue die q x).scrubs = s.scrubs := rfl
@[simp] theorem State.setQueue_streams (s : State) (die q : Nat) (x : Queue) : (s.setQueue die q x).streams = s.streams := rfl
@[simp] theorem State.setQueue_retired (s : State) (die q : Nat) (x : Queue) : (s.setQueue die q x).retired = s.retired := rfl
@[simp] theorem State.setQueue_saved (s : State) (die q : Nat) (x : Queue) : (s.setQueue die q x).saved = s.saved := rfl
@[simp] theorem State.setQueue_hostWin (s : State) (die q : Nat) (x : Queue) : (s.setQueue die q x).hostWin = s.hostWin := rfl
@[simp] theorem State.setQueue_eventPush (s : State) (die q : Nat) (x : Queue) : (s.setQueue die q x).eventPush = s.eventPush := rfl
@[simp] theorem State.setQueue_hevents (s : State) (die q : Nat) (x : Queue) : (s.setQueue die q x).hevents = s.hevents := rfl
@[simp] theorem State.setQueue_boot (s : State) (die q : Nat) (x : Queue) : (s.setQueue die q x).boot = s.boot := rfl
@[simp] theorem State.setQueue_portStatus (s : State) (die q : Nat) (x : Queue) : (s.setQueue die q x).portStatus = s.portStatus := rfl
@[simp] theorem State.setQueue_flash (s : State) (die q : Nat) (x : Queue) : (s.setQueue die q x).flash = s.flash := rfl
@[simp] theorem State.setQueue_train (s : State) (die q : Nat) (x : Queue) : (s.setQueue die q x).train = s.train := rfl
@[simp] theorem State.setQueue_power (s : State) (die q : Nat) (x : Queue) : (s.setQueue die q x).power = s.power := rfl
@[simp] theorem State.setQueue_coldFails (s : State) (die q : Nat) (x : Queue) : (s.setQueue die q x).coldFails = s.coldFails := rfl
@[simp] theorem State.setQueue_warmFails (s : State) (die q : Nat) (x : Queue) : (s.setQueue die q x).warmFails = s.warmFails := rfl
@[simp] theorem State.setQueue_started (s : State) (die q : Nat) (x : Queue) : (s.setQueue die q x).started = s.started := rfl
@[simp] theorem State.setQueue_outbox (s : State) (die q : Nat) (x : Queue) : (s.setQueue die q x).outbox = s.outbox := rfl
@[simp] theorem State.setQueue_agenda (s : State) (die q : Nat) (x : Queue) : (s.setQueue die q x).agenda = s.agenda := rfl
@[simp] theorem State.setQueue_cur (s : State) (die q : Nat) (x : Queue) : (s.setQueue die q x).cur = s.cur := rfl
@[simp] theorem State.setQueue_transit (s : State) (die q : Nat) (x : Queue) : (s.setQueue die q x).transit = s.transit := rfl
@[simp] theorem State.setQueue_freeCtr (s : State) (die q : Nat) (x : Queue) : (s.setQueue die q x).freeCtr = s.freeCtr := rfl
@[simp] theorem State.setQueue_nextTag (s : State) (die q : Nat) (x : Queue) : (s.setQueue die q x).nextTag = s.nextTag := rfl

@[simp] theorem State.setOwner_moduleNo (s : State) (o : Owner) (x : OwnerSt) : (s.setOwner o x).moduleNo = s.moduleNo := rfl
@[simp] theorem State.setOwner_cycle (s : State) (o : Owner) (x : OwnerSt) : (s.setOwner o x).cycle = s.cycle := rfl
@[simp] theorem State.setOwner_timeBase (s : State) (o : Owner) (x : OwnerSt) : (s.setOwner o x).timeBase = s.timeBase := rfl
@[simp] theorem State.setOwner_mem (s : State) (o : Owner) (x : OwnerSt) : (s.setOwner o x).mem = s.mem := rfl
@[simp] theorem State.setOwner_full (s : State) (o : Owner) (x : OwnerSt) : (s.setOwner o x).full = s.full := rfl
@[simp] theorem State.setOwner_cores (s : State) (o : Owner) (x : OwnerSt) : (s.setOwner o x).cores = s.cores := rfl
@[simp] theorem State.setOwner_ctags (s : State) (o : Owner) (x : OwnerSt) : (s.setOwner o x).ctags = s.ctags := rfl
@[simp] theorem State.setOwner_drops (s : State) (o : Owner) (x : OwnerSt) : (s.setOwner o x).drops = s.drops := rfl
@[simp] theorem State.setOwner_cells (s : State) (o : Owner) (x : OwnerSt) : (s.setOwner o x).cells = s.cells := rfl
@[simp] theorem State.setOwner_heap (s : State) (o : Owner) (x : OwnerSt) : (s.setOwner o x).heap = s.heap := rfl
@[simp] theorem State.setOwner_tlb (s : State) (o : Owner) (x : OwnerSt) : (s.setOwner o x).tlb = s.tlb := rfl
@[simp] theorem State.setOwner_xlinv (s : State) (o : Owner) (x : OwnerSt) : (s.setOwner o x).xlinv = s.xlinv := rfl
@[simp] theorem State.setOwner_chans (s : State) (o : Owner) (x : OwnerSt) : (s.setOwner o x).chans = s.chans := rfl
@[simp] theorem State.setOwner_refresh (s : State) (o : Owner) (x : OwnerSt) : (s.setOwner o x).refresh = s.refresh := rfl
@[simp] theorem State.setOwner_side (s : State) (o : Owner) (x : OwnerSt) : (s.setOwner o x).side = s.side := rfl
@[simp] theorem State.setOwner_refreshed (s : State) (o : Owner) (x : OwnerSt) : (s.setOwner o x).refreshed = s.refreshed := rfl
@[simp] theorem State.setOwner_queued (s : State) (o : Owner) (x : OwnerSt) : (s.setOwner o x).queued = s.queued := rfl
@[simp] theorem State.setOwner_inputs (s : State) (o : Owner) (x : OwnerSt) : (s.setOwner o x).inputs = s.inputs := rfl
@[simp] theorem State.setOwner_repair (s : State) (o : Owner) (x : OwnerSt) : (s.setOwner o x).repair = s.repair := rfl
@[simp] theorem State.setOwner_hosted (s : State) (o : Owner) (x : OwnerSt) : (s.setOwner o x).hosted = s.hosted := rfl
@[simp] theorem State.setOwner_dists (s : State) (o : Owner) (x : OwnerSt) : (s.setOwner o x).dists = s.dists := rfl
@[simp] theorem State.setOwner_readys (s : State) (o : Owner) (x : OwnerSt) : (s.setOwner o x).readys = s.readys := rfl
@[simp] theorem State.setOwner_groups (s : State) (o : Owner) (x : OwnerSt) : (s.setOwner o x).groups = s.groups := rfl
@[simp] theorem State.setOwner_insts (s : State) (o : Owner) (x : OwnerSt) : (s.setOwner o x).insts = s.insts := rfl
@[simp] theorem State.setOwner_lanes (s : State) (o : Owner) (x : OwnerSt) : (s.setOwner o x).lanes = s.lanes := rfl
@[simp] theorem State.setOwner_svc (s : State) (o : Owner) (x : OwnerSt) : (s.setOwner o x).svc = s.svc := rfl
@[simp] theorem State.setOwner_plog (s : State) (o : Owner) (x : OwnerSt) : (s.setOwner o x).plog = s.plog := rfl
@[simp] theorem State.setOwner_relctl (s : State) (o : Owner) (x : OwnerSt) : (s.setOwner o x).relctl = s.relctl := rfl
@[simp] theorem State.setOwner_eccCorr (s : State) (o : Owner) (x : OwnerSt) : (s.setOwner o x).eccCorr = s.eccCorr := rfl
@[simp] theorem State.setOwner_eccUnc (s : State) (o : Owner) (x : OwnerSt) : (s.setOwner o x).eccUnc = s.eccUnc := rfl
@[simp] theorem State.setOwner_swapPool (s : State) (o : Owner) (x : OwnerSt) : (s.setOwner o x).swapPool = s.swapPool := rfl
@[simp] theorem State.setOwner_swapPools (s : State) (o : Owner) (x : OwnerSt) : (s.setOwner o x).swapPools = s.swapPools := rfl
@[simp] theorem State.setOwner_swapUsed (s : State) (o : Owner) (x : OwnerSt) : (s.setOwner o x).swapUsed = s.swapUsed := rfl
@[simp] theorem State.setOwner_eccOne (s : State) (o : Owner) (x : OwnerSt) : (s.setOwner o x).eccOne = s.eccOne := rfl
@[simp] theorem State.setOwner_eccBad (s : State) (o : Owner) (x : OwnerSt) : (s.setOwner o x).eccBad = s.eccBad := rfl
@[simp] theorem State.setOwner_corrected (s : State) (o : Owner) (x : OwnerSt) : (s.setOwner o x).corrected = s.corrected := rfl
@[simp] theorem State.setOwner_told (s : State) (o : Owner) (x : OwnerSt) : (s.setOwner o x).told = s.told := rfl
@[simp] theorem State.setOwner_handles (s : State) (o : Owner) (x : OwnerSt) : (s.setOwner o x).handles = s.handles := rfl
@[simp] theorem State.setOwner_scrubs (s : State) (o : Owner) (x : OwnerSt) : (s.setOwner o x).scrubs = s.scrubs := rfl
@[simp] theorem State.setOwner_streams (s : State) (o : Owner) (x : OwnerSt) : (s.setOwner o x).streams = s.streams := rfl
@[simp] theorem State.setOwner_retired (s : State) (o : Owner) (x : OwnerSt) : (s.setOwner o x).retired = s.retired := rfl
@[simp] theorem State.setOwner_saved (s : State) (o : Owner) (x : OwnerSt) : (s.setOwner o x).saved = s.saved := rfl
@[simp] theorem State.setOwner_hostWin (s : State) (o : Owner) (x : OwnerSt) : (s.setOwner o x).hostWin = s.hostWin := rfl
@[simp] theorem State.setOwner_eventPush (s : State) (o : Owner) (x : OwnerSt) : (s.setOwner o x).eventPush = s.eventPush := rfl
@[simp] theorem State.setOwner_hevents (s : State) (o : Owner) (x : OwnerSt) : (s.setOwner o x).hevents = s.hevents := rfl
@[simp] theorem State.setOwner_boot (s : State) (o : Owner) (x : OwnerSt) : (s.setOwner o x).boot = s.boot := rfl
@[simp] theorem State.setOwner_portStatus (s : State) (o : Owner) (x : OwnerSt) : (s.setOwner o x).portStatus = s.portStatus := rfl
@[simp] theorem State.setOwner_flash (s : State) (o : Owner) (x : OwnerSt) : (s.setOwner o x).flash = s.flash := rfl
@[simp] theorem State.setOwner_train (s : State) (o : Owner) (x : OwnerSt) : (s.setOwner o x).train = s.train := rfl
@[simp] theorem State.setOwner_power (s : State) (o : Owner) (x : OwnerSt) : (s.setOwner o x).power = s.power := rfl
@[simp] theorem State.setOwner_coldFails (s : State) (o : Owner) (x : OwnerSt) : (s.setOwner o x).coldFails = s.coldFails := rfl
@[simp] theorem State.setOwner_warmFails (s : State) (o : Owner) (x : OwnerSt) : (s.setOwner o x).warmFails = s.warmFails := rfl
@[simp] theorem State.setOwner_started (s : State) (o : Owner) (x : OwnerSt) : (s.setOwner o x).started = s.started := rfl
@[simp] theorem State.setOwner_outbox (s : State) (o : Owner) (x : OwnerSt) : (s.setOwner o x).outbox = s.outbox := rfl
@[simp] theorem State.setOwner_agenda (s : State) (o : Owner) (x : OwnerSt) : (s.setOwner o x).agenda = s.agenda := rfl
@[simp] theorem State.setOwner_cur (s : State) (o : Owner) (x : OwnerSt) : (s.setOwner o x).cur = s.cur := rfl
@[simp] theorem State.setOwner_transit (s : State) (o : Owner) (x : OwnerSt) : (s.setOwner o x).transit = s.transit := rfl
@[simp] theorem State.setOwner_freeCtr (s : State) (o : Owner) (x : OwnerSt) : (s.setOwner o x).freeCtr = s.freeCtr := rfl
@[simp] theorem State.setOwner_nextTag (s : State) (o : Owner) (x : OwnerSt) : (s.setOwner o x).nextTag = s.nextTag := rfl

@[simp] theorem State.mapSvc_moduleNo (s : State) (k : Nat) (f : Svc → Svc) : (s.mapSvc k f).moduleNo = s.moduleNo := rfl
@[simp] theorem State.mapSvc_cycle (s : State) (k : Nat) (f : Svc → Svc) : (s.mapSvc k f).cycle = s.cycle := rfl
@[simp] theorem State.mapSvc_timeBase (s : State) (k : Nat) (f : Svc → Svc) : (s.mapSvc k f).timeBase = s.timeBase := rfl
@[simp] theorem State.mapSvc_mem (s : State) (k : Nat) (f : Svc → Svc) : (s.mapSvc k f).mem = s.mem := rfl
@[simp] theorem State.mapSvc_full (s : State) (k : Nat) (f : Svc → Svc) : (s.mapSvc k f).full = s.full := rfl
@[simp] theorem State.mapSvc_cores (s : State) (k : Nat) (f : Svc → Svc) : (s.mapSvc k f).cores = s.cores := rfl
@[simp] theorem State.mapSvc_ctags (s : State) (k : Nat) (f : Svc → Svc) : (s.mapSvc k f).ctags = s.ctags := rfl
@[simp] theorem State.mapSvc_drops (s : State) (k : Nat) (f : Svc → Svc) : (s.mapSvc k f).drops = s.drops := rfl
@[simp] theorem State.mapSvc_cells (s : State) (k : Nat) (f : Svc → Svc) : (s.mapSvc k f).cells = s.cells := rfl
@[simp] theorem State.mapSvc_heap (s : State) (k : Nat) (f : Svc → Svc) : (s.mapSvc k f).heap = s.heap := rfl
@[simp] theorem State.mapSvc_tlb (s : State) (k : Nat) (f : Svc → Svc) : (s.mapSvc k f).tlb = s.tlb := rfl
@[simp] theorem State.mapSvc_xlinv (s : State) (k : Nat) (f : Svc → Svc) : (s.mapSvc k f).xlinv = s.xlinv := rfl
@[simp] theorem State.mapSvc_chans (s : State) (k : Nat) (f : Svc → Svc) : (s.mapSvc k f).chans = s.chans := rfl
@[simp] theorem State.mapSvc_refresh (s : State) (k : Nat) (f : Svc → Svc) : (s.mapSvc k f).refresh = s.refresh := rfl
@[simp] theorem State.mapSvc_side (s : State) (k : Nat) (f : Svc → Svc) : (s.mapSvc k f).side = s.side := rfl
@[simp] theorem State.mapSvc_refreshed (s : State) (k : Nat) (f : Svc → Svc) : (s.mapSvc k f).refreshed = s.refreshed := rfl
@[simp] theorem State.mapSvc_queued (s : State) (k : Nat) (f : Svc → Svc) : (s.mapSvc k f).queued = s.queued := rfl
@[simp] theorem State.mapSvc_inputs (s : State) (k : Nat) (f : Svc → Svc) : (s.mapSvc k f).inputs = s.inputs := rfl
@[simp] theorem State.mapSvc_repair (s : State) (k : Nat) (f : Svc → Svc) : (s.mapSvc k f).repair = s.repair := rfl
@[simp] theorem State.mapSvc_hosted (s : State) (k : Nat) (f : Svc → Svc) : (s.mapSvc k f).hosted = s.hosted := rfl
@[simp] theorem State.mapSvc_owners (s : State) (k : Nat) (f : Svc → Svc) : (s.mapSvc k f).owners = s.owners := rfl
@[simp] theorem State.mapSvc_dists (s : State) (k : Nat) (f : Svc → Svc) : (s.mapSvc k f).dists = s.dists := rfl
@[simp] theorem State.mapSvc_readys (s : State) (k : Nat) (f : Svc → Svc) : (s.mapSvc k f).readys = s.readys := rfl
@[simp] theorem State.mapSvc_groups (s : State) (k : Nat) (f : Svc → Svc) : (s.mapSvc k f).groups = s.groups := rfl
@[simp] theorem State.mapSvc_insts (s : State) (k : Nat) (f : Svc → Svc) : (s.mapSvc k f).insts = s.insts := rfl
@[simp] theorem State.mapSvc_lanes (s : State) (k : Nat) (f : Svc → Svc) : (s.mapSvc k f).lanes = s.lanes := rfl
@[simp] theorem State.mapSvc_plog (s : State) (k : Nat) (f : Svc → Svc) : (s.mapSvc k f).plog = s.plog := rfl
@[simp] theorem State.mapSvc_relctl (s : State) (k : Nat) (f : Svc → Svc) : (s.mapSvc k f).relctl = s.relctl := rfl
@[simp] theorem State.mapSvc_eccCorr (s : State) (k : Nat) (f : Svc → Svc) : (s.mapSvc k f).eccCorr = s.eccCorr := rfl
@[simp] theorem State.mapSvc_eccUnc (s : State) (k : Nat) (f : Svc → Svc) : (s.mapSvc k f).eccUnc = s.eccUnc := rfl
@[simp] theorem State.mapSvc_swapPool (s : State) (k : Nat) (f : Svc → Svc) : (s.mapSvc k f).swapPool = s.swapPool := rfl
@[simp] theorem State.mapSvc_swapPools (s : State) (k : Nat) (f : Svc → Svc) : (s.mapSvc k f).swapPools = s.swapPools := rfl
@[simp] theorem State.mapSvc_swapUsed (s : State) (k : Nat) (f : Svc → Svc) : (s.mapSvc k f).swapUsed = s.swapUsed := rfl
@[simp] theorem State.mapSvc_eccOne (s : State) (k : Nat) (f : Svc → Svc) : (s.mapSvc k f).eccOne = s.eccOne := rfl
@[simp] theorem State.mapSvc_eccBad (s : State) (k : Nat) (f : Svc → Svc) : (s.mapSvc k f).eccBad = s.eccBad := rfl
@[simp] theorem State.mapSvc_corrected (s : State) (k : Nat) (f : Svc → Svc) : (s.mapSvc k f).corrected = s.corrected := rfl
@[simp] theorem State.mapSvc_told (s : State) (k : Nat) (f : Svc → Svc) : (s.mapSvc k f).told = s.told := rfl
@[simp] theorem State.mapSvc_handles (s : State) (k : Nat) (f : Svc → Svc) : (s.mapSvc k f).handles = s.handles := rfl
@[simp] theorem State.mapSvc_scrubs (s : State) (k : Nat) (f : Svc → Svc) : (s.mapSvc k f).scrubs = s.scrubs := rfl
@[simp] theorem State.mapSvc_streams (s : State) (k : Nat) (f : Svc → Svc) : (s.mapSvc k f).streams = s.streams := rfl
@[simp] theorem State.mapSvc_retired (s : State) (k : Nat) (f : Svc → Svc) : (s.mapSvc k f).retired = s.retired := rfl
@[simp] theorem State.mapSvc_saved (s : State) (k : Nat) (f : Svc → Svc) : (s.mapSvc k f).saved = s.saved := rfl
@[simp] theorem State.mapSvc_hostWin (s : State) (k : Nat) (f : Svc → Svc) : (s.mapSvc k f).hostWin = s.hostWin := rfl
@[simp] theorem State.mapSvc_eventPush (s : State) (k : Nat) (f : Svc → Svc) : (s.mapSvc k f).eventPush = s.eventPush := rfl
@[simp] theorem State.mapSvc_hevents (s : State) (k : Nat) (f : Svc → Svc) : (s.mapSvc k f).hevents = s.hevents := rfl
@[simp] theorem State.mapSvc_boot (s : State) (k : Nat) (f : Svc → Svc) : (s.mapSvc k f).boot = s.boot := rfl
@[simp] theorem State.mapSvc_portStatus (s : State) (k : Nat) (f : Svc → Svc) : (s.mapSvc k f).portStatus = s.portStatus := rfl
@[simp] theorem State.mapSvc_flash (s : State) (k : Nat) (f : Svc → Svc) : (s.mapSvc k f).flash = s.flash := rfl
@[simp] theorem State.mapSvc_train (s : State) (k : Nat) (f : Svc → Svc) : (s.mapSvc k f).train = s.train := rfl
@[simp] theorem State.mapSvc_power (s : State) (k : Nat) (f : Svc → Svc) : (s.mapSvc k f).power = s.power := rfl
@[simp] theorem State.mapSvc_coldFails (s : State) (k : Nat) (f : Svc → Svc) : (s.mapSvc k f).coldFails = s.coldFails := rfl
@[simp] theorem State.mapSvc_warmFails (s : State) (k : Nat) (f : Svc → Svc) : (s.mapSvc k f).warmFails = s.warmFails := rfl
@[simp] theorem State.mapSvc_started (s : State) (k : Nat) (f : Svc → Svc) : (s.mapSvc k f).started = s.started := rfl
@[simp] theorem State.mapSvc_outbox (s : State) (k : Nat) (f : Svc → Svc) : (s.mapSvc k f).outbox = s.outbox := rfl
@[simp] theorem State.mapSvc_agenda (s : State) (k : Nat) (f : Svc → Svc) : (s.mapSvc k f).agenda = s.agenda := rfl
@[simp] theorem State.mapSvc_cur (s : State) (k : Nat) (f : Svc → Svc) : (s.mapSvc k f).cur = s.cur := rfl
@[simp] theorem State.mapSvc_transit (s : State) (k : Nat) (f : Svc → Svc) : (s.mapSvc k f).transit = s.transit := rfl
@[simp] theorem State.mapSvc_freeCtr (s : State) (k : Nat) (f : Svc → Svc) : (s.mapSvc k f).freeCtr = s.freeCtr := rfl
@[simp] theorem State.mapSvc_nextTag (s : State) (k : Nat) (f : Svc → Svc) : (s.mapSvc k f).nextTag = s.nextTag := rfl

@[simp] theorem State.giveStream_moduleNo (s : State) (x : BitVec 32) : (s.giveStream x).moduleNo = s.moduleNo := rfl
@[simp] theorem State.giveStream_cycle (s : State) (x : BitVec 32) : (s.giveStream x).cycle = s.cycle := rfl
@[simp] theorem State.giveStream_timeBase (s : State) (x : BitVec 32) : (s.giveStream x).timeBase = s.timeBase := rfl
@[simp] theorem State.giveStream_mem (s : State) (x : BitVec 32) : (s.giveStream x).mem = s.mem := rfl
@[simp] theorem State.giveStream_full (s : State) (x : BitVec 32) : (s.giveStream x).full = s.full := rfl
@[simp] theorem State.giveStream_cores (s : State) (x : BitVec 32) : (s.giveStream x).cores = s.cores := rfl
@[simp] theorem State.giveStream_ctags (s : State) (x : BitVec 32) : (s.giveStream x).ctags = s.ctags := rfl
@[simp] theorem State.giveStream_drops (s : State) (x : BitVec 32) : (s.giveStream x).drops = s.drops := rfl
@[simp] theorem State.giveStream_cells (s : State) (x : BitVec 32) : (s.giveStream x).cells = s.cells := rfl
@[simp] theorem State.giveStream_heap (s : State) (x : BitVec 32) : (s.giveStream x).heap = s.heap := rfl
@[simp] theorem State.giveStream_tlb (s : State) (x : BitVec 32) : (s.giveStream x).tlb = s.tlb := rfl
@[simp] theorem State.giveStream_xlinv (s : State) (x : BitVec 32) : (s.giveStream x).xlinv = s.xlinv := rfl
@[simp] theorem State.giveStream_chans (s : State) (x : BitVec 32) : (s.giveStream x).chans = s.chans := rfl
@[simp] theorem State.giveStream_refresh (s : State) (x : BitVec 32) : (s.giveStream x).refresh = s.refresh := rfl
@[simp] theorem State.giveStream_side (s : State) (x : BitVec 32) : (s.giveStream x).side = s.side := rfl
@[simp] theorem State.giveStream_refreshed (s : State) (x : BitVec 32) : (s.giveStream x).refreshed = s.refreshed := rfl
@[simp] theorem State.giveStream_queued (s : State) (x : BitVec 32) : (s.giveStream x).queued = s.queued := rfl
@[simp] theorem State.giveStream_inputs (s : State) (x : BitVec 32) : (s.giveStream x).inputs = s.inputs := rfl
@[simp] theorem State.giveStream_repair (s : State) (x : BitVec 32) : (s.giveStream x).repair = s.repair := rfl
@[simp] theorem State.giveStream_hosted (s : State) (x : BitVec 32) : (s.giveStream x).hosted = s.hosted := rfl
@[simp] theorem State.giveStream_owners (s : State) (x : BitVec 32) : (s.giveStream x).owners = s.owners := rfl
@[simp] theorem State.giveStream_dists (s : State) (x : BitVec 32) : (s.giveStream x).dists = s.dists := rfl
@[simp] theorem State.giveStream_readys (s : State) (x : BitVec 32) : (s.giveStream x).readys = s.readys := rfl
@[simp] theorem State.giveStream_groups (s : State) (x : BitVec 32) : (s.giveStream x).groups = s.groups := rfl
@[simp] theorem State.giveStream_insts (s : State) (x : BitVec 32) : (s.giveStream x).insts = s.insts := rfl
@[simp] theorem State.giveStream_lanes (s : State) (x : BitVec 32) : (s.giveStream x).lanes = s.lanes := rfl
@[simp] theorem State.giveStream_svc (s : State) (x : BitVec 32) : (s.giveStream x).svc = s.svc := rfl
@[simp] theorem State.giveStream_plog (s : State) (x : BitVec 32) : (s.giveStream x).plog = s.plog := rfl
@[simp] theorem State.giveStream_relctl (s : State) (x : BitVec 32) : (s.giveStream x).relctl = s.relctl := rfl
@[simp] theorem State.giveStream_eccCorr (s : State) (x : BitVec 32) : (s.giveStream x).eccCorr = s.eccCorr := rfl
@[simp] theorem State.giveStream_eccUnc (s : State) (x : BitVec 32) : (s.giveStream x).eccUnc = s.eccUnc := rfl
@[simp] theorem State.giveStream_swapPool (s : State) (x : BitVec 32) : (s.giveStream x).swapPool = s.swapPool := rfl
@[simp] theorem State.giveStream_swapPools (s : State) (x : BitVec 32) : (s.giveStream x).swapPools = s.swapPools := rfl
@[simp] theorem State.giveStream_swapUsed (s : State) (x : BitVec 32) : (s.giveStream x).swapUsed = s.swapUsed := rfl
@[simp] theorem State.giveStream_eccOne (s : State) (x : BitVec 32) : (s.giveStream x).eccOne = s.eccOne := rfl
@[simp] theorem State.giveStream_eccBad (s : State) (x : BitVec 32) : (s.giveStream x).eccBad = s.eccBad := rfl
@[simp] theorem State.giveStream_corrected (s : State) (x : BitVec 32) : (s.giveStream x).corrected = s.corrected := rfl
@[simp] theorem State.giveStream_told (s : State) (x : BitVec 32) : (s.giveStream x).told = s.told := rfl
@[simp] theorem State.giveStream_handles (s : State) (x : BitVec 32) : (s.giveStream x).handles = s.handles := rfl
@[simp] theorem State.giveStream_scrubs (s : State) (x : BitVec 32) : (s.giveStream x).scrubs = s.scrubs := rfl
@[simp] theorem State.giveStream_retired (s : State) (x : BitVec 32) : (s.giveStream x).retired = s.retired := rfl
@[simp] theorem State.giveStream_saved (s : State) (x : BitVec 32) : (s.giveStream x).saved = s.saved := rfl
@[simp] theorem State.giveStream_hostWin (s : State) (x : BitVec 32) : (s.giveStream x).hostWin = s.hostWin := rfl
@[simp] theorem State.giveStream_eventPush (s : State) (x : BitVec 32) : (s.giveStream x).eventPush = s.eventPush := rfl
@[simp] theorem State.giveStream_hevents (s : State) (x : BitVec 32) : (s.giveStream x).hevents = s.hevents := rfl
@[simp] theorem State.giveStream_boot (s : State) (x : BitVec 32) : (s.giveStream x).boot = s.boot := rfl
@[simp] theorem State.giveStream_portStatus (s : State) (x : BitVec 32) : (s.giveStream x).portStatus = s.portStatus := rfl
@[simp] theorem State.giveStream_flash (s : State) (x : BitVec 32) : (s.giveStream x).flash = s.flash := rfl
@[simp] theorem State.giveStream_train (s : State) (x : BitVec 32) : (s.giveStream x).train = s.train := rfl
@[simp] theorem State.giveStream_power (s : State) (x : BitVec 32) : (s.giveStream x).power = s.power := rfl
@[simp] theorem State.giveStream_coldFails (s : State) (x : BitVec 32) : (s.giveStream x).coldFails = s.coldFails := rfl
@[simp] theorem State.giveStream_warmFails (s : State) (x : BitVec 32) : (s.giveStream x).warmFails = s.warmFails := rfl
@[simp] theorem State.giveStream_started (s : State) (x : BitVec 32) : (s.giveStream x).started = s.started := rfl
@[simp] theorem State.giveStream_outbox (s : State) (x : BitVec 32) : (s.giveStream x).outbox = s.outbox := rfl
@[simp] theorem State.giveStream_agenda (s : State) (x : BitVec 32) : (s.giveStream x).agenda = s.agenda := rfl
@[simp] theorem State.giveStream_cur (s : State) (x : BitVec 32) : (s.giveStream x).cur = s.cur := rfl
@[simp] theorem State.giveStream_transit (s : State) (x : BitVec 32) : (s.giveStream x).transit = s.transit := rfl
@[simp] theorem State.giveStream_freeCtr (s : State) (x : BitVec 32) : (s.giveStream x).freeCtr = s.freeCtr := rfl
@[simp] theorem State.giveStream_nextTag (s : State) (x : BitVec 32) : (s.giveStream x).nextTag = s.nextTag := rfl

@[simp] theorem State.writeMem_moduleNo (s : State) (a : Nat) (l : List Byte) : (s.writeMem a l).moduleNo = s.moduleNo := rfl
@[simp] theorem State.writeMem_cycle (s : State) (a : Nat) (l : List Byte) : (s.writeMem a l).cycle = s.cycle := rfl
@[simp] theorem State.writeMem_timeBase (s : State) (a : Nat) (l : List Byte) : (s.writeMem a l).timeBase = s.timeBase := rfl
@[simp] theorem State.writeMem_full (s : State) (a : Nat) (l : List Byte) : (s.writeMem a l).full = s.full := rfl
@[simp] theorem State.writeMem_cores (s : State) (a : Nat) (l : List Byte) : (s.writeMem a l).cores = s.cores := rfl
@[simp] theorem State.writeMem_ctags (s : State) (a : Nat) (l : List Byte) : (s.writeMem a l).ctags = s.ctags := rfl
@[simp] theorem State.writeMem_drops (s : State) (a : Nat) (l : List Byte) : (s.writeMem a l).drops = s.drops := rfl
@[simp] theorem State.writeMem_cells (s : State) (a : Nat) (l : List Byte) : (s.writeMem a l).cells = s.cells := rfl
@[simp] theorem State.writeMem_heap (s : State) (a : Nat) (l : List Byte) : (s.writeMem a l).heap = s.heap := rfl
@[simp] theorem State.writeMem_tlb (s : State) (a : Nat) (l : List Byte) : (s.writeMem a l).tlb = s.tlb := rfl
@[simp] theorem State.writeMem_xlinv (s : State) (a : Nat) (l : List Byte) : (s.writeMem a l).xlinv = s.xlinv := rfl
@[simp] theorem State.writeMem_chans (s : State) (a : Nat) (l : List Byte) : (s.writeMem a l).chans = s.chans := rfl
@[simp] theorem State.writeMem_refresh (s : State) (a : Nat) (l : List Byte) : (s.writeMem a l).refresh = s.refresh := rfl
@[simp] theorem State.writeMem_side (s : State) (a : Nat) (l : List Byte) : (s.writeMem a l).side = s.side := rfl
@[simp] theorem State.writeMem_refreshed (s : State) (a : Nat) (l : List Byte) : (s.writeMem a l).refreshed = s.refreshed := rfl
@[simp] theorem State.writeMem_queued (s : State) (a : Nat) (l : List Byte) : (s.writeMem a l).queued = s.queued := rfl
@[simp] theorem State.writeMem_inputs (s : State) (a : Nat) (l : List Byte) : (s.writeMem a l).inputs = s.inputs := rfl
@[simp] theorem State.writeMem_repair (s : State) (a : Nat) (l : List Byte) : (s.writeMem a l).repair = s.repair := rfl
@[simp] theorem State.writeMem_hosted (s : State) (a : Nat) (l : List Byte) : (s.writeMem a l).hosted = s.hosted := rfl
@[simp] theorem State.writeMem_owners (s : State) (a : Nat) (l : List Byte) : (s.writeMem a l).owners = s.owners := rfl
@[simp] theorem State.writeMem_dists (s : State) (a : Nat) (l : List Byte) : (s.writeMem a l).dists = s.dists := rfl
@[simp] theorem State.writeMem_readys (s : State) (a : Nat) (l : List Byte) : (s.writeMem a l).readys = s.readys := rfl
@[simp] theorem State.writeMem_groups (s : State) (a : Nat) (l : List Byte) : (s.writeMem a l).groups = s.groups := rfl
@[simp] theorem State.writeMem_insts (s : State) (a : Nat) (l : List Byte) : (s.writeMem a l).insts = s.insts := rfl
@[simp] theorem State.writeMem_lanes (s : State) (a : Nat) (l : List Byte) : (s.writeMem a l).lanes = s.lanes := rfl
@[simp] theorem State.writeMem_svc (s : State) (a : Nat) (l : List Byte) : (s.writeMem a l).svc = s.svc := rfl
@[simp] theorem State.writeMem_plog (s : State) (a : Nat) (l : List Byte) : (s.writeMem a l).plog = s.plog := rfl
@[simp] theorem State.writeMem_relctl (s : State) (a : Nat) (l : List Byte) : (s.writeMem a l).relctl = s.relctl := rfl
@[simp] theorem State.writeMem_eccCorr (s : State) (a : Nat) (l : List Byte) : (s.writeMem a l).eccCorr = s.eccCorr := rfl
@[simp] theorem State.writeMem_eccUnc (s : State) (a : Nat) (l : List Byte) : (s.writeMem a l).eccUnc = s.eccUnc := rfl
@[simp] theorem State.writeMem_swapPool (s : State) (a : Nat) (l : List Byte) : (s.writeMem a l).swapPool = s.swapPool := rfl
@[simp] theorem State.writeMem_swapPools (s : State) (a : Nat) (l : List Byte) : (s.writeMem a l).swapPools = s.swapPools := rfl
@[simp] theorem State.writeMem_swapUsed (s : State) (a : Nat) (l : List Byte) : (s.writeMem a l).swapUsed = s.swapUsed := rfl
@[simp] theorem State.writeMem_corrected (s : State) (a : Nat) (l : List Byte) : (s.writeMem a l).corrected = s.corrected := rfl
@[simp] theorem State.writeMem_told (s : State) (a : Nat) (l : List Byte) : (s.writeMem a l).told = s.told := rfl
@[simp] theorem State.writeMem_handles (s : State) (a : Nat) (l : List Byte) : (s.writeMem a l).handles = s.handles := rfl
@[simp] theorem State.writeMem_scrubs (s : State) (a : Nat) (l : List Byte) : (s.writeMem a l).scrubs = s.scrubs := rfl
@[simp] theorem State.writeMem_streams (s : State) (a : Nat) (l : List Byte) : (s.writeMem a l).streams = s.streams := rfl
@[simp] theorem State.writeMem_retired (s : State) (a : Nat) (l : List Byte) : (s.writeMem a l).retired = s.retired := rfl
@[simp] theorem State.writeMem_saved (s : State) (a : Nat) (l : List Byte) : (s.writeMem a l).saved = s.saved := rfl
@[simp] theorem State.writeMem_hostWin (s : State) (a : Nat) (l : List Byte) : (s.writeMem a l).hostWin = s.hostWin := rfl
@[simp] theorem State.writeMem_eventPush (s : State) (a : Nat) (l : List Byte) : (s.writeMem a l).eventPush = s.eventPush := rfl
@[simp] theorem State.writeMem_hevents (s : State) (a : Nat) (l : List Byte) : (s.writeMem a l).hevents = s.hevents := rfl
@[simp] theorem State.writeMem_boot (s : State) (a : Nat) (l : List Byte) : (s.writeMem a l).boot = s.boot := rfl
@[simp] theorem State.writeMem_portStatus (s : State) (a : Nat) (l : List Byte) : (s.writeMem a l).portStatus = s.portStatus := rfl
@[simp] theorem State.writeMem_flash (s : State) (a : Nat) (l : List Byte) : (s.writeMem a l).flash = s.flash := rfl
@[simp] theorem State.writeMem_train (s : State) (a : Nat) (l : List Byte) : (s.writeMem a l).train = s.train := rfl
@[simp] theorem State.writeMem_power (s : State) (a : Nat) (l : List Byte) : (s.writeMem a l).power = s.power := rfl
@[simp] theorem State.writeMem_coldFails (s : State) (a : Nat) (l : List Byte) : (s.writeMem a l).coldFails = s.coldFails := rfl
@[simp] theorem State.writeMem_warmFails (s : State) (a : Nat) (l : List Byte) : (s.writeMem a l).warmFails = s.warmFails := rfl
@[simp] theorem State.writeMem_started (s : State) (a : Nat) (l : List Byte) : (s.writeMem a l).started = s.started := rfl
@[simp] theorem State.writeMem_outbox (s : State) (a : Nat) (l : List Byte) : (s.writeMem a l).outbox = s.outbox := rfl
@[simp] theorem State.writeMem_agenda (s : State) (a : Nat) (l : List Byte) : (s.writeMem a l).agenda = s.agenda := rfl
@[simp] theorem State.writeMem_cur (s : State) (a : Nat) (l : List Byte) : (s.writeMem a l).cur = s.cur := rfl
@[simp] theorem State.writeMem_transit (s : State) (a : Nat) (l : List Byte) : (s.writeMem a l).transit = s.transit := rfl
@[simp] theorem State.writeMem_freeCtr (s : State) (a : Nat) (l : List Byte) : (s.writeMem a l).freeCtr = s.freeCtr := rfl
@[simp] theorem State.writeMem_nextTag (s : State) (a : Nat) (l : List Byte) : (s.writeMem a l).nextTag = s.nextTag := rfl

/-- Error checking changes the error lists and the counters, and nothing else. -/
theorem State.check_form (s : State) (key n : Nat) : ∃ c o x u, (s.check key n).1 = { s with eccCorr := c, eccOne := o, corrected := x, eccUnc := u } := by
  unfold State.check
  dsimp only
  split <;> split <;> exact ⟨_, _, _, _, rfl⟩

@[simp] theorem State.check_moduleNo (s : State) (key n : Nat) : ((s.check key n).1).moduleNo = s.moduleNo := by obtain ⟨c, o, x, u, h⟩ := s.check_form key n; rw [h]
@[simp] theorem State.check_cycle (s : State) (key n : Nat) : ((s.check key n).1).cycle = s.cycle := by obtain ⟨c, o, x, u, h⟩ := s.check_form key n; rw [h]
@[simp] theorem State.check_timeBase (s : State) (key n : Nat) : ((s.check key n).1).timeBase = s.timeBase := by obtain ⟨c, o, x, u, h⟩ := s.check_form key n; rw [h]
@[simp] theorem State.check_mem (s : State) (key n : Nat) : ((s.check key n).1).mem = s.mem := by obtain ⟨c, o, x, u, h⟩ := s.check_form key n; rw [h]
@[simp] theorem State.check_full (s : State) (key n : Nat) : ((s.check key n).1).full = s.full := by obtain ⟨c, o, x, u, h⟩ := s.check_form key n; rw [h]
@[simp] theorem State.check_cores (s : State) (key n : Nat) : ((s.check key n).1).cores = s.cores := by obtain ⟨c, o, x, u, h⟩ := s.check_form key n; rw [h]
@[simp] theorem State.check_ctags (s : State) (key n : Nat) : ((s.check key n).1).ctags = s.ctags := by obtain ⟨c, o, x, u, h⟩ := s.check_form key n; rw [h]
@[simp] theorem State.check_drops (s : State) (key n : Nat) : ((s.check key n).1).drops = s.drops := by obtain ⟨c, o, x, u, h⟩ := s.check_form key n; rw [h]
@[simp] theorem State.check_cells (s : State) (key n : Nat) : ((s.check key n).1).cells = s.cells := by obtain ⟨c, o, x, u, h⟩ := s.check_form key n; rw [h]
@[simp] theorem State.check_heap (s : State) (key n : Nat) : ((s.check key n).1).heap = s.heap := by obtain ⟨c, o, x, u, h⟩ := s.check_form key n; rw [h]
@[simp] theorem State.check_tlb (s : State) (key n : Nat) : ((s.check key n).1).tlb = s.tlb := by obtain ⟨c, o, x, u, h⟩ := s.check_form key n; rw [h]
@[simp] theorem State.check_xlinv (s : State) (key n : Nat) : ((s.check key n).1).xlinv = s.xlinv := by obtain ⟨c, o, x, u, h⟩ := s.check_form key n; rw [h]
@[simp] theorem State.check_chans (s : State) (key n : Nat) : ((s.check key n).1).chans = s.chans := by obtain ⟨c, o, x, u, h⟩ := s.check_form key n; rw [h]
@[simp] theorem State.check_refresh (s : State) (key n : Nat) : ((s.check key n).1).refresh = s.refresh := by obtain ⟨c, o, x, u, h⟩ := s.check_form key n; rw [h]
@[simp] theorem State.check_side (s : State) (key n : Nat) : ((s.check key n).1).side = s.side := by obtain ⟨c, o, x, u, h⟩ := s.check_form key n; rw [h]
@[simp] theorem State.check_refreshed (s : State) (key n : Nat) : ((s.check key n).1).refreshed = s.refreshed := by obtain ⟨c, o, x, u, h⟩ := s.check_form key n; rw [h]
@[simp] theorem State.check_queued (s : State) (key n : Nat) : ((s.check key n).1).queued = s.queued := by obtain ⟨c, o, x, u, h⟩ := s.check_form key n; rw [h]
@[simp] theorem State.check_inputs (s : State) (key n : Nat) : ((s.check key n).1).inputs = s.inputs := by obtain ⟨c, o, x, u, h⟩ := s.check_form key n; rw [h]
@[simp] theorem State.check_repair (s : State) (key n : Nat) : ((s.check key n).1).repair = s.repair := by obtain ⟨c, o, x, u, h⟩ := s.check_form key n; rw [h]
@[simp] theorem State.check_hosted (s : State) (key n : Nat) : ((s.check key n).1).hosted = s.hosted := by obtain ⟨c, o, x, u, h⟩ := s.check_form key n; rw [h]
@[simp] theorem State.check_owners (s : State) (key n : Nat) : ((s.check key n).1).owners = s.owners := by obtain ⟨c, o, x, u, h⟩ := s.check_form key n; rw [h]
@[simp] theorem State.check_dists (s : State) (key n : Nat) : ((s.check key n).1).dists = s.dists := by obtain ⟨c, o, x, u, h⟩ := s.check_form key n; rw [h]
@[simp] theorem State.check_readys (s : State) (key n : Nat) : ((s.check key n).1).readys = s.readys := by obtain ⟨c, o, x, u, h⟩ := s.check_form key n; rw [h]
@[simp] theorem State.check_groups (s : State) (key n : Nat) : ((s.check key n).1).groups = s.groups := by obtain ⟨c, o, x, u, h⟩ := s.check_form key n; rw [h]
@[simp] theorem State.check_insts (s : State) (key n : Nat) : ((s.check key n).1).insts = s.insts := by obtain ⟨c, o, x, u, h⟩ := s.check_form key n; rw [h]
@[simp] theorem State.check_lanes (s : State) (key n : Nat) : ((s.check key n).1).lanes = s.lanes := by obtain ⟨c, o, x, u, h⟩ := s.check_form key n; rw [h]
@[simp] theorem State.check_svc (s : State) (key n : Nat) : ((s.check key n).1).svc = s.svc := by obtain ⟨c, o, x, u, h⟩ := s.check_form key n; rw [h]
@[simp] theorem State.check_plog (s : State) (key n : Nat) : ((s.check key n).1).plog = s.plog := by obtain ⟨c, o, x, u, h⟩ := s.check_form key n; rw [h]
@[simp] theorem State.check_relctl (s : State) (key n : Nat) : ((s.check key n).1).relctl = s.relctl := by obtain ⟨c, o, x, u, h⟩ := s.check_form key n; rw [h]
@[simp] theorem State.check_swapPool (s : State) (key n : Nat) : ((s.check key n).1).swapPool = s.swapPool := by obtain ⟨c, o, x, u, h⟩ := s.check_form key n; rw [h]
@[simp] theorem State.check_swapPools (s : State) (key n : Nat) : ((s.check key n).1).swapPools = s.swapPools := by obtain ⟨c, o, x, u, h⟩ := s.check_form key n; rw [h]
@[simp] theorem State.check_swapUsed (s : State) (key n : Nat) : ((s.check key n).1).swapUsed = s.swapUsed := by obtain ⟨c, o, x, u, h⟩ := s.check_form key n; rw [h]
@[simp] theorem State.check_eccBad (s : State) (key n : Nat) : ((s.check key n).1).eccBad = s.eccBad := by obtain ⟨c, o, x, u, h⟩ := s.check_form key n; rw [h]
@[simp] theorem State.check_told (s : State) (key n : Nat) : ((s.check key n).1).told = s.told := by obtain ⟨c, o, x, u, h⟩ := s.check_form key n; rw [h]
@[simp] theorem State.check_handles (s : State) (key n : Nat) : ((s.check key n).1).handles = s.handles := by obtain ⟨c, o, x, u, h⟩ := s.check_form key n; rw [h]
@[simp] theorem State.check_scrubs (s : State) (key n : Nat) : ((s.check key n).1).scrubs = s.scrubs := by obtain ⟨c, o, x, u, h⟩ := s.check_form key n; rw [h]
@[simp] theorem State.check_streams (s : State) (key n : Nat) : ((s.check key n).1).streams = s.streams := by obtain ⟨c, o, x, u, h⟩ := s.check_form key n; rw [h]
@[simp] theorem State.check_retired (s : State) (key n : Nat) : ((s.check key n).1).retired = s.retired := by obtain ⟨c, o, x, u, h⟩ := s.check_form key n; rw [h]
@[simp] theorem State.check_saved (s : State) (key n : Nat) : ((s.check key n).1).saved = s.saved := by obtain ⟨c, o, x, u, h⟩ := s.check_form key n; rw [h]
@[simp] theorem State.check_hostWin (s : State) (key n : Nat) : ((s.check key n).1).hostWin = s.hostWin := by obtain ⟨c, o, x, u, h⟩ := s.check_form key n; rw [h]
@[simp] theorem State.check_eventPush (s : State) (key n : Nat) : ((s.check key n).1).eventPush = s.eventPush := by obtain ⟨c, o, x, u, h⟩ := s.check_form key n; rw [h]
@[simp] theorem State.check_hevents (s : State) (key n : Nat) : ((s.check key n).1).hevents = s.hevents := by obtain ⟨c, o, x, u, h⟩ := s.check_form key n; rw [h]
@[simp] theorem State.check_boot (s : State) (key n : Nat) : ((s.check key n).1).boot = s.boot := by obtain ⟨c, o, x, u, h⟩ := s.check_form key n; rw [h]
@[simp] theorem State.check_portStatus (s : State) (key n : Nat) : ((s.check key n).1).portStatus = s.portStatus := by obtain ⟨c, o, x, u, h⟩ := s.check_form key n; rw [h]
@[simp] theorem State.check_flash (s : State) (key n : Nat) : ((s.check key n).1).flash = s.flash := by obtain ⟨c, o, x, u, h⟩ := s.check_form key n; rw [h]
@[simp] theorem State.check_train (s : State) (key n : Nat) : ((s.check key n).1).train = s.train := by obtain ⟨c, o, x, u, h⟩ := s.check_form key n; rw [h]
@[simp] theorem State.check_power (s : State) (key n : Nat) : ((s.check key n).1).power = s.power := by obtain ⟨c, o, x, u, h⟩ := s.check_form key n; rw [h]
@[simp] theorem State.check_coldFails (s : State) (key n : Nat) : ((s.check key n).1).coldFails = s.coldFails := by obtain ⟨c, o, x, u, h⟩ := s.check_form key n; rw [h]
@[simp] theorem State.check_warmFails (s : State) (key n : Nat) : ((s.check key n).1).warmFails = s.warmFails := by obtain ⟨c, o, x, u, h⟩ := s.check_form key n; rw [h]
@[simp] theorem State.check_started (s : State) (key n : Nat) : ((s.check key n).1).started = s.started := by obtain ⟨c, o, x, u, h⟩ := s.check_form key n; rw [h]
@[simp] theorem State.check_outbox (s : State) (key n : Nat) : ((s.check key n).1).outbox = s.outbox := by obtain ⟨c, o, x, u, h⟩ := s.check_form key n; rw [h]
@[simp] theorem State.check_agenda (s : State) (key n : Nat) : ((s.check key n).1).agenda = s.agenda := by obtain ⟨c, o, x, u, h⟩ := s.check_form key n; rw [h]
@[simp] theorem State.check_cur (s : State) (key n : Nat) : ((s.check key n).1).cur = s.cur := by obtain ⟨c, o, x, u, h⟩ := s.check_form key n; rw [h]
@[simp] theorem State.check_transit (s : State) (key n : Nat) : ((s.check key n).1).transit = s.transit := by obtain ⟨c, o, x, u, h⟩ := s.check_form key n; rw [h]
@[simp] theorem State.check_freeCtr (s : State) (key n : Nat) : ((s.check key n).1).freeCtr = s.freeCtr := by obtain ⟨c, o, x, u, h⟩ := s.check_form key n; rw [h]
@[simp] theorem State.check_nextTag (s : State) (key n : Nat) : ((s.check key n).1).nextTag = s.nextTag := by obtain ⟨c, o, x, u, h⟩ := s.check_form key n; rw [h]

/-- Reading bytes too. -/
theorem State.readMem_form (s : State) (key n : Nat) : ∃ c o x u, (s.readMem key n).1 = { s with eccCorr := c, eccOne := o, corrected := x, eccUnc := u } := by
  obtain ⟨c, o, x, u, h⟩ := s.check_form key n
  refine ⟨c, o, x, u, ?_⟩
  rw [← h]
  unfold State.readMem
  split <;> rename_i e <;> rw [e]

@[simp] theorem State.readMem_moduleNo (s : State) (key n : Nat) : ((s.readMem key n).1).moduleNo = s.moduleNo := by obtain ⟨c, o, x, u, h⟩ := s.readMem_form key n; rw [h]
@[simp] theorem State.readMem_cycle (s : State) (key n : Nat) : ((s.readMem key n).1).cycle = s.cycle := by obtain ⟨c, o, x, u, h⟩ := s.readMem_form key n; rw [h]
@[simp] theorem State.readMem_timeBase (s : State) (key n : Nat) : ((s.readMem key n).1).timeBase = s.timeBase := by obtain ⟨c, o, x, u, h⟩ := s.readMem_form key n; rw [h]
@[simp] theorem State.readMem_mem (s : State) (key n : Nat) : ((s.readMem key n).1).mem = s.mem := by obtain ⟨c, o, x, u, h⟩ := s.readMem_form key n; rw [h]
@[simp] theorem State.readMem_full (s : State) (key n : Nat) : ((s.readMem key n).1).full = s.full := by obtain ⟨c, o, x, u, h⟩ := s.readMem_form key n; rw [h]
@[simp] theorem State.readMem_cores (s : State) (key n : Nat) : ((s.readMem key n).1).cores = s.cores := by obtain ⟨c, o, x, u, h⟩ := s.readMem_form key n; rw [h]
@[simp] theorem State.readMem_ctags (s : State) (key n : Nat) : ((s.readMem key n).1).ctags = s.ctags := by obtain ⟨c, o, x, u, h⟩ := s.readMem_form key n; rw [h]
@[simp] theorem State.readMem_drops (s : State) (key n : Nat) : ((s.readMem key n).1).drops = s.drops := by obtain ⟨c, o, x, u, h⟩ := s.readMem_form key n; rw [h]
@[simp] theorem State.readMem_cells (s : State) (key n : Nat) : ((s.readMem key n).1).cells = s.cells := by obtain ⟨c, o, x, u, h⟩ := s.readMem_form key n; rw [h]
@[simp] theorem State.readMem_heap (s : State) (key n : Nat) : ((s.readMem key n).1).heap = s.heap := by obtain ⟨c, o, x, u, h⟩ := s.readMem_form key n; rw [h]
@[simp] theorem State.readMem_tlb (s : State) (key n : Nat) : ((s.readMem key n).1).tlb = s.tlb := by obtain ⟨c, o, x, u, h⟩ := s.readMem_form key n; rw [h]
@[simp] theorem State.readMem_xlinv (s : State) (key n : Nat) : ((s.readMem key n).1).xlinv = s.xlinv := by obtain ⟨c, o, x, u, h⟩ := s.readMem_form key n; rw [h]
@[simp] theorem State.readMem_chans (s : State) (key n : Nat) : ((s.readMem key n).1).chans = s.chans := by obtain ⟨c, o, x, u, h⟩ := s.readMem_form key n; rw [h]
@[simp] theorem State.readMem_refresh (s : State) (key n : Nat) : ((s.readMem key n).1).refresh = s.refresh := by obtain ⟨c, o, x, u, h⟩ := s.readMem_form key n; rw [h]
@[simp] theorem State.readMem_side (s : State) (key n : Nat) : ((s.readMem key n).1).side = s.side := by obtain ⟨c, o, x, u, h⟩ := s.readMem_form key n; rw [h]
@[simp] theorem State.readMem_refreshed (s : State) (key n : Nat) : ((s.readMem key n).1).refreshed = s.refreshed := by obtain ⟨c, o, x, u, h⟩ := s.readMem_form key n; rw [h]
@[simp] theorem State.readMem_queued (s : State) (key n : Nat) : ((s.readMem key n).1).queued = s.queued := by obtain ⟨c, o, x, u, h⟩ := s.readMem_form key n; rw [h]
@[simp] theorem State.readMem_inputs (s : State) (key n : Nat) : ((s.readMem key n).1).inputs = s.inputs := by obtain ⟨c, o, x, u, h⟩ := s.readMem_form key n; rw [h]
@[simp] theorem State.readMem_repair (s : State) (key n : Nat) : ((s.readMem key n).1).repair = s.repair := by obtain ⟨c, o, x, u, h⟩ := s.readMem_form key n; rw [h]
@[simp] theorem State.readMem_hosted (s : State) (key n : Nat) : ((s.readMem key n).1).hosted = s.hosted := by obtain ⟨c, o, x, u, h⟩ := s.readMem_form key n; rw [h]
@[simp] theorem State.readMem_owners (s : State) (key n : Nat) : ((s.readMem key n).1).owners = s.owners := by obtain ⟨c, o, x, u, h⟩ := s.readMem_form key n; rw [h]
@[simp] theorem State.readMem_dists (s : State) (key n : Nat) : ((s.readMem key n).1).dists = s.dists := by obtain ⟨c, o, x, u, h⟩ := s.readMem_form key n; rw [h]
@[simp] theorem State.readMem_readys (s : State) (key n : Nat) : ((s.readMem key n).1).readys = s.readys := by obtain ⟨c, o, x, u, h⟩ := s.readMem_form key n; rw [h]
@[simp] theorem State.readMem_groups (s : State) (key n : Nat) : ((s.readMem key n).1).groups = s.groups := by obtain ⟨c, o, x, u, h⟩ := s.readMem_form key n; rw [h]
@[simp] theorem State.readMem_insts (s : State) (key n : Nat) : ((s.readMem key n).1).insts = s.insts := by obtain ⟨c, o, x, u, h⟩ := s.readMem_form key n; rw [h]
@[simp] theorem State.readMem_lanes (s : State) (key n : Nat) : ((s.readMem key n).1).lanes = s.lanes := by obtain ⟨c, o, x, u, h⟩ := s.readMem_form key n; rw [h]
@[simp] theorem State.readMem_svc (s : State) (key n : Nat) : ((s.readMem key n).1).svc = s.svc := by obtain ⟨c, o, x, u, h⟩ := s.readMem_form key n; rw [h]
@[simp] theorem State.readMem_plog (s : State) (key n : Nat) : ((s.readMem key n).1).plog = s.plog := by obtain ⟨c, o, x, u, h⟩ := s.readMem_form key n; rw [h]
@[simp] theorem State.readMem_relctl (s : State) (key n : Nat) : ((s.readMem key n).1).relctl = s.relctl := by obtain ⟨c, o, x, u, h⟩ := s.readMem_form key n; rw [h]
@[simp] theorem State.readMem_swapPool (s : State) (key n : Nat) : ((s.readMem key n).1).swapPool = s.swapPool := by obtain ⟨c, o, x, u, h⟩ := s.readMem_form key n; rw [h]
@[simp] theorem State.readMem_swapPools (s : State) (key n : Nat) : ((s.readMem key n).1).swapPools = s.swapPools := by obtain ⟨c, o, x, u, h⟩ := s.readMem_form key n; rw [h]
@[simp] theorem State.readMem_swapUsed (s : State) (key n : Nat) : ((s.readMem key n).1).swapUsed = s.swapUsed := by obtain ⟨c, o, x, u, h⟩ := s.readMem_form key n; rw [h]
@[simp] theorem State.readMem_eccBad (s : State) (key n : Nat) : ((s.readMem key n).1).eccBad = s.eccBad := by obtain ⟨c, o, x, u, h⟩ := s.readMem_form key n; rw [h]
@[simp] theorem State.readMem_told (s : State) (key n : Nat) : ((s.readMem key n).1).told = s.told := by obtain ⟨c, o, x, u, h⟩ := s.readMem_form key n; rw [h]
@[simp] theorem State.readMem_handles (s : State) (key n : Nat) : ((s.readMem key n).1).handles = s.handles := by obtain ⟨c, o, x, u, h⟩ := s.readMem_form key n; rw [h]
@[simp] theorem State.readMem_scrubs (s : State) (key n : Nat) : ((s.readMem key n).1).scrubs = s.scrubs := by obtain ⟨c, o, x, u, h⟩ := s.readMem_form key n; rw [h]
@[simp] theorem State.readMem_streams (s : State) (key n : Nat) : ((s.readMem key n).1).streams = s.streams := by obtain ⟨c, o, x, u, h⟩ := s.readMem_form key n; rw [h]
@[simp] theorem State.readMem_retired (s : State) (key n : Nat) : ((s.readMem key n).1).retired = s.retired := by obtain ⟨c, o, x, u, h⟩ := s.readMem_form key n; rw [h]
@[simp] theorem State.readMem_saved (s : State) (key n : Nat) : ((s.readMem key n).1).saved = s.saved := by obtain ⟨c, o, x, u, h⟩ := s.readMem_form key n; rw [h]
@[simp] theorem State.readMem_hostWin (s : State) (key n : Nat) : ((s.readMem key n).1).hostWin = s.hostWin := by obtain ⟨c, o, x, u, h⟩ := s.readMem_form key n; rw [h]
@[simp] theorem State.readMem_eventPush (s : State) (key n : Nat) : ((s.readMem key n).1).eventPush = s.eventPush := by obtain ⟨c, o, x, u, h⟩ := s.readMem_form key n; rw [h]
@[simp] theorem State.readMem_hevents (s : State) (key n : Nat) : ((s.readMem key n).1).hevents = s.hevents := by obtain ⟨c, o, x, u, h⟩ := s.readMem_form key n; rw [h]
@[simp] theorem State.readMem_boot (s : State) (key n : Nat) : ((s.readMem key n).1).boot = s.boot := by obtain ⟨c, o, x, u, h⟩ := s.readMem_form key n; rw [h]
@[simp] theorem State.readMem_portStatus (s : State) (key n : Nat) : ((s.readMem key n).1).portStatus = s.portStatus := by obtain ⟨c, o, x, u, h⟩ := s.readMem_form key n; rw [h]
@[simp] theorem State.readMem_flash (s : State) (key n : Nat) : ((s.readMem key n).1).flash = s.flash := by obtain ⟨c, o, x, u, h⟩ := s.readMem_form key n; rw [h]
@[simp] theorem State.readMem_train (s : State) (key n : Nat) : ((s.readMem key n).1).train = s.train := by obtain ⟨c, o, x, u, h⟩ := s.readMem_form key n; rw [h]
@[simp] theorem State.readMem_power (s : State) (key n : Nat) : ((s.readMem key n).1).power = s.power := by obtain ⟨c, o, x, u, h⟩ := s.readMem_form key n; rw [h]
@[simp] theorem State.readMem_coldFails (s : State) (key n : Nat) : ((s.readMem key n).1).coldFails = s.coldFails := by obtain ⟨c, o, x, u, h⟩ := s.readMem_form key n; rw [h]
@[simp] theorem State.readMem_warmFails (s : State) (key n : Nat) : ((s.readMem key n).1).warmFails = s.warmFails := by obtain ⟨c, o, x, u, h⟩ := s.readMem_form key n; rw [h]
@[simp] theorem State.readMem_started (s : State) (key n : Nat) : ((s.readMem key n).1).started = s.started := by obtain ⟨c, o, x, u, h⟩ := s.readMem_form key n; rw [h]
@[simp] theorem State.readMem_outbox (s : State) (key n : Nat) : ((s.readMem key n).1).outbox = s.outbox := by obtain ⟨c, o, x, u, h⟩ := s.readMem_form key n; rw [h]
@[simp] theorem State.readMem_agenda (s : State) (key n : Nat) : ((s.readMem key n).1).agenda = s.agenda := by obtain ⟨c, o, x, u, h⟩ := s.readMem_form key n; rw [h]
@[simp] theorem State.readMem_cur (s : State) (key n : Nat) : ((s.readMem key n).1).cur = s.cur := by obtain ⟨c, o, x, u, h⟩ := s.readMem_form key n; rw [h]
@[simp] theorem State.readMem_transit (s : State) (key n : Nat) : ((s.readMem key n).1).transit = s.transit := by obtain ⟨c, o, x, u, h⟩ := s.readMem_form key n; rw [h]
@[simp] theorem State.readMem_freeCtr (s : State) (key n : Nat) : ((s.readMem key n).1).freeCtr = s.freeCtr := by obtain ⟨c, o, x, u, h⟩ := s.readMem_form key n; rw [h]
@[simp] theorem State.readMem_nextTag (s : State) (key n : Nat) : ((s.readMem key n).1).nextTag = s.nextTag := by obtain ⟨c, o, x, u, h⟩ := s.readMem_form key n; rw [h]

/-- Filling the caches changes them, and what the words that the walk reads do to the error lists. -/
theorem State.fill_form (s : State) (die : Nat) (pt : Word) (va : Nat) : ∃ l c o x u, s.fill die pt va = { s with tlb := l, eccCorr := c, eccOne := o, corrected := x, eccUnc := u } := by
  have h : ∀ (l : List Nat) (s : State), ∃ c o x u, l.foldl (fun (s : State) a => (s.readMem a 8).1) s = { s with eccCorr := c, eccOne := o, corrected := x, eccUnc := u } := by
    intro l
    induction l with
    | nil => intro s; exact ⟨_, _, _, _, rfl⟩
    | cons a l ih =>
      intro s
      obtain ⟨c, o, x, u, h⟩ := s.readMem_form a 8
      obtain ⟨c2, o2, x2, u2, h2⟩ := ih (s.readMem a 8).1
      rw [List.foldl_cons, h2, h]
      exact ⟨_, _, _, _, rfl⟩
  obtain ⟨c, o, x, u, h⟩ := h (s.walkReads va [0, 1, 2, 3] (s.root pt)) s
  unfold State.fill
  dsimp only
  split
  · exact ⟨_, _, _, _, _, rfl⟩
  · rw [h]; exact ⟨_, _, _, _, _, rfl⟩

@[simp] theorem State.fill_moduleNo (s : State) (die : Nat) (pt : Word) (va : Nat) : (s.fill die pt va).moduleNo = s.moduleNo := by obtain ⟨l, c, o, x, u, h⟩ := s.fill_form die pt va; rw [h]
@[simp] theorem State.fill_cycle (s : State) (die : Nat) (pt : Word) (va : Nat) : (s.fill die pt va).cycle = s.cycle := by obtain ⟨l, c, o, x, u, h⟩ := s.fill_form die pt va; rw [h]
@[simp] theorem State.fill_timeBase (s : State) (die : Nat) (pt : Word) (va : Nat) : (s.fill die pt va).timeBase = s.timeBase := by obtain ⟨l, c, o, x, u, h⟩ := s.fill_form die pt va; rw [h]
@[simp] theorem State.fill_mem (s : State) (die : Nat) (pt : Word) (va : Nat) : (s.fill die pt va).mem = s.mem := by obtain ⟨l, c, o, x, u, h⟩ := s.fill_form die pt va; rw [h]
@[simp] theorem State.fill_full (s : State) (die : Nat) (pt : Word) (va : Nat) : (s.fill die pt va).full = s.full := by obtain ⟨l, c, o, x, u, h⟩ := s.fill_form die pt va; rw [h]
@[simp] theorem State.fill_cores (s : State) (die : Nat) (pt : Word) (va : Nat) : (s.fill die pt va).cores = s.cores := by obtain ⟨l, c, o, x, u, h⟩ := s.fill_form die pt va; rw [h]
@[simp] theorem State.fill_ctags (s : State) (die : Nat) (pt : Word) (va : Nat) : (s.fill die pt va).ctags = s.ctags := by obtain ⟨l, c, o, x, u, h⟩ := s.fill_form die pt va; rw [h]
@[simp] theorem State.fill_drops (s : State) (die : Nat) (pt : Word) (va : Nat) : (s.fill die pt va).drops = s.drops := by obtain ⟨l, c, o, x, u, h⟩ := s.fill_form die pt va; rw [h]
@[simp] theorem State.fill_cells (s : State) (die : Nat) (pt : Word) (va : Nat) : (s.fill die pt va).cells = s.cells := by obtain ⟨l, c, o, x, u, h⟩ := s.fill_form die pt va; rw [h]
@[simp] theorem State.fill_heap (s : State) (die : Nat) (pt : Word) (va : Nat) : (s.fill die pt va).heap = s.heap := by obtain ⟨l, c, o, x, u, h⟩ := s.fill_form die pt va; rw [h]
@[simp] theorem State.fill_xlinv (s : State) (die : Nat) (pt : Word) (va : Nat) : (s.fill die pt va).xlinv = s.xlinv := by obtain ⟨l, c, o, x, u, h⟩ := s.fill_form die pt va; rw [h]
@[simp] theorem State.fill_chans (s : State) (die : Nat) (pt : Word) (va : Nat) : (s.fill die pt va).chans = s.chans := by obtain ⟨l, c, o, x, u, h⟩ := s.fill_form die pt va; rw [h]
@[simp] theorem State.fill_refresh (s : State) (die : Nat) (pt : Word) (va : Nat) : (s.fill die pt va).refresh = s.refresh := by obtain ⟨l, c, o, x, u, h⟩ := s.fill_form die pt va; rw [h]
@[simp] theorem State.fill_side (s : State) (die : Nat) (pt : Word) (va : Nat) : (s.fill die pt va).side = s.side := by obtain ⟨l, c, o, x, u, h⟩ := s.fill_form die pt va; rw [h]
@[simp] theorem State.fill_refreshed (s : State) (die : Nat) (pt : Word) (va : Nat) : (s.fill die pt va).refreshed = s.refreshed := by obtain ⟨l, c, o, x, u, h⟩ := s.fill_form die pt va; rw [h]
@[simp] theorem State.fill_queued (s : State) (die : Nat) (pt : Word) (va : Nat) : (s.fill die pt va).queued = s.queued := by obtain ⟨l, c, o, x, u, h⟩ := s.fill_form die pt va; rw [h]
@[simp] theorem State.fill_inputs (s : State) (die : Nat) (pt : Word) (va : Nat) : (s.fill die pt va).inputs = s.inputs := by obtain ⟨l, c, o, x, u, h⟩ := s.fill_form die pt va; rw [h]
@[simp] theorem State.fill_repair (s : State) (die : Nat) (pt : Word) (va : Nat) : (s.fill die pt va).repair = s.repair := by obtain ⟨l, c, o, x, u, h⟩ := s.fill_form die pt va; rw [h]
@[simp] theorem State.fill_hosted (s : State) (die : Nat) (pt : Word) (va : Nat) : (s.fill die pt va).hosted = s.hosted := by obtain ⟨l, c, o, x, u, h⟩ := s.fill_form die pt va; rw [h]
@[simp] theorem State.fill_owners (s : State) (die : Nat) (pt : Word) (va : Nat) : (s.fill die pt va).owners = s.owners := by obtain ⟨l, c, o, x, u, h⟩ := s.fill_form die pt va; rw [h]
@[simp] theorem State.fill_dists (s : State) (die : Nat) (pt : Word) (va : Nat) : (s.fill die pt va).dists = s.dists := by obtain ⟨l, c, o, x, u, h⟩ := s.fill_form die pt va; rw [h]
@[simp] theorem State.fill_readys (s : State) (die : Nat) (pt : Word) (va : Nat) : (s.fill die pt va).readys = s.readys := by obtain ⟨l, c, o, x, u, h⟩ := s.fill_form die pt va; rw [h]
@[simp] theorem State.fill_groups (s : State) (die : Nat) (pt : Word) (va : Nat) : (s.fill die pt va).groups = s.groups := by obtain ⟨l, c, o, x, u, h⟩ := s.fill_form die pt va; rw [h]
@[simp] theorem State.fill_insts (s : State) (die : Nat) (pt : Word) (va : Nat) : (s.fill die pt va).insts = s.insts := by obtain ⟨l, c, o, x, u, h⟩ := s.fill_form die pt va; rw [h]
@[simp] theorem State.fill_lanes (s : State) (die : Nat) (pt : Word) (va : Nat) : (s.fill die pt va).lanes = s.lanes := by obtain ⟨l, c, o, x, u, h⟩ := s.fill_form die pt va; rw [h]
@[simp] theorem State.fill_svc (s : State) (die : Nat) (pt : Word) (va : Nat) : (s.fill die pt va).svc = s.svc := by obtain ⟨l, c, o, x, u, h⟩ := s.fill_form die pt va; rw [h]
@[simp] theorem State.fill_plog (s : State) (die : Nat) (pt : Word) (va : Nat) : (s.fill die pt va).plog = s.plog := by obtain ⟨l, c, o, x, u, h⟩ := s.fill_form die pt va; rw [h]
@[simp] theorem State.fill_relctl (s : State) (die : Nat) (pt : Word) (va : Nat) : (s.fill die pt va).relctl = s.relctl := by obtain ⟨l, c, o, x, u, h⟩ := s.fill_form die pt va; rw [h]
@[simp] theorem State.fill_swapPool (s : State) (die : Nat) (pt : Word) (va : Nat) : (s.fill die pt va).swapPool = s.swapPool := by obtain ⟨l, c, o, x, u, h⟩ := s.fill_form die pt va; rw [h]
@[simp] theorem State.fill_swapPools (s : State) (die : Nat) (pt : Word) (va : Nat) : (s.fill die pt va).swapPools = s.swapPools := by obtain ⟨l, c, o, x, u, h⟩ := s.fill_form die pt va; rw [h]
@[simp] theorem State.fill_swapUsed (s : State) (die : Nat) (pt : Word) (va : Nat) : (s.fill die pt va).swapUsed = s.swapUsed := by obtain ⟨l, c, o, x, u, h⟩ := s.fill_form die pt va; rw [h]
@[simp] theorem State.fill_eccBad (s : State) (die : Nat) (pt : Word) (va : Nat) : (s.fill die pt va).eccBad = s.eccBad := by obtain ⟨l, c, o, x, u, h⟩ := s.fill_form die pt va; rw [h]
@[simp] theorem State.fill_told (s : State) (die : Nat) (pt : Word) (va : Nat) : (s.fill die pt va).told = s.told := by obtain ⟨l, c, o, x, u, h⟩ := s.fill_form die pt va; rw [h]
@[simp] theorem State.fill_handles (s : State) (die : Nat) (pt : Word) (va : Nat) : (s.fill die pt va).handles = s.handles := by obtain ⟨l, c, o, x, u, h⟩ := s.fill_form die pt va; rw [h]
@[simp] theorem State.fill_scrubs (s : State) (die : Nat) (pt : Word) (va : Nat) : (s.fill die pt va).scrubs = s.scrubs := by obtain ⟨l, c, o, x, u, h⟩ := s.fill_form die pt va; rw [h]
@[simp] theorem State.fill_streams (s : State) (die : Nat) (pt : Word) (va : Nat) : (s.fill die pt va).streams = s.streams := by obtain ⟨l, c, o, x, u, h⟩ := s.fill_form die pt va; rw [h]
@[simp] theorem State.fill_retired (s : State) (die : Nat) (pt : Word) (va : Nat) : (s.fill die pt va).retired = s.retired := by obtain ⟨l, c, o, x, u, h⟩ := s.fill_form die pt va; rw [h]
@[simp] theorem State.fill_saved (s : State) (die : Nat) (pt : Word) (va : Nat) : (s.fill die pt va).saved = s.saved := by obtain ⟨l, c, o, x, u, h⟩ := s.fill_form die pt va; rw [h]
@[simp] theorem State.fill_hostWin (s : State) (die : Nat) (pt : Word) (va : Nat) : (s.fill die pt va).hostWin = s.hostWin := by obtain ⟨l, c, o, x, u, h⟩ := s.fill_form die pt va; rw [h]
@[simp] theorem State.fill_eventPush (s : State) (die : Nat) (pt : Word) (va : Nat) : (s.fill die pt va).eventPush = s.eventPush := by obtain ⟨l, c, o, x, u, h⟩ := s.fill_form die pt va; rw [h]
@[simp] theorem State.fill_hevents (s : State) (die : Nat) (pt : Word) (va : Nat) : (s.fill die pt va).hevents = s.hevents := by obtain ⟨l, c, o, x, u, h⟩ := s.fill_form die pt va; rw [h]
@[simp] theorem State.fill_boot (s : State) (die : Nat) (pt : Word) (va : Nat) : (s.fill die pt va).boot = s.boot := by obtain ⟨l, c, o, x, u, h⟩ := s.fill_form die pt va; rw [h]
@[simp] theorem State.fill_portStatus (s : State) (die : Nat) (pt : Word) (va : Nat) : (s.fill die pt va).portStatus = s.portStatus := by obtain ⟨l, c, o, x, u, h⟩ := s.fill_form die pt va; rw [h]
@[simp] theorem State.fill_flash (s : State) (die : Nat) (pt : Word) (va : Nat) : (s.fill die pt va).flash = s.flash := by obtain ⟨l, c, o, x, u, h⟩ := s.fill_form die pt va; rw [h]
@[simp] theorem State.fill_train (s : State) (die : Nat) (pt : Word) (va : Nat) : (s.fill die pt va).train = s.train := by obtain ⟨l, c, o, x, u, h⟩ := s.fill_form die pt va; rw [h]
@[simp] theorem State.fill_power (s : State) (die : Nat) (pt : Word) (va : Nat) : (s.fill die pt va).power = s.power := by obtain ⟨l, c, o, x, u, h⟩ := s.fill_form die pt va; rw [h]
@[simp] theorem State.fill_coldFails (s : State) (die : Nat) (pt : Word) (va : Nat) : (s.fill die pt va).coldFails = s.coldFails := by obtain ⟨l, c, o, x, u, h⟩ := s.fill_form die pt va; rw [h]
@[simp] theorem State.fill_warmFails (s : State) (die : Nat) (pt : Word) (va : Nat) : (s.fill die pt va).warmFails = s.warmFails := by obtain ⟨l, c, o, x, u, h⟩ := s.fill_form die pt va; rw [h]
@[simp] theorem State.fill_started (s : State) (die : Nat) (pt : Word) (va : Nat) : (s.fill die pt va).started = s.started := by obtain ⟨l, c, o, x, u, h⟩ := s.fill_form die pt va; rw [h]
@[simp] theorem State.fill_outbox (s : State) (die : Nat) (pt : Word) (va : Nat) : (s.fill die pt va).outbox = s.outbox := by obtain ⟨l, c, o, x, u, h⟩ := s.fill_form die pt va; rw [h]
@[simp] theorem State.fill_agenda (s : State) (die : Nat) (pt : Word) (va : Nat) : (s.fill die pt va).agenda = s.agenda := by obtain ⟨l, c, o, x, u, h⟩ := s.fill_form die pt va; rw [h]
@[simp] theorem State.fill_cur (s : State) (die : Nat) (pt : Word) (va : Nat) : (s.fill die pt va).cur = s.cur := by obtain ⟨l, c, o, x, u, h⟩ := s.fill_form die pt va; rw [h]
@[simp] theorem State.fill_transit (s : State) (die : Nat) (pt : Word) (va : Nat) : (s.fill die pt va).transit = s.transit := by obtain ⟨l, c, o, x, u, h⟩ := s.fill_form die pt va; rw [h]
@[simp] theorem State.fill_freeCtr (s : State) (die : Nat) (pt : Word) (va : Nat) : (s.fill die pt va).freeCtr = s.freeCtr := by obtain ⟨l, c, o, x, u, h⟩ := s.fill_form die pt va; rw [h]
@[simp] theorem State.fill_nextTag (s : State) (die : Nat) (pt : Word) (va : Nat) : (s.fill die pt va).nextTag = s.nextTag := by obtain ⟨l, c, o, x, u, h⟩ := s.fill_form die pt va; rw [h]

/-! ### Reading back -/

@[simp] theorem State.core_setCore (s : State) (k : Nat) (c : Core) : (s.setCore k c).core k = c := by
  simp [State.core, State.setCore]
theorem State.core_setCore_ne (s : State) {j k : Nat} (h : j ≠ k) (c : Core) : (s.setCore k c).core j = s.core j := by
  simp [State.core, State.setCore, Tab.find_put_ne h]
@[simp] theorem State.core_mapCore (s : State) (k : Nat) (f : Core → Core) : (s.mapCore k f).core k = f (s.core k) := by
  simp [State.mapCore]
theorem State.core_mapCore_ne (s : State) {j k : Nat} (h : j ≠ k) (f : Core → Core) : (s.mapCore k f).core j = s.core j := by
  simp [State.mapCore, State.core_setCore_ne s h]
@[simp] theorem State.setCore_setCore (s : State) (k : Nat) (c d : Core) : (s.setCore k c).setCore k d = s.setCore k d := by
  simp [State.setCore]
@[simp] theorem State.thread_setThread (s : State) (k sl : Nat) (t : Thread) : (s.setThread k sl t).thread k sl = some t := by
  simp [State.thread, State.setThread]
@[simp] theorem State.setThread_setThread (s : State) (k sl : Nat) (t u : Thread) : (s.setThread k sl t).setThread k sl u = s.setThread k sl u := by
  simp [State.setThread, State.mapCore]
theorem State.thread_setThread_slot (s : State) (k : Nat) {i sl : Nat} (h : i ≠ sl) (t : Thread) : (s.setThread k sl t).thread k i = s.thread k i := by
  simp [State.thread, State.setThread, Tab.find_put_ne h]
theorem State.thread_setThread_core (s : State) {j k : Nat} (h : j ≠ k) (i sl : Nat) (t : Thread) : (s.setThread k sl t).thread j i = s.thread j i := by
  simp [State.thread, State.setThread, State.core_mapCore_ne s h]
@[simp] theorem State.mapThread_setThread (s : State) (k sl : Nat) (t : Thread) (f : Thread → Thread) : (s.setThread k sl t).mapThread k sl f = s.setThread k sl (f t) := by
  simp [State.mapThread]
@[simp] theorem State.thread_mapCore_threads (s : State) (k sl : Nat) (f : Core → Core) : (s.mapCore k f).thread k sl = (f (s.core k)).threads.find sl := by
  simp [State.thread]
@[simp] theorem State.k_setThread (s : State) (k sl : Nat) (t : Thread) : (s.setThread k sl t).k = s.k := rfl
@[simp] theorem State.sl_setThread (s : State) (k sl : Nat) (t : Thread) : (s.setThread k sl t).sl = s.sl := rfl
@[simp] theorem State.k_put (s : State) (t : Thread) : (s.put t).k = s.k := rfl
@[simp] theorem State.sl_put (s : State) (t : Thread) : (s.put t).sl = s.sl := rfl
@[simp] theorem State.put_put (s : State) (t u : Thread) : (s.put t).put u = s.put u := State.setThread_setThread s _ _ t u
@[simp] theorem State.thread_put (s : State) (t : Thread) : (s.put t).thread s.k s.sl = some t := State.thread_setThread s _ _ t
theorem State.put_eq (s : State) (t : Thread) : s.setThread s.k s.sl t = s.put t := rfl
/-- What a core holds beside its threads is not touched by a thread's update. -/
theorem State.core_put (s : State) (t : Thread) : (s.put t).core s.k = { s.core s.k with threads := (s.core s.k).threads.put s.sl t } :=
  State.core_mapCore s s.k (fun c => { c with threads := c.threads.put s.sl t })
theorem State.core_put_ne (s : State) (t : Thread) {j : Nat} (h : j ≠ s.k) : (s.put t).core j = s.core j :=
  State.core_mapCore_ne s h _

end Sys2Proof.Machine
end

