-- ==== Sys2Proof/Laws/Words.lean ====
section
/-! SUPPORT. What issuing a word does: it executes, it is suppressed, it traps; and how a hint issues. -/
namespace Sys2Proof.Machine

/-- The checks pass exactly where a word executes. -/
theorem Thread.precheck_runs {t : Thread} {c : Ctl} {f : Form} (w : Word) (h : t.Runs c f) : t.precheck c f w = .ok true := by
  obtain ⟨h1, h2, h3, h4, h5, h6, h7⟩ := h
  have e1 : (t.live || (t.iv && !f.immOk) || (t.rv && bits t.pfx 24 3 == 6 && !f.roOk) || f.bad t) = false := by
    cases hi : t.iv <;> cases hr : t.rv <;> simp_all
  have e2 : (if c.g && t.sc then t.pendingAt [t.guardReg] else none) = none := by
    cases hg : c.g <;> cases hs : t.sc <;> simp_all
  have e3 : (if t.sc then t.pendingAt (f.reads ++ f.more t ++ f.writes) else none) = none := by cases hs : t.sc <;> simp_all
  have e4 : (!c.g || t.guardHolds) = true := by cases hg : c.g <;> simp_all
  unfold Thread.precheck
  simp only [e1, e2, e3, e4, h6, Bool.and_false, Bool.not_true, Bool.false_eq_true, if_false]

/-- A word that executes does what its meaning gives. -/
theorem runWord_runs {s : State} {t : Thread} {c : Ctl} {f : Form} {lag : Nat} (i : Instr) (body : State → Thread → WordRes)
    (hs : Acts s t lag) (h : t.Runs c f) (hl : f.lag = lag := by rfl) : runWord i c f body s = (s.put t).conclude s.k s.sl c t.pc (body (s.put t) t) := by
  obtain ⟨t0, h0, rfl⟩ := hs
  subst hl
  unfold runWord
  simp only [State.k, State.sl] at h0 ⊢
  simp only [h0, Thread.precheck_runs _ h]
  rfl

/-- A word whose guard does not hold: nothing but its issue (R29). -/
theorem runWord_suppressed {s : State} {t : Thread} {c : Ctl} {f : Form} {lag : Nat} (i : Instr) (body : State → Thread → WordRes)
    (hs : Acts s t lag) (hlv : t.live = false) (hi : t.iv = false) (hr : t.rv = false) (hc : t.sc = false) (hb : f.bad t = false)
    (hg : c.g = true) (hn : t.guardHolds = false) (hl : f.lag = lag := by rfl) : runWord i c f body s = s.put (t.complete c (t.pc + 4) 0) := by
  obtain ⟨t0, h0, ht⟩ := hs
  subst hl
  have hp : t.precheck c f (BitVec.setWidth 64 (encode i)) = .ok false := by
    unfold Thread.precheck; simp [hlv, hi, hr, hc, hb, hg, hn]
  unfold runWord
  simp only [State.k, State.sl] at h0 ⊢
  simp only [h0, ← ht, hp]
  exact State.setThread_setThread s _ _ _ _

/-- A word that the checks turn away traps at its own address. -/
theorem runWord_trap {s : State} {t : Thread} {c : Ctl} {f : Form} {lag : Nat} (i : Instr) (body : State → Thread → WordRes) {e : Cause × Word}
    (hs : Acts s t lag) (h : t.precheck c f ((encode i).setWidth 64) = .error e) (hl : f.lag = lag := by rfl) :
    runWord i c f body s = (s.put t).trapEntry s.k s.sl e.1 e.2 t.pc false := by
  obtain ⟨t0, h0, rfl⟩ := hs
  subst hl
  unfold runWord
  simp only [State.k, State.sl] at h0 ⊢
  simp only [h0, h]
  rfl

/-- A hint where it may stand. -/
theorem runHint_free {s : State} {t : Thread} (i : Instr) (isImm isLive : Bool) (body : Thread → Thread) (mn : Nat → Nat)
    (hs : Issues s t) (h : t.HintFree) :
    runHint i isImm isLive body mn s = s.put { body t with pc := t.pc + 4, elig := max (s.cycle + 8) (mn s.cycle), live := false, status := .ready, done := true } := by
  obtain ⟨t0, h0, rfl⟩ := hs
  obtain ⟨h1, h2, h3⟩ := h
  unfold runHint
  simp only [State.k, State.sl] at h0 ⊢
  simp only [h0, h1, h2, h3, Bool.false_and, Bool.or_self, Bool.false_eq_true, if_false]
  exact State.setThread_setThread s _ _ _ _

@[simp] theorem conclude_next (s : State) (k sl : Nat) (c : Ctl) (pc : Word) (t : Thread) (m : Nat) :
    s.conclude k sl c pc (.next t m) = s.setThread k sl (t.complete c (pc + 4) m) := rfl
@[simp] theorem conclude_goto (s : State) (k sl : Nat) (c : Ctl) (pc : Word) (t : Thread) (x : Word) :
    s.conclude k sl c pc (.goto t x) = s.setThread k sl (t.complete c x 0) := rfl
@[simp] theorem conclude_done (s u : State) (k sl : Nat) (c : Ctl) (pc : Word) (m : Nat) :
    s.conclude k sl c pc (.done u m) = u.mapThread k sl (fun t => t.complete c (pc + 4) m) := rfl
@[simp] theorem conclude_wait (s u : State) (k sl : Nat) (c : Ctl) (pc : Word) (w : Wait) (v : Word) :
    s.conclude k sl c pc (.wait u w v) = u.park k sl w v := rfl
@[simp] theorem conclude_hold (s u : State) (k sl : Nat) (c : Ctl) (pc : Word) (h : Hold) :
    s.conclude k sl c pc (.hold u h) = u.mapThread k sl (fun t => { t with status := .holding h }) := rfl
@[simp] theorem conclude_stop (s u : State) (k sl : Nat) (c : Ctl) (pc : Word) : s.conclude k sl c pc (.stop u) = u := rfl
@[simp] theorem conclude_trap (s u : State) (k sl : Nat) (c : Ctl) (pc : Word) (e : Cause) (v : Word) :
    s.conclude k sl c pc (.trap u e v) = u.trapEntry k sl e v pc false := rfl
@[simp] theorem conclude_trapVal (s u : State) (k sl : Nat) (c : Ctl) (pc : Word) (e : Cause) (v : Word) (b : Bool) :
    s.conclude k sl c pc (.trapVal u e v b) = u.trapEntry k sl e v pc false b := rfl

end Sys2Proof.Machine
end

