-- ==== Sys2Proof/Laws/Gives.lean ====
section
/-! SUPPORT. The frame of a completed word, proved once: what `completed` and `completedV` change. -/
namespace Sys2Proof.Machine

@[simp] theorem Thread.orFlags_zero (t : Thread) : t.orFlags 0 = t := by
  have : t.fpcsr ||| BitVec.ofNat 15 (0 % 32 * 8) = t.fpcsr := by simp
  unfold Thread.orFlags; rw [this]
theorem Thread.rd_of_g {t x : Thread} (h : x.g = t.g) (r : Reg) : x.rd r = t.rd r := by unfold Thread.rd; rw [h]
theorem Thread.vr_of_v {t x : Thread} (h : x.v = t.v) (r : VReg) : x.vr r = t.vr r := by unfold Thread.vr; rw [h]

/-- A vector register reads what was written. -/
theorem Thread.vr_vw (t : Thread) (r j : VReg) (x : VecReg) : (t.vw r x).vr j = if j = r then x else t.vr j := by
  by_cases hj : j = r
  · subst hj; simp [Thread.vw, Thread.vr]
  · have : r.toNat ≠ j.toNat := fun h => hj (BitVec.eq_of_toNat_eq h.symm)
    simp [Thread.vw, Thread.vr, hj, this]

theorem Thread.wr_same (t : Thread) (d : Reg) (v : Word) : t.SameSpecial (t.wr d v) := by
  unfold Thread.wr Thread.SameSpecial; split <;> simp

/-- What a completion leaves of the thread's core, of the other threads and of memory. -/
theorem kept_put {s : State} {t x : Thread} {ds : List Reg} {vs : List VReg} {fp : BitVec 15}
    (hg : ∀ r, r ∉ ds → x.rd r = t.rd r) (hv : ∀ r, r ∉ vs → x.vr r = t.vr r) (hf : x.fpcsr = fp) (hs : t.SameSpecial x) :
    Kept s t ds vs fp (s.put x) :=
  ⟨fun _ => rfl, rfl, rfl, rfl, fun _ hk => State.core_put_ne s x hk, fun _ hsl => State.thread_setThread_slot s s.k hsl x,
    ⟨_, State.core_put s x⟩, x, State.thread_put s x, hg, hv, hf, hs⟩

theorem completed_kept (s : State) (t : Thread) (c : Ctl) (d : Reg) (v : Word) (fl m : Nat) :
    Kept s t [d] [] ((t.orFlags fl).fpcsr) (s.completed t c d v fl m) := by
  refine kept_put (fun r hr => ?_) (fun r _ => ?_) ?_ ?_
  · simp only [List.mem_singleton] at hr
    exact (Thread.rd_of_g (t := t.wr d v) rfl r).trans (by rw [Thread.rd_wr, if_neg (fun h => hr h.1)])
  · exact Thread.vr_of_v (by simp [Thread.complete, Thread.orFlags, Thread.wr]; split <;> rfl) r
  · simp [Thread.complete, Thread.orFlags, Thread.wr]; split <;> rfl
  · have := Thread.wr_same t d v; exact this

/-- A word that completes with a value in a general register: the frame comes with it. -/
theorem gives_of_next {s : State} {t : Thread} {c : Ctl} {i : Instr} {d : Reg} {v : Word} {fl m : Nat}
    (h : exec i s = .next (s.completed t c d v fl m)) : Gives s t c i d v fl m := by
  refine ⟨h, completed_kept .., _, State.thread_put s _, ?_, rfl⟩
  split
  · subst_vars; rfl
  · exact (Thread.rd_of_g (t := t.wr d v) rfl d).trans (by rw [Thread.rd_wr, if_pos ⟨rfl, ‹_›⟩])

theorem givesV_of_next {s : State} {t : Thread} {c : Ctl} {i : Instr} {vd : VReg} {v : VecReg} {fl m : Nat}
    (h : exec i s = .next (s.completedV t c vd v fl m)) : GivesV s t c i vd v fl m := by
  refine ⟨h, kept_put (fun r _ => ?_) (fun r hr => ?_) ?_ ?_, _, State.thread_put s _, ?_, rfl⟩
  · exact Thread.rd_of_g rfl r
  · simp only [List.mem_singleton] at hr
    exact (Thread.vr_of_v (t := t.vw vd v) rfl r).trans (by rw [Thread.vr_vw, if_neg hr])
  · rfl
  · unfold Thread.SameSpecial; simp [Thread.complete, Thread.orFlags, Thread.vw]
  · exact (Thread.vr_of_v (t := t.vw vd v) rfl vd).trans (by rw [Thread.vr_vw, if_pos rfl])

/-- A word whose own meaning gives a value in a general register. -/
theorem lift_next {s : State} {t : Thread} {c : Ctl} {d : Reg} {v : Word} {f : Form} {lag : Nat} {m : Nat} (i : Instr) (h : Acts s t lag) (hr : t.Runs c f)
    (body : State → Thread → WordRes) (hb : body (s.put t) t = .next (t.wr d v) m) (he : exec i s = .next (runWord i c f body s)) (hl : f.lag = lag := by rfl) :
    Gives s t c i d v 0 m := by
  apply gives_of_next
  rw [he, runWord_runs i body h hr hl, hb]
  simp [State.completed, ← State.put_eq]

/-- The same with flags. -/
theorem lift_fl {s : State} {t : Thread} {c : Ctl} {d : Reg} {v : Word} {f : Form} {lag : Nat} {m fl : Nat} (i : Instr) (h : Acts s t lag) (hr : t.Runs c f)
    (body : State → Thread → WordRes) (hb : body (s.put t) t = .next ((t.wr d v).orFlags fl) m) (he : exec i s = .next (runWord i c f body s)) (hl : f.lag = lag := by rfl) :
    Gives s t c i d v fl m := by
  apply gives_of_next
  rw [he, runWord_runs i body h hr hl, hb]
  simp [State.completed, ← State.put_eq]

/-- A word whose own meaning traps. -/
theorem lift_trap {s : State} {t : Thread} {c : Ctl} {e : Cause} {v : Word} {f : Form} {lag : Nat} (i : Instr) (h : Acts s t lag) (hr : t.Runs c f)
    (body : State → Thread → WordRes) (hb : body (s.put t) t = .trap (s.put t) e v) (he : exec i s = .next (runWord i c f body s)) (hl : f.lag = lag := by rfl) :
    exec i s = .next ((s.put t).trapEntry s.k s.sl e v t.pc false) := by
  rw [he, runWord_runs i body h hr hl, hb]; simp

/-- A word that the shared checks turn away. -/
theorem lift_pre {s : State} {t : Thread} {c : Ctl} {e : Cause} {v : Word} {f : Form} {lag : Nat} (i : Instr) (h : Acts s t lag)
    (body : State → Thread → WordRes) (hp : t.precheck c f ((encode i).setWidth 64) = .error (e, v)) (he : exec i s = .next (runWord i c f body s)) (hl : f.lag = lag := by rfl) :
    exec i s = .next ((s.put t).trapEntry s.k s.sl e v t.pc false) := by
  rw [he, runWord_trap i body h hp hl]

/-- An undersized long-latency word: its result is pending (R25). -/
theorem long_pending {s : State} {t : Thread} {c : Ctl} {d : Reg} {v : Word} {mn fl : Nat} {f : Form} (i : Instr) (h : Issues s t) (hr : t.Runs c f)
    (body : State → Thread → WordRes) (hb : body (s.put t) t = longResult (s.put t) t c mn d v fl) (he : exec i s = .next (runWord i c f body s))
    (hw : c.w.toNat < mn) (hen : t.enables = 0) (hl : f.lag = 0 := by rfl) :
    ∃ u x1, exec i s = .next u ∧ u.thread s.k s.sl = some x1
      ∧ (⟨d, v, BitVec.ofNat 5 fl, s.cycle + 8 * (mn + 1), t.pc⟩ : Pend) ∈ x1.pend
      ∧ (d ≠ 0#6 → ∀ p ∈ x1.pend, p.reg = d → p = ⟨d, v, BitVec.ofNat 5 fl, s.cycle + 8 * (mn + 1), t.pc⟩) ∧ (s.cycle + 8 * (mn + 1), Instr.longResultLand s.k s.sl) ∈ u.agenda
      ∧ x1.pc = t.pc + 4 ∧ Kept s t [] [] t.fpcsr u := by
  rw [he, runWord_runs i body h hr hl, hb]
  have hfl : t.fpTraps fl = false := by simp [Thread.fpTraps, hen]
  have hins : ∀ (n : Nat) (e : Instr) (l : List (Nat × Instr)), (n, e) ∈ insertEvent n e l := by
    intro n e l
    induction l with
    | nil => simp [insertEvent]
    | cons p l ih => unfold insertEvent; split <;> simp [ih]
  have hput : ∀ (x y : Thread), ((s.put x).put y) = s.put y := fun x y => s.put_put x y
  have hat : ∀ (x : Thread) (n : Nat) (e : Instr) (g : Thread → Thread),
      ((s.put x).at n e).mapThread s.k s.sl g = (s.put (g x)).at n e := by
    intro x n e g
    unfold State.mapThread
    have : ((s.put x).at n e).thread s.k s.sl = some x := State.thread_put s x
    rw [this]
    exact congrArg (fun z : State => z.at n e) (State.setThread_setThread s s.k s.sl x (g x))
  simp only [longResult, hfl, hw, hen, decide_true, Bool.true_and, beq_self_eq_true, if_true, Bool.false_eq_true, if_false, conclude_done, hput]
  have hx := hat ({ t.wr d (t.rd d) with pend := (t.wr d (t.rd d)).pend ++ [(⟨d, v, BitVec.ofNat 5 fl, s.cycle + 8 * (mn + 1), t.pc⟩ : Pend)] }) (s.cycle + 8 * (mn + 1))
    (.longResultLand s.k s.sl) (fun t1 => t1.complete c (t.pc + 4) 0)
  refine ⟨_, _, congrArg Host.Outcome.next hx, State.thread_put s _, ?_, ?_, hins _ _ _, rfl, ?_⟩
  · simp [Thread.complete]
  · intro hd p hp hpd
    simp only [Thread.complete, List.mem_append, List.mem_singleton] at hp
    rcases hp with hp | hp
    · simp only [Thread.wr, hd, if_false, List.mem_map] at hp
      obtain ⟨x, -, rfl⟩ := hp
      split at hpd
      · exact absurd hpd.symm hd
      · contradiction
    · exact hp
  · have hk := @kept_put s t (({ t.wr d (t.rd d) with pend := (t.wr d (t.rd d)).pend ++ [(⟨d, v, BitVec.ofNat 5 fl, s.cycle + 8 * (mn + 1), t.pc⟩ : Pend)] } : Thread).complete c (t.pc + 4) 0) [] [] t.fpcsr
      (fun r _ => by
        refine (Thread.rd_of_g (t := t.wr d (t.rd d)) rfl r).trans ?_
        rw [Thread.rd_wr]; split
        · rename_i h; rw [h.1]
        · rfl)
      (fun r _ => (Thread.vr_of_v (t := t.wr d (t.rd d)) rfl r).trans (Thread.vr_of_v (by simp) r))
      (by simp [Thread.complete]) (by have := Thread.wr_same t d (t.rd d); exact this)
    exact hk

/-- A long-latency word whose next word waits for the result (R27). -/
theorem long_now {s : State} {t : Thread} {c : Ctl} {d : Reg} {v : Word} {mn fl : Nat} {f : Form} (i : Instr) (h : Issues s t) (hr : t.Runs c f)
    (body : State → Thread → WordRes) (hb : body (s.put t) t = longResult (s.put t) t c mn d v fl) (he : exec i s = .next (runWord i c f body s))
    (hn : fl &&& t.enables = 0) (hw : mn ≤ c.w.toNat ∨ t.enables ≠ 0) (hl : f.lag = 0 := by rfl) : Gives s t c i d v fl (s.cycle + 8 * (mn + 1)) := by
  refine lift_fl i h hr body ?_ he hl
  rw [hb]
  have hfl : t.fpTraps fl = false := by simp [Thread.fpTraps, hn]
  have : (decide (c.w.toNat < mn) && t.enables == 0) = false := by
    rcases hw with hw | hw
    · simp; omega
    · simp [hw]
  simp only [longResult, hfl, this, Bool.false_eq_true, if_false]; rfl

/-- The two sign extensions are one. -/
theorem sext_eq (w : Nat) (hw : w ≤ 64) (x : BitVec w) : sext w x.toNat = x.signExtend 64 := by
  apply BitVec.eq_of_toInt_eq
  rw [BitVec.toInt_signExtend_of_le hw, sext, BitVec.toInt_ofInt]
  simp only [BitVec.toInt_eq_toNat_cond, Nat.mod_eq_of_lt x.isLt]
  have := x.isLt
  have h2 : (2:Int) ^ w ≤ 2 ^ 64 := by exact_mod_cast Nat.pow_le_pow_right (by omega) hw
  rcases Nat.eq_zero_or_pos w with rfl | hpos
  · simp at this; simp [this, Int.bmod]
  have h3 : (2:Nat) ^ w = 2 * 2 ^ (w-1) := by rw [← pow_succ']; congr 1; omega
  have h4 : ((2:Nat)^w : Int) = (2:Int)^w := by push_cast; rfl
  split <;> (rw [Int.bmod_def]; push_cast; split <;> omega)

/-- A floating word: its result and flags, or FP_EXCEPTION (R176). -/
theorem fl_ok {s : State} {t : Thread} {c : Ctl} {d : Reg} {r : Nat × Nat} {f : Form} {lag : Nat} (i : Instr) (h : Acts s t lag) (hr : t.Runs c f)
    (body : State → Thread → WordRes) (hb : body (s.put t) t = fpNow (s.put t) t d r) (he : exec i s = .next (runWord i c f body s)) (hl : f.lag = lag := by rfl) :
    (r.2 &&& t.enables = 0 → Gives s t c i d (BitVec.ofNat 64 r.1) r.2 0)
      ∧ (r.2 &&& t.enables ≠ 0 → exec i s = .next ((s.put t).trapEntry s.k s.sl .fpException (BitVec.ofNat 64 r.2) t.pc false)) := by
  refine ⟨fun hn => lift_fl i h hr body ?_ he hl, fun hn => lift_trap i h hr body ?_ he hl⟩
  · rw [hb]; simp [fpNow, Thread.fpTraps, hn]
  · rw [hb]; simp [fpNow, Thread.fpTraps, hn]

/-- A long-latency word with an enabled exception waits until its result would have landed, and then traps (R176, R353). -/
theorem long_traps {s : State} {t : Thread} {c : Ctl} {d : Reg} {v : Word} {mn fl : Nat} {f : Form} (i : Instr) (h : Issues s t) (hr : t.Runs c f)
    (body : State → Thread → WordRes) (hb : body (s.put t) t = longResult (s.put t) t c mn d v fl) (he : exec i s = .next (runWord i c f body s))
    (hn : fl &&& t.enables ≠ 0) (hl : f.lag = 0 := by rfl) :
    ∃ (u : State) (x1 : Thread), exec i s = .next u ∧ u.thread s.k s.sl = some x1
      ∧ x1.status = .parked (.trapping .fpException (BitVec.ofNat 64 fl) t.pc false false) ∧ x1.pc = t.pc ∧ s.cycle + 8 * (mn + 1) ≤ x1.lastLand
      ∧ (x1.lastLand, Instr.longResultLand s.k s.sl) ∈ u.agenda ∧ Kept s t [] [] t.fpcsr u := by
  rw [he, runWord_runs i body h hr hl, hb]
  have hfl : t.fpTraps fl = true := by simp [Thread.fpTraps, hn]
  set y : Thread := { t with pend := t.pend ++ [(⟨0#6, 0, 0, s.cycle + 8 * (mn + 1), t.pc⟩ : Pend)] } with hy
  have hmax : s.cycle + 8 * (mn + 1) ≤ y.lastLand := by
    simp only [Thread.lastLand, hy, List.map_append, List.foldl_append, List.map_cons, List.map_nil, List.foldl_cons, List.foldl_nil]
    exact Nat.le_max_right _ _
  have hins : ∀ (n : Nat) (e : Instr) (l : List (Nat × Instr)), (n, e) ∈ insertEvent n e l := by
    intro n e l
    induction l with
    | nil => simp [insertEvent]
    | cons p l ih => unfold insertEvent; split <;> simp [ih]
  simp only [longResult, hfl, if_true, State.conclude, State.put_cycle]
  rw [State.put_put, ← hy, show Cause.fpException.isAddress = false from rfl,
    State.trapEntry_waits (t := y) (State.thread_put s _) (show (s.put y).cycle < _ by simp only [State.put_cycle]; omega)]
  have hc : y.count s.cycle = y := by
    obtain ⟨t0, -, rfl⟩ := h
    have ha : (t0.count s.cycle).acct = s.cycle := by unfold Thread.count; dsimp only; split <;> rfl
    unfold Thread.count
    simp only [hy, Thread.begin, ha, Nat.sub_self, Nat.add_zero, Nat.sub_zero, ite_self]
  rw [State.put_cycle, hc, show ∀ z, (s.put y).setThread s.k s.sl z = s.put z from fun z => State.setThread_setThread s s.k s.sl y z]
  exact ⟨_, _, rfl, State.thread_put s _, rfl, rfl, hmax, hins _ _ _,
    @kept_put s t { y with status := .parked (.trapping .fpException (BitVec.ofNat 64 fl) t.pc false false) } [] [] t.fpcsr
      (fun r _ => Thread.rd_of_g rfl r) (fun r _ => Thread.vr_of_v rfl r) rfl (by simp [Thread.SameSpecial, hy])⟩

end Sys2Proof.Machine
end

