-- ==== Sys2Proof/Laws/Memory.lean ====
section
/-! SUPPORT. Memory: its canonical form and how every operation keeps it; reading bytes after writing them. -/
namespace Sys2Proof.Machine

/-- The canonical form as a fact about the list: the addresses rise, and no byte is zero. -/
theorem Memory.wf_iff (m : Tab Byte) :
    Memory.wf m = true ↔ m.Pairwise (fun p q => p.1 < q.1) ∧ ∀ p ∈ m, p.2 ≠ 0 := by
  induction m with
  | nil => simp [Memory.wf]
  | cons p m ih =>
    obtain ⟨a, b⟩ := p
    have hb : Memory.wf ((a, b) :: m) = true ↔
        b ≠ 0 ∧ (match m with | [] => True | (c, _) :: _ => a < c) ∧ Memory.wf m = true := by
      cases m with
      | nil => simp [Memory.wf]
      | cons q m => obtain ⟨c, d⟩ := q; simp [Memory.wf, and_assoc]
    rw [hb, ih, List.pairwise_cons]
    constructor
    · rintro ⟨h0, h1, h2, h3⟩
      refine ⟨⟨?_, h2⟩, ?_⟩
      · intro q hq
        cases m with
        | nil => simp at hq
        | cons r m =>
          simp only at h1
          rcases List.mem_cons.mp hq with rfl | hq
          · exact h1
          · exact Nat.lt_trans h1 ((List.pairwise_cons.mp h2).1 q hq)
      · intro q hq
        rcases List.mem_cons.mp hq with rfl | hq
        · exact h0
        · exact h3 q hq
    · rintro ⟨⟨h1, h2⟩, h3⟩
      refine ⟨h3 _ List.mem_cons_self, ?_, h2, fun q hq => h3 q (List.mem_cons_of_mem _ hq)⟩
      cases m with
      | nil => trivial
      | cons r m => exact h1 r List.mem_cons_self

theorem Memory.wf_filter (m : Tab Byte) (f : Nat × Byte → Bool) (h : Memory.wf m = true) : Memory.wf (m.filter f) = true := by
  rw [Memory.wf_iff] at h ⊢
  exact ⟨h.1.filter f, fun p hp => h.2 p (List.mem_of_mem_filter hp)⟩

theorem Memory.wf_append (m n : Tab Byte) (hm : Memory.wf m = true) (hn : Memory.wf n = true)
    (h : ∀ p ∈ m, ∀ q ∈ n, p.1 < q.1) : Memory.wf (m ++ n) = true := by
  rw [Memory.wf_iff] at hm hn ⊢
  refine ⟨List.pairwise_append.mpr ⟨hm.1, hn.1, h⟩, fun p hp => ?_⟩
  rcases List.mem_append.mp hp with hp | hp
  · exact hm.2 p hp
  · exact hn.2 p hp

theorem Tab.mem_put {α : Type} {k : Nat} {x : α} {t : Tab α} {p : Nat × α} (h : p ∈ Tab.put k x t) : p = (k, x) ∨ p ∈ t := by
  induction t with
  | nil => simpa [Tab.put] using h
  | cons q t ih =>
    obtain ⟨j, y⟩ := q
    unfold Tab.put at h
    split at h
    · simpa using h
    · split at h
      · rcases List.mem_cons.mp h with h | h
        · exact .inl h
        · exact .inr (List.mem_cons_of_mem _ h)
      · rcases List.mem_cons.mp h with h | h
        · exact .inr (h ▸ List.mem_cons_self)
        · rcases ih h with h | h
          · exact .inl h
          · exact .inr (List.mem_cons_of_mem _ h)

theorem Tab.pairwise_put {α : Type} (k : Nat) (x : α) (t : Tab α) (h : t.Pairwise (fun p q => p.1 < q.1)) :
    (Tab.put k x t).Pairwise (fun p q => p.1 < q.1) := by
  induction t with
  | nil => simp [Tab.put]
  | cons q t ih =>
    obtain ⟨j, y⟩ := q
    obtain ⟨h1, h2⟩ := List.pairwise_cons.mp h
    unfold Tab.put
    split
    · rename_i hk
      refine List.pairwise_cons.mpr ⟨fun q hq => ?_, h⟩
      rcases List.mem_cons.mp hq with rfl | hq
      · exact hk
      · exact Nat.lt_trans hk (h1 q hq)
    · split
      · subst_vars; exact List.pairwise_cons.mpr ⟨h1, h2⟩
      · refine List.pairwise_cons.mpr ⟨fun q hq => ?_, ih h2⟩
        rcases Tab.mem_put hq with rfl | hq
        · simp only at *; omega
        · exact h1 q hq

/-- Writing a byte keeps the form. -/
theorem writeByte_wf (m : Tab Byte) (a : Nat) (b : Byte) (h : Memory.wf m = true) : Memory.wf (writeByte m a b) = true := by
  unfold writeByte
  split
  · exact Memory.wf_filter m _ h
  · rename_i hb
    rw [Memory.wf_iff] at h ⊢
    refine ⟨Tab.pairwise_put _ _ _ h.1, fun p hp => ?_⟩
    rcases Tab.mem_put hp with rfl | hp
    · exact hb
    · exact h.2 p hp
/-- So does writing a list of bytes. -/
theorem writeBytes_wf (m : Tab Byte) (a : Nat) (l : List Byte) (h : Memory.wf m = true) : Memory.wf (writeBytes m a l) = true := by
  induction l generalizing m a with
  | nil => exact h
  | cons b l ih => exact ih _ _ (writeByte_wf m a b h)

/-- What a byte reads after a byte was written. -/
theorem readByte_writeByte (m : Tab Byte) (a x : Nat) (b : Byte) : readByte (writeByte m a b) x = if x = a then b else readByte m x := by
  unfold readByte writeByte
  by_cases hb : b = 0
  · subst hb
    by_cases hx : x = a
    · subst hx; simp
    · simp [Tab.find_del_ne hx, hx]
  · rw [if_neg hb, Tab.find_put]
    by_cases hx : x = a <;> simp [hx]
/-- What a byte reads after a list of bytes was written. -/
theorem readByte_writeBytes (m : Tab Byte) (a : Nat) (l : List Byte) (x : Nat) :
    readByte (writeBytes m a l) x = if a ≤ x ∧ x < a + l.length then l.getD (x - a) 0 else readByte m x := by
  induction l generalizing m a with
  | nil => simp only [writeBytes, List.length_nil]; rw [if_neg (by omega)]
  | cons b l ih =>
    rw [writeBytes, ih, readByte_writeByte]
    simp only [List.length_cons]
    by_cases hx : x = a
    · subst hx
      rw [if_neg (by omega), if_pos rfl, if_pos (by omega)]; simp
    · by_cases h : a ≤ x ∧ x < a + (l.length + 1)
      · rw [if_pos (by omega), if_pos h]
        obtain ⟨n, hn⟩ : ∃ n, x - a = n + 1 := ⟨x - a - 1, by omega⟩
        rw [hn, show x - (a + 1) = n by omega]; simp
      · rw [if_neg (by omega), if_neg hx, if_neg h]
/-- A byte outside the written ones is unchanged. -/
theorem readByte_writeBytes_ne (m : Tab Byte) (a : Nat) (l : List Byte) (x : Nat) (h : x < a ∨ a + l.length ≤ x) :
    readByte (writeBytes m a l) x = readByte m x := by rw [readByte_writeBytes, if_neg (by omega)]
/-- The written bytes read back. -/
theorem readBytes_writeBytes (m : Tab Byte) (a : Nat) (l : List Byte) : readBytes (writeBytes m a l) a l.length = l := by
  apply List.ext_getElem
  · simp [readBytes]
  · intro i h1 h2
    simp only [readBytes, List.getElem_map, List.getElem_range, readByte_writeBytes]
    rw [if_pos (by omega)]; simp [h2]

/-- The invariant is about `mem` alone. -/
theorem State.memInv_of_mem {s t : State} (h : t.mem = s.mem) (hs : s.MemInv) : t.MemInv := by unfold State.MemInv at *; rwa [h]
theorem State.writeMem_memInv (s : State) (key : Nat) (l : List Byte) (h : s.MemInv) : (s.writeMem key l).MemInv := writeBytes_wf _ _ _ h

/-- The frame of a save keeps the form. -/
theorem State.writeFrame_memInv (s : State) (frame : Nat) (parts : List (Nat × List Byte)) (h : s.MemInv) :
    (s.writeFrame frame parts).MemInv := by
  unfold State.writeFrame
  have key : ∀ (l : List (Nat × List Byte)) (u : State), u.MemInv →
      (l.foldl (fun (s : State) p => s.writeMem (frame + p.1) p.2) u).MemInv := by
    intro l
    induction l with
    | nil => exact fun u hu => hu
    | cons p l ih => exact fun u hu => ih _ (u.writeMem_memInv _ _ hu)
  exact key _ _ (Memory.wf_filter _ _ h)

/-- What stands in a store after the march test keeps the form. -/
theorem State.marchStore_memInv (s : State) (k : Nat) (h : s.MemInv) : (s.marchStore k).MemInv := by
  have hb : ∀ (n x : Nat), (leBytes n x).length = n := by
    intro n; induction n with
    | zero => intro x; rfl
    | succ n ih => intro x; simp [leBytes, ih]
  have hp : ∀ (key n c : Nat), (((List.range n).map (fun i => (leBytes 8 (Config.freeValue (c + i)).toNat).zipIdx.map
      (fun p => (key + 8 * i + p.2, p.1)))).flatten : Tab Byte).Pairwise (fun p q => p.1 < q.1) := by
    intro key n c
    rw [List.pairwise_flatten]
    constructor
    · intro l hl
      obtain ⟨i, -, rfl⟩ := List.mem_map.mp hl
      rw [List.pairwise_map]
      refine List.pairwise_iff_getElem.mpr fun i j hi hj hij => ?_
      simp only [List.getElem_zipIdx]; omega
    · rw [List.pairwise_map]
      refine List.pairwise_lt_range.imp ?_
      intro i j hij p hp q hq
      obtain ⟨a, ha, rfl⟩ := List.mem_map.mp hp
      obtain ⟨b, hb', rfl⟩ := List.mem_map.mp hq
      have h1 := List.snd_lt_of_mem_zipIdx ha
      have h2 := List.le_snd_of_mem_zipIdx hb'
      rw [hb] at h1
      simp only at *; omega
  have hr : ∀ (key n c : Nat), ∀ p ∈ (((List.range n).map (fun i => (leBytes 8 (Config.freeValue (c + i)).toNat).zipIdx.map
      (fun p => (key + 8 * i + p.2, p.1)))).flatten : Tab Byte), key ≤ p.1 ∧ p.1 < key + 8 * n := by
    intro key n c p hp
    obtain ⟨l, hl, hpl⟩ := List.mem_flatten.mp hp
    obtain ⟨i, hi, rfl⟩ := List.mem_map.mp hl
    obtain ⟨a, ha, rfl⟩ := List.mem_map.mp hpl
    have h1 := List.snd_lt_of_mem_zipIdx ha
    rw [hb] at h1
    have := List.mem_range.mp hi
    simp only at *; omega
  unfold State.marchStore State.MemInv
  simp only
  refine Memory.wf_append _ _ (Memory.wf_append _ _ (Memory.wf_filter _ _ h) ?_ ?_) (Memory.wf_filter _ _ h) ?_
  · rw [Memory.wf_iff]
    exact ⟨(hp _ _ _).filter _, fun p hp => by simpa using (List.mem_filter.mp hp).2⟩
  · intro p hp q hq
    have h1 := (List.mem_filter.mp hp).2
    have h2 := hr _ _ _ q (List.mem_of_mem_filter hq)
    simp only [decide_eq_true_eq] at h1; omega
  · intro p hp q hq
    have h2 := of_decide_eq_true (List.mem_filter.mp hq).2
    simp only [Config.localSize] at h2
    rcases List.mem_append.mp hp with hp | hp
    · have h1 := of_decide_eq_true (List.mem_filter.mp hp).2
      omega
    · have h1 := hr _ _ _ p (List.mem_of_mem_filter hp)
      simp only [Config.localSize] at h1; omega

end Sys2Proof.Machine
end

