-- ==== Sys2Proof/Laws/Own.lean ====
section
/-! SUPPORT. Accesses to a core's own local store: one part, at its window; reading and writing it; a word that ends in its own step. -/
namespace Sys2Proof.Machine

/-- A ready thread that has been counted up to a cycle counts nothing in it. -/
theorem Thread.count_self {t : Thread} {now : Nat} (h1 : t.acct = now) (h2 : t.status = .ready) : t.count now = t := by
  obtain ⟨⟩ := t
  simp only at h1 h2
  subst h1 h2
  unfold Thread.count
  simp
theorem Thread.count_acct (t : Thread) (now : Nat) : (t.count now).acct = now := by
  unfold Thread.count; dsimp only; split <;> rfl
/-- Counting again in the same cycle counts nothing. -/
theorem Thread.count_begin (t : Thread) (now lag : Nat) : (t.begin now lag).count now = t.begin now lag :=
  Thread.count_self (t.count_acct now) rfl
theorem Acts.count {s : State} {t : Thread} {lag : Nat} (h : Acts s t lag) : t.count s.cycle = t := by
  obtain ⟨t0, -, rfl⟩ := h; exact Thread.count_begin t0 s.cycle lag
theorem Acts.ready {s : State} {t : Thread} {lag : Nat} (h : Acts s t lag) : t.status = .ready := by
  obtain ⟨t0, -, rfl⟩ := h; rfl
theorem Issues.count {s : State} {t : Thread} (h : Issues s t) : t.count s.cycle = t := Acts.count h
theorem Issues.ready {s : State} {t : Thread} (h : Issues s t) : t.status = .ready := Acts.ready h

/-- The one part of an access to the own store. -/
def ownPiece (s : State) (ea : Word) (n : Nat) : Piece := ⟨s.localPa s.k (bits ea 0 17), n, ea, 0⟩

theorem access_own {s : State} {ea : Word} {n : Nat} (pt : Word) (ctag : Nat) (need : Need) (h : isLocal ea = true)
    (hn : bits ea 0 17 + n ≤ Config.localSize) : s.access s.k pt ctag need ea n = .ok [ownPiece s ea n] := by
  have hb : badByte ea n = none := by unfold badByte; simp only [h, if_true]; rw [if_pos hn]
  unfold State.access
  rw [hb]; simp only [h, if_true]; rfl
theorem fillAccess_own {s : State} {ea : Word} {n k : Nat} (pt : Word) (h : isLocal ea = true) : s.fillAccess k pt ea n = s := by
  unfold State.fillAccess; simp [h]
theorem localKey_lt {k : Nat} (hk : isService k = false) {o : Nat} (ho : o < Config.windowStep) : localKey k o < 2 ^ 44 := by
  have hk' : k < 262144 := Nat.lt_of_not_le (of_decide_eq_false hk)
  simp only [localKey, hk, dieOf, indexOf, Config.windowBase, Config.windowStep, Bool.false_eq_true, if_false] at *
  omega
theorem key_own {s : State} {ea : Word} {n : Nat} (hm : s.moduleNo < 2 ^ 20) (hn : bits ea 0 17 < Config.windowStep) :
    (ownPiece s ea n).key = ownKey s ea := by
  unfold Piece.key ownPiece ownKey State.localPa
  by_cases hs : isService s.k
  · simp [hs]
  · have hl := localKey_lt (by simpa using hs) hn
    simp only [hs, Bool.false_eq_true, if_false]
    rw [if_neg (by omega)]; omega
theorem isOwn_own {s : State} {ea : Word} {n : Nat} (h : isLocal ea = true) : (ownPiece s ea n).isOwn = true := h
theorem bits17 (ea : Word) : bits ea 0 17 < Config.windowStep := by
  unfold bits Config.windowStep; omega

theorem touching_none {t : Thread} (h : t.posted = []) (ps : List Piece) : touching t ps = [] := by unfold touching; rw [h]; rfl
/-- An access to the own store goes on with its one part. -/
theorem withAccess_own {s : State} {t : Thread} {ea : Word} {n : Nat} (ctag : Nat) (need : Need) (posted : List Piece → Bool) (f : State → List Piece → WordRes)
    (h : OwnBytes s t ea n) : withAccess (s.put t) t ctag need ea n posted f = f (s.put t) [ownPiece s ea n] := by
  obtain ⟨-, -, h3, h4, h5, -⟩ := h
  unfold withAccess
  rw [fillAccess_own t.ptbase h3, access_own (s := s.put t) t.ptbase ctag need h3 h4]
  simp only [touching_none h5, List.isEmpty_nil, Bool.not_true, Bool.and_false, Bool.false_eq_true, if_false]; rfl
/-- Reading bytes without errors changes nothing. -/
theorem readMem_sound {s : State} {key n : Nat} (h : ∀ w ∈ wordsOf key n, w ∉ s.eccOne ∧ w ∉ s.eccBad) :
    s.readMem key n = (s, some (readBytes s.mem key n)) := by
  have h1 : s.eccOne.any (wordsOf key n).contains = false := by
    rw [List.any_eq_false]; intro w hw hc; exact (h w (by simpa using hc)).1 hw
  have h2 : s.eccBad.any (wordsOf key n).contains = false := by
    rw [List.any_eq_false]; intro w hw hc; exact (h w (by simpa using hc)).2 hw
  unfold State.readMem State.check; simp only [h1, h2, Bool.false_eq_true, if_false]
theorem readPiece_own {s : State} {t : Thread} {ea : Word} {n : Nat} (h : OwnBytes s t ea n) :
    (s.put t).readPiece (ownPiece s ea n) = (s.put t, some (readBytes s.mem (ownKey s ea) n)) := by
  obtain ⟨h1, h2, h3, h4, h5, h6⟩ := h
  unfold State.readPiece
  rw [key_own h1 (bits17 ea)]
  exact readMem_sound (s := s.put t) h6
/-- A DONE is no CANCELLED. -/
@[simp] theorem done_not_cancelled (r : List Word) : (Reply.done r == Reply.cancelled) = false := rfl
/-- The end of a word in the step of its issue. -/
theorem endHold_put {s : State} {t : Thread} {lag : Nat} (h : Acts s t lag) (hd : Hold) (f : Thread → Thread) :
    (s.put t).endHold s.k s.sl hd f = s.put ((f t).complete hd.ctl (t.pc + 4) s.cycle) := by
  have ht : (s.put t).thread s.k s.sl = some t := State.thread_put s t
  unfold State.endHold State.mapThread
  rw [ht]
  simp only [State.put_cycle, h.count]
  exact State.setThread_setThread s _ _ t _

end Sys2Proof.Machine
end

