-- ==== Sys2Proof/Laws/Access.lean ====
section
/-! SUPPORT. Loads, stores and atomics at the own local store, said once for all sizes. -/
namespace Sys2Proof.Machine

/-- A load from the own local store completes in its step with the bytes there. -/
theorem load_own {s : State} {t : Thread} {c : Ctl} {f size : Nat} {d base off : Reg} {w : List Reg} (i : Instr) (h : Acts s t 4)
    (hw : (if size == 16 then [d, d + 1#6] else [d]) = w) (hr : t.Runs c { immOk := true, reads := [base], writes := w, lag := 4 })
    (he : exec i s = .next (loadWord i c f size d base off s))
    (ho : OwnBytes s t (t.rd base + t.offset off * BitVec.ofNat 64 size) size) :
    exec i s = .next (s.put ((loadInto t f d (readBytes s.mem (ownKey s (t.rd base + t.offset off * BitVec.ofNat 64 size)) size)).complete c (t.pc + 4) s.cycle)) := by
  rw [he]
  unfold loadWord
  rw [runWord_runs i _ h (hw ▸ hr)]
  simp only [withAccess_own _ _ _ _ ho, conclude_stop]
  have ht : (s.put t).thread s.k s.sl = some t := State.thread_put s t
  congr 1
  simp only [List.length_singleton, State.k_put, State.sl_put]
  unfold State.readNext
  simp only [ht, isOwn_own ho.2.2.1, if_true, readPiece_own ho, newHold]
  unfold State.readNext
  simp only []
  unfold State.endRead
  simp only [ht, List.nil_append]
  exact endHold_put h _ _
/-- Sign extension of a number, as a sign extension of its low bits. -/
theorem sext_sign (w : Nat) (hw : w ≤ 64) (x : Nat) : sext w x = (BitVec.ofNat w x).signExtend 64 := by
  rw [← sext_eq w hw]; unfold sext; simp
/-- Little-endian bytes are as many as asked. -/
theorem leBytes_length (n x : Nat) : (leBytes n x).length = n := by
  induction n generalizing x with
  | zero => rfl
  | succ n ih => simp [leBytes, ih]
/-- Byte i of a little-endian number. -/
theorem leBytes_getD (n x i : Nat) (h : i < n) : (leBytes n x).getD i 0 = BitVec.ofNat 8 (x / 256 ^ i) := by
  induction n generalizing x i with
  | zero => omega
  | succ n ih =>
    cases i with
    | zero => simp [leBytes]
    | succ i =>
      have := ih (x / 256) i (by omega)
      simp only [leBytes, List.getD_cons_succ, this]
      rw [Nat.div_div_eq_div_mul, ← Nat.pow_succ']
/-- Changing the issuing thread after a store. -/
theorem mapThread_wm {s : State} {t : Thread} (key : Nat) (l : List Byte) (f : Thread → Thread) :
    ((s.put t).writeMem key l).mapThread s.k s.sl f = (s.put (f t)).writeMem key l := by
  unfold State.mapThread
  have : ((s.put t).writeMem key l).thread s.k s.sl = some t := State.thread_put s t
  rw [this]
  exact congrArg (fun z : State => z.writeMem key l) (State.setThread_setThread s s.k s.sl t (f t))
/-- A completion without a result changes no register. -/
theorem kept_complete (s : State) (t : Thread) (c : Ctl) (pc : Word) (m : Nat) : Kept s t [] [] t.fpcsr (s.put (t.complete c pc m)) :=
  kept_put (fun _ _ => rfl) (fun _ _ => rfl) rfl (by unfold Thread.SameSpecial; simp [Thread.complete])
/-- A store to the own local store: the bytes stored, and nothing else. -/
theorem store_own {s : State} {t : Thread} {c : Ctl} {f size : Nat} {d base off : Reg} {w : List Reg} (i : Instr) (h : Acts s t 4)
    (hw : (if size == 16 then [base, d, d + 1#6] else [base, d]) = w) (hr : t.Runs c { immOk := true, reads := w, lag := 4 })
    (he : exec i s = .next (storeWord i c f size d base off s)) (v : Nat)
    (hv : (if size == 16 then leBytes 8 (t.rd d).toNat ++ leBytes 8 (t.rdN (d.toNat + 1)).toNat else leBytes size (t.rd d).toNat) = leBytes size v)
    (ho : OwnBytes s t (t.rd base + t.offset off * BitVec.ofNat 64 size) size) :
    ∃ u : State, exec i s = .next u ∧ (∀ a, readByte u.mem a = if ownKey s (t.rd base + t.offset off * BitVec.ofNat 64 size) ≤ a ∧ a < ownKey s (t.rd base + t.offset off * BitVec.ofNat 64 size) + size then BitVec.ofNat 8 (v / 256 ^ (a - ownKey s (t.rd base + t.offset off * BitVec.ofNat 64 size))) else readByte s.mem a)
        ∧ u.full = s.full ∧ Kept s t [] [] t.fpcsr { u with mem := s.mem } ∧ ∃ y, u.thread s.k s.sl = some y ∧ y.pc = t.pc + 4 ∧ y.status = .ready := by
  set ea := t.rd base + t.offset off * BitVec.ofNat 64 size with hea
  have hx : exec i s = .next ((s.put (t.complete c (t.pc + 4) 0)).writeMem (ownKey s ea) (leBytes size v)) := by
    rw [he]
    unfold storeWord
    rw [runWord_runs i _ h (hw ▸ hr)]
    simp only [← hea, hv]
    rw [withAccess_own _ _ _ _ ho]
    have hcut : cutData [ownPiece s ea size] (leBytes size v) = [(ownPiece s ea size, leBytes size v)] := by
      simp only [cutData]; congr 2
      exact List.take_of_length_le (by rw [leBytes_length]; exact Nat.le_refl _)
    have hwa : (s.put t).writeAll [(ownPiece s ea size, leBytes size v)] = .ok ((s.put t).writeMem (ownKey s ea) (leBytes size v)) := by
      unfold State.writeAll State.writePiece
      rw [key_own ho.1 (bits17 ea)]; rfl
    unfold storeParts
    simp only [List.all_cons, List.all_nil, isOwn_own ho.2.2.1, Bool.and_true, if_true, hcut, hwa, conclude_done]
    rw [mapThread_wm]
  refine ⟨_, hx, ?_, rfl, kept_complete s t c _ 0, _, State.thread_put s _, rfl, rfl⟩
  intro a
  change readByte (writeBytes s.mem _ _) a = _
  rw [readByte_writeBytes, leBytes_length]
  split
  · rw [leBytes_getD _ _ _ (by omega)]
  · rfl
/-- An atomic at the own local store: the new value in memory, the old one in the register. -/
theorem amo_own {s : State} {t : Thread} {c : Ctl} {f : Nat} {w4 : Bool} {d a b : Reg} {w : List Reg} (i : Instr) (h : Acts s t 4)
    (hw : (if f == 7 then [a, b, d] else [a, b]) = w) (hr : t.Runs c { reads := w, writes := [d], lag := 4 })
    (he : exec i s = .next (amoWord i c f w4 d a b s)) (hc : 6 ≤ f → t.cnt ≤ 1)
    (ho : OwnBytes s t (t.rd a) (if w4 then 4 else 8)) (hal : (t.rd a).toNat % (if w4 then 4 else 8) = 0) :
    let n := if w4 then 4 else 8
    let key := ownKey s (t.rd a)
    let m := leNat (readBytes s.mem key n)
    let new := atomicNew f (8 * n) m ((t.rd b).toNat % 2 ^ (8 * n)) ((t.rd d).toNat % 2 ^ (8 * n)) t.cnt
    ∃ u : State, exec i s = .next u
      ∧ (∀ x, readByte u.mem x = if key ≤ x ∧ x < key + n then BitVec.ofNat 8 (new / 256 ^ (x - key)) else readByte s.mem x)
      ∧ u.full = s.full ∧ ∃ x, u.thread s.k s.sl = some x ∧ x = (t.wr d (if w4 then (BitVec.ofNat 32 m).signExtend 64 else BitVec.ofNat 64 m)).complete c (t.pc + 4) s.cycle
        ∧ Kept s t [d] [] t.fpcsr { u with mem := s.mem } := by
  intro n key m new
  set v := (t.wr d (if w4 then (BitVec.ofNat 32 m).signExtend 64 else BitVec.ofNat 64 m)).complete c (t.pc + 4) s.cycle with hv
  have hx : exec i s = .next ((s.put v).writeMem key (leBytes n new)) := by
    rw [he]
    unfold amoWord
    rw [runWord_runs i _ h (hw ▸ hr)]
    have h1 : ¬ ((t.rd a).toNat % (if w4 then 4 else 8) != 0) = true := by simp [hal]
    have h2 : ¬ ((decide (6 ≤ f) && decide (1 < t.cnt)) = true) := by
      intro hh; simp only [Bool.and_eq_true, decide_eq_true_eq] at hh; have := hc hh.1; omega
    simp only [h1, h2, Bool.false_eq_true, if_false]
    rw [withAccess_own _ _ _ _ ho]
    simp only [isOwn_own ho.2.2.1, if_true, conclude_stop, State.k_put, State.sl_put]
    have hat : ∀ p q r, (s.put t).atomic (ownPiece s (t.rd a) (if w4 then 4 else 8)) p q r t.cnt =
        ((s.put t).writeMem key (leBytes n (atomicNew p (8 * n) m q r t.cnt)), .done [BitVec.ofNat 64 m]) := by
      intro p q r
      unfold State.atomic
      rw [show (s.put t).readBlocks (ownPiece s (t.rd a) (if w4 then 4 else 8)) = s.put t from rfl, readPiece_own ho]
      simp only [State.writePiece, key_own ho.1 (bits17 _)]
      rfl
    rw [hat]
    simp only [State.resumeHold, done_not_cancelled, Bool.false_eq_true, if_false, Reply.outcome, newHold]
    unfold State.endHold
    rw [mapThread_wm]
    simp only [State.writeMem_cycle, State.put_cycle, h.count, List.headD_cons]
    have hval : (if w4 = true then sext 32 (BitVec.ofNat 64 m).toNat else BitVec.ofNat 64 m) = (if w4 then (BitVec.ofNat 32 m).signExtend 64 else BitVec.ofNat 64 m) := by
      rw [sext_sign _ (by omega)]
      have : BitVec.ofNat 32 (BitVec.ofNat 64 m).toNat = BitVec.ofNat 32 m := by
        apply BitVec.eq_of_toNat_eq; simp
      rw [this]
    rw [hval]
  refine ⟨_, hx, ?_, rfl, v, State.thread_put s _, hv, ?_⟩
  · intro x
    change readByte (writeBytes s.mem _ _) x = _
    rw [readByte_writeBytes, leBytes_length]
    split
    · rw [leBytes_getD _ _ _ (by omega)]
    · rfl
  · have := completed_kept s t c d (if w4 then (BitVec.ofNat 32 m).signExtend 64 else BitVec.ofNat 64 m) 0 s.cycle
    simp only [State.completed, Thread.orFlags_zero] at this
    exact this

end Sys2Proof.Machine
end

