-- ==== Sys2Proof/Laws/Csr.lean ====
section
/-! SUPPORT. Reading and writing K registers: which may be, and what landing results add. -/
namespace Sys2Proof.Machine

/-- The shared checks pass where the word is neither malformed nor privileged. -/
theorem runs_checked {t : Thread} {c : Ctl} {rs ws : List Reg} (b : Bool) (p : Bool) (hb : b = false) (hp : p = false) (h : t.Runs c { reads := rs, writes := ws }) :
    t.Runs c { bad := fun _ => b, priv := p, reads := rs, writes := ws } := by
  obtain ⟨h1, h2, h3, h4, h5, h6, h7⟩ := h
  exact ⟨h1, h2, h3, hb, h5, hp, h7⟩
/-- A register that may be read is not ILLEGAL. -/
theorem csr_readable (svc : Bool) (n : BitVec 12) (h : n.toNat ∈ taskCsrs ∨ (svc = true ∧ n.toNat ∈ serviceCsrs)) : csrBad svc false n.toNat = false := by
  have hs : ∀ m ∈ serviceCsrs, ¬ m < 0x800 := by decide
  have ht : ∀ m ∈ taskCsrs, m < 0x800 := by decide
  unfold csrBad
  rcases h with h | ⟨h1, h⟩
  · simp [ht _ h, h]
  · simp [hs _ h, h, h1]
/-- A register that may be written is not ILLEGAL. -/
theorem csr_writable (svc : Bool) (n : BitVec 12) (h : n.toNat ∈ taskWritable ∨ (svc = true ∧ n.toNat ∈ serviceCsrs ∧ n.toNat ≠ 0x831)) : csrBad svc true n.toNat = false := by
  have hs : ∀ m ∈ serviceCsrs, ¬ m < 0x800 := by decide
  have ht : ∀ m ∈ taskWritable, m < 0x800 ∧ m ∈ taskCsrs := by decide
  unfold csrBad
  rcases h with h | ⟨h1, h, h2⟩
  · simp [ht _ h, h]
  · simp [hs _ h, h, h1, h2]
/-- Any other register is ILLEGAL. -/
theorem csr_bad (svc wr : Bool) (n : BitVec 12) (h : ¬ (n.toNat ∈ (if wr then taskWritable else taskCsrs) ∨ (svc = true ∧ n.toNat ∈ serviceCsrs ∧ (wr = true → n.toNat ≠ 0x831))))
    (h2 : n.toNat < 0x800 ∨ svc = true) : csrBad svc wr n.toNat = true := by
  unfold csrBad
  cases wr <;> by_cases hl : n.toNat < 0x800 <;> simp_all
  · tauto
/-- Landing pending results adds their flags. -/
theorem flags_of_landed (l : List Pend) (t : Thread) (i : Nat) (hi : i < 5) : (l.foldl Thread.land1 t).fpcsr.getLsbD (3 + i) = (t.fpcsr.getLsbD (3 + i) || l.any (fun p => p.flags.getLsbD i)) := by
  induction l generalizing t with
  | nil => simp
  | cons p l ih =>
    rw [List.foldl_cons, ih, List.any_cons, ← Bool.or_assoc]
    congr 1
    simp only [Thread.land1, Thread.orFlags, BitVec.getLsbD_or]
    congr 1
    have : p.flags.toNat % 32 = p.flags.toNat := Nat.mod_eq_of_lt p.flags.isLt
    rw [this, BitVec.getLsbD_ofNat]
    have h8 : p.flags.toNat * 8 = p.flags.toNat <<< 3 := by rw [Nat.shiftLeft_eq]
    rw [h8, Nat.testBit_shiftLeft]
    have e : 3 + i - 3 = i := by omega
    have e2 : 3 + i < 15 := by omega
    simp [e2, e, BitVec.getLsbD]
/-- The latest of some cycles is none before any of them. -/
theorem foldl_max_ge (l : List Nat) (a : Nat) : a ≤ l.foldl max a ∧ ∀ x ∈ l, x ≤ l.foldl max a := by
  induction l generalizing a with
  | nil => simp
  | cons y l ih =>
    obtain ⟨h1, h2⟩ := ih (max a y)
    refine ⟨by simp only [List.foldl_cons]; omega, ?_⟩
    intro x hx
    simp only [List.foldl_cons]
    rcases List.mem_cons.mp hx with rfl | hx
    · omega
    · exact h2 x hx

end Sys2Proof.Machine
end

