-- ==== Sys2Proof/Laws/Encoding.lean ====
section
/-! SUPPORT. Each field of an encoded word reads back as it was put, format by format; the opcode map by major opcode. -/
namespace Sys2Proof

theorem ofBool_one (b : Bool) : (BitVec.ofBool b == 1#1) = b := by cases b <;> rfl
/-- The part of a concatenation below its seam, and the part above it. -/
theorem extract_low {v w : Nat} (x : BitVec v) (y : BitVec w) : BitVec.extractLsb' 0 w (x ++ y) = y := BitVec.extractLsb'_append_eq_right
theorem extract_high {v w : Nat} (x : BitVec v) (y : BitVec w) : BitVec.extractLsb' w v (x ++ y) = x := BitVec.extractLsb'_append_eq_left

/-- The qualifier bits of a vector word, and the three fields of the guard hint. -/
theorem encQual_clip (q : Qual) : (BitVec.extractLsb' 0 1 (encQual q) == 1#1) = q.clip := by
  obtain ⟨a, b, c⟩ := q; cases a <;> cases b <;> cases c <;> rfl
theorem encQual_m (q : Qual) : (BitVec.extractLsb' 1 1 (encQual q) == 1#1) = q.m := by
  obtain ⟨a, b, c⟩ := q; cases a <;> cases b <;> cases c <;> rfl
theorem encQual_s (q : Qual) : (BitVec.extractLsb' 2 1 (encQual q) == 1#1) = q.s := by
  obtain ⟨a, b, c⟩ := q; cases a <;> cases b <;> cases c <;> rfl
theorem guard_r (r k : BitVec 6) (b : Bool) : BitVec.extractLsb' 16 6 (r ++ k ++ BitVec.ofBool b ++ 0#9) = r := by
  ext i hi
  simp only [BitVec.getElem_extractLsb', BitVec.getLsbD_append]
  repeat rw [if_neg (by omega)]
  rw [← BitVec.getLsbD_eq_getElem]; congr 1; omega
theorem guard_bit (r k : BitVec 6) (b : Bool) : BitVec.extractLsb' 10 6 (r ++ k ++ BitVec.ofBool b ++ 0#9) = k := by
  ext i hi
  simp only [BitVec.getElem_extractLsb', BitVec.getLsbD_append]
  repeat (first | rw [if_neg (by omega)] | rw [if_pos (by omega)])
  rw [← BitVec.getLsbD_eq_getElem]; congr 1; omega
theorem guard_sense (r k : BitVec 6) (b : Bool) : BitVec.extractLsb' 9 1 (r ++ k ++ BitVec.ofBool b ++ 0#9) = BitVec.ofBool b := by
  ext i hi
  simp only [BitVec.getElem_extractLsb', BitVec.getLsbD_append]
  repeat (first | rw [if_neg (by omega)] | rw [if_pos (by omega)])
  rw [← BitVec.getLsbD_eq_getElem]; congr 1; omega

theorem encRRR_major (m : BitVec 6) (c : Ctl) (d a b : Reg) (f : BitVec 3) : fld (encRRR m c d a b f) 26 6 = m := by
  ext i hi
  simp only [fld, encRRR, encTop, BitVec.getElem_extractLsb', BitVec.getLsbD_append]
  repeat rw [if_neg (by omega)]
  rw [← BitVec.getLsbD_eq_getElem]; congr 1; omega
theorem encRRR_g (m : BitVec 6) (c : Ctl) (d a b : Reg) (f : BitVec 3) : fld (encRRR m c d a b f) 25 1 = BitVec.ofBool c.g := by
  ext i hi
  simp only [fld, encRRR, encTop, BitVec.getElem_extractLsb', BitVec.getLsbD_append]
  repeat (first | rw [if_neg (by omega)] | rw [if_pos (by omega)])
  rw [← BitVec.getLsbD_eq_getElem]; congr 1; omega
theorem encRRR_s (m : BitVec 6) (c : Ctl) (d a b : Reg) (f : BitVec 3) : fld (encRRR m c d a b f) 24 1 = BitVec.ofBool c.s := by
  ext i hi
  simp only [fld, encRRR, encTop, BitVec.getElem_extractLsb', BitVec.getLsbD_append]
  repeat (first | rw [if_neg (by omega)] | rw [if_pos (by omega)])
  rw [← BitVec.getLsbD_eq_getElem]; congr 1; omega
theorem encRRR_w (m : BitVec 6) (c : Ctl) (d a b : Reg) (f : BitVec 3) : fld (encRRR m c d a b f) 21 3 = c.w := by
  ext i hi
  simp only [fld, encRRR, encTop, BitVec.getElem_extractLsb', BitVec.getLsbD_append]
  repeat (first | rw [if_neg (by omega)] | rw [if_pos (by omega)])
  rw [← BitVec.getLsbD_eq_getElem]; congr 1; omega
theorem encRRR_d (m : BitVec 6) (c : Ctl) (d a b : Reg) (f : BitVec 3) : fld (encRRR m c d a b f) 15 6 = d := by
  ext i hi
  simp only [fld, encRRR, encTop, BitVec.getElem_extractLsb', BitVec.getLsbD_append]
  repeat (first | rw [if_neg (by omega)] | rw [if_pos (by omega)])
  rw [← BitVec.getLsbD_eq_getElem]; congr 1; omega
theorem encRRR_a (m : BitVec 6) (c : Ctl) (d a b : Reg) (f : BitVec 3) : fld (encRRR m c d a b f) 9 6 = a := by
  ext i hi
  simp only [fld, encRRR, encTop, BitVec.getElem_extractLsb', BitVec.getLsbD_append]
  repeat (first | rw [if_neg (by omega)] | rw [if_pos (by omega)])
  rw [← BitVec.getLsbD_eq_getElem]; congr 1; omega
theorem encRRR_b (m : BitVec 6) (c : Ctl) (d a b : Reg) (f : BitVec 3) : fld (encRRR m c d a b f) 3 6 = b := by
  ext i hi
  simp only [fld, encRRR, encTop, BitVec.getElem_extractLsb', BitVec.getLsbD_append]
  repeat (first | rw [if_neg (by omega)] | rw [if_pos (by omega)])
  rw [← BitVec.getLsbD_eq_getElem]; congr 1; omega
theorem encRRR_f (m : BitVec 6) (c : Ctl) (d a b : Reg) (f : BitVec 3) : fld (encRRR m c d a b f) 0 3 = f := by
  ext i hi
  simp only [fld, encRRR, encTop, BitVec.getElem_extractLsb', BitVec.getLsbD_append]
  repeat (first | rw [if_neg (by omega)] | rw [if_pos (by omega)])
  rw [← BitVec.getLsbD_eq_getElem]; congr 1; omega
theorem encRRR_f0 (m : BitVec 6) (c : Ctl) (d a b : Reg) (f : BitVec 3) : fld (encRRR m c d a b f) 0 2 = f.extractLsb' 0 2 := by
  ext i hi
  simp only [fld, encRRR, encTop, BitVec.getElem_extractLsb', BitVec.getLsbD_append]
  repeat (first | rw [if_neg (by omega)] | rw [if_pos (by omega)])
theorem encRRR_f2 (m : BitVec 6) (c : Ctl) (d a b : Reg) (f : BitVec 3) : fld (encRRR m c d a b f) 2 1 = f.extractLsb' 2 1 := by
  ext i hi
  simp only [fld, encRRR, encTop, BitVec.getElem_extractLsb', BitVec.getLsbD_append]
  repeat (first | rw [if_neg (by omega)] | rw [if_pos (by omega)])
theorem encRRR_b0 (m : BitVec 6) (c : Ctl) (d a b : Reg) (f : BitVec 3) : fld (encRRR m c d a b f) 3 3 = b.extractLsb' 0 3 := by
  ext i hi
  simp only [fld, encRRR, encTop, BitVec.getElem_extractLsb', BitVec.getLsbD_append]
  repeat (first | rw [if_neg (by omega)] | rw [if_pos (by omega)])
  congr 1; omega
theorem encRRR_b3 (m : BitVec 6) (c : Ctl) (d a b : Reg) (f : BitVec 3) : fld (encRRR m c d a b f) 6 3 = b.extractLsb' 3 3 := by
  ext i hi
  simp only [fld, encRRR, encTop, BitVec.getElem_extractLsb', BitVec.getLsbD_append]
  repeat (first | rw [if_neg (by omega)] | rw [if_pos (by omega)])
  congr 1; omega
theorem encRRR_n1 (m : BitVec 6) (c : Ctl) (d a b : Reg) (f : BitVec 3) : fld (encRRR m c d a b f) 4 5 = b.extractLsb' 1 5 := by
  ext i hi
  simp only [fld, encRRR, encTop, BitVec.getElem_extractLsb', BitVec.getLsbD_append]
  repeat (first | rw [if_neg (by omega)] | rw [if_pos (by omega)])
  congr 1; omega
theorem encRRR_n0 (m : BitVec 6) (c : Ctl) (d a b : Reg) (f : BitVec 3) : fld (encRRR m c d a b f) 3 1 = b.extractLsb' 0 1 := by
  ext i hi
  simp only [fld, encRRR, encTop, BitVec.getElem_extractLsb', BitVec.getLsbD_append]
  repeat (first | rw [if_neg (by omega)] | rw [if_pos (by omega)])
  congr 1; omega
theorem encRRR_ctl (m : BitVec 6) (c : Ctl) (d a b : Reg) (f : BitVec 3) : ctlOf (encRRR m c d a b f) = c := by
  simp only [ctlOf, encRRR_g, encRRR_s, encRRR_w, ofBool_one]

theorem encRI_major (m : BitVec 6) (c : Ctl) (d a : Reg) (imm : BitVec 9) : fld (encRI m c d a imm) 26 6 = m := by
  ext i hi
  simp only [fld, encRI, encTop, BitVec.getElem_extractLsb', BitVec.getLsbD_append]
  repeat rw [if_neg (by omega)]
  rw [← BitVec.getLsbD_eq_getElem]; congr 1; omega
theorem encRI_g (m : BitVec 6) (c : Ctl) (d a : Reg) (imm : BitVec 9) : fld (encRI m c d a imm) 25 1 = BitVec.ofBool c.g := by
  ext i hi
  simp only [fld, encRI, encTop, BitVec.getElem_extractLsb', BitVec.getLsbD_append]
  repeat (first | rw [if_neg (by omega)] | rw [if_pos (by omega)])
  rw [← BitVec.getLsbD_eq_getElem]; congr 1; omega
theorem encRI_s (m : BitVec 6) (c : Ctl) (d a : Reg) (imm : BitVec 9) : fld (encRI m c d a imm) 24 1 = BitVec.ofBool c.s := by
  ext i hi
  simp only [fld, encRI, encTop, BitVec.getElem_extractLsb', BitVec.getLsbD_append]
  repeat (first | rw [if_neg (by omega)] | rw [if_pos (by omega)])
  rw [← BitVec.getLsbD_eq_getElem]; congr 1; omega
theorem encRI_w (m : BitVec 6) (c : Ctl) (d a : Reg) (imm : BitVec 9) : fld (encRI m c d a imm) 21 3 = c.w := by
  ext i hi
  simp only [fld, encRI, encTop, BitVec.getElem_extractLsb', BitVec.getLsbD_append]
  repeat (first | rw [if_neg (by omega)] | rw [if_pos (by omega)])
  rw [← BitVec.getLsbD_eq_getElem]; congr 1; omega
theorem encRI_d (m : BitVec 6) (c : Ctl) (d a : Reg) (imm : BitVec 9) : fld (encRI m c d a imm) 15 6 = d := by
  ext i hi
  simp only [fld, encRI, encTop, BitVec.getElem_extractLsb', BitVec.getLsbD_append]
  repeat (first | rw [if_neg (by omega)] | rw [if_pos (by omega)])
  rw [← BitVec.getLsbD_eq_getElem]; congr 1; omega
theorem encRI_a (m : BitVec 6) (c : Ctl) (d a : Reg) (imm : BitVec 9) : fld (encRI m c d a imm) 9 6 = a := by
  ext i hi
  simp only [fld, encRI, encTop, BitVec.getElem_extractLsb', BitVec.getLsbD_append]
  repeat (first | rw [if_neg (by omega)] | rw [if_pos (by omega)])
  rw [← BitVec.getLsbD_eq_getElem]; congr 1; omega
theorem encRI_imm (m : BitVec 6) (c : Ctl) (d a : Reg) (imm : BitVec 9) : fld (encRI m c d a imm) 0 9 = imm := by
  ext i hi
  simp only [fld, encRI, encTop, BitVec.getElem_extractLsb', BitVec.getLsbD_append]
  repeat (first | rw [if_neg (by omega)] | rw [if_pos (by omega)])
  rw [← BitVec.getLsbD_eq_getElem]; congr 1; omega
theorem encRI_ctl (m : BitVec 6) (c : Ctl) (d a : Reg) (imm : BitVec 9) : ctlOf (encRI m c d a imm) = c := by
  simp only [ctlOf, encRI_g, encRI_s, encRI_w, ofBool_one]

theorem encI15_major (m : BitVec 6) (c : Ctl) (d : Reg) (imm : BitVec 15) : fld (encI15 m c d imm) 26 6 = m := by
  ext i hi
  simp only [fld, encI15, encTop, BitVec.getElem_extractLsb', BitVec.getLsbD_append]
  repeat rw [if_neg (by omega)]
  rw [← BitVec.getLsbD_eq_getElem]; congr 1; omega
theorem encI15_g (m : BitVec 6) (c : Ctl) (d : Reg) (imm : BitVec 15) : fld (encI15 m c d imm) 25 1 = BitVec.ofBool c.g := by
  ext i hi
  simp only [fld, encI15, encTop, BitVec.getElem_extractLsb', BitVec.getLsbD_append]
  repeat (first | rw [if_neg (by omega)] | rw [if_pos (by omega)])
  rw [← BitVec.getLsbD_eq_getElem]; congr 1; omega
theorem encI15_s (m : BitVec 6) (c : Ctl) (d : Reg) (imm : BitVec 15) : fld (encI15 m c d imm) 24 1 = BitVec.ofBool c.s := by
  ext i hi
  simp only [fld, encI15, encTop, BitVec.getElem_extractLsb', BitVec.getLsbD_append]
  repeat (first | rw [if_neg (by omega)] | rw [if_pos (by omega)])
  rw [← BitVec.getLsbD_eq_getElem]; congr 1; omega
theorem encI15_w (m : BitVec 6) (c : Ctl) (d : Reg) (imm : BitVec 15) : fld (encI15 m c d imm) 21 3 = c.w := by
  ext i hi
  simp only [fld, encI15, encTop, BitVec.getElem_extractLsb', BitVec.getLsbD_append]
  repeat (first | rw [if_neg (by omega)] | rw [if_pos (by omega)])
  rw [← BitVec.getLsbD_eq_getElem]; congr 1; omega
theorem encI15_d (m : BitVec 6) (c : Ctl) (d : Reg) (imm : BitVec 15) : fld (encI15 m c d imm) 15 6 = d := by
  ext i hi
  simp only [fld, encI15, encTop, BitVec.getElem_extractLsb', BitVec.getLsbD_append]
  repeat (first | rw [if_neg (by omega)] | rw [if_pos (by omega)])
  rw [← BitVec.getLsbD_eq_getElem]; congr 1; omega
theorem encI15_imm (m : BitVec 6) (c : Ctl) (d : Reg) (imm : BitVec 15) : fld (encI15 m c d imm) 0 15 = imm := by
  ext i hi
  simp only [fld, encI15, encTop, BitVec.getElem_extractLsb', BitVec.getLsbD_append]
  repeat (first | rw [if_neg (by omega)] | rw [if_pos (by omega)])
  rw [← BitVec.getLsbD_eq_getElem]; congr 1; omega
theorem encI15_ctl (m : BitVec 6) (c : Ctl) (d : Reg) (imm : BitVec 15) : ctlOf (encI15 m c d imm) = c := by
  simp only [ctlOf, encI15_g, encI15_s, encI15_w, ofBool_one]

theorem encV_major (m : BitVec 6) (c : Ctl) (vd va vb : VReg) (op : BitVec 6) (q : BitVec 3) : fld (encV m c vd va vb op q) 26 6 = m := by
  ext i hi
  simp only [fld, encV, encTop, BitVec.getElem_extractLsb', BitVec.getLsbD_append]
  repeat rw [if_neg (by omega)]
  rw [← BitVec.getLsbD_eq_getElem]; congr 1; omega
theorem encV_g (m : BitVec 6) (c : Ctl) (vd va vb : VReg) (op : BitVec 6) (q : BitVec 3) : fld (encV m c vd va vb op q) 25 1 = BitVec.ofBool c.g := by
  ext i hi
  simp only [fld, encV, encTop, BitVec.getElem_extractLsb', BitVec.getLsbD_append]
  repeat (first | rw [if_neg (by omega)] | rw [if_pos (by omega)])
  rw [← BitVec.getLsbD_eq_getElem]; congr 1; omega
theorem encV_s (m : BitVec 6) (c : Ctl) (vd va vb : VReg) (op : BitVec 6) (q : BitVec 3) : fld (encV m c vd va vb op q) 24 1 = BitVec.ofBool c.s := by
  ext i hi
  simp only [fld, encV, encTop, BitVec.getElem_extractLsb', BitVec.getLsbD_append]
  repeat (first | rw [if_neg (by omega)] | rw [if_pos (by omega)])
  rw [← BitVec.getLsbD_eq_getElem]; congr 1; omega
theorem encV_w (m : BitVec 6) (c : Ctl) (vd va vb : VReg) (op : BitVec 6) (q : BitVec 3) : fld (encV m c vd va vb op q) 21 3 = c.w := by
  ext i hi
  simp only [fld, encV, encTop, BitVec.getElem_extractLsb', BitVec.getLsbD_append]
  repeat (first | rw [if_neg (by omega)] | rw [if_pos (by omega)])
  rw [← BitVec.getLsbD_eq_getElem]; congr 1; omega
theorem encV_vd (m : BitVec 6) (c : Ctl) (vd va vb : VReg) (op : BitVec 6) (q : BitVec 3) : fld (encV m c vd va vb op q) 17 4 = vd := by
  ext i hi
  simp only [fld, encV, encTop, BitVec.getElem_extractLsb', BitVec.getLsbD_append]
  repeat (first | rw [if_neg (by omega)] | rw [if_pos (by omega)])
  rw [← BitVec.getLsbD_eq_getElem]; congr 1; omega
theorem encV_va (m : BitVec 6) (c : Ctl) (vd va vb : VReg) (op : BitVec 6) (q : BitVec 3) : fld (encV m c vd va vb op q) 13 4 = va := by
  ext i hi
  simp only [fld, encV, encTop, BitVec.getElem_extractLsb', BitVec.getLsbD_append]
  repeat (first | rw [if_neg (by omega)] | rw [if_pos (by omega)])
  rw [← BitVec.getLsbD_eq_getElem]; congr 1; omega
theorem encV_vb (m : BitVec 6) (c : Ctl) (vd va vb : VReg) (op : BitVec 6) (q : BitVec 3) : fld (encV m c vd va vb op q) 9 4 = vb := by
  ext i hi
  simp only [fld, encV, encTop, BitVec.getElem_extractLsb', BitVec.getLsbD_append]
  repeat (first | rw [if_neg (by omega)] | rw [if_pos (by omega)])
  rw [← BitVec.getLsbD_eq_getElem]; congr 1; omega
theorem encV_op (m : BitVec 6) (c : Ctl) (vd va vb : VReg) (op : BitVec 6) (q : BitVec 3) : fld (encV m c vd va vb op q) 3 6 = op := by
  ext i hi
  simp only [fld, encV, encTop, BitVec.getElem_extractLsb', BitVec.getLsbD_append]
  repeat (first | rw [if_neg (by omega)] | rw [if_pos (by omega)])
  rw [← BitVec.getLsbD_eq_getElem]; congr 1; omega
theorem encV_q0 (m : BitVec 6) (c : Ctl) (vd va vb : VReg) (op : BitVec 6) (q : BitVec 3) : fld (encV m c vd va vb op q) 0 1 = q.extractLsb' 0 1 := by
  ext i hi
  simp only [fld, encV, encTop, BitVec.getElem_extractLsb', BitVec.getLsbD_append]
  repeat (first | rw [if_neg (by omega)] | rw [if_pos (by omega)])
theorem encV_q1 (m : BitVec 6) (c : Ctl) (vd va vb : VReg) (op : BitVec 6) (q : BitVec 3) : fld (encV m c vd va vb op q) 1 1 = q.extractLsb' 1 1 := by
  ext i hi
  simp only [fld, encV, encTop, BitVec.getElem_extractLsb', BitVec.getLsbD_append]
  repeat (first | rw [if_neg (by omega)] | rw [if_pos (by omega)])
theorem encV_q2 (m : BitVec 6) (c : Ctl) (vd va vb : VReg) (op : BitVec 6) (q : BitVec 3) : fld (encV m c vd va vb op q) 2 1 = q.extractLsb' 2 1 := by
  ext i hi
  simp only [fld, encV, encTop, BitVec.getElem_extractLsb', BitVec.getLsbD_append]
  repeat (first | rw [if_neg (by omega)] | rw [if_pos (by omega)])
theorem encV_ctl (m : BitVec 6) (c : Ctl) (vd va vb : VReg) (op : BitVec 6) (q : BitVec 3) : ctlOf (encV m c vd va vb op q) = c := by
  simp only [ctlOf, encV_g, encV_s, encV_w, ofBool_one]

theorem encVM_major (m : BitVec 6) (c : Ctl) (vd : VReg) (base count : Reg) (fmt : BitVec 5) : fld (encVM m c vd base count fmt) 26 6 = m := by
  ext i hi
  simp only [fld, encVM, encTop, BitVec.getElem_extractLsb', BitVec.getLsbD_append]
  repeat rw [if_neg (by omega)]
  rw [← BitVec.getLsbD_eq_getElem]; congr 1; omega
theorem encVM_g (m : BitVec 6) (c : Ctl) (vd : VReg) (base count : Reg) (fmt : BitVec 5) : fld (encVM m c vd base count fmt) 25 1 = BitVec.ofBool c.g := by
  ext i hi
  simp only [fld, encVM, encTop, BitVec.getElem_extractLsb', BitVec.getLsbD_append]
  repeat (first | rw [if_neg (by omega)] | rw [if_pos (by omega)])
  rw [← BitVec.getLsbD_eq_getElem]; congr 1; omega
theorem encVM_s (m : BitVec 6) (c : Ctl) (vd : VReg) (base count : Reg) (fmt : BitVec 5) : fld (encVM m c vd base count fmt) 24 1 = BitVec.ofBool c.s := by
  ext i hi
  simp only [fld, encVM, encTop, BitVec.getElem_extractLsb', BitVec.getLsbD_append]
  repeat (first | rw [if_neg (by omega)] | rw [if_pos (by omega)])
  rw [← BitVec.getLsbD_eq_getElem]; congr 1; omega
theorem encVM_w (m : BitVec 6) (c : Ctl) (vd : VReg) (base count : Reg) (fmt : BitVec 5) : fld (encVM m c vd base count fmt) 21 3 = c.w := by
  ext i hi
  simp only [fld, encVM, encTop, BitVec.getElem_extractLsb', BitVec.getLsbD_append]
  repeat (first | rw [if_neg (by omega)] | rw [if_pos (by omega)])
  rw [← BitVec.getLsbD_eq_getElem]; congr 1; omega
theorem encVM_vd (m : BitVec 6) (c : Ctl) (vd : VReg) (base count : Reg) (fmt : BitVec 5) : fld (encVM m c vd base count fmt) 17 4 = vd := by
  ext i hi
  simp only [fld, encVM, encTop, BitVec.getElem_extractLsb', BitVec.getLsbD_append]
  repeat (first | rw [if_neg (by omega)] | rw [if_pos (by omega)])
  rw [← BitVec.getLsbD_eq_getElem]; congr 1; omega
theorem encVM_base (m : BitVec 6) (c : Ctl) (vd : VReg) (base count : Reg) (fmt : BitVec 5) : fld (encVM m c vd base count fmt) 11 6 = base := by
  ext i hi
  simp only [fld, encVM, encTop, BitVec.getElem_extractLsb', BitVec.getLsbD_append]
  repeat (first | rw [if_neg (by omega)] | rw [if_pos (by omega)])
  rw [← BitVec.getLsbD_eq_getElem]; congr 1; omega
theorem encVM_count (m : BitVec 6) (c : Ctl) (vd : VReg) (base count : Reg) (fmt : BitVec 5) : fld (encVM m c vd base count fmt) 5 6 = count := by
  ext i hi
  simp only [fld, encVM, encTop, BitVec.getElem_extractLsb', BitVec.getLsbD_append]
  repeat (first | rw [if_neg (by omega)] | rw [if_pos (by omega)])
  rw [← BitVec.getLsbD_eq_getElem]; congr 1; omega
theorem encVM_fmt (m : BitVec 6) (c : Ctl) (vd : VReg) (base count : Reg) (fmt : BitVec 5) : fld (encVM m c vd base count fmt) 0 5 = fmt := by
  ext i hi
  simp only [fld, encVM, encTop, BitVec.getElem_extractLsb', BitVec.getLsbD_append]
  repeat (first | rw [if_neg (by omega)] | rw [if_pos (by omega)])
  rw [← BitVec.getLsbD_eq_getElem]; congr 1; omega
theorem encVM_ctl (m : BitVec 6) (c : Ctl) (vd : VReg) (base count : Reg) (fmt : BitVec 5) : ctlOf (encVM m c vd base count fmt) = c := by
  simp only [ctlOf, encVM_g, encVM_s, encVM_w, ofBool_one]

theorem encC_major (m : BitVec 6) (c : Ctl) (vd va : VReg) (fmt : BitVec 5) (rnd : BitVec 3) (sat : Bool) (aux : BitVec 4) : fld (encC m c vd va fmt rnd sat aux) 26 6 = m := by
  ext i hi
  simp only [fld, encC, encTop, BitVec.getElem_extractLsb', BitVec.getLsbD_append]
  repeat rw [if_neg (by omega)]
  rw [← BitVec.getLsbD_eq_getElem]; congr 1; omega
theorem encC_g (m : BitVec 6) (c : Ctl) (vd va : VReg) (fmt : BitVec 5) (rnd : BitVec 3) (sat : Bool) (aux : BitVec 4) : fld (encC m c vd va fmt rnd sat aux) 25 1 = BitVec.ofBool c.g := by
  ext i hi
  simp only [fld, encC, encTop, BitVec.getElem_extractLsb', BitVec.getLsbD_append]
  repeat (first | rw [if_neg (by omega)] | rw [if_pos (by omega)])
  rw [← BitVec.getLsbD_eq_getElem]; congr 1; omega
theorem encC_s (m : BitVec 6) (c : Ctl) (vd va : VReg) (fmt : BitVec 5) (rnd : BitVec 3) (sat : Bool) (aux : BitVec 4) : fld (encC m c vd va fmt rnd sat aux) 24 1 = BitVec.ofBool c.s := by
  ext i hi
  simp only [fld, encC, encTop, BitVec.getElem_extractLsb', BitVec.getLsbD_append]
  repeat (first | rw [if_neg (by omega)] | rw [if_pos (by omega)])
  rw [← BitVec.getLsbD_eq_getElem]; congr 1; omega
theorem encC_w (m : BitVec 6) (c : Ctl) (vd va : VReg) (fmt : BitVec 5) (rnd : BitVec 3) (sat : Bool) (aux : BitVec 4) : fld (encC m c vd va fmt rnd sat aux) 21 3 = c.w := by
  ext i hi
  simp only [fld, encC, encTop, BitVec.getElem_extractLsb', BitVec.getLsbD_append]
  repeat (first | rw [if_neg (by omega)] | rw [if_pos (by omega)])
  rw [← BitVec.getLsbD_eq_getElem]; congr 1; omega
theorem encC_vd (m : BitVec 6) (c : Ctl) (vd va : VReg) (fmt : BitVec 5) (rnd : BitVec 3) (sat : Bool) (aux : BitVec 4) : fld (encC m c vd va fmt rnd sat aux) 17 4 = vd := by
  ext i hi
  simp only [fld, encC, encTop, BitVec.getElem_extractLsb', BitVec.getLsbD_append]
  repeat (first | rw [if_neg (by omega)] | rw [if_pos (by omega)])
  rw [← BitVec.getLsbD_eq_getElem]; congr 1; omega
theorem encC_va (m : BitVec 6) (c : Ctl) (vd va : VReg) (fmt : BitVec 5) (rnd : BitVec 3) (sat : Bool) (aux : BitVec 4) : fld (encC m c vd va fmt rnd sat aux) 13 4 = va := by
  ext i hi
  simp only [fld, encC, encTop, BitVec.getElem_extractLsb', BitVec.getLsbD_append]
  repeat (first | rw [if_neg (by omega)] | rw [if_pos (by omega)])
  rw [← BitVec.getLsbD_eq_getElem]; congr 1; omega
theorem encC_fmt (m : BitVec 6) (c : Ctl) (vd va : VReg) (fmt : BitVec 5) (rnd : BitVec 3) (sat : Bool) (aux : BitVec 4) : fld (encC m c vd va fmt rnd sat aux) 8 5 = fmt := by
  ext i hi
  simp only [fld, encC, encTop, BitVec.getElem_extractLsb', BitVec.getLsbD_append]
  repeat (first | rw [if_neg (by omega)] | rw [if_pos (by omega)])
  rw [← BitVec.getLsbD_eq_getElem]; congr 1; omega
theorem encC_rnd (m : BitVec 6) (c : Ctl) (vd va : VReg) (fmt : BitVec 5) (rnd : BitVec 3) (sat : Bool) (aux : BitVec 4) : fld (encC m c vd va fmt rnd sat aux) 5 3 = rnd := by
  ext i hi
  simp only [fld, encC, encTop, BitVec.getElem_extractLsb', BitVec.getLsbD_append]
  repeat (first | rw [if_neg (by omega)] | rw [if_pos (by omega)])
  rw [← BitVec.getLsbD_eq_getElem]; congr 1; omega
theorem encC_sat (m : BitVec 6) (c : Ctl) (vd va : VReg) (fmt : BitVec 5) (rnd : BitVec 3) (sat : Bool) (aux : BitVec 4) : fld (encC m c vd va fmt rnd sat aux) 4 1 = BitVec.ofBool sat := by
  ext i hi
  simp only [fld, encC, encTop, BitVec.getElem_extractLsb', BitVec.getLsbD_append]
  repeat (first | rw [if_neg (by omega)] | rw [if_pos (by omega)])
  rw [← BitVec.getLsbD_eq_getElem]; congr 1; omega
theorem encC_aux (m : BitVec 6) (c : Ctl) (vd va : VReg) (fmt : BitVec 5) (rnd : BitVec 3) (sat : Bool) (aux : BitVec 4) : fld (encC m c vd va fmt rnd sat aux) 0 4 = aux := by
  ext i hi
  simp only [fld, encC, encTop, BitVec.getElem_extractLsb', BitVec.getLsbD_append]
  repeat (first | rw [if_neg (by omega)] | rw [if_pos (by omega)])
  rw [← BitVec.getLsbD_eq_getElem]; congr 1; omega
theorem encC_ctl (m : BitVec 6) (c : Ctl) (vd va : VReg) (fmt : BitVec 5) (rnd : BitVec 3) (sat : Bool) (aux : BitVec 4) : ctlOf (encC m c vd va fmt rnd sat aux) = c := by
  simp only [ctlOf, encC_g, encC_s, encC_w, ofBool_one]

theorem encB_major (m : BitVec 6) (c : Ctl) (off : BitVec 21) : fld (encB m c off) 26 6 = m := by
  ext i hi
  simp only [fld, encB, encTop, BitVec.getElem_extractLsb', BitVec.getLsbD_append]
  repeat rw [if_neg (by omega)]
  rw [← BitVec.getLsbD_eq_getElem]; congr 1; omega
theorem encB_g (m : BitVec 6) (c : Ctl) (off : BitVec 21) : fld (encB m c off) 25 1 = BitVec.ofBool c.g := by
  ext i hi
  simp only [fld, encB, encTop, BitVec.getElem_extractLsb', BitVec.getLsbD_append]
  repeat (first | rw [if_neg (by omega)] | rw [if_pos (by omega)])
  rw [← BitVec.getLsbD_eq_getElem]; congr 1; omega
theorem encB_s (m : BitVec 6) (c : Ctl) (off : BitVec 21) : fld (encB m c off) 24 1 = BitVec.ofBool c.s := by
  ext i hi
  simp only [fld, encB, encTop, BitVec.getElem_extractLsb', BitVec.getLsbD_append]
  repeat (first | rw [if_neg (by omega)] | rw [if_pos (by omega)])
  rw [← BitVec.getLsbD_eq_getElem]; congr 1; omega
theorem encB_w (m : BitVec 6) (c : Ctl) (off : BitVec 21) : fld (encB m c off) 21 3 = c.w := by
  ext i hi
  simp only [fld, encB, encTop, BitVec.getElem_extractLsb', BitVec.getLsbD_append]
  repeat (first | rw [if_neg (by omega)] | rw [if_pos (by omega)])
  rw [← BitVec.getLsbD_eq_getElem]; congr 1; omega
theorem encB_off (m : BitVec 6) (c : Ctl) (off : BitVec 21) : fld (encB m c off) 0 21 = off := by
  ext i hi
  simp only [fld, encB, encTop, BitVec.getElem_extractLsb', BitVec.getLsbD_append]
  repeat (first | rw [if_neg (by omega)] | rw [if_pos (by omega)])
  rw [← BitVec.getLsbD_eq_getElem]; congr 1; omega
theorem encB_ctl (m : BitVec 6) (c : Ctl) (off : BitVec 21) : ctlOf (encB m c off) = c := by
  simp only [ctlOf, encB_g, encB_s, encB_w, ofBool_one]

theorem encCSR_major (c : Ctl) (d : Reg) (n : BitVec 12) (f : BitVec 3) : fld (encCSR c d n f) 26 6 = 58#6 := by
  ext i hi
  simp only [fld, encCSR, encTop, BitVec.getElem_extractLsb', BitVec.getLsbD_append]
  repeat rw [if_neg (by omega)]
  rw [← BitVec.getLsbD_eq_getElem]; congr 1; omega
theorem encCSR_g (c : Ctl) (d : Reg) (n : BitVec 12) (f : BitVec 3) : fld (encCSR c d n f) 25 1 = BitVec.ofBool c.g := by
  ext i hi
  simp only [fld, encCSR, encTop, BitVec.getElem_extractLsb', BitVec.getLsbD_append]
  repeat (first | rw [if_neg (by omega)] | rw [if_pos (by omega)])
  rw [← BitVec.getLsbD_eq_getElem]; congr 1; omega
theorem encCSR_s (c : Ctl) (d : Reg) (n : BitVec 12) (f : BitVec 3) : fld (encCSR c d n f) 24 1 = BitVec.ofBool c.s := by
  ext i hi
  simp only [fld, encCSR, encTop, BitVec.getElem_extractLsb', BitVec.getLsbD_append]
  repeat (first | rw [if_neg (by omega)] | rw [if_pos (by omega)])
  rw [← BitVec.getLsbD_eq_getElem]; congr 1; omega
theorem encCSR_w (c : Ctl) (d : Reg) (n : BitVec 12) (f : BitVec 3) : fld (encCSR c d n f) 21 3 = c.w := by
  ext i hi
  simp only [fld, encCSR, encTop, BitVec.getElem_extractLsb', BitVec.getLsbD_append]
  repeat (first | rw [if_neg (by omega)] | rw [if_pos (by omega)])
  rw [← BitVec.getLsbD_eq_getElem]; congr 1; omega
theorem encCSR_d (c : Ctl) (d : Reg) (n : BitVec 12) (f : BitVec 3) : fld (encCSR c d n f) 15 6 = d := by
  ext i hi
  simp only [fld, encCSR, encTop, BitVec.getElem_extractLsb', BitVec.getLsbD_append]
  repeat (first | rw [if_neg (by omega)] | rw [if_pos (by omega)])
  rw [← BitVec.getLsbD_eq_getElem]; congr 1; omega
theorem encCSR_n (c : Ctl) (d : Reg) (n : BitVec 12) (f : BitVec 3) : fld (encCSR c d n f) 3 12 = n := by
  ext i hi
  simp only [fld, encCSR, encTop, BitVec.getElem_extractLsb', BitVec.getLsbD_append]
  repeat (first | rw [if_neg (by omega)] | rw [if_pos (by omega)])
  rw [← BitVec.getLsbD_eq_getElem]; congr 1; omega
theorem encCSR_f (c : Ctl) (d : Reg) (n : BitVec 12) (f : BitVec 3) : fld (encCSR c d n f) 0 3 = f := by
  ext i hi
  simp only [fld, encCSR, encTop, BitVec.getElem_extractLsb', BitVec.getLsbD_append]
  repeat (first | rw [if_neg (by omega)] | rw [if_pos (by omega)])
  rw [← BitVec.getLsbD_eq_getElem]; congr 1; omega
theorem encCSR_ctl (c : Ctl) (d : Reg) (n : BitVec 12) (f : BitVec 3) : ctlOf (encCSR c d n f) = c := by
  simp only [ctlOf, encCSR_g, encCSR_s, encCSR_w, ofBool_one]

theorem encHint_major (k : BitVec 4) (p : BitVec 22) : fld (encHint k p) 26 6 = 63#6 := by
  ext i hi
  simp only [fld, encHint, BitVec.getElem_extractLsb', BitVec.getLsbD_append]
  repeat rw [if_neg (by omega)]
  rw [← BitVec.getLsbD_eq_getElem]; congr 1; omega
theorem encHint_kind (k : BitVec 4) (p : BitVec 22) : fld (encHint k p) 22 4 = k := by
  ext i hi
  simp only [fld, encHint, BitVec.getElem_extractLsb', BitVec.getLsbD_append]
  repeat (first | rw [if_neg (by omega)] | rw [if_pos (by omega)])
  rw [← BitVec.getLsbD_eq_getElem]; congr 1; omega
theorem encHint_p (k : BitVec 4) (p : BitVec 22) : fld (encHint k p) 0 22 = p := by
  ext i hi
  simp only [fld, encHint, BitVec.getElem_extractLsb', BitVec.getLsbD_append]
  repeat (first | rw [if_neg (by omega)] | rw [if_pos (by omega)])
  rw [← BitVec.getLsbD_eq_getElem]; congr 1; omega
theorem encHint_p9 (k : BitVec 4) (p : BitVec 22) : fld (encHint k p) 0 9 = p.extractLsb' 0 9 := by
  ext i hi
  simp only [fld, encHint, BitVec.getElem_extractLsb', BitVec.getLsbD_append]
  repeat (first | rw [if_neg (by omega)] | rw [if_pos (by omega)])
theorem encHint_p16 (k : BitVec 4) (p : BitVec 22) : fld (encHint k p) 16 6 = p.extractLsb' 16 6 := by
  ext i hi
  simp only [fld, encHint, BitVec.getElem_extractLsb', BitVec.getLsbD_append]
  repeat (first | rw [if_neg (by omega)] | rw [if_pos (by omega)])
theorem encHint_p10 (k : BitVec 4) (p : BitVec 22) : fld (encHint k p) 10 6 = p.extractLsb' 10 6 := by
  ext i hi
  simp only [fld, encHint, BitVec.getElem_extractLsb', BitVec.getLsbD_append]
  repeat (first | rw [if_neg (by omega)] | rw [if_pos (by omega)])
theorem encHint_pb (k : BitVec 4) (p : BitVec 22) : fld (encHint k p) 9 1 = p.extractLsb' 9 1 := by
  ext i hi
  simp only [fld, encHint, BitVec.getElem_extractLsb', BitVec.getLsbD_append]
  repeat (first | rw [if_neg (by omega)] | rw [if_pos (by omega)])
theorem encHint_p3 (k : BitVec 4) (p : BitVec 22) : fld (encHint k p) 3 19 = p.extractLsb' 3 19 := by
  ext i hi
  simp only [fld, encHint, BitVec.getElem_extractLsb', BitVec.getLsbD_append]
  repeat (first | rw [if_neg (by omega)] | rw [if_pos (by omega)])
theorem encHint_p03 (k : BitVec 4) (p : BitVec 22) : fld (encHint k p) 0 3 = p.extractLsb' 0 3 := by
  ext i hi
  simp only [fld, encHint, BitVec.getElem_extractLsb', BitVec.getLsbD_append]
  repeat (first | rw [if_neg (by omega)] | rw [if_pos (by omega)])
theorem encHint_p8 (k : BitVec 4) (p : BitVec 22) : fld (encHint k p) 8 14 = p.extractLsb' 8 14 := by
  ext i hi
  simp only [fld, encHint, BitVec.getElem_extractLsb', BitVec.getLsbD_append]
  repeat (first | rw [if_neg (by omega)] | rw [if_pos (by omega)])
theorem encHint_p08 (k : BitVec 4) (p : BitVec 22) : fld (encHint k p) 0 8 = p.extractLsb' 0 8 := by
  ext i hi
  simp only [fld, encHint, BitVec.getElem_extractLsb', BitVec.getLsbD_append]
  repeat (first | rw [if_neg (by omega)] | rw [if_pos (by omega)])

theorem encX_eq (m : BitVec 6) (c : Ctl) (d a n : Reg) (f : BitVec 3) : encX m c d a n f = encRRR m c d a n f := rfl

theorem raw_01 (w : IWord) (h : fld w 26 6 = 1#6) : decodeRaw w = decInt w 1 := by unfold decodeRaw; rw [h]; rfl
theorem raw_02 (w : IWord) (h : fld w 26 6 = 2#6) : decodeRaw w = decInt w 2 := by unfold decodeRaw; rw [h]; rfl
theorem raw_03 (w : IWord) (h : fld w 26 6 = 3#6) : decodeRaw w = decInt w 3 := by unfold decodeRaw; rw [h]; rfl
theorem raw_04 (w : IWord) (h : fld w 26 6 = 4#6) : decodeRaw w = decInt w 4 := by unfold decodeRaw; rw [h]; rfl
theorem raw_05 (w : IWord) (h : fld w 26 6 = 5#6) : decodeRaw w = decInt w 5 := by unfold decodeRaw; rw [h]; rfl
theorem raw_06 (w : IWord) (h : fld w 26 6 = 6#6) : decodeRaw w = .ok (.addi (ctlOf w) (fD w) (fA w) (fld w 0 9)) := by unfold decodeRaw; rw [h]; rfl
theorem raw_07 (w : IWord) (h : fld w 26 6 = 7#6) : decodeRaw w = .ok (.andi (ctlOf w) (fD w) (fA w) (fld w 0 9)) := by unfold decodeRaw; rw [h]; rfl
theorem raw_08 (w : IWord) (h : fld w 26 6 = 8#6) : decodeRaw w = .ok (.ori (ctlOf w) (fD w) (fA w) (fld w 0 9)) := by unfold decodeRaw; rw [h]; rfl
theorem raw_09 (w : IWord) (h : fld w 26 6 = 9#6) : decodeRaw w = .ok (.xori (ctlOf w) (fD w) (fA w) (fld w 0 9)) := by unfold decodeRaw; rw [h]; rfl
theorem raw_0A (w : IWord) (h : fld w 26 6 = 10#6) : decodeRaw w = .ok (.shli (ctlOf w) (fD w) (fA w) (fld w 0 9)) := by unfold decodeRaw; rw [h]; rfl
theorem raw_0B (w : IWord) (h : fld w 26 6 = 11#6) : decodeRaw w = .ok (.shri (ctlOf w) (fD w) (fA w) (fld w 0 9)) := by unfold decodeRaw; rw [h]; rfl
theorem raw_0C (w : IWord) (h : fld w 26 6 = 12#6) : decodeRaw w = .ok (.srai (ctlOf w) (fD w) (fA w) (fld w 0 9)) := by unfold decodeRaw; rw [h]; rfl
theorem raw_0D (w : IWord) (h : fld w 26 6 = 13#6) : decodeRaw w = .ok (.movi (ctlOf w) (fD w) (fld w 0 15)) := by unfold decodeRaw; rw [h]; rfl
theorem raw_0E (w : IWord) (h : fld w 26 6 = 14#6) : decodeRaw w = .ok (.movs (ctlOf w) (fD w) (fld w 0 15)) := by unfold decodeRaw; rw [h]; rfl
theorem raw_0F (w : IWord) (h : fld w 26 6 = 15#6) : decodeRaw w = if fB w == 2#6 then .ok (.gaddr (ctlOf w) (fD w) (fA w) (fF w)) else .error .field := by unfold decodeRaw; rw [h]; rfl
theorem raw_10 (w : IWord) (h : fld w 26 6 = 16#6) : decodeRaw w = decFp w 0x10 := by unfold decodeRaw; rw [h]; rfl
theorem raw_11 (w : IWord) (h : fld w 26 6 = 17#6) : decodeRaw w = decFp w 0x11 := by unfold decodeRaw; rw [h]; rfl
theorem raw_12 (w : IWord) (h : fld w 26 6 = 18#6) : decodeRaw w = decFp w 0x12 := by unfold decodeRaw; rw [h]; rfl
theorem raw_13 (w : IWord) (h : fld w 26 6 = 19#6) : decodeRaw w = decFp w 0x13 := by unfold decodeRaw; rw [h]; rfl
theorem raw_14 (w : IWord) (h : fld w 26 6 = 20#6) : decodeRaw w = decFp w 0x14 := by unfold decodeRaw; rw [h]; rfl
theorem raw_15 (w : IWord) (h : fld w 26 6 = 21#6) : decodeRaw w = decFp w 0x15 := by unfold decodeRaw; rw [h]; rfl
theorem raw_16 (w : IWord) (h : fld w 26 6 = 22#6) : decodeRaw w = decFp w 0x16 := by unfold decodeRaw; rw [h]; rfl
theorem raw_17 (w : IWord) (h : fld w 26 6 = 23#6) : decodeRaw w = decFp w 0x17 := by unfold decodeRaw; rw [h]; rfl
theorem raw_18 (w : IWord) (h : fld w 26 6 = 24#6) : decodeRaw w = decFp w 0x18 := by unfold decodeRaw; rw [h]; rfl
theorem raw_19 (w : IWord) (h : fld w 26 6 = 25#6) : decodeRaw w = decFp w 0x19 := by unfold decodeRaw; rw [h]; rfl
theorem raw_1A (w : IWord) (h : fld w 26 6 = 26#6) : decodeRaw w = decFp w 0x1A := by unfold decodeRaw; rw [h]; rfl
theorem raw_1B (w : IWord) (h : fld w 26 6 = 27#6) : decodeRaw w = decFp w 0x1B := by unfold decodeRaw; rw [h]; rfl
theorem raw_20 (w : IWord) (h : fld w 26 6 = 32#6) : decodeRaw w = decVec w 0x20 := by unfold decodeRaw; rw [h]; rfl
theorem raw_21 (w : IWord) (h : fld w 26 6 = 33#6) : decodeRaw w = decVec w 0x21 := by unfold decodeRaw; rw [h]; rfl
theorem raw_22 (w : IWord) (h : fld w 26 6 = 34#6) : decodeRaw w = decVec w 0x22 := by unfold decodeRaw; rw [h]; rfl
theorem raw_23 (w : IWord) (h : fld w 26 6 = 35#6) : decodeRaw w = decVec w 0x23 := by unfold decodeRaw; rw [h]; rfl
theorem raw_24 (w : IWord) (h : fld w 26 6 = 36#6) : decodeRaw w = decVec w 0x24 := by unfold decodeRaw; rw [h]; rfl
theorem raw_25 (w : IWord) (h : fld w 26 6 = 37#6) : decodeRaw w = decVec w 0x25 := by unfold decodeRaw; rw [h]; rfl
theorem raw_26 (w : IWord) (h : fld w 26 6 = 38#6) : decodeRaw w = decVec w 0x26 := by unfold decodeRaw; rw [h]; rfl
theorem raw_28 (w : IWord) (h : fld w 26 6 = 40#6) : decodeRaw w = decMem w 0x28 := by unfold decodeRaw; rw [h]; rfl
theorem raw_29 (w : IWord) (h : fld w 26 6 = 41#6) : decodeRaw w = decMem w 0x29 := by unfold decodeRaw; rw [h]; rfl
theorem raw_2A (w : IWord) (h : fld w 26 6 = 42#6) : decodeRaw w = decMem w 0x2A := by unfold decodeRaw; rw [h]; rfl
theorem raw_2B (w : IWord) (h : fld w 26 6 = 43#6) : decodeRaw w = decMem w 0x2B := by unfold decodeRaw; rw [h]; rfl
theorem raw_2C (w : IWord) (h : fld w 26 6 = 44#6) : decodeRaw w = decMem w 0x2C := by unfold decodeRaw; rw [h]; rfl
theorem raw_2D (w : IWord) (h : fld w 26 6 = 45#6) : decodeRaw w = decMem w 0x2D := by unfold decodeRaw; rw [h]; rfl
theorem raw_2E (w : IWord) (h : fld w 26 6 = 46#6) : decodeRaw w = decMem w 0x2E := by unfold decodeRaw; rw [h]; rfl
theorem raw_2F (w : IWord) (h : fld w 26 6 = 47#6) : decodeRaw w = decMem w 0x2F := by unfold decodeRaw; rw [h]; rfl
theorem raw_30 (w : IWord) (h : fld w 26 6 = 48#6) : decodeRaw w = decFence w 0x30 := by unfold decodeRaw; rw [h]; rfl
theorem raw_31 (w : IWord) (h : fld w 26 6 = 49#6) : decodeRaw w = decFence w 0x31 := by unfold decodeRaw; rw [h]; rfl
theorem raw_32 (w : IWord) (h : fld w 26 6 = 50#6) : decodeRaw w = decFence w 0x32 := by unfold decodeRaw; rw [h]; rfl
theorem raw_33 (w : IWord) (h : fld w 26 6 = 51#6) : decodeRaw w = decEngine w 0x33 := by unfold decodeRaw; rw [h]; rfl
theorem raw_34 (w : IWord) (h : fld w 26 6 = 52#6) : decodeRaw w = decEngine w 0x34 := by unfold decodeRaw; rw [h]; rfl
theorem raw_35 (w : IWord) (h : fld w 26 6 = 53#6) : decodeRaw w = decEngine w 0x35 := by unfold decodeRaw; rw [h]; rfl
theorem raw_36 (w : IWord) (h : fld w 26 6 = 54#6) : decodeRaw w = decCtl w 0x36 := by unfold decodeRaw; rw [h]; rfl
theorem raw_37 (w : IWord) (h : fld w 26 6 = 55#6) : decodeRaw w = decCtl w 0x37 := by unfold decodeRaw; rw [h]; rfl
theorem raw_38 (w : IWord) (h : fld w 26 6 = 56#6) : decodeRaw w = decCtl w 0x38 := by unfold decodeRaw; rw [h]; rfl
theorem raw_39 (w : IWord) (h : fld w 26 6 = 57#6) : decodeRaw w = decCtl w 0x39 := by unfold decodeRaw; rw [h]; rfl
theorem raw_3A (w : IWord) (h : fld w 26 6 = 58#6) : decodeRaw w = decCtl w 0x3A := by unfold decodeRaw; rw [h]; rfl
theorem raw_3F (w : IWord) (h : fld w 26 6 = 63#6) : decodeRaw w = decHint w := by unfold decodeRaw; rw [h]; rfl

/-- A word that the opcode map reads as a well-formed instruction decodes to it. -/
theorem decode_of_raw {w : IWord} {i : Instr} (h : decodeRaw w = .ok i) (hw : i.wf = true) : decode w = .ok i := by
  unfold decode; rw [h]; simp [hw]

end Sys2Proof
end

