-- ==== Sys2Proof/Laws/PerInstr.lean ====
section
/-! SUPPORT. The family RoundTrip: an instruction that is a well-formed word decodes from its encoding, one lemma a constructor. -/
set_option Elab.async false
set_option linter.unusedSimpArgs false
set_option linter.unusedTactic false
set_option linter.unreachableTactic false
set_option linter.unnecessarySeqFocus false
namespace Sys2Proof.Laws.RoundTrip

/-- What is said of each instruction. -/
def Statement (i : Instr) : Prop := i.isWord = true → i.wf = true → decode (encode i) = .ok i

theorem add (c : Ctl) (d : Reg) (a : Reg) (b : Reg) : Statement (.add c d a b) := by
  intro _ hw
  refine decode_of_raw ?_ hw
  change decodeRaw (encRRR 1#6 c d a b 0#3) = _
  rw [raw_01 _ (encRRR_major ..)]
  simp only [decInt, fD, fA, fB, fF, fVd, fVa, fVb, fOp, fQ, encRRR_major, encRRR_d, encRRR_a, encRRR_b, encRRR_f, encRRR_f0, encRRR_f2, encRRR_b0, encRRR_b3, encRRR_n1, encRRR_n0, encRRR_ctl, extract_low, extract_high, encQual_clip, encQual_m, encQual_s, guard_r, guard_bit, guard_sense, ofBool_one, need, beq_self_eq_true, if_true] <;> rfl
theorem sub (c : Ctl) (d : Reg) (a : Reg) (b : Reg) : Statement (.sub c d a b) := by
  intro _ hw
  refine decode_of_raw ?_ hw
  change decodeRaw (encRRR 1#6 c d a b 1#3) = _
  rw [raw_01 _ (encRRR_major ..)]
  simp only [decInt, fD, fA, fB, fF, fVd, fVa, fVb, fOp, fQ, encRRR_major, encRRR_d, encRRR_a, encRRR_b, encRRR_f, encRRR_f0, encRRR_f2, encRRR_b0, encRRR_b3, encRRR_n1, encRRR_n0, encRRR_ctl, extract_low, extract_high, encQual_clip, encQual_m, encQual_s, guard_r, guard_bit, guard_sense, ofBool_one, need, beq_self_eq_true, if_true] <;> rfl
theorem and (c : Ctl) (d : Reg) (a : Reg) (b : Reg) : Statement (.and c d a b) := by
  intro _ hw
  refine decode_of_raw ?_ hw
  change decodeRaw (encRRR 1#6 c d a b 2#3) = _
  rw [raw_01 _ (encRRR_major ..)]
  simp only [decInt, fD, fA, fB, fF, fVd, fVa, fVb, fOp, fQ, encRRR_major, encRRR_d, encRRR_a, encRRR_b, encRRR_f, encRRR_f0, encRRR_f2, encRRR_b0, encRRR_b3, encRRR_n1, encRRR_n0, encRRR_ctl, extract_low, extract_high, encQual_clip, encQual_m, encQual_s, guard_r, guard_bit, guard_sense, ofBool_one, need, beq_self_eq_true, if_true] <;> rfl
theorem or (c : Ctl) (d : Reg) (a : Reg) (b : Reg) : Statement (.or c d a b) := by
  intro _ hw
  refine decode_of_raw ?_ hw
  change decodeRaw (encRRR 1#6 c d a b 3#3) = _
  rw [raw_01 _ (encRRR_major ..)]
  simp only [decInt, fD, fA, fB, fF, fVd, fVa, fVb, fOp, fQ, encRRR_major, encRRR_d, encRRR_a, encRRR_b, encRRR_f, encRRR_f0, encRRR_f2, encRRR_b0, encRRR_b3, encRRR_n1, encRRR_n0, encRRR_ctl, extract_low, extract_high, encQual_clip, encQual_m, encQual_s, guard_r, guard_bit, guard_sense, ofBool_one, need, beq_self_eq_true, if_true] <;> rfl
theorem xor (c : Ctl) (d : Reg) (a : Reg) (b : Reg) : Statement (.xor c d a b) := by
  intro _ hw
  refine decode_of_raw ?_ hw
  change decodeRaw (encRRR 1#6 c d a b 4#3) = _
  rw [raw_01 _ (encRRR_major ..)]
  simp only [decInt, fD, fA, fB, fF, fVd, fVa, fVb, fOp, fQ, encRRR_major, encRRR_d, encRRR_a, encRRR_b, encRRR_f, encRRR_f0, encRRR_f2, encRRR_b0, encRRR_b3, encRRR_n1, encRRR_n0, encRRR_ctl, extract_low, extract_high, encQual_clip, encQual_m, encQual_s, guard_r, guard_bit, guard_sense, ofBool_one, need, beq_self_eq_true, if_true] <;> rfl
theorem shl (c : Ctl) (d : Reg) (a : Reg) (b : Reg) : Statement (.shl c d a b) := by
  intro _ hw
  refine decode_of_raw ?_ hw
  change decodeRaw (encRRR 1#6 c d a b 5#3) = _
  rw [raw_01 _ (encRRR_major ..)]
  simp only [decInt, fD, fA, fB, fF, fVd, fVa, fVb, fOp, fQ, encRRR_major, encRRR_d, encRRR_a, encRRR_b, encRRR_f, encRRR_f0, encRRR_f2, encRRR_b0, encRRR_b3, encRRR_n1, encRRR_n0, encRRR_ctl, extract_low, extract_high, encQual_clip, encQual_m, encQual_s, guard_r, guard_bit, guard_sense, ofBool_one, need, beq_self_eq_true, if_true] <;> rfl
theorem shr (c : Ctl) (d : Reg) (a : Reg) (b : Reg) : Statement (.shr c d a b) := by
  intro _ hw
  refine decode_of_raw ?_ hw
  change decodeRaw (encRRR 1#6 c d a b 6#3) = _
  rw [raw_01 _ (encRRR_major ..)]
  simp only [decInt, fD, fA, fB, fF, fVd, fVa, fVb, fOp, fQ, encRRR_major, encRRR_d, encRRR_a, encRRR_b, encRRR_f, encRRR_f0, encRRR_f2, encRRR_b0, encRRR_b3, encRRR_n1, encRRR_n0, encRRR_ctl, extract_low, extract_high, encQual_clip, encQual_m, encQual_s, guard_r, guard_bit, guard_sense, ofBool_one, need, beq_self_eq_true, if_true] <;> rfl
theorem sra (c : Ctl) (d : Reg) (a : Reg) (b : Reg) : Statement (.sra c d a b) := by
  intro _ hw
  refine decode_of_raw ?_ hw
  change decodeRaw (encRRR 1#6 c d a b 7#3) = _
  rw [raw_01 _ (encRRR_major ..)]
  simp only [decInt, fD, fA, fB, fF, fVd, fVa, fVb, fOp, fQ, encRRR_major, encRRR_d, encRRR_a, encRRR_b, encRRR_f, encRRR_f0, encRRR_f2, encRRR_b0, encRRR_b3, encRRR_n1, encRRR_n0, encRRR_ctl, extract_low, extract_high, encQual_clip, encQual_m, encQual_s, guard_r, guard_bit, guard_sense, ofBool_one, need, beq_self_eq_true, if_true] <;> rfl
theorem mul (c : Ctl) (d : Reg) (a : Reg) (b : Reg) : Statement (.mul c d a b) := by
  intro _ hw
  refine decode_of_raw ?_ hw
  change decodeRaw (encRRR 2#6 c d a b 0#3) = _
  rw [raw_02 _ (encRRR_major ..)]
  simp only [decInt, fD, fA, fB, fF, fVd, fVa, fVb, fOp, fQ, encRRR_major, encRRR_d, encRRR_a, encRRR_b, encRRR_f, encRRR_f0, encRRR_f2, encRRR_b0, encRRR_b3, encRRR_n1, encRRR_n0, encRRR_ctl, extract_low, extract_high, encQual_clip, encQual_m, encQual_s, guard_r, guard_bit, guard_sense, ofBool_one, need, beq_self_eq_true, if_true] <;> rfl
theorem mulh (c : Ctl) (d : Reg) (a : Reg) (b : Reg) : Statement (.mulh c d a b) := by
  intro _ hw
  refine decode_of_raw ?_ hw
  change decodeRaw (encRRR 2#6 c d a b 1#3) = _
  rw [raw_02 _ (encRRR_major ..)]
  simp only [decInt, fD, fA, fB, fF, fVd, fVa, fVb, fOp, fQ, encRRR_major, encRRR_d, encRRR_a, encRRR_b, encRRR_f, encRRR_f0, encRRR_f2, encRRR_b0, encRRR_b3, encRRR_n1, encRRR_n0, encRRR_ctl, extract_low, extract_high, encQual_clip, encQual_m, encQual_s, guard_r, guard_bit, guard_sense, ofBool_one, need, beq_self_eq_true, if_true] <;> rfl
theorem mulhu (c : Ctl) (d : Reg) (a : Reg) (b : Reg) : Statement (.mulhu c d a b) := by
  intro _ hw
  refine decode_of_raw ?_ hw
  change decodeRaw (encRRR 2#6 c d a b 2#3) = _
  rw [raw_02 _ (encRRR_major ..)]
  simp only [decInt, fD, fA, fB, fF, fVd, fVa, fVb, fOp, fQ, encRRR_major, encRRR_d, encRRR_a, encRRR_b, encRRR_f, encRRR_f0, encRRR_f2, encRRR_b0, encRRR_b3, encRRR_n1, encRRR_n0, encRRR_ctl, extract_low, extract_high, encQual_clip, encQual_m, encQual_s, guard_r, guard_bit, guard_sense, ofBool_one, need, beq_self_eq_true, if_true] <;> rfl
theorem div (c : Ctl) (d : Reg) (a : Reg) (b : Reg) : Statement (.div c d a b) := by
  intro _ hw
  refine decode_of_raw ?_ hw
  change decodeRaw (encRRR 2#6 c d a b 3#3) = _
  rw [raw_02 _ (encRRR_major ..)]
  simp only [decInt, fD, fA, fB, fF, fVd, fVa, fVb, fOp, fQ, encRRR_major, encRRR_d, encRRR_a, encRRR_b, encRRR_f, encRRR_f0, encRRR_f2, encRRR_b0, encRRR_b3, encRRR_n1, encRRR_n0, encRRR_ctl, extract_low, extract_high, encQual_clip, encQual_m, encQual_s, guard_r, guard_bit, guard_sense, ofBool_one, need, beq_self_eq_true, if_true] <;> rfl
theorem divu (c : Ctl) (d : Reg) (a : Reg) (b : Reg) : Statement (.divu c d a b) := by
  intro _ hw
  refine decode_of_raw ?_ hw
  change decodeRaw (encRRR 2#6 c d a b 4#3) = _
  rw [raw_02 _ (encRRR_major ..)]
  simp only [decInt, fD, fA, fB, fF, fVd, fVa, fVb, fOp, fQ, encRRR_major, encRRR_d, encRRR_a, encRRR_b, encRRR_f, encRRR_f0, encRRR_f2, encRRR_b0, encRRR_b3, encRRR_n1, encRRR_n0, encRRR_ctl, extract_low, extract_high, encQual_clip, encQual_m, encQual_s, guard_r, guard_bit, guard_sense, ofBool_one, need, beq_self_eq_true, if_true] <;> rfl
theorem rem (c : Ctl) (d : Reg) (a : Reg) (b : Reg) : Statement (.rem c d a b) := by
  intro _ hw
  refine decode_of_raw ?_ hw
  change decodeRaw (encRRR 2#6 c d a b 5#3) = _
  rw [raw_02 _ (encRRR_major ..)]
  simp only [decInt, fD, fA, fB, fF, fVd, fVa, fVb, fOp, fQ, encRRR_major, encRRR_d, encRRR_a, encRRR_b, encRRR_f, encRRR_f0, encRRR_f2, encRRR_b0, encRRR_b3, encRRR_n1, encRRR_n0, encRRR_ctl, extract_low, extract_high, encQual_clip, encQual_m, encQual_s, guard_r, guard_bit, guard_sense, ofBool_one, need, beq_self_eq_true, if_true] <;> rfl
theorem remu (c : Ctl) (d : Reg) (a : Reg) (b : Reg) : Statement (.remu c d a b) := by
  intro _ hw
  refine decode_of_raw ?_ hw
  change decodeRaw (encRRR 2#6 c d a b 6#3) = _
  rw [raw_02 _ (encRRR_major ..)]
  simp only [decInt, fD, fA, fB, fF, fVd, fVa, fVb, fOp, fQ, encRRR_major, encRRR_d, encRRR_a, encRRR_b, encRRR_f, encRRR_f0, encRRR_f2, encRRR_b0, encRRR_b3, encRRR_n1, encRRR_n0, encRRR_ctl, extract_low, extract_high, encQual_clip, encQual_m, encQual_s, guard_r, guard_bit, guard_sense, ofBool_one, need, beq_self_eq_true, if_true] <;> rfl
theorem min_ (c : Ctl) (d : Reg) (a : Reg) (b : Reg) : Statement (.min_ c d a b) := by
  intro _ hw
  refine decode_of_raw ?_ hw
  change decodeRaw (encRRR 3#6 c d a b 0#3) = _
  rw [raw_03 _ (encRRR_major ..)]
  simp only [decInt, fD, fA, fB, fF, fVd, fVa, fVb, fOp, fQ, encRRR_major, encRRR_d, encRRR_a, encRRR_b, encRRR_f, encRRR_f0, encRRR_f2, encRRR_b0, encRRR_b3, encRRR_n1, encRRR_n0, encRRR_ctl, extract_low, extract_high, encQual_clip, encQual_m, encQual_s, guard_r, guard_bit, guard_sense, ofBool_one, need, beq_self_eq_true, if_true] <;> rfl
theorem max_ (c : Ctl) (d : Reg) (a : Reg) (b : Reg) : Statement (.max_ c d a b) := by
  intro _ hw
  refine decode_of_raw ?_ hw
  change decodeRaw (encRRR 3#6 c d a b 1#3) = _
  rw [raw_03 _ (encRRR_major ..)]
  simp only [decInt, fD, fA, fB, fF, fVd, fVa, fVb, fOp, fQ, encRRR_major, encRRR_d, encRRR_a, encRRR_b, encRRR_f, encRRR_f0, encRRR_f2, encRRR_b0, encRRR_b3, encRRR_n1, encRRR_n0, encRRR_ctl, extract_low, extract_high, encQual_clip, encQual_m, encQual_s, guard_r, guard_bit, guard_sense, ofBool_one, need, beq_self_eq_true, if_true] <;> rfl
theorem minu (c : Ctl) (d : Reg) (a : Reg) (b : Reg) : Statement (.minu c d a b) := by
  intro _ hw
  refine decode_of_raw ?_ hw
  change decodeRaw (encRRR 3#6 c d a b 2#3) = _
  rw [raw_03 _ (encRRR_major ..)]
  simp only [decInt, fD, fA, fB, fF, fVd, fVa, fVb, fOp, fQ, encRRR_major, encRRR_d, encRRR_a, encRRR_b, encRRR_f, encRRR_f0, encRRR_f2, encRRR_b0, encRRR_b3, encRRR_n1, encRRR_n0, encRRR_ctl, extract_low, extract_high, encQual_clip, encQual_m, encQual_s, guard_r, guard_bit, guard_sense, ofBool_one, need, beq_self_eq_true, if_true] <;> rfl
theorem maxu (c : Ctl) (d : Reg) (a : Reg) (b : Reg) : Statement (.maxu c d a b) := by
  intro _ hw
  refine decode_of_raw ?_ hw
  change decodeRaw (encRRR 3#6 c d a b 3#3) = _
  rw [raw_03 _ (encRRR_major ..)]
  simp only [decInt, fD, fA, fB, fF, fVd, fVa, fVb, fOp, fQ, encRRR_major, encRRR_d, encRRR_a, encRRR_b, encRRR_f, encRRR_f0, encRRR_f2, encRRR_b0, encRRR_b3, encRRR_n1, encRRR_n0, encRRR_ctl, extract_low, extract_high, encQual_clip, encQual_m, encQual_s, guard_r, guard_bit, guard_sense, ofBool_one, need, beq_self_eq_true, if_true] <;> rfl
theorem rol (c : Ctl) (d : Reg) (a : Reg) (b : Reg) : Statement (.rol c d a b) := by
  intro _ hw
  refine decode_of_raw ?_ hw
  change decodeRaw (encRRR 3#6 c d a b 4#3) = _
  rw [raw_03 _ (encRRR_major ..)]
  simp only [decInt, fD, fA, fB, fF, fVd, fVa, fVb, fOp, fQ, encRRR_major, encRRR_d, encRRR_a, encRRR_b, encRRR_f, encRRR_f0, encRRR_f2, encRRR_b0, encRRR_b3, encRRR_n1, encRRR_n0, encRRR_ctl, extract_low, extract_high, encQual_clip, encQual_m, encQual_s, guard_r, guard_bit, guard_sense, ofBool_one, need, beq_self_eq_true, if_true] <;> rfl
theorem ror (c : Ctl) (d : Reg) (a : Reg) (b : Reg) : Statement (.ror c d a b) := by
  intro _ hw
  refine decode_of_raw ?_ hw
  change decodeRaw (encRRR 3#6 c d a b 5#3) = _
  rw [raw_03 _ (encRRR_major ..)]
  simp only [decInt, fD, fA, fB, fF, fVd, fVa, fVb, fOp, fQ, encRRR_major, encRRR_d, encRRR_a, encRRR_b, encRRR_f, encRRR_f0, encRRR_f2, encRRR_b0, encRRR_b3, encRRR_n1, encRRR_n0, encRRR_ctl, extract_low, extract_high, encQual_clip, encQual_m, encQual_s, guard_r, guard_bit, guard_sense, ofBool_one, need, beq_self_eq_true, if_true] <;> rfl
theorem clz (c : Ctl) (d : Reg) (a : Reg) : Statement (.clz c d a) := by
  intro _ hw
  refine decode_of_raw ?_ hw
  change decodeRaw (encRRR 3#6 c d a 0#6 6#3) = _
  rw [raw_03 _ (encRRR_major ..)]
  simp only [decInt, fD, fA, fB, fF, fVd, fVa, fVb, fOp, fQ, encRRR_major, encRRR_d, encRRR_a, encRRR_b, encRRR_f, encRRR_f0, encRRR_f2, encRRR_b0, encRRR_b3, encRRR_n1, encRRR_n0, encRRR_ctl, extract_low, extract_high, encQual_clip, encQual_m, encQual_s, guard_r, guard_bit, guard_sense, ofBool_one, need, beq_self_eq_true, if_true] <;> rfl
theorem popc (c : Ctl) (d : Reg) (a : Reg) : Statement (.popc c d a) := by
  intro _ hw
  refine decode_of_raw ?_ hw
  change decodeRaw (encRRR 3#6 c d a 0#6 7#3) = _
  rw [raw_03 _ (encRRR_major ..)]
  simp only [decInt, fD, fA, fB, fF, fVd, fVa, fVb, fOp, fQ, encRRR_major, encRRR_d, encRRR_a, encRRR_b, encRRR_f, encRRR_f0, encRRR_f2, encRRR_b0, encRRR_b3, encRRR_n1, encRRR_n0, encRRR_ctl, extract_low, extract_high, encQual_clip, encQual_m, encQual_s, guard_r, guard_bit, guard_sense, ofBool_one, need, beq_self_eq_true, if_true] <;> rfl
theorem cmp (c : Ctl) (cc : BitVec 3) (d : Reg) (a : Reg) (b : Reg) : Statement (.cmp c cc d a b) := by
  intro _ hw
  refine decode_of_raw ?_ hw
  change decodeRaw (encRRR 4#6 c d a b cc) = _
  rw [raw_04 _ (encRRR_major ..)]
  simp only [decInt, fD, fA, fB, fF, fVd, fVa, fVb, fOp, fQ, encRRR_major, encRRR_d, encRRR_a, encRRR_b, encRRR_f, encRRR_f0, encRRR_f2, encRRR_b0, encRRR_b3, encRRR_n1, encRRR_n0, encRRR_ctl, extract_low, extract_high, encQual_clip, encQual_m, encQual_s, guard_r, guard_bit, guard_sense, ofBool_one, need, beq_self_eq_true, if_true] <;> rfl
theorem bset (c : Ctl) (d : Reg) (a : Reg) (b : Reg) : Statement (.bset c d a b) := by
  intro _ hw
  refine decode_of_raw ?_ hw
  change decodeRaw (encRRR 5#6 c d a b 0#3) = _
  rw [raw_05 _ (encRRR_major ..)]
  simp only [decInt, fD, fA, fB, fF, fVd, fVa, fVb, fOp, fQ, encRRR_major, encRRR_d, encRRR_a, encRRR_b, encRRR_f, encRRR_f0, encRRR_f2, encRRR_b0, encRRR_b3, encRRR_n1, encRRR_n0, encRRR_ctl, extract_low, extract_high, encQual_clip, encQual_m, encQual_s, guard_r, guard_bit, guard_sense, ofBool_one, need, beq_self_eq_true, if_true] <;> rfl
theorem bclr (c : Ctl) (d : Reg) (a : Reg) (b : Reg) : Statement (.bclr c d a b) := by
  intro _ hw
  refine decode_of_raw ?_ hw
  change decodeRaw (encRRR 5#6 c d a b 1#3) = _
  rw [raw_05 _ (encRRR_major ..)]
  simp only [decInt, fD, fA, fB, fF, fVd, fVa, fVb, fOp, fQ, encRRR_major, encRRR_d, encRRR_a, encRRR_b, encRRR_f, encRRR_f0, encRRR_f2, encRRR_b0, encRRR_b3, encRRR_n1, encRRR_n0, encRRR_ctl, extract_low, extract_high, encQual_clip, encQual_m, encQual_s, guard_r, guard_bit, guard_sense, ofBool_one, need, beq_self_eq_true, if_true] <;> rfl
theorem binv (c : Ctl) (d : Reg) (a : Reg) (b : Reg) : Statement (.binv c d a b) := by
  intro _ hw
  refine decode_of_raw ?_ hw
  change decodeRaw (encRRR 5#6 c d a b 2#3) = _
  rw [raw_05 _ (encRRR_major ..)]
  simp only [decInt, fD, fA, fB, fF, fVd, fVa, fVb, fOp, fQ, encRRR_major, encRRR_d, encRRR_a, encRRR_b, encRRR_f, encRRR_f0, encRRR_f2, encRRR_b0, encRRR_b3, encRRR_n1, encRRR_n0, encRRR_ctl, extract_low, extract_high, encQual_clip, encQual_m, encQual_s, guard_r, guard_bit, guard_sense, ofBool_one, need, beq_self_eq_true, if_true] <;> rfl
theorem bext (c : Ctl) (d : Reg) (a : Reg) (b : Reg) : Statement (.bext c d a b) := by
  intro _ hw
  refine decode_of_raw ?_ hw
  change decodeRaw (encRRR 5#6 c d a b 3#3) = _
  rw [raw_05 _ (encRRR_major ..)]
  simp only [decInt, fD, fA, fB, fF, fVd, fVa, fVb, fOp, fQ, encRRR_major, encRRR_d, encRRR_a, encRRR_b, encRRR_f, encRRR_f0, encRRR_f2, encRRR_b0, encRRR_b3, encRRR_n1, encRRR_n0, encRRR_ctl, extract_low, extract_high, encQual_clip, encQual_m, encQual_s, guard_r, guard_bit, guard_sense, ofBool_one, need, beq_self_eq_true, if_true] <;> rfl
theorem sel (c : Ctl) (d : Reg) (a : Reg) (b : Reg) : Statement (.sel c d a b) := by
  intro _ hw
  refine decode_of_raw ?_ hw
  change decodeRaw (encRRR 5#6 c d a b 4#3) = _
  rw [raw_05 _ (encRRR_major ..)]
  simp only [decInt, fD, fA, fB, fF, fVd, fVa, fVb, fOp, fQ, encRRR_major, encRRR_d, encRRR_a, encRRR_b, encRRR_f, encRRR_f0, encRRR_f2, encRRR_b0, encRRR_b3, encRRR_n1, encRRR_n0, encRRR_ctl, extract_low, extract_high, encQual_clip, encQual_m, encQual_s, guard_r, guard_bit, guard_sense, ofBool_one, need, beq_self_eq_true, if_true] <;> rfl
theorem crnd (c : Ctl) (d : Reg) (a : Reg) (b : Reg) : Statement (.crnd c d a b) := by
  intro _ hw
  refine decode_of_raw ?_ hw
  change decodeRaw (encRRR 5#6 c d a b 5#3) = _
  rw [raw_05 _ (encRRR_major ..)]
  simp only [decInt, fD, fA, fB, fF, fVd, fVa, fVb, fOp, fQ, encRRR_major, encRRR_d, encRRR_a, encRRR_b, encRRR_f, encRRR_f0, encRRR_f2, encRRR_b0, encRRR_b3, encRRR_n1, encRRR_n0, encRRR_ctl, extract_low, extract_high, encQual_clip, encQual_m, encQual_s, guard_r, guard_bit, guard_sense, ofBool_one, need, beq_self_eq_true, if_true] <;> rfl
theorem addi (c : Ctl) (d : Reg) (a : Reg) (imm : BitVec 9) : Statement (.addi c d a imm) := by
  intro _ hw
  refine decode_of_raw ?_ hw
  change decodeRaw (encRI 6#6 c d a imm) = _
  rw [raw_06 _ (encRI_major ..)]
  simp only [fD, fA, fB, fF, fVd, fVa, fVb, fOp, fQ, encRI_major, encRI_d, encRI_a, encRI_imm, encRI_ctl, extract_low, extract_high, encQual_clip, encQual_m, encQual_s, guard_r, guard_bit, guard_sense, ofBool_one, need, beq_self_eq_true, if_true] <;> rfl
theorem andi (c : Ctl) (d : Reg) (a : Reg) (imm : BitVec 9) : Statement (.andi c d a imm) := by
  intro _ hw
  refine decode_of_raw ?_ hw
  change decodeRaw (encRI 7#6 c d a imm) = _
  rw [raw_07 _ (encRI_major ..)]
  simp only [fD, fA, fB, fF, fVd, fVa, fVb, fOp, fQ, encRI_major, encRI_d, encRI_a, encRI_imm, encRI_ctl, extract_low, extract_high, encQual_clip, encQual_m, encQual_s, guard_r, guard_bit, guard_sense, ofBool_one, need, beq_self_eq_true, if_true] <;> rfl
theorem ori (c : Ctl) (d : Reg) (a : Reg) (imm : BitVec 9) : Statement (.ori c d a imm) := by
  intro _ hw
  refine decode_of_raw ?_ hw
  change decodeRaw (encRI 8#6 c d a imm) = _
  rw [raw_08 _ (encRI_major ..)]
  simp only [fD, fA, fB, fF, fVd, fVa, fVb, fOp, fQ, encRI_major, encRI_d, encRI_a, encRI_imm, encRI_ctl, extract_low, extract_high, encQual_clip, encQual_m, encQual_s, guard_r, guard_bit, guard_sense, ofBool_one, need, beq_self_eq_true, if_true] <;> rfl
theorem xori (c : Ctl) (d : Reg) (a : Reg) (imm : BitVec 9) : Statement (.xori c d a imm) := by
  intro _ hw
  refine decode_of_raw ?_ hw
  change decodeRaw (encRI 9#6 c d a imm) = _
  rw [raw_09 _ (encRI_major ..)]
  simp only [fD, fA, fB, fF, fVd, fVa, fVb, fOp, fQ, encRI_major, encRI_d, encRI_a, encRI_imm, encRI_ctl, extract_low, extract_high, encQual_clip, encQual_m, encQual_s, guard_r, guard_bit, guard_sense, ofBool_one, need, beq_self_eq_true, if_true] <;> rfl
theorem shli (c : Ctl) (d : Reg) (a : Reg) (imm : BitVec 9) : Statement (.shli c d a imm) := by
  intro _ hw
  refine decode_of_raw ?_ hw
  change decodeRaw (encRI 10#6 c d a imm) = _
  rw [raw_0A _ (encRI_major ..)]
  simp only [fD, fA, fB, fF, fVd, fVa, fVb, fOp, fQ, encRI_major, encRI_d, encRI_a, encRI_imm, encRI_ctl, extract_low, extract_high, encQual_clip, encQual_m, encQual_s, guard_r, guard_bit, guard_sense, ofBool_one, need, beq_self_eq_true, if_true] <;> rfl
theorem shri (c : Ctl) (d : Reg) (a : Reg) (imm : BitVec 9) : Statement (.shri c d a imm) := by
  intro _ hw
  refine decode_of_raw ?_ hw
  change decodeRaw (encRI 11#6 c d a imm) = _
  rw [raw_0B _ (encRI_major ..)]
  simp only [fD, fA, fB, fF, fVd, fVa, fVb, fOp, fQ, encRI_major, encRI_d, encRI_a, encRI_imm, encRI_ctl, extract_low, extract_high, encQual_clip, encQual_m, encQual_s, guard_r, guard_bit, guard_sense, ofBool_one, need, beq_self_eq_true, if_true] <;> rfl
theorem srai (c : Ctl) (d : Reg) (a : Reg) (imm : BitVec 9) : Statement (.srai c d a imm) := by
  intro _ hw
  refine decode_of_raw ?_ hw
  change decodeRaw (encRI 12#6 c d a imm) = _
  rw [raw_0C _ (encRI_major ..)]
  simp only [fD, fA, fB, fF, fVd, fVa, fVb, fOp, fQ, encRI_major, encRI_d, encRI_a, encRI_imm, encRI_ctl, extract_low, extract_high, encQual_clip, encQual_m, encQual_s, guard_r, guard_bit, guard_sense, ofBool_one, need, beq_self_eq_true, if_true] <;> rfl
theorem movi (c : Ctl) (d : Reg) (imm : BitVec 15) : Statement (.movi c d imm) := by
  intro _ hw
  refine decode_of_raw ?_ hw
  change decodeRaw (encI15 13#6 c d imm) = _
  rw [raw_0D _ (encI15_major ..)]
  simp only [fD, fA, fB, fF, fVd, fVa, fVb, fOp, fQ, encI15_major, encI15_d, encI15_imm, encI15_ctl, extract_low, extract_high, encQual_clip, encQual_m, encQual_s, guard_r, guard_bit, guard_sense, ofBool_one, need, beq_self_eq_true, if_true] <;> rfl
theorem movs (c : Ctl) (d : Reg) (imm : BitVec 15) : Statement (.movs c d imm) := by
  intro _ hw
  refine decode_of_raw ?_ hw
  change decodeRaw (encI15 14#6 c d imm) = _
  rw [raw_0E _ (encI15_major ..)]
  simp only [fD, fA, fB, fF, fVd, fVa, fVb, fOp, fQ, encI15_major, encI15_d, encI15_imm, encI15_ctl, extract_low, extract_high, encQual_clip, encQual_m, encQual_s, guard_r, guard_bit, guard_sense, ofBool_one, need, beq_self_eq_true, if_true] <;> rfl
theorem gaddr (c : Ctl) (d : Reg) (a : Reg) (t : BitVec 3) : Statement (.gaddr c d a t) := by
  intro _ hw
  refine decode_of_raw ?_ hw
  change decodeRaw (encX 15#6 c d a 2#6 t) = _
  rw [encX_eq, raw_0F _ (encRRR_major ..)]
  simp only [fD, fA, fB, fF, fVd, fVa, fVb, fOp, fQ, encRRR_major, encRRR_d, encRRR_a, encRRR_b, encRRR_f, encRRR_f0, encRRR_f2, encRRR_b0, encRRR_b3, encRRR_n1, encRRR_n0, encRRR_ctl, extract_low, extract_high, encQual_clip, encQual_m, encQual_s, guard_r, guard_bit, guard_sense, ofBool_one, need, beq_self_eq_true, if_true] <;> rfl
theorem fadd (c : Ctl) (fmt : BitVec 2) (d : Reg) (a : Reg) (b : Reg) : Statement (.fadd c fmt d a b) := by
  intro _ hw
  refine decode_of_raw ?_ hw
  change decodeRaw (encRRR 16#6 c d a b (0#1 ++ fmt)) = _
  rw [raw_10 _ (encRRR_major ..)]
  simp only [decFp, fD, fA, fB, fF, fVd, fVa, fVb, fOp, fQ, encRRR_major, encRRR_d, encRRR_a, encRRR_b, encRRR_f, encRRR_f0, encRRR_f2, encRRR_b0, encRRR_b3, encRRR_n1, encRRR_n0, encRRR_ctl, extract_low, extract_high, encQual_clip, encQual_m, encQual_s, guard_r, guard_bit, guard_sense, ofBool_one, need, beq_self_eq_true, if_true] <;> rfl
theorem fsub (c : Ctl) (fmt : BitVec 2) (d : Reg) (a : Reg) (b : Reg) : Statement (.fsub c fmt d a b) := by
  intro _ hw
  refine decode_of_raw ?_ hw
  change decodeRaw (encRRR 17#6 c d a b (0#1 ++ fmt)) = _
  rw [raw_11 _ (encRRR_major ..)]
  simp only [decFp, fD, fA, fB, fF, fVd, fVa, fVb, fOp, fQ, encRRR_major, encRRR_d, encRRR_a, encRRR_b, encRRR_f, encRRR_f0, encRRR_f2, encRRR_b0, encRRR_b3, encRRR_n1, encRRR_n0, encRRR_ctl, extract_low, extract_high, encQual_clip, encQual_m, encQual_s, guard_r, guard_bit, guard_sense, ofBool_one, need, beq_self_eq_true, if_true] <;> rfl
theorem fmul (c : Ctl) (fmt : BitVec 2) (d : Reg) (a : Reg) (b : Reg) : Statement (.fmul c fmt d a b) := by
  intro _ hw
  refine decode_of_raw ?_ hw
  change decodeRaw (encRRR 18#6 c d a b (0#1 ++ fmt)) = _
  rw [raw_12 _ (encRRR_major ..)]
  simp only [decFp, fD, fA, fB, fF, fVd, fVa, fVb, fOp, fQ, encRRR_major, encRRR_d, encRRR_a, encRRR_b, encRRR_f, encRRR_f0, encRRR_f2, encRRR_b0, encRRR_b3, encRRR_n1, encRRR_n0, encRRR_ctl, extract_low, extract_high, encQual_clip, encQual_m, encQual_s, guard_r, guard_bit, guard_sense, ofBool_one, need, beq_self_eq_true, if_true] <;> rfl
theorem fdiv (c : Ctl) (fmt : BitVec 2) (d : Reg) (a : Reg) (b : Reg) : Statement (.fdiv c fmt d a b) := by
  intro _ hw
  refine decode_of_raw ?_ hw
  change decodeRaw (encRRR 19#6 c d a b (0#1 ++ fmt)) = _
  rw [raw_13 _ (encRRR_major ..)]
  simp only [decFp, fD, fA, fB, fF, fVd, fVa, fVb, fOp, fQ, encRRR_major, encRRR_d, encRRR_a, encRRR_b, encRRR_f, encRRR_f0, encRRR_f2, encRRR_b0, encRRR_b3, encRRR_n1, encRRR_n0, encRRR_ctl, extract_low, extract_high, encQual_clip, encQual_m, encQual_s, guard_r, guard_bit, guard_sense, ofBool_one, need, beq_self_eq_true, if_true] <;> rfl
theorem fma (c : Ctl) (fmt : BitVec 2) (d : Reg) (a : Reg) (b : Reg) : Statement (.fma c fmt d a b) := by
  intro _ hw
  refine decode_of_raw ?_ hw
  change decodeRaw (encRRR 20#6 c d a b (0#1 ++ fmt)) = _
  rw [raw_14 _ (encRRR_major ..)]
  simp only [decFp, fD, fA, fB, fF, fVd, fVa, fVb, fOp, fQ, encRRR_major, encRRR_d, encRRR_a, encRRR_b, encRRR_f, encRRR_f0, encRRR_f2, encRRR_b0, encRRR_b3, encRRR_n1, encRRR_n0, encRRR_ctl, extract_low, extract_high, encQual_clip, encQual_m, encQual_s, guard_r, guard_bit, guard_sense, ofBool_one, need, beq_self_eq_true, if_true] <;> rfl
theorem fmin (c : Ctl) (fmt : BitVec 2) (d : Reg) (a : Reg) (b : Reg) : Statement (.fmin c fmt d a b) := by
  intro _ hw
  refine decode_of_raw ?_ hw
  change decodeRaw (encRRR 21#6 c d a b (0#1 ++ fmt)) = _
  rw [raw_15 _ (encRRR_major ..)]
  simp only [decFp, fD, fA, fB, fF, fVd, fVa, fVb, fOp, fQ, encRRR_major, encRRR_d, encRRR_a, encRRR_b, encRRR_f, encRRR_f0, encRRR_f2, encRRR_b0, encRRR_b3, encRRR_n1, encRRR_n0, encRRR_ctl, extract_low, extract_high, encQual_clip, encQual_m, encQual_s, guard_r, guard_bit, guard_sense, ofBool_one, need, beq_self_eq_true, if_true] <;> rfl
theorem fmax (c : Ctl) (fmt : BitVec 2) (d : Reg) (a : Reg) (b : Reg) : Statement (.fmax c fmt d a b) := by
  intro _ hw
  refine decode_of_raw ?_ hw
  change decodeRaw (encRRR 22#6 c d a b (0#1 ++ fmt)) = _
  rw [raw_16 _ (encRRR_major ..)]
  simp only [decFp, fD, fA, fB, fF, fVd, fVa, fVb, fOp, fQ, encRRR_major, encRRR_d, encRRR_a, encRRR_b, encRRR_f, encRRR_f0, encRRR_f2, encRRR_b0, encRRR_b3, encRRR_n1, encRRR_n0, encRRR_ctl, extract_low, extract_high, encQual_clip, encQual_m, encQual_s, guard_r, guard_bit, guard_sense, ofBool_one, need, beq_self_eq_true, if_true] <;> rfl
theorem fsqrt (c : Ctl) (fmt : BitVec 2) (d : Reg) (a : Reg) : Statement (.fsqrt c fmt d a) := by
  intro _ hw
  refine decode_of_raw ?_ hw
  change decodeRaw (encRRR 23#6 c d a 0#6 (0#1 ++ fmt)) = _
  rw [raw_17 _ (encRRR_major ..)]
  simp only [decFp, fD, fA, fB, fF, fVd, fVa, fVb, fOp, fQ, encRRR_major, encRRR_d, encRRR_a, encRRR_b, encRRR_f, encRRR_f0, encRRR_f2, encRRR_b0, encRRR_b3, encRRR_n1, encRRR_n0, encRRR_ctl, extract_low, extract_high, encQual_clip, encQual_m, encQual_s, guard_r, guard_bit, guard_sense, ofBool_one, need, beq_self_eq_true, if_true] <;> rfl
theorem fcmpD (c : Ctl) (cc : BitVec 3) (d : Reg) (a : Reg) (b : Reg) : Statement (.fcmpD c cc d a b) := by
  intro _ hw
  refine decode_of_raw ?_ hw
  change decodeRaw (encRRR 24#6 c d a b cc) = _
  rw [raw_18 _ (encRRR_major ..)]
  simp only [decFp, fD, fA, fB, fF, fVd, fVa, fVb, fOp, fQ, encRRR_major, encRRR_d, encRRR_a, encRRR_b, encRRR_f, encRRR_f0, encRRR_f2, encRRR_b0, encRRR_b3, encRRR_n1, encRRR_n0, encRRR_ctl, extract_low, extract_high, encQual_clip, encQual_m, encQual_s, guard_r, guard_bit, guard_sense, ofBool_one, need, beq_self_eq_true, if_true] <;> rfl
theorem fcmpS (c : Ctl) (cc : BitVec 3) (d : Reg) (a : Reg) (b : Reg) : Statement (.fcmpS c cc d a b) := by
  intro _ hw
  refine decode_of_raw ?_ hw
  change decodeRaw (encRRR 25#6 c d a b cc) = _
  rw [raw_19 _ (encRRR_major ..)]
  simp only [decFp, fD, fA, fB, fF, fVd, fVa, fVb, fOp, fQ, encRRR_major, encRRR_d, encRRR_a, encRRR_b, encRRR_f, encRRR_f0, encRRR_f2, encRRR_b0, encRRR_b3, encRRR_n1, encRRR_n0, encRRR_ctl, extract_low, extract_high, encQual_clip, encQual_m, encQual_s, guard_r, guard_bit, guard_sense, ofBool_one, need, beq_self_eq_true, if_true] <;> rfl
theorem fcvt (c : Ctl) (src : BitVec 3) (rnd : BitVec 3) (dst : BitVec 3) (d : Reg) (a : Reg) : Statement (.fcvt c src rnd dst d a) := by
  intro _ hw
  refine decode_of_raw ?_ hw
  change decodeRaw (encRRR 26#6 c d a (src ++ rnd) dst) = _
  rw [raw_1A _ (encRRR_major ..)]
  simp only [decFp, fD, fA, fB, fF, fVd, fVa, fVb, fOp, fQ, encRRR_major, encRRR_d, encRRR_a, encRRR_b, encRRR_f, encRRR_f0, encRRR_f2, encRRR_b0, encRRR_b3, encRRR_n1, encRRR_n0, encRRR_ctl, extract_low, extract_high, encQual_clip, encQual_m, encQual_s, guard_r, guard_bit, guard_sense, ofBool_one, need, beq_self_eq_true, if_true] <;> rfl
theorem fclass (c : Ctl) (fmt : BitVec 2) (d : Reg) (a : Reg) : Statement (.fclass c fmt d a) := by
  intro _ hw
  refine decode_of_raw ?_ hw
  change decodeRaw (encRRR 27#6 c d a 0#6 (0#1 ++ fmt)) = _
  rw [raw_1B _ (encRRR_major ..)]
  simp only [decFp, fD, fA, fB, fF, fVd, fVa, fVb, fOp, fQ, encRRR_major, encRRR_d, encRRR_a, encRRR_b, encRRR_f, encRRR_f0, encRRR_f2, encRRR_b0, encRRR_b3, encRRR_n1, encRRR_n0, encRRR_ctl, extract_low, extract_high, encQual_clip, encQual_m, encQual_s, guard_r, guard_bit, guard_sense, ofBool_one, need, beq_self_eq_true, if_true] <;> rfl
theorem vadd (c : Ctl) (q : Qual) (vd : VReg) (va : VReg) (vb : VReg) : Statement (.vadd c q vd va vb) := by
  intro _ hw
  refine decode_of_raw ?_ hw
  change decodeRaw (encV 32#6 c vd va vb 0#6 (encQual q)) = _
  rw [raw_20 _ (encV_major ..)]
  simp only [decVec, decVarith, fD, fA, fB, fF, fVd, fVa, fVb, fOp, fQ, encV_major, encV_vd, encV_va, encV_vb, encV_op, encV_q0, encV_q1, encV_q2, encV_ctl, extract_low, extract_high, encQual_clip, encQual_m, encQual_s, guard_r, guard_bit, guard_sense, ofBool_one, need, beq_self_eq_true, if_true] <;> rfl
theorem vsub (c : Ctl) (q : Qual) (vd : VReg) (va : VReg) (vb : VReg) : Statement (.vsub c q vd va vb) := by
  intro _ hw
  refine decode_of_raw ?_ hw
  change decodeRaw (encV 32#6 c vd va vb 1#6 (encQual q)) = _
  rw [raw_20 _ (encV_major ..)]
  simp only [decVec, decVarith, fD, fA, fB, fF, fVd, fVa, fVb, fOp, fQ, encV_major, encV_vd, encV_va, encV_vb, encV_op, encV_q0, encV_q1, encV_q2, encV_ctl, extract_low, extract_high, encQual_clip, encQual_m, encQual_s, guard_r, guard_bit, guard_sense, ofBool_one, need, beq_self_eq_true, if_true] <;> rfl
theorem vmul (c : Ctl) (q : Qual) (vd : VReg) (va : VReg) (vb : VReg) : Statement (.vmul c q vd va vb) := by
  intro _ hw
  refine decode_of_raw ?_ hw
  change decodeRaw (encV 32#6 c vd va vb 2#6 (encQual q)) = _
  rw [raw_20 _ (encV_major ..)]
  simp only [decVec, decVarith, fD, fA, fB, fF, fVd, fVa, fVb, fOp, fQ, encV_major, encV_vd, encV_va, encV_vb, encV_op, encV_q0, encV_q1, encV_q2, encV_ctl, extract_low, extract_high, encQual_clip, encQual_m, encQual_s, guard_r, guard_bit, guard_sense, ofBool_one, need, beq_self_eq_true, if_true] <;> rfl
theorem vfma (c : Ctl) (q : Qual) (vd : VReg) (va : VReg) (vb : VReg) : Statement (.vfma c q vd va vb) := by
  intro _ hw
  refine decode_of_raw ?_ hw
  change decodeRaw (encV 32#6 c vd va vb 3#6 (encQual q)) = _
  rw [raw_20 _ (encV_major ..)]
  simp only [decVec, decVarith, fD, fA, fB, fF, fVd, fVa, fVb, fOp, fQ, encV_major, encV_vd, encV_va, encV_vb, encV_op, encV_q0, encV_q1, encV_q2, encV_ctl, extract_low, extract_high, encQual_clip, encQual_m, encQual_s, guard_r, guard_bit, guard_sense, ofBool_one, need, beq_self_eq_true, if_true] <;> rfl
theorem vdiv (c : Ctl) (q : Qual) (vd : VReg) (va : VReg) (vb : VReg) : Statement (.vdiv c q vd va vb) := by
  intro _ hw
  refine decode_of_raw ?_ hw
  change decodeRaw (encV 32#6 c vd va vb 4#6 (encQual q)) = _
  rw [raw_20 _ (encV_major ..)]
  simp only [decVec, decVarith, fD, fA, fB, fF, fVd, fVa, fVb, fOp, fQ, encV_major, encV_vd, encV_va, encV_vb, encV_op, encV_q0, encV_q1, encV_q2, encV_ctl, extract_low, extract_high, encQual_clip, encQual_m, encQual_s, guard_r, guard_bit, guard_sense, ofBool_one, need, beq_self_eq_true, if_true] <;> rfl
theorem vsqrt (c : Ctl) (clip : Bool) (m : Bool) (vd : VReg) (va : VReg) : Statement (.vsqrt c clip m vd va) := by
  intro _ hw
  refine decode_of_raw ?_ hw
  change decodeRaw (encV 32#6 c vd va 0#4 5#6 (encQual ⟨clip, m, false⟩)) = _
  rw [raw_20 _ (encV_major ..)]
  simp only [decVec, decVarith, fD, fA, fB, fF, fVd, fVa, fVb, fOp, fQ, encV_major, encV_vd, encV_va, encV_vb, encV_op, encV_q0, encV_q1, encV_q2, encV_ctl, extract_low, extract_high, encQual_clip, encQual_m, encQual_s, guard_r, guard_bit, guard_sense, ofBool_one, need, beq_self_eq_true, if_true] <;> rfl
theorem vmin (c : Ctl) (q : Qual) (vd : VReg) (va : VReg) (vb : VReg) : Statement (.vmin c q vd va vb) := by
  intro _ hw
  refine decode_of_raw ?_ hw
  change decodeRaw (encV 32#6 c vd va vb 6#6 (encQual q)) = _
  rw [raw_20 _ (encV_major ..)]
  simp only [decVec, decVarith, fD, fA, fB, fF, fVd, fVa, fVb, fOp, fQ, encV_major, encV_vd, encV_va, encV_vb, encV_op, encV_q0, encV_q1, encV_q2, encV_ctl, extract_low, extract_high, encQual_clip, encQual_m, encQual_s, guard_r, guard_bit, guard_sense, ofBool_one, need, beq_self_eq_true, if_true] <;> rfl
theorem vmax (c : Ctl) (q : Qual) (vd : VReg) (va : VReg) (vb : VReg) : Statement (.vmax c q vd va vb) := by
  intro _ hw
  refine decode_of_raw ?_ hw
  change decodeRaw (encV 32#6 c vd va vb 7#6 (encQual q)) = _
  rw [raw_20 _ (encV_major ..)]
  simp only [decVec, decVarith, fD, fA, fB, fF, fVd, fVa, fVb, fOp, fQ, encV_major, encV_vd, encV_va, encV_vb, encV_op, encV_q0, encV_q1, encV_q2, encV_ctl, extract_low, extract_high, encQual_clip, encQual_m, encQual_s, guard_r, guard_bit, guard_sense, ofBool_one, need, beq_self_eq_true, if_true] <;> rfl
theorem vabs (c : Ctl) (clip : Bool) (m : Bool) (vd : VReg) (va : VReg) : Statement (.vabs c clip m vd va) := by
  intro _ hw
  refine decode_of_raw ?_ hw
  change decodeRaw (encV 32#6 c vd va 0#4 8#6 (encQual ⟨clip, m, false⟩)) = _
  rw [raw_20 _ (encV_major ..)]
  simp only [decVec, decVarith, fD, fA, fB, fF, fVd, fVa, fVb, fOp, fQ, encV_major, encV_vd, encV_va, encV_vb, encV_op, encV_q0, encV_q1, encV_q2, encV_ctl, extract_low, extract_high, encQual_clip, encQual_m, encQual_s, guard_r, guard_bit, guard_sense, ofBool_one, need, beq_self_eq_true, if_true] <;> rfl
theorem vneg (c : Ctl) (clip : Bool) (m : Bool) (vd : VReg) (va : VReg) : Statement (.vneg c clip m vd va) := by
  intro _ hw
  refine decode_of_raw ?_ hw
  change decodeRaw (encV 32#6 c vd va 0#4 9#6 (encQual ⟨clip, m, false⟩)) = _
  rw [raw_20 _ (encV_major ..)]
  simp only [decVec, decVarith, fD, fA, fB, fF, fVd, fVa, fVb, fOp, fQ, encV_major, encV_vd, encV_va, encV_vb, encV_op, encV_q0, encV_q1, encV_q2, encV_ctl, extract_low, extract_high, encQual_clip, encQual_m, encQual_s, guard_r, guard_bit, guard_sense, ofBool_one, need, beq_self_eq_true, if_true] <;> rfl
theorem vand (c : Ctl) (q : Qual) (vd : VReg) (va : VReg) (vb : VReg) : Statement (.vand c q vd va vb) := by
  intro _ hw
  refine decode_of_raw ?_ hw
  change decodeRaw (encV 32#6 c vd va vb 10#6 (encQual q)) = _
  rw [raw_20 _ (encV_major ..)]
  simp only [decVec, decVarith, fD, fA, fB, fF, fVd, fVa, fVb, fOp, fQ, encV_major, encV_vd, encV_va, encV_vb, encV_op, encV_q0, encV_q1, encV_q2, encV_ctl, extract_low, extract_high, encQual_clip, encQual_m, encQual_s, guard_r, guard_bit, guard_sense, ofBool_one, need, beq_self_eq_true, if_true] <;> rfl
theorem vor (c : Ctl) (q : Qual) (vd : VReg) (va : VReg) (vb : VReg) : Statement (.vor c q vd va vb) := by
  intro _ hw
  refine decode_of_raw ?_ hw
  change decodeRaw (encV 32#6 c vd va vb 11#6 (encQual q)) = _
  rw [raw_20 _ (encV_major ..)]
  simp only [decVec, decVarith, fD, fA, fB, fF, fVd, fVa, fVb, fOp, fQ, encV_major, encV_vd, encV_va, encV_vb, encV_op, encV_q0, encV_q1, encV_q2, encV_ctl, extract_low, extract_high, encQual_clip, encQual_m, encQual_s, guard_r, guard_bit, guard_sense, ofBool_one, need, beq_self_eq_true, if_true] <;> rfl
theorem vxor (c : Ctl) (q : Qual) (vd : VReg) (va : VReg) (vb : VReg) : Statement (.vxor c q vd va vb) := by
  intro _ hw
  refine decode_of_raw ?_ hw
  change decodeRaw (encV 32#6 c vd va vb 12#6 (encQual q)) = _
  rw [raw_20 _ (encV_major ..)]
  simp only [decVec, decVarith, fD, fA, fB, fF, fVd, fVa, fVb, fOp, fQ, encV_major, encV_vd, encV_va, encV_vb, encV_op, encV_q0, encV_q1, encV_q2, encV_ctl, extract_low, extract_high, encQual_clip, encQual_m, encQual_s, guard_r, guard_bit, guard_sense, ofBool_one, need, beq_self_eq_true, if_true] <;> rfl
theorem vshl (c : Ctl) (q : Qual) (vd : VReg) (va : VReg) (vb : VReg) : Statement (.vshl c q vd va vb) := by
  intro _ hw
  refine decode_of_raw ?_ hw
  change decodeRaw (encV 32#6 c vd va vb 13#6 (encQual q)) = _
  rw [raw_20 _ (encV_major ..)]
  simp only [decVec, decVarith, fD, fA, fB, fF, fVd, fVa, fVb, fOp, fQ, encV_major, encV_vd, encV_va, encV_vb, encV_op, encV_q0, encV_q1, encV_q2, encV_ctl, extract_low, extract_high, encQual_clip, encQual_m, encQual_s, guard_r, guard_bit, guard_sense, ofBool_one, need, beq_self_eq_true, if_true] <;> rfl
theorem vshr (c : Ctl) (q : Qual) (vd : VReg) (va : VReg) (vb : VReg) : Statement (.vshr c q vd va vb) := by
  intro _ hw
  refine decode_of_raw ?_ hw
  change decodeRaw (encV 32#6 c vd va vb 14#6 (encQual q)) = _
  rw [raw_20 _ (encV_major ..)]
  simp only [decVec, decVarith, fD, fA, fB, fF, fVd, fVa, fVb, fOp, fQ, encV_major, encV_vd, encV_va, encV_vb, encV_op, encV_q0, encV_q1, encV_q2, encV_ctl, extract_low, extract_high, encQual_clip, encQual_m, encQual_s, guard_r, guard_bit, guard_sense, ofBool_one, need, beq_self_eq_true, if_true] <;> rfl
theorem vsra (c : Ctl) (q : Qual) (vd : VReg) (va : VReg) (vb : VReg) : Statement (.vsra c q vd va vb) := by
  intro _ hw
  refine decode_of_raw ?_ hw
  change decodeRaw (encV 32#6 c vd va vb 15#6 (encQual q)) = _
  rw [raw_20 _ (encV_major ..)]
  simp only [decVec, decVarith, fD, fA, fB, fF, fVd, fVa, fVb, fOp, fQ, encV_major, encV_vd, encV_va, encV_vb, encV_op, encV_q0, encV_q1, encV_q2, encV_ctl, extract_low, extract_high, encQual_clip, encQual_m, encQual_s, guard_r, guard_bit, guard_sense, ofBool_one, need, beq_self_eq_true, if_true] <;> rfl
theorem vcmpeq (c : Ctl) (q : Qual) (vd : VReg) (va : VReg) (vb : VReg) : Statement (.vcmpeq c q vd va vb) := by
  intro _ hw
  refine decode_of_raw ?_ hw
  change decodeRaw (encV 32#6 c vd va vb 16#6 (encQual q)) = _
  rw [raw_20 _ (encV_major ..)]
  simp only [decVec, decVarith, fD, fA, fB, fF, fVd, fVa, fVb, fOp, fQ, encV_major, encV_vd, encV_va, encV_vb, encV_op, encV_q0, encV_q1, encV_q2, encV_ctl, extract_low, extract_high, encQual_clip, encQual_m, encQual_s, guard_r, guard_bit, guard_sense, ofBool_one, need, beq_self_eq_true, if_true] <;> rfl
theorem vcmpne (c : Ctl) (q : Qual) (vd : VReg) (va : VReg) (vb : VReg) : Statement (.vcmpne c q vd va vb) := by
  intro _ hw
  refine decode_of_raw ?_ hw
  change decodeRaw (encV 32#6 c vd va vb 17#6 (encQual q)) = _
  rw [raw_20 _ (encV_major ..)]
  simp only [decVec, decVarith, fD, fA, fB, fF, fVd, fVa, fVb, fOp, fQ, encV_major, encV_vd, encV_va, encV_vb, encV_op, encV_q0, encV_q1, encV_q2, encV_ctl, extract_low, extract_high, encQual_clip, encQual_m, encQual_s, guard_r, guard_bit, guard_sense, ofBool_one, need, beq_self_eq_true, if_true] <;> rfl
theorem vcmplt (c : Ctl) (q : Qual) (vd : VReg) (va : VReg) (vb : VReg) : Statement (.vcmplt c q vd va vb) := by
  intro _ hw
  refine decode_of_raw ?_ hw
  change decodeRaw (encV 32#6 c vd va vb 18#6 (encQual q)) = _
  rw [raw_20 _ (encV_major ..)]
  simp only [decVec, decVarith, fD, fA, fB, fF, fVd, fVa, fVb, fOp, fQ, encV_major, encV_vd, encV_va, encV_vb, encV_op, encV_q0, encV_q1, encV_q2, encV_ctl, extract_low, extract_high, encQual_clip, encQual_m, encQual_s, guard_r, guard_bit, guard_sense, ofBool_one, need, beq_self_eq_true, if_true] <;> rfl
theorem vcmple (c : Ctl) (q : Qual) (vd : VReg) (va : VReg) (vb : VReg) : Statement (.vcmple c q vd va vb) := by
  intro _ hw
  refine decode_of_raw ?_ hw
  change decodeRaw (encV 32#6 c vd va vb 19#6 (encQual q)) = _
  rw [raw_20 _ (encV_major ..)]
  simp only [decVec, decVarith, fD, fA, fB, fF, fVd, fVa, fVb, fOp, fQ, encV_major, encV_vd, encV_va, encV_vb, encV_op, encV_q0, encV_q1, encV_q2, encV_ctl, extract_low, extract_high, encQual_clip, encQual_m, encQual_s, guard_r, guard_bit, guard_sense, ofBool_one, need, beq_self_eq_true, if_true] <;> rfl
theorem vsel (c : Ctl) (clip : Bool) (vd : VReg) (va : VReg) (vb : VReg) : Statement (.vsel c clip vd va vb) := by
  intro _ hw
  refine decode_of_raw ?_ hw
  change decodeRaw (encV 32#6 c vd va vb 20#6 (encQual ⟨clip, false, false⟩)) = _
  rw [raw_20 _ (encV_major ..)]
  simp only [decVec, decVarith, fD, fA, fB, fF, fVd, fVa, fVb, fOp, fQ, encV_major, encV_vd, encV_va, encV_vb, encV_op, encV_q0, encV_q1, encV_q2, encV_ctl, extract_low, extract_high, encQual_clip, encQual_m, encQual_s, guard_r, guard_bit, guard_sense, ofBool_one, need, beq_self_eq_true, if_true] <;> rfl
theorem vmov (c : Ctl) (clip : Bool) (m : Bool) (vd : VReg) (va : VReg) : Statement (.vmov c clip m vd va) := by
  intro _ hw
  refine decode_of_raw ?_ hw
  change decodeRaw (encV 32#6 c vd va 0#4 21#6 (encQual ⟨clip, m, false⟩)) = _
  rw [raw_20 _ (encV_major ..)]
  simp only [decVec, decVarith, fD, fA, fB, fF, fVd, fVa, fVb, fOp, fQ, encV_major, encV_vd, encV_va, encV_vb, encV_op, encV_q0, encV_q1, encV_q2, encV_ctl, extract_low, extract_high, encQual_clip, encQual_m, encQual_s, guard_r, guard_bit, guard_sense, ofBool_one, need, beq_self_eq_true, if_true] <;> rfl
theorem vrco (c : Ctl) (k : Bool) (vd : VReg) (va : VReg) (vb : VReg) : Statement (.vrco c k vd va vb) := by
  intro _ hw
  refine decode_of_raw ?_ hw
  change decodeRaw (encV 33#6 c vd va vb 0#6 (encQual ⟨false, false, k⟩)) = _
  rw [raw_21 _ (encV_major ..)]
  simp only [decVec, decVrun, fD, fA, fB, fF, fVd, fVa, fVb, fOp, fQ, encV_major, encV_vd, encV_va, encV_vb, encV_op, encV_q0, encV_q1, encV_q2, encV_ctl, extract_low, extract_high, encQual_clip, encQual_m, encQual_s, guard_r, guard_bit, guard_sense, ofBool_one, need, beq_self_eq_true, if_true] <;> rfl
theorem vruns (c : Ctl) (vd : VReg) (va : VReg) : Statement (.vruns c vd va) := by
  intro _ hw
  refine decode_of_raw ?_ hw
  change decodeRaw (encV 33#6 c vd va 0#4 1#6 0#3) = _
  rw [raw_21 _ (encV_major ..)]
  simp only [decVec, decVrun, fD, fA, fB, fF, fVd, fVa, fVb, fOp, fQ, encV_major, encV_vd, encV_va, encV_vb, encV_op, encV_q0, encV_q1, encV_q2, encV_ctl, extract_low, extract_high, encQual_clip, encQual_m, encQual_s, guard_r, guard_bit, guard_sense, ofBool_one, need, beq_self_eq_true, if_true] <;> rfl
theorem vlen (c : Ctl) (vd : VReg) (va : VReg) : Statement (.vlen c vd va) := by
  intro _ hw
  refine decode_of_raw ?_ hw
  change decodeRaw (encV 33#6 c vd va 0#4 2#6 0#3) = _
  rw [raw_21 _ (encV_major ..)]
  simp only [decVec, decVrun, fD, fA, fB, fF, fVd, fVa, fVb, fOp, fQ, encV_major, encV_vd, encV_va, encV_vb, encV_op, encV_q0, encV_q1, encV_q2, encV_ctl, extract_low, extract_high, encQual_clip, encQual_m, encQual_s, guard_r, guard_bit, guard_sense, ofBool_one, need, beq_self_eq_true, if_true] <;> rfl
theorem vsetlen (c : Ctl) (clip : Bool) (vd : VReg) (va : VReg) (vb : VReg) : Statement (.vsetlen c clip vd va vb) := by
  intro _ hw
  refine decode_of_raw ?_ hw
  change decodeRaw (encV 33#6 c vd va vb 3#6 (encQual ⟨clip, false, true⟩)) = _
  rw [raw_21 _ (encV_major ..)]
  simp only [decVec, decVrun, fD, fA, fB, fF, fVd, fVa, fVb, fOp, fQ, encV_major, encV_vd, encV_va, encV_vb, encV_op, encV_q0, encV_q1, encV_q2, encV_ctl, extract_low, extract_high, encQual_clip, encQual_m, encQual_s, guard_r, guard_bit, guard_sense, ofBool_one, need, beq_self_eq_true, if_true] <;> rfl
theorem vsplat (c : Ctl) (vd : VReg) (va : VReg) (vb : VReg) : Statement (.vsplat c vd va vb) := by
  intro _ hw
  refine decode_of_raw ?_ hw
  change decodeRaw (encV 33#6 c vd va vb 4#6 4#3) = _
  rw [raw_21 _ (encV_major ..)]
  simp only [decVec, decVrun, fD, fA, fB, fF, fVd, fVa, fVb, fOp, fQ, encV_major, encV_vd, encV_va, encV_vb, encV_op, encV_q0, encV_q1, encV_q2, encV_ctl, extract_low, extract_high, encQual_clip, encQual_m, encQual_s, guard_r, guard_bit, guard_sense, ofBool_one, need, beq_self_eq_true, if_true] <;> rfl
theorem vrsum (c : Ctl) (m : Bool) (vd : VReg) (va : VReg) : Statement (.vrsum c m vd va) := by
  intro _ hw
  refine decode_of_raw ?_ hw
  change decodeRaw (encV 33#6 c vd va 0#4 5#6 (encQual ⟨false, m, false⟩)) = _
  rw [raw_21 _ (encV_major ..)]
  simp only [decVec, decVrun, fD, fA, fB, fF, fVd, fVa, fVb, fOp, fQ, encV_major, encV_vd, encV_va, encV_vb, encV_op, encV_q0, encV_q1, encV_q2, encV_ctl, extract_low, extract_high, encQual_clip, encQual_m, encQual_s, guard_r, guard_bit, guard_sense, ofBool_one, need, beq_self_eq_true, if_true] <;> rfl
theorem vrsumsq (c : Ctl) (m : Bool) (vd : VReg) (va : VReg) : Statement (.vrsumsq c m vd va) := by
  intro _ hw
  refine decode_of_raw ?_ hw
  change decodeRaw (encV 33#6 c vd va 0#4 6#6 (encQual ⟨false, m, false⟩)) = _
  rw [raw_21 _ (encV_major ..)]
  simp only [decVec, decVrun, fD, fA, fB, fF, fVd, fVa, fVb, fOp, fQ, encV_major, encV_vd, encV_va, encV_vb, encV_op, encV_q0, encV_q1, encV_q2, encV_ctl, extract_low, extract_high, encQual_clip, encQual_m, encQual_s, guard_r, guard_bit, guard_sense, ofBool_one, need, beq_self_eq_true, if_true] <;> rfl
theorem vrmax (c : Ctl) (m : Bool) (vd : VReg) (va : VReg) : Statement (.vrmax c m vd va) := by
  intro _ hw
  refine decode_of_raw ?_ hw
  change decodeRaw (encV 33#6 c vd va 0#4 7#6 (encQual ⟨false, m, false⟩)) = _
  rw [raw_21 _ (encV_major ..)]
  simp only [decVec, decVrun, fD, fA, fB, fF, fVd, fVa, fVb, fOp, fQ, encV_major, encV_vd, encV_va, encV_vb, encV_op, encV_q0, encV_q1, encV_q2, encV_ctl, extract_low, extract_high, encQual_clip, encQual_m, encQual_s, guard_r, guard_bit, guard_sense, ofBool_one, need, beq_self_eq_true, if_true] <;> rfl
theorem vrmin (c : Ctl) (m : Bool) (vd : VReg) (va : VReg) : Statement (.vrmin c m vd va) := by
  intro _ hw
  refine decode_of_raw ?_ hw
  change decodeRaw (encV 33#6 c vd va 0#4 8#6 (encQual ⟨false, m, false⟩)) = _
  rw [raw_21 _ (encV_major ..)]
  simp only [decVec, decVrun, fD, fA, fB, fF, fVd, fVa, fVb, fOp, fQ, encV_major, encV_vd, encV_va, encV_vb, encV_op, encV_q0, encV_q1, encV_q2, encV_ctl, extract_low, extract_high, encQual_clip, encQual_m, encQual_s, guard_r, guard_bit, guard_sense, ofBool_one, need, beq_self_eq_true, if_true] <;> rfl
theorem vrcnt (c : Ctl) (m : Bool) (vd : VReg) (va : VReg) : Statement (.vrcnt c m vd va) := by
  intro _ hw
  refine decode_of_raw ?_ hw
  change decodeRaw (encV 33#6 c vd va 0#4 9#6 (encQual ⟨false, m, false⟩)) = _
  rw [raw_21 _ (encV_major ..)]
  simp only [decVec, decVrun, fD, fA, fB, fF, fVd, fVa, fVb, fOp, fQ, encV_major, encV_vd, encV_va, encV_vb, encV_op, encV_q0, encV_q1, encV_q2, encV_ctl, extract_low, extract_high, encQual_clip, encQual_m, encQual_s, guard_r, guard_bit, guard_sense, ofBool_one, need, beq_self_eq_true, if_true] <;> rfl
theorem vamax (c : Ctl) (m : Bool) (vd : VReg) (va : VReg) : Statement (.vamax c m vd va) := by
  intro _ hw
  refine decode_of_raw ?_ hw
  change decodeRaw (encV 33#6 c vd va 0#4 10#6 (encQual ⟨false, m, false⟩)) = _
  rw [raw_21 _ (encV_major ..)]
  simp only [decVec, decVrun, fD, fA, fB, fF, fVd, fVa, fVb, fOp, fQ, encV_major, encV_vd, encV_va, encV_vb, encV_op, encV_q0, encV_q1, encV_q2, encV_ctl, extract_low, extract_high, encQual_clip, encQual_m, encQual_s, guard_r, guard_bit, guard_sense, ofBool_one, need, beq_self_eq_true, if_true] <;> rfl
theorem velem (c : Ctl) (vd : VReg) (va : VReg) (vb : VReg) : Statement (.velem c vd va vb) := by
  intro _ hw
  refine decode_of_raw ?_ hw
  change decodeRaw (encV 33#6 c vd va vb 11#6 4#3) = _
  rw [raw_21 _ (encV_major ..)]
  simp only [decVec, decVrun, fD, fA, fB, fF, fVd, fVa, fVb, fOp, fQ, encV_major, encV_vd, encV_va, encV_vb, encV_op, encV_q0, encV_q1, encV_q2, encV_ctl, extract_low, extract_high, encQual_clip, encQual_m, encQual_s, guard_r, guard_bit, guard_sense, ofBool_one, need, beq_self_eq_true, if_true] <;> rfl
theorem vcat (c : Ctl) (clip : Bool) (vd : VReg) (va : VReg) (vb : VReg) : Statement (.vcat c clip vd va vb) := by
  intro _ hw
  refine decode_of_raw ?_ hw
  change decodeRaw (encV 33#6 c vd va vb 12#6 (encQual ⟨clip, false, false⟩)) = _
  rw [raw_21 _ (encV_major ..)]
  simp only [decVec, decVrun, fD, fA, fB, fF, fVd, fVa, fVb, fOp, fQ, encV_major, encV_vd, encV_va, encV_vb, encV_op, encV_q0, encV_q1, encV_q2, encV_ctl, extract_low, extract_high, encQual_clip, encQual_m, encQual_s, guard_r, guard_bit, guard_sense, ofBool_one, need, beq_self_eq_true, if_true] <;> rfl
theorem vcvt (c : Ctl) (vd : VReg) (va : VReg) (fmt : BitVec 5) (rnd : BitVec 3) (sat : Bool) : Statement (.vcvt c vd va fmt rnd sat) := by
  intro _ hw
  refine decode_of_raw ?_ hw
  change decodeRaw (encC 34#6 c vd va fmt rnd sat 0#4) = _
  rw [raw_22 _ (encC_major ..)]
  simp only [decVec, fD, fA, fB, fF, fVd, fVa, fVb, fOp, fQ, encC_major, encC_vd, encC_va, encC_fmt, encC_rnd, encC_sat, encC_aux, encC_ctl, extract_low, extract_high, encQual_clip, encQual_m, encQual_s, guard_r, guard_bit, guard_sense, ofBool_one, need, beq_self_eq_true, if_true] <;> rfl
theorem vld (c : Ctl) (vd : VReg) (base : Reg) (count : Reg) (fmt : BitVec 5) : Statement (.vld c vd base count fmt) := by
  intro _ hw
  refine decode_of_raw ?_ hw
  change decodeRaw (encVM 35#6 c vd base count fmt) = _
  rw [raw_23 _ (encVM_major ..)]
  simp only [decVec, fD, fA, fB, fF, fVd, fVa, fVb, fOp, fQ, encVM_major, encVM_vd, encVM_base, encVM_count, encVM_fmt, encVM_ctl, extract_low, extract_high, encQual_clip, encQual_m, encQual_s, guard_r, guard_bit, guard_sense, ofBool_one, need, beq_self_eq_true, if_true] <;> rfl
theorem vst (c : Ctl) (vd : VReg) (base : Reg) (count : Reg) (fmt : BitVec 5) : Statement (.vst c vd base count fmt) := by
  intro _ hw
  refine decode_of_raw ?_ hw
  change decodeRaw (encVM 36#6 c vd base count fmt) = _
  rw [raw_24 _ (encVM_major ..)]
  simp only [decVec, fD, fA, fB, fF, fVd, fVa, fVb, fOp, fQ, encVM_major, encVM_vd, encVM_base, encVM_count, encVM_fmt, encVM_ctl, extract_low, extract_high, encQual_clip, encQual_m, encQual_s, guard_r, guard_bit, guard_sense, ofBool_one, need, beq_self_eq_true, if_true] <;> rfl
theorem vclaim (c : Ctl) (d : Reg) (a : Reg) : Statement (.vclaim c d a) := by
  intro _ hw
  refine decode_of_raw ?_ hw
  change decodeRaw (encRRR 37#6 c d a 0#6 0#3) = _
  rw [raw_25 _ (encRRR_major ..)]
  simp only [decVec, fD, fA, fB, fF, fVd, fVa, fVb, fOp, fQ, encRRR_major, encRRR_d, encRRR_a, encRRR_b, encRRR_f, encRRR_f0, encRRR_f2, encRRR_b0, encRRR_b3, encRRR_n1, encRRR_n0, encRRR_ctl, extract_low, extract_high, encQual_clip, encQual_m, encQual_s, guard_r, guard_bit, guard_sense, ofBool_one, need, beq_self_eq_true, if_true] <;> rfl
theorem vrels (c : Ctl) : Statement (.vrels c) := by
  intro _ hw
  refine decode_of_raw ?_ hw
  change decodeRaw (encRRR 37#6 c 0#6 0#6 0#6 1#3) = _
  rw [raw_25 _ (encRRR_major ..)]
  simp only [decVec, fD, fA, fB, fF, fVd, fVa, fVb, fOp, fQ, encRRR_major, encRRR_d, encRRR_a, encRRR_b, encRRR_f, encRRR_f0, encRRR_f2, encRRR_b0, encRRR_b3, encRRR_n1, encRRR_n0, encRRR_ctl, extract_low, extract_high, encQual_clip, encQual_m, encQual_s, guard_r, guard_bit, guard_sense, ofBool_one, need, beq_self_eq_true, if_true] <;> rfl
theorem vqry (c : Ctl) (d : Reg) (a : Reg) : Statement (.vqry c d a) := by
  intro _ hw
  refine decode_of_raw ?_ hw
  change decodeRaw (encRRR 37#6 c d a 0#6 2#3) = _
  rw [raw_25 _ (encRRR_major ..)]
  simp only [decVec, fD, fA, fB, fF, fVd, fVa, fVb, fOp, fQ, encRRR_major, encRRR_d, encRRR_a, encRRR_b, encRRR_f, encRRR_f0, encRRR_f2, encRRR_b0, encRRR_b3, encRRR_n1, encRRR_n0, encRRR_ctl, extract_low, extract_high, encQual_clip, encQual_m, encQual_s, guard_r, guard_bit, guard_sense, ofBool_one, need, beq_self_eq_true, if_true] <;> rfl
theorem vqnt (c : Ctl) (vd : VReg) (va : VReg) (fmt : BitVec 5) (rnd : BitVec 3) (sat : Bool) (sc : VReg) : Statement (.vqnt c vd va fmt rnd sat sc) := by
  intro _ hw
  refine decode_of_raw ?_ hw
  change decodeRaw (encC 38#6 c vd va fmt rnd sat sc) = _
  rw [raw_26 _ (encC_major ..)]
  simp only [decVec, fD, fA, fB, fF, fVd, fVa, fVb, fOp, fQ, encC_major, encC_vd, encC_va, encC_fmt, encC_rnd, encC_sat, encC_aux, encC_ctl, extract_low, extract_high, encQual_clip, encQual_m, encQual_s, guard_r, guard_bit, guard_sense, ofBool_one, need, beq_self_eq_true, if_true] <;> rfl
theorem ldb (c : Ctl) (d : Reg) (base : Reg) (off : Reg) : Statement (.ldb c d base off) := by
  intro _ hw
  refine decode_of_raw ?_ hw
  change decodeRaw (encRRR 40#6 c d base off 0#3) = _
  rw [raw_28 _ (encRRR_major ..)]
  simp only [decMem, fD, fA, fB, fF, fVd, fVa, fVb, fOp, fQ, encRRR_major, encRRR_d, encRRR_a, encRRR_b, encRRR_f, encRRR_f0, encRRR_f2, encRRR_b0, encRRR_b3, encRRR_n1, encRRR_n0, encRRR_ctl, extract_low, extract_high, encQual_clip, encQual_m, encQual_s, guard_r, guard_bit, guard_sense, ofBool_one, need, beq_self_eq_true, if_true] <;> rfl
theorem ldbu (c : Ctl) (d : Reg) (base : Reg) (off : Reg) : Statement (.ldbu c d base off) := by
  intro _ hw
  refine decode_of_raw ?_ hw
  change decodeRaw (encRRR 40#6 c d base off 1#3) = _
  rw [raw_28 _ (encRRR_major ..)]
  simp only [decMem, fD, fA, fB, fF, fVd, fVa, fVb, fOp, fQ, encRRR_major, encRRR_d, encRRR_a, encRRR_b, encRRR_f, encRRR_f0, encRRR_f2, encRRR_b0, encRRR_b3, encRRR_n1, encRRR_n0, encRRR_ctl, extract_low, extract_high, encQual_clip, encQual_m, encQual_s, guard_r, guard_bit, guard_sense, ofBool_one, need, beq_self_eq_true, if_true] <;> rfl
theorem ldh (c : Ctl) (d : Reg) (base : Reg) (off : Reg) : Statement (.ldh c d base off) := by
  intro _ hw
  refine decode_of_raw ?_ hw
  change decodeRaw (encRRR 40#6 c d base off 2#3) = _
  rw [raw_28 _ (encRRR_major ..)]
  simp only [decMem, fD, fA, fB, fF, fVd, fVa, fVb, fOp, fQ, encRRR_major, encRRR_d, encRRR_a, encRRR_b, encRRR_f, encRRR_f0, encRRR_f2, encRRR_b0, encRRR_b3, encRRR_n1, encRRR_n0, encRRR_ctl, extract_low, extract_high, encQual_clip, encQual_m, encQual_s, guard_r, guard_bit, guard_sense, ofBool_one, need, beq_self_eq_true, if_true] <;> rfl
theorem ldhu (c : Ctl) (d : Reg) (base : Reg) (off : Reg) : Statement (.ldhu c d base off) := by
  intro _ hw
  refine decode_of_raw ?_ hw
  change decodeRaw (encRRR 40#6 c d base off 3#3) = _
  rw [raw_28 _ (encRRR_major ..)]
  simp only [decMem, fD, fA, fB, fF, fVd, fVa, fVb, fOp, fQ, encRRR_major, encRRR_d, encRRR_a, encRRR_b, encRRR_f, encRRR_f0, encRRR_f2, encRRR_b0, encRRR_b3, encRRR_n1, encRRR_n0, encRRR_ctl, extract_low, extract_high, encQual_clip, encQual_m, encQual_s, guard_r, guard_bit, guard_sense, ofBool_one, need, beq_self_eq_true, if_true] <;> rfl
theorem ldw (c : Ctl) (d : Reg) (base : Reg) (off : Reg) : Statement (.ldw c d base off) := by
  intro _ hw
  refine decode_of_raw ?_ hw
  change decodeRaw (encRRR 40#6 c d base off 4#3) = _
  rw [raw_28 _ (encRRR_major ..)]
  simp only [decMem, fD, fA, fB, fF, fVd, fVa, fVb, fOp, fQ, encRRR_major, encRRR_d, encRRR_a, encRRR_b, encRRR_f, encRRR_f0, encRRR_f2, encRRR_b0, encRRR_b3, encRRR_n1, encRRR_n0, encRRR_ctl, extract_low, extract_high, encQual_clip, encQual_m, encQual_s, guard_r, guard_bit, guard_sense, ofBool_one, need, beq_self_eq_true, if_true] <;> rfl
theorem ldwu (c : Ctl) (d : Reg) (base : Reg) (off : Reg) : Statement (.ldwu c d base off) := by
  intro _ hw
  refine decode_of_raw ?_ hw
  change decodeRaw (encRRR 40#6 c d base off 5#3) = _
  rw [raw_28 _ (encRRR_major ..)]
  simp only [decMem, fD, fA, fB, fF, fVd, fVa, fVb, fOp, fQ, encRRR_major, encRRR_d, encRRR_a, encRRR_b, encRRR_f, encRRR_f0, encRRR_f2, encRRR_b0, encRRR_b3, encRRR_n1, encRRR_n0, encRRR_ctl, extract_low, extract_high, encQual_clip, encQual_m, encQual_s, guard_r, guard_bit, guard_sense, ofBool_one, need, beq_self_eq_true, if_true] <;> rfl
theorem ldd (c : Ctl) (d : Reg) (base : Reg) (off : Reg) : Statement (.ldd c d base off) := by
  intro _ hw
  refine decode_of_raw ?_ hw
  change decodeRaw (encRRR 40#6 c d base off 6#3) = _
  rw [raw_28 _ (encRRR_major ..)]
  simp only [decMem, fD, fA, fB, fF, fVd, fVa, fVb, fOp, fQ, encRRR_major, encRRR_d, encRRR_a, encRRR_b, encRRR_f, encRRR_f0, encRRR_f2, encRRR_b0, encRRR_b3, encRRR_n1, encRRR_n0, encRRR_ctl, extract_low, extract_high, encQual_clip, encQual_m, encQual_s, guard_r, guard_bit, guard_sense, ofBool_one, need, beq_self_eq_true, if_true] <;> rfl
theorem ldq (c : Ctl) (d : Reg) (base : Reg) (off : Reg) : Statement (.ldq c d base off) := by
  intro _ hw
  refine decode_of_raw ?_ hw
  change decodeRaw (encRRR 40#6 c d base off 7#3) = _
  rw [raw_28 _ (encRRR_major ..)]
  simp only [decMem, fD, fA, fB, fF, fVd, fVa, fVb, fOp, fQ, encRRR_major, encRRR_d, encRRR_a, encRRR_b, encRRR_f, encRRR_f0, encRRR_f2, encRRR_b0, encRRR_b3, encRRR_n1, encRRR_n0, encRRR_ctl, extract_low, extract_high, encQual_clip, encQual_m, encQual_s, guard_r, guard_bit, guard_sense, ofBool_one, need, beq_self_eq_true, if_true] <;> rfl
theorem stb (c : Ctl) (d : Reg) (base : Reg) (off : Reg) : Statement (.stb c d base off) := by
  intro _ hw
  refine decode_of_raw ?_ hw
  change decodeRaw (encRRR 41#6 c d base off 0#3) = _
  rw [raw_29 _ (encRRR_major ..)]
  simp only [decMem, fD, fA, fB, fF, fVd, fVa, fVb, fOp, fQ, encRRR_major, encRRR_d, encRRR_a, encRRR_b, encRRR_f, encRRR_f0, encRRR_f2, encRRR_b0, encRRR_b3, encRRR_n1, encRRR_n0, encRRR_ctl, extract_low, extract_high, encQual_clip, encQual_m, encQual_s, guard_r, guard_bit, guard_sense, ofBool_one, need, beq_self_eq_true, if_true] <;> rfl
theorem sth (c : Ctl) (d : Reg) (base : Reg) (off : Reg) : Statement (.sth c d base off) := by
  intro _ hw
  refine decode_of_raw ?_ hw
  change decodeRaw (encRRR 41#6 c d base off 1#3) = _
  rw [raw_29 _ (encRRR_major ..)]
  simp only [decMem, fD, fA, fB, fF, fVd, fVa, fVb, fOp, fQ, encRRR_major, encRRR_d, encRRR_a, encRRR_b, encRRR_f, encRRR_f0, encRRR_f2, encRRR_b0, encRRR_b3, encRRR_n1, encRRR_n0, encRRR_ctl, extract_low, extract_high, encQual_clip, encQual_m, encQual_s, guard_r, guard_bit, guard_sense, ofBool_one, need, beq_self_eq_true, if_true] <;> rfl
theorem stw (c : Ctl) (d : Reg) (base : Reg) (off : Reg) : Statement (.stw c d base off) := by
  intro _ hw
  refine decode_of_raw ?_ hw
  change decodeRaw (encRRR 41#6 c d base off 2#3) = _
  rw [raw_29 _ (encRRR_major ..)]
  simp only [decMem, fD, fA, fB, fF, fVd, fVa, fVb, fOp, fQ, encRRR_major, encRRR_d, encRRR_a, encRRR_b, encRRR_f, encRRR_f0, encRRR_f2, encRRR_b0, encRRR_b3, encRRR_n1, encRRR_n0, encRRR_ctl, extract_low, extract_high, encQual_clip, encQual_m, encQual_s, guard_r, guard_bit, guard_sense, ofBool_one, need, beq_self_eq_true, if_true] <;> rfl
theorem std (c : Ctl) (d : Reg) (base : Reg) (off : Reg) : Statement (.std c d base off) := by
  intro _ hw
  refine decode_of_raw ?_ hw
  change decodeRaw (encRRR 41#6 c d base off 3#3) = _
  rw [raw_29 _ (encRRR_major ..)]
  simp only [decMem, fD, fA, fB, fF, fVd, fVa, fVb, fOp, fQ, encRRR_major, encRRR_d, encRRR_a, encRRR_b, encRRR_f, encRRR_f0, encRRR_f2, encRRR_b0, encRRR_b3, encRRR_n1, encRRR_n0, encRRR_ctl, extract_low, extract_high, encQual_clip, encQual_m, encQual_s, guard_r, guard_bit, guard_sense, ofBool_one, need, beq_self_eq_true, if_true] <;> rfl
theorem stq (c : Ctl) (d : Reg) (base : Reg) (off : Reg) : Statement (.stq c d base off) := by
  intro _ hw
  refine decode_of_raw ?_ hw
  change decodeRaw (encRRR 41#6 c d base off 4#3) = _
  rw [raw_29 _ (encRRR_major ..)]
  simp only [decMem, fD, fA, fB, fF, fVd, fVa, fVb, fOp, fQ, encRRR_major, encRRR_d, encRRR_a, encRRR_b, encRRR_f, encRRR_f0, encRRR_f2, encRRR_b0, encRRR_b3, encRRR_n1, encRRR_n0, encRRR_ctl, extract_low, extract_high, encQual_clip, encQual_m, encQual_s, guard_r, guard_bit, guard_sense, ofBool_one, need, beq_self_eq_true, if_true] <;> rfl
theorem lds (c : Ctl) (sz : BitVec 2) (d : Reg) (base : Reg) (off : Reg) : Statement (.lds c sz d base off) := by
  intro _ hw
  refine decode_of_raw ?_ hw
  change decodeRaw (encRRR 42#6 c d base off (0#1 ++ sz)) = _
  rw [raw_2A _ (encRRR_major ..)]
  simp only [decMem, fD, fA, fB, fF, fVd, fVa, fVb, fOp, fQ, encRRR_major, encRRR_d, encRRR_a, encRRR_b, encRRR_f, encRRR_f0, encRRR_f2, encRRR_b0, encRRR_b3, encRRR_n1, encRRR_n0, encRRR_ctl, extract_low, extract_high, encQual_clip, encQual_m, encQual_s, guard_r, guard_bit, guard_sense, ofBool_one, need, beq_self_eq_true, if_true] <;> rfl
theorem ldsC (c : Ctl) (sz : BitVec 2) (d : Reg) (base : Reg) (off : Reg) : Statement (.ldsC c sz d base off) := by
  intro _ hw
  refine decode_of_raw ?_ hw
  change decodeRaw (encRRR 42#6 c d base off (1#1 ++ sz)) = _
  rw [raw_2A _ (encRRR_major ..)]
  simp only [decMem, fD, fA, fB, fF, fVd, fVa, fVb, fOp, fQ, encRRR_major, encRRR_d, encRRR_a, encRRR_b, encRRR_f, encRRR_f0, encRRR_f2, encRRR_b0, encRRR_b3, encRRR_n1, encRRR_n0, encRRR_ctl, extract_low, extract_high, encQual_clip, encQual_m, encQual_s, guard_r, guard_bit, guard_sense, ofBool_one, need, beq_self_eq_true, if_true] <;> rfl
theorem sts (c : Ctl) (sz : BitVec 2) (d : Reg) (base : Reg) (off : Reg) : Statement (.sts c sz d base off) := by
  intro _ hw
  refine decode_of_raw ?_ hw
  change decodeRaw (encRRR 43#6 c d base off (0#1 ++ sz)) = _
  rw [raw_2B _ (encRRR_major ..)]
  simp only [decMem, fD, fA, fB, fF, fVd, fVa, fVb, fOp, fQ, encRRR_major, encRRR_d, encRRR_a, encRRR_b, encRRR_f, encRRR_f0, encRRR_f2, encRRR_b0, encRRR_b3, encRRR_n1, encRRR_n0, encRRR_ctl, extract_low, extract_high, encQual_clip, encQual_m, encQual_s, guard_r, guard_bit, guard_sense, ofBool_one, need, beq_self_eq_true, if_true] <;> rfl
theorem aadd (c : Ctl) (w4 : Bool) (d : Reg) (a : Reg) (b : Reg) : Statement (.aadd c w4 d a b) := by
  intro _ hw
  refine decode_of_raw ?_ hw
  cases w4
  · change decodeRaw (encRRR 44#6 c d a b 0#3) = _; rw [raw_2C _ (encRRR_major ..)]
    simp only [decMem, fD, fA, fB, fF, encRRR_major, encRRR_d, encRRR_a, encRRR_b, encRRR_f, encRRR_f0, encRRR_f2, encRRR_b0, encRRR_b3, encRRR_n1, encRRR_n0, encRRR_ctl, extract_low, extract_high, encQual_clip, encQual_m, encQual_s, guard_r, guard_bit, guard_sense, ofBool_one, need, beq_self_eq_true, if_true] <;> rfl
  · change decodeRaw (encRRR 45#6 c d a b 0#3) = _; rw [raw_2D _ (encRRR_major ..)]
    simp only [decMem, fD, fA, fB, fF, encRRR_major, encRRR_d, encRRR_a, encRRR_b, encRRR_f, encRRR_f0, encRRR_f2, encRRR_b0, encRRR_b3, encRRR_n1, encRRR_n0, encRRR_ctl, extract_low, extract_high, encQual_clip, encQual_m, encQual_s, guard_r, guard_bit, guard_sense, ofBool_one, need, beq_self_eq_true, if_true] <;> rfl
theorem amin (c : Ctl) (w4 : Bool) (d : Reg) (a : Reg) (b : Reg) : Statement (.amin c w4 d a b) := by
  intro _ hw
  refine decode_of_raw ?_ hw
  cases w4
  · change decodeRaw (encRRR 44#6 c d a b 1#3) = _; rw [raw_2C _ (encRRR_major ..)]
    simp only [decMem, fD, fA, fB, fF, encRRR_major, encRRR_d, encRRR_a, encRRR_b, encRRR_f, encRRR_f0, encRRR_f2, encRRR_b0, encRRR_b3, encRRR_n1, encRRR_n0, encRRR_ctl, extract_low, extract_high, encQual_clip, encQual_m, encQual_s, guard_r, guard_bit, guard_sense, ofBool_one, need, beq_self_eq_true, if_true] <;> rfl
  · change decodeRaw (encRRR 45#6 c d a b 1#3) = _; rw [raw_2D _ (encRRR_major ..)]
    simp only [decMem, fD, fA, fB, fF, encRRR_major, encRRR_d, encRRR_a, encRRR_b, encRRR_f, encRRR_f0, encRRR_f2, encRRR_b0, encRRR_b3, encRRR_n1, encRRR_n0, encRRR_ctl, extract_low, extract_high, encQual_clip, encQual_m, encQual_s, guard_r, guard_bit, guard_sense, ofBool_one, need, beq_self_eq_true, if_true] <;> rfl
theorem amax (c : Ctl) (w4 : Bool) (d : Reg) (a : Reg) (b : Reg) : Statement (.amax c w4 d a b) := by
  intro _ hw
  refine decode_of_raw ?_ hw
  cases w4
  · change decodeRaw (encRRR 44#6 c d a b 2#3) = _; rw [raw_2C _ (encRRR_major ..)]
    simp only [decMem, fD, fA, fB, fF, encRRR_major, encRRR_d, encRRR_a, encRRR_b, encRRR_f, encRRR_f0, encRRR_f2, encRRR_b0, encRRR_b3, encRRR_n1, encRRR_n0, encRRR_ctl, extract_low, extract_high, encQual_clip, encQual_m, encQual_s, guard_r, guard_bit, guard_sense, ofBool_one, need, beq_self_eq_true, if_true] <;> rfl
  · change decodeRaw (encRRR 45#6 c d a b 2#3) = _; rw [raw_2D _ (encRRR_major ..)]
    simp only [decMem, fD, fA, fB, fF, encRRR_major, encRRR_d, encRRR_a, encRRR_b, encRRR_f, encRRR_f0, encRRR_f2, encRRR_b0, encRRR_b3, encRRR_n1, encRRR_n0, encRRR_ctl, extract_low, extract_high, encQual_clip, encQual_m, encQual_s, guard_r, guard_bit, guard_sense, ofBool_one, need, beq_self_eq_true, if_true] <;> rfl
theorem aand (c : Ctl) (w4 : Bool) (d : Reg) (a : Reg) (b : Reg) : Statement (.aand c w4 d a b) := by
  intro _ hw
  refine decode_of_raw ?_ hw
  cases w4
  · change decodeRaw (encRRR 44#6 c d a b 3#3) = _; rw [raw_2C _ (encRRR_major ..)]
    simp only [decMem, fD, fA, fB, fF, encRRR_major, encRRR_d, encRRR_a, encRRR_b, encRRR_f, encRRR_f0, encRRR_f2, encRRR_b0, encRRR_b3, encRRR_n1, encRRR_n0, encRRR_ctl, extract_low, extract_high, encQual_clip, encQual_m, encQual_s, guard_r, guard_bit, guard_sense, ofBool_one, need, beq_self_eq_true, if_true] <;> rfl
  · change decodeRaw (encRRR 45#6 c d a b 3#3) = _; rw [raw_2D _ (encRRR_major ..)]
    simp only [decMem, fD, fA, fB, fF, encRRR_major, encRRR_d, encRRR_a, encRRR_b, encRRR_f, encRRR_f0, encRRR_f2, encRRR_b0, encRRR_b3, encRRR_n1, encRRR_n0, encRRR_ctl, extract_low, extract_high, encQual_clip, encQual_m, encQual_s, guard_r, guard_bit, guard_sense, ofBool_one, need, beq_self_eq_true, if_true] <;> rfl
theorem aor (c : Ctl) (w4 : Bool) (d : Reg) (a : Reg) (b : Reg) : Statement (.aor c w4 d a b) := by
  intro _ hw
  refine decode_of_raw ?_ hw
  cases w4
  · change decodeRaw (encRRR 44#6 c d a b 4#3) = _; rw [raw_2C _ (encRRR_major ..)]
    simp only [decMem, fD, fA, fB, fF, encRRR_major, encRRR_d, encRRR_a, encRRR_b, encRRR_f, encRRR_f0, encRRR_f2, encRRR_b0, encRRR_b3, encRRR_n1, encRRR_n0, encRRR_ctl, extract_low, extract_high, encQual_clip, encQual_m, encQual_s, guard_r, guard_bit, guard_sense, ofBool_one, need, beq_self_eq_true, if_true] <;> rfl
  · change decodeRaw (encRRR 45#6 c d a b 4#3) = _; rw [raw_2D _ (encRRR_major ..)]
    simp only [decMem, fD, fA, fB, fF, encRRR_major, encRRR_d, encRRR_a, encRRR_b, encRRR_f, encRRR_f0, encRRR_f2, encRRR_b0, encRRR_b3, encRRR_n1, encRRR_n0, encRRR_ctl, extract_low, extract_high, encQual_clip, encQual_m, encQual_s, guard_r, guard_bit, guard_sense, ofBool_one, need, beq_self_eq_true, if_true] <;> rfl
theorem axor (c : Ctl) (w4 : Bool) (d : Reg) (a : Reg) (b : Reg) : Statement (.axor c w4 d a b) := by
  intro _ hw
  refine decode_of_raw ?_ hw
  cases w4
  · change decodeRaw (encRRR 44#6 c d a b 5#3) = _; rw [raw_2C _ (encRRR_major ..)]
    simp only [decMem, fD, fA, fB, fF, encRRR_major, encRRR_d, encRRR_a, encRRR_b, encRRR_f, encRRR_f0, encRRR_f2, encRRR_b0, encRRR_b3, encRRR_n1, encRRR_n0, encRRR_ctl, extract_low, extract_high, encQual_clip, encQual_m, encQual_s, guard_r, guard_bit, guard_sense, ofBool_one, need, beq_self_eq_true, if_true] <;> rfl
  · change decodeRaw (encRRR 45#6 c d a b 5#3) = _; rw [raw_2D _ (encRRR_major ..)]
    simp only [decMem, fD, fA, fB, fF, encRRR_major, encRRR_d, encRRR_a, encRRR_b, encRRR_f, encRRR_f0, encRRR_f2, encRRR_b0, encRRR_b3, encRRR_n1, encRRR_n0, encRRR_ctl, extract_low, extract_high, encQual_clip, encQual_m, encQual_s, guard_r, guard_bit, guard_sense, ofBool_one, need, beq_self_eq_true, if_true] <;> rfl
theorem aswp (c : Ctl) (w4 : Bool) (d : Reg) (a : Reg) (b : Reg) : Statement (.aswp c w4 d a b) := by
  intro _ hw
  refine decode_of_raw ?_ hw
  cases w4
  · change decodeRaw (encRRR 44#6 c d a b 6#3) = _; rw [raw_2C _ (encRRR_major ..)]
    simp only [decMem, fD, fA, fB, fF, encRRR_major, encRRR_d, encRRR_a, encRRR_b, encRRR_f, encRRR_f0, encRRR_f2, encRRR_b0, encRRR_b3, encRRR_n1, encRRR_n0, encRRR_ctl, extract_low, extract_high, encQual_clip, encQual_m, encQual_s, guard_r, guard_bit, guard_sense, ofBool_one, need, beq_self_eq_true, if_true] <;> rfl
  · change decodeRaw (encRRR 45#6 c d a b 6#3) = _; rw [raw_2D _ (encRRR_major ..)]
    simp only [decMem, fD, fA, fB, fF, encRRR_major, encRRR_d, encRRR_a, encRRR_b, encRRR_f, encRRR_f0, encRRR_f2, encRRR_b0, encRRR_b3, encRRR_n1, encRRR_n0, encRRR_ctl, extract_low, extract_high, encQual_clip, encQual_m, encQual_s, guard_r, guard_bit, guard_sense, ofBool_one, need, beq_self_eq_true, if_true] <;> rfl
theorem acas (c : Ctl) (w4 : Bool) (d : Reg) (a : Reg) (b : Reg) : Statement (.acas c w4 d a b) := by
  intro _ hw
  refine decode_of_raw ?_ hw
  cases w4
  · change decodeRaw (encRRR 44#6 c d a b 7#3) = _; rw [raw_2C _ (encRRR_major ..)]
    simp only [decMem, fD, fA, fB, fF, encRRR_major, encRRR_d, encRRR_a, encRRR_b, encRRR_f, encRRR_f0, encRRR_f2, encRRR_b0, encRRR_b3, encRRR_n1, encRRR_n0, encRRR_ctl, extract_low, extract_high, encQual_clip, encQual_m, encQual_s, guard_r, guard_bit, guard_sense, ofBool_one, need, beq_self_eq_true, if_true] <;> rfl
  · change decodeRaw (encRRR 45#6 c d a b 7#3) = _; rw [raw_2D _ (encRRR_major ..)]
    simp only [decMem, fD, fA, fB, fF, encRRR_major, encRRR_d, encRRR_a, encRRR_b, encRRR_f, encRRR_f0, encRRR_f2, encRRR_b0, encRRR_b3, encRRR_n1, encRRR_n0, encRRR_ctl, extract_low, extract_high, encQual_clip, encQual_m, encQual_s, guard_r, guard_bit, guard_sense, ofBool_one, need, beq_self_eq_true, if_true] <;> rfl
theorem lkp (c : Ctl) (d : Reg) (a : Reg) : Statement (.lkp c d a) := by
  intro _ hw
  refine decode_of_raw ?_ hw
  change decodeRaw (encRRR 46#6 c d a 0#6 0#3) = _
  rw [raw_2E _ (encRRR_major ..)]
  simp only [decMem, fD, fA, fB, fF, fVd, fVa, fVb, fOp, fQ, encRRR_major, encRRR_d, encRRR_a, encRRR_b, encRRR_f, encRRR_f0, encRRR_f2, encRRR_b0, encRRR_b3, encRRR_n1, encRRR_n0, encRRR_ctl, extract_low, extract_high, encQual_clip, encQual_m, encQual_s, guard_r, guard_bit, guard_sense, ofBool_one, need, beq_self_eq_true, if_true] <;> rfl
theorem dset (c : Ctl) (d : Reg) (a : Reg) (b : Reg) : Statement (.dset c d a b) := by
  intro _ hw
  refine decode_of_raw ?_ hw
  change decodeRaw (encRRR 46#6 c d a b 1#3) = _
  rw [raw_2E _ (encRRR_major ..)]
  simp only [decMem, fD, fA, fB, fF, fVd, fVa, fVb, fOp, fQ, encRRR_major, encRRR_d, encRRR_a, encRRR_b, encRRR_f, encRRR_f0, encRRR_f2, encRRR_b0, encRRR_b3, encRRR_n1, encRRR_n0, encRRR_ctl, extract_low, extract_high, encQual_clip, encQual_m, encQual_s, guard_r, guard_bit, guard_sense, ofBool_one, need, beq_self_eq_true, if_true] <;> rfl
theorem dclr (c : Ctl) (a : Reg) : Statement (.dclr c a) := by
  intro _ hw
  refine decode_of_raw ?_ hw
  change decodeRaw (encRRR 46#6 c 0#6 a 0#6 2#3) = _
  rw [raw_2E _ (encRRR_major ..)]
  simp only [decMem, fD, fA, fB, fF, fVd, fVa, fVb, fOp, fQ, encRRR_major, encRRR_d, encRRR_a, encRRR_b, encRRR_f, encRRR_f0, encRRR_f2, encRRR_b0, encRRR_b3, encRRR_n1, encRRR_n0, encRRR_ctl, extract_low, extract_high, encQual_clip, encQual_m, encQual_s, guard_r, guard_bit, guard_sense, ofBool_one, need, beq_self_eq_true, if_true] <;> rfl
theorem dinv (c : Ctl) (d : Reg) (a : Reg) (b : Reg) : Statement (.dinv c d a b) := by
  intro _ hw
  refine decode_of_raw ?_ hw
  change decodeRaw (encRRR 46#6 c d a b 3#3) = _
  rw [raw_2E _ (encRRR_major ..)]
  simp only [decMem, fD, fA, fB, fF, fVd, fVa, fVb, fOp, fQ, encRRR_major, encRRR_d, encRRR_a, encRRR_b, encRRR_f, encRRR_f0, encRRR_f2, encRRR_b0, encRRR_b3, encRRR_n1, encRRR_n0, encRRR_ctl, extract_low, extract_high, encQual_clip, encQual_m, encQual_s, guard_r, guard_bit, guard_sense, ofBool_one, need, beq_self_eq_true, if_true] <;> rfl
theorem feset (c : Ctl) (a : Reg) : Statement (.feset c a) := by
  intro _ hw
  refine decode_of_raw ?_ hw
  change decodeRaw (encRRR 47#6 c 0#6 a 0#6 0#3) = _
  rw [raw_2F _ (encRRR_major ..)]
  simp only [decMem, fD, fA, fB, fF, fVd, fVa, fVb, fOp, fQ, encRRR_major, encRRR_d, encRRR_a, encRRR_b, encRRR_f, encRRR_f0, encRRR_f2, encRRR_b0, encRRR_b3, encRRR_n1, encRRR_n0, encRRR_ctl, extract_low, extract_high, encQual_clip, encQual_m, encQual_s, guard_r, guard_bit, guard_sense, ofBool_one, need, beq_self_eq_true, if_true] <;> rfl
theorem feclr (c : Ctl) (a : Reg) : Statement (.feclr c a) := by
  intro _ hw
  refine decode_of_raw ?_ hw
  change decodeRaw (encRRR 47#6 c 0#6 a 0#6 1#3) = _
  rw [raw_2F _ (encRRR_major ..)]
  simp only [decMem, fD, fA, fB, fF, fVd, fVa, fVb, fOp, fQ, encRRR_major, encRRR_d, encRRR_a, encRRR_b, encRRR_f, encRRR_f0, encRRR_f2, encRRR_b0, encRRR_b3, encRRR_n1, encRRR_n0, encRRR_ctl, extract_low, extract_high, encQual_clip, encQual_m, encQual_s, guard_r, guard_bit, guard_sense, ofBool_one, need, beq_self_eq_true, if_true] <;> rfl
theorem fetest (c : Ctl) (d : Reg) (a : Reg) : Statement (.fetest c d a) := by
  intro _ hw
  refine decode_of_raw ?_ hw
  change decodeRaw (encRRR 47#6 c d a 0#6 2#3) = _
  rw [raw_2F _ (encRRR_major ..)]
  simp only [decMem, fD, fA, fB, fF, fVd, fVa, fVb, fOp, fQ, encRRR_major, encRRR_d, encRRR_a, encRRR_b, encRRR_f, encRRR_f0, encRRR_f2, encRRR_b0, encRRR_b3, encRRR_n1, encRRR_n0, encRRR_ctl, extract_low, extract_high, encQual_clip, encQual_m, encQual_s, guard_r, guard_bit, guard_sense, ofBool_one, need, beq_self_eq_true, if_true] <;> rfl
theorem waitf (c : Ctl) (a : Reg) : Statement (.waitf c a) := by
  intro _ hw
  refine decode_of_raw ?_ hw
  change decodeRaw (encRRR 47#6 c 0#6 a 0#6 3#3) = _
  rw [raw_2F _ (encRRR_major ..)]
  simp only [decMem, fD, fA, fB, fF, fVd, fVa, fVb, fOp, fQ, encRRR_major, encRRR_d, encRRR_a, encRRR_b, encRRR_f, encRRR_f0, encRRR_f2, encRRR_b0, encRRR_b3, encRRR_n1, encRRR_n0, encRRR_ctl, extract_low, extract_high, encQual_clip, encQual_m, encQual_s, guard_r, guard_bit, guard_sense, ofBool_one, need, beq_self_eq_true, if_true] <;> rfl
theorem waitfE (c : Ctl) (a : Reg) : Statement (.waitfE c a) := by
  intro _ hw
  refine decode_of_raw ?_ hw
  change decodeRaw (encRRR 47#6 c 0#6 a 1#6 3#3) = _
  rw [raw_2F _ (encRRR_major ..)]
  simp only [decMem, fD, fA, fB, fF, fVd, fVa, fVb, fOp, fQ, encRRR_major, encRRR_d, encRRR_a, encRRR_b, encRRR_f, encRRR_f0, encRRR_f2, encRRR_b0, encRRR_b3, encRRR_n1, encRRR_n0, encRRR_ctl, extract_low, extract_high, encQual_clip, encQual_m, encQual_s, guard_r, guard_bit, guard_sense, ofBool_one, need, beq_self_eq_true, if_true] <;> rfl
theorem fenceAcq (c : Ctl) (scope : BitVec 3) : Statement (.fenceAcq c scope) := by
  intro _ hw
  refine decode_of_raw ?_ hw
  change decodeRaw (encRRR 48#6 c 0#6 0#6 (scope ++ 0#3) 0#3) = _
  rw [raw_30 _ (encRRR_major ..)]
  simp only [decFence, fD, fA, fB, fF, fVd, fVa, fVb, fOp, fQ, encRRR_major, encRRR_d, encRRR_a, encRRR_b, encRRR_f, encRRR_f0, encRRR_f2, encRRR_b0, encRRR_b3, encRRR_n1, encRRR_n0, encRRR_ctl, extract_low, extract_high, encQual_clip, encQual_m, encQual_s, guard_r, guard_bit, guard_sense, ofBool_one, need, beq_self_eq_true, if_true] <;> rfl
theorem fenceRel (c : Ctl) (scope : BitVec 3) : Statement (.fenceRel c scope) := by
  intro _ hw
  refine decode_of_raw ?_ hw
  change decodeRaw (encRRR 48#6 c 0#6 0#6 (scope ++ 0#3) 1#3) = _
  rw [raw_30 _ (encRRR_major ..)]
  simp only [decFence, fD, fA, fB, fF, fVd, fVa, fVb, fOp, fQ, encRRR_major, encRRR_d, encRRR_a, encRRR_b, encRRR_f, encRRR_f0, encRRR_f2, encRRR_b0, encRRR_b3, encRRR_n1, encRRR_n0, encRRR_ctl, extract_low, extract_high, encQual_clip, encQual_m, encQual_s, guard_r, guard_bit, guard_sense, ofBool_one, need, beq_self_eq_true, if_true] <;> rfl
theorem fenceFull (c : Ctl) (scope : BitVec 3) : Statement (.fenceFull c scope) := by
  intro _ hw
  refine decode_of_raw ?_ hw
  change decodeRaw (encRRR 48#6 c 0#6 0#6 (scope ++ 0#3) 2#3) = _
  rw [raw_30 _ (encRRR_major ..)]
  simp only [decFence, fD, fA, fB, fF, fVd, fVa, fVb, fOp, fQ, encRRR_major, encRRR_d, encRRR_a, encRRR_b, encRRR_f, encRRR_f0, encRRR_f2, encRRR_b0, encRRR_b3, encRRR_n1, encRRR_n0, encRRR_ctl, extract_low, extract_high, encQual_clip, encQual_m, encQual_s, guard_r, guard_bit, guard_sense, ofBool_one, need, beq_self_eq_true, if_true] <;> rfl
theorem fenceEngine (c : Ctl) : Statement (.fenceEngine c) := by
  intro _ hw
  refine decode_of_raw ?_ hw
  change decodeRaw (encRRR 48#6 c 0#6 0#6 0#6 3#3) = _
  rw [raw_30 _ (encRRR_major ..)]
  simp only [decFence, fD, fA, fB, fF, fVd, fVa, fVb, fOp, fQ, encRRR_major, encRRR_d, encRRR_a, encRRR_b, encRRR_f, encRRR_f0, encRRR_f2, encRRR_b0, encRRR_b3, encRRR_n1, encRRR_n0, encRRR_ctl, extract_low, extract_high, encQual_clip, encQual_m, encQual_s, guard_r, guard_bit, guard_sense, ofBool_one, need, beq_self_eq_true, if_true] <;> rfl
theorem ctalloc (c : Ctl) (d : Reg) (a : Reg) (b : Reg) : Statement (.ctalloc c d a b) := by
  intro _ hw
  refine decode_of_raw ?_ hw
  change decodeRaw (encRRR 49#6 c d a b 0#3) = _
  rw [raw_31 _ (encRRR_major ..)]
  simp only [decFence, fD, fA, fB, fF, fVd, fVa, fVb, fOp, fQ, encRRR_major, encRRR_d, encRRR_a, encRRR_b, encRRR_f, encRRR_f0, encRRR_f2, encRRR_b0, encRRR_b3, encRRR_n1, encRRR_n0, encRRR_ctl, extract_low, extract_high, encQual_clip, encQual_m, encQual_s, guard_r, guard_bit, guard_sense, ofBool_one, need, beq_self_eq_true, if_true] <;> rfl
theorem ctset (c : Ctl) (d : Reg) (a : Reg) : Statement (.ctset c d a) := by
  intro _ hw
  refine decode_of_raw ?_ hw
  change decodeRaw (encRRR 49#6 c d a 0#6 1#3) = _
  rw [raw_31 _ (encRRR_major ..)]
  simp only [decFence, fD, fA, fB, fF, fVd, fVa, fVb, fOp, fQ, encRRR_major, encRRR_d, encRRR_a, encRRR_b, encRRR_f, encRRR_f0, encRRR_f2, encRRR_b0, encRRR_b3, encRRR_n1, encRRR_n0, encRRR_ctl, extract_low, extract_high, encQual_clip, encQual_m, encQual_s, guard_r, guard_bit, guard_sense, ofBool_one, need, beq_self_eq_true, if_true] <;> rfl
theorem ctcommit (c : Ctl) (a : Reg) (b : Reg) : Statement (.ctcommit c a b) := by
  intro _ hw
  refine decode_of_raw ?_ hw
  change decodeRaw (encRRR 49#6 c 0#6 a b 2#3) = _
  rw [raw_31 _ (encRRR_major ..)]
  simp only [decFence, fD, fA, fB, fF, fVd, fVa, fVb, fOp, fQ, encRRR_major, encRRR_d, encRRR_a, encRRR_b, encRRR_f, encRRR_f0, encRRR_f2, encRRR_b0, encRRR_b3, encRRR_n1, encRRR_n0, encRRR_ctl, extract_low, extract_high, encQual_clip, encQual_m, encQual_s, guard_r, guard_bit, guard_sense, ofBool_one, need, beq_self_eq_true, if_true] <;> rfl
theorem ctdrop (c : Ctl) (a : Reg) (b : Reg) : Statement (.ctdrop c a b) := by
  intro _ hw
  refine decode_of_raw ?_ hw
  change decodeRaw (encRRR 49#6 c 0#6 a b 3#3) = _
  rw [raw_31 _ (encRRR_major ..)]
  simp only [decFence, fD, fA, fB, fF, fVd, fVa, fVb, fOp, fQ, encRRR_major, encRRR_d, encRRR_a, encRRR_b, encRRR_f, encRRR_f0, encRRR_f2, encRRR_b0, encRRR_b3, encRRR_n1, encRRR_n0, encRRR_ctl, extract_low, extract_high, encQual_clip, encQual_m, encQual_s, guard_r, guard_bit, guard_sense, ofBool_one, need, beq_self_eq_true, if_true] <;> rfl
theorem ctstat (c : Ctl) (d : Reg) (a : Reg) : Statement (.ctstat c d a) := by
  intro _ hw
  refine decode_of_raw ?_ hw
  change decodeRaw (encRRR 49#6 c d a 0#6 4#3) = _
  rw [raw_31 _ (encRRR_major ..)]
  simp only [decFence, fD, fA, fB, fF, fVd, fVa, fVb, fOp, fQ, encRRR_major, encRRR_d, encRRR_a, encRRR_b, encRRR_f, encRRR_f0, encRRR_f2, encRRR_b0, encRRR_b3, encRRR_n1, encRRR_n0, encRRR_ctl, extract_low, extract_high, encQual_clip, encQual_m, encQual_s, guard_r, guard_bit, guard_sense, ofBool_one, need, beq_self_eq_true, if_true] <;> rfl
theorem ldx (c : Ctl) (d : Reg) (a : Reg) (b : Reg) : Statement (.ldx c d a b) := by
  intro _ hw
  refine decode_of_raw ?_ hw
  change decodeRaw (encRRR 49#6 c d a b 5#3) = _
  rw [raw_31 _ (encRRR_major ..)]
  simp only [decFence, fD, fA, fB, fF, fVd, fVa, fVb, fOp, fQ, encRRR_major, encRRR_d, encRRR_a, encRRR_b, encRRR_f, encRRR_f0, encRRR_f2, encRRR_b0, encRRR_b3, encRRR_n1, encRRR_n0, encRRR_ctl, extract_low, extract_high, encQual_clip, encQual_m, encQual_s, guard_r, guard_bit, guard_sense, ofBool_one, need, beq_self_eq_true, if_true] <;> rfl
theorem cpy (c : Ctl) (d : Reg) (a : Reg) (r : Bool) : Statement (.cpy c d a r) := by
  intro _ hw
  refine decode_of_raw ?_ hw
  change decodeRaw (encX 50#6 c d a (2#5 ++ BitVec.ofBool r) 0#3) = _
  rw [encX_eq, raw_32 _ (encRRR_major ..)]
  simp only [decFence, fD, fA, fB, fF, fVd, fVa, fVb, fOp, fQ, encRRR_major, encRRR_d, encRRR_a, encRRR_b, encRRR_f, encRRR_f0, encRRR_f2, encRRR_b0, encRRR_b3, encRRR_n1, encRRR_n0, encRRR_ctl, extract_low, extract_high, encQual_clip, encQual_m, encQual_s, guard_r, guard_bit, guard_sense, ofBool_one, need, beq_self_eq_true, if_true] <;> rfl
theorem cpy2 (c : Ctl) (d : Reg) (a : Reg) (r : Bool) : Statement (.cpy2 c d a r) := by
  intro _ hw
  refine decode_of_raw ?_ hw
  change decodeRaw (encX 50#6 c d a (3#5 ++ BitVec.ofBool r) 1#3) = _
  rw [encX_eq, raw_32 _ (encRRR_major ..)]
  simp only [decFence, fD, fA, fB, fF, fVd, fVa, fVb, fOp, fQ, encRRR_major, encRRR_d, encRRR_a, encRRR_b, encRRR_f, encRRR_f0, encRRR_f2, encRRR_b0, encRRR_b3, encRRR_n1, encRRR_n0, encRRR_ctl, extract_low, extract_high, encQual_clip, encQual_m, encQual_s, guard_r, guard_bit, guard_sense, ofBool_one, need, beq_self_eq_true, if_true] <;> rfl
theorem gath (c : Ctl) (d : Reg) (a : Reg) (n : Reg) : Statement (.gath c d a n) := by
  intro _ hw
  refine decode_of_raw ?_ hw
  change decodeRaw (encX 50#6 c d a n 2#3) = _
  rw [encX_eq, raw_32 _ (encRRR_major ..)]
  simp only [decFence, fD, fA, fB, fF, fVd, fVa, fVb, fOp, fQ, encRRR_major, encRRR_d, encRRR_a, encRRR_b, encRRR_f, encRRR_f0, encRRR_f2, encRRR_b0, encRRR_b3, encRRR_n1, encRRR_n0, encRRR_ctl, extract_low, extract_high, encQual_clip, encQual_m, encQual_s, guard_r, guard_bit, guard_sense, ofBool_one, need, beq_self_eq_true, if_true] <;> rfl
theorem scat (c : Ctl) (d : Reg) (a : Reg) : Statement (.scat c d a) := by
  intro _ hw
  refine decode_of_raw ?_ hw
  change decodeRaw (encX 50#6 c d a 5#6 3#3) = _
  rw [encX_eq, raw_32 _ (encRRR_major ..)]
  simp only [decFence, fD, fA, fB, fF, fVd, fVa, fVb, fOp, fQ, encRRR_major, encRRR_d, encRRR_a, encRRR_b, encRRR_f, encRRR_f0, encRRR_f2, encRRR_b0, encRRR_b3, encRRR_n1, encRRR_n0, encRRR_ctl, extract_low, extract_high, encQual_clip, encQual_m, encQual_s, guard_r, guard_bit, guard_sense, ofBool_one, need, beq_self_eq_true, if_true] <;> rfl
theorem cpyx (c : Ctl) (d : Reg) (a : Reg) (n : Reg) : Statement (.cpyx c d a n) := by
  intro _ hw
  refine decode_of_raw ?_ hw
  change decodeRaw (encX 50#6 c d a n 4#3) = _
  rw [encX_eq, raw_32 _ (encRRR_major ..)]
  simp only [decFence, fD, fA, fB, fF, fVd, fVa, fVb, fOp, fQ, encRRR_major, encRRR_d, encRRR_a, encRRR_b, encRRR_f, encRRR_f0, encRRR_f2, encRRR_b0, encRRR_b3, encRRR_n1, encRRR_n0, encRRR_ctl, extract_low, extract_high, encQual_clip, encQual_m, encQual_s, guard_r, guard_bit, guard_sense, ofBool_one, need, beq_self_eq_true, if_true] <;> rfl
theorem cstat (c : Ctl) (d : Reg) : Statement (.cstat c d) := by
  intro _ hw
  refine decode_of_raw ?_ hw
  change decodeRaw (encX 50#6 c d 0#6 0#6 5#3) = _
  rw [encX_eq, raw_32 _ (encRRR_major ..)]
  simp only [decFence, fD, fA, fB, fF, fVd, fVa, fVb, fOp, fQ, encRRR_major, encRRR_d, encRRR_a, encRRR_b, encRRR_f, encRRR_f0, encRRR_f2, encRRR_b0, encRRR_b3, encRRR_n1, encRRR_n0, encRRR_ctl, extract_low, extract_high, encQual_clip, encQual_m, encQual_s, guard_r, guard_bit, guard_sense, ofBool_one, need, beq_self_eq_true, if_true] <;> rfl
theorem cstatHandle (c : Ctl) (d : Reg) (a : Reg) : Statement (.cstatHandle c d a) := by
  intro _ hw
  refine decode_of_raw ?_ hw
  change decodeRaw (encX 50#6 c d a 1#6 5#3) = _
  rw [encX_eq, raw_32 _ (encRRR_major ..)]
  simp only [decFence, fD, fA, fB, fF, fVd, fVa, fVb, fOp, fQ, encRRR_major, encRRR_d, encRRR_a, encRRR_b, encRRR_f, encRRR_f0, encRRR_f2, encRRR_b0, encRRR_b3, encRRR_n1, encRRR_n0, encRRR_ctl, extract_low, extract_high, encQual_clip, encQual_m, encQual_s, guard_r, guard_bit, guard_sense, ofBool_one, need, beq_self_eq_true, if_true] <;> rfl
theorem oclaim (c : Ctl) (d : Reg) (a : Reg) : Statement (.oclaim c d a) := by
  intro _ hw
  refine decode_of_raw ?_ hw
  change decodeRaw (encX 51#6 c d a 1#6 0#3) = _
  rw [encX_eq, raw_33 _ (encRRR_major ..)]
  simp only [decEngine, fD, fA, fB, fF, fVd, fVa, fVb, fOp, fQ, encRRR_major, encRRR_d, encRRR_a, encRRR_b, encRRR_f, encRRR_f0, encRRR_f2, encRRR_b0, encRRR_b3, encRRR_n1, encRRR_n0, encRRR_ctl, extract_low, extract_high, encQual_clip, encQual_m, encQual_s, guard_r, guard_bit, guard_sense, ofBool_one, need, beq_self_eq_true, if_true] <;> rfl
theorem orels (c : Ctl) (a : Reg) : Statement (.orels c a) := by
  intro _ hw
  refine decode_of_raw ?_ hw
  change decodeRaw (encX 51#6 c 0#6 a 1#6 1#3) = _
  rw [encX_eq, raw_33 _ (encRRR_major ..)]
  simp only [decEngine, fD, fA, fB, fF, fVd, fVa, fVb, fOp, fQ, encRRR_major, encRRR_d, encRRR_a, encRRR_b, encRRR_f, encRRR_f0, encRRR_f2, encRRR_b0, encRRR_b3, encRRR_n1, encRRR_n0, encRRR_ctl, extract_low, extract_high, encQual_clip, encQual_m, encQual_s, guard_r, guard_bit, guard_sense, ofBool_one, need, beq_self_eq_true, if_true] <;> rfl
theorem mcap (c : Ctl) (d : Reg) : Statement (.mcap c d) := by
  intro _ hw
  refine decode_of_raw ?_ hw
  change decodeRaw (encX 51#6 c d 0#6 0#6 2#3) = _
  rw [encX_eq, raw_33 _ (encRRR_major ..)]
  simp only [decEngine, fD, fA, fB, fF, fVd, fVa, fVb, fOp, fQ, encRRR_major, encRRR_d, encRRR_a, encRRR_b, encRRR_f, encRRR_f0, encRRR_f2, encRRR_b0, encRRR_b3, encRRR_n1, encRRR_n0, encRRR_ctl, extract_low, extract_high, encQual_clip, encQual_m, encQual_s, guard_r, guard_bit, guard_sense, ofBool_one, need, beq_self_eq_true, if_true] <;> rfl
theorem mma (c : Ctl) (a : Reg) : Statement (.mma c a) := by
  intro _ hw
  refine decode_of_raw ?_ hw
  change decodeRaw (encX 51#6 c 0#6 a 4#6 3#3) = _
  rw [encX_eq, raw_33 _ (encRRR_major ..)]
  simp only [decEngine, fD, fA, fB, fF, fVd, fVa, fVb, fOp, fQ, encRRR_major, encRRR_d, encRRR_a, encRRR_b, encRRR_f, encRRR_f0, encRRR_f2, encRRR_b0, encRRR_b3, encRRR_n1, encRRR_n0, encRRR_ctl, extract_low, extract_high, encQual_clip, encQual_m, encQual_s, guard_r, guard_bit, guard_sense, ofBool_one, need, beq_self_eq_true, if_true] <;> rfl
theorem mred (c : Ctl) (a : Reg) : Statement (.mred c a) := by
  intro _ hw
  refine decode_of_raw ?_ hw
  change decodeRaw (encX 51#6 c 0#6 a 4#6 4#3) = _
  rw [encX_eq, raw_33 _ (encRRR_major ..)]
  simp only [decEngine, fD, fA, fB, fF, fVd, fVa, fVb, fOp, fQ, encRRR_major, encRRR_d, encRRR_a, encRRR_b, encRRR_f, encRRR_f0, encRRR_f2, encRRR_b0, encRRR_b3, encRRR_n1, encRRR_n0, encRRR_ctl, extract_low, extract_high, encQual_clip, encQual_m, encQual_s, guard_r, guard_bit, guard_sense, ofBool_one, need, beq_self_eq_true, if_true] <;> rfl
theorem mdrain (c : Ctl) (a : Reg) : Statement (.mdrain c a) := by
  intro _ hw
  refine decode_of_raw ?_ hw
  change decodeRaw (encX 51#6 c 0#6 a 2#6 5#3) = _
  rw [encX_eq, raw_33 _ (encRRR_major ..)]
  simp only [decEngine, fD, fA, fB, fF, fVd, fVa, fVb, fOp, fQ, encRRR_major, encRRR_d, encRRR_a, encRRR_b, encRRR_f, encRRR_f0, encRRR_f2, encRRR_b0, encRRR_b3, encRRR_n1, encRRR_n0, encRRR_ctl, extract_low, extract_high, encQual_clip, encQual_m, encQual_s, guard_r, guard_bit, guard_sense, ofBool_one, need, beq_self_eq_true, if_true] <;> rfl
theorem mdrainScaled (c : Ctl) (a : Reg) : Statement (.mdrainScaled c a) := by
  intro _ hw
  refine decode_of_raw ?_ hw
  change decodeRaw (encX 51#6 c 0#6 a 4#6 5#3) = _
  rw [encX_eq, raw_33 _ (encRRR_major ..)]
  simp only [decEngine, fD, fA, fB, fF, fVd, fVa, fVb, fOp, fQ, encRRR_major, encRRR_d, encRRR_a, encRRR_b, encRRR_f, encRRR_f0, encRRR_f2, encRRR_b0, encRRR_b3, encRRR_n1, encRRR_n0, encRRR_ctl, extract_low, extract_high, encQual_clip, encQual_m, encQual_s, guard_r, guard_bit, guard_sense, ofBool_one, need, beq_self_eq_true, if_true] <;> rfl
theorem cbload (c : Ctl) (a : Reg) : Statement (.cbload c a) := by
  intro _ hw
  refine decode_of_raw ?_ hw
  change decodeRaw (encX 51#6 c 0#6 a 1#6 6#3) = _
  rw [encX_eq, raw_33 _ (encRRR_major ..)]
  simp only [decEngine, fD, fA, fB, fF, fVd, fVa, fVb, fOp, fQ, encRRR_major, encRRR_d, encRRR_a, encRRR_b, encRRR_f, encRRR_f0, encRRR_f2, encRRR_b0, encRRR_b3, encRRR_n1, encRRR_n0, encRRR_ctl, extract_low, extract_high, encQual_clip, encQual_m, encQual_s, guard_r, guard_bit, guard_sense, ofBool_one, need, beq_self_eq_true, if_true] <;> rfl
theorem mfill (c : Ctl) (a : Reg) : Statement (.mfill c a) := by
  intro _ hw
  refine decode_of_raw ?_ hw
  change decodeRaw (encX 51#6 c 0#6 a 3#6 7#3) = _
  rw [encX_eq, raw_33 _ (encRRR_major ..)]
  simp only [decEngine, fD, fA, fB, fF, fVd, fVa, fVb, fOp, fQ, encRRR_major, encRRR_d, encRRR_a, encRRR_b, encRRR_f, encRRR_f0, encRRR_f2, encRRR_b0, encRRR_b3, encRRR_n1, encRRR_n0, encRRR_ctl, extract_low, extract_high, encQual_clip, encQual_m, encQual_s, guard_r, guard_bit, guard_sense, ofBool_one, need, beq_self_eq_true, if_true] <;> rfl
theorem coll (c : Ctl) (d : Reg) (a : Reg) : Statement (.coll c d a) := by
  intro _ hw
  refine decode_of_raw ?_ hw
  change decodeRaw (encX 52#6 c d a 5#6 0#3) = _
  rw [encX_eq, raw_34 _ (encRRR_major ..)]
  simp only [decEngine, fD, fA, fB, fF, fVd, fVa, fVb, fOp, fQ, encRRR_major, encRRR_d, encRRR_a, encRRR_b, encRRR_f, encRRR_f0, encRRR_f2, encRRR_b0, encRRR_b3, encRRR_n1, encRRR_n0, encRRR_ctl, extract_low, extract_high, encQual_clip, encQual_m, encQual_s, guard_r, guard_bit, guard_sense, ofBool_one, need, beq_self_eq_true, if_true] <;> rfl
theorem rsync (c : Ctl) : Statement (.rsync c) := by
  intro _ hw
  refine decode_of_raw ?_ hw
  change decodeRaw (encX 52#6 c 0#6 0#6 0#6 1#3) = _
  rw [encX_eq, raw_34 _ (encRRR_major ..)]
  simp only [decEngine, fD, fA, fB, fF, fVd, fVa, fVb, fOp, fQ, encRRR_major, encRRR_d, encRRR_a, encRRR_b, encRRR_f, encRRR_f0, encRRR_f2, encRRR_b0, encRRR_b3, encRRR_n1, encRRR_n0, encRRR_ctl, extract_low, extract_high, encQual_clip, encQual_m, encQual_s, guard_r, guard_bit, guard_sense, ofBool_one, need, beq_self_eq_true, if_true] <;> rfl
theorem rstat (c : Ctl) (d : Reg) (a : Reg) : Statement (.rstat c d a) := by
  intro _ hw
  refine decode_of_raw ?_ hw
  change decodeRaw (encX 52#6 c d a 1#6 2#3) = _
  rw [encX_eq, raw_34 _ (encRRR_major ..)]
  simp only [decEngine, fD, fA, fB, fF, fVd, fVa, fVb, fOp, fQ, encRRR_major, encRRR_d, encRRR_a, encRRR_b, encRRR_f, encRRR_f0, encRRR_f2, encRRR_b0, encRRR_b3, encRRR_n1, encRRR_n0, encRRR_ctl, extract_low, extract_high, encQual_clip, encQual_m, encQual_s, guard_r, guard_bit, guard_sense, ofBool_one, need, beq_self_eq_true, if_true] <;> rfl
theorem xtab (c : Ctl) (d : Reg) (a : Reg) : Statement (.xtab c d a) := by
  intro _ hw
  refine decode_of_raw ?_ hw
  change decodeRaw (encX 53#6 c d a 3#6 0#3) = _
  rw [encX_eq, raw_35 _ (encRRR_major ..)]
  simp only [decEngine, fD, fA, fB, fF, fVd, fVa, fVb, fOp, fQ, encRRR_major, encRRR_d, encRRR_a, encRRR_b, encRRR_f, encRRR_f0, encRRR_f2, encRRR_b0, encRRR_b3, encRRR_n1, encRRR_n0, encRRR_ctl, extract_low, extract_high, encQual_clip, encQual_m, encQual_s, guard_r, guard_bit, guard_sense, ofBool_one, need, beq_self_eq_true, if_true] <;> rfl
theorem xstart (c : Ctl) (d : Reg) (a : Reg) : Statement (.xstart c d a) := by
  intro _ hw
  refine decode_of_raw ?_ hw
  change decodeRaw (encX 53#6 c d a 6#6 1#3) = _
  rw [encX_eq, raw_35 _ (encRRR_major ..)]
  simp only [decEngine, fD, fA, fB, fF, fVd, fVa, fVb, fOp, fQ, encRRR_major, encRRR_d, encRRR_a, encRRR_b, encRRR_f, encRRR_f0, encRRR_f2, encRRR_b0, encRRR_b3, encRRR_n1, encRRR_n0, encRRR_ctl, extract_low, extract_high, encQual_clip, encQual_m, encQual_s, guard_r, guard_bit, guard_sense, ofBool_one, need, beq_self_eq_true, if_true] <;> rfl
theorem xstat (c : Ctl) (d : Reg) (a : Reg) : Statement (.xstat c d a) := by
  intro _ hw
  refine decode_of_raw ?_ hw
  change decodeRaw (encX 53#6 c d a 1#6 2#3) = _
  rw [encX_eq, raw_35 _ (encRRR_major ..)]
  simp only [decEngine, fD, fA, fB, fF, fVd, fVa, fVb, fOp, fQ, encRRR_major, encRRR_d, encRRR_a, encRRR_b, encRRR_f, encRRR_f0, encRRR_f2, encRRR_b0, encRRR_b3, encRRR_n1, encRRR_n0, encRRR_ctl, extract_low, extract_high, encQual_clip, encQual_m, encQual_s, guard_r, guard_bit, guard_sense, ofBool_one, need, beq_self_eq_true, if_true] <;> rfl
theorem br (c : Ctl) (off : BitVec 21) : Statement (.br c off) := by
  intro _ hw
  refine decode_of_raw ?_ hw
  change decodeRaw (encB 54#6 c off) = _
  rw [raw_36 _ (encB_major ..)]
  simp only [decCtl, fD, fA, fB, fF, fVd, fVa, fVb, fOp, fQ, encB_major, encB_off, encB_ctl, extract_low, extract_high, encQual_clip, encQual_m, encQual_s, guard_r, guard_bit, guard_sense, ofBool_one, need, beq_self_eq_true, if_true] <;> rfl
theorem brl (c : Ctl) (off : BitVec 21) : Statement (.brl c off) := by
  intro _ hw
  refine decode_of_raw ?_ hw
  change decodeRaw (encB 55#6 c off) = _
  rw [raw_37 _ (encB_major ..)]
  simp only [decCtl, fD, fA, fB, fF, fVd, fVa, fVb, fOp, fQ, encB_major, encB_off, encB_ctl, extract_low, extract_high, encQual_clip, encQual_m, encQual_s, guard_r, guard_bit, guard_sense, ofBool_one, need, beq_self_eq_true, if_true] <;> rfl
theorem jr (c : Ctl) (a : Reg) : Statement (.jr c a) := by
  intro _ hw
  refine decode_of_raw ?_ hw
  change decodeRaw (encRRR 56#6 c 0#6 a 0#6 0#3) = _
  rw [raw_38 _ (encRRR_major ..)]
  simp only [decCtl, fD, fA, fB, fF, fVd, fVa, fVb, fOp, fQ, encRRR_major, encRRR_d, encRRR_a, encRRR_b, encRRR_f, encRRR_f0, encRRR_f2, encRRR_b0, encRRR_b3, encRRR_n1, encRRR_n0, encRRR_ctl, extract_low, extract_high, encQual_clip, encQual_m, encQual_s, guard_r, guard_bit, guard_sense, ofBool_one, need, beq_self_eq_true, if_true] <;> rfl
theorem jrl (c : Ctl) (a : Reg) : Statement (.jrl c a) := by
  intro _ hw
  refine decode_of_raw ?_ hw
  change decodeRaw (encRRR 56#6 c 0#6 a 0#6 1#3) = _
  rw [raw_38 _ (encRRR_major ..)]
  simp only [decCtl, fD, fA, fB, fF, fVd, fVa, fVb, fOp, fQ, encRRR_major, encRRR_d, encRRR_a, encRRR_b, encRRR_f, encRRR_f0, encRRR_f2, encRRR_b0, encRRR_b3, encRRR_n1, encRRR_n0, encRRR_ctl, extract_low, extract_high, encQual_clip, encQual_m, encQual_s, guard_r, guard_bit, guard_sense, ofBool_one, need, beq_self_eq_true, if_true] <;> rfl
theorem tend (c : Ctl) : Statement (.tend c) := by
  intro _ hw
  refine decode_of_raw ?_ hw
  change decodeRaw (encRRR 56#6 c 0#6 0#6 0#6 2#3) = _
  rw [raw_38 _ (encRRR_major ..)]
  simp only [decCtl, fD, fA, fB, fF, fVd, fVa, fVb, fOp, fQ, encRRR_major, encRRR_d, encRRR_a, encRRR_b, encRRR_f, encRRR_f0, encRRR_f2, encRRR_b0, encRRR_b3, encRRR_n1, encRRR_n0, encRRR_ctl, extract_low, extract_high, encQual_clip, encQual_m, encQual_s, guard_r, guard_bit, guard_sense, ofBool_one, need, beq_self_eq_true, if_true] <;> rfl
theorem spawn (c : Ctl) (d : Reg) (a : Reg) (n : Reg) : Statement (.spawn c d a n) := by
  intro _ hw
  refine decode_of_raw ?_ hw
  change decodeRaw (encX 57#6 c d a n 0#3) = _
  rw [encX_eq, raw_39 _ (encRRR_major ..)]
  simp only [decCtl, fD, fA, fB, fF, fVd, fVa, fVb, fOp, fQ, encRRR_major, encRRR_d, encRRR_a, encRRR_b, encRRR_f, encRRR_f0, encRRR_f2, encRRR_b0, encRRR_b3, encRRR_n1, encRRR_n0, encRRR_ctl, extract_low, extract_high, encQual_clip, encQual_m, encQual_s, guard_r, guard_bit, guard_sense, ofBool_one, need, beq_self_eq_true, if_true] <;> rfl
theorem meet (c : Ctl) (d : Reg) (a : Reg) : Statement (.meet c d a) := by
  intro _ hw
  refine decode_of_raw ?_ hw
  change decodeRaw (encX 57#6 c d a 2#6 1#3) = _
  rw [encX_eq, raw_39 _ (encRRR_major ..)]
  simp only [decCtl, fD, fA, fB, fF, fVd, fVa, fVb, fOp, fQ, encRRR_major, encRRR_d, encRRR_a, encRRR_b, encRRR_f, encRRR_f0, encRRR_f2, encRRR_b0, encRRR_b3, encRRR_n1, encRRR_n0, encRRR_ctl, extract_low, extract_high, encQual_clip, encQual_m, encQual_s, guard_r, guard_bit, guard_sense, ofBool_one, need, beq_self_eq_true, if_true] <;> rfl
theorem meetq (c : Ctl) (d : Reg) (a : Reg) : Statement (.meetq c d a) := by
  intro _ hw
  refine decode_of_raw ?_ hw
  change decodeRaw (encX 57#6 c d a 3#6 2#3) = _
  rw [encX_eq, raw_39 _ (encRRR_major ..)]
  simp only [decCtl, fD, fA, fB, fF, fVd, fVa, fVb, fOp, fQ, encRRR_major, encRRR_d, encRRR_a, encRRR_b, encRRR_f, encRRR_f0, encRRR_f2, encRRR_b0, encRRR_b3, encRRR_n1, encRRR_n0, encRRR_ctl, extract_low, extract_high, encQual_clip, encQual_m, encQual_s, guard_r, guard_bit, guard_sense, ofBool_one, need, beq_self_eq_true, if_true] <;> rfl
theorem glaunch (c : Ctl) (d : Reg) (a : Reg) : Statement (.glaunch c d a) := by
  intro _ hw
  refine decode_of_raw ?_ hw
  change decodeRaw (encX 57#6 c d a 3#6 3#3) = _
  rw [encX_eq, raw_39 _ (encRRR_major ..)]
  simp only [decCtl, fD, fA, fB, fF, fVd, fVa, fVb, fOp, fQ, encRRR_major, encRRR_d, encRRR_a, encRRR_b, encRRR_f, encRRR_f0, encRRR_f2, encRRR_b0, encRRR_b3, encRRR_n1, encRRR_n0, encRRR_ctl, extract_low, extract_high, encQual_clip, encQual_m, encQual_s, guard_r, guard_bit, guard_sense, ofBool_one, need, beq_self_eq_true, if_true] <;> rfl
theorem yield (c : Ctl) : Statement (.yield c) := by
  intro _ hw
  refine decode_of_raw ?_ hw
  change decodeRaw (encX 57#6 c 0#6 0#6 0#6 4#3) = _
  rw [encX_eq, raw_39 _ (encRRR_major ..)]
  simp only [decCtl, fD, fA, fB, fF, fVd, fVa, fVb, fOp, fQ, encRRR_major, encRRR_d, encRRR_a, encRRR_b, encRRR_f, encRRR_f0, encRRR_f2, encRRR_b0, encRRR_b3, encRRR_n1, encRRR_n0, encRRR_ctl, extract_low, extract_high, encQual_clip, encQual_m, encQual_s, guard_r, guard_bit, guard_sense, ofBool_one, need, beq_self_eq_true, if_true] <;> rfl
theorem yieldFor (c : Ctl) (a : Reg) : Statement (.yieldFor c a) := by
  intro _ hw
  refine decode_of_raw ?_ hw
  change decodeRaw (encX 57#6 c 0#6 a 1#6 4#3) = _
  rw [encX_eq, raw_39 _ (encRRR_major ..)]
  simp only [decCtl, fD, fA, fB, fF, fVd, fVa, fVb, fOp, fQ, encRRR_major, encRRR_d, encRRR_a, encRRR_b, encRRR_f, encRRR_f0, encRRR_f2, encRRR_b0, encRRR_b3, encRRR_n1, encRRR_n0, encRRR_ctl, extract_low, extract_high, encQual_clip, encQual_m, encQual_s, guard_r, guard_bit, guard_sense, ofBool_one, need, beq_self_eq_true, if_true] <;> rfl
theorem hbeat (c : Ctl) : Statement (.hbeat c) := by
  intro _ hw
  refine decode_of_raw ?_ hw
  change decodeRaw (encX 57#6 c 0#6 0#6 0#6 5#3) = _
  rw [encX_eq, raw_39 _ (encRRR_major ..)]
  simp only [decCtl, fD, fA, fB, fF, fVd, fVa, fVb, fOp, fQ, encRRR_major, encRRR_d, encRRR_a, encRRR_b, encRRR_f, encRRR_f0, encRRR_f2, encRRR_b0, encRRR_b3, encRRR_n1, encRRR_n0, encRRR_ctl, extract_low, extract_high, encQual_clip, encQual_m, encQual_s, guard_r, guard_bit, guard_sense, ofBool_one, need, beq_self_eq_true, if_true] <;> rfl
theorem trap (c : Ctl) (b : Reg) : Statement (.trap c b) := by
  intro _ hw
  refine decode_of_raw ?_ hw
  change decodeRaw (encRRR 58#6 c 0#6 0#6 b 0#3) = _
  rw [raw_3A _ (encRRR_major ..)]
  simp only [decCtl, fD, fA, fB, fF, fVd, fVa, fVb, fOp, fQ, encRRR_major, encRRR_d, encRRR_a, encRRR_b, encRRR_f, encRRR_f0, encRRR_f2, encRRR_b0, encRRR_b3, encRRR_n1, encRRR_n0, encRRR_ctl, extract_low, extract_high, encQual_clip, encQual_m, encQual_s, guard_r, guard_bit, guard_sense, ofBool_one, need, beq_self_eq_true, if_true] <;> rfl
theorem rft (c : Ctl) : Statement (.rft c) := by
  intro _ hw
  refine decode_of_raw ?_ hw
  change decodeRaw (encRRR 58#6 c 0#6 0#6 0#6 1#3) = _
  rw [raw_3A _ (encRRR_major ..)]
  simp only [decCtl, fD, fA, fB, fF, fVd, fVa, fVb, fOp, fQ, encRRR_major, encRRR_d, encRRR_a, encRRR_b, encRRR_f, encRRR_f0, encRRR_f2, encRRR_b0, encRRR_b3, encRRR_n1, encRRR_n0, encRRR_ctl, extract_low, extract_high, encQual_clip, encQual_m, encQual_s, guard_r, guard_bit, guard_sense, ofBool_one, need, beq_self_eq_true, if_true] <;> rfl
theorem csrr (c : Ctl) (d : Reg) (n : BitVec 12) : Statement (.csrr c d n) := by
  intro _ hw
  refine decode_of_raw ?_ hw
  change decodeRaw (encCSR c d n 2#3) = _
  rw [raw_3A _ (encCSR_major ..)]
  simp only [decCtl, fD, fA, fB, fF, fVd, fVa, fVb, fOp, fQ, encCSR_major, encCSR_d, encCSR_n, encCSR_f, encCSR_ctl, extract_low, extract_high, encQual_clip, encQual_m, encQual_s, guard_r, guard_bit, guard_sense, ofBool_one, need, beq_self_eq_true, if_true] <;> rfl
theorem csrw (c : Ctl) (d : Reg) (n : BitVec 12) : Statement (.csrw c d n) := by
  intro _ hw
  refine decode_of_raw ?_ hw
  change decodeRaw (encCSR c d n 3#3) = _
  rw [raw_3A _ (encCSR_major ..)]
  simp only [decCtl, fD, fA, fB, fF, fVd, fVa, fVb, fOp, fQ, encCSR_major, encCSR_d, encCSR_n, encCSR_f, encCSR_ctl, extract_low, extract_high, encQual_clip, encQual_m, encQual_s, guard_r, guard_bit, guard_sense, ofBool_one, need, beq_self_eq_true, if_true] <;> rfl
theorem noph : Statement (.noph) := by
  intro _ hw
  refine decode_of_raw ?_ hw
  change decodeRaw (encHint 0#4 0#22) = _
  rw [raw_3F _ (encHint_major ..)]
  simp only [decHint, fD, fA, fB, fF, fVd, fVa, fVb, fOp, fQ, encHint_major, encHint_kind, encHint_p, encHint_p9, encHint_p16, encHint_p10, encHint_pb, encHint_p3, encHint_p03, encHint_p8, encHint_p08, extract_low, extract_high, encQual_clip, encQual_m, encQual_s, guard_r, guard_bit, guard_sense, ofBool_one, need, beq_self_eq_true, if_true] <;> rfl
theorem imm (p : BitVec 22) : Statement (.imm p) := by
  intro _ hw
  refine decode_of_raw ?_ hw
  change decodeRaw (encHint 1#4 p) = _
  rw [raw_3F _ (encHint_major ..)]
  simp only [decHint, fD, fA, fB, fF, fVd, fVa, fVb, fOp, fQ, encHint_major, encHint_kind, encHint_p, encHint_p9, encHint_p16, encHint_p10, encHint_pb, encHint_p3, encHint_p03, encHint_p8, encHint_p08, extract_low, extract_high, encQual_clip, encQual_m, encQual_s, guard_r, guard_bit, guard_sense, ofBool_one, need, beq_self_eq_true, if_true] <;> rfl
theorem guard (r : Reg) (bit : Reg) (sense : Bool) : Statement (.guard r bit sense) := by
  intro _ hw
  refine decode_of_raw ?_ hw
  change decodeRaw (encHint 2#4 (r ++ bit ++ BitVec.ofBool sense ++ 0#9)) = _
  rw [raw_3F _ (encHint_major ..)]
  simp only [decHint, fD, fA, fB, fF, fVd, fVa, fVb, fOp, fQ, encHint_major, encHint_kind, encHint_p, encHint_p9, encHint_p16, encHint_p10, encHint_pb, encHint_p3, encHint_p03, encHint_p8, encHint_p08, extract_low, extract_high, encQual_clip, encQual_m, encQual_s, guard_r, guard_bit, guard_sense, ofBool_one, need, beq_self_eq_true, if_true] <;> rfl
theorem live (p : BitVec 22) : Statement (.live p) := by
  intro _ hw
  refine decode_of_raw ?_ hw
  change decodeRaw (encHint 3#4 p) = _
  rw [raw_3F _ (encHint_major ..)]
  simp only [decHint, fD, fA, fB, fF, fVd, fVa, fVb, fOp, fQ, encHint_major, encHint_kind, encHint_p, encHint_p9, encHint_p16, encHint_p10, encHint_pb, encHint_p3, encHint_p03, encHint_p8, encHint_p08, extract_low, extract_high, encQual_clip, encQual_m, encQual_s, guard_r, guard_bit, guard_sense, ofBool_one, need, beq_self_eq_true, if_true] <;> rfl
theorem rmode (rm : BitVec 3) : Statement (.rmode rm) := by
  intro _ hw
  refine decode_of_raw ?_ hw
  change decodeRaw (encHint 4#4 (0#19 ++ rm)) = _
  rw [raw_3F _ (encHint_major ..)]
  simp only [decHint, fD, fA, fB, fF, fVd, fVa, fVb, fOp, fQ, encHint_major, encHint_kind, encHint_p, encHint_p9, encHint_p16, encHint_p10, encHint_pb, encHint_p3, encHint_p03, encHint_p8, encHint_p08, extract_low, extract_high, encQual_clip, encQual_m, encQual_s, guard_r, guard_bit, guard_sense, ofBool_one, need, beq_self_eq_true, if_true] <;> rfl
theorem stallx (n : BitVec 8) : Statement (.stallx n) := by
  intro _ hw
  refine decode_of_raw ?_ hw
  change decodeRaw (encHint 5#4 (0#14 ++ n)) = _
  rw [raw_3F _ (encHint_major ..)]
  simp only [decHint, fD, fA, fB, fF, fVd, fVa, fVb, fOp, fQ, encHint_major, encHint_kind, encHint_p, encHint_p9, encHint_p16, encHint_p10, encHint_pb, encHint_p3, encHint_p03, encHint_p8, encHint_p08, extract_low, extract_high, encQual_clip, encQual_m, encQual_s, guard_r, guard_bit, guard_sense, ofBool_one, need, beq_self_eq_true, if_true] <;> rfl
theorem longResultLand (k : Nat) (sl : Nat) : Statement (.longResultLand k sl) := fun h _ => (Bool.false_ne_true h).elim
theorem syncTimeout (k : Nat) (sl : Nat) : Statement (.syncTimeout k sl) := fun h _ => (Bool.false_ne_true h).elim
theorem yieldExpire (k : Nat) (sl : Nat) : Statement (.yieldExpire k sl) := fun h _ => (Bool.false_ne_true h).elim
theorem meetRelease (k : Nat) (x : Nat) : Statement (.meetRelease k x) := fun h _ => (Bool.false_ne_true h).elim
theorem meetDetTimeout (k : Nat) (x : Nat) : Statement (.meetDetTimeout k x) := fun h _ => (Bool.false_ne_true h).elim
theorem preemptTimeout (k : Nat) (sl : Nat) : Statement (.preemptTimeout k sl) := fun h _ => (Bool.false_ne_true h).elim
theorem saveComplete (k : Nat) (sl : Nat) : Statement (.saveComplete k sl) := fun h _ => (Bool.false_ne_true h).elim
theorem swapResume (k : Nat) (x : Nat) : Statement (.swapResume k x) := fun h _ => (Bool.false_ne_true h).elim
theorem reqRead (m : Request) : Statement (.reqRead m) := fun h _ => (Bool.false_ne_true h).elim
theorem reqWrite (m : Request) : Statement (.reqWrite m) := fun h _ => (Bool.false_ne_true h).elim
theorem reqLds (m : Request) : Statement (.reqLds m) := fun h _ => (Bool.false_ne_true h).elim
theorem reqLdsc (m : Request) : Statement (.reqLdsc m) := fun h _ => (Bool.false_ne_true h).elim
theorem reqSts (m : Request) : Statement (.reqSts m) := fun h _ => (Bool.false_ne_true h).elim
theorem reqFebit (m : Request) : Statement (.reqFebit m) := fun h _ => (Bool.false_ne_true h).elim
theorem reqFetest (m : Request) : Statement (.reqFetest m) := fun h _ => (Bool.false_ne_true h).elim
theorem reqWaitf (m : Request) : Statement (.reqWaitf m) := fun h _ => (Bool.false_ne_true h).elim
theorem reqAtomic (m : Request) : Statement (.reqAtomic m) := fun h _ => (Bool.false_ne_true h).elim
theorem reqSpawn (m : Request) : Statement (.reqSpawn m) := fun h _ => (Bool.false_ne_true h).elim
theorem reqGlaunch (m : Request) : Statement (.reqGlaunch m) := fun h _ => (Bool.false_ne_true h).elim
theorem reqSuccdec (m : Request) : Statement (.reqSuccdec m) := fun h _ => (Bool.false_ne_true h).elim
theorem reqReady (m : Request) : Statement (.reqReady m) := fun h _ => (Bool.false_ne_true h).elim
theorem reqMma (m : Request) : Statement (.reqMma m) := fun h _ => (Bool.false_ne_true h).elim
theorem reqMred (m : Request) : Statement (.reqMred m) := fun h _ => (Bool.false_ne_true h).elim
theorem reqCollc (m : Request) : Statement (.reqCollc m) := fun h _ => (Bool.false_ne_true h).elim
theorem collInstanceTimeout (g : Nat) (inst : Nat) : Statement (.collInstanceTimeout g inst) := fun h _ => (Bool.false_ne_true h).elim
theorem reqCanopy (m : Request) : Statement (.reqCanopy m) := fun h _ => (Bool.false_ne_true h).elim
theorem reqXducer (m : Request) : Statement (.reqXducer m) := fun h _ => (Bool.false_ne_true h).elim
theorem reqCancel (m : Request) : Statement (.reqCancel m) := fun h _ => (Bool.false_ne_true h).elim
theorem ansDone (a : Answer) : Statement (.ansDone a) := fun h _ => (Bool.false_ne_true h).elim
theorem ansWaiting (a : Answer) : Statement (.ansWaiting a) := fun h _ => (Bool.false_ne_true h).elim
theorem ansRetry (a : Answer) : Statement (.ansRetry a) := fun h _ => (Bool.false_ne_true h).elim
theorem ansBusy (a : Answer) : Statement (.ansBusy a) := fun h _ => (Bool.false_ne_true h).elim
theorem ansStale (a : Answer) : Statement (.ansStale a) := fun h _ => (Bool.false_ne_true h).elim
theorem ansUnknownOutcome (a : Answer) : Statement (.ansUnknownOutcome a) := fun h _ => (Bool.false_ne_true h).elim
theorem ansCancelled (a : Answer) : Statement (.ansCancelled a) := fun h _ => (Bool.false_ne_true h).elim
theorem ansError (cause : Cause) (a : Answer) : Statement (.ansError cause a) := fun h _ => (Bool.false_ne_true h).elim
theorem ansFenced (a : Answer) : Statement (.ansFenced a) := fun h _ => (Bool.false_ne_true h).elim
theorem requestRetransmit (tag : Nat) : Statement (.requestRetransmit tag) := fun h _ => (Bool.false_ne_true h).elim
theorem backoffResend (tag : Nat) : Statement (.backoffResend tag) := fun h _ => (Bool.false_ne_true h).elim
theorem requestGiveUp (tag : Nat) : Statement (.requestGiveUp tag) := fun h _ => (Bool.false_ne_true h).elim
theorem receiptExpiry (o : Owner) : Statement (.receiptExpiry o) := fun h _ => (Bool.false_ne_true h).elim
theorem dramAccessComplete (k : Nat) (tag : Nat) : Statement (.dramAccessComplete k tag) := fun h _ => (Bool.false_ne_true h).elim
theorem refreshStart (p : Nat) : Statement (.refreshStart p) := fun h _ => (Bool.false_ne_true h).elim
theorem completionArrival (x : Arrival) : Statement (.completionArrival x) := fun h _ => (Bool.false_ne_true h).elim
theorem xducerTableLoad (die : Nat) (ln : Nat) : Statement (.xducerTableLoad die ln) := fun h _ => (Bool.false_ne_true h).elim
theorem xducerJob (die : Nat) (ln : Nat) : Statement (.xducerJob die ln) := fun h _ => (Bool.false_ne_true h).elim
theorem mmaStart (k : Nat) : Statement (.mmaStart k) := fun h _ => (Bool.false_ne_true h).elim
theorem mmaFinish (k : Nat) : Statement (.mmaFinish k) := fun h _ => (Bool.false_ne_true h).elim
theorem operandForward (k : Nat) : Statement (.operandForward k) := fun h _ => (Bool.false_ne_true h).elim
theorem matrixHeadTimeout (k : Nat) : Statement (.matrixHeadTimeout k) := fun h _ => (Bool.false_ne_true h).elim
theorem matrixAcceptTimeout (tag : Nat) : Statement (.matrixAcceptTimeout tag) := fun h _ => (Bool.false_ne_true h).elim
theorem canopyCommit (t : Nat) : Statement (.canopyCommit t) := fun h _ => (Bool.false_ne_true h).elim
theorem canopyDrop (t : Nat) : Statement (.canopyDrop t) := fun h _ => (Bool.false_ne_true h).elim
theorem distributorSelect (die : Nat) : Statement (.distributorSelect die) := fun h _ => (Bool.false_ne_true h).elim
theorem privateCtagCommit (die : Nat) (q : Nat) : Statement (.privateCtagCommit die q) := fun h _ => (Bool.false_ne_true h).elim
theorem markComplete (die : Nat) (q : Nat) : Statement (.markComplete die q) := fun h _ => (Bool.false_ne_true h).elim
theorem intervalCommitRetry (die : Nat) (q : Nat) : Statement (.intervalCommitRetry die q) := fun h _ => (Bool.false_ne_true h).elim
theorem ctagWrite (c : Ctl) (d : Reg) : Statement (.ctagWrite c d) := fun h _ => (Bool.false_ne_true h).elim
theorem fpcsrWrite (c : Ctl) (d : Reg) : Statement (.fpcsrWrite c d) := fun h _ => (Bool.false_ne_true h).elim
theorem xlinvWrite (w : Nat) (v : Word) : Statement (.xlinvWrite w v) := fun h _ => (Bool.false_ne_true h).elim
theorem xlinvComplete : Statement (.xlinvComplete) := fun h _ => (Bool.false_ne_true h).elim
theorem dqloadWrite (w : Nat) (v : Word) : Statement (.dqloadWrite w v) := fun h _ => (Bool.false_ne_true h).elim
theorem dcmdReprio (w : Nat) (v : Word) : Statement (.dcmdReprio w v) := fun h _ => (Bool.false_ne_true h).elim
theorem dcmdCancel (w : Nat) (v : Word) : Statement (.dcmdCancel w v) := fun h _ => (Bool.false_ne_true h).elim
theorem preemptSafe (w : Nat) (v : Word) : Statement (.preemptSafe w v) := fun h _ => (Bool.false_ne_true h).elim
theorem preemptForced (w : Nat) (v : Word) : Statement (.preemptForced w v) := fun h _ => (Bool.false_ne_true h).elim
theorem preemptKill (w : Nat) (v : Word) : Statement (.preemptKill w v) := fun h _ => (Bool.false_ne_true h).elim
theorem resumeWrite (w : Nat) (v : Word) : Statement (.resumeWrite w v) := fun h _ => (Bool.false_ne_true h).elim
theorem collcfgLoad (w : Nat) (v : Word) : Statement (.collcfgLoad w v) := fun h _ => (Bool.false_ne_true h).elim
theorem collcfgRemove (w : Nat) (v : Word) : Statement (.collcfgRemove w v) := fun h _ => (Bool.false_ne_true h).elim
theorem xlaneWrite (w : Nat) (v : Word) : Statement (.xlaneWrite w v) := fun h _ => (Bool.false_ne_true h).elim
theorem threadEligible (k : Nat) (sl : Nat) : Statement (.threadEligible k sl) := fun h _ => (Bool.false_ne_true h).elim
theorem budgetExpiry (k : Nat) (sl : Nat) : Statement (.budgetExpiry k sl) := fun h _ => (Bool.false_ne_true h).elim
theorem heartbeatExpiry (k : Nat) (sl : Nat) : Statement (.heartbeatExpiry k sl) := fun h _ => (Bool.false_ne_true h).elim
theorem coreFence (k : Nat) : Statement (.coreFence k) := fun h _ => (Bool.false_ne_true h).elim
theorem coreContainment (k : Nat) (cause : Cause) : Statement (.coreContainment k cause) := fun h _ => (Bool.false_ne_true h).elim
theorem residueMismatch (k : Nat) (u : Nat) (again : Bool) : Statement (.residueMismatch k u again) := fun h _ => (Bool.false_ne_true h).elim
theorem scrubPass (die : Nat) (ch : Nat) : Statement (.scrubPass die ch) := fun h _ => (Bool.false_ne_true h).elim
theorem safePointSave (k : Nat) (sl : Nat) : Statement (.safePointSave k sl) := fun h _ => (Bool.false_ne_true h).elim
theorem forcedSave (k : Nat) (sl : Nat) : Statement (.forcedSave k sl) := fun h _ => (Bool.false_ne_true h).elim
theorem threadResume (k : Nat) (sl : Nat) : Statement (.threadResume k sl) := fun h _ => (Bool.false_ne_true h).elim
theorem swapOut (die : Nat) : Statement (.swapOut die) := fun h _ => (Bool.false_ne_true h).elim
theorem reqHwread (m : Request) : Statement (.reqHwread m) := fun h _ => (Bool.false_ne_true h).elim
theorem reqHwwrite (m : Request) : Statement (.reqHwwrite m) := fun h _ => (Bool.false_ne_true h).elim
theorem reqHroot (m : Request) : Statement (.reqHroot m) := fun h _ => (Bool.false_ne_true h).elim
theorem hmgmtReadStatus (m : Request) : Statement (.hmgmtReadStatus m) := fun h _ => (Bool.false_ne_true h).elim
theorem hmgmtReadSensors (m : Request) : Statement (.hmgmtReadSensors m) := fun h _ => (Bool.false_ne_true h).elim
theorem hmgmtWarmStart (m : Request) : Statement (.hmgmtWarmStart m) := fun h _ => (Bool.false_ne_true h).elim
theorem hmgmtColdStart (m : Request) : Statement (.hmgmtColdStart m) := fun h _ => (Bool.false_ne_true h).elim
theorem hmgmtSetEventPush (m : Request) : Statement (.hmgmtSetEventPush m) := fun h _ => (Bool.false_ne_true h).elim
theorem ownerRestart (o : Owner) : Statement (.ownerRestart o) := fun h _ => (Bool.false_ne_true h).elim
theorem pageWalk (k : Nat) (pt : Word) (va : Word) : Statement (.pageWalk k pt va) := fun h _ => (Bool.false_ne_true h).elim
theorem refreshEnd : Statement (.refreshEnd) := fun h _ => (Bool.false_ne_true h).elim
theorem tempSample : Statement (.tempSample) := fun h _ => (Bool.false_ne_true h).elim
theorem steal (die : Nat) (q : Nat) : Statement (.steal die q) := fun h _ => (Bool.false_ne_true h).elim
theorem partitionReset (die : Nat) (guest : Nat) : Statement (.partitionReset die guest) := fun h _ => (Bool.false_ne_true h).elim
theorem coldStart : Statement (.coldStart) := fun h _ => (Bool.false_ne_true h).elim
theorem warmStart : Statement (.warmStart) := fun h _ => (Bool.false_ne_true h).elim
theorem illegalWord (w : BitVec 32) : Statement (.illegalWord w) := fun h _ => (Bool.false_ne_true h).elim
theorem fetchFault (cause : Cause) : Statement (.fetchFault cause) := fun h _ => (Bool.false_ne_true h).elim
theorem powerRemoval : Statement (.powerRemoval) := fun h _ => (Bool.false_ne_true h).elim

end Sys2Proof.Laws.RoundTrip
end

