-- ==== Sys2Proof/Laws/Vector.lean ====
section
/-! SUPPORT. Vector words: what an element-wise word gives, said once for all of them. -/
namespace Sys2Proof.Machine

/-- A vector word whose own meaning builds its result from pieces has the outcome that its runs give: RUN_OVERFLOW, FP_EXCEPTION, the result, or the clipped result with its length. -/
theorem vec_outcome {s : State} {t : Thread} {c : Ctl} {f : Form} (i : Instr) (h : Issues s t) (hr : t.Runs c f) (clip : Bool) (vd : VReg) (fmt : Nat)
    (ss : List (List Run)) (op : List Word → Nat × Nat) (body : State → Thread → WordRes)
    (hb : body (s.put t) t = putVector (s.put t) t clip vd fmt ((piecesOf ss).map (fun p => (BitVec.ofNat 64 (op p.1).1, p.2, (op p.1).2))))
    (he : exec i s = .next (runWord i c f body s)) (hl : f.lag = 0 := by rfl) : elementOutcome s t c i clip vd fmt ss op := by
  unfold elementOutcome buildOutcome
  set vals := (piecesOf ss).map (fun p => (BitVec.ofNat 64 (op p.1).1, p.2, (op p.1).2)) with hv
  intro r v m done
  have hput : ∀ (x : Thread), ((s.put t).setThread s.k s.sl x) = s.put x := fun x => State.setThread_setThread s _ _ t x
  refine ⟨fun n hn hc => lift_trap i h hr body ?_ he hl, fun hn => ⟨fun hf => lift_trap i h hr body ?_ he hl, fun hf => ⟨fun hc => ?_, fun hc => ⟨?_, ?_⟩⟩⟩⟩
  · rw [hb]; unfold putVector; rw [show build (8 * t.claim) vals [] 0 0 = r from rfl]; simp [hn, hc]
  · rw [hb]; unfold putVector; rw [show build (8 * t.claim) vals [] 0 0 = r from rfl]
    have : (r.2.2.isSome && !clip) = false := by rcases hn with h | h <;> simp [h]
    simp [this, Thread.fpTraps, hf]
  · apply givesV_of_next
    rw [he, runWord_runs i body h hr hl, hb]; unfold putVector; rw [show build (8 * t.claim) vals [] 0 0 = r from rfl]
    have hn' : r.2.2 = none := by simpa [hc] using hn
    have hm : m = vecTime (s.put t) t (computed vals none) := by simp only [m, hn']; rfl
    simp [hn', Thread.fpTraps, hf, hc, hput, State.completedV, hm]; rfl
  · rw [he, runWord_runs i body h hr hl, hb]; unfold putVector; rw [show build (8 * t.claim) vals [] 0 0 = r from rfl]
    simp [hc, Thread.fpTraps, hf, hput]; rfl
  · refine kept_put (fun r hr => ?_) (fun r hr => ?_) ?_ ?_
    · simp only [List.mem_singleton] at hr
      exact (Thread.rd_of_g (t := done.wr (regOf vd) (BitVec.ofNat 64 v.len)) rfl r).trans ((by rw [Thread.rd_wr, if_neg (fun h => hr h.1)]; rfl))
    · simp only [List.mem_singleton] at hr
      refine (Thread.vr_of_v (t := t.vw vd v) ?_ r).trans (by rw [Thread.vr_vw, if_neg hr])
      simp [Thread.complete, done]
    · simp [Thread.complete]
    · have h1 := Thread.wr_same done (regOf vd) (BitVec.ofNat 64 v.len)
      unfold Thread.SameSpecial at *
      simp [done, Thread.complete, Thread.vw, Thread.orFlags]
/-- A register of the right class raises no format fault. -/
theorem fmtFault_none {v : VecReg} {p : Nat → Bool} (h : v.fmt.toNat ≠ 0) (hp : p v.fmt.toNat = true) : fmtFault v p = none := by
  simp [fmtFault, h, hp]
/-- Registers of one length raise no length fault. -/
theorem lenFault_none {a v : VecReg} (h : v.len = a.len) : lenFault a v = none := by simp [lenFault, h]
/-- An element-wise operation on fitting registers is its pieces, piece by piece (R208, R209). -/
theorem elementWise_ok {s : State} {t : Thread} {clip m : Bool} {vd : VReg} {va : VecReg} {ok : Nat → Bool} {others : List VecReg} {res : Nat → Nat}
    {op : Nat → List Word → Nat × Nat} (ha : va.fmt.toNat ≠ 0) (hok : ok va.fmt.toNat = true)
    (ho : ∀ v ∈ others, v.fmt = va.fmt ∧ v.len = va.len)
    (hm : m = true → (t.vr 0).fmt.toNat = 22 ∧ (t.vr 0).len = va.len ∧ (t.vr vd).fmt.toNat ≠ 0 ∧ (t.vr vd).fmt.toNat = res va.fmt.toNat ∧ (t.vr vd).len = va.len) :
    elementWise s t clip m vd va ok others res op =
      (let ps := piecesOf ((if m then [(t.vr 0).runs, (t.vr vd).runs] else []) ++ va.runs :: others.map VecReg.runs)
       putVector s t clip vd (res va.fmt.toNat)
        (ps.map (fun p => (BitVec.ofNat 64 (maskedOp m (op va.fmt.toNat) p.1).1, p.2, (maskedOp m (op va.fmt.toNat) p.1).2)))) := by
  unfold elementWise
  have h1 : others.map (fun v => fmtFault v (· == va.fmt.toNat)) = others.map (fun _ => none) := by
    apply List.map_congr_left; intro v hv; exact fmtFault_none ((ho v hv).1 ▸ ha) (by simp [(ho v hv).1])
  have h2 : others.map (lenFault va) = others.map (fun _ => none) := by
    apply List.map_congr_left; intro v hv; exact lenFault_none (ho v hv).2
  have h3 : firstFault ([fmtFault va ok] ++ others.map (fun v => fmtFault v (· == va.fmt.toNat))
    ++ (if m then [fmtFault (t.vr 0) isBoolC, fmtFault (t.vr vd) (· == res va.fmt.toNat)] else [])
    ++ others.map (lenFault va) ++ (if m then [lenFault va (t.vr 0), lenFault va (t.vr vd)] else [])) = none := by
    rw [h1, h2, fmtFault_none ha hok]
    unfold firstFault
    cases m with
    | false => simp
    | true =>
      obtain ⟨a1, a2, a3, a4, a5⟩ := hm rfl
      rw [if_pos rfl, if_pos rfl, fmtFault_none (by omega) (by rw [a1]; rfl), fmtFault_none a3 (by simp [a4]), lenFault_none a2, lenFault_none a5]
      simp
  simp only [h3]
  have h4 : ∀ (p : List Word × Nat), (if m then
        if p.1.headD 0 = 1 then let r := op va.fmt.toNat (p.1.drop 2); (BitVec.ofNat 64 r.1, p.2, r.2) else ((p.1.drop 1).headD 0, p.2, 0)
      else let r := op va.fmt.toNat p.1; (BitVec.ofNat 64 r.1, p.2, r.2))
      = (BitVec.ofNat 64 (maskedOp m (op va.fmt.toNat) p.1).1, p.2, (maskedOp m (op va.fmt.toNat) p.1).2) := by
    intro p; unfold maskedOp
    cases m
    · simp
    · simp only [if_true]; split <;> simp
  simp only [h4]
/-- Two registers of one run each make one piece. -/
theorem pieces_two (x y : Word) (n : Nat) (h : n ≤ 65535) : piecesOf [[⟨x, n⟩], [⟨y, n⟩]] = [([x, y], n)] := by
  simp [piecesOf, pieces, advance, h]
/-- One register of one run makes one piece. -/
theorem pieces_one (x : Word) (n : Nat) (h : n ≤ 65535) : piecesOf [[⟨x, n⟩]] = [([x], n)] := by
  simp [piecesOf, pieces, advance, h]
/-- The outcome of one piece that raises no flag. -/
theorem out_one {s : State} {t : Thread} {c : Ctl} {i : Instr} {vd : VReg} {fmt : Nat} {ss : List (List Run)} {op : List Word → Nat × Nat}
    (h : elementOutcome s t c i false vd fmt ss op) (hc : t.claim ≠ 0) {xs : List Word} {n : Nat} (hp : piecesOf ss = [(xs, n)]) (ho : (op xs).2 = 0) :
    GivesV s t c i vd ⟨BitVec.ofNat 5 fmt, [⟨BitVec.ofNat 64 (op xs).1, n⟩]⟩ 0 (s.cycle + 8 + (1 + t.claim - 1) / t.claim) := by
  have h2 := h.2
  have hb : build (8 * t.claim) ([(xs, n)].map (fun p => (BitVec.ofNat 64 (op p.1).1, p.2, (op p.1).2))) [] 0 0 = ([⟨BitVec.ofNat 64 (op xs).1, n⟩], 0, none) := by
    simp [build, append, hc, ho]
  rw [hp] at h2
  simp only [hb] at h2
  exact ((h2 (.inl trivial)).2 (by simp)).1 trivial

end Sys2Proof.Machine
end

