-- ==== Sys2Proof/Tests/Slice0.lean ====
section
/-! SUPPORT. Tests: ill-formed terms, words written out from the encodings of spec/opcode_table.json, worked examples of the spec, one step of each family, and a witness for the hypotheses of each statement. -/
set_option Elab.async false
open Sys2Proof Sys2Proof.Machine
namespace Sys2Proof.Tests

def c0 : Ctl := ⟨false, false, 0#3⟩

/-- An ill-formed term for each check of WellFormed (R21, R39, R42, R43, R189): none is well formed. -/
theorem test_ill_formed : ([.sel ⟨true, false, 0⟩ 5 6 7, .gaddr c0 63 4 0, .gaddr c0 5 63 0, .fcmpD c0 7 5 6 7, .fcmpS c0 7 5 6 7, .fcvt c0 0 7 1 5 6, .vrco c0 false 1 2 3,
    .vcvt c0 1 2 0x19 1 false, .vcvt c0 1 2 1 7 false, .vld c0 1 4 5 0x1F, .vst c0 1 4 5 0x19, .vqnt c0 1 2 0x19 1 false 3, .vqnt c0 1 2 1 7 false 3, .ldq c0 5 6 0, .stq c0 7 6 0,
    .lds c0 3 5 6 0, .lds c0 2 5 6 0, .ldsC c0 3 5 6 0, .ldsC c0 2 5 6 0, .sts c0 3 5 6 0, .sts c0 2 5 6 0, .fenceAcq c0 5, .fenceRel c0 6, .fenceFull c0 7] : List Instr).all (fun i => !i.wf) = true
    ∧ ([.cpy c0 5 61 false, .cpy c0 5 60 true, .cpy2 c0 5 59 false, .gath c0 5 6 4, .gath c0 5 60 5, .scat c0 5 60, .cpyx c0 5 6 7, .cpyx c0 5 60 5, .mma c0 61, .mred c0 61, .mdrain c0 63, .mdrainScaled c0 61,
      .mfill c0 62, .coll c0 5 60, .xtab c0 5 62, .xstart c0 5 59, .br ⟨false, true, 0⟩ 0, .brl ⟨false, true, 0⟩ 0, .jr ⟨false, true, 0⟩ 1, .jrl ⟨false, true, 0⟩ 1, .tend ⟨false, true, 0⟩,
      .spawn c0 5 6 2, .spawn c0 5 6 12, .spawn c0 5 60 5, .meet c0 5 63, .meetq c0 5 62, .glaunch c0 5 62, .trap ⟨false, true, 0⟩ 1, .rft ⟨false, true, 0⟩, .rmode 0, .rmode 7] : List Instr).all (fun i => !i.wf) = true := by decide +kernel

/-! ### Words written out from the encodings (R18, R20, R42): every constructor that has a word -/

theorem test_decode_integer :
    decode 0x04028C38#32 = .ok (.add c0 5#6 6#6 7#6)
    ∧ decode 0x04A28C39#32 = .ok (.sub ⟨false, false, 5#3⟩ 5#6 6#6 7#6)
    ∧ decode 0x06028C3A#32 = .ok (.and ⟨true, false, 0#3⟩ 5#6 6#6 7#6)
    ∧ decode 0x04028C3B#32 = .ok (.or c0 5#6 6#6 7#6)
    ∧ decode 0x04028C3C#32 = .ok (.xor c0 5#6 6#6 7#6)
    ∧ decode 0x04028C3D#32 = .ok (.shl c0 5#6 6#6 7#6)
    ∧ decode 0x04A28C3E#32 = .ok (.shr ⟨false, false, 5#3⟩ 5#6 6#6 7#6)
    ∧ decode 0x04028C3F#32 = .ok (.sra c0 5#6 6#6 7#6)
    ∧ decode 0x08028C38#32 = .ok (.mul c0 5#6 6#6 7#6)
    ∧ decode 0x0A028C39#32 = .ok (.mulh ⟨true, false, 0#3⟩ 5#6 6#6 7#6)
    ∧ decode 0x08028C3A#32 = .ok (.mulhu c0 5#6 6#6 7#6)
    ∧ decode 0x08A28C3B#32 = .ok (.div ⟨false, false, 5#3⟩ 5#6 6#6 7#6)
    ∧ decode 0x08028C3C#32 = .ok (.divu c0 5#6 6#6 7#6) := by decide +kernel
theorem test_decode_compare_bit_immediate :
    decode 0x08028C3D#32 = .ok (.rem c0 5#6 6#6 7#6)
    ∧ decode 0x08028C3E#32 = .ok (.remu c0 5#6 6#6 7#6)
    ∧ decode 0x0C028C38#32 = .ok (.min_ c0 5#6 6#6 7#6)
    ∧ decode 0x0EA28C39#32 = .ok (.max_ ⟨true, false, 5#3⟩ 5#6 6#6 7#6)
    ∧ decode 0x0C028C3A#32 = .ok (.minu c0 5#6 6#6 7#6)
    ∧ decode 0x0C028C3B#32 = .ok (.maxu c0 5#6 6#6 7#6)
    ∧ decode 0x0C028C3C#32 = .ok (.rol c0 5#6 6#6 7#6)
    ∧ decode 0x0C028C3D#32 = .ok (.ror c0 5#6 6#6 7#6)
    ∧ decode 0x0CA28C06#32 = .ok (.clz ⟨false, false, 5#3⟩ 5#6 6#6)
    ∧ decode 0x0C028C07#32 = .ok (.popc c0 5#6 6#6)
    ∧ decode 0x12028C3D#32 = .ok (.cmp ⟨true, false, 0#3⟩ 5#3 5#6 6#6 7#6)
    ∧ decode 0x14028C38#32 = .ok (.bset c0 5#6 6#6 7#6)
    ∧ decode 0x14028C39#32 = .ok (.bclr c0 5#6 6#6 7#6) := by decide +kernel
theorem test_decode_immediate_gaddr_float :
    decode 0x14A28C3A#32 = .ok (.binv ⟨false, false, 5#3⟩ 5#6 6#6 7#6)
    ∧ decode 0x14028C3B#32 = .ok (.bext c0 5#6 6#6 7#6)
    ∧ decode 0x14028C3C#32 = .ok (.sel c0 5#6 6#6 7#6)
    ∧ decode 0x14028C3D#32 = .ok (.crnd c0 5#6 6#6 7#6)
    ∧ decode 0x1A028DF3#32 = .ok (.addi ⟨true, false, 0#3⟩ 5#6 6#6 499#9)
    ∧ decode 0x1CA28DF3#32 = .ok (.andi ⟨false, false, 5#3⟩ 5#6 6#6 499#9)
    ∧ decode 0x20028DF3#32 = .ok (.ori c0 5#6 6#6 499#9)
    ∧ decode 0x24028DF3#32 = .ok (.xori c0 5#6 6#6 499#9)
    ∧ decode 0x28028DF3#32 = .ok (.shli c0 5#6 6#6 499#9)
    ∧ decode 0x2C028DF3#32 = .ok (.shri c0 5#6 6#6 499#9)
    ∧ decode 0x30A28DF3#32 = .ok (.srai ⟨false, false, 5#3⟩ 5#6 6#6 499#9)
    ∧ decode 0x36029234#32 = .ok (.movi ⟨true, false, 0#3⟩ 5#6 4660#15)
    ∧ decode 0x38029234#32 = .ok (.movs c0 5#6 4660#15) := by decide +kernel
theorem test_decode_float_vector :
    decode 0x3C028C15#32 = .ok (.gaddr c0 5#6 6#6 5#3)
    ∧ decode 0x40028C3A#32 = .ok (.fadd c0 2#2 5#6 6#6 7#6)
    ∧ decode 0x44A28C3A#32 = .ok (.fsub ⟨false, false, 5#3⟩ 2#2 5#6 6#6 7#6)
    ∧ decode 0x48028C3A#32 = .ok (.fmul c0 2#2 5#6 6#6 7#6)
    ∧ decode 0x4C028C3A#32 = .ok (.fdiv c0 2#2 5#6 6#6 7#6)
    ∧ decode 0x52028C3A#32 = .ok (.fma ⟨true, false, 0#3⟩ 2#2 5#6 6#6 7#6)
    ∧ decode 0x54028C3A#32 = .ok (.fmin c0 2#2 5#6 6#6 7#6)
    ∧ decode 0x58A28C3A#32 = .ok (.fmax ⟨false, false, 5#3⟩ 2#2 5#6 6#6 7#6)
    ∧ decode 0x5C028C02#32 = .ok (.fsqrt c0 2#2 5#6 6#6)
    ∧ decode 0x60028C3D#32 = .ok (.fcmpD c0 5#3 5#6 6#6 7#6)
    ∧ decode 0x64028C3D#32 = .ok (.fcmpS c0 5#3 5#6 6#6 7#6)
    ∧ decode 0x68028C5E#32 = .ok (.fcvt c0 1#3 3#3 6#3 5#6 6#6)
    ∧ decode 0x6EA28C02#32 = .ok (.fclass ⟨true, false, 5#3⟩ 2#2 5#6 6#6) := by decide +kernel
theorem test_decode_vector_arith :
    decode 0x800ACE05#32 = .ok (.vadd c0 ⟨true, false, true⟩ 5#4 6#4 7#4)
    ∧ decode 0x800ACE0D#32 = .ok (.vsub c0 ⟨true, false, true⟩ 5#4 6#4 7#4)
    ∧ decode 0x800ACE15#32 = .ok (.vmul c0 ⟨true, false, true⟩ 5#4 6#4 7#4)
    ∧ decode 0x800ACE1D#32 = .ok (.vfma c0 ⟨true, false, true⟩ 5#4 6#4 7#4)
    ∧ decode 0x80AACE25#32 = .ok (.vdiv ⟨false, false, 5#3⟩ ⟨true, false, true⟩ 5#4 6#4 7#4)
    ∧ decode 0x800AC029#32 = .ok (.vsqrt c0 true false 5#4 6#4)
    ∧ decode 0x820ACE35#32 = .ok (.vmin ⟨true, false, 0#3⟩ ⟨true, false, true⟩ 5#4 6#4 7#4)
    ∧ decode 0x800ACE3D#32 = .ok (.vmax c0 ⟨true, false, true⟩ 5#4 6#4 7#4)
    ∧ decode 0x800AC041#32 = .ok (.vabs c0 true false 5#4 6#4)
    ∧ decode 0x80AAC049#32 = .ok (.vneg ⟨false, false, 5#3⟩ true false 5#4 6#4)
    ∧ decode 0x800ACE55#32 = .ok (.vand c0 ⟨true, false, true⟩ 5#4 6#4 7#4)
    ∧ decode 0x800ACE5D#32 = .ok (.vor c0 ⟨true, false, true⟩ 5#4 6#4 7#4)
    ∧ decode 0x800ACE65#32 = .ok (.vxor c0 ⟨true, false, true⟩ 5#4 6#4 7#4) := by decide +kernel
theorem test_decode_vector_compare :
    decode 0x820ACE6D#32 = .ok (.vshl ⟨true, false, 0#3⟩ ⟨true, false, true⟩ 5#4 6#4 7#4)
    ∧ decode 0x80AACE75#32 = .ok (.vshr ⟨false, false, 5#3⟩ ⟨true, false, true⟩ 5#4 6#4 7#4)
    ∧ decode 0x800ACE7D#32 = .ok (.vsra c0 ⟨true, false, true⟩ 5#4 6#4 7#4)
    ∧ decode 0x800ACE85#32 = .ok (.vcmpeq c0 ⟨true, false, true⟩ 5#4 6#4 7#4)
    ∧ decode 0x800ACE8D#32 = .ok (.vcmpne c0 ⟨true, false, true⟩ 5#4 6#4 7#4)
    ∧ decode 0x800ACE95#32 = .ok (.vcmplt c0 ⟨true, false, true⟩ 5#4 6#4 7#4)
    ∧ decode 0x80AACE9D#32 = .ok (.vcmple ⟨false, false, 5#3⟩ ⟨true, false, true⟩ 5#4 6#4 7#4)
    ∧ decode 0x820ACEA1#32 = .ok (.vsel ⟨true, false, 0#3⟩ true 5#4 6#4 7#4)
    ∧ decode 0x800AC0A9#32 = .ok (.vmov c0 true false 5#4 6#4)
    ∧ decode 0x840ACE04#32 = .ok (.vrco c0 true 5#4 6#4 7#4)
    ∧ decode 0x840AC008#32 = .ok (.vruns c0 5#4 6#4)
    ∧ decode 0x84AAC010#32 = .ok (.vlen ⟨false, false, 5#3⟩ 5#4 6#4)
    ∧ decode 0x840ACE1D#32 = .ok (.vsetlen c0 true 5#4 6#4 7#4) := by decide +kernel
theorem test_decode_vector_runs :
    decode 0x840ACE24#32 = .ok (.vsplat c0 5#4 6#4 7#4)
    ∧ decode 0x860AC02A#32 = .ok (.vrsum ⟨true, false, 0#3⟩ true 5#4 6#4)
    ∧ decode 0x840AC032#32 = .ok (.vrsumsq c0 true 5#4 6#4)
    ∧ decode 0x84AAC03A#32 = .ok (.vrmax ⟨false, false, 5#3⟩ true 5#4 6#4)
    ∧ decode 0x840AC042#32 = .ok (.vrmin c0 true 5#4 6#4)
    ∧ decode 0x840AC04A#32 = .ok (.vrcnt c0 true 5#4 6#4)
    ∧ decode 0x840AC052#32 = .ok (.vamax c0 true 5#4 6#4)
    ∧ decode 0x840ACE5C#32 = .ok (.velem c0 5#4 6#4 7#4)
    ∧ decode 0x86AACE61#32 = .ok (.vcat ⟨true, false, 5#3⟩ true 5#4 6#4 7#4)
    ∧ decode 0x880AC970#32 = .ok (.vcvt c0 5#4 6#4 9#5 3#3 true)
    ∧ decode 0x8C0A5169#32 = .ok (.vld c0 5#4 10#6 11#6 9#5)
    ∧ decode 0x900A5169#32 = .ok (.vst c0 5#4 10#6 11#6 9#5)
    ∧ decode 0x94028C00#32 = .ok (.vclaim c0 5#6 6#6) := by decide +kernel
theorem test_decode_vector_memory_lanes :
    decode 0x94A00001#32 = .ok (.vrels ⟨false, false, 5#3⟩)
    ∧ decode 0x94028C02#32 = .ok (.vqry c0 5#6 6#6)
    ∧ decode 0x9A0AC979#32 = .ok (.vqnt ⟨true, false, 0#3⟩ 5#4 6#4 9#5 3#3 true 9#4)
    ∧ decode 0xA0029418#32 = .ok (.ldb c0 5#6 10#6 3#6)
    ∧ decode 0xA0029419#32 = .ok (.ldbu c0 5#6 10#6 3#6)
    ∧ decode 0xA0A2941A#32 = .ok (.ldh ⟨false, false, 5#3⟩ 5#6 10#6 3#6)
    ∧ decode 0xA002941B#32 = .ok (.ldhu c0 5#6 10#6 3#6)
    ∧ decode 0xA002941C#32 = .ok (.ldw c0 5#6 10#6 3#6)
    ∧ decode 0xA002941D#32 = .ok (.ldwu c0 5#6 10#6 3#6)
    ∧ decode 0xA202941E#32 = .ok (.ldd ⟨true, false, 0#3⟩ 5#6 10#6 3#6)
    ∧ decode 0xA0A2141F#32 = .ok (.ldq ⟨false, false, 5#3⟩ 4#6 10#6 3#6)
    ∧ decode 0xA4029418#32 = .ok (.stb c0 5#6 10#6 3#6)
    ∧ decode 0xA4029419#32 = .ok (.sth c0 5#6 10#6 3#6) := by decide +kernel
theorem test_decode_loads_stores :
    decode 0xA402941A#32 = .ok (.stw c0 5#6 10#6 3#6)
    ∧ decode 0xA402941B#32 = .ok (.std c0 5#6 10#6 3#6)
    ∧ decode 0xA4A2141C#32 = .ok (.stq ⟨false, false, 5#3⟩ 4#6 10#6 3#6)
    ∧ decode 0xAA029419#32 = .ok (.lds ⟨true, false, 0#3⟩ 1#2 5#6 10#6 3#6)
    ∧ decode 0xA802941D#32 = .ok (.ldsC c0 1#2 5#6 10#6 3#6)
    ∧ decode 0xAC029419#32 = .ok (.sts c0 1#2 5#6 10#6 3#6)
    ∧ decode 0xB4028C38#32 = .ok (.aadd c0 true 5#6 6#6 7#6)
    ∧ decode 0xB4A28C39#32 = .ok (.amin ⟨false, false, 5#3⟩ true 5#6 6#6 7#6)
    ∧ decode 0xB4028C3A#32 = .ok (.amax c0 true 5#6 6#6 7#6)
    ∧ decode 0xB4028C3B#32 = .ok (.aand c0 true 5#6 6#6 7#6)
    ∧ decode 0xB6028C3C#32 = .ok (.aor ⟨true, false, 0#3⟩ true 5#6 6#6 7#6)
    ∧ decode 0xB4028C3D#32 = .ok (.axor c0 true 5#6 6#6 7#6)
    ∧ decode 0xB4A28C3E#32 = .ok (.aswp ⟨false, false, 5#3⟩ true 5#6 6#6 7#6) := by decide +kernel
theorem test_decode_atomics_sync :
    decode 0xB4028C3F#32 = .ok (.acas c0 true 5#6 6#6 7#6)
    ∧ decode 0xB8028C00#32 = .ok (.lkp c0 5#6 6#6)
    ∧ decode 0xB8028C39#32 = .ok (.dset c0 5#6 6#6 7#6)
    ∧ decode 0xB8000C02#32 = .ok (.dclr c0 6#6)
    ∧ decode 0xBAA28C3B#32 = .ok (.dinv ⟨true, false, 5#3⟩ 5#6 6#6 7#6)
    ∧ decode 0xBC000C00#32 = .ok (.feset c0 6#6)
    ∧ decode 0xBC000C01#32 = .ok (.feclr c0 6#6)
    ∧ decode 0xBC028C02#32 = .ok (.fetest c0 5#6 6#6)
    ∧ decode 0xBC000C03#32 = .ok (.waitf c0 6#6)
    ∧ decode 0xBCA00C0B#32 = .ok (.waitfE ⟨false, false, 5#3⟩ 6#6)
    ∧ decode 0xC00000C0#32 = .ok (.fenceAcq c0 3#3)
    ∧ decode 0xC20000C1#32 = .ok (.fenceRel ⟨true, false, 0#3⟩ 3#3)
    ∧ decode 0xC00000C2#32 = .ok (.fenceFull c0 3#3) := by decide +kernel
theorem test_decode_directory_bits :
    decode 0xC0000003#32 = .ok (.fenceEngine c0)
    ∧ decode 0xC4A28C38#32 = .ok (.ctalloc ⟨false, false, 5#3⟩ 5#6 6#6 7#6)
    ∧ decode 0xC4028C01#32 = .ok (.ctset c0 5#6 6#6)
    ∧ decode 0xC4000C3A#32 = .ok (.ctcommit c0 6#6 7#6)
    ∧ decode 0xC4000C3B#32 = .ok (.ctdrop c0 6#6 7#6)
    ∧ decode 0xC6028C04#32 = .ok (.ctstat ⟨true, false, 0#3⟩ 5#6 6#6)
    ∧ decode 0xC4A28C3D#32 = .ok (.ldx ⟨false, false, 5#3⟩ 5#6 6#6 7#6)
    ∧ decode 0xC8028C28#32 = .ok (.cpy c0 5#6 6#6 true)
    ∧ decode 0xC8028C39#32 = .ok (.cpy2 c0 5#6 6#6 true)
    ∧ decode 0xC8028C2A#32 = .ok (.gath c0 5#6 6#6 5#6)
    ∧ decode 0xC8028C2B#32 = .ok (.scat c0 5#6 6#6)
    ∧ decode 0xC8A28C2C#32 = .ok (.cpyx ⟨false, false, 5#3⟩ 5#6 6#6 5#6)
    ∧ decode 0xCA028005#32 = .ok (.cstat ⟨true, false, 0#3⟩ 5#6) := by decide +kernel
theorem test_decode_fences_canopy :
    decode 0xC8028C0D#32 = .ok (.cstatHandle c0 5#6 6#6)
    ∧ decode 0xCC028C08#32 = .ok (.oclaim c0 5#6 6#6)
    ∧ decode 0xCC000C09#32 = .ok (.orels c0 6#6)
    ∧ decode 0xCCA28002#32 = .ok (.mcap ⟨false, false, 5#3⟩ 5#6)
    ∧ decode 0xCC000C23#32 = .ok (.mma c0 6#6)
    ∧ decode 0xCC000C24#32 = .ok (.mred c0 6#6)
    ∧ decode 0xCE000C15#32 = .ok (.mdrain ⟨true, false, 0#3⟩ 6#6)
    ∧ decode 0xCC000C25#32 = .ok (.mdrainScaled c0 6#6)
    ∧ decode 0xCCA00C0E#32 = .ok (.cbload ⟨false, false, 5#3⟩ 6#6)
    ∧ decode 0xCC000C1F#32 = .ok (.mfill c0 6#6)
    ∧ decode 0xD0028C28#32 = .ok (.coll c0 5#6 6#6)
    ∧ decode 0xD0000001#32 = .ok (.rsync c0)
    ∧ decode 0xD0028C0A#32 = .ok (.rstat c0 5#6 6#6) := by decide +kernel
theorem test_decode_copy_matrix :
    decode 0xD6A28C18#32 = .ok (.xtab ⟨true, false, 5#3⟩ 5#6 6#6)
    ∧ decode 0xD4028C31#32 = .ok (.xstart c0 5#6 6#6)
    ∧ decode 0xD4028C0A#32 = .ok (.xstat c0 5#6 6#6)
    ∧ decode 0xD81FFFF0#32 = .ok (.br c0 2097136#21)
    ∧ decode 0xDC1FFFF0#32 = .ok (.brl c0 2097136#21)
    ∧ decode 0xE0A00C00#32 = .ok (.jr ⟨false, false, 5#3⟩ 6#6)
    ∧ decode 0xE0000C01#32 = .ok (.jrl c0 6#6)
    ∧ decode 0xE2000002#32 = .ok (.tend ⟨true, false, 0#3⟩)
    ∧ decode 0xE4028C30#32 = .ok (.spawn c0 5#6 6#6 6#6)
    ∧ decode 0xE4028C11#32 = .ok (.meet c0 5#6 6#6)
    ∧ decode 0xE4A28C1A#32 = .ok (.meetq ⟨false, false, 5#3⟩ 5#6 6#6)
    ∧ decode 0xE4028C1B#32 = .ok (.glaunch c0 5#6 6#6)
    ∧ decode 0xE4000004#32 = .ok (.yield c0) := by decide +kernel
theorem test_decode_matrix_remote :
    decode 0xE4000C0C#32 = .ok (.yieldFor c0 6#6)
    ∧ decode 0xE6000005#32 = .ok (.hbeat ⟨true, false, 0#3⟩)
    ∧ decode 0xE8A00038#32 = .ok (.trap ⟨false, false, 5#3⟩ 7#6)
    ∧ decode 0xE8000001#32 = .ok (.rft c0)
    ∧ decode 0xE8028C3A#32 = .ok (.csrr c0 5#6 391#12)
    ∧ decode 0xE8028C3B#32 = .ok (.csrw c0 5#6 391#12)
    ∧ decode 0xFC000000#32 = .ok .noph
    ∧ decode 0xFC42A5A5#32 = .ok (.imm 173477#22)
    ∧ decode 0xFC897E00#32 = .ok (.guard 9#6 31#6 true)
    ∧ decode 0xFCD5A5A5#32 = .ok (.live 0x15A5A5#22)
    ∧ decode 0xFD000003#32 = .ok (.rmode 3#3)
    ∧ decode 0xFD40005A#32 = .ok (.stallx 90#8) := by decide +kernel

/-! ### Small states -/

/-- A thread with registers set: its word lies at 0x100, its handler at 0x8000. -/
def task (l : List (Nat × Word)) : Thread := l.foldl (fun t p => t.wrN p.1 p.2) { Thread.reset with pc := 0x100, tvec := 0x8000 }
/-- A module in which only that thread stands, in slot 0 of core 0, and nothing is due. -/
def one (t : Thread) : State := { State.reset with cores := [(0, { Core.reset with threads := [(0, t)] })], agenda := [], refresh := none }
/-- The state after a step. -/
def st (o : Host.Outcome State Fault Refusal) : State := match o with | .next s => s | _ => State.reset
/-- The thread after it, and one of its registers. -/
def th (o : Host.Outcome State Fault Refusal) : Thread := ((st o).thread 0 0).getD Thread.reset
def reg (o : Host.Outcome State Fault Refusal) (r : Nat) : Word := (th o).rdN r
/-- The cause and the value of the trap taken. -/
def trapped (o : Host.Outcome State Fault Refusal) : Nat × Word := (bits (th o).tcause 0 12, (th o).tval)
/-- Bytes of core 0's store. -/
def mem (o : Host.Outcome State Fault Refusal) (a n : Nat) : List Nat := (readBytes (st o).mem (localKey 0 a) n).map BitVec.toNat
def put (s : State) (a : Nat) (l : List Byte) : State := { s with mem := writeBytes s.mem (localKey 0 a) l }
/-- A local address. -/
def loc (a : Nat) : Word := BitVec.ofNat 64 (2 ^ 63 + a)

/-! ### Scalar words (R181 to R186, R33, R177) -/

theorem test_add_wraps : reg (exec (.add c0 5 6 7) (one (task [(6, 0xFFFFFFFFFFFFFFFF), (7, 2)]))) 5 = 1 := by decide +kernel
theorem test_add_to_g0 : reg (exec (.add c0 0 6 7) (one (task [(6, 1), (7, 2)]))) 0 = 0 := by decide +kernel
theorem test_sub_source_is_destination : reg (exec (.sub c0 6 6 7) (one (task [(6, 3), (7, 5)]))) 6 = 0xFFFFFFFFFFFFFFFE := by decide +kernel
theorem test_shift_ignores_high_bits : reg (exec (.sra c0 5 6 7) (one (task [(6, 0x8000000000000000), (7, 0x44)]))) 5 = 0xF800000000000000 := by decide +kernel
theorem test_mulh_signed : reg (exec (.mulh c0 5 6 7) (one (task [(6, 0x8000000000000000), (7, 2)]))) 5 = 0xFFFFFFFFFFFFFFFF
    ∧ reg (exec (.mulhu c0 5 6 7) (one (task [(6, 0x8000000000000000), (7, 2)]))) 5 = 1 := by decide +kernel
/-- R182: the two cases without an ordinary quotient. -/
theorem test_division_corners : let w3 : Ctl := ⟨false, false, 3⟩
    reg (exec (.div w3 5 6 7) (one (task [(6, 9)]))) 5 = 0xFFFFFFFFFFFFFFFF ∧ reg (exec (.rem w3 5 6 7) (one (task [(6, 9)]))) 5 = 9
    ∧ reg (exec (.div w3 5 6 7) (one (task [(6, 0x8000000000000000), (7, 0xFFFFFFFFFFFFFFFF)]))) 5 = 0x8000000000000000
    ∧ reg (exec (.rem w3 5 6 7) (one (task [(6, 0x8000000000000000), (7, 0xFFFFFFFFFFFFFFFF)]))) 5 = 0
    ∧ reg (exec (.div w3 5 6 7) (one (task [(6, 0xFFFFFFFFFFFFFFF9), (7, 2)]))) 5 = 0xFFFFFFFFFFFFFFFD := by decide +kernel
/-- R25: an undersized DIV leaves its result pending. -/
theorem test_undersized_division : reg (exec (.div c0 5 6 7) (one (task [(5, 1), (6, 9), (7, 3)]))) 5 = 1
    ∧ ((th (exec (.div c0 5 6 7) (one (task [(5, 1), (6, 9), (7, 3)])))).pend.map (fun p => (p.reg.toNat, p.value.toNat, p.land))) = [(5, 3, 32)] := by decide +kernel
theorem test_min_signed : reg (exec (.min_ c0 5 6 7) (one (task [(6, 0xFFFFFFFFFFFFFFFF), (7, 1)]))) 5 = 0xFFFFFFFFFFFFFFFF
    ∧ reg (exec (.minu c0 5 6 7) (one (task [(6, 0xFFFFFFFFFFFFFFFF), (7, 1)]))) 5 = 1 := by decide +kernel
theorem test_clz_popc : reg (exec (.clz c0 5 6) (one (task []))) 5 = 64 ∧ reg (exec (.clz c0 5 6) (one (task [(6, 0x10)]))) 5 = 59 ∧ reg (exec (.popc c0 5 6) (one (task [(6, 0xF0F)]))) 5 = 8 := by decide +kernel
theorem test_rotate : reg (exec (.rol c0 5 6 7) (one (task [(6, 0x8000000000000001), (7, 1)]))) 5 = 3 ∧ reg (exec (.ror c0 5 6 7) (one (task [(6, 3), (7, 1)]))) 5 = 0x8000000000000001 := by decide +kernel
theorem test_compare_signed : reg (exec (.cmp c0 2 5 6 7) (one (task [(6, 0xFFFFFFFFFFFFFFFF), (7, 1)]))) 5 = 1 ∧ reg (exec (.cmp c0 4 5 6 7) (one (task [(6, 0xFFFFFFFFFFFFFFFF), (7, 1)]))) 5 = 0 := by decide +kernel
theorem test_bit_words : reg (exec (.bset c0 5 6 7) (one (task [(7, 63)]))) 5 = 0x8000000000000000 ∧ reg (exec (.bext c0 5 6 7) (one (task [(6, 8), (7, 67)]))) 5 = 1 := by decide +kernel
/-- R177 by hand: Mix(0, 0) after its first round is RC[0]. -/
theorem test_mix_round : mixRound 0 0 0x5A17C3E90D42B6F1 = 0x5A17C3E90D42B6F1 ∧ mixRound 5 1 0 = (0xB3D15E2784A9C06F ^^^ (0xB3D15E2784A9C06F >>> 29)) + 5 := by decide +kernel
/-- R186: the second pair of the worked constant. -/
theorem test_movs_with_imm : reg (exec (.movs c0 5 0x4DEF) (one { task [(5, 0x91A2B)] with pfx := BitVec.ofNat 28 (2 ^ 23 + 0xF1357) })) 5 = 0x0123456789ABCDEF := by decide +kernel
theorem test_movi : reg (exec (.movi c0 5 0x7FFF) (one (task []))) 5 = 0xFFFFFFFFFFFFFFFF := by decide +kernel
theorem test_shift_immediate_illegal : trapped (exec (.shli c0 5 6 64) (one (task [(6, 1)]))) = (1, 0x28028C40) := by decide +kernel
/-- R189: the worked coordinate (13, 45) of table 2. -/
theorem test_gaddr_worked : (match gaddrResult (task []) 10 13 45 0 2 (leBytes 4 4 ++ leBytes 4 8 ++ leBytes 2 2 ++ leBytes 2 4 ++ leBytes 4 16 ++ [4, 0, 0, 0] ++ leBytes 4 0xC514 ++ leBytes 4 0x1000 ++ leBytes 4 0) with
    | .ok t => (t.rdN 10, t.rdN 11)
    | .error _ => (0, 0)) = (0xC595, 0x1174) := by decide +kernel

/-! ### Scalar floating point (R171 to R176, R193 to R196) -/

/-- R173: 1 + 3 × 2^−11 and 2^−14 − 2^−26 from B32 to B16, in the modes RNE, RZ, RU, RD, RNA, RO. -/
theorem test_rounding_table : ([1, 2, 3, 4, 5, 6] : List (BitVec 3)).map (fun r => ((reg (exec (.fcvt c0 1 r 2 5 6) (one (task [(6, 0x3F803000)]))) 5).toNat, (reg (exec (.fcvt c0 1 r 2 5 6) (one (task [(6, 0xBF803000)]))) 5).toNat))
      = [(0x3C02, 0xBC02), (0x3C01, 0xBC01), (0x3C02, 0xBC01), (0x3C01, 0xBC02), (0x3C02, 0xBC02), (0x3C01, 0xBC01)] := by decide +kernel
theorem test_rounding_tiny : ([1, 2, 3, 4, 5, 6] : List (BitVec 3)).map (fun r => ((reg (exec (.fcvt c0 1 r 2 5 6) (one (task [(6, 0x387FF000)]))) 5).toNat, bits (th (exec (.fcvt c0 1 r 2 5 6) (one (task [(6, 0x387FF000)])))).fpcsr 3 5))
      = [(0x400, 1), (0x3FF, 3), (0x400, 1), (0x3FF, 3), (0x400, 1), (0x3FF, 3)] := by decide +kernel
theorem test_fadd : reg (exec (.fadd c0 0 5 6 7) (one (task [(6, 0x3FF0000000000000), (7, 0x4000000000000000)]))) 5 = 0x4008000000000000 := by decide +kernel
/-- R192: 0 × infinity raises NV even when the addend is a quiet NaN. -/
theorem test_fma_invalid : let o := exec (.fma c0 1 5 6 7) (one (task [(5, 0x7FC00000), (6, 0), (7, 0x7F800000)]))
    reg o 5 = 0x7FC00000 ∧ bits (th o).fpcsr 3 5 = 16 := by decide +kernel
/-- R175: a finite number by zero is an infinity with DZ. -/
theorem test_fdiv_by_zero : let o := exec (.fdiv ⟨false, false, 2⟩ 1 5 6 7) (one (task [(6, 0xBF800000), (7, 0)]))
    reg o 5 = 0xFF800000 ∧ bits (th o).fpcsr 3 5 = 8 := by decide +kernel
theorem test_fsqrt_minus_zero : reg (exec (.fsqrt ⟨false, false, 2⟩ 0 5 6) (one (task [(6, 0x8000000000000000)]))) 5 = 0x8000000000000000 := by decide +kernel
/-- R193: −0 below +0; a number against a quiet NaN. -/
theorem test_fmin : reg (exec (.fmin c0 1 5 6 7) (one (task [(6, 0), (7, 0x80000000)]))) 5 = 0x80000000 ∧ reg (exec (.fmax c0 1 5 6 7) (one (task [(6, 0x7FC00000), (7, 0xBF800000)]))) 5 = 0xBF800000 := by decide +kernel
/-- R194: LT of a quiet NaN is false with NV, LTQ without. -/
theorem test_fcmp_unordered : reg (exec (.fcmpS c0 1 5 6 7) (one (task [(6, 0x7FC00000), (7, 0)]))) 5 = 0 ∧ bits (th (exec (.fcmpS c0 1 5 6 7) (one (task [(6, 0x7FC00000), (7, 0)])))).fpcsr 3 5 = 16
    ∧ bits (th (exec (.fcmpS c0 5 5 6 7) (one (task [(6, 0x7FC00000), (7, 0)])))).fpcsr 3 5 = 0 ∧ reg (exec (.fcmpD c0 0 5 6 7) (one (task [(6, 0x8000000000000000)]))) 5 = 1 := by decide +kernel
/-- R195: an integer destination out of range gives the bound with NV; INT32 is sign-extended. -/
theorem test_fcvt_bounds : reg (exec (.fcvt c0 0 2 6 5 6) (one (task [(6, 0xC1E0000000200000)]))) 5 = 0xFFFFFFFF80000000 ∧ bits (th (exec (.fcvt c0 0 2 7 5 6) (one (task [(6, 0xBFF0000000000000)])))).fpcsr 3 5 = 16 := by decide +kernel
theorem test_fclass : reg (exec (.fclass c0 1 5 6) (one (task [(6, 0x7F800001)]))) 5 = 0x100 ∧ reg (exec (.fclass c0 1 5 6) (one (task [(6, 0x80000001)]))) 5 = 4 := by decide +kernel
/-- R176, R353: an enabled exception writes nothing and traps with the raised flags when the result would land, 24 cycles after the issue. -/
theorem test_fp_trap : let o := exec (.fdiv ⟨false, false, 2⟩ 1 5 6 7) (one { task [(5, 9), (6, 0x3F800000)] with fpcsr := 0x0800 })
    let u := Host.Outcome.next (({ st o with cycle := 24 } : State).unpark 0 0)
    ((th o).pc, (th o).tcause) = (0x100, 0) ∧ trapped u = (0x50, 8) ∧ reg u 5 = 9 ∧ (th u).pc = 0x8000 := by decide +kernel

/-! ### Vector words (R204 to R220): "Runs at work" and single corners -/

/-- A thread with one lane and vector registers set. -/
def vt (t : Thread) (l : List (Nat × Nat × List (Nat × Nat))) : Thread :=
  l.foldl (fun t p => t.vw (BitVec.ofNat 4 p.1) ⟨BitVec.ofNat 5 p.2.1, p.2.2.map (fun r => ⟨BitVec.ofNat 64 r.1, r.2⟩)⟩) { t with claim := 1 }
/-- Runs of a vector register after a step. -/
def vreg (o : Host.Outcome State Fault Refusal) (r : Nat) : Nat × List (Nat × Nat) :=
  let v := (th o).vr (BitVec.ofNat 4 r); (v.fmt.toNat, v.runs.map (fun x => (x.value.toNat, x.count)))
def q0 : Qual := ⟨false, false, false⟩
/-- The B32 registers of the example. -/
def runsAtWork : Thread := vt (task []) [(1, 2, [(0x3F800000, 3), (0x40000000, 5)]), (2, 2, [(0x3F000000, 2), (0x40200000, 1), (0x3FC00000, 5)])]
def fives : Thread := vt (task []) [(1, 12, [(1, 1), (2, 1), (3, 1), (4, 1), (5, 1)]), (2, 12, [(6, 2), (7, 2), (8, 2), (9, 2), (10, 2)])]
theorem test_vadd_worked : vreg (exec (.vadd c0 q0 3 1 2) (one runsAtWork)) 3 = (2, [(0x3FC00000, 2), (0x40600000, 6)]) ∧ (th (exec (.vadd c0 q0 3 1 2) (one runsAtWork))).elig = 8 + 3 := by decide +kernel
theorem test_vrsum_worked : reg (exec (.vrsum c0 false 5 3) (one (vt (task []) [(3, 2, [(0x3FC00000, 2), (0x40600000, 6)])]))) 5 = 0x41C00000 := by decide +kernel
theorem test_vcat_worked : trapped (exec (.vcat c0 false 3 1 2) (one fives)) = (0x054, 11)
    ∧ vreg (exec (.vcat c0 true 3 1 2) (one fives)) 3 = (12, [(1, 1), (2, 1), (3, 1), (4, 1), (5, 1), (6, 2), (7, 2), (8, 2)]) ∧ reg (exec (.vcat c0 true 3 1 2) (one fives)) 3 = 11 := by decide +kernel
theorem test_vld_worked : let o := exec (.vld c0 1 8 9 0x12) (put (one (vt (task [(8, loc 0), (9, 12)]) [])) 0 [0x33, 0x21, 0x54, 0x76, 0xEF, 0x00])
    vreg o 1 = (0x12, [(3, 2), (1, 1), (2, 1), (4, 1), (5, 1), (6, 1), (7, 1)]) ∧ reg o 9 = 8 := by decide +kernel
theorem test_vld_six_bits : let o := exec (.vld c0 1 8 9 0x07) (put (one (vt (task [(8, loc 0), (9, 5)]) [])) 0 [0x81, 0x30, 0x10, 0x05])
    vreg o 1 = (0x07, [(1, 1), (2, 1), (3, 1), (4, 1), (5, 1)]) ∧ reg o 9 = 5 := by decide +kernel
theorem test_vst : let o := exec (.vst c0 1 8 9 0x0C) (one (vt (task [(8, loc 16), (9, 3)]) [(1, 12, [(0xFFFFFFFF, 2), (5, 4)])]))
    mem o 16 13 = [255, 255, 255, 255, 255, 255, 255, 255, 5, 0, 0, 0, 0] ∧ reg o 9 = 3 := by decide +kernel
theorem test_vmask : vreg (exec (.vadd c0 ⟨false, true, false⟩ 3 1 2) (one (vt (task []) [(0, 22, [(1, 1), (0, 1)]), (1, 13, [(0xFFFFFFFF, 2)]), (2, 13, [(2, 2)]), (3, 13, [(9, 2)])]))) 3 = (13, [(1, 1), (9, 1)]) := by decide +kernel
theorem test_vscalar_operand : vreg (exec (.vsub c0 ⟨false, false, true⟩ 3 1 6) (one (vt (task [(6, 7)]) [(1, 12, [(5, 2)])]))) 3 = (12, [(0xFFFFFFFE, 2)]) := by decide +kernel
theorem test_vfma : vreg (exec (.vfma c0 q0 3 1 2) (one (vt (task []) [(1, 2, [(0x40000000, 2)]), (2, 2, [(0x40400000, 2)]), (3, 2, [(0x3F800000, 1), (0, 1)])]))) 3 = (2, [(0x40E00000, 1), (0x40C00000, 1)]) := by decide +kernel
theorem test_vdiv_zero : let o := exec (.vdiv c0 q0 3 1 2) (one (vt (task []) [(1, 2, [(0x3F800000, 1)]), (2, 2, [(0x80000000, 1)])]))
    vreg o 3 = (2, [(0xFF800000, 1)]) ∧ bits (th o).fpcsr 3 5 = 8 := by decide +kernel
theorem test_vsra_vabs : vreg (exec (.vsra c0 q0 3 1 2) (one (vt (task []) [(1, 16, [(0x80, 2)]), (2, 16, [(9, 2)])]))) 3 = (16, [(0xC0, 2)])
    ∧ vreg (exec (.vabs c0 false false 3 1) (one (vt (task []) [(1, 16, [(0x80, 2)])]))) 3 = (16, [(0x80, 2)]) := by decide +kernel
theorem test_vcmp_signed : vreg (exec (.vcmplt c0 q0 3 1 2) (one (vt (task []) [(1, 12, [(0xFFFFFFFF, 2)]), (2, 12, [(0, 2)])]))) 3 = (22, [(1, 2)])
    ∧ vreg (exec (.vcmplt c0 q0 3 1 2) (one (vt (task []) [(1, 13, [(0xFFFFFFFF, 2)]), (2, 13, [(0, 2)])]))) 3 = (22, [(0, 2)]) := by decide +kernel
theorem test_vsel : vreg (exec (.vsel c0 false 3 1 2) (one (vt (task []) [(0, 22, [(1, 1), (0, 1)]), (1, 12, [(5, 2)]), (2, 12, [(6, 2)])]))) 3 = (12, [(5, 1), (6, 1)]) := by decide +kernel
theorem test_vsetlen_extends : vreg (exec (.vsetlen c0 false 3 1 6) (one (vt (task [(6, 5)]) [(1, 12, [(7, 2)])]))) 3 = (12, [(7, 2), (0, 3)]) ∧ trapped (exec (.vsetlen c0 false 3 1 6) (one (vt (task [(6, 65536)]) [(1, 12, [(7, 2)])]))) = (0x055, 65536) := by decide +kernel
theorem test_velem_sign : reg (exec (.velem c0 3 1 6) (one (vt (task [(6, 2)]) [(1, 16, [(7, 2), (0x80, 1)])]))) 3 = 0xFFFFFFFFFFFFFF80 ∧ trapped (exec (.velem c0 3 1 6) (one (vt (task [(6, 3)]) [(1, 16, [(7, 2), (0x80, 1)])]))) = (0x055, 3) := by decide +kernel
theorem test_vruns_vlen : reg (exec (.vruns c0 3 1) (one runsAtWork)) 3 = 2 ∧ reg (exec (.vlen c0 3 1) (one runsAtWork)) 3 = 8 := by decide +kernel
theorem test_vsplat : vreg (exec (.vsplat c0 3 1 6) (one (vt (task [(6, 0x1FF)]) [(1, 16, [(7, 2), (1, 1)])]))) 3 = (16, [(0xFF, 3)]) := by decide +kernel
theorem test_vrcnt_amax : reg (exec (.vrcnt c0 false 3 1) (one (vt (task []) [(1, 12, [(0, 2), (4, 3)])]))) 3 = 3 ∧ reg (exec (.vamax c0 false 3 1) (one (vt (task []) [(1, 2, [(0xC0000000, 2), (0x3F800000, 3)])]))) 3 = 0x40000000 := by decide +kernel
theorem test_vrsumsq : reg (exec (.vrsumsq c0 false 3 1) (one (vt (task []) [(1, 12, [(0xFFFFFFFE, 2), (3, 1)])]))) 3 = 17 := by decide +kernel
theorem test_vcvt : vreg (exec (.vcvt c0 3 1 6 1 false) (one (vt (task []) [(1, 2, [(0x43E10000, 1), (0x43FA0000, 1)])]))) 3 = (6, [(0x7E, 1), (0x7F, 1)])
    ∧ vreg (exec (.vcvt c0 3 1 6 1 true) (one (vt (task []) [(1, 2, [(0x43E10000, 1), (0x43FA0000, 1)])]))) 3 = (6, [(0x7E, 2)]) := by decide +kernel
theorem test_vclaim : reg (exec (.vclaim c0 5 6) (one (task [(6, 16)]))) 5 = 16 ∧ trapped (exec (.vclaim c0 5 6) (one (task [(6, 17)]))) = (0x053, 17) ∧ trapped (exec (.vadd c0 q0 3 1 2) (one (task []))) = (0x052, 0) := by decide +kernel
theorem test_vqry : reg (exec (.vqry c0 5 6) (one { runsAtWork with g := runsAtWork.g.set 6 1 })) 5 = 0x02020008 := by decide +kernel

/-! ### Loads, stores, synchronisation, atomics, the directory (R124 to R145) -/

def eight : State := put (one (task [(8, loc 0x100), (7, 0x1122334455667788)])) 0x100 [0x80, 0xFF, 1, 2, 3, 4, 5, 6, 7, 8, 9, 10, 11, 12, 13, 14, 15, 16]
theorem test_loads : reg (exec (.ldb c0 5 8 0) eight) 5 = 0xFFFFFFFFFFFFFF80 ∧ reg (exec (.ldhu c0 5 8 0) eight) 5 = 0xFF80 ∧ reg (exec (.ldw c0 5 8 1) eight) 5 = 0x06050403
    ∧ reg (exec (.ldd c0 5 8 1) eight) 5 = 0x0E0D0C0B0A090807 ∧ reg (exec (.ldq c0 4 8 0) eight) 4 = 0x060504030201FF80 ∧ reg (exec (.ldq c0 4 8 0) eight) 5 = 0x0E0D0C0B0A090807 := by decide +kernel
theorem test_stores : mem (exec (.sth c0 7 8 1) eight) 0x100 5 = [0x80, 0xFF, 0x88, 0x77, 3] ∧ mem (exec (.std c0 7 8 0) eight) 0x100 9 = [0x88, 0x77, 0x66, 0x55, 0x44, 0x33, 0x22, 0x11, 7] := by decide +kernel
theorem test_last_byte : trapped (exec (.ldd c0 5 8 0) (one (task [(8, loc 0x17FF9)]))) = (0x010, loc 0x18000) ∧ trapped (exec (.ldbu c0 5 8 0) (one (task [(8, 0x10000000000000)]))) = (0x010, 0x10000000000000) := by decide +kernel
theorem test_lds_empties : let o := exec (.ldsC c0 1 5 8 0) { eight with full := [localKey 0 0x100 / 16] }
    reg o 5 = 0x060504030201FF80 ∧ (st o).full = [] ∧ (st (exec (.lds c0 1 5 8 0) { eight with full := [localKey 0 0x100 / 16] })).full = [localKey 0 0x100 / 16] := by decide +kernel
theorem test_lds_parks : (th (exec (.lds c0 1 5 8 0) eight)).status = .parked (.granule (localKey 0 0x100 / 16)) ∧ (th (exec (.lds c0 1 5 8 0) eight)).pc = 0x100 := by decide +kernel
theorem test_sts_fills : let o := exec (.sts c0 0 7 8 0) eight
    mem o 0x100 5 = [0x88, 0x77, 0x66, 0x55, 3] ∧ (st o).full = [localKey 0 0x100 / 16] := by decide +kernel
theorem test_bits : (st (exec (.feset c0 8) eight)).full = [localKey 0 0x100 / 16] ∧ reg (exec (.fetest c0 5 8) { eight with full := [localKey 0 0x100 / 16] }) 5 = 1 ∧ (th (exec (.waitfE c0 8) eight)).pc = 0x104
    ∧ (th (exec (.waitf c0 8) eight)).pc = 0x100 := by decide +kernel
theorem test_aadd_times_cnt : let o := exec (.aadd c0 true 5 8 7) (put (one { task [(8, loc 0x100), (7, 2)] with cnt := 3 }) 0x100 [0xFF, 0xFF, 0xFF, 0xFF])
    reg o 5 = 0xFFFFFFFFFFFFFFFF ∧ mem o 0x100 5 = [5, 0, 0, 0, 0] := by decide +kernel
theorem test_acas : let s := put (one (task [(8, loc 0x100), (7, 9), (5, 4)])) 0x100 [4]
    reg (exec (.acas c0 false 5 8 7) s) 5 = 4 ∧ mem (exec (.acas c0 false 5 8 7) s) 0x100 1 = [9] ∧ mem (exec (.acas c0 false 6 8 7) s) 0x100 1 = [4] := by decide +kernel
theorem test_amin_signed : mem (exec (.amin c0 true 5 8 7) (put (one (task [(8, loc 0x100), (7, 0xFFFFFFFF)])) 0x100 [1])) 0x100 4 = [255, 255, 255, 255] := by decide +kernel
theorem test_merged_swap : trapped (exec (.aswp c0 true 5 8 7) (one { task [(8, loc 0x100)] with cnt := 2 })) = (0x080, 2) := by decide +kernel
/-- R141, R142: an entry for [0x1000, 0x1100) in slot 0x200, and the lookup of 0x1034. -/
theorem test_directory : let s := st (exec (.dset c0 5 8 7) (one (task [(8, 0x1000), (7, 0x2000003), (6, 0x1034)])))
    reg (exec (.lkp c0 5 6) s) 5 = loc 0x234 ∧ reg (exec (.lkp c0 5 7) s) 5 = 0xFFFFFFFFFFFFFFFF ∧ reg (exec (.dset c0 5 8 7) s) 5 = 1 := by decide +kernel
theorem test_dinv : let s := st (exec (.dset c0 5 8 7) (one (task [(8, 0x1000), (7, 0x2000003)])))
    reg (exec (.dinv c0 5 6 0) s) 5 = 1 ∧ ((st (exec (.dinv c0 5 6 0) s)).core 0).dir = [] ∧ ((st (exec (.dclr c0 9) (s.mapThread 0 0 (fun t => t.wrN 9 3)))).core 0).dir = [] := by decide +kernel
theorem test_fence : (th (exec (.fenceRel c0 2) (one (task [])))).pc = 0x104 ∧ (th (exec (.fenceEngine c0) (one { task [] with engs := [⟨.copy, 1, 0, 0, 0, 0⟩] }))).status = .parked .engines := by decide +kernel
theorem test_rstat : reg (exec (.rstat c0 5 6) (one { task [(6, 1)] with unkOver := true })) 5 = 0x8000000000000000 ∧ trapped (exec (.rstat c0 5 6) (one (task [(6, 4)]))) = (0x071, 4) := by decide +kernel

/-! ### Ctags, copies, compression, conversion (R80 to R86, R99 to R105) -/

theorem test_ctset : reg (exec (.ctset c0 5 6) (one { task [] with ctag := 3 })) 5 = 3 ∧ (th (exec (.ctset c0 5 6) (one { task [] with ctag := 3 }))).ctag = 0 ∧ trapped (exec (.ctset c0 5 6) (one (task [(6, 9)]))) = (0x020, 9) := by decide +kernel
/-- R81: LIVE, depth 1, CHK, one cell; its parent is the root. -/
theorem test_ctstat : reg (exec (.ctstat c0 5 6) { one (task [(6, 9)]) with ctags := [(9, ⟨.live, 0, 1, 0, false, true, none⟩)], cells := [⟨4, 9, 0x100, List.replicate 64 0, 1, 0⟩] }) 5 = 0x0000000100910000 := by decide +kernel
/-- R103: the two rows of the INT4 example. -/
theorem test_cpy2_rows : let l : List (Option Byte) := [some 0xA7, some 0x3C, some 0x55]
    shiftBytes 4 12 2 l = [some 0xCA, some 0x03] ∧ shiftBytes 0 12 2 [some 0x91, some 0x0E] = [some 0x91, some 0x0E] := by decide +kernel
def block1K : List Byte := let g := leBytes 4 1000 ++ leBytes 4 1001 ++ leBytes 4 1003 ++ leBytes 4 998; g ++ g ++ List.replicate 992 0
/-- R101: the worked block. -/
theorem test_compress_worked : (packBlock block1K).1 = 0x4000001E ∧ ((packBlock block1K).2.take 16).map BitVec.toNat = [6, 0, 0, 0, 0, 0, 0, 0, 0, 0, 0, 0, 0, 0, 0, 0]
    ∧ ((packBlock block1K).2.drop 20).map BitVec.toNat = [3, 0, 0, 0, 0xE8, 3, 0, 0, 0x99, 1] := by decide +kernel
theorem test_expand : expand (packBlock block1K).2 = some block1K ∧ packBlock (List.replicate 1024 0) = (0, []) := by decide +kernel
/-- R100: the check value of CRC-32C over "123456789". -/
theorem test_crc : crc32c [0x31, 0x32, 0x33, 0x34, 0x35, 0x36, 0x37, 0x38, 0x39] = 0xE3069283 := by decide +kernel
/-- R105: the worked conversions to E4M3 with the factor 1.5. -/
theorem test_cpyx_worked : let w := fun (sat : Nat) => [(0 : Word), 0, 0, BitVec.ofNat 64 (0x3FC00000 * 2 ^ 32 + 2 ^ 24 + sat * 2 ^ 20 + 2 ^ 16 + 6 * 2 ^ 8 + 2)]
    [0x43960000, 0x439B0000, 0xC39B0000].map (fun x => ((convertElem (w 0) 1 x).1, (convertElem (w 1) 1 x).1)) = [(0x7E, 0x7E), (0x7F, 0x7E), (0x7F, 0xFE)] := by decide +kernel

/-! ### The matrix unit (R167, R232, R233, R243, R246) -/

/-- The folded element: block 0, block 1, and the drain to B32 in RNE, RZ and RU. -/
theorem test_fold_worked : let v := fun (x : Nat) => decodeElem 2 false x
    let b0 := contribution true 0 [v 0x3F800000, v 0x26800000] [v 0x3F800000, v 0x26800000] none
    let b1 := contribution true 0 [v 0x40400000] [v 0x3F800000] none
    let e := (b0.add b1).toBits
    b0.toBits = 0x0001FFA7020000000000000000000001 ∧ b1.a = -88 ∧ e = 0x0001FFA7080000000000000000000001
    ∧ [1, 2, 3].map (fun r => drainElem 2 ⟨r, false, false, false⟩ none none e) = [(0x40800000, 1), (0x40800000, 1), (0x40800001, 1)] := by decide +kernel
/-- The worked command word of R243. -/
def workedCommand : MCmd := ⟨⟨0, 0, 0, 1, 0, 0, 0, 0, 0, 0, 0⟩, false, [0, 0, 0x01234014C6B84200, 0], 0, 0, []⟩
theorem test_command_word : (workedCommand.afmt, workedCommand.bfmt, workedCommand.rows, workedCommand.cols, workedCommand.depth) = (6, 6, 16, 16, 32) ∧ workedCommand.slotsA = [0] ∧ workedCommand.slotsB = [1]
    ∧ bits workedCommand.word 46 2 = 1 ∧ bits workedCommand.word 34 12 = 5 ∧ bits workedCommand.word 52 4 = 2 ∧ bits workedCommand.word 48 4 = 3 := by decide +kernel
theorem test_oclaim : reg (exec (.oclaim c0 5 6) (one (task [(6, 0x8001)]))) 5 = 0x8001 ∧ (((st (exec (.oclaim c0 5 6) (one (task [(6, 0x8001)])))).core 0).op 15).owner = some 0 ∧ trapped (exec (.oclaim c0 5 6) (one (task [(6, 0x10000)]))) = (0x060, 0x10000) := by decide +kernel
theorem test_mcap_without_accumulator : trapped (exec (.mcap c0 5) (one (task []))) = (0x060, 0) := by decide +kernel

/-! ### Collectives, transducers, digests (R272, R113, R114, R380) -/

theorem test_coll_sum_worked : collSum 2 1 [(0x4B800000, 1), (0x3F800000, 1), (0x3F800000, 1), (0x3F000000, 3)] = (0x4B800002, 1) := by decide +kernel
theorem test_auction_worked : let c := fun (r v n : Nat) => (⟨r, true, ⟨0, 0, 0, 1, 0, 0, 0, 0, 0, 0, 0⟩, 0x0004004020000021, 1, 0, 0, leBytes 4 v ++ leBytes 4 n⟩ : Contribution)
    (collResult 0x0004004020000021 1 [c 0 0x40200000 17, c 1 0x40400000 40, c 2 0x40400000 22, c 3 0x7FC00000 1]).1 = leBytes 8 0x0000001640400000 := by decide +kernel
/-- Two states, two classes: "a" is echoed and leads to the accepting state; any other byte is rejected there. -/
def tiny : XTable := ⟨2, 2, 0, 1, (List.range 256).map (fun b => if b = 0x61 then 1 else 0), [0x00070000, 0x00120000, 0x00170000, 0x00130042]⟩
theorem test_job : let r := fun (cap : Nat) (l : List Byte) => let j := runJob tiny cap cap l; (j.s, j.n, j.out.reverse.map BitVec.toNat, j.res)
    r 8 [0x61, 0x61] = (1, 2, [0x61, 0x42, 0, 0, 0], none) ∧ r 4 [0x61, 0x61] = (1, 1, [0x61], some 2) ∧ r 8 [0x61, 0x62, 0x61] = (1, 2, [0x61], some 1) := by decide +kernel
theorem test_table_header : (tableHeader [2, 0, 2, 0, 1, 0, 2, 0, 0, 0, 0, 0, 0, 0, 0, 0]).isSome = true ∧ tableHeader [2, 0, 2, 0, 2, 0, 2, 0, 0, 0, 0, 0, 0, 0, 0, 0] = none ∧ resultRecord 1 2 3 4 = 0x0012000003000004 := by decide +kernel
/-- FIPS 180-4: the digest of the empty message, and of "abc". -/
theorem test_sha_empty : leNat (sha256 []).reverse = 0xE3B0C44298FC1C149AFBF4C8996FB92427AE41E4649B934CA495991B7852B855 := by decide +kernel
theorem test_sha_abc : leNat (sha256 [0x61, 0x62, 0x63]).reverse = 0xBA7816BF8F01CFEA414140DE5DAE2223B00361A396177A9CB410FF61F20015AD := by decide +kernel
/-- R380: the entry of the 8 bytes at 0x0000_0002_0000_0048. -/
theorem test_digest_entry : let c : Cell := ⟨0, 1, 0x200000040, List.replicate 64 7, 0xFF00, 0⟩
    (c.entry.map BitVec.toNat).take 24 = [0x40, 0, 0, 0, 2, 0, 0, 0, 0, 0xFF, 0, 0, 0, 0, 0, 0, 0, 0, 0, 0, 0, 0, 0, 0] ∧ (c.entry.drop 24).take 9 = List.replicate 8 7 ++ [0] ∧ c.entry.length = 80 := by decide +kernel

/-! ### Control, tasks, traps, special registers (R198, R199, R289 to R304, R352 to R355, R157 to R163) -/

theorem test_br_backwards : (th (exec (.br c0 0x1FFFFF) (one (task [])))).pc = 0xFC ∧ (th (exec (.brl c0 4) (one (task [])))).pc = 0x110 ∧ reg (exec (.brl c0 4) (one (task []))) 63 = 0x104 := by decide +kernel
theorem test_jr : (th (exec (.jr c0 6) (one (task [(6, 0x2000)])))).pc = 0x2000 ∧ trapped (exec (.jrl c0 6) (one (task [(6, 0x2002)]))) = (0x011, 0x2002) ∧ reg (exec (.jrl c0 63) (one (task [(63, 0x2000)]))) 63 = 0x104 := by decide +kernel
/-- R23, R24: W holds the thread 8 cycles a unit. -/
theorem test_stall_count : (th (exec (.add ⟨false, false, 7⟩ 5 6 7) (one (task [])))).elig = 64 ∧ (th (exec (.stallx 255) (one (task [])))).elig = 2048 := by decide +kernel
/-- R28, R29: bit 3 of g7 is 0: with SENSE 1 the ADD runs, with SENSE 0 it is suppressed. -/
theorem test_guard : let s := fun (b : Bool) => one { task [(6, 4), (7, 0xF7)] with gsel := BitVec.ofNat 22 (7 * 2 ^ 16 + 3 * 2 ^ 10 + if b then 512 else 0) }
    reg (exec (.add ⟨true, false, 0⟩ 5 6 6) (s true)) 5 = 8 ∧ reg (exec (.add ⟨true, false, 0⟩ 5 6 6) (s false)) 5 = 0 := by decide +kernel
theorem test_hints : bits (th (exec (.imm 0x3FFFFF) (one (task [])))).pfx 0 24 = 0xBFFFFF ∧ (th (exec (.live 5) (one { task [] with live := true }))).safePoint = some 5 ∧ (th (exec (.live 5) (one (task [])))).safePoint = none
    ∧ bits (th (exec (.rmode 2) (one (task [])))).pfx 24 4 = 10 ∧ (th (exec (.guard 7 3 true) (one (task [])))).gsel = 0x70E00 ∧ trapped (exec .noph (one { task [] with live := true })) = (1, 0xFC000000) := by decide +kernel
theorem test_trap : let o := exec (.trap c0 5) (one { task [] with pfx := 0, gsel := 0x12345 })
    trapped o = (4, 5) ∧ (th o).pc = 0x8000 ∧ (th o).tpc = 0x104 ∧ bits (th o).tcause 12 2 = 1 ∧ bits (th o).tcause 14 22 = 0x12345 ∧ (th o).gsel = 0x200 := by decide +kernel
theorem test_rft : let o := exec (.rft c0) (one { task [] with tcause := BitVec.ofNat 64 (0x12345 * 2 ^ 14 + 2 ^ 12 + 1), tpc := 0x300 })
    (th o).pc = 0x300 ∧ (th o).gsel = 0x12200 ∧ bits (th o).tcause 12 1 = 0 ∧ trapped (exec (.rft c0) (one (task []))) = (1, 0xE8000001) := by decide +kernel
/-- R353: a trap in a handler, and one without a handler, kill the thread. -/
theorem test_double_fault : (st (exec (.trap c0 5) (one { task [] with tcause := 0x1000 }))).thread 0 0 = none ∧ (st (exec (.trap c0 5) (one { task [] with tvec := 0 }))).thread 0 0 = none := by decide +kernel
theorem test_tend : (st (exec (.tend c0) (one (task [])))).thread 0 0 = none ∧ (st (exec (.tend c0) (one (task [])))).streams = [(0, 0)] := by decide +kernel
theorem test_yield : (th (exec (.yield c0) (one (task [])))).status = .parked (.clock 128) ∧ trapped (exec (.yieldFor c0 6) (one (task [(6, 0x10000)]))) = (0x082, 0x10000) := by decide +kernel
theorem test_hbeat : (th (exec (.hbeat c0) (one { task [] with hb := 77 }))).hb = 0 := by decide +kernel
/-- R10, R289 to R292: a child on the own core: slot 1, its PC, g1, g2, K.TID and K.SERIAL; its parent counts the spawn. -/
def spawns : Thread := { task [(16, 0x4000), (17, 0), (18, 0), (19, 7), (20, 8), (5, 9)] with tid := 0x10002 }
theorem test_spawn : let o := exec (.spawn c0 5 16 5) (one spawns)
    let y := ((st o).thread 0 1).getD Thread.reset
    reg o 5 = 0 ∧ (th o).spawnk = 1 ∧ y.pc = 0x4000 ∧ y.rdN 1 = 7 ∧ y.rdN 2 = 8 ∧ y.rdN 3 = 0 ∧ y.tid = 0x10011 ∧ y.serial = 1 := by decide +kernel
theorem test_spawn_limit : trapped (exec (.spawn c0 5 16 5) (one { spawns with spawnk := 7 })) = (0x081, 7) ∧ trapped (exec (.spawn c0 5 16 5) (one (task [(16, 2)]))) = (0x011, 2) := by decide +kernel
theorem test_meet_opens : let o := exec (.meet c0 5 16) (one (task [(16, 3), (17, 4)]))
    (th o).status = .meet 0 5 c0 ∧ (((st o).core 0).meet.find 0).map (fun e => (e.waiters, e.quorum, e.first)) = some ([0], 0, 0) := by decide +kernel
theorem test_meetq_arg : trapped (exec (.meetq c0 5 16) (one (task [(16, 3), (17, 4), (18, 17)]))) = (0x084, 17) ∧ trapped (exec (.meet c0 5 16) (one { task [] with tid := 6, claim := 1 })) = (0x083, 6) := by decide +kernel
/-- R297: two threads of counts 2 and 3 become one of 5, the one of the lower K.TID; its word is done. -/
def meeting : State :=
  let t := fun (sl n : Nat) => ({ task [] with status := .meet 0 5 c0, cnt := n, tid := BitVec.ofNat 64 (8 - sl) } : Thread)
  { one (t 0 2) with cores := [(0, { Core.reset with threads := [(0, t 0 2), (1, t 1 3)], meet := [(0, ⟨[1, 2, 3], [0, 1], 2, 0, false, 4⟩)] })] }
theorem test_meet_release : let u := st (exec (.meetRelease 0 0) meeting)
    u.thread 0 0 = none ∧ (u.thread 0 1).map (fun t => (t.cnt, t.pc, t.rdN 5, t.status)) = some (5, 0x104, 1, .ready) ∧ (u.core 0).meet = [] := by decide +kernel
theorem test_glaunch_args : trapped (exec (.glaunch c0 5 16) (one (task [(16, 0x400), (18, 1)]))) = (0x082, 0x400) ∧ trapped (exec (.glaunch c0 5 16) (one (task [(17, 0x20), (18, 1)]))) = (0x011, 0x20)
    ∧ trapped (exec (.glaunch c0 5 16) (one (task [(17, 0x40), (18, 1)]))) = (0x015, 0) := by decide +kernel
/-- R10: row 37, column 90 of die 11, slot 3. -/
theorem test_core_number : let s : State := { one (task []) with cores := [(11 * 16384 + 4826, { Core.reset with threads := [(3, task [])] })], cur := (11 * 16384 + 4826, 3) }
    (((st (exec (.csrr c0 5 5) s)).thread (11 * 16384 + 4826) 3).getD Thread.reset).rdN 5 = 0xED2DA := by decide +kernel
theorem test_csr : reg (exec (.csrr c0 5 1) (one { task [] with cnt := 7 })) 5 = 7 ∧ (th (exec (.csrw c0 6 0x30) (one (task [(6, 0x4003)])))).tvec = 0x4000 ∧ trapped (exec (.csrw c0 6 1) (one (task []))) = (1, 0xE803000B)
    ∧ trapped (exec (.csrr c0 5 0x800) (one (task []))) = (2, 0xE802C002) := by decide +kernel
theorem test_fpcsr_write : (th (exec (.csrw c0 6 0x10) (one (task [(6, 0x7F05)])))).fpcsr = 0x7F05 ∧ (trapped (exec (.csrw c0 6 0x10) (one (task [(6, 6)])))).1 = 1 := by decide +kernel

/-! ### Events (R25, R287, R57, R409, R59, R294) -/

theorem test_result_lands : let s := { one { task [] with pend := [⟨5, 9, 0, 32, 0x100⟩] } with cycle := 32 }
    reg (exec (.longResultLand 0 0) s) 5 = 9 ∧ (th (exec (.longResultLand 0 0) s)).pend = [] ∧ reg (exec (.longResultLand 0 0) { s with cycle := 31 }) 5 = 0 := by decide +kernel
theorem test_hang : (st (exec (.heartbeatExpiry 0 0) { one { task [] with hbint := 100 } with cycle := 100 })).thread 0 0 = none ∧ ((st (exec (.heartbeatExpiry 0 0) { one { task [] with hbint := 100 } with cycle := 99 })).thread 0 0).isSome = true := by decide +kernel
theorem test_budget : let o := exec (.budgetExpiry 0 0) { one { task [] with budget := 50 } with cycle := 50 }
    trapped o = (0x086, 0) ∧ (th o).tpc = 0x100 := by decide +kernel
/-- R57: 90 °C on a channel leaves its market 50 launches less the doubled refresh's 32; 105 °C trips. -/
theorem test_allowance : (st (exec .tempSample { one (task []) with chans := [(0, ⟨60, false, 90⟩)] })).allow 0 = 18 ∧ (st (exec .tempSample { one (task []) with chans := [(0, ⟨60, false, 105⟩)] })).power = .tripped := by decide +kernel
theorem test_refresh : (2 * 2925, Instr.refreshStart 2) ∈ (st (exec (.refreshStart 1) (one (task [])))).agenda ∧ (st (exec (.refreshStart 2) (one (task [])))).refresh = some 2 := by decide +kernel
theorem test_illegal_word : trapped (exec (.illegalWord 0) (one (task []))) = (1, 0) ∧ trapped (exec (.fetchFault .pageInvalid) (one (task []))) = (0x013, 0x100) := by decide +kernel
/-- R294: an arrival at an armed object that expects one: COUNT 0, the granule full; here with a failure, so FAILED with its cause. -/
theorem test_arrival : let o := exec (.completionArrival ⟨⟨0, 0, 0, 0⟩, 0, 0, 0x700000100, some (.checkFail, 0x77), 0, 3, false, none, 1, 0, 1, none⟩) (put (one (task [])) 0x100 (leBytes 8 0x0000000740000001))
    mem o 0x100 8 = [0, 0x60, 0xC4, 0x80, 7, 0, 0, 0] ∧ mem o 0x108 1 = [0x77] ∧ (st o).full = [localKey 0 0x100 / 16] := by decide +kernel
/-- A step fetches what stands at the PC and runs it: SUB g5, g6, g7, then a word that denotes nothing. -/
theorem test_step_runs : (th (step (State.reset.withFetchWord 32 0x04028C39))).pc = (th (.next (State.reset.withFetchWord 32 0))).pc + 4 ∧ (st (step (State.reset.withFetchWord 32 0))).thread 0 0 = none := by decide +kernel

/-! ## Witnesses: for each statement, concrete states and operands that meet the hypotheses of its clauses, at the ends of their ranges -/

/-- The one thread of a small state is the current one. -/
theorem issues_one (t : Thread) : Issues (one t) (t.begin 0 0) := ⟨t, rfl, rfl⟩
/-- It, as a word that acts later does so. -/
theorem acts_one (t : Thread) : Acts (one t) (t.begin 0 0) 4 := ⟨t, rfl, rfl⟩
/-- Whether an owner executes a request that a thread sends it now: `Accepts`, as it is computed. -/
def servingB (s : State) : Bool := s.boot.all (·.done) && s.portStatus.all (fun w => !w.getLsbD 0) && s.owners.all (fun p => decide (p.2.back ≤ s.cycle)) && s.hosted.isEmpty
def acceptsB (s : State) (t : Thread) (o : Owner) : Bool :=
  let x := (s.owner o).fresh s.cycle
  servingB s && (match o with | .core k => !(s.core k).sealed | _ => true)
    && x.receipts.all (fun r => !(r.module == s.moduleNo && r.stream == t.stream && r.serial == t.serial))
    && match x.updateFloor (ownerEntries o) s.moduleNo t.stream t.ackw s.cycle with
      | some (y, f) => decide (1 ≤ (t.serial - f).toNat ∧ (t.serial - f).toNat ≤ 2 ^ 16 ∧ y.restart ≤ s.us ∧ y.receipts.length + y.floors.length < ownerEntries o)
      | none => false
theorem serving_of {s : State} (h : servingB s = true) : s.Serving := by
  simp only [servingB, Bool.and_eq_true, decide_eq_true_eq, List.all_eq_true] at h
  exact ⟨h.1.1.1, fun w hw => by simpa using h.1.1.2 w hw, h.1.2⟩
/-- Whether nothing delays a message, as it is computed. -/
def quietB (s : State) : Bool :=
  decide (s.transit = []) && decide (∀ e ∈ s.agenda, messageOf e.2 = none ∧ answerRoute e.2 = none) && s.refresh.isNone && decide (s.queued = [])
    && s.cores.all (fun c => c.2.threads.all (fun p => (c.1, p.1) == (s.k, s.sl) || (match p.2.status with | .acting n _ => decide (s.cycle < n) | _ => true))) && servingB s
theorem noDelay_of {s : State} (h : quietB s = true) : s.NoDelay := by
  simp only [quietB, Bool.and_eq_true, decide_eq_true_eq, List.all_eq_true, Bool.or_eq_true, beq_iff_eq, Option.isNone_iff_eq_none] at h
  obtain ⟨⟨⟨⟨⟨a, b⟩, c⟩, d⟩, e⟩, f⟩ := h
  exact ⟨a, b, c, d, by simpa [servingB] using (Bool.and_eq_true_iff.mp f).2, fun x hx p hp hn => (e x hx p hp).resolve_left hn, serving_of f⟩
theorem accepts_of {s : State} {t : Thread} {o : Owner} (h : acceptsB s t o = true) : Accepts s t o := by
  simp only [acceptsB, Bool.and_eq_true, List.all_eq_true] at h
  obtain ⟨⟨⟨h1, h2⟩, h3⟩, h4⟩ := h
  refine ⟨serving_of h1, by simpa [servingB] using (Bool.and_eq_true_iff.mp h1).2, ?_, ?_, ?_⟩
  · rintro k rfl; simpa using h2
  · rintro r hr ⟨a, b, c⟩; simpa [a, b, c] using h3 r hr
  · split at h4
    next y f hy => exact ⟨y, f, hy, by simpa using h4⟩
    next => cases h4
/-- It, as its word issues. -/
def run (l : List (Nat × Word)) : Thread := (task l).begin 0 0
def guarded : Ctl := ⟨true, true, 7⟩
def im0 : BitVec 28 := BitVec.ofNat 28 (2 ^ 23)
def withImm (t : Thread) (n : Nat) : Thread := { t with pfx := BitVec.ofNat 28 (2 ^ 23 + n) }

/-- Plain words, guarded ones, with g0 and with a source that is the destination; stall counts on both sides of 3; a divisor of 0. -/
theorem witness_IntegerWords : Issues (one (task [])) (run [])
    ∧ (run []).Runs c0 { reads := [6, 7], writes := [5] } ∧ (run []).Runs guarded { reads := [0, 63], writes := [0] } ∧ (run []).Runs c0 { reads := [6], writes := [6] }
    ∧ (3 ≤ guarded.w.toNat ∧ c0.w.toNat < 3 ∧ (run []).enables = 0) ∧ ((task []).begin 0 0).rd 7 = 0 :=
  ⟨issues_one _, by unfold Thread.Runs; and_intros <;> decide +kernel⟩
/-- An IMM latch and none; the amounts 63 and 64; SEL under .S with nothing pending. -/
theorem witness_CompareBitAndImmediateWords : Issues (one (task [])) (run [])
    ∧ (run []).Runs c0 { immOk := true, reads := [6], writes := [5] } ∧ (withImm (run []) 1).Runs c0 { immOk := true, writes := [5] } ∧ (withImm (run []) 1).iv = true
    ∧ (63#9).signExtend 64 = 63#64 ∧ 63 < ((64#9).signExtend 64).toNat
    ∧ ({ run [] with sc := true }.sc = true → { run [] with sc := true }.pendingAt [(run []).guardReg] = none) ∧ { run [] with sc := true }.Runs c0 { reads := [6, 7], writes := [5] } :=
  ⟨issues_one _, by unfold Thread.Runs; and_intros <;> decide +kernel⟩
/-- No flag raised, and one that is enabled; the minimum stall counts of FDIV. -/
theorem witness_ScalarFloatWords : Issues (one (task [])) (run [])
    ∧ (run []).Runs c0 { reads := [6, 7], writes := [5] } ∧ (run []).Runs c0 { reads := [6, 7, 5], writes := [5] } ∧ (run []).Runs c0 { roOk := true, reads := [6], writes := [5] }
    ∧ { run [] with pfx := BitVec.ofNat 28 (2 ^ 27 + 6 * 2 ^ 24) }.Runs c0 { roOk := true, reads := [6], writes := [5] }
    ∧ 8 &&& (run []).enables = 0 ∧ 8 &&& { run [] with fpcsr := 0x7F01 }.enables ≠ 0 ∧ 2 - 1 ≤ (⟨false, false, 1⟩ : Ctl).w.toNat ∧ c0.w.toNat < 2 :=
  ⟨issues_one _, by unfold Thread.Runs; and_intros <;> decide +kernel⟩
def vrun (l : List (Nat × Word)) (v : List (Nat × Nat × List (Nat × Nat))) : Thread := (vt (task l) v).begin 0 0
/-- Two operands of one format and length, with and without a mask, with an addend, under .CLIP and .S. -/
def operands : List (Nat × Nat × List (Nat × Nat)) := [(0, 22, [(1, 2)]), (1, 2, [(0x3F800000, 2)]), (2, 2, [(0x40000000, 1), (0, 1)]), (3, 2, [(0, 2)])]
theorem witness_VectorElementwiseWords : Issues (one (vt (task []) operands)) (vrun [] operands) ∧ (vrun [] operands).claim ≠ 0
    ∧ (vrun [] operands).Runs c0 { reads := [regOf 2], writes := [regOf 3] } ∧ (vrun [] operands).Runs c0 {}
    ∧ (∀ r ∈ [1, 2, 3], ((vrun [] operands).vr r).fmt.toNat ≠ 0 ∧ ((vrun [] operands).vr r).fmt = ((vrun [] operands).vr 1).fmt ∧ ((vrun [] operands).vr r).len = ((vrun [] operands).vr 1).len)
    ∧ isArithC 2 = true ∧ isFloatC 2 = true ∧ ((vrun [] operands).vr 0).fmt.toNat = 22 ∧ ((vrun [] operands).vr 0).len = ((vrun [] operands).vr 1).len :=
  ⟨issues_one _, by unfold Thread.Runs; and_intros <;> decide +kernel⟩
/-- One element, and the longest length; a capacity of 8 that is filled. -/
theorem witness_PiecesComputeElements : ([[⟨1, 1⟩], [⟨2, 1⟩]] : List (List Run)) ≠ [] ∧ (∀ l ∈ ([[⟨1, 1⟩], [⟨2, 1⟩]] : List (List Run)), (∀ r ∈ l, 1 ≤ r.count) ∧ (runElements l).length = 1)
    ∧ (∀ l ∈ ([[⟨1, 65535⟩]] : List (List Run)), (∀ r ∈ l, 1 ≤ r.count)) ∧ (([⟨1, 65535⟩] : List Run).flatMap (fun r => List.replicate r.count r.value)).length ≤ 65535
    ∧ (build 1 [(1, 1, 0), (2, 1, 0)] [] 0 0).2.2 = some 1 :=
  ⟨by decide, by decide, by decide, by rw [List.flatMap_singleton, List.length_replicate], by decide +kernel⟩
theorem witness_VectorIntegerOneRun : let v := [(1, 16, [(0x80, 1)]), (2, 16, [(0xFF, 1)])]
    Issues (one (vt (task []) v)) (vrun [] v) ∧ (vrun [] v).claim ≠ 0 ∧ (vrun [] v).Runs c0 {} ∧ ifmt ((vrun [] v).vr 1).fmt.toNat = some (true, 8)
    ∧ (vrun [] v).vr 1 = ⟨((vrun [] v).vr 1).fmt, [⟨0x80, 1⟩]⟩ ∧ (vrun [] v).vr 2 = ⟨((vrun [] v).vr 1).fmt, [⟨0xFF, 1⟩]⟩ :=
  ⟨issues_one _, by unfold Thread.Runs; and_intros <;> decide +kernel⟩
/-- No lanes; an empty operand; a class that is not taken; formats and lengths that differ; cut, element and length at their limits. -/
theorem witness_VectorFaultsAndShapes : let v := [(1, 2, [(0x3F800000, 2)]), (2, 3, [(0, 2)]), (3, 2, [(0, 1)]), (4, 22, [(1, 2)])]
    Issues (one (task [])) (run []) ∧ Issues (one (vt (task []) v)) (vrun [] v) ∧ (run []).claim = 0 ∧ (run []).Runs c0 {} ∧ (vrun [] v).claim ≠ 0
    ∧ ((vrun [] v).vr 5).fmt.toNat = 0 ∧ isArithC ((vrun [] v).vr 4).fmt.toNat = false ∧ ((vrun [] v).vr 2).fmt ≠ ((vrun [] v).vr 1).fmt
    ∧ ((vrun [] v).vr 3).fmt = ((vrun [] v).vr 1).fmt ∧ ((vrun [] v).vr 3).len ≠ ((vrun [] v).vr 1).len ∧ isAnyC ((vrun [] v).vr 1).fmt.toNat = true
    ∧ (vrun [(6, 63)] v).Runs c0 { reads := [regOf 6], writes := [regOf 5] } ∧ (63#64).toNat < 64 ∧ 64 ≤ (64#64).toNat ∧ (65535#64).toNat ≤ 65535 ∧ 65535 < (65536#64).toNat
    ∧ (1#64).toNat < ((vrun [] v).vr 1).len ∧ ((vrun [] v).vr 1).len ≤ (2#64).toNat ∧ ((vrun [] v).vr 1).len + ((vrun [] v).vr 3).len ≤ 65535 :=
  ⟨issues_one _, issues_one _, by unfold Thread.Runs; and_intros <;> decide +kernel⟩
theorem witness_VectorReductionsAndConversions : let v := [(0, 22, [(1, 2)]), (1, 2, [(0x3F800000, 2)]), (2, 12, [(5, 1), (6, 1)])]
    Issues (one (vt (task []) v)) (vrun [] v) ∧ (vrun [] v).claim ≠ 0 ∧ (vrun [] v).Runs c0 { writes := [regOf 5] } ∧ ((vrun [] v).vr 1).fmt.toNat ≠ 0
    ∧ ((vrun [] v).vr 0).fmt.toNat = 22 ∧ ((vrun [] v).vr 0).len = ((vrun [] v).vr 1).len ∧ isArithC 2 = true ∧ notE8m0 2 = true ∧ isFloatC 2 = true
    ∧ ifmt ((vrun [] v).vr 2).fmt.toNat = some (true, 32) ∧ (∀ r ∈ ((vrun [] v).vr 2).runs, 1 ≤ r.count) ∧ ((vrun [] v).vr 2).len ≤ 65535
    ∧ (vrun [] v).Runs c0 { roOk := true } ∧ (vrun [] v).Runs c0 { roOk := true, reads := [regOf 6] } ∧ isAnyC 2 = true :=
  ⟨issues_one _, by unfold Thread.Runs; and_intros <;> decide +kernel⟩
/-- Claims of 0, 1, 16 and 17; a smaller claim that the runs do not fit; no free lane; the queries of v15 and of 16. -/
theorem witness_LaneClaims : let many := (List.range 9).map (fun i => (i, 1))
    let w := { vrun [] [(1, 12, many)] with claim := 2 }
    Issues (one (task [])) (run []) ∧ (run []).Runs c0 { reads := [6], writes := [5] } ∧ (run []).Runs c0 {} ∧ ((run []).rd 6).toNat = 0 ∧ 16 < ((run [(6, 17)]).rd 6).toNat
    ∧ (0 < ((run [(6, 1)]).rd 6).toNat ∧ 1 < w.claim ∧ w.v.toList.any (fun v => decide (8 * 1 < v.runs.length)) = true)
    ∧ ((run []).claim < 16 ∧ 16 - (run []).claim ≤ ((one (task [])).put (run [])).lanesFree 0)
    ∧ ((List.range 4).foldl (fun (s : State) sl => s.setThread 0 sl { task [] with claim := 16 }) (one (task []))).lanesFree 0 < 16 - 1 ∧ 16 ≤ (16#64).toNat ∧ (15#64).toNat < 16 :=
  ⟨issues_one _, by unfold Thread.Runs; and_intros <;> decide +kernel⟩

/-- The last 16 bytes of the store, and the registers of LDQ, with an IMM latch and without. -/
theorem witness_LocalLoads : let t := run [(8, loc 0x17FF0)]
    Acts (one (task [(8, loc 0x17FF0)])) t 4 ∧ t.Runs c0 { immOk := true, reads := [8], writes := [4, 5] } ∧ (withImm t 0).Runs c0 { immOk := true, reads := [8], writes := [5] }
    ∧ OwnBytes (one (task [(8, loc 0x17FF0)])) t (loc 0x17FF0) 16 ∧ OwnBytes (one (task [(8, loc 0x17FF0)])) t (loc 0x17FFF) 1 ∧ OwnBytes (one (task [(8, loc 0x17FF0)])) t (loc 0) 8 ∧ (4#6).toNat % 2 = 0 :=
  ⟨issues_one _, by unfold Thread.Runs OwnBytes; and_intros <;> decide +kernel⟩
theorem witness_LocalStores : let t := run [(8, loc 0x17FF0)]
    Acts (one (task [(8, loc 0x17FF0)])) t 4 ∧ t.Runs c0 { immOk := true, reads := [8, 4, 5] } ∧ t.Runs c0 { immOk := true, reads := [8, 5] }
    ∧ OwnBytes (one (task [(8, loc 0x17FF0)])) t (loc 0x17FF0) 16 ∧ OwnBytes (one (task [(8, loc 0x17FF0)])) t (loc 0x17FFF) 1 :=
  ⟨issues_one _, by unfold Thread.Runs OwnBytes; and_intros <;> decide +kernel⟩
theorem witness_AddressAndAlignFaults : let t := run [(8, loc 0x17FFC)]
    Acts (one (task [(8, loc 0x17FFC)])) t 4 ∧ t.Runs c0 { immOk := true, reads := [8], writes := [5] } ∧ t.Runs c0 { immOk := true, reads := [8, 5] }
    ∧ badByte (t.rd 8 + 0) 8 = some (loc 0x18000) ∧ badByte 0xFFFFFFFFFFFFF 2 = some 0x10000000000000 ∧ badByte 0x10000000000000 1 = some 0x10000000000000 ∧ badByte (loc 0x18000) 1 = some (loc 0x18000)
    ∧ (0#2 ≠ 2#2 ∧ ((run [(8, 2)]).rd 8 + 0).toNat % 4 ≠ 0) ∧ (1#2 ≠ 2#2 ∧ ((run [(8, 4)]).rd 8 + 0).toNat % 8 ≠ 0) :=
  ⟨issues_one _, by unfold Thread.Runs; and_intros <;> decide +kernel⟩
def fullAt (s : State) (a : Nat) : State := { s with full := [localKey 0 a / 16] }
/-- A granule that is full, and one that is empty, with nothing waiting; a wait within its limit. -/
theorem witness_SynchronisingAccesses : let t := run [(8, loc 0x17FF8)]
    let s := one (task [(8, loc 0x17FF8)])
    Acts s t 4 ∧ t.Runs c0 { immOk := true, reads := [8], writes := [5] } ∧ t.Runs c0 { immOk := true, reads := [8, 5] } ∧ OwnBytes s t (loc 0x17FF8) 8 ∧ (loc 0x17FF8).toNat % 8 = 0
    ∧ NoWaiters s (ownKey s (loc 0x17FF8) / 16) ∧ s.fe (ownKey s (loc 0x17FF8) / 16) = false ∧ (fullAt s 0x17FF8).fe (ownKey s (loc 0x17FF8) / 16) = true
    ∧ s.cycle + 4 < (t.waitStart.getD (s.cycle + 4, loc 0x17FF8)).1 + t.synclim :=
  ⟨issues_one _, by unfold Thread.Runs OwnBytes NoWaiters; and_intros <;> decide +kernel⟩
theorem witness_FullEmptyBitWords : let t := run [(8, loc 0x17FFF)]
    let s := one (task [(8, loc 0x17FFF)])
    Acts s t 4 ∧ t.Runs c0 { reads := [8], writes := [5] } ∧ t.Runs c0 { reads := [8] } ∧ OwnBytes s t (t.rd 8) 1
    ∧ NoWaiters s (ownKey s (loc 0x17FFF) / 16) ∧ s.fe (ownKey s (loc 0x17FFF) / 16) = false ∧ (fullAt s 0x17FFF).fe (ownKey s (loc 0x17FFF) / 16) = true
    ∧ s.cycle + 4 < (t.waitStart.getD (s.cycle + 4, loc 0x17FFF)).1 + t.synclim :=
  ⟨issues_one _, by unfold Thread.Runs OwnBytes NoWaiters; and_intros <;> decide +kernel⟩
theorem witness_LocalAtomics : let t := run [(8, loc 0x17FF8)]
    let s := one (task [(8, loc 0x17FF8)])
    Acts s t 4 ∧ t.Runs c0 { reads := [8, 7], writes := [5] } ∧ t.Runs c0 { reads := [8, 7, 5], writes := [5] } ∧ OwnBytes s t (t.rd 8) 8 ∧ (t.rd 8).toNat % 8 = 0 ∧ (t.rd 8).toNat % 4 = 0
    ∧ t.cnt ≤ 1 ∧ 1 < { t with cnt := 2 }.cnt ∧ { t with cnt := 2 }.cnt % 2 ≠ 1 ∧ t.cnt % 2 = 1 :=
  ⟨issues_one _, by unfold Thread.Runs OwnBytes; and_intros <;> decide +kernel⟩

/-- An address space of one 16 GiB page: its root stands at 0x1000 of die 0, its leaf names module `m`. -/
def paged (m : Nat) (t : Thread) : State :=
  let s := one { t with ptbase := 0x1000 }
  { s with mem := writeBytes (writeBytes s.mem 0x1000 (leBytes 8 0x2001)) 0x2000 (leBytes 8 (m * 2 ^ 44 + 0x80F)) }
def pagedRun (l : List (Nat × Word)) : Thread := { task l with ptbase := 0x1000 }.begin 0 0
def farPiece : Piece := ⟨5 * 2 ^ 44 + 0x3000, 8, 0x3000, 0⟩
def herePiece : Piece := ⟨0x3000, 8, 0x3000, 0⟩
theorem issues_paged (m : Nat) (l : List (Nat × Word)) : Acts (paged m (task l)) (pagedRun l) 4 := ⟨{ task l with ptbase := 0x1000 }, rfl, rfl⟩
theorem witness_AccessesLeaveTheModule : let t := pagedRun [(8, 0x3000)]
    let s := paged 5 (task [(8, 0x3000)])
    Acts s t 4 ∧ farPiece.isOwn = false ∧ farPiece.ctag = 0 ∧ touching t [farPiece] = [] ∧ (ownerOf farPiece.pa).module ≠ s.moduleNo ∧ t.windowOk 1 = true ∧ t.posted.length < 32
    ∧ t.Runs c0 { immOk := true, reads := [8], writes := [5] } ∧ t.Runs c0 { immOk := true, reads := [8, 5] } ∧ t.Runs c0 { reads := [8, 7], writes := [5] } ∧ farPiece.size = 8
    ∧ s.access s.k t.ptbase t.ctag ⟨true, false, false, false⟩ (effective t 8 0 8) 8 = .ok [farPiece] ∧ s.access s.k t.ptbase t.ctag ⟨false, true, false, false⟩ (effective t 8 0 8) 8 = .ok [farPiece]
    ∧ s.access s.k t.ptbase t.ctag ⟨true, true, false, false⟩ (t.rd 8) 8 = .ok [farPiece] ∧ (t.rd 8).toNat % 8 = 0 ∧ isLocal (t.rd 8) = false :=
  ⟨issues_paged .., by unfold Thread.Runs; and_intros <;> decide +kernel⟩
theorem witness_DramAccesses : let t := pagedRun [(8, 0x3000)]
    let s := paged 0 (task [(8, 0x3000)])
    Acts s t 4 ∧ Accepts s t (.channel (herePiece.pa / 2 ^ 40 % 16) (channelOf herePiece.pa)) ∧ s.NoDelay ∧ InDram s herePiece ∧ herePiece.ctag = 0 ∧ touching t [herePiece] = [] ∧ t.windowOk 1 = true ∧ t.posted.length < 32
    ∧ t.Runs c0 { immOk := true, reads := [8], writes := [5] } ∧ t.Runs c0 { immOk := true, reads := [8, 5] } ∧ t.Runs c0 { reads := [8, 7], writes := [5] } ∧ herePiece.size = 8
    ∧ s.access s.k t.ptbase t.ctag ⟨true, false, false, false⟩ (effective t 8 0 8) 8 = .ok [herePiece] ∧ s.access s.k t.ptbase t.ctag ⟨false, true, false, false⟩ (effective t 8 0 8) 8 = .ok [herePiece]
    ∧ s.access s.k t.ptbase t.ctag ⟨true, true, false, false⟩ (t.rd 8) 8 = .ok [herePiece] ∧ (t.rd 8).toNat % 8 = 0 ∧ isLocal (t.rd 8) = false ∧ 5#6 ≠ 0#6 :=
  ⟨issues_paged .., accepts_of (by decide +kernel), noDelay_of (by decide +kernel), by unfold Thread.Runs InDram; and_intros <;> decide +kernel⟩
theorem witness_VectorLoadsAndStores : let v := [(1, 12, [(5, 2)])]
    let t := vrun [(8, loc 0), (9, 2)] v
    let s := one (vt (task [(8, loc 0), (9, 2)]) v)
    Acts s t 4 ∧ t.claim ≠ 0 ∧ t.Runs c0 { reads := [8, 9], writes := [9] } ∧ isAnyC (12#5).toNat = true ∧ 8 ≤ fmtWidth (12#5).toNat ∧ (t.rd 8).toNat % 4 = 0
    ∧ OwnBytes s t (t.rd 8) (min (t.rd 9).toNat 65535 * 4) ∧ (t.vr 1).fmt = 12 ∧ (∀ r ∈ (t.vr 1).runs, r.value.toNat < 2 ^ 32) ∧ OwnBytes s t (t.rd 8) (min (t.rd 9).toNat (t.vr 1).len * 4 + 1) :=
  ⟨issues_one _, by unfold Thread.Runs OwnBytes; and_intros <;> decide +kernel⟩
/-- A hit, a miss, an address too high; descriptors that are good, and bad in each field; entries 127 and 128. -/
theorem witness_LocalDirectory : let t := run [(8, 0x1000), (7, 0x1FF00503)]
    let s := one (task [(8, 0x1000), (7, 0x1FF00503)])
    let e : Nat × DirEntry := (3, ⟨0x1000, 0, 0, 0x200⟩)
    let dir := [e]
    Issues s t ∧ t.Runs c0 { reads := [8], writes := [5] } ∧ t.Runs c0 { reads := [8, 7], writes := [5] } ∧ t.Runs c0 { reads := [8] } ∧ 2 ^ 52 ≤ (0x10000000000000#64).toNat ∧ (t.rd 8).toNat < 2 ^ 52
    ∧ dir.find? (fun e => e.2.ctag == t.ctag && e.2.va / 2 ^ (8 + e.2.size) == (t.rd 8).toNat / 2 ^ (8 + e.2.size)) = some e ∧ (∀ e ∈ (s.core s.k).dir, e.1 = 3)
    ∧ 5 < bits (0x600#64) 8 3 ∧ bits (0x80#64) 7 1 ≠ 0 ∧ (bits (0x500#64) 8 3 = 5 ∧ bits (0x0000000000500#64) 16 17 + 2 ^ 13 ≤ Config.localSize) ∧ (1#64).toNat < 2 ∧ (0xFFFF#64).toNat < 2 ^ 16
    ∧ (127#64).toNat < 128 ∧ 128 ≤ (128#64).toNat :=
  ⟨issues_one _, by unfold Thread.Runs; and_intros <;> decide +kernel⟩

/-- A request from a thread of core `c` of module `m` to core 0 of this module. -/
def ask (typ : ReqType) (m : Nat) (dst : Endpoint) : Request :=
  ⟨typ, ⟨0, m, 0, 7⟩, dst, true, 9, 1, 0, 0, 0x100, 0, 0, 3, [0, 0], [], 0, 0, 1, 0, 0, 4⟩
def core0 : Endpoint := ⟨0, 0, 0, 0⟩
def waiting1 (posted : Bool) : PendReq := ⟨ask .write 0 core0, posted, 0, 0, 0, 0, false, false, []⟩
def unknown1 (told : Bool) : UnkEntry := ⟨1, 0, 1, none, some core0, told⟩
/-- One that came back from a frame: its owner is not known. -/
def restored1 : UnkEntry := ⟨1, 0, 1, none, none, false⟩
/-- Nothing open; a posted request that the scope covers; an entry that is told, and one that is not; the selectors 0 to 4. -/
theorem witness_FencesAndRemoteState : let t := run []
    let p := { t with reqs := [waiting1 true] }
    Issues (one (task [])) t ∧ Issues (one { task [] with reqs := [waiting1 true] }) p ∧ t.Runs c0 {} ∧ t.Runs c0 { reads := [8], writes := [5] }
    ∧ t.posted.any (fun p => (one (task [])).covers 0 3 p.req.dst) = false ∧ t.unk.all UnkEntry.reported = true
    ∧ p.posted.any (fun p => (one (task [])).covers 0 1 p.req.dst) = true ∧ (unknown1 false).reported = false ∧ (one (task [])).covers 0 7 core0 = true
    ∧ { t with unk := [unknown1 true, unknown1 false] }.unk.find? (fun u => !u.reported) = some (unknown1 false) ∧ restored1.owner = none ∧ restored1.reported = false ∧ (unknown1 false).owner ≠ none ∧ t.engs = [] ∧ { t with engs := [⟨.copy, 1, 0, 0, 0, 0⟩] }.engs ≠ [] ∧ t.reqs = [] ∧ p.reqs ≠ []
    ∧ (one (task [])).cycle < (t.waitStart.getD (0, 0)).1 + t.synclim ∧ 4 ≤ (4#64).toNat :=
  ⟨issues_one _, issues_one _, by unfold Thread.Runs; and_intros <;> decide +kernel⟩
/-- Ctags 0 and 9 LIVE, 8 of depth 7, 7 with a child, 6 free; flags 3 and 4. -/
def ctagged (t : Thread) : State := { one t with ctags := [(2, ⟨.live, 7, 2, 0, false, false, none⟩), (7, ⟨.live, 0, 1, 0, true, true, none⟩), (8, ⟨.live, 7, 7, 0, false, false, none⟩), (9, ⟨.live, 0, 1, 0, false, false, none⟩)] }
theorem issues_ctagged (t : Thread) : Issues (ctagged t) (t.begin 0 0) := ⟨t, rfl, rfl⟩
theorem witness_CanopyWords : let t := run [(6, 9), (7, 2)]
    let s := (ctagged (task [(6, 9), (7, 2)])).put t
    Issues (ctagged (task [(6, 9), (7, 2)])) t ∧ Accepts (ctagged (task [(6, 9), (7, 2)])) t .ctagAlloc ∧ (ctagged (task [(6, 9), (7, 2)])).NoDelay ∧ (ctagged (task [(6, 9), (7, 2)])).OwnStream t ∧ t.sendWait 1 0 = none ∧ t.Runs c0 { reads := [6, 7], writes := [5] } ∧ t.Runs c0 { reads := [6], writes := [5] } ∧ t.Runs c0 { reads := [6, 7] } ∧ t.engs.length < 64
    ∧ (9 < 65536 ∧ s.ctagState 9 = .live ∧ (s.ctagRec 9).guest = t.guest) ∧ s.ctagState 6 ≠ .live ∧ ((3#64).toNat < 4 ∧ ¬ (4#64).toNat < 4 ∧ (2#64).getLsbD 1 = true)
    ∧ (s.ctagRec 8).depth = 7 ∧ (s.ctagRec 9).depth ≠ 7 ∧ (1 ≤ 65535 ∧ 65535 < 65536 ∧ s.ctagState 65535 = .free) ∧ 65536 ≤ (65536#64).toNat
    ∧ (bits (0x17FF0#64) 17 15 = 0 ∧ bits (0x17FF0#64) 0 4 = 0 ∧ bits (0x17FF0#64) 0 17 < 0x18000) ∧ bits (0x17FF8#64) 0 4 ≠ 0
    ∧ s.ctagBusy 0 t 9 true = false ∧ s.ctagBusy 0 { t with engs := [⟨.copy, 1, 0, 0, 9, 0⟩] } 9 true = true ∧ s.hasKids 7 = true ∧ s.hasKids 9 = false ∧ s.dropsKid 9 = false
    ∧ ({ s with drops := [⟨2, [2], none, false⟩] } : State).dropsKid 7 = true :=
  ⟨issues_ctagged _, accepts_of (by decide +kernel), noDelay_of (by decide +kernel), by unfold Thread.Runs State.OwnStream; and_intros <;> decide +kernel⟩
/-- Every ctag LIVE, so that none is free. -/
theorem find_all {α : Type} (r : α) (n : Nat) : ∀ l : List Nat, n ∈ l → Tab.find n (l.map (fun i => (i, r))) = some r
  | [], h => by cases h
  | a :: l, h => by
    by_cases e : a = n
    · simp [Tab.find, e]
    · rcases List.mem_cons.1 h with h | h
      · exact absurd h.symm e
      · simpa [Tab.find, e] using find_all r n l h
def exhausted (t : Thread) : State := { one t with ctags := (List.range' 0 65536).map (fun i => (i, ⟨.live, 0, 1, 0, false, false, none⟩)) }
theorem exhausted_state (t : Thread) (n : Nat) (h : n < 65536) : (exhausted t).ctagState n = .live := by
  have e : (exhausted t).ctags.find n = some ⟨.live, 0, 1, 0, false, false, none⟩ := find_all _ n _ (by simp [List.mem_range']; omega)
  by_cases z : n = 0 <;> simp [State.ctagState, State.ctagRec, e, z, Ctag.root]
theorem witness_CanopyWords_exhausted : let t := run []
    Issues (exhausted (task [])) t ∧ t.sendWait 1 0 = none ∧ (exhausted (task [])).NoDelay ∧ Accepts (exhausted (task [])) t .ctagAlloc ∧ (exhausted (task [])).OwnStream t ∧ t.Runs c0 { reads := [6, 7], writes := [5] }
    ∧ (0 < 65536 ∧ (exhausted (task [])).ctagState 0 = .live ∧ (0 = 0 ∨ True)) ∧ ((0#64).toNat < 4 ∧ ¬ ((0#64).getLsbD 1 = true ∧ (0 : Word) = 0)) ∧ ((exhausted (task [])).ctagRec 0).depth ≠ 7 ∧ ∀ n, ¬ (1 ≤ n ∧ n < 65536 ∧ (exhausted (task [])).ctagState n = .free) := by
  refine ⟨⟨task [], rfl, rfl⟩, by decide +kernel, noDelay_of (by decide +kernel), accepts_of (by decide +kernel), by unfold State.OwnStream; decide +kernel, by unfold Thread.Runs; decide +kernel,
    ⟨by decide, exhausted_state _ 0 (by decide), .inl rfl⟩, by decide, by decide +kernel, ?_⟩
  rintro n ⟨-, h, e⟩
  rw [exhausted_state _ n h] at e
  cases e
/-- An aligned and a misaligned address, a ctag that is good and one that is not; a table in DRAM, with the coordinate of the worked example. -/
def table : List Byte := leBytes 4 4 ++ leBytes 4 8 ++ leBytes 2 2 ++ leBytes 2 4 ++ leBytes 4 16 ++ [4, 0, 0, 0] ++ leBytes 4 0x4514 ++ leBytes 4 0x1000 ++ leBytes 4 0
def tabled (t : Thread) : State := let s := paged 0 { t with dtbase := 0x3000 }; { s with mem := writeBytes s.mem 0x3000 table }
def tabledRun (l : List (Nat × Word)) : Thread := { task l with dtbase := 0x3000, ptbase := 0x1000 }.begin 0 0
theorem issues_tabled (l : List (Nat × Word)) : Acts (tabled (task l)) (tabledRun l) 4 := ⟨{ task l with dtbase := 0x3000, ptbase := 0x1000 }, rfl, rfl⟩
def tablePieces : List Piece := [⟨0x3000, 8, 0x3000, 0⟩, ⟨0x3008, 8, 0x3008, 0⟩, ⟨0x3010, 8, 0x3010, 0⟩, ⟨0x3018, 8, 0x3018, 0⟩]
theorem witness_LoadsByCtagAndTable : let t := tabledRun [(4, 13), (5, 45), (8, loc 0x17FF8)]
    let s := tabled (task [(4, 13), (5, 45), (8, loc 0x17FF8)])
    Acts s t 4 ∧ s.NoDelay ∧ t.Runs c0 { reads := [8, 7], writes := [6] } ∧ t.Runs c0 { reads := [4, 5], writes := [10, 11] } ∧ OwnBytes s t (loc 0x17FF8) 8 ∧ bits (loc 0x17FF8) 0 3 = 0 ∧ bits (loc 0x17FF1) 0 3 ≠ 0
    ∧ (s.put t).ctagOk 0 t.guest = true ∧ (s.put t).ctagOk 9 t.guest = false ∧ bits t.dtbase 0 8 = 0 ∧ t.dtbase.toNat < 2 ^ 52 ∧ bits (0x3080#64) 0 8 ≠ 0 ∧ (10#6).toNat ≤ 62
    ∧ (s.put t).tableParts s.k t (t.dtbase + 0) = .ok tablePieces ∧ (∀ p ∈ tablePieces, p.isOwn = false ∧ isDram p.pa = true ∧ windowOf p.pa = none ∧ moduleOf p.pa = s.moduleNo ∧ p.pa < 2 ^ 64 ∧ p.ctag = 0)
    ∧ (∀ p ∈ tablePieces, ∀ w ∈ wordsOf (p.pa % 2 ^ 44) p.size, w ∉ s.eccOne ∧ w ∉ s.eccBad) ∧ touching t tablePieces = []
    ∧ tablePieces.flatMap (fun p => readBytes s.mem (p.pa % 2 ^ 44) p.size) = table
    ∧ (s.put t).access s.k t.ptbase 0 ⟨true, false, false, false⟩ 0x3000 8 = .ok [herePiece] ∧ (s.readPiece herePiece).2 = some (table.take 8) :=
  ⟨issues_tabled _, noDelay_of (by decide +kernel), by unfold Thread.Runs OwnBytes; and_intros <;> decide +kernel⟩
/-- The worked table is legal; with a width of 3 bytes it is not; its last row and column, and one beyond. -/
theorem witness_LoadsByCtagAndTable_fields : (1 ≤ field table 0 4 ∧ 1 ≤ field table 4 4 ∧ 1 ≤ field table 8 2 ∧ field table 8 2 ≤ 80 ∧ 1 ≤ field table 10 2 ∧ field table 10 2 ≤ 128 ∧ 1 ≤ field table 12 4)
    ∧ field table 16 1 ∈ [1, 2, 4, 8, 16] ∧ 3 ∉ [1, 2, 4, 8, 16] ∧ field table 17 3 = 0 ∧ (field table 20 4 < 2 ^ 18 ∧ field table 20 4 % 16384 < 10240) ∧ field table 24 4 < 0x18000 ∧ field table 28 4 = 0
    ∧ (field table 20 4 % 16384 / 128 + 13 / 4 % 2 ≤ 79 ∧ field table 20 4 % 16384 % 128 + 45 / 8 % 4 ≤ 127 ∧ 45 / 8 / 4 * 8 + 45 % 8 < 16) := by and_intros <;> decide
def copyRegs (n : Nat) : List Reg := (List.range n).map (fun j => 8 + BitVec.ofNat 6 j)
/-- A block that is good, one whose length is 2^32, and one between two DRAM ranges; a free tag. -/
theorem witness_CopyWords :
    let z := run [(8, loc 0x100), (9, loc 0x200), (10, 0), (11, 0x40)]
    Issues (one (task [(8, loc 0x100), (9, loc 0x200), (10, 0), (11, 0x40)])) z ∧ z.Runs c0 { roOk := false, reads := copyRegs 4, writes := [5] } ∧ z.Runs c0 { roOk := true, reads := copyRegs 5, writes := [5] } ∧ z.Runs c0 { writes := [5] }
    ∧ copyBad 0 (z.block 8 4) = none ∧ (copyBad 0 ((run [(10, 0x100000000)]).block 8 4)).isSome = true ∧ (one (task [])).ctagOk z.ctag z.guest = true ∧ (one (task [])).ctagOk 9 z.guest = false ∧ z.engs.length < 64
    ∧ z.sendWait 1 0 = none ∧ (0 < 32 ∧ ((one (task [])).core 0).copies.find 0 = none) ∧ (0xFFFFFFFF#64).toNat < 2 ^ 32 ∧ 2 ^ 32 ≤ (0x100000000#64).toNat ∧ (0x1000#64).getLsbD 63 = false ∧ z.Runs c0 { reads := [8], writes := [5] } :=
  ⟨issues_one _, by unfold Thread.Runs; and_intros <;> decide +kernel⟩
def copyEnv : Env := ⟨0, 0, 0, 1, 0, 1, 0, 0, 0, 0, 0⟩
def copying (got : List (Option Byte)) : CopyCmd := ⟨copyEnv, 0, [loc 0x100, loc 0x200, 16, 0x40], 1, 0x40, 0, none, got, [], 0, [], 0, none, [], [], (0, 0), none, 0, false⟩
def copyState (got : List (Option Byte)) : State := { one (task []) with cores := [(0, { Core.reset with threads := [(0, task [])], copies := [(0, copying got)] })] }
/-- A gather whose part begins: its list entry of 4 bytes at the start of the store. -/
def gathering : CopyCmd := { copying [] with f := 2, regs := [loc 0x100, loc 0x200, loc 0x400, BitVec.ofNat 64 (2 * 2 ^ 20 + 16), 0x40] }
def gatherState : State := { one (task []) with cores := [(0, { Core.reset with threads := [(0, task [])], copies := [(0, gathering)] })] }
/-- A copy of 16 bytes: none read, and all read; a destination that runs past the end of the store; a part that begins with its list entry. -/
theorem witness_CopyCommandsAndObjects : let s := copyState []
    let d := copyState (List.replicate 16 (some 7))
    let far : CopyCmd := { copying (List.replicate 16 (some 7)) with regs := [loc 0x17FF8, loc 0x200, 16, 0x40] }
    (s.core 0).copies.find 0 = some (copying []) ∧ (copying []).wait = none ∧ (copying []).next < unitCount (copying []).f (copying []).regs ∧ (copying []).wantsIndex = false
    ∧ ((copying []).piece = [] ∧ (copying []).fetch = 0 ∧ (copying []).got.length < (copying []).unit.n ∧ isLocal ((copying []).unit.src + 0) = true ∧ bits ((copying []).unit.src + 0) 0 17 + 16 ≤ 0x18000)
    ∧ (∀ w ∈ wordsOf (localKey 0 0x200) 16, w ∉ s.eccOne ∧ w ∉ s.eccBad)
    ∧ (d.core 0).copies.find 0 = some (copying (List.replicate 16 (some 7))) ∧ (copying (List.replicate 16 (some 7))).got.length = (copying (List.replicate 16 (some 7))).unit.n
    ∧ isLocal (copying []).unit.dst = true ∧ bits (copying []).unit.dst 0 17 + (copying []).unit.m ≤ 0x18000 ∧ (∀ b ∈ (copying (List.replicate 16 (some 7))).got, b.isSome = true) ∧ (∀ x ∈ d.cores, x.2.waiters = [])
    ∧ (copying []).high.1 ≤ (copying []).unit.dst.toNat ∧ (copying []).lost = []
    ∧ far.got.length = far.unit.n ∧ isLocal far.unit.dst = true ∧ badByte far.unit.dst far.unit.m = some (loc 0x18000)
    ∧ (gatherState.core 0).copies.find 0 = some gathering ∧ gathering.wait = none ∧ gathering.next < unitCount gathering.f gathering.regs ∧ gathering.wantsIndex = true
    ∧ ∀ w ∈ wordsOf (localKey 0 0x400 + 0 * geoIdx gathering.regs) (geoIdx gathering.regs), w ∉ gatherState.eccOne ∧ w ∉ gatherState.eccBad := by
  and_intros <;> decide +kernel

def withCore (t : Thread) (f : Core → Core) : State := { one t with cores := [(0, f { Core.reset with threads := [(0, t)] })] }
theorem issues_core (t : Thread) (f : Core → Core) (h : (f { Core.reset with threads := [(0, t)] }).threads = [(0, t)]) : Issues (withCore t f) (t.begin 0 0) := by
  refine ⟨t, ?_, rfl⟩
  show ((f { Core.reset with threads := [(0, t)] }).threads).find 0 = some t
  rw [h]; rfl
/-- The same thread as its word acts, 4 cycles after its issue. -/
def later (t : Thread) : Thread := { t with status := .acting 0 0 }
theorem acts_core (t : Thread) (f : Core → Core) (h : (f { Core.reset with threads := [(0, t)] }).threads = [(0, t)]) : Acts (withCore t f) (t.begin 0 0) 4 := by
  refine ⟨t, ?_, rfl⟩
  show ((f { Core.reset with threads := [(0, t)] }).threads).find 0 = some t
  rw [h]; rfl
theorem acts_later (l : List (Nat × Word)) (f : Core → Core) (h : (f { Core.reset with threads := [(0, later (task l))] }).threads = [(0, later (task l))]) (e : (later (task l)).begin 0 0 = run l) :
    Acts (withCore (later (task l)) f) (run l) 4 := e ▸ acts_core (later (task l)) f h
/-- The last slot free, owned, and named by a command; a mask that is too wide; a machine with and without an accumulator. -/
def slot15 (c : Core) : Core := { c with ops := c.ops.set 15 { OpSlot.reset with owner := some 0 }, acount := 1 }
theorem witness_MatrixOwnershipWords : let t := run [(6, 0x8000)]
    let s := withCore (task [(6, 0x8000)]) id
    let o := withCore (task [(6, 0x8000)]) slot15
    let h := withCore (task [(6, 0x8000)]) (fun c => { slot15 c with holder := some 0, cap := 3 })
    let held := fun (c : Core) => ({ slot15 c with holder := some 0, cap := 3 } : Core)
    let a := withCore (later (task [(6, 0x8000)])) held
    let q := withCore (task [(6, 0x8000)]) (fun c => { held c with mq := [⟨copyEnv, false, [], 0, 5, []⟩] })
    Issues s t ∧ Issues o t ∧ Issues h t ∧ Acts a t 4 ∧ Acts q t 0 ∧ (a.actsNow = true ∧ h.actsNow = false ∧ q.actsNow = false ∧ (q.core 0).mq ≠ [] ∧ t.waitStart = none ∧ (h.core 0).mq = []) ∧ OwnBytes a t (loc 0x17C00) 1024 ∧ (s.core 0).ops.length = 16 ∧ (o.core 0).ops.length = 16 ∧ t.Runs c0 { reads := [6], writes := [5] } ∧ t.Runs c0 { reads := [6] } ∧ t.Runs c0 { writes := [5] }
    ∧ bits (t.rd 6) 16 48 = 0 ∧ bits (0x10000#64) 16 48 ≠ 0 ∧ (0x18000#64).getLsbD 15 = true ∧ (t.rd 6).getLsbD 15 = true ∧ ((s.core 0).op 15).owner = none ∧ ((o.core 0).op 15).owner = some 0 ∧ (o.core 0).slotNamed 15 = false
    ∧ (s.core 0).acount = 0 ∧ (o.core 0).acount ≠ 0 ∧ (o.core 0).mq = [] ∧ (o.core 0).caps.length ≤ 65536 ∧ (s.core 0).holder ≠ some 0 ∧ (h.core 0).holder = some 0 ∧ isLocal 0x17C00 = false
    ∧ OwnBytes h t (loc 0x17C00) 1024 ∧ (loc 0x17C00).toNat % 16 = 0 ∧ OwnBytes h t (loc 0x17BF8) 1024 ∧ (loc 0x17BF8).toNat % 16 ≠ 0 :=
  ⟨issues_core _ _ rfl, issues_core _ _ rfl, issues_core _ _ rfl, acts_later _ _ rfl (by decide +kernel), issues_core _ _ rfl, by unfold Thread.Runs OwnBytes; and_intros <;> decide +kernel⟩
def mcmd (k : Nat) : MCmd := ⟨copyEnv, false, [0, 3, BitVec.ofNat 64 (2 ^ 56 + 6 * 2 ^ 29 + 6 * 2 ^ 24 + 16 * 2 ^ 15 + 16 * 2 ^ 10 + k * 2 ^ 4), 0x40], 16777216, 5, []⟩
theorem witness_MatrixOwnershipWords_named : (slot15 { Core.reset with mq := [{ mcmd 32 with regs := [0, 3, BitVec.ofNat 64 (15 * 2 ^ 60 + 14 * 2 ^ 56 + 6 * 2 ^ 29 + 6 * 2 ^ 24 + 16 * 2 ^ 15 + 16 * 2 ^ 10 + 512), 0x40] }] }).slotNamed 15 = true ∧ ([mcmd 32] : List MCmd) ≠ [] := by decide +kernel
theorem noCommands_of {c : Core} (h : c.threads.all (fun p => decide (p.2.draining = none) && decide (p.2.status = .ready)) = true) :
    ∀ p ∈ c.threads, p.2.draining = none ∧ ∀ u l, p.2.status ≠ .parked (.commands u l) := by
  intro p hp
  obtain ⟨a, b⟩ := Bool.and_eq_true_iff.mp (List.all_eq_true.mp h p hp)
  exact ⟨of_decide_eq_true a, fun u l e => by rw [of_decide_eq_true b] at e; cases e⟩
/-- E4M3 × E4M3 on the own unit with its capability, for another module, and with a wrong one; each field of the word at its ends. -/
theorem witness_MatrixCommandWords : let l : List (Nat × Word) := [(8, 0), (9, 3), (10, 0x0100400CC6084200), (11, 0x40)]
    let t := run l
    let hold := fun (c : Core) => ({ c with holder := some 0, cap := 3, acount := 2 } : Core)
    let s := withCore (task l) hold
    let w := t.rd 10
    Issues s t ∧ Accepts s t (.core s.k) ∧ s.NoDelay ∧ (∀ p ∈ (s.core 0).threads, p.2.draining = none ∧ ∀ u l, p.2.status ≠ .parked (.commands u l)) ∧ (s.put t).ackOf t.stream = t.ackw ∧ t.engs.length < 64 ∧ t.sendWait 1 0 = none ∧ t.Runs c0 { reads := [8, 9, 10, 11] }
    ∧ (bits (t.rd 8) 52 12 = 0 ∧ bits (t.rd 8) 18 14 = 0 ∧ bits (t.rd 8) 0 14 < 10240) ∧ bits (10239#64) 0 14 < 10240 ∧ ¬ bits (10240#64) 0 14 < 10240 ∧ bits (t.rd 8) 32 20 = s.moduleNo ∧ bits (0x500000000#64) 32 20 ≠ s.moduleNo
    ∧ (t.rd 9).toNat < 2 ^ 32 ∧ 2 ^ 32 ≤ (0x100000000#64).toNat ∧ (t.rd 9).toNat = (s.core 0).cap.toNat ∧ t.rd 9 ≠ 0
    ∧ (bits w 0 2 = 0 ∧ bits w 15 5 = 16 ∧ bits w 10 5 = 16 ∧ bits w 4 6 = 32 ∧ bits w 60 4 + slotsOf (bits w 29 5) ≤ 16 ∧ bits w 56 4 + slotsOf (bits w 24 5) ≤ 16) ∧ bits w 46 2 < (s.core 0).acount
    ∧ w.getLsbD 21 = false ∧ w.getLsbD 20 = false ∧ w.getLsbD 23 = false ∧ macRate (bits w 29 5) ≠ 0 ∧ pairOk (bits w 29 5) (bits w 24 5) = true ∧ macRate 10 = 0
    ∧ refBad (t.rd 11) = false ∧ (s.core 0).sends = [] ∧ (s.core 0).sealed = false ∧ (s.core 0).mq.length < 8 ∧ 0 < t.synclim ∧ t.synclim < 2 ^ 64
    ∧ (bits (0#64) 16 48 = 0 ∧ bits (1#64) 0 2 < (s.core 0).acount ∧ bits (4#64) 2 2 < (s.core 0).acount) ∧ (s.core 0).holder = some 0 ∧ (s.core 0).redbuf = [] ∧ bits (1#64) 4 12 = (s.core 0).kbOf 0 ∧ (s.core 0).nextKb.length = 4
    ∧ (∀ w ∈ (s.core 0).waiters, w.typ ≠ .mma ∧ w.typ ≠ .mred) ∧ (s.core 0).applied 1 = true ∧ (s.core 0).applied 0 = true ∧ ({ s.core 0 with mq := [mcmd 32] } : Core).applied 0 = false
    ∧ (∀ x ∈ wordsOf (accErr 0 0) 0x1000 ++ wordsOf (accErr 0 1) 0x1000, x ∉ s.eccOne ∧ x ∉ s.eccBad) ∧ t.waitStart = none ∧ isWide 6 = false ∧ bits w 29 5 ≠ 20 ∧ bits w 29 5 ≠ 21 :=
  ⟨issues_core _ _ rfl, accepts_of (by decide +kernel), noDelay_of (by decide +kernel), noCommands_of (by decide +kernel), by unfold Thread.Runs; and_intros <;> decide +kernel⟩
/-- B32 panels of four slots by rows, and E4M3 with scales; a pitch one too small; a slot that is full. -/
def filled (n : Nat) (c : Core) : Core := { c with ops := (List.range 16).map (fun i => { OpSlot.reset with owner := some 0, full := decide (i < n) }) }
theorem witness_OperandFill : let l : List (Nat × Word) := [(8, loc 0x100), (9, BitVec.ofNat 64 (32 * 2 ^ 48 + 6 * 2 ^ 32)), (10, 0)]
    let t := run l
    let s := withCore (task l) (filled 0)
    let f := withCore (task l) (filled 1)
    let ctl := t.rd 9
    Acts s t 4 ∧ Acts f t 4 ∧ (s.core 0).ops.length = 16 ∧ t.Runs c0 { reads := [8, 9, 10] } ∧ macRate (bits ctl 32 5) ≠ 0 ∧ (bits ctl 37 3 = 0 ∧ bits ctl 0 32 = 0)
    ∧ ctl.getLsbD 43 = false ∧ ctl.getLsbD 42 = false ∧ ((if false == false then 32 else 16) * panelWidth (bits ctl 32 5) + 7) / 8 = bits ctl 48 16 ∧ 31 < 32 ∧ bits ctl 44 4 + slotsOf (bits ctl 32 5) ≤ 16
    ∧ (∀ i < 16, ((s.core 0).op i).owner = some 0) ∧ ((one (task [])).core 0).op 0 = OpSlot.reset ∧ OpSlot.reset.owner ≠ some 0 ∧ ctl.getLsbD 41 = false ∧ OwnBytes s t (loc 0x100) (15 * 32 + 32)
    ∧ (loc 0x100).toNat % 1 = 0 ∧ ((f.core 0).op 0).full = true ∧ (∀ i < 16, ((s.core 0).op i).full = false) ∧ ctl.getLsbD 40 ≠ true ∧ OwnBytes s t (loc 0x17FF0) 16 ∧ panelWidth 6 ≤ 8 ∧ (0x10000000000#64).getLsbD 40 = true
    ∧ s.cycle < (t.waitStart.getD (s.cycle, 0)).1 + t.synclim :=
  ⟨acts_core _ _ rfl, acts_core _ _ rfl, by unfold Thread.Runs OwnBytes; and_intros <;> decide +kernel⟩
def drains (c : Core) : Core := { c with holder := some 0, cap := 3, acount := 1 }
/-- B32 with a pitch of 64 bytes by the holder, as it issues and as it acts, with and without the scale flags, and with a command of its sub-tile in the queue; an accumulator that raises a flag, and a format that is not drained. -/
theorem witness_AccumulatorDrain : let l : List (Nat × Word) := [(8, loc 0x17C00), (9, BitVec.ofNat 64 (64 * 2 ^ 48 + 2 * 2 ^ 8)), (10, 0), (11, 0)]
    let t := run l
    let s := withCore (task l) drains
    let a := withCore (later (task l)) drains
    let q := withCore (task l) (fun c => { drains c with mq := [mcmd 32] })
    let ctl := t.rd 9
    let rc := BitVec.ofNat 64 (64 * 2 ^ 48 + 2 ^ 19 + 2 ^ 18 + 2 * 2 ^ 8)
    Issues s t ∧ Acts a t 4 ∧ Issues q t ∧ (s.actsNow = false ∧ a.actsNow = true ∧ q.actsNow = false ∧ t.waitStart = none ∧ (q.core 0).commandsDone 0 ((q.core 0).naming 0) = false ∧ (s.core 0).commandsDone 0 ((s.core 0).naming 0) = true)
    ∧ (rc.getLsbD 19 = true ∧ rc.getLsbD 18 = true ∧ bits rc 20 28 = 0 ∧ 2 * fmtWidth (bits rc 8 5) = bits rc 48 16) ∧ OwnBytes a t (loc 0x100) 64 ∧ OwnBytes a t (loc 0x17FC0) 64 ∧ t.Runs c0 { reads := [8 + 0#6, 8 + 1#6] } ∧ t.Runs c0 { reads := [8 + 0#6, 8 + 1#6, 8 + 2#6, 8 + 3#6] } ∧ ctl.getLsbD 19 = false ∧ ctl.getLsbD 18 = false ∧ t.rd 10 = 0 ∧ t.rd 11 = 0
    ∧ (bits ctl 20 28 = 0 ∧ bits ctl 13 3 = 0 ∧ bits ctl 2 3 = 0 ∧ bits ctl 0 2 < (s.core 0).acount ∧ bits ctl 5 3 ≤ 5 ∧ 2 * fmtWidth (bits ctl 8 5) = bits ctl 48 16) ∧ bits ctl 8 5 ∈ drainFmts ∧ (s.core 0).holder = some 0
    ∧ ((one (task [])).core 0).holder ≠ some 0 ∧ OwnBytes s t (loc 0x17C00) (15 * 64 + 64) ∧ (loc 0x17C00).toNat % 4 = 0 ∧ 64 % 4 = 0 ∧ (s.core 0).mq = [] ∧ (s.core 0).redbuf = [] ∧ (s.core 0).waiters = [] ∧ (∀ x ∈ wordsOf (accErr 0 0) 0x1000, x ∉ s.eccOne ∧ x ∉ s.eccBad)
    ∧ (s.core 0).nextKb.length = 4 ∧ (drainElem 2 ⟨1, false, false, false⟩ none none (BitVec.ofNat 128 (2 ^ 112))).2 &&& { t with fpcsr := 0x7F01 }.enables ≠ 0
    ∧ (drainElem 2 ⟨1, false, false, false⟩ none none 0).2 &&& t.enables = 0 :=
  ⟨issues_core _ _ rfl, acts_later _ _ rfl (by decide +kernel), issues_core _ _ rfl, by unfold Thread.Runs OwnBytes; and_intros <;> decide +kernel⟩

/-- A unit whose head waits, runs, or forwards; its slots full, not owned, or of another format; K-blocks in order, late and early. -/
def unit (phase : MPhase) (cmd : MCmd) (fullSlots : Bool) (owner : Option Nat) (kb : Nat) : State :=
  withCore (task []) (fun c => { c with mq := [cmd], phase := phase, acount := 1, cap := 3, nextKb := [kb, 0, 0, 0]
                                        ops := (List.range 16).map (fun i => { OpSlot.reset with owner := owner, full := fullSlots, fmt := 6, roleB := decide (i = 1) }) })
theorem witness_MatrixUnitSteps : let s := unit (.waiting 0) (mcmd 32) true (some 0) 0
    let e := unit (.waiting 0) (mcmd 32) false (some 0) 0
    let l := unit (.waiting 0) (mcmd 32) true (some 0) 1
    let z := unit (.waiting 0) (mcmd 0) true (some 0) 0
    let m := mcmd 32
    (s.core 0).mq = [m] ∧ m.env.module = s.moduleNo ∧ m.mred = false ∧ m.rows = 16 ∧ m.cols = 16 ∧ (s.core 0).ops.length = 16 ∧ (s.core 0).nextKb.length = 4 ∧ (s.core 0).redbuf = [] ∧ (∀ i ∈ m.slots, i < 16)
    ∧ (∀ i < 16, ((s.core 0).op i).owner ≠ some 16) ∧ (s.core 0).phase = .waiting 0 ∧ (m.word.getLsbD 21 = false ∧ m.word.getLsbD 20 = false ∧ m.word.getLsbD 22 = false)
    ∧ (∀ i ∈ m.slots, ((s.core 0).op i).full = true) ∧ ((e.core 0).op 0).full = false ∧ (∀ i ∈ m.slots, ((s.core 0).op i).owner ≠ none) ∧ (((unit (.waiting 0) m true none 0).core 0).op 0).owner = none
    ∧ bits m.word 34 12 = (s.core 0).kbOf (bits m.word 46 2) ∧ bits m.word 34 12 < (l.core 0).kbOf (bits m.word 46 2) ∧ (s.core 0).blocked m = false ∧ m.depth ≠ 0 ∧ (mcmd 0).depth = 0 ∧ (z.core 0).mq = [mcmd 0]
    ∧ (s.core 0).descsOk m = true ∧ ((withCore (task []) (fun c => { c with ops := (s.core 0).ops.set 0 OpSlot.reset })).core 0).descsOk m = false ∧ 0 < macRate m.afmt ∧ s.cycle < 0 + m.limit ∧ 0 + m.limit ≤ { s with cycle := 16777216 }.cycle
    ∧ ((unit (.running 100) m true (some 0) 0).core 0).phase = .running 100 ∧ s.cycle < 100 ∧ (unit (.waiting 0) (mcmd 0) true (some 0) 0).core 0 = z.core 0 ∧ (mcmd 0).slots = []
    ∧ ((m.slots.map (fun i => (slotErr 0 i, 1024))) ++ [(accErr 0 0, 0x1000)]).all (fun x => (wordsOf x.1 x.2).all (fun n => !s.eccBad.contains n)) = true ∧ m.sub = 0
    ∧ ((m.slots.map (fun i => (slotErr 0 i, 1024))) ++ [(accErr 0 0, 0x1000)]).all (fun x => (wordsOf x.1 x.2).all (fun n => !({ s with eccBad := [accErr 0 0 / 8] } : State).eccBad.contains n)) = false
    ∧ ({ s.core 0 with threads := [(1, { task [] with status := .parked (.commands 0 []) })] } : Core).blocked m = true := by and_intros <;> decide +kernel
theorem witness_MatrixUnitSteps_forward : let f := unit (.forwarding none false (some 0) none) (mcmd 32) true (some 0) 0
    let s := { f with cores := f.cores ++ [(1, { Core.reset with ops := (List.range 16).map (fun _ => { OpSlot.reset with owner := some 0 }) })] }
    (s.core 0).phase = .forwarding none false (some 0) none ∧ isService 0 = false ∧ colOf 0 < 127 ∧ colOf 126 < 127 ∧ ¬ colOf 127 < 127 ∧ (mcmd 32).depth ≠ 0 ∧ (s.core 1).ops.length = 16 ∧ ((s.core 1).op 0).owner ≠ none ∧ ((s.core 1).op 0).full = false := by
  and_intros <;> decide +kernel
def sending (idle : Bool) : PendReq := ⟨{ ask .mma 0 core0 with words := [0, 3, 0, 0x40] }, true, 0, 0, 0, 0, idle, false, []⟩
theorem witness_MatrixUnitSteps_limit : let s := withCore (task []) (fun c => { c with sends := [sending true] })
    s.findSend 4 = some (0, sending true) ∧ (sending true).req.tag = 4 ∧ (sending true).req.src.module = s.moduleNo ∧ 4 ≤ (sending true).req.words.length ∧ (sending true).idle = true ∧ (sending false).idle = false
    ∧ (s.core 0).sends = [sending true] := by and_intros <;> decide +kernel
/-- A group of two; the operations 4 and 5; counts of 1 and 4,096; the end of the store. -/
def grouped (l : List (Nat × Word)) : State := { one (task l) with groups := [(0x21, ⟨10, 0, [(0, 0), (0, 1)]⟩)] }
theorem issues_grouped (l : List (Nat × Word)) : Issues (grouped l) (run l) := ⟨task l, rfl, rfl⟩
theorem witness_CollectiveWord : let l : List (Nat × Word) := [(8, 0x0003000220000021), (9, loc 0), (10, loc 0x17FFC), (11, 1), (12, 0x40)]
    let t := run l
    let s := grouped l
    let g : Group := ⟨10, 0, [(0, 0), (0, 1)]⟩
    let d := t.rd 8
    Issues s t ∧ Accepts s t (.collDie (dieOf s.k)) ∧ s.NoDelay ∧ t.engs.length < 64 ∧ t.sendWait 1 0 = none ∧ t.Runs c0 { reads := copyRegs 5, writes := [5] } ∧ s.moduleNo < 2 ^ 20 ∧ isService s.k = false ∧ 5 ≤ collOp (0x5000000000#64) ∧ collOp (0x4000000000#64) < 5
    ∧ s.groups.find 0x22 = none ∧ s.groups.find (collGroup d) = some g ∧ g.rank s.moduleNo s.k = some 0 ∧ g.guest = t.guest ∧ (∀ m ∈ g.members, m.1 = s.moduleNo) ∧ collFmtOk (collOp d) (collFmt d) = true
    ∧ (bits d 40 8 = 0 ∧ bits d 12 16 = 0 ∧ 1 ≤ collRnd d ∧ collRnd d ≤ 5) ∧ (1 ≤ (1#64).toNat ∧ (4096#64).toNat ≤ 4096) ∧ OwnBytes s t (loc 0) (4096 * 4) ∧ isLocal (loc 0x17FFC) = true ∧ bits (loc 0x17FFC) 0 17 + 1 * 1 * 4 ≤ 0x18000
    ∧ refBad 0x40 = false ∧ 1 < g.members.length ∧ s.findInst (collGroup d) (collInst d) = none :=
  ⟨issues_grouped _, accepts_of (by decide +kernel), noDelay_of (by decide +kernel), by unfold Thread.Runs OwnBytes; and_intros <;> decide +kernel⟩

/-- An instance that this member has contributed to, and one to which another member has, with another count. -/
theorem witness_CollectiveWord_mismatch : let with' := fun (c : Contribution) => { grouped [] with insts := [⟨0x21, 3, 0, [c]⟩] }
    let c := fun (r n : Nat) => (⟨r, true, copyEnv, 0x0003000220000021, n, loc 0x100, 0x40, []⟩ : Contribution)
    collGroup 0x0003000220000021 = 0x21 ∧ (with' (c 0 1)).findInst 0x21 (collInst 0x0003000220000021) = some ⟨0x21, 3, 0, [c 0 1]⟩ ∧ (∃ y ∈ [c 0 1], y.rank = 0)
    ∧ (with' (c 1 4)).findInst 0x21 (collInst 0x0003000220000021) = some ⟨0x21, 3, 0, [c 1 4]⟩ ∧ (∀ y ∈ [c 1 4], y.rank ≠ 0) ∧ (⟨0x21, 3, 0, [c 1 4]⟩ : Inst).mismatch 2 = false
    ∧ (∃ y ∈ [c 1 4], bits y.desc 28 12 ≠ bits 0x0003000220000021#64 28 12 ∨ y.count ≠ 1) ∧ copyEnv.module = (with' (c 1 4)).moduleNo := by and_intros <;> decide +kernel

/-- A request whose owner admits it: its owner's state afterwards holds the floor of its stream. -/
def freshOwner (m : Request) : OwnerSt := ⟨[], [⟨m.src.module, m.stream, m.ack, 0⟩], 0, 0⟩
theorem admits_ask (typ : ReqType) (m : Nat) (dst : Endpoint) (h : (one (task [])).parkedHere (ask typ m dst) = false) (h4 : (one (task [])).sealedFor (ask typ m dst) = false) (h2 : ownerEntries (ownerKind (ask typ m dst)) > 1) :
    Admits (one (task [])) (ask typ m dst) ((one (task [])).setOwner (ownerKind (ask typ m dst)) (freshOwner (ask typ m dst))) := by
  refine ⟨rfl, by simp [midway, Request.word, ask], h4, rfl, (by decide : (0 : Nat) ≤ 4000), h, freshOwner (ask typ m dst), 0, ?_, (by decide : 1 ≤ (1#32 - 0#32).toNat), (by decide : (1#32 - 0#32).toNat ≤ 2 ^ 16), Nat.le_refl 0, h2, rfl⟩
  show OwnerSt.updateFloor ⟨[], [], 0, 0⟩ (ownerEntries (ownerKind (ask typ m dst))) m 9 0 0 = some (⟨[], [⟨m, 9, 0, 0⟩], 0, 0⟩, 0)
  have h3 : ¬ ownerEntries (ownerKind (ask typ m dst)) ≤ 0 := by omega
  simp [OwnerSt.updateFloor, h3]
def contrib (r : Nat) : Contribution := ⟨r, true, copyEnv, 0x0003000220000021, 1, loc 0x100, 0x40, leBytes 4 0x3F800000⟩
theorem witness_CollectiveResults : [contrib 0, contrib 1].Perm [contrib 1, contrib 0] ∧ (([contrib 0, contrib 1]).map Contribution.rank).Nodup ∧ collOp (0x3000000000#64) = 3 ∧ collOp (0x0003000220000021#64) = 0
    ∧ [contrib 0] ≠ [] ∧ (collOp (0x10C0000000#64) = 1 ∧ ffmt (collFmt (0x10C0000000#64)) = none ∧ ifmt (collFmt (0x10C0000000#64)) = some (true, 32)) ∧ (collOp (0x2020000000#64) = 2 ∧ (ffmt (collFmt (0x2020000000#64))).isSome = true) ∧ collOp (0x4000000000#64) = 4 :=
  ⟨List.Perm.swap .., by and_intros <;> decide⟩
/-- A group of one, whose member's contribution its unit admits; an instance whose limit is reached. -/
def lone : Request := { ask .collc 0 ⟨3, 0, 0, 0⟩ with words := [0x0003000220000021, 0, loc 0x17FFC, 1, 0x40, 7], bytes := leBytes 4 0x3F800000 }
def loneState : State := { one (task []) with groups := [(0x21, ⟨10, 0, [(0, 7)]⟩)], insts := [⟨5, 1, 0, [contrib 0]⟩], cycle := 0 }
theorem witness_CollectiveResults_delivery : (∃ s1, Admits loneState lone s1) ∧ lone.typ = .collc ∧ lone.src.module = loneState.moduleNo ∧ isService (coreOf lone.src) = false ∧ indexOf (coreOf lone.src) < 10240 ∧ coreOf lone.src < 16 * 16384
    ∧ (loneState.groups.find 0x21).map Group.members = some [(0, coreOf lone.src)] ∧ loneState.findInst 0x21 3 = none ∧ (loneState.core 7).waiters = [] ∧ (collResult 0x0003000220000021 1 [contributionOf lone 0 (Group.list ⟨10, 0, [(0, 7)]⟩)]).1.length = 4 ∧ (contributionOf lone 0 (Group.list ⟨10, 0, [(0, 7)]⟩)).alike = true
    ∧ bits (loc 0x17FFC) 0 17 + 4 ≤ 0x18000 ∧ loneState.findInst 5 1 = some ⟨5, 1, 0, [contrib 0]⟩ ∧ 0 + 10 * 1500 ≤ { loneState with cycle := 15000 }.cycle ∧ (⟨5, 1, 0, [contrib 0]⟩ : Inst).mismatch 2 = false :=
  ⟨⟨_, rfl, by decide +kernel, by decide +kernel, by decide +kernel, by decide +kernel, by decide +kernel, ⟨[], [⟨0, 9, 0, 0⟩], 0, 0⟩, 0, by decide +kernel, by decide, by decide, by decide, by decide +kernel, rfl⟩, by and_intros <;> decide +kernel⟩
/-- Lanes 63 and 64; a lane of the guest, empty and with 16 entries; lengths of 2^24 − 1 and 2^24. -/
def laneJob0 (tab : Bool) : LaneJob := ⟨copyEnv, 0x40, tab, loc 0, 2, loc 0x100, 16⟩
def laned (l : List (Nat × Word)) (n : Nat) (tab : Bool) : State := { one (task l) with lanes := [(63, ⟨some 0, none, List.replicate n (laneJob0 tab), if n = 0 then none else some (laneJob0 tab).begin⟩)] }
theorem issues_laned (l : List (Nat × Word)) (n : Nat) (tab : Bool) : Issues (laned l n tab) (run l) := ⟨task l, rfl, rfl⟩
theorem witness_LaneWords : let l : List (Nat × Word) := [(8, 63), (9, loc 0), (10, 0xFFFFFF), (11, loc 0x100), (12, 0xFFFFFF), (13, 0x40)]
    let t := run l
    Issues (laned l 0 true) t ∧ Issues (laned l 16 true) t ∧ (Accepts (laned l 0 true) t (.channel 0 63) ∧ Accepts (laned l 16 true) t (.channel 0 63)) ∧ ((laned l 0 true).NoDelay ∧ (laned l 16 true).NoDelay) ∧ t.engs.length < 64 ∧ t.sendWait 1 0 = none ∧
    ((laned l 0 true).put t).issuer t.stream = some (0, t, false) ∧ ((laned l 16 true).put t).issuer t.stream = some (0, t, false) ∧ (∀ e ∈ t.engs, e.serial ≠ t.serial) ∧ t.Runs c0 { reads := copyRegs 3, writes := [5] } ∧ t.Runs c0 { reads := copyRegs 6, writes := [5] } ∧ t.Runs c0 { reads := [8], writes := [5] }
    ∧ (t.rd 8).toNat < 64 ∧ 64 ≤ (64#64).toNat ∧ ((laned l 0 true).lane 0 63).guest = some t.guest ∧ ((laned l 0 true).lane 0 62).guest ≠ some t.guest ∧ refBad (t.rd 13) = false ∧ refBad 8 = true
    ∧ ((laned l 0 true).lane 0 63).queue = [] ∧ ((laned l 0 true).lane 0 63).queue.length < 16 ∧ 16 ≤ ((laned l 16 true).lane 0 63).queue.length ∧ (t.rd 10).toNat < 2 ^ 24 ∧ 2 ^ 24 ≤ (0x1000000#64).toNat :=
  ⟨issues_laned .., issues_laned .., ⟨accepts_of (by decide +kernel), accepts_of (by decide +kernel)⟩, ⟨noDelay_of (by decide +kernel), noDelay_of (by decide +kernel)⟩, by unfold Thread.Runs; and_intros <;> decide +kernel⟩
/-- An image in the store that is legal, one whose header is not, and one whose map is not; a lane with and without a table. -/
def image (start : Nat) (cls : Byte) : List Byte := [1, 0, 1, 0, BitVec.ofNat 8 start, 0, 0, 0, 0, 0, 0, 0, 0, 0, 0, 0] ++ List.replicate 256 cls ++ [0, 0, 2, 0]
theorem witness_LaneSteps : let s := laned [] 1 true
    let j := laned [] 1 false
    s.NoDelay ∧ (s.lane 0 63).queue = [laneJob0 true] ∧ (j.lane 0 63).queue = [laneJob0 false] ∧ (laneJob0 true).env.core < 16 * 16384 ∧ indexOf (laneJob0 true).env.core < 10240 ∧ isLocal (loc 0) = true ∧ bits (loc 0) 0 17 + 276 ≤ 0x18000
    ∧ (∀ w ∈ wordsOf (localKey 0 0) 276, w ∉ s.eccOne ∧ w ∉ s.eccBad) ∧ (tableHeader ((image 0 0).take 16)).isSome = true ∧ tableHeader ((image 1 0).take 16) = none ∧ (parseTable (image 0 0)).isSome = true ∧ parseTable (image 0 1) = none
    ∧ (j.lane 0 63).table = none ∧ ({ j with lanes := [(63, ⟨some 0, some tiny, [laneJob0 false], some (laneJob0 false).begin⟩)] }.lane 0 63).table = some tiny ∧ isLocal (loc 0x100) = true ∧ bits (loc 0x100) 0 17 + 16 ≤ 0x18000 ∧ (j.core 0).waiters = []
    ∧ (s.lane 0 63).run = some (laneJob0 true).begin ∧ (laneJob0 true).begin.wait = none ∧ (laneJob0 true).begin.bad = none ∧ (laneJob0 true).begin.got.length < (laneJob0 true).begin.want ∧ s.moduleNo < 2 ^ 20
    ∧ ((s.core 0).sealed = false ∧ ∀ w ∈ (s.core 0).waiters, w.typ ≠ .read) ∧ badByte (loc 0x18000) 1 = some (loc 0x18000) ∧ (laneJob0 true).env.module = s.moduleNo :=
  ⟨noDelay_of (by decide +kernel), by and_intros <;> decide +kernel⟩
/-- A job that has read its input, one that has run, with output to write, and its owner's entry. -/
theorem witness_LaneSteps_output : let r : LaneRun := ⟨[1, 2], 2, none, some (0, 0, 2, none), [5, 6, 7, 8], 0, none⟩
    let s : State := { one (task []) with lanes := [(63, ⟨some 0, some tiny, [laneJob0 false], some r⟩)] }
    (s.lane 0 63).queue = [laneJob0 false] ∧ (s.lane 0 63).run = some r ∧ r.want ≤ r.got.length ∧ { r with ran := none }.ran = none ∧ (r.out.drop r.sent).take (1024 - (loc 0x100).toNat % 1024) ≠ [] ∧ { r with sent := 4 }.out.length ≤ { r with sent := 4 }.sent
    ∧ ((s.owner (.core 0)).fresh s.cycle).updateFloor 64 s.moduleNo (laneJob0 false).env.stream (s.ackOf (laneJob0 false).env.stream) s.cycle = some (⟨[], [⟨0, 0, 0, 0⟩], 0, 0⟩, 0)
    ∧ 1 ≤ ((laneJob0 false).env.serial - 0).toNat ∧ ((laneJob0 false).env.serial - 0).toNat ≤ 2 ^ 16 ∧ ((s.owner (.core 0)).fresh s.cycle).receipts = [] := by and_intros <;> decide +kernel

theorem witness_BranchesJumpsAndHints : let t := run [(6, 0x2000)]
    let k : Ctl := ⟨true, false, 0⟩
    let g := { t with gsel := 0 }
    Issues (one (task [(6, 0x2000)])) t ∧ t.Runs c0 { immOk := true, writes := [63] } ∧ t.Runs c0 { reads := [6], writes := [63] } ∧ bits (t.rd 6) 0 2 = 0 ∧ bits (0x2003#64) 0 2 ≠ 0
    ∧ (k.g = true ∧ g.guardHolds = false ∧ g.live = false ∧ g.rv = false ∧ g.sc = false) ∧ t.HintFree ∧ t.iv = false ∧ (withImm t 0).iv = true ∧ { t with live := true }.live = true ∧ { t with pfx := BitVec.ofNat 28 (2 ^ 27) }.rv = true :=
  ⟨issues_one _, by unfold Thread.Runs Thread.HintFree; and_intros <;> decide +kernel⟩
theorem witness_TrapsKillsAndReturn : let t := run []
    let h := { task [] with tcause := 0x1000, tvec := 0 }
    Issues (one (task [])) t ∧ Issues (one h) (h.begin 0 0) ∧ (one (task [])).thread 0 0 = some (task []) ∧ (task []).inh = false ∧ (task []).tvec ≠ 0 ∧ (h.begin 0 0).inh = true ∧ h.tvec = 0 ∧ { task [] with tvec := 0 }.inh = false
    ∧ 0 < 16 ∧ 15 < 16 ∧ (task []).resumes = false ∧ (task []).ownCtag = none ∧ (task []).reqs = [] ∧ (task []).engs = [] ∧ t.Runs c0 {} ∧ (h.begin 0 0).Runs c0 {} :=
  ⟨issues_one _, issues_one _, by unfold Thread.Runs; and_intros <;> decide +kernel⟩
theorem witness_TaskWords : let t := run [(6, 0xFFFF)]
    Issues (one (task [(6, 0xFFFF)])) t ∧ (one (task [(6, 0xFFFF)])).sl < 16 ∧ t.Runs c0 {} ∧ t.Runs c0 { reads := [6] } ∧ bits (t.rd 6) 16 48 = 0 ∧ bits (0x10000#64) 16 48 ≠ 0 ∧ t.reqs = [] ∧ t.engs = [] :=
  ⟨issues_one _, by unfold Thread.Runs; and_intros <;> decide +kernel⟩
def spawnRegs (n : Nat) : List Reg := (List.range n).map (fun j => 16 + BitVec.ofNat 6 j)
/-- Blocks of 3 and 11 registers; the last core and the one after; a control register with its highest legal bit; seven spawns; a full core. -/
theorem witness_SpawnWord : let l : List (Nat × Word) := [(16, 0xFFFFFFFFFFFFC), (17, 0), (18, 0xFFFFFFFFFFFF), (19, 7)]
    let t := run l
    let s := one (task l)
    let full := (List.range 16).foldl (fun (s : State) sl => s.setThread 0 sl (task l)) s
    Issues s t ∧ (3 ≤ (3#6).toNat ∧ (11#6).toNat ≤ 11) ∧ t.Runs c0 { reads := spawnRegs 11, writes := [5] } ∧ (bits (t.rd 16) 0 2 = 0 ∧ (t.rd 16).toNat < 2 ^ 52) ∧ bits (0x4002#64) 0 2 ≠ 0 ∧ 2 ^ 52 ≤ (0x10000000000000#64).toNat
    ∧ ((t.rd 17).getLsbD 63 = false ∧ bits (t.rd 17) 52 11 = 0 ∧ bits (t.rd 17) 18 14 = 0 ∧ bits (0x25FFF#64) 0 18 ≤ 163839 ∧ bits (0x267FF#64) 0 14 < 10240 ∧ ¬ bits (0x28000#64) 0 18 ≤ 163839 ∧ ¬ bits (0x2800#64) 0 14 < 10240)
    ∧ bits (t.rd 18) 48 16 = 0 ∧ bits (0x1000000000000#64) 48 16 ≠ 0 ∧ t.spawnk ≠ 7 ∧ { t with spawnk := 7 }.spawnk = 7 ∧ bits (t.rd 17) 32 20 = s.moduleNo ∧ bits (t.rd 17) 0 18 = s.k ∧ (s.core 0).sealed = false
    ∧ (s.put t).guestOk 0 t.guest = true ∧ (s.put t).ctagOk t.ctag t.guest = true ∧ (t.ctag < 65536 ∧ t.cnt < 2 ^ 48 ∧ t.budget = 2 ^ 48 - 1 ∧ t.hbint < 2 ^ 64 ∧ t.meetwin < 2 ^ 32 ∧ t.cx < 65536 ∧ t.cy < 65536 ∧ t.cz < 65536)
    ∧ ((s.core 0).acount < 65536 ∧ (s.core 0).tsize < 2 ^ 32 ∧ t.queue = none ∧ t.away = none ∧ s.moduleNo < 2 ^ 32) ∧ (List.range 16).find? (fun sl => (((s.put t).core 0).threads.find sl).isNone) = some 1 ∧ (s.put t).tended 0 = none ∧ (∀ sl < 16, ((full.core 0).threads.find sl).isSome = true)
    ∧ bits (0x500000000#64) 32 20 ≠ s.moduleNo ∧ t.sendWait 1 0 = none :=
  ⟨issues_one _, by unfold Thread.Runs; and_intros <;> decide +kernel⟩
/-- A thread without lanes, slots and holding, and with each; quorums 1, 16, 0 and 17; an entry of its state, a free one, and none. -/
def meetAt (l : List (Nat × Word)) (es : List (Nat × MeetEntry)) : State := withCore (task l) (fun c => { c with meet := es })
theorem witness_MeetWords : let l : List (Nat × Word) := [(16, 3), (17, 4), (18, 16)]
    let t := run l
    let e : MeetEntry := ⟨t.declared 3 4 0, [5], 0, 100, false, 0⟩
    let s := meetAt l [(7, e)]
    let f := meetAt l ((List.range 32).map (fun x => (x, ⟨[1], [5], 0, 100, true, 0⟩)))
    let more := fun (t : Thread) => maskRegs (t.rd 17)
    (s.thread 0 0 = some (task l) ∧ ({ (task l).begin s.cycle s.meetLag with issued := if s.actsNow then (task l).issued else s.cycle - s.meetLag } : Thread) = t)
    ∧ t.Runs c0 { reads := spawnRegs 2, more := more, writes := [5] } ∧ t.Runs c0 { reads := spawnRegs 3, more := more, writes := [5] } ∧ t.claim = 0 ∧ (∀ o ∈ (s.core 0).ops, o.owner ≠ some 0) ∧ (s.core 0).holder ≠ some 0
    ∧ { t with claim := 1 }.claim ≠ 0 ∧ ((withCore (task l) (filled 0)).core 0).ops.any (fun o => o.owner == some 0) = true ∧ t.det = false ∧ { t with det := true }.det = true ∧ (1 ≤ (1#64).toNat ∧ (16#64).toNat ≤ 16 ∧ 16 < (17#64).toNat)
    ∧ (t.reqs = [] ∧ t.engs = [] ∧ ∀ e ∈ t.unk, e.reported = true) ∧ { t with reqs := [waiting1 true] }.reqs ≠ [] ∧ ({ t with unk := [unknown1 false] }.unk.find? (fun u => !u.reported) = some (unknown1 false)) ∧ s.cycle < (t.waitStart.getD (s.cycle, 0)).1 + t.synclim ∧ ¬ { t with engs := [⟨.copy, 1, 0, 0, 0, 0⟩] }.engs = [] ∧ (s.core 0).meet.find? (fun p => p.2.dstate == t.declared 3 4 0) = some (7, e)
    ∧ ((meetAt l []).core 0).meet.find? (fun p => p.2.dstate == t.declared 3 4 0) = none ∧ (List.range 32).find? (fun x => (((meetAt l []).core 0).meet.find x).isNone) = some 0
    ∧ (f.core 0).meet.find? (fun p => p.2.dstate == t.declared 3 4 0) = none ∧ (∀ x < 32, ((f.core 0).meet.find x).isSome = true) ∧ (∀ e ∈ (f.core 0).meet, e.2.det = true) := by
  unfold Thread.Runs; and_intros <;> decide +kernel
/-- A queue of guest 0 with room for one block, and one without. -/
def queue0 (n : Nat) (bs : List Block) : Queue :=
  { en := true, det := false, replay := false, steal := false, guest := 0, swapLog := 0, tokbud := 0, ring := 0x4000, ringN := n, origin := 0, pr := 1, pc := 1, ch := 1, cw := 1, bx := 1, yb := 1, errq := 0
    pctag := 0, group := 0, tvec := 0x8000, qpt := 0, blocks := bs, base := 0, marks := 0, digest := [], markDigest := [], interval := none, lastTid := none, stealCount := 1, readies := 1, retired := 0, dead := false, gone := false, retryAt := none, stealAt := 0 }
def block0 (status : Nat) (mark : Bool) : Block :=
  { addr := 0x5000, ptbase := 0x1000, pred := 0, status := status, readyAt := 0, readyNo := 0, entry := 0x6000, x := 0, y := 0, z := 0, prio := 3, mark := mark, mode := 0, kill := false, chk := false, nsucc := 0
    acount := 0, tsize := 0, succ := 0, args := 0x7000, sink := 0, budget := 0, mwin := 0, tidh := 4, hblog := 0, ctag := none, gone := false, awaiting := false, retiredNo := 0, heldAt := 0 }
def queued (t : Thread) (x : Queue) : State := { one t with dists := [(0, { Dist.reset with queues := [(3, x)] })] }
theorem issues_queued (t : Thread) (x : Queue) : Issues (queued t x) (t.begin 0 0) := ⟨t, rfl, rfl⟩
theorem witness_LaunchWord : let l : List (Nat × Word) := [(16, 3), (17, 0x40), (18, 4096)]
    let t := run l
    let s := queued (task l) (queue0 1 [])
    Issues s t ∧ Issues (queued (task l) (queue0 0 [])) t ∧ (Accepts s t (.distributor 0) ∧ Accepts (queued (task l) (queue0 0 [])) t (.distributor 0)) ∧ (s.NoDelay ∧ (queued (task l) (queue0 0 [])).NoDelay) ∧ t.Runs c0 { reads := spawnRegs 3, writes := [5] } ∧ bits (t.rd 16) 10 54 = 0 ∧ bits (0x400#64) 10 54 ≠ 0 ∧ (t.rd 18 ≠ 0 ∧ (t.rd 18).toNat ≤ 4096 ∧ 4096 < (4097#64).toNat)
    ∧ bits (t.rd 17) 0 6 = 0 ∧ bits (0x60#64) 0 6 ≠ 0 ∧ t.sendWait 1 0 = none ∧ s.queue 0 3 = some (queue0 1 []) ∧ (queue0 1 []).guest = t.guest ∧ (queue0 1 []).en = true ∧ (queue0 1 []).blocks.length < (queue0 1 []).ringN
    ∧ (queue0 0 []).ringN ≤ (queue0 0 []).blocks.length ∧ s.queue 0 4 = none :=
  ⟨issues_queued .., issues_queued .., ⟨accepts_of (by decide +kernel), accepts_of (by decide +kernel)⟩, ⟨noDelay_of (by decide +kernel), noDelay_of (by decide +kernel)⟩, by unfold Thread.Runs; and_intros <;> decide +kernel⟩
/-- A task's core and a service core; numbers at the ends of their tables; roundings 1, 5, 0 and 6. -/
theorem witness_SpecialRegisterWords : let t := run [(6, 5)]
    let s : State := { one (task [(6, 5)]) with cores := [(0x40000, { Core.reset with threads := [(0, task [(6, 5)])] })], cur := (0x40000, 0) }
    Issues (one (task [(6, 5)])) t ∧ Issues s t ∧ t.Runs c0 {} ∧ t.Runs c0 { writes := [6] } ∧ t.Runs c0 { reads := [6] } ∧ isService s.k = true ∧ isService (one (task [])).k = false
    ∧ (0xA0#12).toNat ∈ [0, 0xA0] ∧ (0x007#12).toNat ∉ [0, 0xA0] ∧ 0x800 ≤ (0x870#12).toNat ∧ (1 ≤ bits (t.rd 6) 0 3 ∧ bits (t.rd 6) 0 3 ≤ 5) ∧ bits (0#64) 0 3 = 0 ∧ 6 ≤ bits (6#64) 0 3 ∧ t.sendWait 1 0 = none
    ∧ (5#64).toNat < 65536 ∧ (one (task [])).ctagState 5 ≠ .live ∧ (one (task [])).ctagState 0 = .live ∧ t.claim < 2 ^ 16 ∧ bits (0xC000000000000000#64) 62 2 = 3 :=
  ⟨issues_one _, ⟨task [(6, 5)], rfl, rfl⟩, by unfold Thread.Runs; and_intros <;> decide +kernel⟩

/-- A queue's two tables of numbers, a thread under each service register's command, and both answers of every register that has them. -/
theorem witness_ServiceRegisterEvents : let s := queued (task []) (queue0 4 [block0 1 false])
    let d := { s with mem := writeBytes s.mem 0x10000 ([1, 0, 0, 0, 0, 0, 0, 0] ++ leBytes 8 0x4000 ++ leBytes 4 256 ++ [0, 0, 1, 1, 1, 1] ++ leBytes 2 1 ++ leBytes 2 1 ++ List.replicate 34 0) }
    let g := { s with mem := writeBytes (writeBytes s.mem 0x10000 (leBytes 4 1 ++ leBytes 4 10 ++ List.replicate 8 0 ++ leBytes 8 0x11000)) 0x11000 (leBytes 8 0) }
    (bits (0xFFFFFFFFFFFF0000#64) 16 48 = 2 ^ 48 - 1) ∧ (bits (3 : Word) 0 6 ≠ 0 ∧ bits (0x10000#64) 62 2 = 0 ∧ bits (0x10000#64) 44 8 = 0 ∧ bits (0x10000#64) 0 6 = 0) ∧ isDram (bits (0x10000#64) 6 38 * 64) = true
    ∧ (∀ a ∈ wordsOf (bits (0x10000#64) 6 38 * 64) 64, a ∉ s.eccOne ∧ a ∉ s.eccBad) ∧ s.parseDesc (readBytes s.mem 0x10000 64) 0 = none ∧ (d.parseDesc (readBytes d.mem 0x10000 64) 0).isSome = true ∧ s.queue 0 0 = none ∧ (s.queue 0 3).isSome = true
    ∧ (queue0 4 [block0 1 false]).blocks ≠ [] ∧ bits (0x30000000005008#64) 0 3 = 0 ∧ (bits (0x30000000005008#64) 58 4 = 0 ∧ bits (0x30000000005008#64) 52 6 = 3 ∧ bits (0x30000000005008#64) 6 46 * 64 = (block0 1 false).addr.toNat)
    ∧ (block0 1 false).status ≤ 1 ∧ 2 ≤ (block0 2 false).status ∧ bits (0x27FF00000000000#64) 44 14 < 10240 ∧ 10240 ≤ bits (0x280000000000000#64) 44 14
    ∧ (s.thread 0 0 = some (task []) ∧ (task []).saving = none ∧ (task []).kill = none ∧ s.thread 0 1 = none ∧ s.thread 0 15 = none) ∧ bits (0x4000000000000000#64) 62 2 = 1 ∧ bits (0x8000000000000000#64) 62 2 = 2 ∧ bits (0xC000000000000000#64) 62 2 = 3
    ∧ (0 + 45056 ≤ Config.dramSize ∧ Config.dramSize < 2 ^ 34 * 64) ∧ { s with mem := writeBytes s.mem 0x100F8 [1] }.frameWord 0x10000 0xF8 = 1 ∧ (s.core 0).acount = 0 ∧ (List.range 16).find? (fun j => (s.thread 0 j).isNone && s.tended 0 != some j) = some 1
    ∧ (∀ a ∈ wordsOf 0x10000 256, a ∉ s.eccOne ∧ a ∉ s.eccBad) ∧ (insertNat 0 (s.core 0).killed).length ≠ 16 ∧ (s.core 0).sealed = false ∧ (s.core 0).failed = false ∧ (task []).status = .ready
    ∧ s.insts = [] ∧ s.groupOf (readBytes s.mem 0x10000 64) = none ∧ (g.groupOf (readBytes g.mem 0x10000 64)).isSome = true ∧ bits (0x1000#64) 0 45 ≠ 0 ∧ bits (0x200000000000#64) 0 45 = 0 ∧ (s.lane 0 0).queue = [] ∧ ((laned [] 1 true).lane 0 63).queue ≠ [] := by
  and_intros <;> decide +kernel
/-- A thread in each state: results due and not due, the counts at their limits and one below, a wait at its limit, one that has no limit. -/
theorem witness_ThreadEventsAndMeetReleases : let p : Pend := ⟨5, 9, 1, 32, 0x100⟩
    let t := { task [] with pend := [p] }
    let w := { task [] with status := .parked (.granule 6), waitStart := some (0, loc 0x60), synclim := 100 }
    let h : Hold := ⟨c0, 0, 4, .store, [], [], []⟩
    let q : PendReq := ⟨ask .ldsc 5 ⟨1, 5, 0, 0⟩, false, 0, 0, 0, 0, false, false, []⟩
    let a := { task [] with status := .acting 4 0 }
    (one t).thread 0 0 = some t ∧ p.land ≤ { one t with cycle := 32 }.cycle ∧ { one t with cycle := 31 }.cycle < p.land ∧ p.reg ≠ 0#6 ∧ (∀ q ∈ t.pend, q.reg = p.reg → q = p) ∧ t.saving = none ∧ t.status = .ready ∧ (t.busy ≤ 0 ∧ 0 < { t with busy := 9 }.busy)
    ∧ (t.iv = false ∧ t.rv = false ∧ t.live = false) ∧ { t with live := true }.live = true ∧ (one { task [] with budget := 50 }).thread 0 0 = some { task [] with budget := 50 } ∧ 50 - (50 - t.acct) = 0 ∧ 50 - (49 - t.acct) ≠ 0
    ∧ t.budgetTaken = false ∧ t.inh = false ∧ t.afterRft = false ∧ t.tvec ≠ 0 ∧ { t with tvec := 0 }.tvec = 0 ∧ 0 < 16 ∧ t.ownCtag = none ∧ (100 ≤ t.hb + (100 - t.acct) ∧ ¬ 100 ≤ t.hb + (99 - t.acct))
    ∧ (one w).thread 0 0 = some w ∧ w.waitStart = some (0, loc 0x60) ∧ { one w with cycle := 99 }.cycle < 0 + w.synclim ∧ 0 + w.synclim ≤ { one w with cycle := 100 }.cycle ∧ { one w with cycle := 100 }.waitOver 0 w (.granule 6) = false
    ∧ { one t with cycle := 100 }.waitOver 0 t .requests = true ∧ { one t with cycle := 100 }.waitOver 0 { t with reqs := [q] } .requests = false
    ∧ (one a).thread 0 0 = some a ∧ t.lastLand = 32 ∧ (task []).lastLand ≤ 0 ∧ (Wait.clock 9).unbounded = true ∧ (Wait.granule 6).unbounded = false ∧ (one { w with status := .parked (.clock 9) }).thread 0 0 = some { w with status := .parked (.clock 9) }
    ∧ (0 ≤ 128 ∧ 127 < 128) ∧ [q].find? (fun p => p.req.tag == h.tag) = some q ∧ q.req.dst.module ≠ (one t).moduleNo ∧ limited h q.req = true ∧ limited h (ask .write 5 ⟨1, 5, 0, 0⟩) = false := by and_intros <;> decide +kernel
/-- A CTALLOC that holds at its limit: its request lies in its module and is at its owner, which has no receipt of it and answers CANCELLED. -/
def allocating : Thread :=
  { task [] with
    status := .holding ⟨c0, 0, 4, .ctalloc 5 0x77, [], [], []⟩, waitStart := some (0, 0x77), synclim := 100
    reqs := [⟨{ ask .canopy 0 ⟨3, 0, 0, 1⟩ with f := 0, words := [0x77] }, false, 0, 0, 0, 0, false, false, []⟩] }
theorem witness_ThreadEventsAndMeetReleases_allocation : let s := { one allocating with cycle := 100 }
    s.thread 0 0 = some allocating ∧ allocating.saving = none ∧ 0 + allocating.synclim ≤ s.cycle ∧ ¬ 0 + allocating.synclim ≤ 99
    ∧ ∀ p, allocating.reqs.find? (fun p => p.req.tag == 4) = some p → p.req.typ = .canopy ∧ p.posted = false ∧ p.req.dst.module = s.moduleNo ∧ s.arrival { p.req with typ := .cancel } ≤ s.cycle ∧ s.waitsAt p.req.dst = false ∧ (∀ e ∈ s.agenda, answerRoute e.2 ≠ some (p.req.dst, p.req.src)) ∧ (s.popDelay.cancelAt { p.req with typ := .cancel }).2 = .cancelled := by
  refine ⟨by decide +kernel, rfl, by decide, by decide, fun p h => ?_⟩
  obtain rfl : allocating.reqs.headD (waiting1 false) = p := Option.some.inj h
  and_intros <;> decide +kernel
/-- A quorum that is there, a window that is over, neither; a sum at the limit of K.CNT and one above; a deterministic entry before and at its time. -/
theorem witness_ThreadEventsAndMeetReleases_group : let e : MeetEntry := ⟨[1, 2, 3], [0, 1], 2, 0, false, 4⟩
    let d : MeetEntry := ⟨[1, 2, 3], [0], 0, 50, true, 4⟩
    (meeting.core 0).meet.find 0 = some e ∧ (1 ≤ e.quorum ∧ e.quorum ≤ e.waiters.length) ∧ ((meeting.threads 0).map Prod.fst).Nodup ∧ ((meeting.threads 0).filter (fun p => e.waiters.contains p.1)).length = 2
    ∧ ((meeting.threads 0).map (fun p => p.2.status)) = [.meet 0 5 c0, .meet 0 5 c0] ∧ ((meeting.thread 0 1).map (fun t => t.tid.toNat)) = some 7 ∧ ((meeting.thread 0 0).map (fun t => t.tid.toNat)) = some 8
    ∧ 5 ≤ 2 ^ 48 - 1 ∧ 2 ^ 48 - 1 < (2 ^ 48 - 1) + 1 ∧ ¬ (1 ≤ 3 ∧ 3 ≤ e.waiters.length) ∧ d.det = true ∧ 49 < d.deadline ∧ d.deadline ≤ 50 ∧ d.waiters = [0] := by and_intros <;> decide +kernel
/-- A thread asked to save and one forced, with and without lanes; a save whose wait is over; a frame that waits, with its entry; a swap candidate. -/
def savedThread : Thread := { task [] with stream := 9 }
def resumes : State :=
  let s := one { task [] with status := .resuming 0x10000 }
  { s with saved := [(0x10000, ⟨savedThread, 0, 0⟩)], mem := writeBytes s.mem 0x100A0 [9] }
def swapHeld : Held := ⟨0, 3, 0, queue0 4 [{ block0 2 false with acount := 1 }], queue0 4 [{ block0 2 false with acount := 1 }], 0⟩
def swapper (cycle : Nat) : State :=
  let t := { task [] with status := .parked (.granule 6), queue := some (0, 3) }
  { (one t) with
    dists := [(0, { Dist.reset with queues := [(3, { queue0 4 [{ block0 2 false with acount := 1 }] with swapLog := 4 })], held := [swapHeld] })]
    swapPools := [(0, BitVec.ofNat 64 (2 ^ 40 + 2 ^ 16))], cycle := cycle }
theorem witness_SavesAndResumes : let t := { task [] with preempt := some (0x10000, 100), safePoint := some 2 }
    let f := { task [] with forced := some 0x10000 }
    let v := { task [] with saving := some (0x10000, true, 3000000) }
    (one t).thread 0 0 = some t ∧ t.preempt = some (0x10000, 100) ∧ t.saving = none ∧ 100 ≤ { one t with cycle := 100 }.cycle ∧ t.status = .ready ∧ t.acts = false ∧ (2#22).getLsbD 1 = true ∧ (1#22).getLsbD 1 = false ∧ (t.claim = 0 ∧ t.engs = []) ∧ { t with claim := 1 }.claim ≠ 0
    ∧ (one f).thread 0 0 = some f ∧ f.forced = some 0x10000 ∧ (f.iv = false ∧ f.rv = false ∧ f.live = false ∧ f.acts = false ∧ f.busy ≤ 0) ∧ 0 < { f with busy := 1 }.busy ∧ (one v).thread 0 0 = some v ∧ (v.reqs = [] ∧ v.pend = [] ∧ { v with pend := [⟨5, 9, 1, 32, 0x100⟩] }.pend ≠ []) ∧ ({ v with reqs := [waiting1 true] }.reqs ≠ [] ∧ (one v).cycle < 3000000)
    ∧ 3000000 ≤ { one v with cycle := 3000000 }.cycle ∧ ((one v).core 0).holder ≠ some 0 ∧ v.unk.length ≤ 16 ∧ v.engs.length ≤ 64 ∧ v.reqs.length ≤ 33 ∧ (∀ r ∈ v.v.toList, r.runs.length ≤ 128) ∧ (∀ p ∈ ((one v).core 0).acc, p.1 < 1024) := by and_intros <;> decide +kernel
theorem witness_SavesAndResumes_resumes : (∀ a ∈ wordsOf 0x10000 frameBytes, a ∉ resumes.eccOne ∧ a ∉ resumes.eccBad)
    ∧ (resumes.thread 0 0).map Thread.status = some (.resuming 0x10000) ∧ bits (resumes.frameWord 0x10000 8) 8 5 ≤ resumes.lanesFree 0 ∧ (resumes.frameWord 0x10000 0x10).getLsbD 0 = false ∧ resumes.savedOf 0x10000 = some (0x10000, ⟨savedThread, 0, 0⟩)
    ∧ ({ resumes with mem := writeBytes resumes.mem 0x10008 [0, 31] }).lanesFree 0 < bits ({ resumes with mem := writeBytes resumes.mem 0x10008 [0, 31] }.frameWord 0x10000 8) 8 5
    ∧ (swapper 20).swapChoice 0 = some (swapHeld, (0, 0, { task [] with status := .parked (.granule 6), queue := some (0, 3) }), 0x10000) ∧ (swapper 19).swapChoice 0 = none :=
  ⟨fun _ _ => ⟨List.not_mem_nil, List.not_mem_nil⟩, by and_intros <;> decide +kernel⟩
theorem witness_SavesAndResumes_entry : let s := withCore (task []) (fun c => { c with swaps := [⟨0x10000, 6, true⟩] })
    let w : SwapEntry := ⟨0x10000, 6, true⟩
    (s.core 0).swaps.find? (fun w => w.frame == 0x10000) = some w ∧ w.resumable = true ∧ (resumes.saved.find 0x10000).isSome = true ∧ (List.range 16).find? (fun j => (s.thread 0 j).isNone && s.tended 0 != some j) = some 1
    ∧ (∀ p ∈ s.threads 0, p.2.status ≠ .resuming 0x10000) := by and_intros <;> decide +kernel
/-- Every request type that a core's store or a channel admits, and one without a serial. -/
def admitsB (typ : ReqType) (dst : Endpoint) : Bool :=
  !(one (task [])).parkedHere (ask typ 5 dst) && !(one (task [])).sealedFor (ask typ 5 dst) && decide (ownerEntries (ownerKind (ask typ 5 dst)) > 1)
theorem admits_of {typ : ReqType} {dst : Endpoint} (h : admitsB typ dst = true) :
    Admits (one (task [])) (ask typ 5 dst) ((one (task [])).setOwner (ownerKind (ask typ 5 dst)) (freshOwner (ask typ 5 dst))) := by
  simp only [admitsB, Bool.and_eq_true, Bool.not_eq_true', decide_eq_true_eq] at h
  exact admits_ask _ _ _ h.1.1 h.1.2 h.2
theorem witness_OwnerRequests : (∀ typ ∈ [ReqType.read, .write, .lds, .ldsc, .sts, .febit, .fetest, .waitf, .atomic], ∀ dst ∈ [core0, (⟨1, 0, 0, 0⟩ : Endpoint)],
      Admits (one (task [])) (ask typ 5 dst) ((one (task [])).setOwner (ownerKind (ask typ 5 dst)) (freshOwner (ask typ 5 dst))))
    ∧ (let m := { ask .read 5 core0 with serialed := false }; m.serialed = false ∧ midway m = false ∧ (one (task [])).sealedFor m = false ∧ (one (task [])).parkedHere m = false) ∧ (one (task [])).transit = [] ∧ (0 < 8 ∧ 8 % 8 = 0 ∧ 8 % 1 = 0) ∧ (ask .read 5 core0).ctag = 0 ∧ (core0.kind = 0 ∧ core0.die < 16 ∧ core0.index < 10240 ∧ ((one (task [])).core (coreOf core0)).sealed = false ∧ ((one (task [])).core (coreOf core0)).waiters = [])
    ∧ (ask .read 5 core0).addr + 8 ≤ 0x18000 ∧ (∀ w ∈ wordsOf (localKey 0 0x100) 8, w ∉ (one (task [])).eccOne ∧ w ∉ (one (task [])).eccBad) ∧ 8 = 2 ^ (ask .atomic 5 core0).lsize ∧ (ask .atomic 5 core0).f < 8
    ∧ (one (task [])).fe (localKey 0 0x100 / 16) = false ∧ (fullAt (one (task [])) 0x100).fe (localKey 0 0x100 / 16) = true := by
  refine ⟨?_, by and_intros <;> decide +kernel, rfl, by decide, rfl, by and_intros <;> decide +kernel, by decide, by decide +kernel, by decide, by decide, by decide +kernel, by decide +kernel⟩
  intro typ ht dst hd
  have h : [ReqType.read, .write, .lds, .ldsc, .sts, .febit, .fetest, .waitf, .atomic].all (fun typ => [core0, (⟨1, 0, 0, 0⟩ : Endpoint)].all (admitsB typ)) = true := by decide +kernel
  exact admits_of (List.all_eq_true.1 (List.all_eq_true.1 h typ ht) dst hd)
/-- A request with a receipt, one at the age limit and one beyond, serials at both ends of the window, and one sent before a restart. -/
theorem witness_OwnerRequests_receipts : let m := ask .write 5 core0
    let r : Receipt := ⟨5, 9, 1, 0, none, [], 0, 0⟩
    let x : OwnerSt := ⟨[r], [], 0, 0⟩
    m.serialed = true ∧ (x.fresh 0).receiptFor m = some r ∧ (((one (task [])).owner (ownerKind m)).fresh 0).receiptFor m = none ∧ 0 + 4000 < { one (task []) with cycle := 4001 * 1500 }.us ∧ ¬ 0 + 4000 < { one (task []) with cycle := 4000 * 1500 }.us
    ∧ (one (task [])).parkedHere m = false ∧ (((one (task [])).owner (ownerKind m)).fresh 0).updateFloor 64 5 9 0 0 = some (freshOwner m, 0) ∧ (((one (task [])).owner (ownerKind m)).fresh 0).updateFloor 64 5 9 1 0 = some (⟨[], [⟨5, 9, 1, 0⟩], 0, 0⟩, 1)
    ∧ (m.serial = 1 ∧ m.serial ≠ 0) ∧ ((0x10000#32 - 0#32).toNat ≤ 2 ^ 16 ∧ 2 ^ 16 < (0x10001#32 - 0#32).toNat) ∧ m.sent < (⟨[], [], 1, 0⟩ : OwnerSt).restart ∧ midway m = false ∧ (one (task [])).sealedFor m = false ∧ (withCore (task []) (fun c => { c with sealed := true })).sealedFor m = true
    ∧ m ∈ ((withCore (task []) (fun c => { c with waiters := [m] })).core (coreOf m.dst)).waiters := by and_intros <;> decide +kernel
theorem witness_UnitRequests : (∀ p ∈ [(ReqType.mma, core0), (.mred, core0), (.canopy, ⟨3, 0, 0, 1⟩), (.xducer, ⟨3, 0, 0, 2⟩), (.spawn, core0), (.spawn, ⟨3, 0, 0, 4⟩), (.ready, ⟨3, 0, 0, 4⟩), (.succdec, ⟨1, 0, 0, 0⟩)],
      Admits (one (task [])) (ask p.1 5 p.2) ((one (task [])).setOwner (ownerKind (ask p.1 5 p.2)) (freshOwner (ask p.1 5 p.2)))) := by
  intro p hp
  have h : [(ReqType.mma, core0), (.mred, core0), (.canopy, ⟨3, 0, 0, 1⟩), (.xducer, ⟨3, 0, 0, 2⟩), (.spawn, core0), (.spawn, ⟨3, 0, 0, 4⟩), (.ready, ⟨3, 0, 0, 4⟩), (.succdec, ⟨1, 0, 0, 0⟩)].all (fun p => admitsB p.1 p.2) = true := by decide +kernel
  exact admits_of (List.all_eq_true.1 h p hp)
/-- The owners' states on each side of each clause. -/
theorem witness_UnitRequests_states : let s := withCore (task []) (fun c => { c with cap := 3, acount := 1 })
    let q := withCore (task []) (fun c => { c with cap := 3, acount := 1, mq := List.replicate 8 (mcmd 32), redbuf := List.replicate 8 (mcmd 32), nextKb := [1, 0, 0, 0] })
    (ask .mma 5 core0).src.module ≠ s.moduleNo ∧ (s.core 0).sealed = false ∧ (3#64).toNat = (s.core 0).cap.toNat ∧ (s.core 0).acount ≤ bits (0x400000000000#64) 46 2 ∧ bits (0x8400#64) 46 2 < (s.core 0).acount ∧ bits (0x8400#64) 15 5 ≠ 0 ∧ bits (0x8400#64) 10 5 ≠ 0
    ∧ (s.core 0).mq.length < 8 ∧ 8 ≤ (q.core 0).mq.length ∧ 0 < (q.core 0).kbOf 0 ∧ (s.core 0).kbOf 0 = 0 ∧ (s.core 0).kbOf 0 < 1 ∧ 8 ≤ (q.core 0).redbuf.length ∧ (s.core 0).redbuf = [] ∧ (s.core 0).nextKb.length = 4 
    ∧ s.ctagState 0 = .live ∧ s.ctagState 9 ≠ .live ∧ (ctagged (task [])).hasKids 7 = true ∧ (ctagged (task [])).hasKids 9 = false ∧ s.ctagState 1 = .free ∧ ((laned [] 15 true).lane 0 63).queue.length < 16 ∧ 16 ≤ ((laned [] 16 true).lane 0 63).queue.length
    ∧ s.guestOk 0 0 = true ∧ s.guestOk 0 1 = false ∧ s.ctagOk 0 0 = true ∧ (List.range 16).find? (fun sl => (s.thread 0 sl).isNone) = some 1 ∧ ((s.core 0).acount = 1 ∧ ¬ (s.core 0).acount = 2)
    ∧ (queued (task []) (queue0 4 [block0 0 false])).queue 0 3 = some (queue0 4 [block0 0 false]) ∧ (queue0 4 [block0 0 false]).blocks[0]? = some (block0 0 false) ∧ (block0 0 false).status = 0 := by
  and_intros <;> decide +kernel
/-- A counter of 0, 2 and 1, the last with a block that waits, and a distributor that admits the READY; a thread that asks for a ctag, and a ctag table with none free. -/
theorem witness_UnitRequests_counts : let m := { ask .succdec 5 ⟨1, 0, 0, 0⟩ with words := [BitVec.ofNat 64 (3 * 2 ^ 52 + 0x5000)] }
    let s := queued (task []) (queue0 4 [block0 0 false])
    let one1 := { s with mem := writeBytes s.mem 0x100 [1] }
    let rq := one1.chanReq 0 .ready ⟨3, 0, 0, 1⟩ (3 * 2 ^ 52 + 0x5000) [BitVec.ofNat 64 (3 * 2 ^ 52 + 0x5000)]
    one1.NoDelay ∧ (∃ z, Admits one1 rq z) ∧ leNat (readBytes s.mem 0x100 4) = 0 ∧ leNat (readBytes ({ s with mem := writeBytes s.mem 0x100 [2] } : State).mem 0x100 4) = 2 ∧ leNat (readBytes one1.mem 0x100 4) = 1 ∧ (∀ a ∈ wordsOf 0x100 4, a ∉ one1.eccOne ∧ a ∉ one1.eccBad)
    ∧ 0 < { one1 with transit := [5] }.delay ∧ ownerKind m ≠ ownerKind rq ∧ (block0 0 false).addr.toNat = bits (m.words.headD 0) 0 52 ∧ (bits (m.words.headD 0) 58 4 = 0 ∧ bits (m.words.headD 0) 52 6 = 3)
    ∧ (one { task [] with stream := 9 }).issuer 9 ≠ none ∧ (one { task [] with stream := 9 }).thread 0 0 = some { task [] with stream := 9 } ∧ (task []).resumes = false :=
  ⟨noDelay_of (by decide +kernel), ⟨_, rfl, by decide +kernel, by decide +kernel, by decide +kernel, by decide +kernel, by decide +kernel, ⟨[], [⟨0, requesterStream 0, 0, 0⟩], 0, 0⟩, 0, rfl, by decide +kernel, by decide +kernel, by decide +kernel, by decide +kernel, rfl⟩,
    by and_intros <;> decide +kernel⟩
theorem witness_UnitRequests_exhausted : (∀ n, 1 ≤ n → n < 65536 → (exhausted (task [])).ctagState n ≠ .free) ∧ ((exhausted (task [])).ctagRec 0).depth ≠ 7 :=
  ⟨fun n _ h => by rw [exhausted_state _ n h]; decide, by decide +kernel⟩

/-- A holding word with its request, a posted request, and the counts and clocks at their limits. -/
def holdingThread (kind : HoldKind) : Thread := { task [] with status := .holding ⟨c0, 0, 4, kind, [], [], []⟩, reqs := [{ waiting1 false with req := { ask .read 5 core0 with words := [8] } }], waitStart := some (0, 0x3000) }
def postedThread : Thread := { task [] with reqs := [waiting1 true] }
theorem witness_AnswersAndTimers : let h := holdingThread (.load 3 8 5)
    let p := postedThread
    let a : Answer := ⟨(waiting1 true).req, [7], 0⟩
    a.req.tag = 4 ∧ (one h).findCopy 4 = none ∧ (one h).findSend 4 = none ∧ (one h).findLane 4 = none ∧ (one h).findUnit 4 = none ∧ ((one h).pendOf 4).map PendReq.posted = some false ∧ (one p).pendOf 4 = some (waiting1 true) ∧ (one h).findTag 4 = some (0, 0) ∧ (one p).findTag 4 = some (0, 0) ∧ (one h).thread 0 0 = some h ∧ (one p).thread 0 0 = some p
    ∧ p.reqs.find? (fun x => x.req.tag == 4) = some (waiting1 true) ∧ (∀ y ∈ p.reqs, y.req.tag = 4 → y = waiting1 true) ∧ h.reqs.length = 1 ∧ ((h.reqs.headD (waiting1 true)).posted = false ∧ (h.reqs.headD (waiting1 true)).req.words = [8])
    ∧ h.status = .holding ⟨c0, 0, 4, .load 3 8 5, [], [], []⟩ ∧ a.res = [7] ∧ p.status = .ready ∧ (waiting1 true).posted = true ∧ p.unk.length < 16 ∧ 16 ≤ { p with unk := List.replicate 16 (unknown1 false) }.unk.length
    ∧ (p.reqs.filter (fun x => x.req.tag != 4) = [] ∧ p.engs = [] ∧ p.ackw ≠ p.serial) ∧ (h.reqs.headD (waiting1 true)).req.dst.module = 0 ∧ (⟨1, 5, 0, 0⟩ : Endpoint).module ≠ (one h).moduleNo
    ∧ ((waiting1 true).idle = false ∧ (sending true).idle = true) ∧ (waiting1 true).lastSent + 30000 ≤ { one p with cycle := 30000 }.cycle ∧ { one p with cycle := 29999 }.cycle < (waiting1 true).lastSent + 30000
    ∧ (p.saving = none ∧ { p with saving := some (0, true, 0) }.saving ≠ none) ∧ (waiting1 true).clock + 3000000 ≤ { one p with cycle := 3000000 }.cycle ∧ { one p with cycle := 2999999 }.cycle < (waiting1 true).clock + 3000000
    ∧ (∀ z ∈ (p.reqs.filter (fun x => x.req.tag != 4)).map (fun x => { x with behind := x.behind.filter (· != 4) }), z.freed = false) ∧ ¬ ((waiting1 true).idle = true ∧ (waiting1 true).tries = 0) ∧ (HoldKind.load 3 8 5 ≠ .ctend ∧ (∃ d, HoldKind.xducer 5 = .xducer d)) := by
  and_intros <;> decide +kernel
/-- A request that waits for the one before it: the second owner of a misaligned store, in another module. -/
theorem witness_AnswersAndTimers_follower : let y : PendReq := { waiting1 true with req := { ask .write 5 ⟨1, 5, 0, 0⟩ with tag := 5 }, idle := true, behind := [4] }
    let t := { task [] with reqs := [waiting1 true, y] }
    (y.behind = [4] ∧ y.idle = true ∧ y.tries = 0 ∧ (∀ z ∈ t.reqs, z.req.tag = y.req.tag → z = y) ∧ ∀ z ∈ (t.reqs.filter (fun x => x.req.tag != 4)).map (fun x => { x with behind := x.behind.filter (· != 4) }), z.req.tag ≠ y.req.tag → z.freed = false) ∧ y.req.dst.module ≠ (one t).moduleNo ∧ (one t).pendOf 4 = some (waiting1 true) ∧ (one t).findTag 4 = some (0, 0) ∧ (∀ z ∈ t.reqs, z.req.tag = 4 → z = waiting1 true) := by and_intros <;> decide +kernel
/-- A commit into the root and one into another ctag, with and without a conflict, with a full heap; a drop with a kill in it and one without. -/
def canopied (job : Option (Word × Env)) (parent : Nat) (cells : List Cell) (heap : Tab Nat) : State :=
  { one (task []) with ctags := [(7, ⟨.live, 0, 1, 0, false, false, none⟩), (9, ⟨.committing, parent, 2, 0, true, true, some job⟩)], cells := cells, heap := heap }
def cellOf (t : Nat) (wm cm : BitVec 64) : Cell := ⟨0x400, t, 0x10000, List.replicate 64 (BitVec.ofNat 8 t), wm, cm⟩
theorem witness_CanopyEvents : let j := some ((0x40 : Word), copyEnv)
    let s := canopied j 0 [cellOf 9 3 0] []
    let m := canopied j 7 [cellOf 9 3 0, cellOf 7 4 4] []
    let c := canopied j 7 [cellOf 9 3 0, cellOf 7 2 2] []
    let x : Drop := ⟨9, [9], j, false⟩
    let d := { one (task []) with ctags := [(9, ⟨.retired, 7, 2, 0, true, false, none⟩)], drops := [x] }
    let k := { one { task [] with ctag := 9, kill := some (.ctagKilled, 9, 0) } with ctags := [(9, ⟨.retired, 7, 2, 0, true, false, none⟩)], drops := [x] }
    (1 ≤ 9 ∧ 65535 < 65536 ∧ copyEnv.module = s.moduleNo) ∧ (s.ctagRec 9).job = some j ∧ ((s.cells.map (fun c => (c.blk, c.ctag))).Nodup ∧ ∀ c ∈ s.cells, c.data.length = 64) ∧ (s.ctagRec 9).parent = 0
    ∧ ((m.cells.map (fun c => (c.blk, c.ctag))).Nodup ∧ ∀ c ∈ m.cells, c.data.length = 64) ∧ (m.ctagRec 9).parent ≠ 0 ∧ (m.ctagRec 9).parent ≠ 9 ∧ (m.ctagRec 9).chk = true ∧ 3#64 &&& 4#64 = 0
    ∧ (copyEnv.sink = 0 ∧ copyEnv.errq = 0 ∧ c.plog = 0) ∧ c.cells.filter (fun x => x.ctag == 9) = [cellOf 9 3 0] ∧ (3#64 &&& 2#64).getLsbD 1 = true ∧ (3#64 &&& 2#64).getLsbD 0 = false ∧ (c.ctagRec 9).state = .committing
    ∧ d.drops.find? (fun x => x.root == 9 && !x.freed) = some x ∧ x.ref = j ∧ (∀ c ∈ d.cores, ∀ x ∈ c.2.threads, x.2.kill = none) ∧ (∀ x ∈ d.saved, x.2.thread.kill = none)
    ∧ (k.thread 0 0).map (fun t => (t.kill.isSome, t.ctag)) = some (true, 9) ∧ 9 ∈ x.members ∧ (k.ctagRec 9).kill = true := by and_intros <;> decide +kernel
/-- A ready block at a cool core, at none, at the head of the rotation; arguments that are read and that are not; every end of a commit, a mark and a theft. -/
def ready3 (mode : Nat) : State := let s := paged 0 (task []); { s with dists := [(0, { Dist.reset with queues := [(3, { queue0 4 [{ block0 1 false with mode := mode }] with pc := 1 })] })], cores := [] }
theorem witness_DistributorSteps_selection : let s := ready3 0
    let x := queue0 4 [block0 1 false]
    (s.dist 0).held = [] ∧ (s.dist 0).lastQ.length = 8 ∧ (∀ p ∈ (s.dist 0).queues, p.1 < 64 ∧ s.queue 0 p.1 = some p.2) ∧ s.queue 0 3 = some x ∧ x.head = some (0, block0 1 false) ∧ 0 < x.pc ∧ x.origin % 128 + x.pc * x.cw ≤ 128
    ∧ 0 ∈ x.cellCores 0 0 0 0 ∧ ((s.core 0).sealed = false ∧ (s.core 0).failed = false ∧ 0 < s.allow 0 ∧ (s.freeSlot 0) = some 0 ∧ (s.core 0).threads = [] ∧ (s.core 0).swaps = []) ∧ { s with chans := [(0, ⟨95, false, 95⟩)] }.allow 0 = 0
    ∧ s.ctagOk x.pctag x.guest = true ∧ x.replay = false ∧ (x.gone = false ∧ { x with gone := true }.gone = true ∧ s.dieUp 0 = true) ∧ (s.ctagRec x.pctag).depth < 7 ∧ (ready3 1).ctagOk 0 0 = true ∧ (block0 1 false).mode = 0 ∧ (queue0 4 []).head = none ∧ (s.dist 0).actAt ≤ s.cycle ∧ s.cycle < { s.dist 0 with actAt := 1 }.actAt ∧ s.tended 0 = none ∧ x.dead = false ∧ { x with dead := true }.dead = true := by and_intros <;> decide +kernel
theorem witness_DistributorSteps_args : let r := ({ ready3 0 with dists := [(0, { (ready3 0).dist 0 with lastQ := ((ready3 0).dist 0).lastQ.set 3 3 })] }).takeBlock 0 0 3 0
    (∃ s3 l, r.readArgs 0 0 (block0 1 false) = (s3, .ok l) ∧ l.length = 8) ∧ ∃ s3 c, r.readArgs 0 0 { block0 1 false with args := 0x10000000000000 } = (s3, .error c) := by
  intro r
  have h : (r.readArgs 0 0 (block0 1 false)).2.toOption = some (List.replicate 8 0) := by decide +kernel
  constructor
  · revert h
    rcases r.readArgs 0 0 (block0 1 false) with ⟨s3, c | l⟩ <;> intro h
    · cases h
    · exact ⟨s3, l, rfl, by cases h; rfl⟩
  · exact ⟨r, .address, by unfold State.readArgs; rfl⟩
def committing (det : Bool) (b : Block) : State := queued (task []) { queue0 4 [b] with det := det }
theorem witness_DistributorSteps_commit : let b := { block0 4 false with awaiting := true, ctag := some 9 }
    let k := { block0 5 false with awaiting := true }
    let s := { committing true b with ctags := [(9, ⟨.live, 0, 1, 0, false, false, none⟩)] }
    (committing true k).queue 0 3 = some { queue0 4 [k] with det := true } ∧ ({ queue0 4 [k] with det := true } : Queue).nextCommit = some (0, k) ∧ k.status ≠ 4 ∧ ({ queue0 4 [b] with det := true } : Queue).nextCommit = some (0, b) ∧ b.status = 4 ∧ b.ctag = some 9 ∧ (9 : Nat) ≠ 0
    ∧ (b.sink = 0 ∧ (queue0 4 [b]).errq = 0 ∧ s.plog = 0) ∧ (b.gone = false ∧ { b with gone := true }.gone = true) ∧ s.ctagState 9 = .live ∧ (committing true b).ctagState 9 ≠ .live ∧ s.liveKids 9 = [] ∧ b.nsucc = 0 := by and_intros <;> decide +kernel
/-- A commit of no cell succeeds; one into a parent whose checked bytes it meets fails. -/
theorem witness_DistributorSteps_outcomes : (∃ s1 l, { one (task []) with ctags := [(9, ⟨.live, 0, 1, 0, false, false, none⟩)] }.commitNow 9 = (s1, .ok l))
    ∧ ∃ s1 e, { canopied none 7 [cellOf 9 3 0, cellOf 7 2 2] [] with ctags := [(7, ⟨.live, 0, 1, 0, false, false, none⟩), (9, ⟨.live, 7, 2, 0, true, true, none⟩)] }.commitNow 9 = (s1, .error e) :=
  ⟨⟨_, _, rfl⟩, _, _, rfl⟩
/-- A block that can be read again, with no successor. -/
theorem witness_DistributorSteps_block : ∃ z v, (paged 0 (task [])).readBlock 0 0x1000 0x5000 = (z, .ok v) ∧ field v 20 2 % 2 ^ 13 = 0 := by
  have h : ((paged 0 (task [])).readBlock 0 0x1000 0x5000).2.toOption = some (List.replicate 64 0) := by decide +kernel
  revert h
  rcases (paged 0 (task [])).readBlock 0 0x1000 0x5000 with ⟨z, c | v⟩ <;> intro h
  · cases h
  · exact ⟨z, v, rfl, by cases h; decide⟩
theorem witness_DistributorSteps_mark : let x := queue0 4 [block0 4 false, block0 1 true]
    let y := { x with retryAt := some 100 }
    let s := queued (task []) x
    s.queue 0 3 = some x ∧ x.firstMark = some (1, block0 1 true) ∧ x.replay = false ∧ (block0 1 true).nsucc = 0 ∧ x.retryAt = none ∧ s.canopyQuiet = true ∧ (∀ c ∈ x.blocks.take 1, 4 ≤ c.status ∧ c.awaiting = false) ∧ y.retryAt = some 100 ∧ x.gone = false ∧ x.errq = 0 ∧ s.plog = 0
    ∧ { s with agenda := [(5, .canopyCommit 9)] }.canopyQuiet = false ∧ (block0 1 false).status < 4 ∧ { s with cycle := 99 }.cycle < 100 ∧ { x with replay := true, interval := some 9 }.interval = some 9 := by and_intros <;> decide +kernel
def thieves (det : Bool) (n : Nat) : State :=
  let x := { queue0 4 [] with steal := true, det := det, group := 3 }
  { one (task []) with dists := [(0, { Dist.reset with queues := [(3, x)] }), (1, { Dist.reset with queues := [(3, { x with blocks := List.replicate n (block0 1 false) })] })] }
theorem witness_DistributorSteps_theft : (thieves false 1).stealReady 0 3 = true ∧ (thieves true 1).stealReady 0 3 = true ∧ (thieves false 0).stealReady 0 3 = false ∧ ((thieves false 1).queue 0 3).map (fun x => decide (x.stealAt ≤ 0)) = some true ∧ ((thieves false 1).queue 0 3).map Queue.members = some [0, 1]
    ∧ ((thieves false 1).readyOn 3 1).length = 1 ∧ (thieves false 0).readyOn 3 1 = [] ∧ ((thieves false 1).queue 1 3).map (fun w => w.head.isSome) = some true ∧ ([0, 1][(0 + 1) % 2]? = some 1) := by and_intros <;> decide +kernel
/-- Channels at 82, 83, 85, 86, 94, 95, 104 and 105 °C; a fence at its limit and before; a thread of a queue; a partition with a queue. -/
theorem witness_MachineEvents : let s := fun (n : Nat) (d : Bool) => { one (task []) with chans := [(0, ⟨60, d, n⟩)] }
    let f := withCore { task [] with reqs := [waiting1 true] } (fun c => c)
    let q := queued { task [] with queue := some (0, 3), blk := some 0 } (queue0 4 [block0 3 false])
    (∀ p ∈ (s 105 true).chans, (s 105 true).chans.find p.1 = some p.2) ∧ (s 105 true).plog = 0 ∧ (∃ c ∈ (s 105 true).chans, 105 ≤ c.2.sensor) ∧ (∀ c ∈ (s 104 true).chans, c.2.sensor < 105) ∧ (85 < 86 ∧ ¬ 85 < 85 ∧ 82 ≤ 82 ∧ ¬ 83 ≤ 82)
    ∧ (95 ≤ 95 ∧ 94 < 95) ∧ 0 % 2 = 0 ∧ 1 % 2 ≠ 0 ∧ (∃ c ∈ (s 90 true).chans, c.2.dbl = true) ∧ ¬ (∃ c ∈ (s 90 false).chans, c.2.dbl = true) ∧ (one (task [])).relctl.getLsbD 1 = true ∧ (one (task [])).relctl.getLsbD 0 = true ∧ (0#3).getLsbD 1 = false
    ∧ ((f.core 0).mq = [] ∧ (f.core 0).redbuf = [] ∧ (f.core 0).holder = none) ∧ (f.core 0).fenceFrom + 2 ^ 24 ≤ { f with cycle := 2 ^ 24 }.cycle ∧ { f with cycle := 2 ^ 24 - 1 }.cycle < (f.core 0).fenceFrom + 2 ^ 24 ∧ (one (task [])).core 1 = Core.reset
    ∧ (q.core 0).threads.length = 1 ∧ { task [] with queue := some (0, 3) }.resumes = false ∧ q.block 0 3 0 = some (block0 3 false) ∧ (task []).unk = [] ∧ (∃ p ∈ (f.core 0).threads, p.2.fences = true) ∧ (one { task [] with kill := some (.serviceKill, 0, 5) }).stuckKill = some (5 + 2 ^ 20, 0, 0)
    ∧ ((withCore (task []) (fun c => { c with sealed := true })).core 0).sealed = true ∧ ((withCore (task []) (fun c => { c with sealed := true })).core 0).failed = false ∧ q.guestQueues 0 = [(0, 3)] ∧ (q.queue 0 3).map Queue.replay = some false := by and_intros <;> decide +kernel
/-- A request at a channel that is refreshed at the normal and at the doubled rate, in the first and in the last cycle of the refresh. -/
theorem witness_MachineEvents_refresh : let m := ask .read 0 ⟨1, 0, 0, 5⟩
    let s := fun (p : Nat) (now : Nat) => { one (task []) with refresh := some p, refreshed := [5], cycle := now, chans := [(5, ⟨86, true, 86⟩)], agenda := [(now, .reqRead m)] }
    messageOf (.reqRead m) = some m ∧ m.dst.kind = 1 ∧ (s 2 5850).refresh = some 2 ∧ 2 % 2 = 0 ∧ 5850 < 2 * 2925 + 420 ∧ (s 1 3344).refresh = some 1
    ∧ m.dst.die * 64 + m.dst.index ∈ (s 1 3344).refreshed ∧ (s 1 3344).agenda = [(3344, .reqRead m)] ∧ 3344 < 1 * 2925 + 420
    ∧ (∃ j ∈ ({ s 2 6000 with queued := [.reqRead m] } : State).queued, ∃ q, messageOf j = some q ∧ q.dst = m.dst) ∧ (∃ c ∈ (s 2 5850).chans, c.2.dbl = true) :=
  ⟨rfl, rfl, rfl, rfl, by decide, rfl, List.mem_singleton.2 rfl, rfl, by decide, ⟨_, List.mem_singleton.2 rfl, _, rfl, rfl⟩, ⟨_, List.mem_singleton.2 rfl, rfl⟩⟩
/-- A window with and without each right, an access to its last byte and one beyond; operations 0 to 5; images valid and not; a machine in each power state. -/
def windowed : State := { State.reset with hostWin := [[⟨0, true, true, 1⟩, ⟨0, false, false, 1⟩], []] }
def badFlash : Flash := { Flash.reset with bytes := [] }
theorem witness_HostRequestsAndStarts : let m := { ask .hwread 5 ⟨2, 0, 0, 5⟩ with serialed := false, words := [8], addr := 65528 }
    (windowed.hostWin.getD 0 [])[65528 / 2 ^ 60]? = some ⟨0, true, true, 1⟩ ∧ (windowed.hostWin.getD 1 [])[0]? = none ∧ (1 * 65536 < 65529 % 2 ^ 60 + 8 ∧ ¬ 1 * 65536 < 65528 % 2 ^ 60 + 8) ∧ windowed.hostRange 0 65528 8 false = some 65528
    ∧ windowed.hostRange 0 65529 8 false = none ∧ windowed.hostRange 0 (2 ^ 60) 8 true = none ∧ m.typ = .hwread ∧ m.serialed = false ∧ windowed.power = .running ∧ { windowed with power := .off }.power ≠ .running ∧ moduleOf 65528 = windowed.moduleNo
    ∧ windowed.storeSealed 65528 = false ∧ { windowed with cores := [(0, { Core.reset with sealed := true })] }.storeSealed 0x8000000000 = true ∧ (∀ w ∈ wordsOf (65528 % 2 ^ 44) 8, w ∉ windowed.eccBad) ∧ 2 ^ 10 ≤ 1024 ∧ 1023 < 2 ^ 10 ∧ windowed.queue 15 63 = none
    ∧ Flash.reset.version 0 = some 0 ∧ Flash.reset.version (Flash.reset.size / 2) = none ∧ badFlash.version 0 = none ∧ (∀ f ∈ State.reset.flash, f.choice ≠ none) ∧ badFlash.choice = none ∧ State.reset.coldFails + 1 < 3 ∧ 3 ≤ 2 + 1
    ∧ State.reset.power ≠ .halted ∧ { State.reset with power := .tripped }.power = .tripped ∧ State.reset.warmFails + 1 < 2 ∧ 2 ≤ 1 + 1 := by and_intros <;> decide +kernel
theorem witness_HostRequestsAndStarts_owner : (∀ typ ∈ [ReqType.hwwrite, .hroot, .hmgmt], Admits (one (task [])) (ask typ 5 ⟨2, 0, 0, 5⟩) ((one (task [])).setOwner (ownerKind (ask typ 5 ⟨2, 0, 0, 5⟩)) (freshOwner (ask typ 5 ⟨2, 0, 0, 5⟩)))) := by
  intro typ ht
  have h : [ReqType.hwwrite, .hroot, .hmgmt].all (fun typ => admitsB typ ⟨2, 0, 0, 5⟩) = true := by decide +kernel
  exact admits_of (List.all_eq_true.1 h typ ht)
theorem witness_EncodeDecode : (Instr.sub c0 63 0 63).isWord = true ∧ (Instr.sub c0 63 0 63).wf = true ∧ (Instr.stallx 255).isWord = true ∧ (Instr.stallx 255).wf = true := by decide +kernel
theorem witness_WordsHaveOneMeaning : decode 0x04028C39 = .ok (.sub c0 5 6 7) ∧ decode ((0x04 : Byte) ++ (0x02 : Byte) ++ (0x8C : Byte) ++ (0x39 : Byte)) = .ok (.sub c0 5 6 7) := by decide +kernel
/-- A word's turn: the state in which a program stands at the PC, one whose budget is over, one whose word denotes nothing, and one whose fetch fails. -/
def placed (w : Nat) : State := State.reset.withFetchWord 32 w
theorem witness_StepRunsDecodedInstruction : let s := placed 0x04028C39
    s.power = .running ∧ s.now = none ∧ s.due = some (0, .issue 0 0) ∧ ((s.thread 0 0).map (fun t => (t.count 0).budgetNow 0)) = some false
    ∧ ((({ s with cores := s.cores.map (fun c => (c.1, { c.2 with threads := c.2.threads.map (fun p => (p.1, { p.2 with budget := 0 })) })) } : State).thread 0 0).map (fun t => (t.count 0).budgetNow 0)) = some true
    ∧ (((s.select 0 0 0).fetch 0 ((s.thread 0 0).getD Thread.reset)).2.toOption) = some 0x04028C39 ∧ (((s.select 0 0 0).fetch 0 { Thread.reset with pc := 0x10000000000000 }).2.toOption) = none := by and_intros <;> decide +kernel
/-- A word that has issued and acts now; a budget that has run out; a sealed core whose containment ends; a kill that its thread has deferred for 2^20 cycles. -/
theorem witness_StepRunsDecodedInstruction_others : let p := { one { task [] with status := .acting 4 0x04028C39 } with cycle := 4 }
    let b := one { task [] with budget := 0 }
    let r := { withCore { task [] with status := .meet 0 5 c0 } (fun c => { c with threads := [], sealed := true, back := 7 }) with cycle := 7 }
    let k := { one { task [] with kill := some (.serviceKill, 0, 0), live := true } with cycle := 2 ^ 20 }
    (p.power = .running ∧ p.now = none ∧ p.due = some (4, .perform 0 0) ∧ (p.thread 0 0).map Thread.status = some (.acting 4 0x04028C39)) ∧ (b.now = none ∧ b.due = some (0, .budget 0 0)) ∧ (r.now = none ∧ r.due = some (7, .restart 0))
    ∧ (k.now = none ∧ k.due = some (2 ^ 20, .reset 0 0)) ∧ Instr.lag p (.sub c0 5 6 7) = 0 ∧ Instr.lag p (.ldd c0 5 8 0) = 4 ∧ isMeet 0x04028C39 = false := by and_intros <;> decide +kernel
theorem witness_GuardSuppresses : let g := { run [] with gsel := 0 }
    let k : Ctl := ⟨true, false, 0⟩
    Issues (one { task [] with gsel := 0 }) g ∧ (Instr.add k 5 6 7).ctl = some k ∧ (Instr.add k 5 6 7).wf = true ∧ legalWord (.add k 5 6 7) (one (task [])) g = true ∧ k.g = true ∧ g.guardHolds = false ∧ g.live = false ∧ g.iv = false ∧ g.rv = false ∧ g.sc = false :=
  ⟨⟨{ task [] with gsel := 0 }, rfl, rfl⟩, by and_intros <;> decide +kernel⟩
/-- A state with its memory in canonical form whose step gives a next state. -/
theorem witness_StepKeepsMemory : (placed 0x04028C39).MemInv ∧ ∃ t, step (placed 0x04028C39) = .next t := by
  refine ⟨by unfold State.MemInv; decide +kernel, ?_⟩
  have h : (match step (placed 0x04028C39) with | .next _ => true | _ => false) = true := by decide +kernel
  split at h
  · exact ⟨_, ‹_›⟩
  · simp at h
/-- An object in the store of core 0 that is ARMED, of generation 7, and expects one arrival; one that expects none; a copy command of this module's thread and a foreign one. -/
def objectAt (count : Nat) (t : Thread) : State := { one t with mem := writeBytes (one t).mem (localKey 0 0x17FF0) (leBytes 8 (7 * 2 ^ 32 + 2 ^ 30 + count)) }
def arrivalAt (home : Nat) (fail : Option (Cause × Word)) : Arrival := ⟨⟨0, 0, 0, 0⟩, 0, 0, 0x700017FF0, fail, 0, 3, false, none, home, 9, 1, some (0, 0)⟩
theorem witness_CompletionObjects : let e : EngCmd := ⟨.copy, 1, 0, 0x700017FF0, 0, 0x100⟩
    let t := { task [] with stream := 9, engs := [e] }
    let x := arrivalAt 0 none
    let w := BitVec.ofNat 64 (leNat (readBytes (objectAt 1 t).mem (localKey x.core (bits x.ref 0 17)) 8))
    let z := BitVec.ofNat 64 (leNat (readBytes (objectAt 0 t).mem (localKey x.core (bits x.ref 0 17)) 8))
    indexOf x.core < 10240 ∧ isService x.core = false ∧ x.core < 16 * 16384 ∧ ((objectAt 1 t).core x.core).waiters = [] ∧ x.module = (objectAt 1 t).moduleNo ∧ bits x.ref 0 17 % 16 = 0 ∧ bits x.ref 0 17 < 0x18000
    ∧ (∀ w ∈ wordsOf (localKey x.core (bits x.ref 0 17)) 16, w ∉ (objectAt 1 t).eccOne ∧ w ∉ (objectAt 1 t).eccBad) ∧ (bits w 30 2 = 1 ∧ bits w 32 32 = bits x.ref 32 32 ∧ bits w 0 12 = 1) ∧ bits z 0 12 = 0
    ∧ (arrivalAt 5 none).home ≠ (objectAt 1 t).moduleNo ∧ x.home = (objectAt 1 t).moduleNo ∧ (arrivalAt 0 (some (.copyArg, 3))).fail = some (.copyArg, 3) ∧ x.fail = none
    ∧ (objectAt 1 t).issuer x.stream = some (0, t, false) ∧ (objectAt 0 t).issuer x.stream = some (0, t, false) ∧ t.engs.find? (fun e => e.serial == x.serial) = some e ∧ e.kind ≠ .mma ∧ e.kind ≠ .mred := by
  and_intros <;> decide +kernel
/-- A start at each of its steps, with cool channels and with one at 105 °C, with a die left and with none; the memory layers at and beyond 10 °C of a stored training. -/
def startingAt (fail : Nat) (warm : Bool) (n : Nat) (deg : Nat) : State :=
  { State.reset with power := .starting warm n 1500, agenda := [], chans := [(0, ⟨60, false, deg⟩)], train := [(0, 50)], boot := State.reset.boot.map (fun b => { b with done := false, fail := fail }) }
theorem witness_HostRequestsAndStarts_steps : let s := startingAt 0
    let f := startingAt 2 false 7 60
    (∀ n ∈ [1, 2, 3, 4, 5, 7], (s false n 60).idleDue = some (1500, .stage false n) ∧ (s true n 60).idleDue = some (1500, .stage true n)) ∧ (∀ c ∈ (s false 1 104).chans, c.2.sensor < 105) ∧ (∃ c ∈ (s false 1 105).chans, 105 ≤ c.2.sensor)
    ∧ ((s true 3 60).layerTemp 0 0 ≤ 50 + 10 ∧ 50 + 10 < (s true 3 61).layerTemp 0 0) ∧ (s true 3 60).train.find 0 = some 50 ∧ (∃ b ∈ (s false 7 60).boot, b.fail = 0) ∧ (∀ b ∈ f.boot, b.fail ≠ 0) ∧ f.warmFails + 1 < 2 ∧ f.coldFails + 1 < 3
    ∧ 2 ≤ { f with warmFails := 1 }.warmFails + 1 ∧ 3 ≤ { f with coldFails := 2 }.coldFails + 1 := by
  and_intros <;> decide +kernel
/-- A host's read through a window onto another module, and an owner's word of each operation's limits. -/
theorem witness_HostRequestsAndStarts_away : let s := { windowed with hostWin := [[⟨5 * 2 ^ 28, true, true, 1⟩], []] }
    let m := { ask .hwread 5 ⟨2, 0, 0, 5⟩ with serialed := false, words := [1024], addr := 0x400 }
    s.hostRange m.dst.die m.addr 1024 false = some (5 * 2 ^ 44 + 0x400) ∧ 1024 ≤ 1024 ∧ (5 * 2 ^ 44 + 0x400) % 1024 + 1024 ≤ 1024 ∧ moduleOf (5 * 2 ^ 44 + 0x400) ≠ s.moduleNo ∧ (ownerOf (5 * 2 ^ 44 + 0x400)).module ≠ s.moduleNo
    ∧ s.power = .running ∧ s.sealedFor m = false ∧ s.parkedHere m = false ∧ s.dieUp 0 = true ∧ ({ s with boot := s.boot.map (fun b => { b with done := false }) } : State).dieUp 0 = false := by and_intros <;> decide +kernel

end Sys2Proof.Tests
end

section
/-! SUPPORT. What the scalar words and the branches share: widened immediates, a refused word, a suppressed word, a word that goes to a target, and how a hint stands or is refused. -/
namespace Sys2Proof.Machine

section
variable {s : State} {t : Thread} {c : Ctl} {f : Form}

/-- An immediate that no IMM latch widens is its sign extension (R33). -/
theorem Thread.widen_eq (t : Thread) {w : Nat} (hw : w ≤ 64) (x : BitVec w) :
    t.widen x = if t.iv then sext (22 + w) (t.immh * 2 ^ w + x.toNat) else x.signExtend 64 := by
  rw [Thread.widen, sext_eq w hw]

/-- A word's own ILLEGAL condition that does not hold changes nothing of its checks. -/
theorem Thread.Runs.with_bad (h : t.Runs c f) {bad : Thread → Bool} (hb : bad t = false) : t.Runs c { f with bad := bad } := by
  obtain ⟨hlive, himm, hro, -, hguard, hpriv, hpend⟩ := h
  exact ⟨hlive, himm, hro, hb, hguard, hpriv, hpend⟩

/-- A word whose own ILLEGAL condition holds is refused, whatever else is true (R351). -/
theorem Thread.precheck_bad (w : Word) (hb : f.bad t = true) : t.precheck c f w = .error (.illegal, w) := by
  simp [Thread.precheck, hb]

/-- A guarded word whose guard does not hold passes its checks and does not execute (R29); an IMM latch may stand where it may govern the word. -/
theorem Thread.precheck_suppressed (w : Word) (hlive : t.live = false) (hiv : t.iv = true → f.immOk = true) (hrv : t.rv = false) (hsc : t.sc = false)
    (hb : f.bad t = false) (hg : c.g = true) (hn : t.guardHolds = false) : t.precheck c f w = .ok false := by
  have himm : (t.iv && !f.immOk) = false := by cases h : t.iv <;> simp_all
  simp [Thread.precheck, hlive, himm, hrv, hsc, hb, hg, hn]

/-- A word that passes its checks and does not execute only completes. -/
theorem runWord_of_suppressed {lag : Nat} (i : Instr) (body : State → Thread → WordRes) (hs : Acts s t lag)
    (hp : t.precheck c f ((encode i).setWidth 64) = .ok false) (hl : f.lag = lag := by rfl) :
    runWord i c f body s = s.put (t.complete c (t.pc + 4) 0) := by
  obtain ⟨t0, h0, rfl⟩ := hs
  subst hl
  unfold runWord
  simp only [State.k, State.sl] at h0 ⊢
  simp only [h0, hp]
  exact State.setThread_setThread s _ _ _ _

/-- A word whose own meaning goes to a target. -/
theorem lift_goto {lag : Nat} {x : Thread} {target : Word} (i : Instr) (h : Acts s t lag) (hr : t.Runs c f) (body : State → Thread → WordRes)
    (hb : body (s.put t) t = .goto x target) (he : exec i s = .next (runWord i c f body s)) (hl : f.lag = lag := by rfl) :
    exec i s = .next (s.put (x.complete c target 0)) := by
  rw [he, runWord_runs i body h hr hl, hb]
  exact congrArg Host.Outcome.next (State.put_put s t _)

/-- A word that completes with a value in `d`, wherever it goes, keeps every other register. -/
theorem kept_complete_wr (s : State) (t : Thread) (c : Ctl) (d : Reg) (v pc : Word) (m : Nat) :
    Kept s t [d] [] t.fpcsr (s.put ((t.wr d v).complete c pc m)) := by
  refine kept_put (fun r hr => ?_) (fun r _ => Thread.vr_of_v (Thread.wr_v t d v) r) (Thread.wr_fpcsr t d v) (Thread.wr_same t d v)
  rw [Thread.complete_rd, Thread.rd_wr, if_neg (fun h => hr (List.mem_singleton.mpr h.1))]

/-- A hint where it may stand: only a LIVE after a word with S, only an IMM after an RMODE, none after an IMM (R33, R36, R39). -/
theorem runHint_stands (i : Instr) (isImm isLive : Bool) (body : Thread → Thread) (mn : Nat → Nat) (hs : Issues s t)
    (hlive : t.live = true → isLive = true) (hiv : t.iv = false) (hrv : t.rv = true → isImm = true) :
    runHint i isImm isLive body mn s = s.put { body t with pc := t.pc + 4, elig := max (s.cycle + 8) (mn s.cycle), live := false, status := .ready, done := true } := by
  have hfree : ((t.live && !isLive) || t.iv || (t.rv && !isImm)) = false := by
    simpa [hiv] using And.intro hlive hrv
  obtain ⟨t0, h0, rfl⟩ := hs
  unfold runHint
  simp only [State.k, State.sl] at h0 ⊢
  simp only [h0, hfree, Bool.false_eq_true, if_false]
  exact State.setThread_setThread s _ _ _ _

/-- A hint where it may not stand is ILLEGAL. -/
theorem runHint_refused (i : Instr) (isImm isLive : Bool) (body : Thread → Thread) (mn : Nat → Nat) (hs : Issues s t)
    (h : t.live = true ∧ isLive = false ∨ t.iv = true ∨ t.rv = true ∧ isImm = false) :
    runHint i isImm isLive body mn s = (s.put t).trapEntry s.k s.sl .illegal ((encode i).setWidth 64) t.pc false := by
  have hbad : ((t.live && !isLive) || t.iv || (t.rv && !isImm)) = true := by
    simpa [or_assoc] using h
  obtain ⟨t0, h0, rfl⟩ := hs
  unfold runHint
  simp only [State.k, State.sl] at h0 ⊢
  simp only [h0, hbad, if_true]
  rfl

end

end Sys2Proof.Machine
end

section
/-! SUPPORT. The compares, the bit words and the words with an immediate (R183 to R186). -/
namespace Sys2Proof.Machine

section
variable {s : State} {t : Thread} {c : Ctl} {d a b : Reg}

/-- A shift amount or a bit number is the operand modulo 64 (R181). -/
theorem amount_eq (y : Word) : amount y = y.toNat % 64 := by simp [amount, bits]

/-- Signed "not below" is "at least". -/
theorem not_slt_eq_decide (x y : Word) : (!x.slt y) = decide (y.toInt ≤ x.toInt) := by simp [BitVec.slt, ← decide_not]
/-- Unsigned "not below" is "at least". -/
theorem not_ult_eq_decide (x y : Word) : (!x.ult y) = decide (y.toNat ≤ x.toNat) := by simp [BitVec.ult, ← decide_not]

/-- A word of two registers gives its function of them. -/
theorem alu_gives {i : Instr} {g : Word → Word → Word} {v : Word} (h : Issues s t) (hr : t.Runs c { reads := [a, b], writes := [d] })
    (hv : g (t.rd a) (t.rd b) = v) (he : exec i s = .next (alu i c d a b g s)) : Gives s t c i d v 0 0 :=
  lift_next i h hr _ (by rw [hv]) he

/-- A word with an immediate gives its function of the register and the widened immediate. -/
theorem aluImm_gives {i : Instr} {imm : BitVec 9} {g : Word → Word → Word} {v : Word} (h : Issues s t)
    (hr : t.Runs c { immOk := true, reads := [a], writes := [d] }) (hv : g (t.rd a) (t.widen imm) = v)
    (he : exec i s = .next (aluImm i c d a imm g s)) : Gives s t c i d v 0 0 :=
  lift_next i h hr _ (by rw [hv]) he

/-- A shift by an immediate amount up to 63 gives the shifted register. -/
theorem shiftImm_gives {i : Instr} {imm : BitVec 9} {g : Word → Nat → Word} {v : Word} (h : Issues s t)
    (hr : t.Runs c { immOk := true, reads := [a], writes := [d] }) (hle : (t.widen imm).toNat ≤ 63) (hv : g (t.rd a) (t.widen imm).toNat = v)
    (he : exec i s = .next (shiftImm i c d a imm g s)) : Gives s t c i d v 0 0 :=
  lift_next i h (hr.with_bad (decide_eq_false (by omega))) _ (by rw [hv]) he

/-- A shift by an immediate amount above 63 is ILLEGAL (R185). -/
theorem shiftImm_illegal {i : Instr} {imm : BitVec 9} {g : Word → Nat → Word} (h : Issues s t) (hgt : 63 < (t.widen imm).toNat)
    (he : exec i s = .next (shiftImm i c d a imm g s)) : Traps s t i .illegal ((encode i).setWidth 64) :=
  lift_pre i h _ (Thread.precheck_bad _ (decide_eq_true hgt)) he

/-- SEL gives the register that the guard selects (R184). -/
theorem sel_gives (h : Issues s t) (hr : t.Runs c { reads := [t.guardReg, if t.guardHolds then a else b], writes := [d] }) :
    Gives s t c (.sel c d a b) d (if t.guardHolds then t.rd a else t.rd b) 0 0 := by
  have hr' : t.Runs c { more := fun t => [t.guardReg, t.selected a b], writes := [d] } := hr
  rw [← apply_ite t.rd]
  exact lift_next _ h hr' _ rfl rfl

end

/-- Settles O2: each word is one of the shared forms, with its function of the operands. -/
theorem compareBitAndImmediateWords : Obligations.CompareBitAndImmediateWords := by
  refine ⟨fun s t c d a b h => ⟨fun hr => ?_, sel_gives h⟩, fun s t c d a i9 i15 h => ?_⟩
  · have hk : amount (t.rd b) = (t.rd b).toNat % 64 := amount_eq _
    refine ⟨alu_gives h hr rfl rfl, alu_gives h hr rfl rfl, alu_gives h hr rfl rfl, ?_, alu_gives h hr rfl rfl, ?_, alu_gives h hr rfl rfl,
      alu_gives h hr rfl rfl, ?_, ?_, ?_, ?_, alu_gives h hr rfl rfl⟩
    · rw [← not_slt_eq_decide]; exact alu_gives h hr rfl rfl
    · rw [← not_ult_eq_decide]; exact alu_gives h hr rfl rfl
    all_goals rw [← hk]; exact alu_gives h hr rfl rfl
  · have hw9 : t.widen i9 = if t.iv then sext 31 (t.immh * 512 + i9.toNat) else i9.signExtend 64 := t.widen_eq (by decide) i9
    have hw15 : t.widen i15 = if t.iv then sext 37 (t.immh * 32768 + i15.toNat) else i15.signExtend 64 := t.widen_eq (by decide) i15
    rw [← hw9, ← hw15]
    refine ⟨fun hr => ⟨aluImm_gives h hr rfl rfl, aluImm_gives h hr rfl rfl, aluImm_gives h hr rfl rfl, aluImm_gives h hr rfl rfl, fun hle =>
        ⟨shiftImm_gives h hr hle rfl rfl, shiftImm_gives h hr hle rfl rfl, shiftImm_gives h hr hle rfl rfl⟩, fun hgt => ?_⟩,
      fun hr => lift_next _ h hr _ rfl rfl, fun hr => lift_next _ h hr _ rfl rfl⟩
    simp only [List.forall_mem_cons, List.not_mem_nil, false_imp_iff, implies_true, and_true]
    exact ⟨shiftImm_illegal h hgt rfl, shiftImm_illegal h hgt rfl, shiftImm_illegal h hgt rfl⟩

end Sys2Proof.Machine
end

section
/-! SUPPORT. Branches, jumps and hints (R198, R199, R30 to R39). -/
namespace Sys2Proof.Machine

section
variable {s : State} {t : Thread} {c : Ctl}

/-- RMODE's latch reads back as its code with RV, with no immediate (R34). -/
theorem rmode_latch (rm : BitVec 3) : let x := BitVec.ofNat 28 (2 ^ 27 + rm.toNat * 2 ^ 24)
    x.getLsbD 27 = true ∧ bits x 24 3 = rm.toNat ∧ bits x 0 24 = 0 := by
  have := rm.isLt
  refine ⟨?_, ?_, ?_⟩
  · rw [BitVec.getLsbD_ofNat, Nat.testBit_eq_decide_div_mod_eq]; simp; omega
  · simp [bits]; omega
  · simp [bits]

/-- IMM's latch reads back as its immediate with IV, beside the rounding override that stood there (R34, R36). -/
theorem imm_latch (pfx : BitVec 28) (p : BitVec 22) : let x := BitVec.ofNat 28 (bits pfx 24 4 * 2 ^ 24 + 2 ^ 23 + p.toNat)
    x.getLsbD 23 = true ∧ bits x 0 22 = p.toNat ∧ bits x 24 4 = bits pfx 24 4 := by
  have := p.isLt
  have hb : bits pfx 24 4 < 16 := Nat.mod_lt _ (by decide)
  generalize bits pfx 24 4 = o at hb
  refine ⟨?_, ?_, ?_⟩
  · rw [BitVec.getLsbD_ofNat, Nat.testBit_eq_decide_div_mod_eq]; simp; omega
  · simp [bits]; omega
  · simp [bits]; omega

/-- The target of a branch is the word's address and four times the widened offset (R198). -/
theorem Thread.target_eq (t : Thread) (off : BitVec 21) :
    t.target off = t.pc + 4 * (if t.iv then sext 43 (t.immh * 2 ^ 21 + off.toNat) else off.signExtend 64) := by
  rw [Thread.target, t.widen_eq (by decide) off]

/-- A branch whose guard does not hold only completes (R29); it may stand under an IMM latch, as its form says. -/
theorem branch_suppressed {i : Instr} {f : Form} {body : State → Thread → WordRes} (h : Issues s t) (hlive : t.live = false) (hrv : t.rv = false)
    (hsc : t.sc = false) (hg : c.g = true) (hn : t.guardHolds = false) (himm : f.immOk = true) (hb : f.bad t = false) (hl : f.lag = 0)
    (he : exec i s = .next (runWord i c f body s)) :
    exec i s = .next (s.put (t.complete c (t.pc + 4) 0)) ∧ Kept s t [] [] t.fpcsr (s.put (t.complete c (t.pc + 4) 0)) :=
  ⟨by rw [he, runWord_of_suppressed i body h (Thread.precheck_suppressed _ hlive (fun _ => himm) hrv hsc hb hg hn) hl], kept_complete ..⟩

/-- The next word may issue 8 cycles after a branch and 8 more for each stall count (R23). -/
theorem complete_elig_of_issues (h : Issues s t) (target : Word) : (t.complete c target 0).elig = s.cycle + 8 * (c.w.toNat + 1) := by
  obtain ⟨t0, -, rfl⟩ := h
  simp

/-- JR goes to its register (R199). -/
theorem jr_goes {a : Reg} (h : Issues s t) (hr : t.Runs c { reads := [a] }) (ha : bits (t.rd a) 0 2 = 0) :
    exec (.jr c a) s = .next (s.put (t.complete c (t.rd a) 0)) :=
  lift_goto _ h hr _ (by simp [ha]) rfl
/-- JR to a target that is no multiple of 4 is ALIGN (R199). -/
theorem jr_traps {a : Reg} (h : Issues s t) (hr : t.Runs c { reads := [a] }) (ha : bits (t.rd a) 0 2 ≠ 0) : Traps s t (.jr c a) .align (t.rd a) :=
  lift_trap _ h hr _ (by simp [ha]) rfl
/-- JRL goes to its register and links (R199). -/
theorem jrl_goes {a : Reg} (h : Issues s t) (hr : t.Runs c { reads := [a], writes := [63#6] }) (ha : bits (t.rd a) 0 2 = 0) :
    exec (.jrl c a) s = .next (s.put ((t.wr 63#6 (t.pc + 4)).complete c (t.rd a) 0)) :=
  lift_goto _ h hr _ (by simp [ha]) rfl
/-- JRL to a target that is no multiple of 4 is ALIGN and does not link (R199). -/
theorem jrl_traps {a : Reg} (h : Issues s t) (hr : t.Runs c { reads := [a], writes := [63#6] }) (ha : bits (t.rd a) 0 2 ≠ 0) :
    Traps s t (.jrl c a) .align (t.rd a) :=
  lift_trap _ h hr _ (by simp [ha]) rfl

/-- A hint that may not stand. -/
theorem hint_traps {i : Instr} {isImm isLive : Bool} {body : Thread → Thread} {mn : Nat → Nat} (h : Issues s t)
    (hb : t.live = true ∧ isLive = false ∨ t.iv = true ∨ t.rv = true ∧ isImm = false)
    (he : exec i s = .next (runHint i isImm isLive body mn s)) : Traps s t i .illegal ((encode i).setWidth 64) := by
  rw [Traps, he, runHint_refused i isImm isLive body mn h hb]

/-- LIVE that is not due acts as NOPH; LIVE that is due names the safe point (R39). -/
theorem live_stands (p : BitVec 22) (h : Issues s t) (hiv : t.iv = false) (hrv : t.rv = false) :
    exec (.live p) s = .next (s.put { (if t.live then { t with safePoint := some p } else t) with
      pc := t.pc + 4, elig := max (s.cycle + 8) 0, live := false, status := .ready, done := true }) :=
  congrArg Host.Outcome.next (runHint_stands _ _ _ _ _ h (fun _ => rfl) hiv (by simp [hrv]))

end

/-- Settles O34: the branches and jumps by their shared form, the hints by where each may stand. -/
theorem branchesJumpsAndHints : Obligations.BranchesJumpsAndHints := by
  refine ⟨fun s t c off a h => ?_, fun s t p r b sense rm n h => ?_⟩
  · intro goes im linked
    rw [show t.pc + 4 * im = t.target off from (t.target_eq off).symm]
    refine ⟨fun hr => ⟨lift_goto _ h hr _ rfl rfl, kept_complete ..⟩, fun hr => ⟨lift_goto _ h hr _ rfl rfl, kept_complete_wr ..⟩,
      fun hr => ⟨fun ha => ⟨jr_goes h hr ha, kept_complete ..⟩, jr_traps h hr⟩,
      fun hr => ⟨fun ha => ⟨jrl_goes h hr ha, kept_complete_wr ..⟩, jrl_traps h hr⟩,
      (Thread.rd_wr ..).trans (if_pos ⟨rfl, by decide⟩), fun hg hn hlive hrv hsc => ?_, complete_elig_of_issues h⟩
    simp only [List.forall_mem_cons, List.not_mem_nil, false_imp_iff, implies_true, and_true]
    exact ⟨branch_suppressed h hlive hrv hsc hg hn rfl rfl rfl rfl, branch_suppressed h hlive hrv hsc hg hn rfl rfl rfl rfl⟩
  · refine ⟨fun ⟨hlive, hiv, hrv⟩ => ?_, fun hlive hiv => ⟨_, congrArg Host.Outcome.next (runHint_stands _ _ _ _ _ h (by simp [hlive]) hiv (fun _ => rfl)), imm_latch t.pfx p⟩,
      fun hlive hiv hrv => ?_, fun hb => ?_, fun hb => ?_, fun hb => ?_⟩
    · have hfree : t.HintFree := ⟨hlive, hiv, hrv⟩
      have free (i : Instr) (body : Thread → Thread) (mn : Nat → Nat) : (.next (runHint i false false body mn s) : Out) = _ :=
        congrArg _ (runHint_free i false false body mn h hfree)
      refine ⟨free _ _ _, free _ _ _, free _ _ _, ?_, _, free _ _ _, rmode_latch rm⟩
      simpa [hlive] using live_stands p h hiv hrv
    · simpa [hlive] using live_stands p h hiv hrv
    · have traps {i : Instr} {body : Thread → Thread} {mn : Nat → Nat} := hint_traps (i := i) (isImm := false) (isLive := false) (body := body) (mn := mn)
        h (by simpa using hb)
      simp only [List.forall_mem_cons, List.not_mem_nil, false_imp_iff, implies_true, and_true]
      exact ⟨traps rfl, traps rfl, traps rfl, traps rfl⟩
    · exact hint_traps h (by simpa using hb) rfl
    · exact hint_traps h (by simpa using hb) rfl

end Sys2Proof.Machine
end
